-- ==== Sys2Proof/Word.lean ====
section
/-! DEFINITION. The word types of the machine: abbreviations only. -/

namespace Sys2Proof

/-- A byte. -/
abbrev Byte := BitVec 8
/-- A halfword. -/
abbrev W16 := BitVec 16
/-- A 29-bit literal payload (R79). -/
abbrev Lit := BitVec 29
/-- A 32-bit word: one IMEM word, one grid lane. -/
abbrev W32 := BitVec 32
/-- A 64-bit word: result queue, named registers, system registers. -/
abbrev W64 := BitVec 64
/-- A 128-bit beat, grid value or edge segment. -/
abbrev W128 := BitVec 128
/-- Bytes by address, listed in rising order, none equal to what an unlisted address reads as. -/
abbrev Mem := List Host.Cell

end Sys2Proof
end

