-- ==== Sys2Proof/Config.lean ====
section
/-! DEFINITION. What the spec leaves open: constants without a body (free values), applied to operands or to a
counter that State holds, and the few fixed numbers of the reference board. -/

namespace Sys2Proof.Config

/-- A fresh free value of 64 bits, by the number of the draw (State.freeCount). Log entry 4. -/
opaque free : Nat → W64
/-- The opaque bytes of a fault frame (stream, BTE and SYN records whose inner layout R282 does not give):
save number, offset. Log entry 8. -/
opaque frameByte : Nat → Nat → Byte
/-- The body bytes of freeze image number n (R167 leaves their layout open). Log entry 8. -/
opaque imageByte : Nat → Nat → Byte
/-- CHK of a frame (R283, device check), by save number. Log entry 8. -/
opaque frameCheck : Nat → W64
/-- The estimated power of quad q in mW at tick k (R329: calibrated activity counters). Log entry 9. -/
opaque quadPower : Nat → Nat → Nat
/-- The power of the memory dies and links in mW at tick k (R329). Log entry 9. -/
opaque otherPower : Nat → Nat
/-- Whether the governor runs ballast on idle quad q at tick k, where R332 leaves it the choice. Log entry 9. -/
opaque runsBallast : Nat → Nat → Bool
/-- The idle floor of a quad in mW (R341). Log entry 9. -/
opaque idleFloor : Nat → Nat
/-- Predicted current in A of quad q at frequency f (MHz) in control interval k (R328 step 2). Log entry 9. -/
opaque predictedAmps : Nat → Nat → Nat → Nat
/-- The hottest sensor of quad q in degrees C during interval k (R328 step 3). Log entry 9. -/
opaque hottest : Nat → Nat → Nat
/-- The public key of the device key that some helper data regenerate, byte by byte (R356). Log entry 10. -/
opaque deviceKeyByte : List Byte → Nat → Byte
/-- A signature of the device key beyond its index, byte by byte: helper data, signed bytes, index, offset (R356). Log
entry 10. -/
opaque deviceSigByte : List Byte → List Byte → Nat → Nat → Byte
/-- Byte by byte, the SHAKE256 digest of some bytes (R356). Log entry 10. -/
opaque digestByte : List Byte → Nat → Byte
/-- Whether a signature of some bytes verifies under the vendor key (R356). Log entry 10. -/
opaque vendorOk : List Byte → List Byte → Bool
/-- Whether a signature of some bytes verifies under a device public key (R356). Log entry 10. -/
opaque deviceOk : List Byte → List Byte → List Byte → Bool
/-- Whether the self-test of a unit at reset number n passes (R361 step 5), with the failing and spare indices that the
repair map holds for it: kind (0 core, 1 array, 2 grid, 3 vault, 4 memory-side cache, 5 HBM lanes, 6 die-to-die lanes),
unit, reset. Log entry 11. -/
opaque selfTest : Nat → Nat → Nat → List (Nat × Nat) → Bool
/-- The row of storage that holds a word (R352). Log entry 48. -/
opaque rowOf : Nat → Nat
/-- Time units that the load of a gang takes (R310 step 2), by draw. Log entry 65. -/
opaque loadTime : Nat → Nat
/-- Ticks beyond the first that the drain actions of quad q take when drain begins at tick k (R341). Log entry 9. -/
opaque drainExtra : Nat → Nat → Nat
/-- Whether another module of the pod answers a request of partition p at an address with an error (R363): module,
partition, address. Log entry 14. -/
opaque podError : Nat → Nat → Nat → Bool
/-- The entry a full translation structure displaces (R319): structure number, draw. Log entry 12. -/
opaque victim : Nat → Nat → Nat

/-- LSG_STRAP.UP of the reference board, W/us (R339). -/
abbrev strapUp : Nat := 120
/-- LSG_STRAP.DN of the reference board, W/us (R339). -/
abbrev strapDn : Nat := 120
/-- LSG_STRAP.PMAX of the reference board, W (R339). -/
abbrev strapPmax : Nat := 3600
/-- Time units in one ns: every period of R325, and its 5/4 stretch, is a whole number of units. Log entry 13. -/
abbrev unitsPerNs : Nat := 995904
/-- Number of cores, quads and dies (R1). -/
abbrev nCores : Nat := 192
abbrev nQuads : Nat := 48

end Sys2Proof.Config

namespace Sys2Proof.Config

/-- Whether address a of another module m of the pod has a target for partition p (R344): module, partition,
address. Log entry 14. -/
opaque podTarget : Nat → Nat → Nat → Bool
/-- DETAIL of a stop for which R283 names none, by save number. Log entry 4. -/
opaque openDetail : Nat → Nat

end Sys2Proof.Config
end

