-- ==== Sys2Proof/Syntax.lean ====
section
/-! DEFINITION. Every step of the machine, as syntax: the words of the seven engines (rows 0-159 of the opcode
table; `i` is the idle field of R78, the other arguments are the operand fields of R81 and the literals of R79)
and the part's other indivisible steps (rows 160-245). -/

namespace Sys2Proof

/-- The literals TM selects (R80): a stamp relative to T0, or an absolute LCC value. -/
inductive When where
  | stamp (t : Lit)
  | abs (t : BitVec 58)
  deriving DecidableEq, Repr

/-- A region operand (R79, RG): base / 16, stride / 16 as a signed value, element count. -/
structure Region where
  base : BitVec 17
  stride : BitVec 13
  count : W16
  deriving DecidableEq, Repr

/-- A bind record as firmware writes it (R307). -/
structure BindRec where
  supv : Bool
  gidx : BitVec 2
  gsize : BitVec 3
  gid : W16
  lid : W32
  tile : BitVec 48
  phase : BitVec 4
  dl : W64
  deriving DecidableEq, Repr

/-- A word at its home (R350, R351): as the vault or the memory-side cache holds it, or, `stack`, as its HBM stack does. -/
structure HomeWord where
  stack : Bool
  pa : BitVec 52
  deriving DecidableEq, Repr

/-- Where an uncorrectable error is found (R349). -/
inductive ErrorSite where
  | home (w : HomeWord)
  | privateLine (pa : BitVec 52)     -- a line of the current core's L1D or vault cache
  | coreStore                   -- LM, SPM, IMEM, GCS, SIMEM, SLM, the array or the grid of the current core
  | coreReg                     -- belt, N registers, queues, snapshot buffer, register files
  | quadShared                  -- quad links, barrier lines, TLB control (R300)
  deriving DecidableEq, Repr

/-- Where a correctable error is found (R349). -/
inductive CeSite where
  | home                        -- a word of a vault, the memory-side cache or HBM, at its physical address
  | privateLine                 -- a word of a line of the current core's L1D or vault cache, at its physical address
  | coreStore                   -- LM, SPM, IMEM, GCS, SIMEM, SLM, the array or the grid of the current core, by word number
  deriving DecidableEq, Repr

/-- A host access over the Rhous link (R362). -/
inductive HostAccess where
  | mailWrite (k : BitVec 6) (v : W32)
  | mailRead (k : BitVec 6)
  | doorbell
  | headWrite (p : BitVec 4) (v : W32)
  | dropWrite (p : BitVec 4) (v : W32)
  | intakeRead (p : BitVec 4) (k : BitVec 2)     -- LNC_HEAD, LNC_TAIL, LNC_DROP
  | memWrite (pa : BitVec 41) (b : List Byte)
  | memRead (pa : BitVec 41) (n : Nat)
  | warm
  deriving DecidableEq, Repr

/-- A request that reaches the module over a pod or Ethernet port for partition p (R363). -/
inductive RemoteAccess where
  | write (p : BitVec 4) (pa : BitVec 52) (b : List Byte)
  | read (p : BitVec 4) (pa : BitVec 52) (n : Nat)
  | head (p : BitVec 4) (v : W32)
  deriving DecidableEq, Repr

/-- A request over an Ultra Ethernet port (R363): the port, and what it asks. -/
structure PortRequest where
  port : BitVec 2
  ask : RemoteAccess
  deriving DecidableEq, Repr

/-- A request to raise the minimum firmware version, signed by the vendor (R357). -/
structure RaiseRequest where
  version : W32
  sig : List Byte
  deriving DecidableEq, Repr

/-- A repair entry (R358). -/
structure RepairEntry where
  kind : BitVec 4
  die : BitVec 4
  unit : Byte
  failing : W16
  spare : W16
  rsv : W16                     -- bits [63:48]
  deriving DecidableEq, Repr

/-- A copy of the configuration record (R358): header, identity, repairs, pod, and the signature of each section; the
header's is by the device key or by the vendor key. -/
structure ConfigRecord where
  revision : W16
  length : W32
  seq : W32
  serial : W64
  devKey : List Byte            -- device public key
  cert : List Byte              -- vendor identity certificate
  helper : List Byte            -- helper data of the device seed
  factory : List RepairEntry
  inField : List RepairEntry
  pod : W32
  modNo : BitVec 10
  sigIdentity : List Byte
  sigFactory : List Byte
  sigInField : List Byte
  sigPod : List Byte
  sigHeader : List Byte
  byDevice : Bool
  deriving DecidableEq, Repr

/-- What firmware writes with 64 bits: a system register number (R277), an intake register of a partition (R303). -/
inductive RegId where
  | sys (n : BitVec 12)
  | lncRing (p : BitVec 4)
  | lncDrop (p : BitVec 4)
  | mail (k : BitVec 6)         -- a word of the mailbox shared with the host (R362)
  | record (k : BitVec 3)       -- a 64-bit word of the bind record of the current core (R307)
  | uePart (k : BitVec 2)       -- the partition of an Ultra Ethernet port (R363)
  deriving DecidableEq, Repr

/-- One step of the machine. -/
inductive Instr where
  /-- `<e>.nop` (R85). -/
  | cpNop (e : BitVec 3) (i : BitVec 4)
  /-- `<e>.wait n` (R85). -/
  | wait (e : BitVec 3) (i : BitVec 4) (n : BitVec 18)
  /-- `<e>.until stamp t` (R85). -/
  | untilStamp (e : BitVec 3) (i : BitVec 4) (t : Lit)
  /-- CP_ADD (R101). -/
  | cpAdd (i : BitVec 4) (a : BitVec 5) (b : BitVec 5)
  /-- CP_SUB (R101). -/
  | cpSub (i : BitVec 4) (a : BitVec 5) (b : BitVec 5)
  /-- CP_MUL (R101). -/
  | cpMul (i : BitVec 4) (a : BitVec 5) (b : BitVec 5)
  /-- CP_MULH (R101). -/
  | cpMulh (i : BitVec 4) (a : BitVec 5) (b : BitVec 5)
  /-- CP_AND (R101). -/
  | cpAnd (i : BitVec 4) (a : BitVec 5) (b : BitVec 5)
  /-- CP_OR (R101). -/
  | cpOr (i : BitVec 4) (a : BitVec 5) (b : BitVec 5)
  /-- CP_XOR (R101). -/
  | cpXor (i : BitVec 4) (a : BitVec 5) (b : BitVec 5)
  /-- CP_ANDN (R101). -/
  | cpAndn (i : BitVec 4) (a : BitVec 5) (b : BitVec 5)
  /-- CP_SHL (R101). -/
  | cpShl (i : BitVec 4) (a : BitVec 5) (b : BitVec 5)
  /-- CP_SHR (R101). -/
  | cpShr (i : BitVec 4) (a : BitVec 5) (b : BitVec 5)
  /-- CP_SAR (R101). -/
  | cpSar (i : BitVec 4) (a : BitVec 5) (b : BitVec 5)
  /-- CP_MIN (R101). -/
  | cpMin (i : BitVec 4) (a : BitVec 5) (b : BitVec 5)
  /-- CP_MAX (R101). -/
  | cpMax (i : BitVec 4) (a : BitVec 5) (b : BitVec 5)
  /-- CP_ADDI (R102). -/
  | cpAddi (i : BitVec 4) (a : BitVec 5) (m : BitVec 13)
  /-- CP_ANDI (R102). -/
  | cpAndi (i : BitVec 4) (a : BitVec 5) (m : BitVec 13)
  /-- CP_ORI (R102). -/
  | cpOri (i : BitVec 4) (a : BitVec 5) (m : BitVec 13)
  /-- CP_XORI (R102). -/
  | cpXori (i : BitVec 4) (a : BitVec 5) (m : BitVec 13)
  /-- CP_SHLI (R102). -/
  | cpShli (i : BitVec 4) (a : BitVec 5) (m : BitVec 6)
  /-- CP_SHRI (R102). -/
  | cpShri (i : BitVec 4) (a : BitVec 5) (m : BitVec 6)
  /-- CP_SARI (R102). -/
  | cpSari (i : BitVec 4) (a : BitVec 5) (m : BitVec 6)
  /-- CP_LIM (R103). -/
  | cpLim (i : BitVec 4) (m : BitVec 18)
  /-- CP_LIMX (R103). -/
  | cpLimx (i : BitVec 4) (h : BitVec 6) (v : BitVec 58)
  /-- CP_CEQ (R104). -/
  | cpCeq (i : BitVec 4) (a : BitVec 5) (b : BitVec 5)
  /-- CP_CNE (R104). -/
  | cpCne (i : BitVec 4) (a : BitVec 5) (b : BitVec 5)
  /-- CP_CLT (R104). -/
  | cpClt (i : BitVec 4) (a : BitVec 5) (b : BitVec 5)
  /-- CP_CLE (R104). -/
  | cpCle (i : BitVec 4) (a : BitVec 5) (b : BitVec 5)
  /-- CP_CLTU (R104). -/
  | cpCltu (i : BitVec 4) (a : BitVec 5) (b : BitVec 5)
  /-- CP_CLEU (R104). -/
  | cpCleu (i : BitVec 4) (a : BitVec 5) (b : BitVec 5)
  /-- CP_CEQI (R104). -/
  | cpCeqi (i : BitVec 4) (a : BitVec 5) (m : BitVec 13)
  /-- CP_CLTI (R104). -/
  | cpClti (i : BitVec 4) (a : BitVec 5) (m : BitVec 13)
  /-- CP_SEL (R105). -/
  | cpSel (i : BitVec 4) (a : BitVec 5) (b : BitVec 5) (c : BitVec 5)
  /-- CP_PUT (R106). -/
  | cpPut (i : BitVec 4) (n : BitVec 4) (a : BitVec 5)
  /-- CP_SPILL (R107). -/
  | cpSpill (i : BitVec 4) (a : BitVec 5) (k : BitVec 9)
  /-- CP_FILL (R107). -/
  | cpFill (i : BitVec 4) (k : BitVec 9)
  /-- CP_LD8 (R109). -/
  | cpLd8 (i : BitVec 4) (a : BitVec 5) (m : BitVec 13)
  /-- CP_LD8S (R109). -/
  | cpLd8s (i : BitVec 4) (a : BitVec 5) (m : BitVec 13)
  /-- CP_LD16 (R109). -/
  | cpLd16 (i : BitVec 4) (a : BitVec 5) (m : BitVec 13)
  /-- CP_LD16S (R109). -/
  | cpLd16s (i : BitVec 4) (a : BitVec 5) (m : BitVec 13)
  /-- CP_LD32 (R109). -/
  | cpLd32 (i : BitVec 4) (a : BitVec 5) (m : BitVec 13)
  /-- CP_LD32S (R109). -/
  | cpLd32s (i : BitVec 4) (a : BitVec 5) (m : BitVec 13)
  /-- CP_LD64 (R109). -/
  | cpLd64 (i : BitVec 4) (a : BitVec 5) (m : BitVec 13)
  /-- CP_LDT64 (R112). -/
  | cpLdt64 (i : BitVec 4) (a : BitVec 5) (b : BitVec 5) (m : BitVec 8)
  /-- CP_ST8 (R110). -/
  | cpSt8 (i : BitVec 4) (a : BitVec 5) (b : BitVec 5) (m : BitVec 8)
  /-- CP_ST16 (R110). -/
  | cpSt16 (i : BitVec 4) (a : BitVec 5) (b : BitVec 5) (m : BitVec 8)
  /-- CP_ST32 (R110). -/
  | cpSt32 (i : BitVec 4) (a : BitVec 5) (b : BitVec 5) (m : BitVec 8)
  /-- CP_ST64 (R110). -/
  | cpSt64 (i : BitVec 4) (a : BitVec 5) (b : BitVec 5) (m : BitVec 8)
  /-- CP_TAGW (R113). -/
  | cpTagw (i : BitVec 4) (a : BitVec 5) (b : BitVec 5)
  /-- CP_TAGR (R113). -/
  | cpTagr (i : BitVec 4) (a : BitVec 5)
  /-- CP_NLD64 (R114). -/
  | cpNld64 (i : BitVec 4) (a : BitVec 5) (q : BitVec 2)
  /-- CP_NST64 (R114). -/
  | cpNst64 (i : BitVec 4) (a : BitVec 5) (b : BitVec 5) (q : BitVec 2)
  /-- CP_BR (R116). -/
  | cpBr (i : BitVec 4) (t : BitVec 14)
  /-- CP_BZ (R116). -/
  | cpBz (i : BitVec 4) (k : BitVec 4) (t : BitVec 14)
  /-- CP_BNZ (R116). -/
  | cpBnz (i : BitVec 4) (k : BitVec 4) (t : BitVec 14)
  /-- CP_BRX (R116). -/
  | cpBrx (i : BitVec 4) (a : BitVec 5)
  /-- CP_CALL (R117). -/
  | cpCall (i : BitVec 4) (t : BitVec 14)
  /-- CP_CALLX (R117). -/
  | cpCallx (i : BitVec 4) (a : BitVec 5)
  /-- CP_RET (R117). -/
  | cpRet (i : BitVec 4)
  /-- CP_LOOP (R118). -/
  | cpLoop (i : BitVec 4) (a : BitVec 5) (d : BitVec 13) (p : Lit)
  /-- CP_RDLCC (R121). -/
  | cpRdlcc (i : BitVec 4)
  /-- CP_RDWTC (R121). -/
  | cpRdwtc (i : BitVec 4)
  /-- CP_RDHDC (R121). -/
  | cpRdhdc (i : BitVec 4)
  /-- CP_RDFLAG (R121). -/
  | cpRdflag (i : BitVec 4)
  /-- CP_CLRFLAG (R121). -/
  | cpClrflag (i : BitVec 4) (m : BitVec 8)
  /-- LD_BASE (R124). -/
  | ldBase (i : BitVec 4) (sp : BitVec 3) (v : BitVec 57)
  /-- LD_DIM (R124). -/
  | ldDim (i : BitVec 4) (d : BitVec 2) (c : BitVec 16) (v : W32)
  /-- LD_FMT (R124). -/
  | ldFmt (i : BitVec 4) (f : BitVec 5) (p : BitVec 3) (h : BitVec 2)
  /-- LD_TAG (R124). -/
  | ldTag (i : BitVec 4) (tm : BitVec 2) (t : BitVec 16)
  /-- LD_RATE (R124). -/
  | ldRate (i : BitVec 4) (n : BitVec 8)
  /-- LD_START (R127). -/
  | ldStart (i : BitVec 4)
  /-- LD_START_TIMED (R127). -/
  | ldStartTimed (i : BitVec 4) (w : When)
  /-- LD_STOP (R134). -/
  | ldStop (i : BitVec 4)
  /-- ST_BASE (R124). -/
  | stBase (i : BitVec 4) (sp : BitVec 3) (v : BitVec 57)
  /-- ST_DIM (R124). -/
  | stDim (i : BitVec 4) (d : BitVec 2) (c : BitVec 16) (v : W32)
  /-- ST_FMT (R124). -/
  | stFmt (i : BitVec 4) (f : BitVec 5) (p : BitVec 3) (h : BitVec 2) (md : BitVec 2)
  /-- ST_TAG (R124). -/
  | stTag (i : BitVec 4) (tm : BitVec 2) (t : BitVec 16)
  /-- ST_RATE (R124). -/
  | stRate (i : BitVec 4) (n : BitVec 8)
  /-- ST_START (R127). -/
  | stStart (i : BitVec 4)
  /-- ST_START_TIMED (R127). -/
  | stStartTimed (i : BitVec 4) (w : When)
  /-- ST_STOP (R134). -/
  | stStop (i : BitVec 4)
  /-- GR_CFG (R208). -/
  | grCfg (i : BitVec 4) (g : BitVec 10)
  /-- GR_CONST (R209). -/
  | grConst (i : BitVec 4) (el : BitVec 6) (k : BitVec 4) (v : W32)
  /-- GR_START (R210). -/
  | grStart (i : BitVec 4) (t : Lit)
  /-- GR_STOP (R211). -/
  | grStop (i : BitVec 4)
  /-- GR_VADD (R213). -/
  | grVadd (i : BitVec 4) (f : BitVec 5) (md : BitVec 2) (dst : Region) (a : Region) (b : Region)
  /-- GR_VSUB (R213). -/
  | grVsub (i : BitVec 4) (f : BitVec 5) (md : BitVec 2) (dst : Region) (a : Region) (b : Region)
  /-- GR_VMUL (R213). -/
  | grVmul (i : BitVec 4) (f : BitVec 5) (md : BitVec 2) (dst : Region) (a : Region) (b : Region)
  /-- GR_VMIN (R213). -/
  | grVmin (i : BitVec 4) (f : BitVec 5) (dst : Region) (a : Region) (b : Region)
  /-- GR_VMAX (R213). -/
  | grVmax (i : BitVec 4) (f : BitVec 5) (dst : Region) (a : Region) (b : Region)
  /-- GR_VAND (R213). -/
  | grVand (i : BitVec 4) (f : BitVec 5) (dst : Region) (a : Region) (b : Region)
  /-- GR_VOR (R213). -/
  | grVor (i : BitVec 4) (f : BitVec 5) (dst : Region) (a : Region) (b : Region)
  /-- GR_VXOR (R213). -/
  | grVxor (i : BitVec 4) (f : BitVec 5) (dst : Region) (a : Region) (b : Region)
  /-- GR_VSADD (R213). -/
  | grVsadd (i : BitVec 4) (f : BitVec 5) (dst : Region) (a : Region) (b : Region)
  /-- GR_VCMP (R213). -/
  | grVcmp (i : BitVec 4) (f : BitVec 5) (pr : BitVec 3) (dst : Region) (a : Region) (b : Region)
  /-- GR_VFMA (R213). -/
  | grVfma (i : BitVec 4) (f : BitVec 5) (md : BitVec 2) (dst : Region) (a : Region) (b : Region) (c : Region)
  /-- GR_VSEL (R213). -/
  | grVsel (i : BitVec 4) (f : BitVec 5) (dst : Region) (a : Region) (b : Region) (c : Region)
  /-- GR_VABS (R213). -/
  | grVabs (i : BitVec 4) (f : BitVec 5) (dst : Region) (a : Region)
  /-- GR_VNEG (R213). -/
  | grVneg (i : BitVec 4) (f : BitVec 5) (dst : Region) (a : Region)
  /-- GR_VRCP (R213). -/
  | grVrcp (i : BitVec 4) (f : BitVec 5) (md : BitVec 2) (dst : Region) (a : Region)
  /-- GR_VRSQRT (R213). -/
  | grVrsqrt (i : BitVec 4) (f : BitVec 5) (md : BitVec 2) (dst : Region) (a : Region)
  /-- GR_VEXP2 (R213). -/
  | grVexp2 (i : BitVec 4) (f : BitVec 5) (md : BitVec 2) (dst : Region) (a : Region)
  /-- GR_VLOG2 (R213). -/
  | grVlog2 (i : BitVec 4) (f : BitVec 5) (md : BitVec 2) (dst : Region) (a : Region)
  /-- GR_VTANH (R213). -/
  | grVtanh (i : BitVec 4) (f : BitVec 5) (md : BitVec 2) (dst : Region) (a : Region)
  /-- GR_VSUM (R215). -/
  | grVsum (i : BitVec 4) (f : BitVec 5) (md : BitVec 2) (dst : Region) (a : Region)
  /-- GR_VSCAN (R215). -/
  | grVscan (i : BitVec 4) (f : BitVec 5) (md : BitVec 2) (dst : Region) (a : Region)
  /-- GR_VFILL (R214). -/
  | grVfill (i : BitVec 4) (f : BitVec 5) (dst : Region) (v : W32)
  /-- GR_VCVT (R217). -/
  | grVcvt (i : BitVec 4) (fs : BitVec 5) (fd : BitVec 5) (md : BitVec 2) (dst : Region) (a : Region)
  /-- GR_VDOT (R216). -/
  | grVdot (i : BitVec 4) (fs : BitVec 5) (fd : BitVec 5) (md : BitVec 2) (dst : Region) (a : Region) (b : Region)
  /-- GR_VNQENC (R218). -/
  | grVnqenc (i : BitVec 4) (fs : BitVec 5) (fd : BitVec 5) (dst : Region) (a : Region)
  /-- GR_CHAIN (R219). -/
  | grChain (i : BitVec 4) (md : BitVec 2) (dst : Region) (src : Region) (src2 : Option Region) (ops : List Lit)
  /-- CF_LDST (R171). -/
  | cfLdst (i : BitVec 4) (f : BitVec 5) (a : BitVec 21)
  /-- CF_FWD (R173). -/
  | cfFwd (i : BitVec 4) (t : Lit)
  /-- CF_RPL (R173). -/
  | cfRpl (i : BitVec 4) (p : BitVec 2) (pe : BitVec 1) (ce : BitVec 1) (t : Lit)
  /-- CF_GRD (R173). -/
  | cfGrd (i : BitVec 4) (p : BitVec 2) (pe : BitVec 1) (ce : BitVec 1) (av : BitVec 1) (t : Lit)
  /-- CF_APL (R173). -/
  | cfApl (i : BitVec 4) (t : Lit)
  /-- CF_SWP (R173). -/
  | cfSwp (i : BitVec 4) (t : Lit)
  /-- CF_NUL (R173). -/
  | cfNul (i : BitVec 4) (av : BitVec 1) (sd : BitVec 1) (t : Lit)
  /-- CF_MODE (R174). -/
  | cfMode (i : BitVec 4) (m : BitVec 2)
  /-- CF_ETA (R175). -/
  | cfEta (i : BitVec 4) (v : W32)
  /-- CF_FADE (R175). -/
  | cfFade (i : BitVec 4) (v : W32)
  /-- CF_FMT (R176). -/
  | cfFmt (i : BitVec 4) (af : BitVec 5) (gf : BitVec 5) (ofm : BitVec 5) (md : BitVec 2)
  /-- CF_DRAIN (R178). -/
  | cfDrain (i : BitVec 4) (ofm : BitVec 5) (md : BitVec 2) (d : BitVec 21)
  /-- CF_CLRA (R177). -/
  | cfClra (i : BitVec 4)
  /-- CF_HSEL (R179). -/
  | cfHsel (i : BitVec 4) (src : BitVec 2)
  /-- CF_HREAD (R180). -/
  | cfHread (i : BitVec 4) (d : BitVec 21)
  /-- CF_HCLR (R181). -/
  | cfHclr (i : BitVec 4)
  /-- BT_COPY (R137). -/
  | btCopy (i : BitVec 4) (h : BitVec 2) (d : BitVec 14) (w : When)
  /-- BT_OVL (R139). -/
  | btOvl (i : BitVec 4) (h : BitVec 2) (d : BitVec 14) (w : When)
  /-- BT_PREF (R140). -/
  | btPref (i : BitVec 4) (h : BitVec 2) (d : BitVec 14)
  /-- BT_PREF_TIMED (R140). -/
  | btPrefTimed (i : BitVec 4) (h : BitVec 2) (d : BitVec 14) (w : When)
  /-- BT_NMC (R145). -/
  | btNmc (i : BitVec 4) (c : BitVec 57)
  /-- BT_NMFENCE (R146). -/
  | btNmfence (i : BitVec 4) (a : BitVec 57) (n : Lit)
  /-- BT_PIN (R141). -/
  | btPin (i : BitVec 4) (k : BitVec 3) (a : BitVec 57) (n : Lit)
  /-- BT_UNPIN (R142). -/
  | btUnpin (i : BitVec 4) (k : BitVec 3)
  /-- BT_ECHK (R138). -/
  | btEchk (i : BitVec 4) (m : BitVec 2)
  /-- SY_BAR (R252). -/
  | syBar (i : BitVec 4) (sc : BitVec 3)
  /-- SY_ARRIVE (R252). -/
  | syArrive (i : BitVec 4) (sc : BitVec 3) (k : BitVec 4)
  /-- SY_AWAIT (R252). -/
  | syAwait (i : BitVec 4) (sc : BitVec 3) (k : BitVec 4)
  /-- SY_BIND (R255). -/
  | syBind (i : BitVec 4) (o : BitVec 57) (a : BitVec 57) (n : Lit)
  /-- SY_REL (R256). -/
  | syRel (i : BitVec 4) (sc : BitVec 3) (o : BitVec 57)
  /-- SY_ACQ (R257). -/
  | syAcq (i : BitVec 4) (sc : BitVec 3) (o : BitVec 57) (n : BitVec 58)
  /-- SY_FENCE (R258). -/
  | syFence (i : BitVec 4) (sc : BitVec 3)
  /-- SY_ATOM (R259). -/
  | syAtom (i : BitVec 4) (op : BitVec 4) (f : BitVec 5) (a : BitVec 57) (l : BitVec 21)
  /-- SY_ATOMX (R262). -/
  | syAtomx (i : BitVec 4) (op : BitVec 4) (f : BitVec 5) (k : BitVec 3) (a : BitVec 57) (l : BitVec 21) (r : BitVec 21) (tg : W16)
  /-- SY_BATCH (R261). -/
  | syBatch (i : BitVec 4) (k : BitVec 3) (n : Lit)
  /-- SY_SAFE (R263). -/
  | sySafe (i : BitVec 4) (m : BitVec 16) (n : Lit)
  /-- SY_TRAP (R265). -/
  | syTrap (i : BitVec 4) (c : BitVec 18)
  /-- SY_SYSCALL (R265). -/
  | sySyscall (i : BitVec 4) (c : BitVec 18)
  /-- SY_END (R266). -/
  | syEnd (i : BitVec 4)
  /-- SY_RESUME (R293). -/
  | syResume (i : BitVec 4) (a : BitVec 52)
  /-- SY_MFSR (R290). -/
  | syMfsr (i : BitVec 4) (r : BitVec 12) (d : BitVec 21)
  /-- SY_MTSR (R290). -/
  | syMtsr (i : BitVec 4) (r : BitVec 12) (d : BitVec 21)
  /-- SY_TLBI (R291). -/
  | syTlbi (i : BitVec 4) (k : BitVec 3) (a : BitVec 57)
  /-- SY_ASAVE (R292). -/
  | syAsave (i : BitVec 4) (a : BitVec 52)
  /-- SY_AREST (R292). -/
  | syArest (i : BitVec 4) (a : BitVec 52)
  /-- SY_GSAVE (R292). -/
  | syGsave (i : BitVec 4) (a : BitVec 52)
  /-- SY_GREST (R292). -/
  | syGrest (i : BitVec 4) (a : BitVec 52)
  /-- SY_HALT (R294). -/
  | syHalt (i : BitVec 4)
  /-- SPLIT. R88: the splitter of the current core places up to eight words. -/
  | split
  /-- CP_RESULT_DROP. R97: the results due drop into the result queue. -/
  | cpResultDrop
  /-- CP_STORE_LAND. R99, R110: CP stores and tag writes due land. -/
  | cpStoreLand
  /-- HOLD_END. R23, R25: every cause of the hold has cleared. -/
  | holdEnd
  /-- HOLD_TIMEOUT. R25, R298: the hold watchdog. -/
  | holdTimeout
  /-- SAFE_GAP_FAULT. R264. -/
  | safeGapFault
  /-- STREAM_BEAT_READ. R128: load beats due are read. -/
  | streamBeatRead
  /-- STREAM_BEAT_DELIVER. R128, R185: load beats due reach the grid. -/
  | streamBeatDeliver
  /-- GLOBAL_BEAT_LATE. R129: the data of the beat due at port p come d time units late. -/
  | globalBeatLate (p : BitVec 3) (d : Nat)
  /-- STORE_BEAT_LAND. R130: store beats due land. -/
  | storeBeatLand
  /-- COPY_CHUNK_READ. R136: source chunks due are read. -/
  | copyChunkRead
  /-- COPY_CHUNK_LAND. R136: destination chunks due land. -/
  | copyChunkLand
  /-- HBM_COPY_LAND. R274: the k-th copy outside logical time lands. -/
  | hbmCopyLand (k : Nat)
  /-- GRID_CFG_DONE. R208: the loaded configuration is in place. -/
  | gridCfgDone
  /-- GRID_CONTEXT_EXECUTE. R186: the elements execute their context slots. -/
  | gridContextExecute
  /-- GRID_RESULT_LAND. R190: results of contexts land. -/
  | gridResultLand
  /-- SINK_FINISH. R198: sinks emit their markers. -/
  | sinkFinish
  /-- GRID_DONE. R198, R211: the grid-done bit is set. -/
  | gridDone
  /-- PASS_STEP_READ. R205: a pass reads a step. -/
  | passStepRead
  /-- PASS_STEP_WRITE. R205: a pass writes a step. -/
  | passStepWrite
  /-- FRONT_CELL_STEP. R152: fronts advance one diagonal. -/
  | frontCellStep
  /-- DRAIN_PRESENT. R163, R178: values pass the drain stage. -/
  | drainPresent
  /-- RETURN_REGISTER_REPLACE. R193: YRET or DRET takes a vector. -/
  | returnRegisterReplace
  /-- LDST_ROW_WRITE. R171: a load reads and writes its rows. -/
  | ldstRowWrite
  /-- DRAIN_ROW_WRITE. R178: a drain row lands in LM. -/
  | drainRowWrite
  /-- HREAD_LAND. R180: the counters land in LM. -/
  | hreadLand
  /-- BARRIER_COMPLETE. R254: the network reports an episode awaited by the current core. -/
  | barrierComplete
  /-- RELEASE_INCREMENT. R239: the k-th release increments its object. -/
  | releaseIncrement (k : Nat)
  /-- ACQUIRE_COMPLETE. R240: the acquire of the current core completes. -/
  | acquireComplete
  /-- FENCE_COMPLETE. R241: the fence of the current core completes. -/
  | fenceComplete
  /-- ATOMX_APPLY. R262: the k-th returning atomic is applied at its home. -/
  | atomxApply (k : Nat)
  /-- ATOMX_RESULT_LAND. R262: its result lands. -/
  | atomxResultLand (k : Nat)
  /-- NM_JOB_ACCEPT. R145: the k-th job is accepted. -/
  | nmJobAccept (k : Nat)
  /-- NM_JOB_COMPLETE. R145: the k-th job runs to its end. -/
  | nmJobComplete (k : Nat)
  /-- PAGE_WALK. R319: the walk of a held word of the current core. -/
  | pageWalk
  /-- HANDLER_ENTRY. R286: the gang enters its handler. -/
  | handlerEntry
  /-- PRV_ENTER. R288: firmware sets PRV_STATUS.ENTER. -/
  | prvEnter
  /-- PRV_HLT_CLEAR. R278: firmware clears PRV_STATUS.HLT. -/
  | prvHltClear
  /-- PREEMPT_REQUEST. R295: PRE_CTL.REQ is set. -/
  | preemptRequest
  /-- PREEMPT_PENDING. R295: the request becomes pending. -/
  | preemptPending
  /-- PREEMPT_HOLD_STOP. R295, R298: class 0x13. -/
  | preemptHoldStop
  /-- TASK_COMMIT. R266. -/
  | taskCommit
  /-- PHASE_COMMIT. R312: the current phase of launch l commits. -/
  | phaseCommit (l : W32)
  /-- LNC_HEAD_WRITE. R303. -/
  | lncHeadWrite (p : BitVec 4) (v : W32)
  /-- LAUNCH_INTAKE. R303, R305: intake takes one packet of partition p. -/
  | launchIntake (p : BitVec 4)
  /-- BIND_RECORD_ARM. R307: firmware writes and arms a record. -/
  | bindRecordArm (r : BindRec)
  /-- DISPATCH_BIND. R310 steps 1 and 2 for the gang of the current core. -/
  | dispatchBind
  /-- GANG_ALIGN. R310 step 4. -/
  | gangAlign
  /-- GOVERNOR_TICK. R329. -/
  | governorTick
  /-- CONTROL_INTERVAL. R328. -/
  | controlInterval
  /-- DROOP_STRETCH. R327. -/
  | droopStretch (q : BitVec 6)
  /-- THERMAL_TRIP. R355. -/
  | thermalTrip (q : BitVec 6)
  /-- LSG_ENV_UP_WRITE. R334, R330. -/
  | lsgEnvUpWrite (v : W64)
  /-- LSG_CTL_WRITE. R334, R335. -/
  | lsgCtlWrite (v : W64)
  /-- REPEATABLE_MODE_APPLY. R335. -/
  | repeatableModeApply
  /-- QUAD_GATE_REQUEST. R336, R340. -/
  | quadGateRequest (q : BitVec 6)
  /-- QUAD_DRAIN_END. R341. -/
  | quadDrainEnd (q : BitVec 6)
  /-- QUAD_GATED. R336, R341. -/
  | quadGated (q : BitVec 6)
  /-- QUAD_WAKE_REQUEST. R342. -/
  | quadWakeRequest (q : BitVec 6)
  /-- QUAD_RISE_DONE. R342. -/
  | quadRiseDone (q : BitVec 6)
  /-- TARGET_GATED_NACK. R337. -/
  | targetGatedNack (q : BitVec 6)
  /-- VLT_CTL_WRITE. R225: the supervisor writes the VLT_CTL of the current core. -/
  | vltCtlWrite (v : W64)
  /-- PCS_SAMPLE. R338. -/
  | pcsSample
  /-- PARTITION_ENABLE. R345. -/
  | partitionEnable (p : BitVec 4)
  /-- PARTITION_RESET. R346. -/
  | partitionReset (p : BitVec 4)
  /-- PARTITION_RESET_DONE. R346 step 6. -/
  | partitionResetDone (p : BitVec 4)
  /-- WARM_RESET. R360. -/
  | warmReset
  /-- COLD_RESET. R360, R361. -/
  | coldReset
  /-- CORRECTABLE_ERROR. R349: in the word of a. -/
  | correctableError (p : CeSite) (a : BitVec 52)
  /-- UNCORRECTABLE_ERROR. R349. -/
  | uncorrectableError (w : ErrorSite)
  /-- PATROL_SCRUB. R350: the scrub finds an uncorrectable word. -/
  | patrolScrub (w : HomeWord)
  /-- LINK_RETRAIN. R354: port pt retrains; data due over it for the current core come d time units later. -/
  | linkRetrain (pt : BitVec 5) (d : Nat)
  /-- LINK_DOWN. R354. -/
  | linkDown (pt : BitVec 5)
  /-- RHOUS_ACCESS. R362. -/
  | rhousAccess (x : HostAccess)
  /-- POD_REQUEST. R363. -/
  | podRequest (x : RemoteAccess)
  /-- ATTESTATION_QUOTE. R356. -/
  | attestationQuote (nonce : BitVec 256)
  /-- FW_MIN_VERSION_RAISE. R357. -/
  | fwMinVersionRaise (v : RaiseRequest)
  /-- REGISTER_WRITE. R277: a register write with firmware authority, at the current core. -/
  | registerWrite (r : RegId) (v : W64)
  /-- DROOP_END. R327. -/
  | droopEnd (q : BitVec 6)
  /-- ULTRA_ETHERNET_REQUEST. R363. -/
  | ultraEthernetRequest (x : PortRequest)
  /-- CONFIG_RECORD_WRITE. R358. -/
  | configRecordWrite (r : ConfigRecord)
  /-- ABANDON_TASK. R288: firmware abandons the stopped task of the current core. -/
  | abandonTask
  /-- TLBI_COMPLETE. R291. -/
  | tlbiComplete
  /-- SAVE_RESTORE_COMPLETE. R292. -/
  | saveRestoreComplete
  /-- NEIGHBOUR_LOAD_READ. R114: nld64 reads due. -/
  | neighbourLoadRead
  /-- MFSR_WRITE. R290. -/
  | mfsrWrite
  deriving DecidableEq, Repr

end Sys2Proof
end

