-- ==== Sys2Proof/Machine/State.lean ====
section
/-! DEFINITION. The state of the machine as plain data: all the spec gives it, and `State.reset`. Cycle counts, due
cycles and addresses are `Nat`; register contents are bit vectors. -/

namespace Sys2Proof.Machine

/-- Why a step stops with a fault. -/
inductive Fault where
  /-- Raised by `step` when the agenda orders an issue from a queue whose head is no complete instruction. No
  agenda the model makes does so. Safe: nothing of the machine goes on. -/
  | emptyIssue
  deriving DecidableEq, Repr

/-- Why an instruction has no meaning. -/
inductive Refusal where
  /-- Raised by `exec` for an instruction without a meaning yet. Safe: nothing is claimed of it. -/
  | notModelled (mnemonic : String)
  deriving DecidableEq, Repr

/-- The stop classes of R280. -/
inductive StopClass where
  | illegalEncoding | privileged | controlFlow | scheduleMiss | schedule | bounds | alignment | command
  | translation | memoryError | pairOverrun | versionStraddle | holdTimeout | safeGap | trap | syscall
  | linkLost | preemptSafe | preemptHold | gangLost | supervisor
  deriving DecidableEq, Repr

/-- One cause of a stop: what a frame header records of it (R283). `rank` orders causes within one engine (R281). -/
structure Stop where
  cls : StopClass
  eng : Nat := 7
  rank : Nat := 1
  sub : Nat := 0
  waddr : Nat := 0xFFFF
  detail : Nat := 0
  deriving DecidableEq, Repr

/-- What holds a gang (R24, R146, R251, R291-R293, R321). -/
inductive HoldCause where
  /-- granule g of core q must carry tag t (R112, R131, R138), for engine e; rank as in `Stop` -/
  | tag (q : Nat) (supv : Bool) (g : Nat) (t : W16) (e : Nat) (rank : Nat)
  /-- data of a beat of load port p of core c come at time (R129); the link port whose retrain delays them -/
  | late (c : Nat) (p : Nat) (at_ : Nat) (retrain : Option Nat)
  /-- data of copy id of core c on a reserved route come late after a retrain (R24, R354) -/
  | lateCopy (c : Nat) (id : Nat) (retrain : Option Nat)
  | walk (e : Nat)     -- walks of the word at issue on engine e (R321)
  | acquire | fence | nmfence | tlbi | saveRestore | resume
  /-- a barrier awaited as a hold: scope, number (R254) -/
  | barrier (sc : Nat) (k : Nat)
  deriving DecidableEq, Repr

/-- A gang's stop as it stands in each of its cores (R279). -/
structure Stopped where
  why : Stop
  cyc : Nat            -- stop cycle c
  atEnd : Bool         -- end stop: resume at c + 1
  more : Bool
  wtc : Nat            -- WTC at the stop
  mask : W16           -- live mask of sy.safe
  ext : Nat            -- live LM extent
  frame : Bool         -- a frame was written
  escalated : Bool
  who : Nat            -- the code that stopped (`Ctx.who`)
  deriving DecidableEq, Repr

/-- Kinds of CP effects in flight (R284). -/
inductive EffKind where
  | drop | store | tagw | nstore | nload | nread
  deriving DecidableEq, Repr

/-- A CP effect in flight (R284); due and issue are cycles of the core's count. -/
structure CpEff where
  kind : EffKind
  data : W64
  addr : Nat := 0
  size : Nat := 8
  q : Nat := 0
  due : Nat
  issue : Nat
  deriving DecidableEq, Repr

/-- A word in a queue (R285): its IMEM byte address, the cycle it is present from, its effective stamp. -/
structure QEntry where
  word : W32
  addr : Nat
  pres : Nat
  eff : Option Nat
  deriving DecidableEq, Repr

/-- A queue: its next-issue cycle and its words, head first (R92). -/
structure Queue where
  ni : Nat
  es : List QEntry
  deriving DecidableEq, Repr

/-- A level of the loop stack (R118): positions are line * 32 + word. -/
structure LoopLevel where
  first : Nat
  last : Nat
  count : Nat
  i : Nat
  period : Nat
  deriving DecidableEq, Repr

/-- The splitter and fetch (R83, R88-R91, R285). -/
structure Splitter where
  next : Nat                         -- line * 32 + word of the next word
  halted : Bool
  resumeAt : Option Nat              -- the cycle at which it resumes (R89)
  landing : Bool                     -- the next word is landed on: its mark is tested (R87)
  line : Option (Nat × List W32)     -- the reading of the current line (R91)
  owedEng : Nat                      -- queue of the literals still owed
  owed : List (Lit × Bool)           -- reserved bits of each literal still owed, and whether it is a descriptor
  deriving DecidableEq, Repr

/-- Staging registers of a streamer (R123). -/
structure Staging where
  space : BitVec 3
  addr : BitVec 57
  counts : List Nat                  -- c0-c3
  strides : List Int                 -- s0-s3
  fmt : BitVec 5
  port : BitVec 3
  hint : BitVec 2
  rnd : BitVec 2
  tagMode : BitVec 2
  tag : W16
  interval : Byte
  deriving DecidableEq, Repr

/-- A leaf of a page table as a TLB holds it (R317, R319): page base, size in bytes, physical base, bits [7:0]. -/
structure Leaf where
  ctx : W16
  part : Nat
  va : Nat
  size : Nat
  pa : Nat
  bits : Byte
  deriving DecidableEq, Repr

/-- A delivery of a load stream on its way (R128). -/
structure Delivery where
  due : Nat
  data : Option W128                 -- none: a marker-only beat
  last : Bool                        -- carries the end-of-stream marker
  poison : Bool                      -- a poisoned word was read (R233)
  arrive : Nat                       -- time from which the data are present (R129)
  retrain : Option Nat               -- the link port whose retrain delays them (R354)
  n : Nat                            -- index of the beat's first element
  glob : Bool                        -- of a global stream (R129)
  far : Bool                         -- its data cross a port (R354)
  deriving DecidableEq, Repr

/-- A load port (R127-R134). -/
structure LdPort where
  st : Staging
  start : Nat
  beat : Nat                         -- next beat to read
  running : Bool
  checked : List Nat                 -- granules checked (R131)
  leaf : Option Leaf                 -- leaf held by a global stream (R321)
  run : Option (Nat × List Byte × List Bool)   -- line of the current run and its bytes and poison marks (R271)
  dels : List Delivery
  deriving DecidableEq, Repr

/-- Bytes of a store stream on their way (R130). -/
structure StLand where
  due : Nat
  start : Nat                        -- start cycle of the stream
  q : Nat                            -- gang index of the target core
  glob : Bool                        -- to the L1D
  cells : Mem                        -- LM or physical byte addresses
  tags : List Nat                    -- granules tagged with this landing (R131)
  tag : W16
  bits : Byte                        -- leaf bits of a global landing
  hint : BitVec 2
  port : Nat
  deriving DecidableEq, Repr

/-- A store port (R130-R134). -/
structure StPort where
  st : Staging
  start : Nat
  open_ : Bool
  accepted : Nat
  lastAcc : Option Nat
  leaf : Option Leaf
  lands : List StLand
  deriving DecidableEq, Repr

/-- The seven routes of R136. -/
inductive Route where
  | lself | lquad | vnear | vdie | ldie | xdie | hbm
  deriving DecidableEq, Repr

/-- One end of a copy. -/
inductive CopyEnd where
  /-- bytes of the LM of core c from address a; supv: addresses of the SLM range reach the SLM -/
  | lm (c : Nat) (a : Nat) (supv : Bool)
  | imem (a : Nat)
  | gcs (a : Nat)
  /-- global bytes, page piece by page piece: offset in the copy, physical base, length -/
  | phys (l : List (Nat × Nat × Nat))
  deriving DecidableEq, Repr

/-- A copy (R135-R139). -/
structure Copy where
  id : Nat                           -- order of issue
  core : Nat
  route : Route
  src : CopyEnd
  dst : CopyEnd
  len : Nat
  issue : Nat                        -- lc
  ready : Nat                        -- time before which nothing lands outside logical time (R274)
  exp : Option W16                   -- tags checked (R138)
  wtag : Option W16
  og : Nat
  next : Nat                         -- next chunk to read
  pend : List (Nat × List (Byte × Bool))    -- chunks read and not landed: number, bytes and poison marks
  err : List (Nat × Nat)             -- granules (core, granule) with a poisoned byte landed (R233)
  checked : List Nat
  supv : Bool
  who : Nat                          -- the code that issued it (`Ctx.who`)
  dev : Bool                         -- one of its pages is DEV (R228)
  acc : List Nat                     -- draining quads that accepted it before their drain began (R341)
  part : Nat
  ctx : W16
  arrive : Nat                       -- time before which no further chunk is present (R24, R354)
  retrain : Option Nat               -- the link port whose retrain delays it
  deriving DecidableEq, Repr

/-- Bytes of a copy that land outside its gang's cores at the end of a cycle (R235 rank 6): due time, first offset. -/
structure OutLand where
  due : Nat
  gang : List Nat
  copy : Copy
  lo : Nat
  bytes : List (Byte × Bool)
  deriving DecidableEq, Repr

/-- Bytes of a store stream to a DEV page that wait for an earlier copy of their core to such a page (R228). -/
structure DevStore where
  id : Nat                           -- order of issue, among copies too
  core : Nat
  part : Nat
  ctx : W16
  pa : Nat
  bytes : List Byte
  deriving DecidableEq, Repr

/-- A write of `sy.mtsr` to a register outside its core, and the time at which it takes effect (R290). -/
structure OutWrite where
  due : Nat
  core : Nat
  reg : BitVec 12
  val : W64
  deriving DecidableEq, Repr

/-- Accumulator XA or XD (R66-R68). -/
structure XAcc where
  k : Int
  c : Nat
  p : Bool
  m : Bool
  q : Bool
  deriving DecidableEq, Repr

/-- A plane of a cell (R148, R162): resident format, k weights, and for NQ the block scale and G. -/
structure Plane where
  fmt : BitVec 5
  w : List W64
  nq : Byte
  g : W32
  deriving DecidableEq, Repr

/-- A pair slot (R155): empty, or the operands of one side with their format. -/
inductive Slot where
  | empty
  | act (fmt : BitVec 5) (xs : List W64)
  | grad (fmt : BitVec 5) (g : W64)
  deriving DecidableEq, Repr

/-- A cell (R148). -/
structure Cell where
  act : Plane
  shadow : Plane
  acc : List W64
  slots : List Slot
  v : W16
  deriving DecidableEq, Repr

/-- The kinds of fronts (R153). -/
inductive FrontKind where
  | F | R | G | A | S | N
  deriving DecidableEq, Repr

/-- The settings a front latches (R154, R165). -/
structure ArrSet where
  mode : BitVec 2
  eta : W32
  fade : W32
  afmt : BitVec 5
  gfmt : BitVec 5
  ofmt : BitVec 5
  rnd : BitVec 2
  deriving DecidableEq, Repr

/-- A front in flight (R152-R154): operands, partial sums (y by row; dx by logical column) and settings. -/
structure Front where
  kind : FrontKind
  grad : Bool
  a : Nat                            -- admission cycle
  pe : Bool
  ce : Bool
  p : Nat
  set : ArrSet
  ops : List W64
  sums : List W64
  accFmt : BitVec 5                  -- accumulation format of the sums
  deriving DecidableEq, Repr

/-- Values that left an edge and are on their way through the drain stage (R163, R193). -/
structure OutVal where
  grad : Bool
  a : Nat                            -- admission cycle of the front
  due : Nat                          -- presentation cycle
  idx : Nat                          -- row of y, logical column of dx
  val : W64                          -- in the accumulation format
  accFmt : BitVec 5
  ofmt : BitVec 5
  rnd : BitVec 2
  deriving DecidableEq, Repr

/-- A vector in the deskewing stage (R193). -/
structure Deskew where
  grad : Bool
  a : Nat
  ofmt : BitVec 5
  vals : List (Nat × W64)            -- element, value
  deriving DecidableEq, Repr

/-- A load of the shadow plane in flight (R171). -/
structure Ldst where
  t : Nat
  fmt : BitVec 5
  addr : Nat
  rows : List (Nat × List Byte)      -- rows read and not written; row 64: scales and G
  deriving DecidableEq, Repr

/-- A drain in flight (R178). -/
structure Drain where
  t : Nat
  ofmt : BitVec 5
  rnd : BitVec 2
  addr : Nat
  k : Nat
  rows : List (Nat × List (W64 × BitVec 5))     -- rows read and not written: values with their formats
  deriving DecidableEq, Repr

/-- A `cf.hread` in flight (R180). -/
structure Hread where
  t : Nat
  addr : Nat
  vals : List W32
  deriving DecidableEq, Repr

/-- The counter-flow array of a core (R148-R181). -/
structure Arr where
  cells : Vector Cell 4096           -- cell (i, j) at 64 i + j
  set : ArrSet
  hsrc : BitVec 2
  fronts : List Front                -- in the order of admission
  lastAct : Option (Nat × Nat)       -- last activation-side admission and its spacing (R154)
  lastGrad : Option (Nat × Nat)
  lastAS : Option Nat                -- last A or S front (R160)
  lastS : Option Nat                 -- last S front (R171)
  strict : List Nat                  -- gradient-side fronts without AV still within 126 cycles (R160)
  outs : List OutVal
  deskew : List Deskew
  ldst : Option Ldst
  drain : Option Drain
  hreads : List Hread
  hb : List W32                      -- HB[0..31]
  clra : Bool                        -- cf.clra issued in this cycle (R177)
  stopCyc : Nat                      -- stop cycle (R279, R293)
  deriving DecidableEq, Repr

end Sys2Proof.Machine

namespace Sys2Proof.Config
open Sys2Proof.Machine

/-- What an array image that this module has not saved holds, by its bytes: the array and the marks of the edge buffers,
where another CZB-4812 has saved it (R166, R167). Log entry 8. -/
opaque foreignArray : List Byte → Option (Arr × Bool × Bool)

end Sys2Proof.Config

namespace Sys2Proof.Machine

/-- An element of the grid (R183, R195). -/
structure Element where
  ctxs : List W128                   -- 32 context slots
  rf : List W128                     -- 32
  consts : List W32                  -- 16
  links : List W128                  -- N, E, S, W
  xe : XAcc
  en : Bool
  src : Bool
  snk : Bool
  dly : Nat
  iters : Nat
  deriving DecidableEq, Repr

/-- A result of a context on its way (R190). -/
structure GridRes where
  el : Nat
  due : Nat                          -- lands at the end of this cycle
  issue : Nat
  val : W128
  flags : Byte
  rf : Option Nat                    -- physical entry
  links : BitVec 4
  seg : Option (Bool × Nat × Bool)   -- gradient buffer?, segment, mark
  deriving DecidableEq, Repr

/-- The operations of vector and chain words. -/
inductive PassOp where
  | bin (op : Nat)                   -- R213, by R190's code of the operation; 0x40 adds and clamps
  | fill (v : W32)
  | sum | scan
  | dot (fd : BitVec 5)
  | cvt (fd : BitVec 5)
  | nqenc (fd : BitVec 5)
  | chain (ops : List Lit)
  deriving DecidableEq, Repr

/-- A vector or chain word in flight (R205). -/
structure Pass where
  t : Nat
  op : PassOp
  fmt : BitVec 5                     -- format of the sources
  dfmt : BitVec 5                    -- format of the destination
  rnd : BitVec 2
  pred : BitVec 3
  dst : Region
  srcs : List Region
  n : Nat                            -- elements
  g : Nat                            -- step size G
  steps : Nat                        -- S
  h : Nat                            -- step interval
  d : Nat                            -- cycles from a step's read to its write
  bufs : List (Nat × List (List W64))   -- steps read and not written: number, elements of each source
  acc : XAcc                         -- running exact sum
  accI : Int
  flags : Byte
  done : Nat                         -- last cycle in which it is in flight
  supv : Bool
  deriving DecidableEq, Repr

/-- The grid of a core (R183-R199). -/
structure Grid where
  els : Vector Element 64
  ii : Nat
  inPlace : Bool
  loading : Option (Nat × List Byte)    -- end of the load, image
  constW : Option (Nat × Nat × W32)  -- gr.const of this cycle: element, slot, value (R209)
  beats : List (W128 × Bool)         -- beat registers of ports 0-7 and FULL
  aeb : List W128
  geb : List W128
  amark : Bool
  gmark : Bool
  yret : List W128
  dret : List W128
  running : Option Nat               -- start cycle of the graph
  stopAt : Option Nat                -- cycle of gr.stop
  results : List GridRes
  doneBit : Bool
  sinks : List (Nat × Nat)           -- sinks whose markers are still due: element, cycle (R198)
  doneAt : Option Nat                -- the bit is set at the end of this cycle
  passes : List Pass
  stopCyc : Nat
  deriving DecidableEq, Repr

/-- A line of the L1D or of a vault cache (R223-R226, R351): bytes, written bytes, class, recency, owner. A line of the
L1D some of whose elements stand in `upd` is update-only (R243). -/
structure Line where
  pa : Nat                           -- physical address / 128
  way : Nat
  bytes : List Byte                  -- 128
  poison : List Bool                 -- 32
  dirty : List Bool                  -- 128
  cls : BitVec 2
  pin : Option Nat                   -- retention register of a pinned line
  used : Nat
  part : Nat
  ctx : W16
  deriving DecidableEq, Repr

/-- A line that a memory-side cache holds (R223, R230, R344, R351): physical address / 128, the partition in whose ways
it stands, and its owner tag. -/
structure MscLine where
  line : Nat
  alloc : Nat
  part : Nat
  ctx : W16
  deriving DecidableEq, Repr

/-- A report entry of the present WTC instant that is still to be written (R313): core by which it is ordered. -/
structure RepEntry where
  part : Nat
  lid : W32
  st : Nat
  lvl : Nat
  phase : Nat
  tile : Nat
  core : Nat
  code : Nat
  ramp : Nat
  hdc : Nat
  lcc : Nat
  deriving DecidableEq, Repr

/-- A pending update of an update-only line (R243, R244). -/
structure Update where
  pa : Nat
  op : BitVec 4
  fmt : BitVec 5
  val : W64
  acc : XAcc
  deriving DecidableEq, Repr

/-- A binding (R238). -/
structure Binding where
  obj : Nat                          -- virtual address of the object
  base : Nat
  lines : Nat
  deriving DecidableEq, Repr

/-- A batch declaration of a core (R260, R261). -/
structure BatchDecl where
  k : Nat
  m : Nat
  issued : Nat
  closed : Bool
  declared : Bool
  deriving DecidableEq, Repr

/-- The state of a barrier (scope, number) on a core (R252): episodes arrived in, the last two arrival cycles, the
time of the last arrival, whether it is arrived, whether the network has reported its episode (R254). -/
structure Bar where
  scope : Nat
  k : Nat
  n : Nat
  last : Nat
  prev : Nat
  time : Nat
  on : Bool
  rep : Bool
  deriving DecidableEq, Repr

/-- A word that waits outside the gang's time at the head of its queue (R251, R321): whether its request has been
made, whether what it waits for has come about, the lookups made for it, the virtual ranges still to be looked up
(the first needs a walk), operands kept. -/
structure Pend where
  started : Bool
  ready : Bool
  looks : List (Nat × (Nat ⊕ Leaf))  -- page of a virtual address: fault code of the walk, or leaf
  walks : List (Nat × Nat)
  arg : List Nat
  deriving DecidableEq, Repr

/-- A write of `sy.mfsr` on its way (R290). -/
structure MfsrW where
  addr : Nat
  val : W64
  due : Nat
  deriving DecidableEq, Repr

/-- A write of `sy.mtsr` that takes effect at the end of its cycle (R290). -/
structure MtsrW where
  reg : BitVec 12
  val : W64
  due : Nat
  deriving DecidableEq, Repr

/-- What a context runs: everything of a core that a frame saves (R282), and the sync unit's own records. -/
structure Ctx where
  who : Nat                          -- number of the code that runs, a task or a handler, by which what it issues is told
  rq : List W64                      -- b0-b15
  n : List W64                       -- N0-N15
  ret : List Nat                     -- return stack, top first
  loops : List LoopLevel             -- loop stack, top first
  sticky : Byte                      -- ARF_STICKY (R60)
  raised : Byte                      -- flags raised in the present cycle (R61)
  dropped : List Nat                 -- issue cycles of the results dropped at the start of this cycle
  effs : List CpEff
  spl : Splitter
  qs : List Queue                    -- E = 0..6
  ldS : Staging
  ldP : List LdPort                  -- 8
  stS : Staging
  stP : List StPort                  -- 8
  echk : Bool                        -- early-read checker (R138)
  pins : List (Option (Nat × Nat))   -- retention registers: virtual base, lines (R141)
  copies : List Copy                 -- copies on guaranteed routes and lself
  prefs : List (Nat × Nat × BitVec 2)   -- line requests of prefetches: cycle, virtual address, hint (R272)
  bars : List Bar                    -- barrier states (R252)
  binds : List Binding
  batches : List BatchDecl
  safePt : Nat                       -- last safe point (R264)
  mfsrs : List MfsrW
  mtsrs : List MtsrW
  ended : Bool                       -- sy.end has issued (R266)
  halted : Bool                      -- sy.halt has issued (R294)
  pend5 : Pend                       -- the word at the head of the BTE queue
  pend6 : Pend                       -- the word at the head of the SYN queue
  spm : Mem                          -- SPM of the running privilege level
  sup : Bool                         -- supervisor privilege (R276)
  deriving DecidableEq, Repr

/-- The task bound on a core (R302, R309, R310). -/
structure Task where
  lid : W32
  tile : BitVec 48
  phase : Nat
  ctx : W16
  part : Nat
  supv : Bool
  strict : Bool
  pinned : Bool
  cor : Bool
  batch : Bool
  lmg : Nat                          -- granted LM bytes
  spmg : Nat
  ret : Nat
  sgap : Nat                         -- G
  res : List (Route × Nat)           -- reservations: route, bytes left
  t0 : Bool                          -- T0 has been reached
  rampNs : Nat                       -- RAMP field (R313)
  rampFrom : Nat                     -- time of the ramp request; before it, the time at which the load ends
  granted : Bool
  ran : Bool
  deriving DecidableEq, Repr

/-- The hold of a gang, in each of its cores (R23-R25). -/
structure Hold where
  causes : List HoldCause
  since : Nat                        -- time at which it began
  wdog : Nat                         -- watchdog in ns, as it stood then (R298)
  linkSeen : Option Nat              -- a link port whose retrain was among its causes (R354)
  why : Stop                         -- the cause a hold timeout records
  deriving DecidableEq, Repr

/-- One core. -/
structure Core where
  ctx : Ctx
  lcc : Nat                          -- LCC (R21)
  hlc : Nat                          -- HLC (R286)
  hdc : W64                          -- HDC (R22)
  gbase : Nat                        -- lowest core of the gang
  gsize : Nat
  task : Option Task
  hold : Option Hold
  held : Option (Nat × Nat × Nat × Option Nat)  -- the last hold: its cycle, and `since`, `wdog`, `linkSeen` (R25, R298)
  stop : Option Stopped
  endStop : Option (Stop × W16 × Nat)   -- an end stop due at the end of this cycle, live mask, live extent (R263, R279)
  hnd : Bool                         -- PRV_STATUS.HND
  hlt : Bool                         -- PRV_STATUS.HLT
  fenced : Bool                      -- PRV_STATUS.FENCED
  enter : Bool                       -- PRV_STATUS.ENTER
  fltBase : W64
  fltVec : W64
  fltCause : W64
  wdog : W32                         -- HDW_WDOG.NS
  preReq : Bool                      -- PRE_CTL.REQ
  prePend : Bool                     -- pending at the gang (R295)
  hacc : Nat                         -- PRE_CTL.HACC in time units
  lastCtx : Option (W16 × Nat)       -- context and partition of the previous task (R27)
  lm : Mem
  tags : List (Nat × W16)            -- granules whose tag is not 0, rising
  wrote : List (Nat × Nat)           -- LM ranges that ranks 1-5 of R235 wrote in the cycle that ends at `nextCyc`
  wroteTags : List Nat               -- granules whose tags they set in it
  imem : Mem
  gcs : Mem
  simem : Mem
  slm : Mem
  slmTags : List W16                 -- 4
  arr : Arr
  grid : Grid
  arrHeld : Bool                     -- the array holds a restored image until the resume (R166, R292)
  gridHeld : Bool
  l1d : List Line
  vc : List Line                     -- vault cache
  upd : List Update                  -- update-only elements of the L1D
  useCnt : Nat                       -- recency counter of the caches
  vltCtl : W64
  vltHeld : Option W64               -- a VLT_CTL write held until commit (R225)
  hintIgn : W64
  nmuDup : W64
  vcHit : W64
  vcPhit : W64
  vcMiss : W64
  vcOvfl : W64
  trnRoot : W64
  trnCtx : W64
  trnCtxTab : W64
  qpcSel : BitVec 6
  pcsCtl : W64
  pcsBase : W64
  pcsHead : W32
  pcsNext : Nat                      -- ticks until the next sample
  armed : Bool                       -- bind record (R307)
  hst : Nat
  slot : BindRec
  nextCyc : Nat                      -- time of the next clock cycle
  deriving DecidableEq, Repr

/-- Quad states of R336. -/
inductive PState where
  | on | drain | fall | gated | wakeWait | rise
  deriving DecidableEq, Repr

/-- A quad (R319, R325-R342). -/
structure Quad where
  tlb : List Leaf
  trnHit : W64
  trnMiss : W64
  ctl : W64                          -- QPC_CTL
  ratio : BitVec 2
  point : BitVec 3                   -- point 4 is boost
  bst : Bool
  icap : Bool
  tcap : Bool
  capx : Bool
  stretch : Bool
  ballast : Nat                      -- mW
  est : Nat                          -- mW
  workEst : Nat                      -- estimate while last working
  ballastCyc : W64
  stretchCyc : W64
  gateReq : Option Nat               -- time at which REQ was written (R340)
  depth : Bool
  wakeReq : Option Nat
  ps : PState
  psTick : Nat                       -- tick at which the state was entered
  refused : Bool
  nack : W16
  floorOn : Bool                     -- the idle floor is still drawn
  tripped : Bool
  replaced : Nat                     -- ballast that resumed work has replaced since the last tick (R332)
  idle : Bool                        -- idle at the last tick (R332)
  worked : Bool                      -- a gang of it advanced since the last tick (R332)
  wipe : Bool                        -- step 5 of a partition reset waits for the wake (R346)
  edge : Nat                         -- time of the first cycle of its clock that is not yet counted (R327, R341)
  lastCap : Bool                     -- ICAP or TCAP in the last interval
  statSnap : W64                     -- QPC_STAT and QPC_PSTATE as of the last tick (R340)
  pstSnap : W64
  deriving DecidableEq, Repr

/-- A compute die: walk cache and counters (R319, R323). -/
structure Die where
  wc : List (W16 × Nat × Nat × Nat × W64)   -- ctx, partition, level, va prefix, entry
  wcHit : W64
  wRead : W64
  deriving DecidableEq, Repr

/-- A waiting start (R330). -/
inductive StartReq where
  | gang (base : Nat) (size : Nat) (pinned : Bool) (since : Nat)
  | wake (q : Nat) (since : Nat)
  deriving DecidableEq, Repr

/-- The governor (R329-R335, R339). -/
structure Gov where
  up : W16
  dn : W16
  ctl : W64                          -- LSG_CTL
  next : Option W64                  -- a repeatable-mode change that waits (PEND)
  est : Nat
  q : Int
  rampWait : W64
  viol : W64
  dnShort : W64
  cap : W64                          -- PWR_CAP
  reqs : List StartReq               -- in launch order
  rises : Int                        -- charged in the last tick
  tick : Nat                         -- number of the next tick
  interval : Nat
  meanSum : Nat                      -- sum of the estimates of the interval
  meanCnt : Nat
  deriving DecidableEq, Repr

/-- A format window (R229, R231). -/
structure Window where
  ctl : W64
  base : W64
  lim : W64
  store : W64
  cntA : W64
  cntB : W64
  deriving DecidableEq, Repr

/-- A partition (R303, R343). -/
structure Part where
  en : Bool
  inrst : Bool
  maxcls : BitVec 3
  mways : BitVec 5
  win : W16
  qmask : BitVec 48
  hbm : W64
  lncRing : W64
  lncHead : W32
  lncTail : W32
  lncDrop : W32
  ce : W64
  ue : W64
  deriving DecidableEq, Repr

/-- Where a task of a launch stands. -/
inductive TaskState where
  | bound | running | preempted | committed | faulted | lost
  deriving DecidableEq, Repr

/-- A task of the current phase of a launch, once bound: tile, lowest core, state, closed batches per core. -/
structure TaskRec where
  tile : BitVec 48
  phase : Nat
  core : Nat
  gsize : Nat
  st : TaskState
  closed : List (Nat × Nat)          -- gang index, batch
  deriving DecidableEq, Repr

/-- A launch (R304-R314). -/
structure Launch where
  lid : W32
  part : Nat
  ph : Nat
  cls : BitVec 3
  strict : Bool
  pinned : Bool
  cor : Bool
  batch : Bool
  aff : BitVec 2
  rep : BitVec 2
  xext : Nat
  yext : Nat
  zext : Nat
  ctx : W16
  image : Nat
  deadline : W64
  repAddr : Nat
  repn : Nat
  affId : W32
  args : List (List W64)
  gang : Nat                         -- gang size of the header
  phase : Nat
  tasks : List TaskRec
  prev : List TaskRec                -- tasks of the previous phase (AFF 1)
  affs : List TaskRec                -- tasks of the launch that AFFID names, as intake finds it (AFF 2)
  reports : Nat                      -- k
  fcode : Nat                        -- class with which it first faulted
  faulted : Bool
  ended : Bool
  committed : Bool
  deriving DecidableEq, Repr

/-- Where a returning atomic stands (R262). -/
structure Atomx where
  id : Nat
  core : Nat
  lid : W32
  phase : Nat
  tile : BitVec 48
  gidx : Nat
  k : Nat
  issue : Nat
  op : BitVec 4
  fmt : BitVec 5
  pa : Nat
  operand : W64
  slot : Nat
  tag : W16
  supv : Bool
  who : Nat                          -- the code that issued it (`Ctx.who`)
  acc : List Nat                     -- draining quads that accepted it before their drain began (R341)
  copies : List Nat                  -- earlier copies that must have landed (R249)
  ready : Nat                        -- time before which its result does not land
  result : Option (W64 × Bool)       -- value, poisoned
  deriving DecidableEq, Repr

/-- A release in flight (R239). -/
structure Release where
  id : Nat
  core : Nat
  obj : Nat                          -- physical address
  part : Nat
  ctx : W16
  scope : BitVec 3
  lines : List (Nat × Nat)           -- physical ranges bound to the object
  copies : List Nat                  -- copies that must have landed
  atoms : List Nat                   -- atomics that must have been applied
  who : Nat                          -- the code that issued it (`Ctx.who`)
  deriving DecidableEq, Repr

/-- A near-memory job (R143-R146), in the order of issue until it is accepted, then of acceptance. -/
structure Job where
  id : Nat
  core : Nat
  ctx : W16
  part : Nat
  lid : W32
  phase : Nat
  sup : Bool
  card : Nat                         -- physical address of the card
  copies : List Nat
  accepted : Bool
  code : Nat                         -- 0, or 3, 4, 6 found at acceptance
  opc : Nat
  fmt : BitVec 5
  rnd : BitVec 2
  count : Nat
  sa : W64
  sb : W64
  w : Nat
  x : Nat
  obj : Nat                          -- virtual, 0: none
  objPa : Option Nat                 -- its physical address, where it passed the checks of R144
  root : W64
  kc : Bool
  deriving DecidableEq, Repr

/-- An accumulating element at its home (R244). -/
structure AccEl where
  pa : Nat
  fmt : BitVec 5
  acc : XAcc
  deriving DecidableEq, Repr

/-- What a frame saves (R282-R285), with the task it belongs to. -/
structure FrameRec where
  core : Nat
  ctx : Ctx
  stop : Stopped
  lcc : Nat
  hdc : W64
  gidx : Nat
  gsize : Nat
  tags : List (Nat × W16)
  grant : Nat
  task : Option Task
  deriving DecidableEq, Repr

/-- What an opaque image or frame stands for. -/
inductive Saved where
  | frame (id : Nat) (f : FrameRec)
  | array (id : Nat) (arr : Arr) (amark gmark : Bool)
  | grid (id : Nat) (grid : Grid)
  deriving DecidableEq, Repr

/-- A port (R354). -/
structure Port where
  up : Bool                          -- trained, and not down
  since : Option Nat                 -- time at which its last training began
  back : Nat                         -- time at which it returns
  deriving DecidableEq, Repr

/-- What is due in the present cycle of a core: the issue of a queue's head, an event, the test of the cycle's acts
for stops and holds, the end of the cycle. -/
inductive Act where
  | issue (e : BitVec 3)
  | event (i : Instr)
  | check
  | advance
  deriving DecidableEq, Repr

/-- The machine. -/
structure State where
  time : Nat                         -- in units of Config.unitsPerNs to the ns (R22)
  cores : Vector Core 192
  cur : Fin 192
  quads : Vector Quad 48
  dies : Vector Die 4
  gov : Gov
  windows : Vector Window 16
  parts : Vector Part 16
  gmem : Mem                         -- physical bytes
  poison : List Nat                  -- addresses / 4 of poisoned words, rising
  accs : List AccEl
  msc : List MscLine                 -- the memory-side caches, newest first
  hbm : List Copy                    -- copies outside logical time
  outLands : List OutLand
  devs : List DevStore
  outWrites : List OutWrite
  rels : List Release
  jobs : List Job
  atoms : List Atomx
  saved : List Saved
  launches : List Launch
  reps : List RepEntry
  sltErr : W64
  mgtEvq : W64
  mgtEvhead : W32
  mgtRst : Bool
  mgtInt : Nat                       -- external interrupts raised (R348)
  rasScrub : W16
  rasHits : List (Nat × Nat)         -- correctable errors per word (address / 4) in this patrol pass (R352)
  rasRows : List (Nat × Nat)         -- the same per row
  rasPass : Nat                      -- time at which the patrol pass began (R350)
  idnSerial : W64
  idnPod : W64
  sigNext : BitVec 21
  minVersion : W32
  fwVersion : W32                    -- security version of the firmware image in flash (R357)
  fwImage : List Byte
  fwSig : List Byte                  -- its signature (R356)
  fwRuns : Bool                      -- the boot ROM has started it
  records : List ConfigRecord        -- copies of the configuration record, newest first
  recovery : Bool                    -- no copy verified (R358)
  repair : List RepairEntry          -- the repair map in force (R361 step 3)
  selfFail : List Nat                -- self-test failures still to be posted (R361)
  rhsCtl : W64
  mailbox : List W32                 -- 64 words (R6, R362)
  doorbell : Nat
  hostOut : List Byte                -- bytes of the last read by the host or a remote agent
  hostErr : Bool                     -- the last remote request returned an error (R363)
  quote : List Byte                  -- the last attestation quote
  quoteExh : Bool                    -- the last quote request returned EXHAUSTED (R357)
  ports : List Port                  -- UALink 0-17, Ultra Ethernet 18-21, Rhous 22
  uePart : List (BitVec 4)           -- the partition of each Ultra Ethernet port (R363)
  intake : Bool                      -- R361 step 10 has come
  resets : Nat
  nextId : Nat                       -- identifiers of copies, jobs, atomics and images
  freeCount : Nat                    -- draws of free values
  lastStop : Option Stop             -- the cause of the last stop taken
  moreStops : Bool                   -- further causes of stops in the present cycle (R281)
  sched : List (Nat × Fin 192 × Instr)     -- outside events in the order in which they come: time, core, event
  agenda : List (Fin 192 × Act)      -- acts still due in the present cycle
  deriving DecidableEq, Repr

/-- Staging values at T0 (R123). -/
def Staging.reset : Staging := ⟨0#3, 0#57, [1, 1, 1, 1], [0, 0, 0, 0], 1#5, 0#3, 0#2, 0#2, 0#2, 0#16, 1#8⟩
/-- An idle load port (R123). -/
def LdPort.reset : LdPort := ⟨Staging.reset, 0, 0, false, [], none, none, []⟩
/-- An idle store port (R123). -/
def StPort.reset : StPort := ⟨Staging.reset, 0, false, 0, none, none, []⟩
/-- An empty accumulator (R68). -/
def XAcc.empty : XAcc := ⟨0, 0, false, false, false⟩
/-- A plane of zero weights in BF16 (R165). -/
def Plane.reset : Plane := ⟨3#5, [0#64], 0#8, 0#32⟩
/-- A cell after a module reset (R165). -/
def Cell.reset : Cell := ⟨Plane.reset, Plane.reset, [0#64], List.replicate 4 .empty, 0#16⟩
/-- The settings of the array at T0 (R165). -/
def ArrSet.reset : ArrSet := ⟨0#2, 0#32, 0#32, 3#5, 3#5, 3#5, 0#2⟩
/-- The array after a module reset (R165). -/
def Arr.reset : Arr :=
  { cells := Vector.replicate 4096 Cell.reset, set := ArrSet.reset, hsrc := 0#2, fronts := [], lastAct := none,
    lastGrad := none, lastAS := none, lastS := none, strict := [], outs := [], deskew := [], ldst := none,
    drain := none, hreads := [], hb := List.replicate 32 0#32, clra := false, stopCyc := 0 }
/-- An element without a configuration (R197). -/
def Element.reset : Element :=
  ⟨List.replicate 32 0#128, List.replicate 32 0#128, List.replicate 16 0#32, List.replicate 4 0#128, XAcc.empty,
    false, false, false, 0, 0⟩
/-- The grid at T0 with empty edge buffers (R197, R268). The data of a beat register that no beat has filled are zero, and
`gr.cfg` leaves them (R197 clears FULL alone; DESIGN CHOICE, log entry 63). -/
def Grid.reset : Grid :=
  { els := Vector.replicate 64 Element.reset, ii := 1, inPlace := false, loading := none, constW := none,
    beats := List.replicate 8 (0#128, false), aeb := List.replicate 32 0#128, geb := List.replicate 32 0#128,
    amark := false, gmark := false, yret := List.replicate 32 0#128, dret := List.replicate 64 0#128,
    running := none, stopAt := none, results := [], doneBit := true, sinks := [], doneAt := none, passes := [], stopCyc := 0 }
/-- No word waits. -/
def Pend.reset : Pend := ⟨false, false, [], [], []⟩
/-- A halted splitter. -/
def Splitter.reset : Splitter := ⟨1, true, none, false, none, 0, []⟩
/-- The context of a core on which nothing has been bound; the values are those of R16 where it gives one. -/
def Ctx.reset : Ctx :=
  { who := 0, rq := List.replicate 16 0#64, n := List.replicate 16 0#64, ret := [], loops := [], sticky := 0#8, raised := 0#8, dropped := [], effs := [],
    spl := Splitter.reset, qs := List.replicate 7 ⟨0, []⟩, ldS := Staging.reset, ldP := List.replicate 8 LdPort.reset,
    stS := Staging.reset, stP := List.replicate 8 StPort.reset, echk := false, pins := List.replicate 8 none,
    copies := [], prefs := [], bars := [], binds := [], batches := [], safePt := 0, mfsrs := [], mtsrs := [],
    ended := false, halted := false, pend5 := Pend.reset, pend6 := Pend.reset, spm := [], sup := false }
/-- A bind record of zeros (R307). -/
def BindRec.reset : BindRec := ⟨false, 0#2, 0#3, 0#16, 0#32, 0#48, 0#4, 0#64⟩
/-- Core c after reset (R278, R361 step 6, R339). -/
def Core.reset (c : Nat) : Core :=
  { ctx := Ctx.reset, lcc := 0, hlc := 0, hdc := 0#64, gbase := c, gsize := 1, task := none, hold := none,
    held := none, stop := none, endStop := none, hnd := false, hlt := false, fenced := false, enter := false, fltBase := 0#64,
    fltVec := 0x0000FFFFFFFF0000#64, fltCause := 0#64, wdog := 100000#32, preReq := false, prePend := false,
    hacc := 0, lastCtx := none, lm := [], tags := [], wrote := [], wroteTags := [], imem := [], gcs := [], simem := [], slm := [],
    slmTags := List.replicate 4 0#16, arr := Arr.reset, grid := Grid.reset, arrHeld := false, gridHeld := false, l1d := [], vc := [],
    upd := [], useCnt := 0, vltCtl := 0#64, vltHeld := none, hintIgn := 0#64, nmuDup := 0#64, vcHit := 0#64,
    vcPhit := 0#64, vcMiss := 0#64, vcOvfl := 0#64, trnRoot := 0#64, trnCtx := 0#64, trnCtxTab := 0#64,
    qpcSel := BitVec.ofNat 6 (c / 4), pcsCtl := 0x40002#64, pcsBase := 0#64, pcsHead := 0#32, pcsNext := 1,
    armed := false, hst := 0, slot := BindRec.reset, nextCyc := 0 }
/-- A quad after reset (R339). -/
def Quad.reset : Quad :=
  { tlb := [], trnHit := 0#64, trnMiss := 0#64, ctl := 0xC2#64, ratio := 2#2, point := 0#3, bst := false, icap := false, tcap := false, capx := false,
    stretch := false, ballast := 0, est := 0, workEst := 0, ballastCyc := 0#64, stretchCyc := 0#64, gateReq := none,
    depth := true, wakeReq := none, ps := .on, psTick := 0, refused := false, nack := 0#16, floorOn := true,
    tripped := false, replaced := 0, idle := true, worked := false, wipe := false, edge := 0, lastCap := false,
    statSnap := 2#64, pstSnap := 0#64 }
/-- The governor after reset (R330, R334, R339). -/
def Gov.reset : Gov :=
  { up := 40#16, dn := 40#16, ctl := 0x240808#64, next := none, est := 0, q := 40000, rampWait := 0#64,
    viol := 0#64, dnShort := 0#64, cap := 0x785F0E10#64, reqs := [], rises := 0, tick := 0, interval := 0,
    meanSum := 0, meanCnt := 0 }
/-- A partition after reset (R303, R343, R350). -/
def Part.reset : Part :=
  ⟨false, false, 0#3, 0#5, 0#16, 0#48, 0#64, 0#64, 0#32, 0#32, 0#32, 0#64, 0#64⟩

/-- A configuration record of zeros (R356, R358): keys and signatures have their lengths. -/
def ConfigRecord.reset : ConfigRecord :=
  let sig := List.replicate 2820 0#8
  ⟨1#16, 0#32, 0#32, 0#64, List.replicate 68 0#8, [], [], [], [], 0#32, 0#10, sig, sig, sig, sig, sig, false⟩

/-- The machine right after reset (R361 and the reset columns of the register tables): memory zero, no partition
enabled, so that intake takes nothing, no launch. -/
def State.reset : State :=
  { time := 0, cores := Vector.ofFn fun c => Core.reset c.val, cur := 0,
    quads := Vector.replicate 48 Quad.reset,
    dies := Vector.replicate 4 ⟨[], 0#64, 0#64⟩, gov := Gov.reset,
    windows := Vector.replicate 16 ⟨0#64, 0#64, 0#64, 0#64, 0#64, 0#64⟩,
    parts := Vector.replicate 16 Part.reset, gmem := [], poison := [], accs := [], msc := [], hbm := [], outLands := [], devs := [], outWrites := [],
    rels := [], jobs := [], atoms := [], saved := [], launches := [], reps := [], sltErr := 0#64, mgtEvq := 0#64,
    mgtEvhead := 0#32, mgtRst := false, mgtInt := 0, rasScrub := 1440#16, rasHits := [], rasRows := [], rasPass := 0, idnSerial := 0#64,
    idnPod := 0#64, sigNext := 0#21, minVersion := 0#32, fwVersion := 0#32, fwImage := [], fwSig := List.replicate 2820 0#8, fwRuns := true,
    records := [ConfigRecord.reset], recovery := false, repair := [], selfFail := [],
    rhsCtl := 0#64, mailbox := List.replicate 64 0#32, doorbell := 0, hostOut := [], hostErr := false, quote := [], quoteExh := false,
    ports := List.replicate 23 ⟨false, none, 0⟩, uePart := List.replicate 4 0#4, intake := false, resets := 0, nextId := 1, freeCount := 0, lastStop := none, moreStops := false, sched := [],
    agenda := [] }

end Sys2Proof.Machine
end

