-- ==== Sys2Proof/Machine/Memory.lean ====
section
/-! DEFINITION. Bytes of memory, the cores of the machine, and the local memories of a core (R5, R26, R27, R276). -/

namespace Sys2Proof.Machine

/-! Sparse memories: an unlisted address reads as zero (R361 step 6, R27). -/

/-- Read a byte. -/
def memRead : Mem → Nat → Byte
  | [], _ => 0#8
  | (k, b) :: r, a => if k = a then b else if a < k then 0#8 else memRead r a

/-- Write a byte; writing zero removes the entry. -/
def memWrite : Mem → Nat → Byte → Mem
  | [], a, b => if b = 0#8 then [] else [(a, b)]
  | (k, c) :: r, a, b =>
    if a < k then (if b = 0#8 then (k, c) :: r else (a, b) :: (k, c) :: r)
    else if a = k then (if b = 0#8 then r else (a, b) :: r)
    else (k, c) :: memWrite r a b

/-- The canonical form: addresses strictly rising, no entry zero. -/
def Memory.wf : Mem → Bool
  | [] => true
  | [(_, b)] => b != 0#8
  | (k, b) :: (k', b') :: r => b != 0#8 && decide (k < k') && Memory.wf ((k', b') :: r)

/-- n bytes from address a on. -/
def memReadN (m : Mem) (a n : Nat) : List Byte := (List.range n).map fun i => memRead m (a + i)

/-- The nonzero bytes of a block from address a on. -/
def memBlock : Nat → List Byte → Mem
  | _, [] => []
  | a, b :: r => if b = 0#8 then memBlock (a + 1) r else (a, b) :: memBlock (a + 1) r

/-- Write bytes from address a on: the block takes the place of what was listed there. -/
def memWriteN (m : Mem) (a : Nat) (l : List Byte) : Mem :=
  m.filter (fun c => decide (c.1 < a)) ++ memBlock a l ++ m.filter (fun c => decide (a + l.length ≤ c.1))

/-- Write single bytes, in order. -/
def memWriteCells : Mem → Mem → Mem
  | m, [] => m
  | m, (a, b) :: r => memWriteCells (memWrite m a b) r

/-- Little-endian value of bytes (R5). -/
def leNat : List Byte → Nat
  | [] => 0
  | b :: r => b.toNat + 256 * leNat r

/-- n little-endian bytes of a value (R5). -/
def natLe : Nat → Nat → List Byte
  | 0, _ => []
  | n + 1, v => BitVec.ofNat 8 v :: natLe n (v / 256)

/-- Bits [lo + w - 1 : lo] of a number. -/
def bitsOf (v lo w : Nat) : Nat := v / 2 ^ lo % 2 ^ w

/-- Replace bits [lo + w - 1 : lo] of a register. -/
def putBits (r : W64) (lo w : Nat) (v : Nat) : W64 :=
  BitVec.ofNat 64 (r.toNat - bitsOf r.toNat lo w * 2 ^ lo + v % 2 ^ w * 2 ^ lo)

/-- A 48-bit counter that saturates (R227). -/
def satAdd48 (c : W64) (n : Nat) : W64 := BitVec.ofNat 64 (min (2 ^ 48 - 1) (c.toNat + n))

/-! Cores. -/

/-- Core c; a number beyond the module's cores names a core in its reset state, which nothing reaches. -/
def State.at (s : State) (c : Nat) : Core := if h : c < 192 then s.cores[c] else Core.reset c

/-- Replace core c. -/
def State.setAt (s : State) (c : Nat) (k : Core) : State :=
  if h : c < 192 then { s with cores := s.cores.set c k } else s

/-- Change core c. -/
def State.modAt (s : State) (c : Nat) (f : Core → Core) : State := s.setAt c (f (s.at c))

/-- The core whose act runs. -/
def State.core (s : State) : Core := s.cores[s.cur]

/-- Change the core whose act runs. -/
def State.mod (s : State) (f : Core → Core) : State := { s with cores := s.cores.set s.cur (f s.core) }

/-- Change the context of the core whose act runs. -/
def State.modCtx (s : State) (f : Ctx → Ctx) : State := s.mod fun c => { c with ctx := f c.ctx }

/-- The cores of the gang of core c, lowest first (R15). -/
def State.members (s : State) (c : Nat) : List Nat :=
  (List.range (s.at c).gsize).map fun i => (s.at c).gbase + i

/-- Change every core of the gang of core c. -/
def State.modGang (s : State) (c : Nat) (f : Core → Core) : State :=
  (s.members c).foldl (fun s m => s.modAt m f) s

/-- Quad and die of a core (R343). -/
def quadOf (c : Nat) : Nat := c / 4
def dieOf (c : Nat) : Nat := c / 48

/-- Quad q. -/
def State.quad (s : State) (q : Nat) : Quad := if h : q < 48 then s.quads[q] else Quad.reset

/-- Change quad q. -/
def State.modQuad (s : State) (q : Nat) (f : Quad → Quad) : State :=
  if h : q < 48 then { s with quads := s.quads.set q (f s.quads[q]) } else s

/-- Die d. -/
def State.die (s : State) (d : Nat) : Die := if h : d < 4 then s.dies[d] else ⟨[], 0#64, 0#64⟩

/-- Change die d. -/
def State.modDie (s : State) (d : Nat) (f : Die → Die) : State :=
  if h : d < 4 then { s with dies := s.dies.set d (f s.dies[d]) } else s

/-- Frequency of a point of a ratio in MHz (R325); point 4 of ratio H is boost. -/
def freqMHz (ratio point : Nat) : Nat :=
  match ratio with
  | 0 => (match point with | 0 => 1500 | 1 => 1400 | 2 => 1300 | _ => 1200)
  | 1 => (match point with | 0 => 2250 | 1 => 2100 | 2 => 2000 | _ => 1900)
  | _ => (match point with | 0 => 3000 | 1 => 2800 | 2 => 2600 | 3 => 2400 | _ => 3200)

/-- The period of a quad's clock in time units; a stretched cycle lasts 5/4 of it (R327). -/
def Quad.period (q : Quad) : Nat :=
  let t := Config.unitsPerNs * 1000 / freqMHz q.ratio.toNat q.point.toNat
  if q.stretch then t * 5 / 4 else t

/-- Whether a quad answers TARGET_GATED (R337); one that has tripped does so from the trip on (R355). -/
def Quad.gated (q : Quad) : Bool := q.ps != .on || q.tripped

/-- Partition p. -/
def State.part (s : State) (p : Nat) : Part := if h : p < 16 then s.parts[p] else Part.reset

/-- Change partition p. -/
def State.modPart (s : State) (p : Nat) (f : Part → Part) : State :=
  if h : p < 16 then { s with parts := s.parts.set p (f s.parts[p]) } else s

/-- Window w. -/
def State.window (s : State) (w : Nat) : Window :=
  if h : w < 16 then s.windows[w] else ⟨0#64, 0#64, 0#64, 0#64, 0#64, 0#64⟩

/-- Change window w. -/
def State.modWindow (s : State) (w : Nat) (f : Window → Window) : State :=
  if h : w < 16 then { s with windows := s.windows.set w (f s.windows[w]) } else s

/-- The partition of a core: the enabled partition whose QUADS holds its quad (R343). -/
def State.partOf (s : State) (c : Nat) : Nat :=
  ((List.range 16).find? fun p => (s.part p).en && (s.part p).qmask.getLsbD (quadOf c)).getD 0

/-- Whether landings addressed to core c are discarded: it is fenced, or its partition is being reset (R300, R346). -/
def State.discards (s : State) (c : Nat) : Bool := (s.at c).fenced || (s.part (s.partOf c)).inrst

/-- A core's gang index (R15). -/
def Core.gidx (c : Core) (me : Nat) : Nat := me - c.gbase

/-- The cycle a core counts: LCC, or HLC in a handler (R21, R286). -/
def Core.now (c : Core) : Nat := if c.hnd then c.hlc else c.lcc

/-- WTC in ns (R22). -/
def State.wtc (s : State) : Nat := s.time / Config.unitsPerNs

/-- The granted LM bytes: the whole LM at supervisor privilege (R108, R276). -/
def Core.lmGrant (c : Core) : Nat := if c.ctx.sup then 0x200000 else (c.task.map Task.lmg).getD 0

/-- The granted SPM bytes (R107, R276). -/
def Core.spmGrant (c : Core) : Nat := if c.ctx.sup then 4096 else (c.task.map Task.spmg).getD 0

/-! LM, with the supervisor local memory in its place at the top for code at supervisor privilege (R276). -/

/-- Whether an LM address reaches the SLM. -/
def inSlm (sup : Bool) (a : Nat) : Bool := sup && decide (0x1FC000 ≤ a)

/-- Read an LM byte. -/
def Core.lmRead (c : Core) (sup : Bool) (a : Nat) : Byte :=
  if inSlm sup a then memRead c.slm (a - 0x1FC000) else memRead c.lm a

/-- Read LM bytes. -/
def Core.lmReadN (c : Core) (sup : Bool) (a n : Nat) : List Byte := (List.range n).map fun i => c.lmRead sup (a + i)

/-- Write an LM byte; bytes beyond LM are dropped. -/
def Core.lmWrite (c : Core) (sup : Bool) (a : Nat) (b : Byte) : Core :=
  if inSlm sup a then (if a < 0x200000 then { c with slm := memWrite c.slm (a - 0x1FC000) b } else c)
  else if a < 0x200000 then { c with lm := memWrite c.lm a b } else c

/-- Write LM bytes from address a on. -/
def Core.lmWriteN (c : Core) (sup : Bool) : Nat → List Byte → Core
  | _, [] => c
  | a, b :: r => (c.lmWrite sup a b).lmWriteN sup (a + 1) r

/-- Write single LM bytes, in order. -/
def Core.lmWriteCells (c : Core) (sup : Bool) : Mem → Core
  | [] => c
  | (a, b) :: r => (c.lmWrite sup a b).lmWriteCells sup r

/-- Look a tag up. -/
def tagLook : List (Nat × W16) → Nat → W16
  | [], _ => 0#16
  | (k, t) :: r, g => if k = g then t else tagLook r g

/-- Put a tag other than zero in its place. -/
def tagIns : List (Nat × W16) → Nat → W16 → List (Nat × W16)
  | [], g, t => [(g, t)]
  | (k, u) :: r, g, t => if g < k then (g, t) :: (k, u) :: r else if g = k then (g, t) :: r else (k, u) :: tagIns r g t

/-- Set a tag; granules of tag zero are not listed. -/
def tagPut (l : List (Nat × W16)) (g : Nat) (t : W16) : List (Nat × W16) :=
  if t = 0#16 then l.filter fun x => x.1 != g else tagIns l g t

/-- The sequence tag of an LM granule (R27, R276). -/
def Core.tag (c : Core) (sup : Bool) (g : Nat) : W16 :=
  if sup && decide (508 ≤ g) then c.slmTags.getD (g - 508) 0#16 else tagLook c.tags g

/-- Set the sequence tag of an LM granule. -/
def Core.setTag (c : Core) (sup : Bool) (g : Nat) (t : W16) : Core :=
  if sup && decide (508 ≤ g) then { c with slmTags := c.slmTags.set (g - 508) t }
  else if g < 512 then { c with tags := tagPut c.tags g t } else c

/-- LM bytes a ... a + n - 1 have been written by a writer of ranks 1 to 5 in this cycle (R235). -/
def Core.noteBytes (c : Core) (sup : Bool) (a n : Nat) : Core :=
  if inSlm sup a then c else { c with wrote := (a, n) :: c.wrote }

/-- The tag of a granule has been set by such a writer in this cycle (R235). -/
def Core.noteTag (c : Core) (g : Nat) : Core := { c with wroteTags := g :: c.wroteTags }

/-- LM bytes land, by a writer of ranks 1 to 5 (R235). -/
def Core.landBytes (c : Core) (sup : Bool) (a : Nat) (l : List Byte) : Core := (c.lmWriteN sup a l).noteBytes sup a l.length

/-- A tag lands, by a writer of ranks 1 to 5 (R235). -/
def Core.landTag (c : Core) (sup : Bool) (g : Nat) (t : W16) : Core := (c.setTag sup g t).noteTag g

/-- Whether an LM byte, or the tag of a granule, keeps at time t what a higher rank wrote at the end of the core's
cycle, for a landing of rank 6 up to that end lands at it (R235). -/
def Core.keepsByte (c : Core) (t a : Nat) : Bool :=
  decide (t ≤ c.nextCyc) && c.wrote.any fun r => decide (r.1 ≤ a) && decide (a < r.1 + r.2)
def Core.keepsTag (c : Core) (t g : Nat) : Bool := decide (t ≤ c.nextCyc) && c.wroteTags.contains g

/-- The marks of a cycle's landings go as the next begins. -/
def Core.fresh (c : Core) : Core := { c with wrote := [], wroteTags := [] }

/-- Raise flags (R61): they enter ARF_STICKY at the end of the cycle, after its clears. -/
def Ctx.raise (x : Ctx) (f : Byte) : Ctx := { x with raised := x.raised ||| f }

/-- Raise flags of core c. -/
def State.raiseAt (s : State) (c : Nat) (f : Byte) : State := s.modAt c fun k => { k with ctx := k.ctx.raise f }

/-- Draw a free value (log entry 4). -/
def State.freeVal (s : State) : W64 × State := (Config.free s.freeCount, { s with freeCount := s.freeCount + 1 })

/-- A new identifier. -/
def State.newId (s : State) : Nat × State := (s.nextId, { s with nextId := s.nextId + 1 })

end Sys2Proof.Machine
end

