-- ==== Sys2Proof/Machine/Number.lean ====
section
/-! DEFINITION. Number formats and their exact arithmetic (R47-R65, R71-R77): values are exact, every result is
rounded once. Formats are named by R80's codes. -/

namespace Sys2Proof.Machine

/-- Flags of ARF_STICKY (R60). -/
def fIV : Byte := 1#8
def fDZ : Byte := 2#8
def fOF : Byte := 4#8
def fUF : Byte := 8#8
def fIX : Byte := 16#8
def fSAT : Byte := 32#8
def fXOV : Byte := 64#8
def fXSP : Byte := 128#8

/-- An exact value: NaN, an infinity, a signed zero, or a nonzero fraction. -/
inductive Val where
  | nan
  | inf (neg : Bool)
  | zero (neg : Bool)
  | fin (n : Int) (d : Nat)
  deriving DecidableEq, Repr

/-- The value n / d; a zero is given the sign `neg`. -/
def Val.mk' (n : Int) (d : Nat) (neg : Bool) : Val := if n = 0 then .zero neg else .fin n d

/-- Sign of a value. -/
def Val.neg : Val → Bool
  | .nan => false
  | .inf s => s
  | .zero s => s
  | .fin n _ => decide (n < 0)

/-- A binary format (R48): exponent and fraction bits, bias, sign, infinities, NaN. -/
structure FpFmt where
  eb : Nat
  fb : Nat
  bias : Nat
  signed : Bool
  hasInf : Bool
  hasNan : Bool
  deriving DecidableEq, Repr

/-- The floating formats (R48), by code. -/
def fpFmt (f : BitVec 5) : Option FpFmt :=
  match f.toNat with
  | 0x00 => some ⟨11, 52, 1023, true, true, true⟩
  | 0x01 => some ⟨8, 23, 127, true, true, true⟩
  | 0x02 => some ⟨8, 10, 127, true, true, true⟩
  | 0x03 => some ⟨8, 7, 127, true, true, true⟩
  | 0x04 => some ⟨5, 10, 15, true, true, true⟩
  | 0x05 => some ⟨4, 3, 7, true, false, true⟩
  | 0x06 => some ⟨5, 2, 15, true, true, true⟩
  | 0x07 => some ⟨3, 4, 3, true, false, true⟩
  | 0x08 => some ⟨4, 4, 7, false, false, true⟩
  | 0x09 => some ⟨3, 2, 3, true, false, false⟩
  | 0x0A => some ⟨2, 3, 1, true, false, false⟩
  | 0x0B => some ⟨2, 1, 1, true, false, false⟩
  | _ => none

/-- Width in bits of an element in memory (R47, R50, R51, R63). -/
def fmtWidth (f : BitVec 5) : Nat :=
  match f.toNat with
  | 0x00 => 64
  | 0x01 => 32
  | 0x02 => 32
  | 0x03 => 16
  | 0x04 => 16
  | 0x05 => 8
  | 0x06 => 8
  | 0x07 => 8
  | 0x08 => 8
  | 0x09 => 6
  | 0x0A => 6
  | 0x0B => 4
  | 0x0C => 16
  | 0x0D => 8
  | 0x0E => 8
  | 0x0F => 4
  | 0x10 => 4
  | 0x11 => 2
  | 0x12 => 4
  | 0x13 => 3
  | 0x14 => 32
  | _ => 32

/-- Range of an integer format (R52, R63). -/
def intRange (f : BitVec 5) : Option (Int × Int) :=
  match f.toNat with
  | 0x0C => some (-32768, 32767)
  | 0x0D => some (-128, 127)
  | 0x0E => some (0, 255)
  | 0x0F => some (-8, 7)
  | 0x10 => some (0, 15)
  | 0x11 => some (-1, 1)
  | 0x14 => some (-2147483648, 2147483647)
  | _ => none

/-- Two's complement value of the low w bits of x. -/
def sextNat (w x : Nat) : Int :=
  let v := x % 2 ^ w
  if 2 ^ w ≤ 2 * v then (v : Int) - (2 ^ w : Nat) else (v : Int)

/-- 2^e as a fraction. -/
def pow2 (e : Int) : Nat × Nat := if 0 ≤ e then (2 ^ e.toNat, 1) else (1, 2 ^ (-e).toNat)

/-- The value of a floating code (R48); the code is right-aligned. -/
def fpVal (p : FpFmt) (c : Nat) : Val :=
  let e := c / 2 ^ p.fb % 2 ^ p.eb
  let m := c % 2 ^ p.fb
  let s := p.signed && decide (c / 2 ^ (p.fb + p.eb) % 2 = 1)
  let top := e + 1 == 2 ^ p.eb
  if p.hasInf && top then (if m = 0 then .inf s else .nan)
  else if p.hasNan && top && (m + 1 == 2 ^ p.fb) then .nan
  else
    let k : Nat := if e = 0 then m else m + 2 ^ p.fb
    let x : Int := (if e = 0 then (1 : Int) else (e : Int)) - p.bias - p.fb
    let (a, b) := pow2 x
    if k = 0 then .zero s else .fin (if s then -((k * a : Nat) : Int) else ((k * a : Nat) : Int)) b

/-- The value of an element code of any format but NQ, with the flag of a reserved TER2 code (R52). -/
def toVal (f : BitVec 5) (c : W64) : Val × Byte :=
  match fpFmt f with
  | some p => (fpVal p (if f = 2#5 then c.toNat / 8192 % 2 ^ 19 else c.toNat), 0#8)
  | none =>
    if f = 0x11#5 then
      match c.toNat % 4 with
      | 1 => (.fin 1 1, 0#8)
      | 3 => (.fin (-1) 1, 0#8)
      | 2 => (.zero false, fIV)
      | _ => (.zero false, 0#8)
    else
      let w := fmtWidth f
      let v : Int := if f = 0x0E#5 ∨ f = 0x10#5 then ((c.toNat % 2 ^ w : Nat) : Int) else sextNat w c.toNat
      (Val.mk' v 1 false, 0#8)

/-- The canonical NaN of a format (R49). -/
def canonNan (f : BitVec 5) : W64 :=
  match f.toNat with
  | 0x00 => 0x7FF8000000000000#64
  | 0x01 => 0x7FC00000#64
  | 0x02 => 0x7FC00000#64
  | 0x03 => 0x7FC0#64
  | 0x04 => 0x7E00#64
  | 0x06 => 0x7E#64
  | 0x08 => 0xFF#64
  | _ => 0x7F#64

/-- floor(log2(n / d)) for positive n and d. -/
def ilog2 (n d : Nat) : Int :=
  let k : Int := (Nat.log2 n : Int) - (Nat.log2 d : Int)
  let (a, b) := pow2 k
  if n * b < a * d then k - 1 else k

/-- Round the positive value n / d to an integer by mode; `neg` is the sign of the whole (R58). Also whether it was
inexact. -/
def rndNat (md : BitVec 2) (neg : Bool) (n d : Nat) : Nat × Bool :=
  let q := n / d
  let r := n % d
  if r = 0 then (q, false)
  else
    let up := match md.toNat with
      | 0 => decide (2 * r > d) || (decide (2 * r = d) && decide (q % 2 = 1))
      | 1 => false
      | 2 => !neg
      | _ => neg
    (if up then q + 1 else q, true)

/-- The largest finite magnitude code of a format, without the sign (R48). -/
def maxCode (p : FpFmt) : Nat :=
  let all := 2 ^ (p.eb + p.fb) - 1
  if p.hasInf then all - 2 ^ p.fb else if p.hasNan then all - 1 else all

/-- The magnitude code of mantissa k (with its hidden bit) at exponent e: subnormals have e = 1 - bias. -/
def magCode (p : FpFmt) (k : Nat) (e : Int) : Nat :=
  if k < 2 ^ p.fb then k else ((e + p.bias).toNat) * 2 ^ p.fb + (k - 2 ^ p.fb)

/-- Round a nonzero n / d of sign `neg` into a format (R58, R59, R62): magnitude code, flags. -/
def rndMag (p : FpFmt) (md : BitVec 2) (neg : Bool) (n d : Nat) : Option Nat × Byte :=
  let emin : Int := 1 - p.bias
  let e0 := ilog2 n d
  let at_ (e : Int) : Nat × Bool :=
    let (a, b) := pow2 (e - p.fb)
    rndNat md neg (n * b) (d * a)
  -- with an unbounded exponent: is the result tiny?
  let (ku, _) := at_ e0
  let tiny := decide (e0 + 1 < emin) || (decide (e0 < emin) && decide (ku < 2 ^ (p.fb + 1)))
  let e := max e0 emin
  let (k, ix) := at_ e
  let (k, e) := if k = 2 ^ (p.fb + 1) then (2 ^ p.fb, e + 1) else (k, e)
  let c := magCode p k e
  if e + p.bias ≥ (2 ^ p.eb : Nat) ∨ c > maxCode p then (none, fOF ||| fIX)
  else (some c, if ix then (if tiny then fIX ||| fUF else fIX) else 0#8)

/-- Put a magnitude code and a sign together, in the container (R50). -/
def signCode (f : BitVec 5) (p : FpFmt) (neg : Bool) (c : Nat) : W64 :=
  let v := if neg && p.signed then c + 2 ^ (p.eb + p.fb) else c
  BitVec.ofNat 64 (if f = 2#5 then v * 8192 else v)

/-- The infinity of a format that has one. -/
def infCode (f : BitVec 5) (p : FpFmt) (neg : Bool) : W64 :=
  signCode f p neg ((2 ^ p.eb - 1) * 2 ^ p.fb)

/-- Round a value once into a format (R62): code and flags. -/
def rnd (f : BitVec 5) (md : BitVec 2) (v : Val) : W64 × Byte :=
  match fpFmt f with
  | some p =>
    match v with
    | .nan => if p.hasNan then (canonNan f, 0#8) else (0#64, fIV)
    | .inf s => if p.hasInf then (infCode f p s, 0#8) else (signCode f p s (maxCode p), fIV)
    | .zero s => (signCode f p s 0, 0#8)
    | .fin n d =>
      let neg := decide (n < 0)
      match rndMag p md neg n.natAbs d with
      | (some c, fl) =>
        if neg && !p.signed then (0#64, if c = 0 then fIX else fIV) else (signCode f p neg c, fl)
      | (none, fl) =>
        if neg && !p.signed then (0#64, fIV)
        else if !p.hasInf then (signCode f p neg (maxCode p), fl)
        else
          let toInf := match md.toNat with
            | 0 => true
            | 1 => false
            | 2 => !neg
            | _ => neg
          (if toInf then infCode f p neg else signCode f p neg (maxCode p), fl)
  | none =>
    match intRange f with
    | none => (0#64, 0#8)
    | some (lo, hi) =>
      let enc (x : Int) : W64 := BitVec.ofInt 64 (x % (2 ^ fmtWidth f : Nat))
      match v with
      | .nan => (0#64, fIV)
      | .inf s => (enc (if s then lo else hi), fIV)
      | .zero _ => (0#64, 0#8)
      | .fin n d =>
        let (k, ix) := rndNat md (decide (n < 0)) n.natAbs d
        let x : Int := if n < 0 then -(k : Int) else (k : Int)
        if x < lo then (enc lo, fSAT) else if x > hi then (enc hi, fSAT) else (enc x, if ix then fIX else 0#8)

/-- Negate a value. -/
def Val.minus : Val → Val
  | .nan => .nan
  | .inf s => .inf (!s)
  | .zero s => .zero (!s)
  | .fin n d => .fin (-n) d

/-- Exact sum; the sign of an exact zero sum follows IEEE 754 under mode md (R49, R59). -/
def Val.add (md : BitVec 2) (a b : Val) : Val × Byte :=
  match a, b with
  | .nan, _ => (.nan, 0#8)
  | _, .nan => (.nan, 0#8)
  | .inf s, .inf t => if s = t then (.inf s, 0#8) else (.nan, fIV)
  | .inf s, _ => (.inf s, 0#8)
  | _, .inf t => (.inf t, 0#8)
  | .zero s, .zero t => (.zero (if s = t then s else md == 3#2), 0#8)
  | .zero _, x => (x, 0#8)
  | x, .zero _ => (x, 0#8)
  | .fin n d, .fin m e => (Val.mk' (n * e + m * d) (d * e) (md == 3#2), 0#8)

/-- Exact product (R49, R59). -/
def Val.mul (a b : Val) : Val × Byte :=
  match a, b with
  | .nan, _ => (.nan, 0#8)
  | _, .nan => (.nan, 0#8)
  | .inf _, .zero _ => (.nan, fIV)
  | .zero _, .inf _ => (.nan, fIV)
  | .inf s, x => (.inf (s != x.neg), 0#8)
  | x, .inf t => (.inf (x.neg != t), 0#8)
  | .zero s, x => (.zero (s != x.neg), 0#8)
  | x, .zero t => (.zero (x.neg != t), 0#8)
  | .fin n d, .fin m e => (.fin (n * m) (d * e), 0#8)

/-- Exact a * b + c. -/
def Val.fma (md : BitVec 2) (a b c : Val) : Val × Byte :=
  let (p, f) := Val.mul a b
  let (s, g) := Val.add md p c
  (s, f ||| g)

/-- Comparison of values that are no NaN: -1, 0 or 1. -/
def Val.cmp (a b : Val) : Int :=
  let key : Val → Int × Int × Nat
    | .nan => (0, 0, 1)
    | .inf s => (if s then -1 else 1, 0, 1)
    | .zero _ => (0, 0, 1)
    | .fin n d => (0, n, d)
  let (x, n, d) := key a
  let (y, m, e) := key b
  if x < y then -1 else if y < x then 1
  else if n * e < m * d then -1 else if m * d < n * e then 1 else 0

/-- Whether a value is NaN. -/
def Val.isNan : Val → Bool
  | .nan => true
  | _ => false

/-- IEEE 754-2019 minimum and maximum (R190). -/
def Val.minMax (isMax : Bool) (a b : Val) : Val :=
  if a.isNan || b.isNan then .nan
  else
    let c := Val.cmp a b
    if c = 0 then (if (a.neg != isMax) then a else b)
    else if (decide (c < 0)) != isMax then a else b

/-- The predicates of CMP and `vcmp` (R190, R212). -/
def Val.pred (p : Nat) (a b : Val) : Bool :=
  if a.isNan || b.isNan then p == 1
  else
    let c := Val.cmp a b
    match p with
    | 0 => c == 0
    | 1 => c != 0
    | 2 => decide (c < 0)
    | 3 => decide (c ≤ 0)
    | 4 => decide (0 < c)
    | _ => decide (0 ≤ c)

/-- One step of a cell (R63, R65): s + w * v in the accumulation format. An INT32 accumulator that takes a product of a
float operand, latched before a swap to a plane of integers, converts it as R62 does under RNE, with IX or IV (R156 names no
other; DESIGN CHOICE, log entry 62). -/
def accStep (af : BitVec 5) (s : W64) (w v : Val) : W64 × Byte :=
  let (p, f) := Val.mul w v
  let (x, g) := Val.add 0#2 (toVal af s).1 p
  let (r, h) := rnd af 0#2 x
  (r, f ||| g ||| h)

/-! Special functions (R72-R77): exact fractions (numerator, denominator). -/

/-- An exact fraction. -/
abbrev Frac := Int × Nat

def fadd (a b : Frac) : Frac := (a.1 * b.2 + b.1 * a.2, a.2 * b.2)
def fsub (a b : Frac) : Frac := (a.1 * b.2 - b.1 * a.2, a.2 * b.2)
def fmul (a b : Frac) : Frac := (a.1 * b.1, a.2 * b.2)
/-- a / b for positive b. -/
def fdiv (a b : Frac) : Frac := (a.1 * b.2, a.2 * b.1.toNat)
def ffloor (a : Frac) : Int := a.1 / (a.2 : Int)
def fint (n : Int) : Frac := (n, 1)
/-- a * 2^e. -/
def fscale (a : Frac) (e : Int) : Frac :=
  let (n, d) := pow2 e
  (a.1 * n, a.2 * d)

/-- Integer square root by bits, from the top bit down. -/
def isqrtGo : Nat → Nat → Nat → Nat
  | 0, _, r => r
  | k + 1, n, r => isqrtGo k n (if (r + 2 ^ k) * (r + 2 ^ k) ≤ n then r + 2 ^ k else r)

/-- floor(sqrt n). -/
def isqrt (n : Nat) : Nat := isqrtGo (Nat.log2 n / 2 + 1) n 0

/-- Decomposition of a positive n / d into m and E with 1 <= m < 2 (R72). -/
def decomp (n d : Nat) : Frac × Int :=
  let e := ilog2 n d
  (fscale ((n : Int), d) (-e), e)

/-- R73's value for a positive argument. -/
def rcpValue (n d : Nat) : Frac :=
  let (m, e) := decomp n d
  let k := ffloor (fmul (fsub m (fint 1)) (fint 128))
  let t : Int := (2 * 65536 + (257 + 2 * k)) / (2 * (257 + 2 * k))
  let y0 : Frac := (t, 256)
  let x := fsub (fint 1) (fmul m y0)
  let y := fmul y0 (fmul (fadd (fint 1) x) (fadd (fint 1) (fmul x x)))
  fscale y (-e)

/-- R74's value for a positive argument. Table entry: floor(256 / sqrt(1 + (2k+1)/128) + 1/2). -/
def rsqrtValue (n d : Nat) : Frac :=
  let (m, e) := decomp n d
  let odd := e % 2 = 1
  let mm := if odd then fmul m (fint 2) else m
  let q := if odd then (e - 1) / 2 else e / 2
  let k := (ffloor (fmul (fsub mm (fint 1)) (fint 64))).toNat
  -- floor(sqrt(65536 * 128 * 4 / (129 + 2k)) / 2 + 1/2)
  let t : Nat := (isqrt (65536 * 128 * 4 / (129 + 2 * k)) + 1) / 2
  let y0 : Frac := ((t : Int), 256)
  let x := fsub (fint 1) (fmul mm (fmul y0 y0))
  let y := fmul y0 (fadd (fint 1) (fadd (fdiv x (fint 2))
    (fadd (fdiv (fmul (fint 3) (fmul x x)) (fint 8)) (fdiv (fmul (fint 5) (fmul x (fmul x x))) (fint 16)))))
  fscale y (-q)

/-- floor(ln 2 * 2^200), by the series 2 * sum of (1/3)^(2i+1) / (2i+1) with 32 guard bits. -/
def ln2Go : Nat → Nat → Nat → Nat → Nat
  | 0, _, _, s => s
  | k + 1, i, p, s => ln2Go k (i + 1) (p / 9) (s + 2 * p / (2 * i + 1))

/-- ln 2 in units of 2^-232. -/
def ln2Fix : Nat := ln2Go 75 0 (2 ^ 232 / 3) 0

/-- floor(2^(k/64) * 2^40 + 1/2) (R75): by 64 = 2^6 square roots of 2^k in high precision. -/
def exp2Table (k : Nat) : Nat :=
  let s1 := isqrt (2 ^ k * 2 ^ 512)      -- 2^(k/2) in units of 2^-256
  let s2 := isqrt (s1 * 2 ^ 256)         -- 2^(k/4)
  let s3 := isqrt (s2 * 2 ^ 256)
  let s4 := isqrt (s3 * 2 ^ 256)
  let s5 := isqrt (s4 * 2 ^ 256)
  let s6 := isqrt (s5 * 2 ^ 256)         -- 2^(k/64)
  (s6 / 2 ^ 215 + 1) / 2

/-- The constant L of R75: floor(ln 2 * 2^40 + 1/2). -/
def ln2Table : Nat := (ln2Fix / 2 ^ 191 + 1) / 2

/-- E2 of R75. -/
def e2Value (a : Frac) : Frac :=
  let n := ffloor a
  let f := fsub a (fint n)
  let k := (ffloor (fmul f (fint 64))).toNat
  let r := fsub f ((k : Int), 64)
  let u := fmul r ((ln2Table : Int), 2 ^ 40)
  let u2 := fmul u u
  let p := fadd (fint 1) (fadd u (fadd (fdiv u2 (fint 2)) (fadd (fdiv (fmul u2 u) (fint 6))
    (fdiv (fmul u2 u2) (fint 24)))))
  fscale (fmul (((exp2Table k : Nat) : Int), 2 ^ 40) p) n

/-- One bit of a base-2 logarithm of x (in units of 2^-256, 1 <= x < 2) after the other. -/
def log2Go : Nat → Nat → Nat → Nat
  | 0, _, acc => acc
  | k + 1, x, acc =>
    let y := x * x / 2 ^ 256
    if 2 ^ 257 ≤ y then log2Go k (y / 2) (2 * acc + 1) else log2Go k y (2 * acc)

/-- floor(log2(n / d) * 2^64) for n >= d, n < 2 d. -/
def log2Fix (n d : Nat) : Nat := log2Go 64 (n * 2 ^ 256 / d) 0

/-- floor(log2(b) * 2^40 + 1/2) of R76 for b = 3/4 + k/128 = (96 + k) / 128. -/
def log2Table (k : Nat) : Int :=
  if k = 32 then 0
  else if k > 32 then (((log2Fix (96 + k) 128) / 2 ^ 23 + 1) / 2 : Nat)
  else
    -- b < 1: log2(b) = log2(2 b) - 1
    let t : Int := (log2Fix (2 * (96 + k)) 128 : Int) - 2 ^ 64
    (t / 2 ^ 23 + 1) / 2

/-- The constant Mc of R76: floor(2 / ln 2 * 2^40 + 1/2). -/
def log2Mc : Nat := (2 ^ 232 * 2 ^ 42 / ln2Fix + 1) / 2

/-- R76's value for a positive argument. -/
def log2Value (n d : Nat) : Frac :=
  let (m, e) := decomp n d
  let big := m.1 * 2 ≥ 3 * m.2
  let m := if big then fdiv m (fint 2) else m
  let e := if big then e + 1 else e
  let k := (ffloor (fadd (fmul (fsub m (3, 4)) (fint 128)) (1, 2))).toNat
  let b : Frac := (((96 + k : Nat) : Int), 128)
  let z := fdiv (fsub m b) (fadd m b)
  let z2 := fmul z z
  let z3 := fmul z z2
  let s := fadd z (fadd (fdiv z3 (fint 3)) (fdiv (fmul z3 z2) (fint 5)))
  fadd (fadd (fint e) (log2Table k, 2 ^ 40)) (fmul ((log2Mc : Int), 2 ^ 40) s)

/-- The constant K of R77: floor(log2(e) * 2^40 + 1/2), log2(e) = 1 / ln 2. -/
def log2eTable : Nat := (2 ^ 232 * 2 ^ 41 / ln2Fix + 1) / 2

/-- R77's value for a positive argument. -/
def tanhValue (n d : Nat) : Frac :=
  let t : Frac := ((n : Int), d)
  if n * 4096 < d then
    let t2 := fmul t t
    let t3 := fmul t t2
    fadd (fsub t (fdiv t3 (fint 3))) (fdiv (fmul (fint 2) (fmul t3 t2)) (fint 15))
  else
    let w := e2Value (fmul (fint (-2)) (fmul t ((log2eTable : Int), 2 ^ 40)))
    fdiv (fsub (fint 1) w) (fadd (fint 1) w)

/-- The value of a fraction, a zero with the sign `neg`. -/
def Frac.val (x : Frac) (neg : Bool) : Val := Val.mk' x.1 x.2 neg

/-- The five special functions (R72-R77) by number: 0 rcp, 1 rsqrt, 2 exp2, 3 log2, 4 tanh. -/
def special (fn : Nat) (f : BitVec 5) (md : BitVec 2) (v : Val) : W64 × Byte :=
  let out (x : Val) (fl : Byte) : W64 × Byte :=
    let (r, g) := rnd f md x
    (r, fl ||| g)
  match fn with
  | 0 =>
    match v with
    | .nan => out .nan 0#8
    | .zero s => out (.inf s) fDZ
    | .inf s => out (.zero s) 0#8
    | .fin n d =>
      let neg := decide (n < 0)
      let p := (fpFmt f).getD ⟨8, 23, 127, true, true, true⟩
      -- |1/x| >= 2^(emax + 1)
      let (a, b) := pow2 (p.bias + 1)
      if d * b ≥ a * n.natAbs then (infCode f p neg, fOF ||| fIX)
      else
        let y := rcpValue n.natAbs d
        out (Frac.val (if neg then (-y.1, y.2) else y) neg) 0#8
  | 1 =>
    match v with
    | .nan => out .nan 0#8
    | .zero s => out (.inf s) fDZ
    | .inf s => if s then out .nan fIV else out (.zero false) 0#8
    | .fin n d => if n < 0 then out .nan fIV else out (Frac.val (rsqrtValue n.natAbs d) false) 0#8
  | 2 =>
    match v with
    | .nan => out .nan 0#8
    | .zero _ => out (.fin 1 1) 0#8
    | .inf s => if s then out (.zero false) 0#8 else out (.inf false) 0#8
    | .fin n d =>
      -- beyond every format's range the result is that of any argument as large (R62)
      let n' : Int := if n > 5000 * d then 5000 * d else if n < -(5000 * (d : Int)) then -(5000 * (d : Int)) else n
      out (Frac.val (e2Value (n', d)) false) 0#8
  | 3 =>
    match v with
    | .nan => out .nan 0#8
    | .zero _ => out (.inf true) fDZ
    | .inf s => if s then out .nan fIV else out (.inf false) 0#8
    | .fin n d => if n < 0 then out .nan fIV else out (Frac.val (log2Value n.natAbs d) false) 0#8
  | _ =>
    match v with
    | .nan => out .nan 0#8
    | .zero s => out (.zero s) 0#8
    | .inf s => out (.fin (if s then -1 else 1) 1) 0#8
    | .fin n d =>
      let neg := decide (n < 0)
      -- for t > 2000 the value differs from that at 2000 by less than any rounding can see
      let (a, b) := if n.natAbs > 2000 * d then (2000, 1) else (n.natAbs, d)
      let y := tanhValue a b
      out (Frac.val (if neg then (-y.1, y.2) else y) neg) 0#8

/-! Exact accumulators (R66-R69). -/

/-- Exponent of the unit of an accumulator: 149 for XA, 1074 for XD. -/
def xScale (wide : Bool) : Nat := if wide then 1074 else 149
/-- Climit of R68. -/
def xLimit (wide : Bool) : Nat := if wide then 2 ^ 77 + 1 else 2 ^ 42 + 1
/-- Width of K in bits (R66, R67). -/
def xBits (wide : Bool) : Nat := if wide then 2176 else 320

/-- K wraps in its width (R66, R67: two's complement). -/
def xWrap (wide : Bool) (k : Int) : Int :=
  let m : Int := (2 ^ xBits wide : Nat)
  let r := k % m
  if 2 * r ≥ m then r - m else r

/-- `add` of R68. -/
def XAcc.add (wide : Bool) (a : XAcc) (v : Val) : XAcc :=
  let a := { a with c := min (a.c + 1) (xLimit wide) }
  match v with
  | .nan => { a with q := true }
  | .inf s => if s then { a with m := true } else { a with p := true }
  | .zero _ => a
  | .fin n d => { a with k := xWrap wide (a.k + n * (2 ^ xScale wide : Nat) / d) }

/-- `merge` of R68. -/
def XAcc.merge (wide : Bool) (a b : XAcc) : XAcc :=
  ⟨xWrap wide (a.k + b.k), min (a.c + b.c) (xLimit wide), a.p || b.p, a.m || b.m, a.q || b.q⟩

/-- Rounding out (R69). -/
def XAcc.out (wide : Bool) (f : BitVec 5) (md : BitVec 2) (a : XAcc) : W64 × Byte :=
  if a.c = xLimit wide then (canonNan f, fXOV ||| fIV)
  else if a.q || (a.p && a.m) then (canonNan f, if a.p && a.m then fXSP ||| fIV else fXSP)
  else if a.p then ((rnd f md (.inf false)).1, fXSP)
  else if a.m then ((rnd f md (.inf true)).1, fXSP)
  else rnd f md (Val.mk' a.k (2 ^ xScale wide) (md == 3#2))

/-! The normal-quantile codebook (R53-R56). -/

/-- M[k] * 128 of NQ4 and NQ3 (R53). -/
def nqLevel (nq3 : Bool) (k : Nat) : Nat :=
  if nq3 then (match k with | 0 => 0 | 1 => 36 | 2 => 76 | _ => 128)
  else (match k with | 0 => 0 | 1 => 10 | 2 => 21 | 3 => 34 | 4 => 49 | 5 => 67 | 6 => 90 | _ => 128)

/-- level(code) * q * G, exact; NaN if G is not finite; a zero of a block with q = 0 has the sign of its code (R55). -/
def nqValue (f : BitVec 5) (c : Nat) (q : Byte) (g : W32) : Val :=
  let nq3 := f == 0x13#5
  let mb := if nq3 then 2 else 3
  let neg := decide (c / 2 ^ mb % 2 = 1)
  let lev := nqLevel nq3 (c % 2 ^ mb)
  match (toVal 1#5 (g.setWidth 64)).1 with
  | .nan => .nan
  | .inf _ => .nan
  | gv =>
    if q = 0#8 then .zero neg
    else
    let (x, _) := Val.mul (Val.mk' (if neg then -(lev * q.toNat : Nat) else ((lev * q.toNat : Nat) : Int)) 128 neg) gv
    x

/-- Encode a value with a positive step q * G (R56): code and flags. -/
def nqEncode (f : BitVec 5) (x : Val) (step : Frac) : Nat × Byte :=
  let nq3 := f == 0x13#5
  let top := if nq3 then 3 else 7
  let sgn := if nq3 then 4 else 8
  match x with
  | .nan => (0, fIV)
  | .inf s => ((if s then sgn else 0) + top, fIV)
  | .zero s => (if s then sgn else 0, 0#8)
  | .fin n d =>
    let neg := decide (n < 0)
    -- |x| / step compared with the midpoints (M[k] + M[k+1]) / 256
    let r := fdiv ((n.natAbs : Int), d) step
    let k := ((List.range top).filter fun j =>
      decide (((nqLevel nq3 j + nqLevel nq3 (j + 1) : Nat) : Int) * r.2 < r.1 * 256)).length
    ((if neg then sgn else 0) + k, if r.1 > r.2 then fSAT else 0#8)

end Sys2Proof.Machine
end

