-- ==== Sys2Proof/Machine/Home.lean ====
section
/-! DEFINITION. The physical map and the homes of global bytes: targets (R315, R344), poison (R233), format windows
(R229-R231), accumulating elements (R244), owner tags (R351). -/

namespace Sys2Proof.Machine

/-- Where a physical address leads (R315). -/
inductive Target where
  | hbm
  | vault (c off : Nat)
  | lm (c off : Nat)
  | ctr (c off : Nat)
  | decode
  | pod (m a : Nat)
  | none
  deriving DecidableEq, Repr

/-- The class of an address below 2^41 of this module. -/
def localTarget (pa : Nat) : Target :=
  if pa < 0x9000000000 then .hbm
  else if 0x10000000000 ≤ pa ∧ pa < 0x10080000000 then
    let r := pa - 0x10000000000
    let v := r % 0x20000000 / 0x800000
    if v < 48 then .vault (48 * (r / 0x20000000) + v) (r % 0x800000) else .none
  else if 0x18000000000 ≤ pa ∧ pa < 0x18000000000 + 192 * 0x200000 then
    .lm ((pa - 0x18000000000) / 0x200000) ((pa - 0x18000000000) % 0x200000)
  else if 0x1C000000000 ≤ pa ∧ pa < 0x1C000000000 + 192 * 0x1000 then
    .ctr ((pa - 0x1C000000000) / 0x1000) ((pa - 0x1C000000000) % 0x1000)
  else if 0x1E000000000 ≤ pa ∧ pa < 0x20000000000 then .decode
  else .none

/-- This module's number in the pod (R359). -/
def State.moduleNo (s : State) : Nat := bitsOf s.idnPod.toNat 0 10

/-- Where a physical address leads; this module's own pod addresses lead to itself. -/
def State.target (s : State) (pa : Nat) : Target :=
  if 2 ^ 51 ≤ pa then
    let m := (pa - 2 ^ 51) / 2 ^ 41
    let p := (pa - 2 ^ 51) % 2 ^ 41
    if m = s.moduleNo then localTarget p else .pod m p
  else localTarget pa

/-- The address of a byte as `gmem` keys it: this module's own pod alias is the plain address. -/
def State.normPa (s : State) (pa : Nat) : Nat :=
  if 2 ^ 51 ≤ pa ∧ (pa - 2 ^ 51) / 2 ^ 41 = s.moduleNo then (pa - 2 ^ 51) % 2 ^ 41 else pa

/-- Bytes of a vault given to its cache (R225). -/
def Core.vcShare (c : Core) : Nat := bitsOf c.vltCtl.toNat 0 3 * 0x200000

/-- The enabled window that decodes an address: the lowest (R229). -/
def State.windowOf (s : State) (pa : Nat) : Option Nat :=
  (List.range 16).find? fun w =>
    let x := s.window w
    x.ctl.getLsbD 0 && decide (x.base.toNat ≤ pa) && decide (pa < x.lim.toNat)

/-- Whether an address has a target for an agent of partition p (R315, R344, R347): of no disabled partition. Decode
space outside every enabled window reads as zero for all (R315; DEDUCED, log entry 50). -/
def State.hasTarget (s : State) (p : Nat) (kc : Bool) (pa : Nat) : Bool :=
  let P := s.part p
  P.en && match s.target pa with
  | .hbm =>
    let g := s.normPa pa / 0x40000000
    decide (bitsOf P.hbm.toNat 0 10 ≤ g) && decide (g < bitsOf P.hbm.toNat 16 10)
  | .vault c off => P.qmask.getLsbD (quadOf c) && decide (off < 0x800000 - (s.at c).vcShare)
  | .lm c _ => P.qmask.getLsbD (quadOf c)
  | .ctr c _ => kc && P.qmask.getLsbD (quadOf c)
  | .decode =>
    match s.windowOf (s.normPa pa) with
    | some w => P.win.getLsbD w
    | none => true
  | .pod m a => Config.podTarget m p a
  | .none => false

/-- Size of a group record (R54). -/
def recordSize (f : BitVec 5) : Nat := if f == 0x13#5 then 6528 else 8576
/-- Bytes of codes of a group record (R54). -/
def recordCodes (f : BitVec 5) : Nat := if f == 0x13#5 then 6144 else 8192

/-- Code of element e of the record at `at` (R51, R54). -/
def nqCode (rd : Nat → Byte) (f : BitVec 5) (at_ e : Nat) : Nat :=
  let w := if f == 0x13#5 then 3 else 4
  let b := w * e
  (leNat [rd (at_ + b / 8), rd (at_ + b / 8 + 1)]) / 2 ^ (b % 8) % 2 ^ w

/-- A byte of the counter page of core c (R315). -/
def ctrByte (k : Core) (off : Nat) : Byte :=
  let v : W64 := match off / 8 with
    | 0 => k.vcHit
    | 1 => k.vcPhit
    | 2 => k.vcMiss
    | 3 => k.vcOvfl
    | 4 => k.hintIgn
    | 5 => k.nmuDup
    | _ => 0#64
  BitVec.ofNat 8 (v.toNat / 256 ^ (off % 8))

/-- LM bytes a window reaches: those of the grant of the bound task (R315). -/
def Core.windowGrant (c : Core) : Nat := (c.task.map Task.lmg).getD 0

/-- A byte at its home, decode space apart. A record that lies in decode space reads as zero (DESIGN CHOICE, log
entry 23). -/
def State.plainByte (s : State) (pa : Nat) : Byte :=
  match s.target pa with
  | .hbm => memRead s.gmem (s.normPa pa)
  | .vault _ _ => memRead s.gmem (s.normPa pa)
  | .lm c off => if off < (s.at c).windowGrant then memRead (s.at c).lm off else 0#8
  | .ctr c off => ctrByte (s.at c) off
  | .pod _ _ => memRead s.gmem pa
  | .decode => 0#8
  | .none => 0#8

/-- The two formats of a window (R229). -/
def Window.sfmt (x : Window) : BitVec 5 := BitVec.ofNat 5 (bitsOf x.ctl.toNat 1 5)
def Window.tfmt (x : Window) : BitVec 5 := BitVec.ofNat 5 (bitsOf x.ctl.toNat 6 5)
/-- Bytes of a decoded element. -/
def Window.elBytes (x : Window) : Nat := max 1 (fmtWidth x.tfmt / 8)

/-- Element e of the decoded view of a window, with its flags (R230, R55): decoded from the record bytes at their home. -/
def State.decodeEl (s : State) (x : Window) (e : Nat) : W64 × Byte × Bool :=
  let sf := x.sfmt
  let r := x.store.toNat + e / 16384 * recordSize sf
  let k := e % 16384
  let q := s.plainByte (r + recordCodes sf + k / 64)
  let g := leNat ((List.range 4).map fun i => s.plainByte (r + recordCodes sf + 256 + i))
  let v := nqValue sf (nqCode s.plainByte sf r k) q (BitVec.ofNat 32 g)
  let (c, fl) := rnd x.tfmt 0#2 v
  (c, fl, v.isNan)

/-- Whether the decoded range of a window overlaps its own records (R229). -/
def windowOverlaps (x : Window) : Bool :=
  let n := ((x.lim.toNat - x.base.toNat) / x.elBytes + 16383) / 16384
  let e := x.store.toNat + n * recordSize x.sfmt
  decide (x.store.toNat < x.lim.toNat) && decide (x.base.toNat < e)

/-- A counter field that saturates, in a register (R231). -/
def satField (r : W64) (lo w n : Nat) : W64 := putBits r lo w (min (2 ^ w - 1) (bitsOf r.toNat lo w + n))

/-- A byte at its home (R230, R315). Decode space bounds what a window decodes: a window whose range lies outside it decodes
nothing there (DESIGN CHOICE, log entry 50). -/
def State.homeByte (s : State) (pa : Nat) : Byte :=
  match s.target pa with
  | .decode =>
    match s.windowOf (s.normPa pa) with
    | none => 0#8
    | some w =>
      let x := s.window w
      if windowOverlaps x then 0#8
      else
        let o := s.normPa pa - x.base.toNat
        BitVec.ofNat 8 ((s.decodeEl x (o / x.elBytes)).1.toNat / 256 ^ (o % x.elBytes))
  | _ => s.plainByte pa

/-! Memory-side caches (R223, R230, R344, R351). Which ways of a set hold a partition's lines has no effect on bytes: it
decides which owner tags and decoded lines are kept. Their set index and replacement are the model's (log entry 23). -/

/-- Sets of the four memory-side caches together. -/
abbrev mscSets : Nat := 2 ^ 21

/-- The partition in whose ways a line of HBM or of decode space is allocated (R344). -/
def State.mscHolder (s : State) (pa : Nat) : Option Nat :=
  (List.range 16).find? fun p => (s.part p).en && (match s.target pa with
    | .hbm => s.hasTarget p false pa
    | .decode => match s.windowOf (s.normPa pa) with
      -- records in an LM window change unseen: such lines are not kept
      | some w => (s.part p).win.getLsbD w && (match s.target (s.window w).store.toNat with
        | .lm _ _ => false
        | _ => true)
      | none => false
    | _ => false)

/-- The line of an address as a memory-side cache holds it. -/
def State.mscFind (s : State) (pa : Nat) : Option MscLine := s.msc.find? fun x => x.line == s.normPa pa / 128

/-- An agent of a partition and context writes a line (wr), or its request fills it (R351): a full set displaces a line
of the same partition's ways, with its tag (R344). -/
def State.mscTouch (s : State) (pa part : Nat) (ctx : W16) (wr : Bool) : State :=
  let l := s.normPa pa / 128
  match s.mscFind pa with
  | some x => if wr then { s with msc := ⟨l, x.alloc, part, ctx⟩ :: s.msc.filter fun y => y.line != l } else s
  | none =>
    match s.mscHolder pa with
    | none => s
    | some p =>
      let mates := s.msc.filter fun y => y.alloc == p && y.line % mscSets == l % mscSets
      let ways := (s.part p).mways.toNat
      let out := if mates.length < ways then none else mates[Config.victim 16 s.freeCount % ways]?
      { s with msc := ⟨l, p, part, ctx⟩ :: s.msc.filter (fun y => out != some y), freeCount := s.freeCount + 1 }

/-- A decoded line that is not there is counted (R230, R231). -/
def State.countDecoded (s : State) (w pa : Nat) : State :=
  let x := s.window w
  let z := x.elBytes
  let els := if windowOverlaps x then [] else
    (List.range (128 / z)).map fun i => s.decodeEl x ((pa - x.base.toNat) / 128 * 128 / z + i)
  let nans := (els.filter fun e => e.2.2).length
  let ovf := (els.filter fun e => e.2.1 &&& fOF != 0#8).length
  let inx := (els.filter fun e => e.2.1 &&& fIX != 0#8).length
  let a := satField (satField x.cntA 0 32 1) 32 32 nans
  let b := satField (satField x.cntB 0 16 ovf) 32 32 inx
  s.modWindow w fun y => { y with cntA := a, cntB := b }

/-- A request of an agent for a line at its home: the line enters the memory-side cache (R230, R351). -/
def State.homeTouch (s : State) (part : Nat) (ctx : W16) (pa : Nat) : State :=
  let s := match s.target pa, s.mscFind pa with
    | .decode, none => match s.windowOf (s.normPa pa) with
      | some w => s.countDecoded w (s.normPa pa)
      | none => s
    | _, _ => s
  s.mscTouch pa part ctx false

/-- Whether the word of an address is poisoned (R233). -/
def State.poisoned (s : State) (pa : Nat) : Bool := s.poison.contains (s.normPa pa / 4)

/-- Bytes at their homes. -/
def State.homeBytes (s : State) (pa n : Nat) : List Byte := (List.range n).map fun i => s.homeByte (pa + i)

/-- Insert into a rising list. -/
def insNat (a : Nat) : List Nat → List Nat
  | [] => [a]
  | k :: r => if a < k then a :: k :: r else if a = k then k :: r else k :: insNat a r

/-- A byte written at its home. -/
def State.homePut (s : State) (pa : Nat) (b : Byte) : State :=
  match s.target pa with
  | .hbm => { s with gmem := memWrite s.gmem (s.normPa pa) b }
  | .vault _ _ => { s with gmem := memWrite s.gmem (s.normPa pa) b }
  | .lm c off =>
    if off < (s.at c).windowGrant then s.modAt c fun k => { k with lm := memWrite k.lm off b } else s
  | .pod _ _ => { s with gmem := memWrite s.gmem pa b }
  | .ctr _ _ => s
  | .decode => s
  | .none => s

/-- Decoded lines that depend on bytes a ... a + n - 1 of records are invalidated (R230). -/
def State.undecode (s : State) (a n : Nat) : State :=
  let keep (y : MscLine) : Bool :=
    match s.target (128 * y.line) with
    | .decode => match s.windowOf (128 * y.line) with
      | some w =>
        let x := s.window w
        let o := 128 * y.line - x.base.toNat
        let lo := x.store.toNat + o / x.elBytes / 16384 * recordSize x.sfmt
        let hi := x.store.toNat + ((o + 127) / x.elBytes / 16384 + 1) * recordSize x.sfmt
        !(decide (s.normPa lo < a + n) && decide (a < s.normPa lo + (hi - lo)))
      | none => false
    | _ => true
  { s with msc := s.msc.filter keep }

/-- A write of one element or chunk at its home: bytes with poison marks; whole words lose their mark, parts of
poisoned words stay poisoned, poisoned bytes mark their word (R233); LM and counter pages have no marks. Accumulating
elements that it meets leave that state (R244). A write in decode space is discarded and counted (R230). -/
def State.homeWrite (s : State) (part : Nat) (ctx : W16) (cells : List (Nat × Byte × Bool)) : State :=
  match cells with
  | [] => s
  | (p0, _, _) :: _ =>
    match s.target p0 with
    | .decode =>
      match s.windowOf (s.normPa p0) with
      | some w => s.modWindow w fun y => { y with cntB := satField y.cntB 16 16 1 }
      | none => s
    | _ =>
      let s := cells.foldl (fun s (pa, b, _) => (s.homePut pa b).undecode (s.normPa pa) 1) s
      let marks := match s.target p0 with
        | .lm _ _ | .ctr _ _ | .none => false
        | _ => true
      let pas := cells.map fun c => s.normPa c.1
      let words := (pas.map (· / 4)).foldl (fun l w => insNat w l) []
      let whole := words.filter fun w => (List.range 4).all fun i => pas.contains (4 * w + i)
      let bad := (cells.filter fun c => c.2.2).map fun c => s.normPa c.1 / 4
      let poison := (s.poison.filter fun w => !(whole.contains w)) 
      let poison := bad.foldl (fun l w => insNat w l) poison
      let accs := s.accs.filter fun e =>
        !(pas.any fun p => decide (e.pa ≤ p) && decide (p < e.pa + fmtWidth e.fmt / 8))
      ({ s with poison := if marks then poison else s.poison, accs := accs }).mscTouch p0 part ctx true

/-- A plain write of bytes at their homes. -/
def State.homeWriteN (s : State) (part : Nat) (ctx : W16) (pa : Nat) (b : List Byte) : State :=
  s.homeWrite part ctx (b.mapIdx fun i x => (pa + i, x, false))

/-! Gated quads and links that are down (R337, R354, R363). -/

/-- A gated quad answers a request for a byte (R337). -/
def State.gatedAt (s : State) (pa : Nat) : Option Nat :=
  match s.target pa with
  | .lm c _ | .ctr c _ => if (s.quad (quadOf c)).gated then some (quadOf c) else none
  | _ => none

/-- A TARGET_GATED reply of quad q is counted (R337). -/
def State.nack (s : State) (q : Nat) : State :=
  s.modQuad q fun y => { y with nack := if y.nack = 0xFFFF#16 then y.nack else y.nack + 1#16 }

/-- The reply of the quad of an address, where it is gated, is counted. -/
def State.nackAt (s : State) (pa : Nat) : State :=
  match s.gatedAt pa with
  | some q => s.nack q
  | none => s

/-- Whether a request of partition p for an address comes back as from a gated target: a gated quad, a module of the pod
whose links are all down, or one that returns an error (R337, R354, R363). -/
def State.noAnswer (s : State) (p pa : Nat) : Bool :=
  (s.gatedAt pa).isSome || (match s.target pa with
    | .pod m a => ((s.ports.take 18).all fun l => !l.up) || Config.podError m p a
    | _ => false)

/-- The 64-bit word at a home. -/
def State.home64 (s : State) (pa : Nat) : W64 := BitVec.ofNat 64 (leNat (s.homeBytes pa 8))

end Sys2Proof.Machine
end

