-- ==== Sys2Proof/Machine/Translate.lean ====
section
/-! DEFINITION. Address translation (R315-R323): table walks, the quad TLB and die walk cache, and the checks of an
access against its leaf. -/

namespace Sys2Proof.Machine

/-- The pieces of a physical address range that lie in decode space (R315). -/
def inDecode (s : State) (pa : Nat) : Bool := s.target pa == .decode

/-- Whether a valid table entry breaks R317 at its level. -/
def entryBad (s : State) (lvl : Nat) (e : Nat) : Bool :=
  let leaf := bitsOf e 1 1 == 1
  decide (bitsOf e 8 4 ≠ 0) || decide (bitsOf e 52 12 ≠ 0)
  || (!leaf && decide (bitsOf e 2 6 ≠ 0))
  || (leaf && decide (lvl ≤ 3)) || (!leaf && lvl == 5)
  || (leaf && lvl == 4 && (bitsOf e 2 1 == 1 || decide (bitsOf e 12 9 ≠ 0)))
  || (leaf && bitsOf e 3 1 == 0 && bitsOf e 4 1 == 1)
  || (leaf && inDecode s (bitsOf e 12 40 * 4096) && (bitsOf e 4 1 == 1 || decide (bitsOf e 6 2 ≠ 0)))

/-- Bit position of the index of a level (R316). -/
def lvlShift (lvl : Nat) : Nat := 57 - 9 * lvl
/-- Index of a level (R316). -/
def lvlIndex (lvl va : Nat) : Nat := bitsOf va (lvlShift lvl) 9
/-- The virtual prefix that a level's entry covers. -/
def lvlPrefix (lvl va : Nat) : Nat := va % 2 ^ 57 / 2 ^ lvlShift lvl

/-- What the walker needs of the context that makes a lookup. -/
structure Walker where
  ctx : W16
  part : Nat
  root : Nat
  die : Nat
  deriving DecidableEq, Repr

/-- Outcome of a walk: level + 16 * kind of its fault (R320), or the leaf. -/
abbrev WalkRes := Nat ⊕ Leaf

/-- Install in a bounded structure; a full one displaces an entry of the implementation's choice (R319). -/
def boundedCons {α : Type} (cap draw : Nat) (x : α) (l : List α) : List α :=
  if l.length < cap then x :: l else x :: l.eraseIdx (Config.victim cap draw % cap)

/-- Whether an entry read by a walker is poisoned (R349). -/
def State.badEntry (s : State) (a : Nat) : Bool := s.poisoned a || s.poisoned (a + 4)

/-- Whether the group of a CT leaf is a 64 KiB leaf (R319, R349); e is the entry read, at its place in the table. -/
def groupOk (s : State) (base idx e : Nat) : Bool :=
  let g0 := idx / 16 * 16
  let ent (i : Nat) : Nat := (s.home64 (base + 8 * (g0 + i))).toNat
  let f0 := bitsOf (ent 0) 12 40
  decide (f0 % 16 = 0) &&
  (List.range 16).all fun i =>
    let x := ent i
    !s.badEntry (base + 8 * (g0 + i)) && bitsOf x 0 1 == 1 && bitsOf x 2 1 == 1 && bitsOf x 0 8 == bitsOf e 0 8 && bitsOf x 12 40 == f0 + i

/-- The 16 entries of the group of an entry. -/
def groupOf (base idx : Nat) : List Nat := (List.range 16).map fun i => base + 8 * (idx / 16 * 16 + i)

/-- Walk from level `lvl` on (R319): outcome, entries for the walk cache, places of the entries read. An entry whose address
has no target for the walker's partition is not read: kind 4 (R320, R344, R347; DEDUCED, log entry 68). -/
def walkFrom (s : State) (w : Walker) (va : Nat) : Nat → Nat → Nat → WalkRes × List (Nat × Nat × W64) × List Nat
  | 0, _, _ => (.inl 0, [], [])
  | fuel + 1, lvl, base =>
    let a := base + 8 * lvlIndex lvl va
    let e := (s.home64 a).toNat
    if !s.hasTarget w.part true a then (.inl (4 * 16), [], [])
    else if s.badEntry a then (.inl (lvl + 32), [], [a])
    else if bitsOf e 0 1 = 0 then (.inl (lvl + 16), [], [a])
    else if entryBad s lvl e then (.inl (lvl + 32), [], [a])
    else
      let frame := bitsOf e 12 40 * 4096
      if bitsOf e 1 1 = 1 then
        if lvl = 5 ∧ bitsOf e 2 1 = 1 then
          if groupOk s base (lvlIndex 5 va) e then
            let i := lvlIndex 5 va % 16
            (.inr ⟨w.ctx, w.part, va / 65536 * 65536, 65536, frame - i * 4096, BitVec.ofNat 8 e⟩, [],
              a :: groupOf base (lvlIndex 5 va))
          else (.inl (5 + 32), [], a :: groupOf base (lvlIndex 5 va))
        else
          let size := if lvl = 4 then 0x200000 else 4096
          (.inr ⟨w.ctx, w.part, va / size * size, size, frame, BitVec.ofNat 8 e⟩, [], [a])
      else
        let (r, l, n) := walkFrom s w va fuel (lvl + 1) frame
        (r, (lvl, lvlPrefix lvl va, BitVec.ofNat 64 e) :: l, a :: n)

/-- The deepest walk-cache entry of an address (R319): level and entry. -/
def wcFind (d : Die) (w : Walker) (va : Nat) : Option (Nat × W64) :=
  ([4, 3, 2, 1].findSome? fun lvl =>
    (d.wc.find? fun (c, p, l, x, _) => c == w.ctx && p == w.part && l == lvl && x == lvlPrefix lvl va).map
      fun (_, _, _, _, e) => (lvl, e))

/-- A walk without caches or counters, from the root (R255, R316). -/
def State.walkPlain (s : State) (w : Walker) (va : Nat) : WalkRes := (walkFrom s w va 5 1 w.root).1

/-- A walk that uses and fills the die walk cache and counts (R319, R323); the entries are read at their homes (R322). -/
def State.walk (s : State) (w : Walker) (va : Nat) : WalkRes × State :=
  let d := s.die w.die
  let (k, base) := match wcFind d w va with
    | some (l, e) => (l, bitsOf e.toNat 12 40 * 4096)
    | none => (0, w.root)
  let (r, l, n) := walkFrom s w va (5 - k) (k + 1) base
  let wc := l.foldl (fun wc (lvl, x, e) => boundedCons 4096 s.freeCount (w.ctx, w.part, lvl, x, e) wc) d.wc
  let s := n.foldl (fun s a => s.homeTouch w.part w.ctx a) s
  (r, { s.modDie w.die (fun d => { d with
      wc := wc, wRead := satAdd48 d.wRead n.length, wcHit := satAdd48 d.wcHit (if k = 0 then 0 else 1) })
    with freeCount := s.freeCount + 1 })

/-- The walker of core c's current context (R318). -/
def State.walkerOf (s : State) (c : Nat) : Walker :=
  let k := s.at c
  { ctx := BitVec.ofNat 16 k.trnCtx.toNat, part := s.partOf c, root := bitsOf k.trnRoot.toNat 12 40 * 4096,
    die := dieOf c }

/-- Whether a leaf translates an address of a context. -/
def Leaf.covers (l : Leaf) (ctx : W16) (part va : Nat) : Bool :=
  l.ctx == ctx && l.part == part && decide (l.va ≤ va) && decide (va < l.va + l.size)

/-- The leaf that the TLB of quad q holds for a walker's context. -/
def State.tlbIn (s : State) (q : Nat) (w : Walker) (va : Nat) : Option Leaf :=
  (s.quad q).tlb.find? fun l => l.covers w.ctx w.part va

/-- A miss in the TLB of quad q: count it, walk, and install the leaf (R319, R323). -/
def State.missIn (s : State) (q : Nat) (w : Walker) (va : Nat) : WalkRes × State :=
  let s := s.modQuad q fun q => { q with trnMiss := satAdd48 q.trnMiss 1 }
  let (r, s) := s.walk w va
  match r with
  | .inl k => (.inl k, s)
  | .inr l => (.inr l, s.modQuad q fun q => { q with tlb := boundedCons 2048 s.freeCount l q.tlb })

/-- A lookup for a walker's context (R319, R323). -/
def State.lookupIn (s : State) (q : Nat) (w : Walker) (va : Nat) : WalkRes × State :=
  match s.tlbIn q w va with
  | some l => (.inr l, s.modQuad q fun q => { q with trnHit := satAdd48 q.trnHit 1 })
  | none => s.missIn q w va

/-- A lookup in the quad TLB of core c: a hit counts; none where it misses (R319, R323). -/
def State.tlbFind (s : State) (c va : Nat) : Option Leaf := s.tlbIn (quadOf c) (s.walkerOf c) va

/-- Count a TLB hit. -/
def State.countHit (s : State) (c : Nat) : State :=
  s.modQuad (quadOf c) fun q => { q with trnHit := satAdd48 q.trnHit 1 }

/-- A miss of core c. -/
def State.missWalk (s : State) (c va : Nat) : WalkRes × State := s.missIn (quadOf c) (s.walkerOf c) va

/-- A lookup that walks at once on a miss: streams and prefetches (R321). -/
def State.lookup (s : State) (c va : Nat) : WalkRes × State := s.lookupIn (quadOf c) (s.walkerOf c) va

/-- The translation stop of an access (R320): level + 16 * kind. -/
def transStop (eng rank : Nat) (code : Nat) (write : Bool) (va : Nat) : Stop :=
  { cls := .translation, eng := eng, rank := rank, sub := code + (if write then 256 else 0), detail := va }

/-- The physical address of va under a leaf (R319). Private copies are kept by it as it stands: this module's own pod
alias of an address and the plain address have lines of their own (DESIGN CHOICE, log entry 23). -/
def Leaf.phys (l : Leaf) (va : Nat) : Nat := l.pa + (va - l.va)

/-- A permission fault at a leaf: kind 3 at the leaf's level (R320). -/
def Leaf.denied (l : Leaf) : Nat := 3 * 16 + (if l.size = 0x200000 then 4 else 5)

/-- The checks of R320 against a leaf, for core c's context: the code of a failure. -/
def State.leafCheck (s : State) (c : Nat) (l : Leaf) (rd wr : Bool) (va : Nat) : Option Nat :=
  let k := s.at c
  if l.bits.getLsbD 5 && !k.ctx.sup then some l.denied
  else if rd && !l.bits.getLsbD 3 then some l.denied
  else if wr && !l.bits.getLsbD 4 then some l.denied
  else if !s.hasTarget (s.partOf c) (k.trnCtx.getLsbD 16) (l.phys va) then some (4 * 16)
  else none

/-- The memory type of a leaf (R317): 0 WB, 1 WBN, 2 UC, 3 DEV. -/
def Leaf.mt (l : Leaf) : Nat := bitsOf l.bits.toNat 6 2

/-- The checks of R320 on a leaf for an agent of a partition: the physical address, where the access is allowed. -/
def State.leafPhys (s : State) (part : Nat) (kc sup rd wr : Bool) (va : Nat) (l : Leaf) : Nat ⊕ (Nat × Leaf) :=
  if l.bits.getLsbD 5 && !sup then .inl l.denied
  else if rd && !l.bits.getLsbD 3 then .inl l.denied
  else if wr && !l.bits.getLsbD 4 then .inl l.denied
  else if !s.hasTarget part kc (l.phys va) then .inl (4 * 16)
  else .inr (l.phys va, l)

/-- A translation in a context without TLB and counters, for agents that keep no TLB of their own here: intake,
reports, releases (R255, R305, R313). Physical address, where the access is allowed. -/
def State.plainPhys (s : State) (ctx : W16) (part : Nat) (root : Nat) (kc sup : Bool) (rd wr : Bool) (va : Nat) :
    Nat ⊕ (Nat × Leaf) :=
  match s.walkPlain ⟨ctx, part, root, 0⟩ va with
  | .inl k => .inl k
  | .inr l => s.leafPhys part kc sup rd wr va l

/-- The context-table entry of a context for an agent of a partition, through a core's TRN_CTXTAB (R318, R344); one at an
address without a target is not valid (DEDUCED, log entry 68). -/
def State.ctxEntry (s : State) (part : Nat) (tab : W64) (ctx : W16) : W64 :=
  let a := bitsOf tab.toNat 19 33 * 0x80000 + 8 * ctx.toNat
  if s.hasTarget part true a then s.home64 a else 0#64

end Sys2Proof.Machine
end

