-- ==== Sys2Proof/Machine/Report.lean ====
section
/-! DEFINITION. The event ring (R348) and residency reports (R313). -/

namespace Sys2Proof.Machine

/-- Write a block of bytes at its home in one piece, for frames, images, reports and samples; its lines are those of
the partition and context that wrote it (R351). -/
def State.homeFill (s : State) (part : Nat) (ctx : W16) (pa : Nat) (b : List Byte) : State :=
  match s.target pa with
  | .hbm | .vault _ _ | .pod _ _ =>
    let a := s.normPa pa
    let s := (s.undecode a b.length)
    let s := (List.range ((a % 128 + b.length + 127) / 128)).foldl (fun s k => s.mscTouch (a + 128 * k) part ctx true) s
    { s with
      gmem := memWriteN s.gmem a b
      poison := s.poison.filter fun w => !(decide (a ≤ 4 * w) && decide (4 * w + 4 ≤ a + b.length))
      accs := s.accs.filter fun e => !(decide (e.pa < a + b.length) && decide (a < e.pa + fmtWidth e.fmt / 8)) }
  | _ => s.homeWriteN part ctx pa b

/-- A write at a physical address by hardware that serves partition part, at most 4 KiB at a time: bytes at addresses that
have no target for it go nowhere (R344, R347; DEDUCED, log entry 68). -/
def State.ownFill (s : State) (part : Nat) (ctx : W16) (pa : Nat) (b : List Byte) : State :=
  (List.range ((b.length + 4095) / 4096)).foldl (fun s i =>
    let c := (b.drop (4096 * i)).take 4096
    let a := pa + 4096 * i
    if s.hasTarget part true a && s.hasTarget part true (a + c.length - 1) then s.homeFill part ctx a c else s) s

/-- Whether n bytes from a physical address on have targets for hardware that serves partition part (R344, R347). -/
def State.ownReach (s : State) (part pa n : Nat) : Bool :=
  (List.range ((n + 4095) / 4096)).all fun i => s.hasTarget part true (pa + 4096 * i) && s.hasTarget part true (pa + n - 1)

/-- The kinds of events (R348). -/
inductive EventKind where
  | escalated | ramp | gangLost | uncorrectable | correctable | link | thermal | partReset | sigLow | selfTest
  deriving DecidableEq, Repr

/-- KIND codes (R348). -/
def EventKind.code : EventKind → Nat
  | .escalated => 1
  | .ramp => 2
  | .gangLost => 3
  | .uncorrectable => 4
  | .correctable => 5
  | .link => 6
  | .thermal => 7
  | .partReset => 8
  | .sigLow => 9
  | .selfTest => 10

/-- Post an entry and raise the interrupt (R348). The ring belongs to no context: its lines carry the tag that R350
gives storage without one. -/
def State.post (s : State) (k : EventKind) (part core ctx code lid addr : Nat) : State :=
  let size := 2 ^ (bitsOf s.mgtEvq.toNat 0 4 + 4)
  let base := bitsOf s.mgtEvq.toNat 12 40 * 4096
  let n := s.mgtEvhead.toNat
  let v := k.code + part * 2 ^ 8 + core * 2 ^ 16 + ctx * 2 ^ 32 + code * 2 ^ 48 + lid * 2 ^ 64 + addr * 2 ^ 128
    + s.wtc * 2 ^ 192
  let at_ := base + 32 * (n % size)
  { s.homeFill ((s.mscHolder at_).getD 0) 0xFFFF#16 at_ (natLe 32 v) with
    mgtEvhead := s.mgtEvhead + 1#32, mgtInt := s.mgtInt + 1 }

/-- Class codes (R280). -/
def StopClass.code : StopClass → Nat
  | .illegalEncoding => 0x01
  | .privileged => 0x02
  | .controlFlow => 0x03
  | .scheduleMiss => 0x04
  | .schedule => 0x05
  | .bounds => 0x06
  | .alignment => 0x07
  | .command => 0x08
  | .translation => 0x09
  | .memoryError => 0x0A
  | .pairOverrun => 0x0B
  | .versionStraddle => 0x0C
  | .holdTimeout => 0x0D
  | .safeGap => 0x0E
  | .trap => 0x0F
  | .syscall => 0x10
  | .linkLost => 0x11
  | .preemptSafe => 0x12
  | .preemptHold => 0x13
  | .gangLost => 0x14
  | .supervisor => 0x15

/-- STATE codes (R313). -/
def TaskState.code : TaskState → Nat
  | .bound => 1
  | .running => 2
  | .preempted => 3
  | .committed => 4
  | .faulted => 5
  | .lost => 7

/-- The context table of a partition: TRN_CTXTAB of its lowest core (R318, R344). -/
def State.partTab (s : State) (p : Nat) : W64 :=
  (((List.range 48).find? fun q => (s.part p).qmask.getLsbD q).map fun q => (s.at (4 * q)).trnCtxTab).getD 0#64

/-- Root, KC and V of a context of a partition (R318). R8 lets a reserved bit of a structure fault where its chapter says
so; R318 names no such point, and the reserved bits of a valid entry have no effect (DESIGN CHOICE, log entry 70). -/
def State.ctxRoot (s : State) (p : Nat) (ctx : W16) : Nat × Bool × Bool :=
  let e := s.ctxEntry p (s.partTab p) ctx
  (bitsOf e.toNat 12 40 * 4096, e.getLsbD 1, e.getLsbD 0)

/-- Launch lid of partition p. -/
def State.launch (s : State) (p : Nat) (lid : W32) : Option Launch :=
  s.launches.find? fun l => l.part == p && l.lid == lid

/-- Change launch lid of partition p. -/
def State.modLaunch (s : State) (p : Nat) (lid : W32) (f : Launch → Launch) : State :=
  { s with launches := s.launches.map fun l => if l.part == p && l.lid == lid then f l else l }

/-- Write one report entry of a launch (R313). An entry whose ring is not reachable is not written. -/
def State.reportRaw (s : State) (l : Launch) (st lvl phase : Nat) (tile : Nat) (core code res : Nat) (ramp hdc lcc : Nat) :
    State :=
  let (root, kc, _) := s.ctxRoot l.part l.ctx
  let va := l.repAddr + 64 * (l.reports % max l.repn 1)
  let late := lvl == 2 && l.deadline != 0#64 && decide (l.deadline.toNat < s.wtc)
  let v := l.lid.toNat + st * 2 ^ 32 + lvl * 2 ^ 36 + phase * 2 ^ 40 + tile * 2 ^ 64 + core * 2 ^ 112 + code * 2 ^ 128
    + res * 2 ^ 136 + (if late then 2 ^ 144 else 0) + s.wtc % 2 ^ 64 * 2 ^ 192 + ramp % 2 ^ 64 * 2 ^ 256
    + hdc % 2 ^ 64 * 2 ^ 320 + lcc % 2 ^ 64 * 2 ^ 384 + (l.reports + 1) % 2 ^ 64 * 2 ^ 448
  match s.plainPhys l.ctx l.part root kc true false true va with
  | .inl _ => s
  | .inr (pa, _) => s.homeFill l.part l.ctx pa (natLe 64 v)

/-- Whether entry a comes before entry b of one WTC instant: task before phase before launch, tasks in ascending core
number (R313). -/
def RepEntry.before (a b : RepEntry) : Bool := decide (a.lvl < b.lvl) || (a.lvl == 0 && b.lvl == 0 && decide (a.core < b.core))

/-- Insert behind the entries that come no later. -/
def insRep (x : RepEntry) : List RepEntry → List RepEntry
  | [] => [x]
  | y :: r => if x.before y then x :: y :: r else y :: insRep x r

/-- A report entry is due if the launch's REP selects its level (R313); it is written when its WTC instant is over. -/
def State.report (s : State) (p : Nat) (lid : W32) (st lvl phase tile core code : Nat) (ramp hdc lcc : Nat) : State :=
  match s.launch p lid with
  | none => s
  | some l =>
    if lvl + l.rep.toNat < 2 then s
    else { s with reps := insRep ⟨p, lid, st, lvl, phase, tile, core, code, ramp, hdc, lcc⟩ s.reps }

/-- Write one entry, and count it. -/
def State.putRep (s : State) (e : RepEntry) : State :=
  match s.launch e.part e.lid with
  | none => s
  | some l => (s.reportRaw l e.st e.lvl e.phase e.tile e.core e.code 0 e.ramp e.hdc e.lcc).modLaunch e.part e.lid
      fun l => { l with reports := l.reports + 1 }

/-- The entries of the present WTC instant are written (R313). -/
def State.putReps (s : State) : State := { s.reps.foldl State.putRep s with reps := [] }

/-- Report a task's state (R313, R314), and keep it in the launch's record of the task. -/
def State.reportTask (s : State) (c : Nat) (st : TaskState) (code : Nat) : State :=
  let k := s.at c
  match k.task with
  | none => s
  | some t =>
    let s := s.modLaunch t.part t.lid fun l => { l with
      tasks := l.tasks.map fun r => if r.tile == t.tile && r.phase == t.phase then { r with st := st } else r }
    s.report t.part t.lid st.code 0 t.phase t.tile.toNat k.gbase code t.rampNs k.hdc.toNat k.lcc

end Sys2Proof.Machine
end

