-- ==== Sys2Proof/Machine/Ops.lean ====
section
/-! DEFINITION. The operations every meaning shares: issuing a word (R92), holding a gang (R23-R25), stopping a gang
(R279-R285: taking an exception) and resuming it (R293: the return from one). -/

namespace Sys2Proof.Machine

/-- The answer of a step. -/
abbrev Out := Host.Outcome State Fault Refusal

/-- What a word or an event comes to, before stops and holds are taken. -/
inductive Try where
  | ok (s : State)
  /-- a stop for cause c; r: further causes -/
  | stop (c : Stop) (r : List Stop := [])
  /-- a stop for cause c after lookups that have changed caches and counters -/
  | stopIn (s : State) (c : Stop)
  /-- a hold for cause h; r: further causes -/
  | hold (h : HoldCause) (s : State) (r : List HoldCause := [])
  deriving Repr

/-! Queues and issue. -/

/-- Queue e of a context. -/
def Ctx.q (x : Ctx) (e : Nat) : Queue := x.qs.getD e ⟨0, []⟩

/-- Replace queue e. -/
def Ctx.setQ (x : Ctx) (e : Nat) (q : Queue) : Ctx := { x with qs := x.qs.set e q }

/-- Drop the instruction at the head: its word and the literals behind it (R79, R84). -/
def popInstr : List QEntry → List QEntry
  | [] => []
  | _ :: r => r.dropWhile fun w => BitVec.extractLsb' 29 3 w.word == 7#3

/-- The waiting record of engine e, for the two engines whose words wait outside the gang's time. -/
def Ctx.pend (x : Ctx) (e : Nat) : Pend := if e = 5 then x.pend5 else x.pend6

/-- Change the waiting record of engine e. -/
def Ctx.setPend (x : Ctx) (e : Nat) (p : Pend) : Ctx := if e = 5 then { x with pend5 := p } else { x with pend6 := p }

/-- The word at the head of queue e issues (R84, R92): it leaves its queue and NI := issue + occupancy + I. -/
def Ctx.issue (x : Ctx) (now e occ idle : Nat) : Ctx :=
  let x := x.setQ e ⟨now + occ + idle, popInstr (x.q e).es⟩
  if e = 5 then { x with pend5 := Pend.reset } else if e = 6 then { x with pend6 := Pend.reset } else x

/-- The word at the head of queue e of the current core issues. -/
def State.issued (s : State) (e occ : Nat) (i : BitVec 4) : State :=
  s.mod fun c => { c with ctx := c.ctx.issue c.now e occ i.toNat }

/-- The IMEM byte address of the word at the head of queue e (R283). -/
def Ctx.headAddr (x : Ctx) (e : Nat) : Nat := ((x.q e).es.head?.map QEntry.addr).getD 0xFFFF

/-- A stop at the issue of the head of queue e of the current core. -/
def issueStop (s : State) (e : Nat) (cls : StopClass) (detail : Nat) : Stop :=
  { cls := cls, eng := e, rank := 1, waddr := s.core.ctx.headAddr e, detail := detail }

/-- A stop of the current core for which R283 names no DETAIL. -/
def bareStop (s : State) (e rank : Nat) (cls : StopClass) (waddr : Nat) : Stop :=
  { cls := cls, eng := e, rank := rank, waddr := waddr, detail := Config.openDetail s.nextId }

/-! Holds. -/

/-- What a hold timeout records of a cause of the current core (R122, R281, R283). -/
def holdStop (s : State) (h : HoldCause) : Stop :=
  let word (e : Nat) : Stop := bareStop s e 1 .holdTimeout (s.core.ctx.headAddr e)
  match h with
  | .tag _ _ g t e r =>
    { cls := .holdTimeout, eng := e, rank := r, waddr := if r ≤ 1 then s.core.ctx.headAddr e else 0xFFFF,
      detail := g * 65536 + t.toNat }
  | .late _ p _ _ => bareStop s 1 (2 + p) .holdTimeout 0xFFFF
  | .lateCopy _ _ _ => bareStop s 5 2 .holdTimeout 0xFFFF
  | .walk e => word e
  | .nmfence => word 5
  | .acquire | .fence | .tlbi | .saveRestore | .resume | .barrier _ _ => word 6

/-- Whether cause a prevails over cause b (R281): the lower engine, then the lower rank. -/
def Stop.before (a b : Stop) : Bool := decide (a.eng < b.eng) || (a.eng == b.eng && decide (a.rank < b.rank))

/-- The link port whose retrain is behind a hold cause (R354). -/
def HoldCause.link : HoldCause → Option Nat
  | .late _ _ _ r => r
  | .lateCopy _ _ r => r
  | _ => none

/-- Record a hold cause in every core of the current gang; causes that overlap form one hold, and a hold that goes on in
the same cycle after a test of its acts is the same hold (R25, R298; DEDUCED, log entry 59). -/
def addHold (s : State) (h : HoldCause) : State :=
  let link := h.link
  let k := holdStop s h
  s.modGang s.cur.val fun c => { c with hold := some (match c.hold with
    | none =>
      match c.held with
      | some (n, since, wdog, seen) =>
        if n = c.now then ⟨[h], since, wdog, seen.orElse fun _ => link, k⟩ else ⟨[h], s.time, c.wdog.toNat, link, k⟩
      | none => ⟨[h], s.time, c.wdog.toNat, link, k⟩
    | some x => { x with
        causes := if x.causes.contains h then x.causes else x.causes ++ [h], linkSeen := x.linkSeen.orElse fun _ => link
        why := if k.before x.why then k else x.why }) }

/-! Frames (R282-R285). -/

/-- Whether a class is restartable (R280). -/
def StopClass.restartable : StopClass → Bool
  | .gangLost => false
  | .supervisor => false
  | _ => true

/-- Bits [63:0] of a frame header (R283). -/
def headerWord (f : FrameRec) : Nat :=
  let st := f.stop
  1 + st.why.cls.code * 2 ^ 16 + st.why.eng * 2 ^ 24 + (if st.atEnd then 2 ^ 27 else 0)
  + (if st.why.cls.restartable && st.frame then 2 ^ 28 else 0) + (if st.more then 2 ^ 29 else 0)
  + (if f.ctx.sup then 2 ^ 30 else 0) + (if (f.task.map Task.strict).getD false then 2 ^ 31 else 0)
  + f.gidx * 2 ^ 32 + f.gsize * 2 ^ 34 + st.why.sub * 2 ^ 48

/-- The frame header of save number id as a number of 2048 bits (R283). -/
def headerBits (id : Nat) (f : FrameRec) : Nat :=
  headerWord f + f.stop.cyc % 2 ^ 64 * 2 ^ 64 + f.stop.wtc % 2 ^ 64 * 2 ^ 128 + f.hdc.toNat * 2 ^ 192
  + f.stop.why.waddr * 2 ^ 256 + f.stop.mask.toNat * 2 ^ 272 + f.stop.ext * 2 ^ 288
  + f.stop.why.detail % 2 ^ 64 * 2 ^ 320 + f.core * 2 ^ 512 + (Config.frameCheck id).toNat * 2 ^ 1984

/-- KIND codes of the snapshot buffer (R284). -/
def EffKind.code : EffKind → Nat
  | .drop => 1
  | .store => 2
  | .tagw => 3
  | .nstore => 4
  | .nload => 5
  | .nread => 6

/-- One snapshot entry as a number of 128 bits (R284). -/
def snapBits (c : Nat) (e : CpEff) : Nat :=
  let size := match e.kind, e.size with
    | .store, 2 => 1
    | .store, 4 => 2
    | .store, 8 | .nstore, _ => 3
    | _, _ => 0
  let addr := match e.kind with
    | .store | .tagw | .nstore => e.addr
    | _ => 0
  let data := match e.kind with
    | .nload => e.addr
    | _ => e.data.toNat
  data + addr * 2 ^ 64 + size * 2 ^ 85 + e.q * 2 ^ 88 + e.kind.code * 2 ^ 90 + (e.due - c) * 2 ^ 96 + (c - e.issue) * 2 ^ 104

/-- One entry of the queue contents as a number of 128 bits (R285). -/
def qentBits (e : QEntry) : Nat :=
  e.word.toNat + e.addr * 2 ^ 32 + (match e.eff with
    | some t => 2 ^ 48 + t % 2 ^ 64 * 2 ^ 64
    | none => 0)

/-- Byte k of a number. -/
def byteOf (v k : Nat) : Byte := BitVec.ofNat 8 (v / 256 ^ k)

/-- The byte at an offset of a frame (R282). The sections whose inner layout the spec leaves open are free values. -/
def frameDoc (id : Nat) (f : FrameRec) (o : Nat) : Byte :=
  let x := f.ctx
  if o < 0x100 then byteOf (headerBits id f) o
  else if o < 0x180 then byteOf (x.rq.getD ((o - 0x100) / 8) 0#64).toNat (o % 8)
  else if o < 0x200 then byteOf (x.n.getD ((o - 0x180) / 8) 0#64).toNat (o % 8)
  else if o < 0x240 then
    let k := (o - 0x200) / 8
    byteOf ((x.ret.reverse.getD k 0) + (if k = 0 then x.ret.length * 2 ^ 56 else 0)) (o % 8)
  else if o = 0x247 then
    -- the depth in bits [63:62] of level 0; two bits hold it modulo 4 (log entry 8)
    BitVec.ofNat 8 ((Config.frameByte id o).toNat % 64 + x.loops.length % 4 * 64)
  else if o < 0x2C0 then Config.frameByte id o
  else if o < 0x2C8 then byteOf x.sticky.toNat (o % 8)
  else if o < 0x300 then 0#8
  else if o < 0x400 then
    match x.effs[(o - 0x300) / 16]? with
    | some e => byteOf (snapBits f.stop.cyc e) (o % 16)
    | none => 0#8
  else if o < 0x600 then Config.frameByte id o
  else if o < 0x1000 then
    match (x.qs.flatMap Queue.es)[(o - 0x600) / 16]? with
    | some e => byteOf (qentBits e) (o % 16)
    | none => 0#8
  else if o < 0x1C00 then Config.frameByte id o
  else if o < 0x2000 then byteOf (tagLook f.tags ((o - 0x1C00) / 2)).toNat (o % 2)
  else memRead x.spm (o - 0x2000)

/-- Whether software may change the byte at an offset of a frame (R282). -/
def frameEditable (f : FrameRec) (o : Nat) : Bool :=
  (decide (48 ≤ o) && decide (o < 64)) || (decide (0x100 ≤ o) && decide (o < 0x200))
  || (decide (0x2C0 ≤ o) && decide (o < 0x2C8))
  || (decide (0x300 ≤ o) && decide (o < 0x400) && decide (o % 16 < 8) &&
      (match f.ctx.effs[(o - 0x300) / 16]? with
       | some e => e.kind == .drop || e.kind == .nread
       | none => false))
  || decide (0x2000 ≤ o)

/-- Size of a frame in bytes (R282). -/
def frameSize : Nat := 0x3000

/-- What the code of number w has under way outside logical time. -/
def State.inflight (s : State) (w : Nat) : Nat :=
  (s.hbm.countP fun x => x.who == w) + (s.rels.countP fun x => x.who == w) + (s.atoms.countP fun x => x.who == w)

/-- PRV_STATUS of core c (R278): INFL counts operations of the stopped task. -/
def State.prvStatus (s : State) (c : Nat) : W64 :=
  let k := s.at c
  BitVec.ofNat 64 ((if k.ctx.sup then 1 else 0) + (if k.hnd then 2 else 0) + (if (k.stop.map Stopped.frame).getD false then 4 else 0)
    + (if k.enter then 8 else 0) + (if k.hlt then 16 else 0) + (if k.fenced then 32 else 0)
    + (match k.stop with
      | some st => s.inflight st.who % 65536 * 65536
      | none => 0))

/-- What a stop keeps of a word that waits at the head of the SYN queue: the arrival of a `sy.bar` that holds is with
the network and is not repeated (R252, R254; log entry 20); any other word issues anew. -/
def Pend.stopped (p : Pend) : Pend := if p.arg.head? == some 3 then { p with ready := false } else Pend.reset

/-- A context as a stop leaves it. -/
def Ctx.stopped (x : Ctx) : Ctx := { x with pend5 := Pend.reset, pend6 := x.pend6.stopped }

/-- The frame record of core c for a stop. -/
def frameOf (s : State) (c : Nat) (st : Stopped) : FrameRec :=
  let k := s.at c
  { core := c, ctx := k.ctx.stopped, stop := st, lcc := st.cyc, hdc := k.hdc, gidx := k.gidx c, gsize := k.gsize,
    tags := k.tags, grant := k.lmGrant, task := k.task }

/-- The physical base of a core's frame area (R278); 0: none. -/
def Core.frameBase (c : Core) : Nat := bitsOf c.fltBase.toNat 12 40 * 4096

/-- Core c writes its frame (R282). -/
def writeFrame (s : State) (c : Nat) (st : Stopped) : State :=
  let f := frameOf s c st
  let base := (s.at c).frameBase
  let s' := s.modAt c fun k => { k with
    ctx := k.ctx.stopped
    stop := some st, hst := (if k.task.isSome then 5 else k.hst),
    fltCause := (if base = 0 then k.fltCause else BitVec.ofNat 64 (headerWord f)), hold := none, held := none, endStop := none,
    arr := { k.arr with stopCyc := st.cyc }, grid := { k.grid with stopCyc := st.cyc },
    preReq := false, prePend := k.prePend && !(st.why.cls == .preemptSafe || st.why.cls == .preemptHold) }
  if base = 0 then s'
  else
    let (id, s') := s'.newId
    { s'.ownFill (s'.partOf c) (s'.walkerOf c).ctx base ((List.range frameSize).map fun o => frameDoc id f o) with saved := .frame id f :: s'.saved }

/-- Whether a stop of a gang goes to its handler (R286, R288): handlers enabled, the class not escalating, every
core with a frame area, and no supervisor task. -/
def toHandler (s : State) (c : Nat) (cls : StopClass) : Bool :=
  let k := s.at c
  k.fltVec.getLsbD 14 && !k.fltVec.getLsbD (16 + cls.code) && cls.restartable && !k.ctx.sup
  && (s.members c).all fun m => decide ((s.at m).frameBase ≠ 0)

/-- Report a stop to the management core (R288, R348), and the task as faulted (R314). -/
def escalate (s : State) (c : Nat) (code : Nat) : State :=
  let k := s.at c
  let ctx := match k.task with
    | some t => t.ctx.toNat
    | none => 0xFFFF
  let lid := match k.task with
    | some t => t.lid.toNat
    | none => 0
  let s := s.post .escalated (s.partOf c) c ctx code lid k.frameBase
  let s := s.reportTask c .faulted code
  s.modGang c fun k => { k with stop := k.stop.map fun st => { st with escalated := true } }

/-- The cause that is recorded (R281). -/
def bestStop (c : Stop) (r : List Stop) : Stop := r.foldl (fun b x => if x.before b then x else b) c

/-- TAKING A STOP (R279-R288): the current gang stops at its present cycle; each core writes its frame; the stop goes
to the handler, which the agenda then enters, or it escalates. `rest` and `moreStops` are further causes of the cycle. In a handler the fault is class 0x15: the task's
frame stays and the fault is shown only in FLT_CAUSE (R287). -/
def takeStop (s : State) (why : Stop) (rest : List Stop) (atEnd : Bool) (mask : W16) (ext : Option Nat) : State :=
  let why := bestStop why rest
  let more := s.moreStops || !rest.isEmpty
  let c := s.cur.val
  let k := s.core
  let agenda := s.agenda.filter fun a => !((s.members c).contains a.1.val)
  let s := { s with agenda := agenda, lastStop := some why, moreStops := more }
  if k.hnd then
    let why := { why with cls := .supervisor }
    let s := (s.members c).foldl (fun s m => s.modAt m fun k =>
      let st : Stopped := ⟨why, k.hlc, atEnd, more, s.wtc, 0xFFFF#16, k.lmGrant, false, true, k.ctx.who⟩
      let f : FrameRec := ⟨m, k.ctx, st, k.hlc, k.hdc, k.gidx m, k.gsize, k.tags, k.lmGrant, k.task⟩
      { k with hnd := false, hold := none, held := none, endStop := none, fltCause := BitVec.ofNat 64 (headerWord f) }) s
    escalate s c 0x15
  else
    let frames := (s.members c).all fun m => decide ((s.at m).frameBase ≠ 0)
    let hdl := toHandler s c why.cls
    let s := (s.members c).foldl (fun s m =>
      let k := s.at m
      writeFrame s m ⟨why, k.lcc, atEnd, more, s.wtc, mask, ext.getD k.lmGrant, frames, !hdl, k.ctx.who⟩) s
    if hdl then { s with agenda := (s.cur, .event .handlerEntry) :: s.agenda } else escalate s c why.cls.code

/-- The answer of a step from what it came to. -/
def finish (s : State) : Try → Out
  | .ok t => .next t
  | .stop c r => .next (takeStop s c r false 0xFFFF#16 none)
  | .stopIn t c => .next (takeStop t c [] false 0xFFFF#16 none)
  | .hold h t r => .next (r.foldl addHold (addHold t h))

/-! The return from a stop (R293). -/

/-- Whether the frame in memory at pa is that of save number id, but for what software may edit: the device's check
of CHK (R283, R293; log entry 8). -/
def frameMatches (s : State) (pa : Nat) (id : Nat) (f : FrameRec) : Bool :=
  (List.range frameSize).all fun o =>
    if o = 3 then decide ((s.homeByte (pa + 3)).toNat % 128 = (frameDoc id f 3).toNat % 128)
    else frameEditable f o || s.homeByte (pa + o) == frameDoc id f o

/-- The saved frame that memory at pa holds. -/
def findFrame (s : State) (pa : Nat) : Option FrameRec :=
  s.saved.findSome? fun x => match x with
    | .frame id f => if frameMatches s pa id f then some f else none
    | _ => none

/-- The context a frame restores, its editable parts read from memory (R282, R293). -/
def frameCtx (s : State) (pa : Nat) (f : FrameRec) : Ctx :=
  let w (o : Nat) : W64 := s.home64 (pa + o)
  let n := (List.range 16).map fun i => w (0x180 + 8 * i)
  let mask := f.stop.mask
  { f.ctx with
    rq := (List.range 16).map fun i => w (0x100 + 8 * i)
    n := if f.stop.why.cls == .preemptSafe then n.mapIdx fun i v => if mask.getLsbD i then v else 0#64 else n
    sticky := s.homeByte (pa + 0x2C0)
    effs := f.ctx.effs.mapIdx fun i e =>
      if e.kind == .drop || e.kind == .nread then { e with data := w (0x300 + 16 * i) } else e
    spm := memWriteN [] 0 (s.homeBytes (pa + 0x2000) 4096)
    spl := { f.ctx.spl with line := none } }

/-- Core numbers of a context taken to another gang (R166, R293): members keep their gang index. -/
def remapCtx (x : Ctx) (old new : Nat) : Ctx :=
  let mv (c : Nat) : Nat := c - old + new
  let mvEnd : CopyEnd → CopyEnd := fun e => match e with
    | .lm c a u => .lm (mv c) a u
    | .imem a => .imem a
    | .gcs a => .gcs a
    | .phys l => .phys l
  { x with copies := x.copies.map fun y => { y with core := mv y.core, src := mvEnd y.src, dst := mvEnd y.dst } }

/-- RETURN FROM A STOP (R293): core c takes its context back from the frame at pa and continues at LCC + END. HDC counts
on from the holds of the handler (R22, R286); a task that no handler resumes on its own core counts on from the frame. -/
def resumeCore (s : State) (c pa : Nat) (f : FrameRec) : State :=
  let x := remapCtx (frameCtx s pa f) (f.core - f.gidx) (c - f.gidx)
  let strict := decide ((s.homeByte (pa + 3)).toNat ≥ 128)
  s.modAt c fun k =>
    let k := if f.core = c then k else { k with tags := f.tags }
    let k := if f.stop.why.cls == .preemptSafe then
        { k with
          lm := k.lm.filter fun b => !(decide (f.stop.ext ≤ b.1) && decide (b.1 < f.grant))
          tags := k.tags.filter fun g => decide (g.1 * 4096 < f.stop.ext) }
      else k
    { k with
      ctx := x, task := f.task.map fun t => { t with strict := strict }
      lcc := f.stop.cyc + (if f.stop.atEnd then 1 else 0), hdc := (if k.hnd && f.core = c then k.hdc else f.hdc), hst := (if x.ended then 6 else 4), hnd := false, stop := none, hold := none
      held := none, endStop := none, arrHeld := false, gridHeld := false }

end Sys2Proof.Machine
end

