-- ==== Sys2Proof/Machine/Flags.lean ====
section
/-! DEFINITION. ARF_STICKY as the control processor sees it (R60, R61, R121). -/

namespace Sys2Proof.Machine

/-- ARF_STICKY at the start of the cycle, zero-extended (R121). -/
def Ctx.stickyWord (x : Ctx) : W64 := x.sticky.setWidth 64

/-- A clear takes effect in its issue cycle, before that cycle's raises (R61, R121). -/
def Ctx.clearFlags (x : Ctx) (m : Byte) : Ctx := { x with sticky := x.sticky &&& ~~~m }

/-- The end of a cycle: the flags raised in it enter ARF_STICKY (R61). -/
def Ctx.landFlags (x : Ctx) : Ctx := { x with sticky := x.sticky ||| x.raised, raised := 0#8 }

end Sys2Proof.Machine
end

