-- ==== Sys2Proof/Machine/Operands.lean ====
section
/-! DEFINITION. Operand forms: sources (R80, R97), effective addresses in LM (R108-R114), code targets (R115),
stream patterns (R125, R126), region elements (R200, R203), causes of stops at issue. -/

namespace Sys2Proof.Machine

/-- A source operand: result-queue position or named register (R80, R97). -/
def Ctx.src (x : Ctx) (a : BitVec 5) : W64 :=
  if a.toNat < 16 then x.rq.getD a.toNat 0#64 else x.n.getD (a.toNat - 16) 0#64

/-- A command fault, or another for which R283 names no DETAIL, at the issue of the head of queue e. -/
def plainStop (s : State) (e : Nat) (cls : StopClass) : Stop := bareStop s e 1 cls (s.core.ctx.headAddr e)

/-- Low 64 bits of an integer. -/
def ofInt64 (x : Int) : W64 := BitVec.ofInt 64 x

/-- Effective address of a CP access (R108): exact; below zero it lies outside every space. -/
def lmEa (a : W64) (off : Int) : Int := (a.toNat : Int) + off

/-- The checks of R108, bounds first: the class of the stop, if any. -/
def lmCheck (grant : Nat) (ea : Int) (size : Nat) : Option StopClass :=
  if ea < 0 ∨ (grant : Int) ≤ ea then some .bounds
  else if ea.toNat % size ≠ 0 then some .alignment else none

/-- Checks of an LM operand of an engine word: bounds first, then alignment (R182, R108). -/
def lmRangeCheck (grant a len align : Nat) : Option StopClass :=
  if grant < a + len then some .bounds else if a % align ≠ 0 then some .alignment else none

/-- The IMEM position after a position: word 31 of a line is followed by word 1 of the next (R86). -/
def nextPos (p : Nat) : Nat := if p % 32 = 31 then p + 2 else p + 1

/-- A position as a count of words, headers skipped, and back (R86). -/
def posIndex (p : Nat) : Nat := p / 32 * 31 + (p % 32 - 1)
def indexPos (k : Nat) : Nat := k / 31 * 32 + k % 31 + 1

/-- A code target (R80, R115). -/
def targetPos (t : BitVec 14) : Nat := t.toNat

/-! Streams (R125, R126). -/

/-- Number of elements of a stream. -/
def Staging.elems (st : Staging) : Nat := st.counts.foldl (· * ·) 1

/-- Address of element n (R125): exact. -/
def Staging.elAddr (st : Staging) (n : Nat) : Int :=
  let c (k : Nat) : Nat := st.counts.getD k 1
  let i0 := n % c 0
  let i1 := n / c 0 % c 1
  let i2 := n / (c 0 * c 1) % c 2
  let i3 := n / (c 0 * c 1 * c 2)
  (st.addr.toNat : Int) + i0 * st.strides.getD 0 0 + i1 * st.strides.getD 1 0 + i2 * st.strides.getD 2 0
    + i3 * st.strides.getD 3 0

/-- Element bytes of a stream format (R126): packed formats move whole words. -/
def elBytes (f : BitVec 5) : Nat := if fmtWidth f < 8 then 4 else fmtWidth f / 8

/-- Elements per load beat (R126). -/
def elsPerBeat (f : BitVec 5) : Nat := 16 / elBytes f

/-- Elements per store beat: one per lane, or per lane pair for FP64 (R126). -/
def elsPerStoreBeat (f : BitVec 5) : Nat := if f = 0#5 then 2 else 4

/-- Number of beats of a load stream (R126). -/
def Staging.beats (st : Staging) : Nat := (st.elems + elsPerBeat st.fmt - 1) / elsPerBeat st.fmt

/-- Number of beats a store stream accepts: R126's B with the beats as its store column carries them. -/
def Staging.storeBeats (st : Staging) : Nat :=
  (st.elems + elsPerStoreBeat st.fmt - 1) / elsPerStoreBeat st.fmt

/-- The gang index a space names, for LM spaces: none for own LM (R80). -/
def spaceCore (sp : BitVec 3) (me : Nat) : Nat := if sp.toNat ≥ 4 then sp.toNat - 4 else me

/-! Regions (R79, R200, R203). -/

/-- Base and stride of a region in bytes. -/
def regBase (r : Region) : Nat := r.base.toNat * 16
def regStride (r : Region) : Int := r.stride.toInt * 16

/-- Bit address of element e of width w (R203). -/
def regBit (r : Region) (w e : Nat) : Int :=
  8 * (regBase r : Int) + (e * w / 1024 : Nat) * 8 * regStride r + (e * w % 1024 : Nat)

/-- Read w bits at a bit address of LM. -/
def Core.lmBits (c : Core) (sup : Bool) (b w : Nat) : W64 :=
  BitVec.ofNat 64 (leNat (c.lmReadN sup (b / 8) ((b % 8 + w + 7) / 8)) / 2 ^ (b % 8) % 2 ^ w)

/-- Write w bits at a bit address of LM, the other bits of its bytes kept (R203). -/
def Core.lmPutBits (c : Core) (sup : Bool) (b w v : Nat) : Core :=
  let n := (b % 8 + w + 7) / 8
  let old := leNat (c.lmReadN sup (b / 8) n)
  let new := old - old / 2 ^ (b % 8) % 2 ^ w * 2 ^ (b % 8) + v % 2 ^ w * 2 ^ (b % 8)
  c.landBytes sup (b / 8) (natLe n new)

end Sys2Proof.Machine
end

