-- ==== Sys2Proof/Machine/Control.lean ====
section
/-! DEFINITION. The control processor (R85, R97-R122): its words, and the landing of their effects. -/

namespace Sys2Proof.Machine

/-- A source operand of the current core (R97). -/
def State.src (s : State) (a : BitVec 5) : W64 := s.core.ctx.src a

/-- A CP effect of the current core starts (R99, R284). -/
def State.eff (s : State) (e : CpEff) : State := s.modCtx fun x => { x with effs := x.effs ++ [e] }

/-- The CP word at the head issues and its result drops lat cycles later (R97, R99). -/
def State.result (s : State) (i : BitVec 4) (lat : Nat) (v : W64) : State :=
  (s.issued 0 1 i).eff { kind := .drop, data := v, due := s.core.now + lat, issue := s.core.now }

/-- A truth value as a result (R104). -/
def truth (b : Bool) : W64 := if b then 1#64 else 0#64

/-- The high half of the signed product (R101). -/
def mulHigh (a b : W64) : W64 := BitVec.ofInt 64 (a.toInt * b.toInt / 2 ^ 64)

/-- A shift count (R101). -/
def shiftCount (b : W64) : Nat := b.toNat % 64

/-- `nop` (R85): nothing but the issue. -/
def execCpNop (e : BitVec 3) (i : BitVec 4) (s : State) : Out :=
  .next (s.issued e.toNat 1 i)

/-- `wait` (R84, R85): occupies its queue n cycles. -/
def execWait (e : BitVec 3) (i : BitVec 4) (n : BitVec 18) (s : State) : Out :=
  .next (s.issued e.toNat n.toNat i)

/-- `until` (R85): it issues at its effective stamp, which the issue order has tested (R93, R94). -/
def execUntilStamp (e : BitVec 3) (i : BitVec 4) (_t : Lit) (s : State) : Out :=
  .next (s.issued e.toNat 1 i)

/-- `cp.add` (R101): a + b. -/
def execCpAdd (i : BitVec 4) (a b : BitVec 5) (s : State) : Out :=
  .next (s.result i 1 (s.src a + s.src b))

/-- `cp.sub` (R101): a - b. -/
def execCpSub (i : BitVec 4) (a b : BitVec 5) (s : State) : Out :=
  .next (s.result i 1 (s.src a - s.src b))

/-- `cp.mul` (R101): low half of a b. -/
def execCpMul (i : BitVec 4) (a b : BitVec 5) (s : State) : Out :=
  .next (s.result i 3 (s.src a * s.src b))

/-- `cp.mulh` (R101): high half of the signed product. -/
def execCpMulh (i : BitVec 4) (a b : BitVec 5) (s : State) : Out :=
  .next (s.result i 3 (mulHigh (s.src a) (s.src b)))

/-- `cp.and` (R101): a and b. -/
def execCpAnd (i : BitVec 4) (a b : BitVec 5) (s : State) : Out :=
  .next (s.result i 1 (s.src a &&& s.src b))

/-- `cp.or` (R101): a or b. -/
def execCpOr (i : BitVec 4) (a b : BitVec 5) (s : State) : Out :=
  .next (s.result i 1 (s.src a ||| s.src b))

/-- `cp.xor` (R101): a xor b. -/
def execCpXor (i : BitVec 4) (a b : BitVec 5) (s : State) : Out :=
  .next (s.result i 1 (s.src a ^^^ s.src b))

/-- `cp.andn` (R101): a and not b. -/
def execCpAndn (i : BitVec 4) (a b : BitVec 5) (s : State) : Out :=
  .next (s.result i 1 (s.src a &&& ~~~(s.src b)))

/-- `cp.shl` (R101): left shift by b[5:0]. -/
def execCpShl (i : BitVec 4) (a b : BitVec 5) (s : State) : Out :=
  .next (s.result i 1 (s.src a <<< shiftCount (s.src b)))

/-- `cp.shr` (R101): right shift by b[5:0]. -/
def execCpShr (i : BitVec 4) (a b : BitVec 5) (s : State) : Out :=
  .next (s.result i 1 (s.src a >>> shiftCount (s.src b)))

/-- `cp.sar` (R101): arithmetic right shift by b[5:0]. -/
def execCpSar (i : BitVec 4) (a b : BitVec 5) (s : State) : Out :=
  .next (s.result i 1 ((s.src a).sshiftRight (shiftCount (s.src b))))

/-- `cp.min` (R101): signed minimum. -/
def execCpMin (i : BitVec 4) (a b : BitVec 5) (s : State) : Out :=
  .next (s.result i 1 (if (s.src a).slt (s.src b) then s.src a else s.src b))

/-- `cp.max` (R101): signed maximum. -/
def execCpMax (i : BitVec 4) (a b : BitVec 5) (s : State) : Out :=
  .next (s.result i 1 (if (s.src b).slt (s.src a) then s.src a else s.src b))

/-- `cp.addi` (R102). -/
def execCpAddi (i : BitVec 4) (a : BitVec 5) (m : BitVec 13) (s : State) : Out :=
  .next (s.result i 1 (s.src a + m.signExtend 64))

/-- `cp.andi` (R102). -/
def execCpAndi (i : BitVec 4) (a : BitVec 5) (m : BitVec 13) (s : State) : Out :=
  .next (s.result i 1 (s.src a &&& m.signExtend 64))

/-- `cp.ori` (R102). -/
def execCpOri (i : BitVec 4) (a : BitVec 5) (m : BitVec 13) (s : State) : Out :=
  .next (s.result i 1 (s.src a ||| m.signExtend 64))

/-- `cp.xori` (R102). -/
def execCpXori (i : BitVec 4) (a : BitVec 5) (m : BitVec 13) (s : State) : Out :=
  .next (s.result i 1 (s.src a ^^^ m.signExtend 64))

/-- `cp.shli` (R102). -/
def execCpShli (i : BitVec 4) (a : BitVec 5) (m : BitVec 6) (s : State) : Out :=
  .next (s.result i 1 (s.src a <<< m.toNat))

/-- `cp.shri` (R102). -/
def execCpShri (i : BitVec 4) (a : BitVec 5) (m : BitVec 6) (s : State) : Out :=
  .next (s.result i 1 (s.src a >>> m.toNat))

/-- `cp.sari` (R102). -/
def execCpSari (i : BitVec 4) (a : BitVec 5) (m : BitVec 6) (s : State) : Out :=
  .next (s.result i 1 ((s.src a).sshiftRight m.toNat))

/-- `cp.lim` (R103). -/
def execCpLim (i : BitVec 4) (m : BitVec 18) (s : State) : Out :=
  .next (s.result i 1 (m.signExtend 64))

/-- `cp.limx` (R103). -/
def execCpLimx (i : BitVec 4) (h : BitVec 6) (v : BitVec 58) (s : State) : Out :=
  .next (s.result i 1 (h ++ v))

/-- `cp.ceq` (R104). -/
def execCpCeq (i : BitVec 4) (a b : BitVec 5) (s : State) : Out :=
  .next (s.result i 1 (truth (s.src a == s.src b)))

/-- `cp.cne` (R104). -/
def execCpCne (i : BitVec 4) (a b : BitVec 5) (s : State) : Out :=
  .next (s.result i 1 (truth (s.src a != s.src b)))

/-- `cp.clt` (R104). -/
def execCpClt (i : BitVec 4) (a b : BitVec 5) (s : State) : Out :=
  .next (s.result i 1 (truth ((s.src a).slt (s.src b))))

/-- `cp.cle` (R104). -/
def execCpCle (i : BitVec 4) (a b : BitVec 5) (s : State) : Out :=
  .next (s.result i 1 (truth ((s.src a).sle (s.src b))))

/-- `cp.cltu` (R104). -/
def execCpCltu (i : BitVec 4) (a b : BitVec 5) (s : State) : Out :=
  .next (s.result i 1 (truth ((s.src a).ult (s.src b))))

/-- `cp.cleu` (R104). -/
def execCpCleu (i : BitVec 4) (a b : BitVec 5) (s : State) : Out :=
  .next (s.result i 1 (truth ((s.src a).ule (s.src b))))

/-- `cp.ceqi` (R104). -/
def execCpCeqi (i : BitVec 4) (a : BitVec 5) (m : BitVec 13) (s : State) : Out :=
  .next (s.result i 1 (truth (s.src a == m.signExtend 64)))

/-- `cp.clti` (R104). -/
def execCpClti (i : BitVec 4) (a : BitVec 5) (m : BitVec 13) (s : State) : Out :=
  .next (s.result i 1 (truth ((s.src a).slt (m.signExtend 64))))

/-- `cp.sel` (R105). -/
def execCpSel (i : BitVec 4) (a b c : BitVec 5) (s : State) : Out :=
  .next (s.result i 1 (if s.src a = 0#64 then s.src c else s.src b))

/-- `cp.put` (R98, R106). -/
def execCpPut (i : BitVec 4) (n : BitVec 4) (a : BitVec 5) (s : State) : Out :=
  .next ((s.issued 0 1 i).modCtx fun x => { x with n := x.n.set n.toNat (s.src a) })

/-- Whether a slot lies beyond the granted SPM (R107, R276). -/
def slotOut (s : State) (k : BitVec 9) : Bool := decide (s.core.spmGrant < 8 * k.toNat + 8)

/-- `cp.spill` (R107). -/
def trySpill (i : BitVec 4) (a : BitVec 5) (k : BitVec 9) (s : State) : Try :=
  if slotOut s k then .stop (issueStop s 0 .bounds (8 * k.toNat))
  else .ok ((s.issued 0 1 i).modCtx fun x => { x with spm := memWriteN x.spm (8 * k.toNat) (natLe 8 (s.src a).toNat) })

/-- `cp.fill` (R107). -/
def tryFill (i : BitVec 4) (k : BitVec 9) (s : State) : Try :=
  if slotOut s k then .stop (issueStop s 0 .bounds (8 * k.toNat))
  else .ok (s.result i 1 (BitVec.ofNat 64 (leNat (memReadN s.core.ctx.spm (8 * k.toNat) 8))))

/-- `cp.spill` (R107). -/
def execCpSpill (i : BitVec 4) (a : BitVec 5) (k : BitVec 9) (s : State) : Out :=
  finish s (trySpill i a k s)

/-- `cp.fill` (R107). -/
def execCpFill (i : BitVec 4) (k : BitVec 9) (s : State) : Out :=
  finish s (tryFill i k s)

/-- The stop of a CP access at ea, if R108 makes one. -/
def accessStop (s : State) (ea : Int) (size : Nat) : Option Stop :=
  (lmCheck s.core.lmGrant ea size).map fun k => issueStop s 0 k (ofInt64 ea).toNat

/-- The value of an LM access, little-endian (R109). -/
def loadVal (s : State) (ea : Int) (size : Nat) : Nat := leNat (s.core.lmReadN s.core.ctx.sup ea.toNat size)

/-- A plain load (R108, R109): it reads at issue and drops four cycles later. -/
def tryLoad (i : BitVec 4) (a : BitVec 5) (off : Int) (size : Nat) (ext : Nat → W64) (s : State) : Try :=
  let ea := lmEa (s.src a) off
  match accessStop s ea size with
  | some k => .stop k
  | none => .ok (s.result i 4 (ext (loadVal s ea size)))

/-- Zero and sign extension of a loaded value of w bits. -/
def zext (v : Nat) : W64 := BitVec.ofNat 64 v
def sext (w : Nat) (v : Nat) : W64 := (BitVec.ofNat w v).signExtend 64

/-- `cp.ld8` (R109). -/
def execCpLd8 (i : BitVec 4) (a : BitVec 5) (m : BitVec 13) (s : State) : Out :=
  finish s (tryLoad i a m.toInt 1 zext s)

/-- `cp.ld8s` (R109). -/
def execCpLd8s (i : BitVec 4) (a : BitVec 5) (m : BitVec 13) (s : State) : Out :=
  finish s (tryLoad i a m.toInt 1 (sext 8) s)

/-- `cp.ld16` (R109). -/
def execCpLd16 (i : BitVec 4) (a : BitVec 5) (m : BitVec 13) (s : State) : Out :=
  finish s (tryLoad i a m.toInt 2 zext s)

/-- `cp.ld16s` (R109). -/
def execCpLd16s (i : BitVec 4) (a : BitVec 5) (m : BitVec 13) (s : State) : Out :=
  finish s (tryLoad i a m.toInt 2 (sext 16) s)

/-- `cp.ld32` (R109). -/
def execCpLd32 (i : BitVec 4) (a : BitVec 5) (m : BitVec 13) (s : State) : Out :=
  finish s (tryLoad i a m.toInt 4 zext s)

/-- `cp.ld32s` (R109). -/
def execCpLd32s (i : BitVec 4) (a : BitVec 5) (m : BitVec 13) (s : State) : Out :=
  finish s (tryLoad i a m.toInt 4 (sext 32) s)

/-- `cp.ld64` (R109). -/
def execCpLd64 (i : BitVec 4) (a : BitVec 5) (m : BitVec 13) (s : State) : Out :=
  finish s (tryLoad i a m.toInt 8 zext s)

/-- `cp.ldt64` (R112, R234): the tag check comes after R108's checks. -/
def tryLdt64 (i : BitVec 4) (a b : BitVec 5) (m : BitVec 8) (s : State) : Try :=
  let ea := lmEa (s.src a) (m.toInt * 8)
  match accessStop s ea 8 with
  | some k => .stop k
  | none =>
    let c := s.core
    let g := ea.toNat / 4096
    let want : W16 := (s.src b).setWidth 16
    let got := c.tag c.ctx.sup g
    let detail := g * 65536 + want.toNat
    if got = 0xFFFF#16 then .stop (issueStop s 0 .memoryError detail)
    else if got ≠ want then
      if (c.task.map Task.strict).getD false then .stop (issueStop s 0 .schedule detail)
      else .hold (.tag s.cur.val c.ctx.sup g want 0 1) s
    else .ok (s.result i 4 (zext (loadVal s ea 8)))

/-- `cp.ldt64` (R112). -/
def execCpLdt64 (i : BitVec 4) (a b : BitVec 5) (m : BitVec 8) (s : State) : Out :=
  finish s (tryLdt64 i a b m s)

/-- A store (R108, R110): it lands two cycles later. -/
def tryStore (i : BitVec 4) (a b : BitVec 5) (off : Int) (size : Nat) (s : State) : Try :=
  let ea := lmEa (s.src a) (off * size)
  match accessStop s ea size with
  | some k => .stop k
  | none => .ok ((s.issued 0 1 i).eff
      { kind := .store, data := s.src b, addr := ea.toNat, size := size, due := s.core.now + 2, issue := s.core.now })

/-- `cp.st8` (R110). -/
def execCpSt8 (i : BitVec 4) (a b : BitVec 5) (m : BitVec 8) (s : State) : Out :=
  finish s (tryStore i a b m.toInt 1 s)

/-- `cp.st16` (R110). -/
def execCpSt16 (i : BitVec 4) (a b : BitVec 5) (m : BitVec 8) (s : State) : Out :=
  finish s (tryStore i a b m.toInt 2 s)

/-- `cp.st32` (R110). -/
def execCpSt32 (i : BitVec 4) (a b : BitVec 5) (m : BitVec 8) (s : State) : Out :=
  finish s (tryStore i a b m.toInt 4 s)

/-- `cp.st64` (R110). -/
def execCpSt64 (i : BitVec 4) (a b : BitVec 5) (m : BitVec 8) (s : State) : Out :=
  finish s (tryStore i a b m.toInt 8 s)

/-- The bounds of a granule named by an address (R113). -/
def granuleStop (s : State) (a : W64) : Option Stop :=
  if s.core.lmGrant ≤ a.toNat / 4096 * 4096 then some (issueStop s 0 .bounds a.toNat) else none

/-- `cp.tagw` (R113). -/
def tryTagw (i : BitVec 4) (a b : BitVec 5) (s : State) : Try :=
  match granuleStop s (s.src a) with
  | some k => .stop k
  | none => .ok ((s.issued 0 1 i).eff
      { kind := .tagw, data := s.src b &&& 0xFFFF#64, addr := (s.src a).toNat, due := s.core.now + 2,
        issue := s.core.now })

/-- `cp.tagr` (R113). -/
def tryTagr (i : BitVec 4) (a : BitVec 5) (s : State) : Try :=
  match granuleStop s (s.src a) with
  | some k => .stop k
  | none => .ok (s.result i 4 ((s.core.tag s.core.ctx.sup ((s.src a).toNat / 4096)).setWidth 64))

/-- The checks of a neighbour access (R114): the gang index, then R108's. -/
def neighbourStop (s : State) (a : W64) (q : BitVec 2) : Option Stop :=
  if s.core.gsize ≤ q.toNat then some (issueStop s 0 .bounds a.toNat) else accessStop s (lmEa a 0) 8

/-- `cp.nld64` (R114): the neighbour is read at issue + 6, the value drops at issue + 12. -/
def tryNld64 (i : BitVec 4) (a : BitVec 5) (q : BitVec 2) (s : State) : Try :=
  match neighbourStop s (s.src a) q with
  | some k => .stop k
  | none => .ok ((s.issued 0 1 i).eff
      { kind := .nload, data := 0#64, addr := (s.src a).toNat, q := q.toNat, due := s.core.now + 12,
        issue := s.core.now })

/-- `cp.nst64` (R114): it lands at issue + 6. -/
def tryNst64 (i : BitVec 4) (a b : BitVec 5) (q : BitVec 2) (s : State) : Try :=
  match neighbourStop s (s.src a) q with
  | some k => .stop k
  | none => .ok ((s.issued 0 1 i).eff
      { kind := .nstore, data := s.src b, addr := (s.src a).toNat, q := q.toNat, due := s.core.now + 6,
        issue := s.core.now })

/-- `cp.tagw` (R113). -/
def execCpTagw (i : BitVec 4) (a b : BitVec 5) (s : State) : Out :=
  finish s (tryTagw i a b s)

/-- `cp.tagr` (R113). -/
def execCpTagr (i : BitVec 4) (a : BitVec 5) (s : State) : Out :=
  finish s (tryTagr i a s)

/-- `cp.nld64` (R114). -/
def execCpNld64 (i : BitVec 4) (a : BitVec 5) (q : BitVec 2) (s : State) : Out :=
  finish s (tryNld64 i a q s)

/-- `cp.nst64` (R114). -/
def execCpNst64 (i : BitVec 4) (a b : BitVec 5) (q : BitVec 2) (s : State) : Out :=
  finish s (tryNst64 i a b q s)

/-! Control words (R88, R89, R115-R120). -/

/-- The position of the word at the head of the CP queue. -/
def State.cpPos (s : State) : Nat := s.core.ctx.headAddr 0 / 4

/-- The splitter resumes two cycles after the issue, at position p (R89); land: the landing rules of R87 apply. -/
def Ctx.redirect (x : Ctx) (now p : Nat) (land : Bool) : Ctx :=
  { x with spl := { x.spl with next := p, halted := true, resumeAt := some (now + 2), landing := land, line := none } }

/-- Levels that a taken branch to position p leaves (R120). -/
def leaveLoops (p : Nat) (l : List LoopLevel) : List LoopLevel :=
  l.dropWhile fun v => !(decide (v.first ≤ p) && decide (p ≤ v.last))

/-- The word issues and the splitter is sent to p. -/
def State.transfer (s : State) (i : BitVec 4) (p : Nat) (land : Bool) (f : Ctx → Ctx) : State :=
  (s.issued 0 1 i).modCtx fun x => f (x.redirect s.core.now p land)

/-- A taken branch (R116, R120). -/
def State.branch (s : State) (i : BitVec 4) (p : Nat) : State :=
  s.transfer i p true fun x => { x with loops := leaveLoops p x.loops }

/-- A conditional branch (R116). -/
def State.branchIf (s : State) (i : BitVec 4) (t : BitVec 14) (b : Bool) : State :=
  if b then s.branch i (targetPos t) else s.transfer i (nextPos s.cpPos) false id

/-- A computed target (R116). -/
def computedTarget (v : W64) : Option Nat := if v.toNat < 16384 then some v.toNat else none

/-- A control-flow fault at issue (R122). -/
def flowStop (s : State) : Stop := plainStop s 0 .controlFlow

/-- `cp.brx` (R116). -/
def tryBrx (i : BitVec 4) (a : BitVec 5) (s : State) : Try :=
  match computedTarget (s.src a) with
  | some p => .ok (s.branch i p)
  | none => .stop (flowStop s)

/-- A call to p (R117): the return point is the word after the call. -/
def tryCall (i : BitVec 4) (p : Nat) (s : State) : Try :=
  if 8 ≤ s.core.ctx.ret.length then .stop (flowStop s)
  else .ok (s.transfer i p true fun x => { x with ret := nextPos s.cpPos :: x.ret })

/-- `cp.callx` (R117). -/
def tryCallx (i : BitVec 4) (a : BitVec 5) (s : State) : Try :=
  match computedTarget (s.src a) with
  | some p => tryCall i p s
  | none => .stop (flowStop s)

/-- `cp.ret` (R117). -/
def tryRet (i : BitVec 4) (s : State) : Try :=
  match s.core.ctx.ret with
  | [] => .stop (flowStop s)
  | p :: r => .ok (s.transfer i p true fun x => { x with ret := r })

/-- `cp.loop` (R118). -/
def tryLoop (i : BitVec 4) (a : BitVec 5) (d : BitVec 13) (p : Lit) (s : State) : Try :=
  let n := (s.src a).toNat % 2 ^ 32
  let k := posIndex (nextPos (nextPos s.cpPos))
  let first := indexPos k
  if 4 ≤ s.core.ctx.loops.length then .stop (flowStop s)
  else if n = 0 then .ok (s.transfer i (indexPos (k + d.toNat)) true id)
  else .ok (s.transfer i first false fun x =>
    { x with loops := ⟨first, indexPos (k + d.toNat - 1), n, 0, p.toNat⟩ :: x.loops })

/-- `cp.br` (R116). -/
def execCpBr (i : BitVec 4) (t : BitVec 14) (s : State) : Out :=
  .next (s.branch i (targetPos t))

/-- `cp.bz` (R116). -/
def execCpBz (i : BitVec 4) (k : BitVec 4) (t : BitVec 14) (s : State) : Out :=
  .next (s.branchIf i t (s.core.ctx.rq.getD k.toNat 0#64 == 0#64))

/-- `cp.bnz` (R116). -/
def execCpBnz (i : BitVec 4) (k : BitVec 4) (t : BitVec 14) (s : State) : Out :=
  .next (s.branchIf i t (s.core.ctx.rq.getD k.toNat 0#64 != 0#64))

/-- `cp.brx` (R116). -/
def execCpBrx (i : BitVec 4) (a : BitVec 5) (s : State) : Out :=
  finish s (tryBrx i a s)

/-- `cp.call` (R117). -/
def execCpCall (i : BitVec 4) (t : BitVec 14) (s : State) : Out :=
  finish s (tryCall i (targetPos t) s)

/-- `cp.callx` (R117). -/
def execCpCallx (i : BitVec 4) (a : BitVec 5) (s : State) : Out :=
  finish s (tryCallx i a s)

/-- `cp.ret` (R117). -/
def execCpRet (i : BitVec 4) (s : State) : Out :=
  finish s (tryRet i s)

/-- `cp.loop` (R118). -/
def execCpLoop (i : BitVec 4) (a : BitVec 5) (d : BitVec 13) (p : Lit) (s : State) : Out :=
  finish s (tryLoop i a d p s)

/-! Time and flag reads (R121). -/

/-- `cp.rdlcc` (R121). -/
def execCpRdlcc (i : BitVec 4) (s : State) : Out :=
  .next (s.result i 1 (BitVec.ofNat 64 s.core.now))

/-- `cp.rdwtc` (R121, R22). -/
def execCpRdwtc (i : BitVec 4) (s : State) : Out :=
  .next (s.result i 1 (BitVec.ofNat 64 s.wtc))

/-- `cp.rdhdc` (R121). -/
def execCpRdhdc (i : BitVec 4) (s : State) : Out :=
  .next (s.result i 1 s.core.hdc)

/-- `cp.rdflag` (R121). -/
def execCpRdflag (i : BitVec 4) (s : State) : Out :=
  .next (s.result i 1 s.core.ctx.stickyWord)

/-- `cp.clrflag` (R121, R61). -/
def execCpClrflag (i : BitVec 4) (m : BitVec 8) (s : State) : Out :=
  .next ((s.issued 0 1 i).modCtx fun x => x.clearFlags m)

/-! Effects of CP words (R97, R99, R110-R114). -/

/-- Whether an effect drops into the result queue. -/
def CpEff.drops (e : CpEff) : Bool := e.kind == .drop || e.kind == .nread

/-- The results due at the start of the cycle drop, the latest issued on top (R97). -/
def Ctx.dropDue (x : Ctx) (now : Nat) : Ctx :=
  let due := x.effs.filter fun e => e.drops && e.due == now
  { x with
    rq := due.foldl (fun q e => (e.data :: q).take 16) x.rq
    dropped := due.map CpEff.issue
    effs := x.effs.filter fun e => !(e.drops && e.due == now) }

/-- CP_RESULT_DROP (R97). -/
def execCpResultDrop (s : State) : Out := .next (s.modCtx fun x => x.dropDue s.core.now)

/-- One CP store or tag write lands (R110, R113, R114). -/
def landEff (s : State) (me : Nat) (sup : Bool) (e : CpEff) : State :=
  match e.kind with
  | .store => s.modAt me fun c => c.landBytes sup e.addr (natLe e.size e.data.toNat)
  | .tagw => s.modAt me fun c => c.landTag sup (e.addr / 4096) (e.data.setWidth 16)
  | .nstore => s.modAt ((s.at me).gbase + e.q) fun c => c.landBytes sup e.addr (natLe 8 e.data.toNat)
  | .drop | .nload | .nread => s

/-- Whether an effect lands in LM or on a tag at the end of a cycle. -/
def CpEff.lands (e : CpEff) : Bool := e.kind == .store || e.kind == .tagw || e.kind == .nstore

/-- CP_STORE_LAND (R99, R110, R111): what is due lands in the order of issue. -/
def execCpStoreLand (s : State) : Out :=
  let x := s.core.ctx
  let due := x.effs.filter fun e => e.lands && e.due == s.core.now
  let s := s.modCtx fun x => { x with effs := x.effs.filter fun e => !(e.lands && e.due == s.core.now) }
  .next (due.foldl (fun s e => landEff s s.cur.val x.sup e) s)

/-- NEIGHBOUR_LOAD_READ (R114): loads whose read cycle this is take their value. -/
def execNeighbourLoadRead (s : State) : Out :=
  let now := s.core.now
  .next (s.modCtx fun x => { x with effs := x.effs.map fun e =>
    if e.kind == .nload && e.due == now + 6 then
      { e with kind := .nread, data := BitVec.ofNat 64 (leNat ((s.at (s.core.gbase + e.q)).lmReadN x.sup e.addr 8)) }
    else e })

end Sys2Proof.Machine
end

