-- ==== Sys2Proof/Machine/Move.lean ====
section
/-! DEFINITION. Bytes on their way to and from their homes: stores and written lines (R236), copies (R135, R233, R235, R275,
R337), and the order of one core's accesses to DEV pages (R228). -/

namespace Sys2Proof.Machine

/-- Bytes of a core's store or written line go to their home; a gated target discards them (R337; log entry 60). -/
def State.sendHome (s : State) (part : Nat) (ctx : W16) (pa : Nat) (cells : Mem) : State :=
  if s.noAnswer part pa then s.nackAt pa else s.homeWrite part ctx (cells.map fun (a, b) => (a, b, false))

/-! Gated quads and what they have accepted (R341). -/

/-- Whether quad q refuses the requests of what it has accepted before its drain, as `acc` lists, too. -/
def State.shuts (s : State) (acc : List Nat) (q : Nat) : Bool :=
  (s.quad q).gated && !(acc.contains q && (s.quad q).ps == .drain && !(s.quad q).tripped)

/-- The gated quad that refuses a request for a byte. -/
def State.gatedFor (s : State) (acc : List Nat) (pa : Nat) : Option Nat := (s.gatedAt pa).filter (s.shuts acc)

/-- Whether a request for a byte comes back as from a gated target. -/
def State.noAnswerFor (s : State) (acc : List Nat) (p pa : Nat) : Bool :=
  (s.gatedFor acc pa).isSome || ((s.gatedAt pa).isNone && s.noAnswer p pa)

/-- Whether a physical address leads to a core of quad q. -/
def State.leadsTo (s : State) (q pa : Nat) : Bool :=
  match s.target pa with
  | .lm c _ | .ctr c _ => quadOf c == q
  | _ => false

/-- Whether an end of a copy of core me lies at a core of quad q. -/
def CopyEnd.atQuad (s : State) (me q : Nat) : CopyEnd → Bool
  | .lm c _ _ => quadOf c == q
  | .imem _ | .gcs _ => quadOf me == q
  | .phys l => l.any fun (_, pa, _) => s.leadsTo q pa

/-- Quad q has accepted a copy that has an end at it. -/
def Copy.accept (s : State) (q : Nat) (x : Copy) : Copy :=
  if x.src.atQuad s x.core q || x.dst.atQuad s x.core q then { x with acc := q :: x.acc } else x

/-- As quad q begins to drain, what is on its way to it outside logical time has been accepted: it reaches its ports as it is
issued (R341, R353; DESIGN CHOICE, log entry 3). -/
def State.acceptAll (s : State) (q : Nat) : State :=
  { s with
    hbm := s.hbm.map (Copy.accept s q)
    outLands := s.outLands.map fun o => { o with copy := o.copy.accept s q }
    atoms := s.atoms.map fun x => if s.leadsTo q x.pa || quadOf x.core == q then { x with acc := q :: x.acc } else x }

/-- Whether quad q has accepted a request that is not complete (R341). -/
def State.awaits (s : State) (q : Nat) : Bool :=
  ((s.hbm ++ s.outLands.map OutLand.copy).any fun x => x.acc.contains q) || s.atoms.any fun x => x.acc.contains q

/-! Bytes of copies. -/

/-- The physical address of byte o of pieces. -/
def pieceAt (l : List (Nat × Nat × Nat)) (o : Nat) : Nat :=
  ((l.find? fun (a, _, n) => decide (a ≤ o) && decide (o < a + n)).map fun (a, pa, _) => pa + (o - a)).getD 0

/-- Byte o of a copy's source, and whether it is poisoned (R233, R275, R337). -/
def State.copyByte (s : State) (x : Copy) (o : Nat) : Byte × Bool :=
  match x.src with
  | .lm c a u => ((s.at c).lmRead u (a + o), false)
  | .imem a => (memRead (s.at x.core).imem (a + o), false)
  | .gcs a => (memRead (s.at x.core).gcs (a + o), false)
  | .phys l =>
    let pa := pieceAt l o
    if s.noAnswerFor x.acc x.part pa || s.poisoned pa then (0xFF#8, true) else (s.homeByte pa, false)

/-- Bytes lo ... lo + n - 1 of a copy's source; its lines are filled at their homes, gated quads count (R230, R337, R351). -/
def State.copyRead (s : State) (x : Copy) (lo n : Nat) : List (Byte × Bool) × State :=
  let b := (List.range n).map fun i => s.copyByte x (lo + i)
  match x.src with
  | .phys l =>
    let pas := (List.range n).map fun i => pieceAt l (lo + i)
    let lines := pas.foldl (fun r pa => insNat (pa / 128) r) []
    let qs := (pas.filterMap fun pa => s.gatedFor x.acc pa).foldl (fun r q => insNat q r) []
    (b, qs.foldl State.nack (lines.foldl (fun s ln => s.homeTouch x.part x.ctx (128 * ln)) s))
  | _ => (b, s)

/-- Which bytes of a copy land: those in the LM of the cores that `lm` selects, the others if `rest`; and with which rank
of R235: 5, or 6 at a time (below what ranks 1 to 5 wrote at the end of a cycle that ends then). -/
structure Landing where
  lm : Nat → Bool
  rest : Bool
  six : Option Nat

/-- Bytes of a copy land in the LM of core k (R235). -/
def Core.copyBytes (k : Core) (six : Option Nat) (sup : Bool) (a : Nat) (b : List Byte) : Core :=
  match six with
  | none => k.landBytes sup a b
  | some t => k.lmWriteCells sup ((b.mapIdx fun i x => (a + i, x)).filter fun c => inSlm sup c.1 || !k.keepsByte t c.1)

/-- A byte of a global destination that reaches an LM: whether it keeps its place under R235. -/
def Landing.keeps (w : Landing) (k : Core) (off : Nat) : Bool :=
  match w.six with
  | none => true
  | some t => !k.keepsByte t off

/-- LM bytes that a global landing of rank 5 has written are marked (R235). -/
def State.noteCells (s : State) (cells : List Nat) : State :=
  cells.foldl (fun s pa => match s.target pa with
    | .lm c off => s.modAt c fun k => k.noteBytes false off 1
    | _ => s) s

/-- Bytes land at a copy's destination from offset lo on. Landings at a fenced core, in a partition under reset or
at a gated quad are discarded (R300, R337, R346). -/
def State.copyWrite (s : State) (w : Landing) (x : Copy) (lo : Nat) (b : List (Byte × Bool)) : State :=
  let own (f : Core → Core) : State := if !w.rest || s.discards x.core then s else s.modAt x.core f
  match x.dst with
  | .lm c a u =>
    if !w.lm c || s.discards c then s else s.modAt c fun k => k.copyBytes w.six u (a + lo) (b.map Prod.fst)
  | .imem a => own fun k =>
      if 0x10000 ≤ a then { k with simem := memWriteN k.simem (a - 0x10000 + lo) (b.map Prod.fst) }
      else { k with imem := memWriteN k.imem (a + lo) (b.map Prod.fst) }
  | .gcs a => own fun k => { k with gcs := memWriteN k.gcs (a + lo) (b.map Prod.fst) }
  | .phys l =>
    let cells := (b.mapIdx fun i (v, p) => (pieceAt l (lo + i), v, p)).filter fun (pa, _, _) => match s.target pa with
      | .lm c _ => w.lm c
      | _ => w.rest
    let gated := cells.filterMap fun (pa, _, _) => s.gatedFor x.acc pa
    let cells := cells.filter fun (pa, _, _) => !s.noAnswerFor x.acc x.part pa && (match s.target pa with
      | .lm c off => !s.discards c && w.keeps (s.at c) off
      | _ => true)
    let s := (gated.foldl (fun r q => insNat q r) []).foldl State.nack s
    -- line by line: pieces of one chunk may have different homes and owners
    let groups := (cells.map fun (pa, _, _) => pa / 128).foldl (fun r g => insNat g r) []
    let s := groups.foldl (fun s g => s.homeWrite x.part x.ctx (cells.filter fun (pa, _, _) => pa / 128 == g)) s
    if w.six.isNone then s.noteCells (cells.map Prod.fst) else s

/-- The LM granule in which byte o of a copy lands: core, granule. -/
def State.granOf (s : State) (x : Copy) (o : Nat) : Option (Nat × Nat) :=
  match x.dst with
  | .lm c a _ => some (c, (a + o) / 4096)
  | .phys l => match s.target (pieceAt l o) with
    | .lm c off => some (c, off / 4096)
    | _ => none
  | .imem _ | .gcs _ => none

/-- Whether a granule receives no byte of a copy from offset o on. -/
def State.lastInto (s : State) (x : Copy) (g : Nat × Nat) : Nat → Nat → Bool
  | 0, _ => true
  | f + 1, o => if s.granOf x o = some g then false else s.lastInto x g f (o + 1)

/-- Granules whose last byte lies among bytes lo ... lo + n - 1 of a copy (R137). -/
def State.tagsDue (s : State) (x : Copy) (lo n : Nat) : List (Nat × Nat) :=
  let gs := (List.range n).filterMap fun i => s.granOf x (lo + i)
  let gs := gs.foldl (fun l g => if l.contains g then l else l ++ [g]) []
  -- a contiguous destination leaves a granule for good at the next page boundary
  gs.filter fun g => s.lastInto x g (x.len - (lo + n)) (lo + n)

/-- A copy sets the tag of granule g of core c (R137, R235): not where the landing is discarded. -/
def State.copyTag (s : State) (w : Landing) (x : Copy) (supv : Bool) (c g : Nat) (t : W16) : State :=
  if s.discards c || s.shuts x.acc (quadOf c) && c != x.core then s
  else s.modAt c fun k => match w.six with
    | none => k.landTag supv g t
    | some u => if !(supv && decide (508 ≤ g)) && k.keepsTag u g then k else k.setTag supv g t

/-- Bytes lo on of a copy land, with their tags (R137, R233): a granule with a poisoned byte takes the error tag. -/
def State.copyLand (s : State) (w : Landing) (x : Copy) (lo : Nat) (b : List (Byte × Bool)) : State × List (Nat × Nat) :=
  let bad := (b.mapIdx fun i v => if v.2 then s.granOf x (lo + i) else none).filterMap id
  let err := bad.foldl (fun l g => if l.contains g then l else l ++ [g]) x.err
  let supv := match x.dst with
    | .lm _ _ u => u
    | _ => false
  let due := (s.tagsDue x lo b.length).filter fun g => w.lm g.1
  let s' := due.foldl (fun s (c, g) =>
    if err.contains (c, g) then s.copyTag w x supv c g 0xFFFF#16
    else match x.wtag with
      | some t => s.copyTag w x supv c g t
      | none => s) (s.copyWrite w x lo b)
  let s' := match x.dst, x.wtag with
    | .imem _, some t | .gcs _, some t =>
      if w.rest && decide (x.len ≤ lo + b.length) then s'.copyTag w x x.supv x.core x.og t else s'
    | _, _ => s'
  (s', err)

/-! The order of one core's accesses to DEV pages (R228; DEDUCED, log entry 69). -/

/-- Whether a copy of core c to or from a DEV page is on its way outside logical time. -/
def State.devPending (s : State) (c : Nat) : Bool := s.hbm.any fun x => x.core == c && x.dev

/-- Whether the k-th copy outside logical time waits for an earlier one of its core, for both have DEV pages. -/
def State.devWaits (s : State) (k : Nat) (x : Copy) : Bool := x.dev && (s.hbm.take k).any fun y => y.core == x.core && y.dev

/-- Store elements of core c to DEV pages reach their homes, but for those issued after a copy that is still on its way. -/
def State.devStores (s : State) (c : Nat) : State :=
  let first := (s.hbm.find? fun x => x.core == c && x.dev).map Copy.id
  let goes (d : DevStore) : Bool := d.core == c && (match first with
    | some id => decide (d.id < id)
    | none => true)
  (s.devs.filter goes).foldl (fun s d => s.sendHome d.part d.ctx d.pa (d.bytes.mapIdx fun i b => (d.pa + i, b)))
    { s with devs := s.devs.filter fun d => !goes d }

/-- The k-th copy outside logical time moves its bytes (R235 rank 6, R274). -/
def State.landHbm (s : State) (k : Nat) (x : Copy) : State :=
  let s := { s with hbm := s.hbm.eraseIdx k }
  let (b, s) := s.copyRead x 0 x.len
  (s.copyLand ⟨fun _ => true, true, some s.time⟩ x 0 b).1.devStores x.core

/-- The homes as a request of core c to a DEV page finds them: after the core's earlier copies and stores to such pages. -/
def State.devView (s : State) (c : Nat) : Nat → State
  | 0 => s
  | n + 1 =>
    match (List.range s.hbm.length).findSome? fun k => (s.hbm[k]?.filter fun x => x.core == c && x.dev).map fun x => (k, x) with
    | some (k, x) => (s.landHbm k x).devView c n
    | none => s

end Sys2Proof.Machine
end

