-- ==== Sys2Proof/Machine/Cache.lean ====
section
/-! DEFINITION. Private copies (R223-R228, R233, R236, R237, R243, R244): the L1D and the vault cache of a core, line
requests, stores, write-backs, update-only lines and their merges. Lines are physical addresses / 128. -/

namespace Sys2Proof.Machine

/-- The order in which priority classes are displaced (R226): evict-first, normal, keep. -/
def classRank (h : BitVec 2) : Nat := if h = 1#2 then 0 else if h = 0#2 then 1 else 2

/-- The no-allocate hint (R133). -/
def noAlloc (h : BitVec 2) : Bool := h == 3#2

/-- Sets, ways and reserved ways of a cache. -/
structure Shape where
  sets : Nat
  ways : Nat
  rways : Nat
  deriving DecidableEq, Repr

/-- The L1D (R223). -/
def l1Shape : Shape := ⟨64, 8, 0⟩

/-- The vault cache of a core (R223, R225). -/
def Core.vcShape (c : Core) : Shape := ⟨4096, 4 * bitsOf c.vltCtl.toNat 0 3, bitsOf c.vltCtl.toNat 3 5⟩

/-- The line in a way of the set of a line. -/
def atWay (l : List Line) (sh : Shape) (line w : Nat) : Option Line :=
  l.find? fun x => x.pa % sh.sets == line % sh.sets && x.way == w

/-- The line displaced first among candidates (R226): least recent of the first class. -/
def lruOf (l : List Line) : Option Line :=
  l.foldl (fun b x => match b with
    | none => some x
    | some y =>
      if classRank x.cls < classRank y.cls ∨ (classRank x.cls = classRank y.cls ∧ x.used < y.used) then some x else b) none

/-- A free way, or the way of the line displaced, among ways lo ... hi - 1 (R226). -/
def pickWay (l : List Line) (sh : Shape) (line lo hi : Nat) (only : Line → Bool) : Option Nat :=
  let ws := (List.range hi).drop lo
  match ws.find? fun w => (atWay l sh line w).isNone with
  | some w => some w
  | none => (lruOf ((ws.filterMap fun w => atWay l sh line w).filter only)).map Line.way

/-- The way a line is allocated in (R226), and whether it is a reserved way taken as pinned. -/
def chooseWay (l : List Line) (sh : Shape) (line : Nat) (pin : Bool) : Option (Nat × Bool) :=
  match if pin then pickWay l sh line 0 sh.rways fun x => x.pin.isNone else none with
  | some w => some (w, true)
  | none => (pickWay l sh line sh.rways sh.ways fun _ => true).map fun w => (w, false)

/-- What one lookup comes to. -/
structure Access where
  hit : Option Line
  phit : Bool
  ovfl : Bool
  out : Option Line
  lines : List Line

/-- A line without data. -/
def blankLine (line way : Nat) (cls : BitVec 2) (pin : Option Nat) (used part : Nat) (ctx : W16) : Line :=
  ⟨line, way, List.replicate 128 0#8, List.replicate 32 false, List.replicate 128 false, cls, pin, used, part, ctx⟩

/-- One lookup of a line (R226, R273): a hit refreshes it, a miss allocates it unless the hint or the ways forbid. -/
def cacheAccess (l : List Line) (sh : Shape) (line : Nat) (hint : BitVec 2) (pin : Option Nat) (clock part : Nat)
    (ctx : W16) : Access :=
  match l.find? fun x => x.pa == line with
  | some x =>
    let y := { x with used := clock, cls := if noAlloc hint then x.cls else hint }
    ⟨some y, x.pin.isSome && decide (x.way < sh.rways), false, none, l.map fun z => if z.pa == line then y else z⟩
  | none =>
    if noAlloc hint then ⟨none, false, false, none, l⟩
    else match chooseWay l sh line pin.isSome with
      | none => ⟨none, false, false, none, l⟩
      | some (w, res) =>
        let old := atWay l sh line w
        let new := blankLine line w hint (if res then pin else none) clock part ctx
        ⟨none, false, pin.isSome && !res, old, new :: l.filter fun x => !(x.pa % sh.sets == line % sh.sets && x.way == w)⟩

/-- Write single bytes of a line, by offset; whole words lose their poison (R233). -/
def Line.patch (x : Line) (cells : Mem) (mark : Bool) : Line :=
  let hit (i : Nat) : Bool := cells.any fun c => c.1 == i
  { x with
    bytes := x.bytes.mapIdx fun i b => (cells.foldl (fun v c => if c.1 = i then c.2 else v) b)
    dirty := if mark then x.dirty.mapIdx fun i d => d || hit i else x.dirty
    poison := x.poison.mapIdx fun w p => p && !((List.range 4).all fun i => hit (4 * w + i)) }

/-- The bytes and poison marks of a line at its home, for core c: the request fills it there (R230, R351). A gated target
gives poisoned words, as R337 says of a copy (DEDUCED, log entry 60). -/
def State.homeLine (s : State) (c line : Nat) : (List Byte × List Bool) × State :=
  if s.noAnswer (s.partOf c) (128 * line) then ((List.replicate 128 0xFF#8, List.replicate 32 true), s.nackAt (128 * line))
  else ((s.homeBytes (128 * line) 128, (List.range 32).map fun w => s.poisoned (128 * line + 4 * w)),
    s.homeTouch (s.partOf c) (s.walkerOf c).ctx (128 * line))

/-- The core's own vault-cache copy follows its writes to the home (R236). -/
def State.followVc (s : State) (c line : Nat) (cells : Mem) : State :=
  s.modAt c fun k => { k with vc := k.vc.map fun x => if x.pa == line then x.patch cells false else x }

/-- The written bytes of a line of core c's L1D go to their home (R226, R237). -/
def State.cleanLine (s : State) (c : Nat) (x : Line) : State :=
  let cells := (List.range 128).filterMap fun i => if x.dirty.getD i false then some (i, x.bytes.getD i 0#8) else none
  if cells.isEmpty then s
  else
    let s := s.sendHome x.part x.ctx (128 * x.pa) (cells.map fun (o, b) => (128 * x.pa + o, b))
    let s := s.followVc c x.pa cells
    s.modAt c fun k => { k with
      l1d := k.l1d.map fun y => if y.pa == x.pa then { y with dirty := List.replicate 128 false } else y }

/-! Atomic combination (R71, R243, R259). -/

/-- The integer combinations 0-5 of R259. -/
def atomInt (op : BitVec 4) (f : BitVec 5) (a b : W64) : W64 :=
  let m : W64 := BitVec.ofNat 64 (2 ^ fmtWidth f - 1)
  let less : Bool := Val.cmp (toVal f a).1 (toVal f b).1 < 0
  (match op.toNat with
    | 0 => a + b
    | 1 => if less then a else b
    | 2 => if less then b else a
    | 3 => a &&& b
    | 4 => a ||| b
    | _ => a ^^^ b) &&& m

/-- Element bytes of an atomic's format (R259, R50). -/
def atomBytes (f : BitVec 5) : Nat := fmtWidth f / 8

/-- Whether the accumulator of a format is XD (R244). -/
def wideAcc (f : BitVec 5) : Bool := f == 0#5

/-- The value of an element at its home. -/
def State.homeEl (s : State) (pa n : Nat) : W64 := BitVec.ofNat 64 (leNat (s.homeBytes pa n))

/-- Whether an element holds a poisoned word. -/
def State.poisonedEl (s : State) (pa n : Nat) : Bool := s.poisoned pa || s.poisoned (pa + n - 1)

/-- A combined update takes effect at the home in one step (R243, R244); a poisoned word discards it (R233), and so does a
gated target, with a reply that is counted (R337, log entry 60). -/
def State.applyUpdate (s : State) (part : Nat) (ctx : W16) (u : Update) : State :=
  let n := atomBytes u.fmt
  if s.noAnswer part u.pa then s.nackAt u.pa
  else if s.poisonedEl u.pa n then s
  else if u.op = 6#4 then
    let wide := wideAcc u.fmt
    let pa := s.normPa u.pa
    let a := match s.accs.find? fun e => e.pa == pa && e.fmt == u.fmt with
      | some e => e.acc
      | none => XAcc.empty.add wide (toVal u.fmt (s.homeEl u.pa n)).1
    let a := a.merge wide u.acc
    let s := s.homeWriteN part ctx u.pa (natLe n (a.out wide u.fmt 0#2).1.toNat)
    { s with accs := ⟨pa, u.fmt, a⟩ :: s.accs }
  else s.homeWriteN part ctx u.pa (natLe n (atomInt u.op u.fmt (s.homeEl u.pa n) u.val).toNat)

/-- Owner of the update-only line of an update of core c (R351). -/
def State.updOwner (s : State) (c : Nat) (u : Update) : Nat × W16 :=
  match (s.at c).l1d.find? fun x => x.pa == u.pa / 128 with
  | some x => (x.part, x.ctx)
  | none => (s.partOf c, 0#16)

/-- The pending updates of core c merge at their homes in the order of their issue, and the update-only lines leave the
L1D; a vault-cache copy of such a line goes, so that the next read reads the home (R236, R243). -/
def State.mergeAll (s : State) (c : Nat) : State :=
  let us := (s.at c).upd
  let mine (line : Nat) : Bool := us.any fun u => u.pa / 128 == line
  let s := us.foldl (fun s u => s.applyUpdate (s.updOwner c u).1 (s.updOwner c u).2 u) s
  s.modAt c fun k => { k with
    upd := [], l1d := k.l1d.filter fun x => !mine x.pa, vc := k.vc.filter fun x => !mine x.pa }

/-- The update-only line of core c, if it is one, merges at its home (R243). The other update-only lines merge with it,
for R250 keeps the order of a core's non-returning atomics (DEDUCED, log entry 23). -/
def State.mergeLine (s : State) (c line : Nat) : State :=
  if (s.at c).upd.any fun u => u.pa / 128 == line then s.mergeAll c else s

/-- A line displaced from the L1D is merged or written back (R226, R243). -/
def State.evict (s : State) (c : Nat) (o : Option Line) : State :=
  match o with
  | none => s
  | some x => (s.mergeLine c x.pa).cleanLine c x

/-- Merge and write back the lines of core c that p selects (R237 steps 1 and 2). -/
def State.flushLines (s : State) (c : Nat) (p : Nat → Bool) : State :=
  let ls := (s.at c).l1d.filter fun x => p x.pa
  ls.foldl (fun s x => (s.mergeLine c x.pa).cleanLine c x) s

/-- Invalidate core c's copies of the lines that p selects (R237 step 3, R240, R241). -/
def State.dropLines (s : State) (c : Nat) (p : Nat → Bool) : State :=
  let s := s.flushLines c p
  s.modAt c fun k => { k with l1d := k.l1d.filter fun x => !p x.pa, vc := k.vc.filter fun x => !p x.pa }

/-- The recency clock of core c's caches advances. -/
def State.tickUse (s : State) (c : Nat) : Nat × State :=
  ((s.at c).useCnt + 1, s.modAt c fun k => { k with useCnt := k.useCnt + 1 })

/-- The retention register of core c whose range holds a virtual address (R141). -/
def Ctx.pinOf (x : Ctx) (va : Nat) : Option Nat :=
  (List.range 8).find? fun k => match x.pins.getD k none with
    | some (a, n) => decide (a ≤ va) && decide (va < a + 128 * n)
    | none => false

/-- Put data into a line of a list. -/
def fillLine (l : List Line) (line : Nat) (d : List Byte × List Bool) : List Line :=
  l.map fun x => if x.pa == line then { x with bytes := d.1, poison := d.2 } else x

/-- A line request of a WB page at the vault cache above core c (R227, R271, R273). The vault cache holds copies of HBM
lines alone (R223): a request for another line misses and allocates nothing. -/
def State.vaultRequest (s : State) (c line va : Nat) (hint : BitVec 2) : (List Byte × List Bool) × State :=
  let hint := if s.target (128 * line) == .hbm then hint else 3#2
  let (t, s) := s.tickUse c
  let k := s.at c
  let a := cacheAccess k.vc k.vcShape line hint (k.ctx.pinOf va) t (s.partOf c) (s.walkerOf c).ctx
  let s := s.modAt c fun k => { k with
    vc := a.lines
    vcHit := satAdd48 k.vcHit (if a.hit.isSome then 1 else 0)
    vcPhit := satAdd48 k.vcPhit (if a.phit then 1 else 0)
    vcMiss := satAdd48 k.vcMiss (if a.hit.isSome then 0 else 1)
    vcOvfl := satAdd48 k.vcOvfl (if a.ovfl then 1 else 0) }
  match a.hit with
  | some x => ((x.bytes, x.poison), s)
  | none =>
    let (d, s) := s.homeLine c line
    (d, s.modAt c fun k => { k with vc := fillLine k.vc line d })

/-- A lookup of a line in core c's L1D, where the line displaced is merged or written back (R226, R243): what it came to,
and the state with the lines that then stand. Merging may take further lines away. -/
def State.l1Access (s : State) (c line : Nat) (hint : BitVec 2) : Access × State :=
  let (t, s) := s.tickUse c
  let a := cacheAccess (s.at c).l1d l1Shape line hint none t (s.partOf c) (s.walkerOf c).ctx
  let s := s.evict c a.out
  (a, s.modAt c fun k => { k with l1d := a.lines.filter fun x => x.pa == line || k.l1d.any fun y => y.pa == x.pa })

/-- A line request of core c's streams and prefetches (R228, R236, R271, R140): the line's bytes and poison marks. -/
def State.lineRequest (s : State) (c line va : Nat) (hint : BitVec 2) (mt : Nat) (pref : Bool) :
    (List Byte × List Bool) × State :=
  let s := s.mergeLine c line
  if mt = 3 && s.devPending c then (((s.devView c s.hbm.length).homeLine c line).1, (s.homeLine c line).2)
  else if 2 ≤ mt then s.homeLine c line
  else if pref && mt == 0 && (s.at c).vcShare != 0 then s.vaultRequest c line va hint
  else
    let (a, s) := s.l1Access c line hint
    match a.hit with
    | some x => ((x.bytes, x.poison), s)
    | none =>
      let (d, s) := if mt == 0 then s.vaultRequest c line va hint else s.homeLine c line
      (d, s.modAt c fun k => { k with l1d := fillLine k.l1d line d })

/-- A store element of core c is handed to its L1D (R236): within one line. -/
def State.storeEl (s : State) (c pa : Nat) (b : List Byte) (hint : BitVec 2) (mt : Nat) : State :=
  let part := s.partOf c
  let ctx := (s.walkerOf c).ctx
  let far : Mem := b.mapIdx fun i x => (pa + i, x)
  if mt = 3 && s.devPending c then
    let (id, s) := s.newId
    { s with devs := s.devs ++ [⟨id, c, part, ctx, pa, b⟩] }
  else if 2 ≤ mt then s.sendHome part ctx pa far
  else
    let line := pa / 128
    let cells : Mem := b.mapIdx fun i x => (pa % 128 + i, x)
    let s := s.mergeLine c line
    let (a, s) := s.l1Access c line hint
    if (s.at c).l1d.any fun x => x.pa == line then
      let s := match a.hit with
        | some _ => s
        | none =>
          let (d, s) := s.homeLine c line
          s.modAt c fun k => { k with l1d := fillLine k.l1d line d }
      s.modAt c fun k => { k with
        l1d := k.l1d.map fun x => if x.pa == line then { x.patch cells true with part := part, ctx := ctx } else x }
    else (s.sendHome part ctx pa far).followVc c line cells

/-- A non-returning atomic of core c at physical address pa (R243, R259); its line is its writer's (R351). -/
def State.atomUpdate (s : State) (c : Nat) (u : Update) (mt : Nat) : State :=
  let part := s.partOf c
  let ctx := (s.walkerOf c).ctx
  let line := u.pa / 128
  let n := atomBytes u.fmt
  if 2 ≤ mt then (s.mergeAll c).applyUpdate part ctx u
  else
    let clash := (s.at c).upd.any fun e =>
      decide (e.pa < u.pa + n) && decide (u.pa < e.pa + atomBytes e.fmt)
      && !(e.pa == u.pa && e.op == u.op && e.fmt == u.fmt)
    let s := if clash then s.mergeLine c line else s
    let s := (s.l1Access c line 0#2).2
    let s := match (s.at c).l1d.find? fun x => x.pa == line with
      | some x => s.cleanLine c x
      | none => s
    s.modAt c fun k => { k with
      l1d := k.l1d.map fun x => if x.pa == line then { x with part := part, ctx := ctx } else x
      upd :=
        if k.upd.any fun e => e.pa == u.pa then
          k.upd.map fun e => if e.pa == u.pa then { e with
            val := if u.op = 6#4 then e.val else atomInt u.op u.fmt e.val u.val
            acc := e.acc.merge (wideAcc u.fmt) u.acc } else e
        else k.upd ++ [u] }

/-- The word actions of R237 on core c: lines read or written, and lines written. -/
def State.wordActions (s : State) (c : Nat) (touch wr : Nat → Bool) : State := (s.flushLines c touch).dropLines c wr

/-- A hint other than normal on an uncacheable page is ignored and counted (R133, R227). -/
def State.countHint (s : State) (c : Nat) (hint : BitVec 2) (mt : Nat) : State :=
  if hint ≠ 0#2 ∧ 2 ≤ mt then s.modAt c fun k => { k with hintIgn := satAdd48 k.hintIgn 1 } else s

/-- Apply a value of VLT_CTL to core c's vault (R225). -/
def Core.applyVlt (c : Core) (v : W64) : Core :=
  let old := bitsOf c.vltCtl.toNat 0 3
  let share := if bitsOf v.toNat 0 3 ≤ 4 then bitsOf v.toNat 0 3 else old
  let rw := min (bitsOf v.toNat 3 5) (4 * share)
  let was := bitsOf c.vltCtl.toNat 3 5
  { c with
    vltCtl := BitVec.ofNat 64 (share + 8 * rw)
    vc := if share ≠ old then []
      else c.vc.map fun x => if (decide (x.way < was)) != (decide (x.way < rw)) then { x with pin := none } else x }

/-- A phase boundary (R247), once the jobs of the phase are done. -/
def State.boundary (s : State) : State :=
  let all := List.range 192
  let s := all.foldl (fun s c => s.flushLines c fun _ => true) s
  let s := { s with accs := [] }
  all.foldl (fun s c => s.dropLines c fun _ => true) s

end Sys2Proof.Machine
end

