-- ==== Sys2Proof/Machine/Stream.lean ====
section
/-! DEFINITION. The two streamers (R123-R134, R271-R273): configuration and start words, beats read and delivered, beats
accepted and landed. -/

namespace Sys2Proof.Machine

/-- Whether the task of a core runs in strict mode (R24). -/
def Core.strict (c : Core) : Bool := (c.task.map Task.strict).getD false

/-- The best of several stops with the state each leaves (R281); further causes set MORE. -/
def bestTry (k : Stop × State) (r : List (Stop × State)) : Try :=
  let b := r.foldl (fun b x => if x.1.before b.1 then x else b) k
  .stopIn { b.2 with moreStops := b.2.moreStops || !r.isEmpty } b.1

/-- A stop if there is any, else a hold if there is any, else the state. -/
def tryAll (s : State) (stops : List (Stop × State)) (holds : List HoldCause) (t : State) : Try :=
  match stops, holds with
  | k :: r, _ => bestTry k r
  | [], h :: r => .hold h s r
  | [], [] => .ok t

/-! Configuration words (R124). -/

/-- Change the load staging registers at an issue. -/
def State.ldStage (s : State) (i : BitVec 4) (f : Staging → Staging) : State :=
  (s.issued 1 1 i).modCtx fun x => { x with ldS := f x.ldS }

/-- Change the store staging registers at an issue. -/
def State.stStage (s : State) (i : BitVec 4) (f : Staging → Staging) : State :=
  (s.issued 2 1 i).modCtx fun x => { x with stS := f x.stS }

def Staging.setBase (st : Staging) (sp : BitVec 3) (v : BitVec 57) : Staging := { st with space := sp, addr := v }
def Staging.setDim (st : Staging) (d : BitVec 2) (c : BitVec 16) (v : W32) : Staging :=
  { st with counts := st.counts.set d.toNat c.toNat, strides := st.strides.set d.toNat v.toInt }
def Staging.setFmt (st : Staging) (f : BitVec 5) (p : BitVec 3) (h md : BitVec 2) : Staging :=
  { st with fmt := f, port := p, hint := h, rnd := md }
def Staging.setTag (st : Staging) (tm : BitVec 2) (t : W16) : Staging := { st with tagMode := tm, tag := t }

/-- LD_BASE (R124). -/
def execLdBase (i : BitVec 4) (sp : BitVec 3) (v : BitVec 57) (s : State) : Out :=
  .next (s.ldStage i fun st => st.setBase sp v)
/-- LD_DIM (R124). -/
def execLdDim (i : BitVec 4) (d : BitVec 2) (c : BitVec 16) (v : W32) (s : State) : Out :=
  .next (s.ldStage i fun st => st.setDim d c v)
/-- LD_FMT (R124): the rounding field is RNE. -/
def execLdFmt (i : BitVec 4) (f : BitVec 5) (p : BitVec 3) (h : BitVec 2) (s : State) : Out :=
  .next (s.ldStage i fun st => st.setFmt f p h 0#2)
/-- LD_TAG (R124). -/
def execLdTag (i : BitVec 4) (tm : BitVec 2) (t : BitVec 16) (s : State) : Out :=
  .next (s.ldStage i fun st => st.setTag tm t)
/-- LD_RATE (R124). -/
def execLdRate (i : BitVec 4) (n : BitVec 8) (s : State) : Out :=
  .next (s.ldStage i fun st => { st with interval := n })
/-- ST_BASE (R124). -/
def execStBase (i : BitVec 4) (sp : BitVec 3) (v : BitVec 57) (s : State) : Out :=
  .next (s.stStage i fun st => st.setBase sp v)
/-- ST_DIM (R124). -/
def execStDim (i : BitVec 4) (d : BitVec 2) (c : BitVec 16) (v : W32) (s : State) : Out :=
  .next (s.stStage i fun st => st.setDim d c v)
/-- ST_FMT (R124). -/
def execStFmt (i : BitVec 4) (f : BitVec 5) (p : BitVec 3) (h md : BitVec 2) (s : State) : Out :=
  .next (s.stStage i fun st => st.setFmt f p h md)
/-- ST_TAG (R124). -/
def execStTag (i : BitVec 4) (tm : BitVec 2) (t : BitVec 16) (s : State) : Out :=
  .next (s.stStage i fun st => st.setTag tm t)
/-- ST_RATE (R124). -/
def execStRate (i : BitVec 4) (n : BitVec 8) (s : State) : Out :=
  .next (s.stStage i fun st => { st with interval := n })

/-! Start and stop (R127, R134). -/

/-- Load port p of a context, and its change. -/
def Ctx.ld (x : Ctx) (p : Nat) : LdPort := x.ldP.getD p LdPort.reset
def Ctx.setLd (x : Ctx) (p : Nat) (y : LdPort) : Ctx := { x with ldP := x.ldP.set p y }
/-- Store port p of a context, and its change. -/
def Ctx.st (x : Ctx) (p : Nat) : StPort := x.stP.getD p StPort.reset
def Ctx.setSt (x : Ctx) (p : Nat) (y : StPort) : Ctx := { x with stP := x.stP.set p y }

/-- Whether a space is an LM space of another core, or global. -/
def isNear (sp : BitVec 3) : Bool := decide (4 ≤ sp.toNat)
def isGlobal (sp : BitVec 3) : Bool := sp == 1#3

/-- The command faults of a start (R127). -/
def startBad (gsize : Nat) (running : Bool) (st : Staging) : Bool :=
  running || (isGlobal st.space && st.tagMode != 0#2) || (isNear st.space && decide (gsize ≤ st.space.toNat - 4))

/-- Cycles from a beat's read, or a global beat's request, to its delivery (R128). -/
def deliverAfter (sp : BitVec 3) : Nat := if isGlobal sp then 80 else if isNear sp then 6 else 4

/-- The cycle in which beat j is read, or requested for global space (R128). -/
def LdPort.readAt (p : LdPort) (j : Nat) : Nat :=
  p.start + j * p.st.interval.toNat + (if isNear p.st.space then 6 else 0)

/-- A marker-only delivery (R128). -/
def markerAt (due : Nat) : Delivery := ⟨due, none, true, false, 0, none, 0, false, false⟩

/-- The load port after a start at cycle s (R127, R128). -/
def startLoad (old : LdPort) (st : Staging) (s : Nat) : LdPort :=
  let p : LdPort := { st := st, start := s, beat := 0, running := st.elems != 0, checked := [], leaf := none,
                      run := none, dels := old.dels }
  if st.elems = 0 then { p with dels := old.dels ++ [markerAt (p.readAt 0 + deliverAfter st.space)] } else p

/-- `ld.start` (R127). -/
def tryLdStart (i : BitVec 4) (s : State) : Try :=
  let x := s.core.ctx
  let st := x.ldS
  let p := st.port.toNat
  if startBad s.core.gsize (x.ld p).running st then .stop (plainStop s 1 .command)
  else .ok ((s.issued 1 1 i).modCtx fun x => x.setLd p (startLoad (x.ld p) st s.core.now))

/-- LD_START (R127). -/
def execLdStart (i : BitVec 4) (s : State) : Out := finish s (tryLdStart i s)
/-- LD_START_TIMED (R127). -/
def execLdStartTimed (i : BitVec 4) (_w : When) (s : State) : Out := finish s (tryLdStart i s)

/-- The store port after a start at cycle s (R127). -/
def startStore (old : StPort) (st : Staging) (s : Nat) : StPort :=
  { st := st, start := s, open_ := st.elems != 0, accepted := 0, lastAcc := none, leaf := none, lands := old.lands }

/-- `st.start` (R127). -/
def tryStStart (i : BitVec 4) (s : State) : Try :=
  let x := s.core.ctx
  let st := x.stS
  let p := st.port.toNat
  if startBad s.core.gsize (x.st p).open_ st then .stop (plainStop s 2 .command)
  else .ok ((s.issued 2 1 i).modCtx fun x => x.setSt p (startStore (x.st p) st s.core.now))

/-- ST_START (R127). -/
def execStStart (i : BitVec 4) (s : State) : Out := finish s (tryStStart i s)
/-- ST_START_TIMED (R127). -/
def execStStartTimed (i : BitVec 4) (_w : When) (s : State) : Out := finish s (tryStStart i s)

/-- The load port after a stop at cycle t (R134): no further beat, a marker-only delivery. -/
def stopLoad (p : LdPort) (t : Nat) : LdPort :=
  if p.running then { p with running := false, dels := p.dels ++ [markerAt (t + deliverAfter p.st.space)] } else p

/-- LD_STOP (R134). -/
def execLdStop (i : BitVec 4) (s : State) : Out :=
  let p := s.core.ctx.ldS.port.toNat
  .next ((s.issued 1 1 i).modCtx fun x => x.setLd p (stopLoad (x.ld p) s.core.now))

/-- ST_STOP (R134): what was accepted still lands. -/
def execStStop (i : BitVec 4) (s : State) : Out :=
  let p := s.core.ctx.stS.port.toNat
  .next ((s.issued 2 1 i).modCtx fun x => x.setSt p { x.st p with open_ := false })

/-! Beats of load streams (R128, R131, R132, R271). -/

/-- The elements of beat j. -/
def Staging.beatEls (st : Staging) (per j : Nat) : List Nat :=
  (List.range per).filterMap fun i => if j * per + i < st.elems then some (j * per + i) else none

/-- The stop of an element in an LM space (R132); n0 is its beat's first element. -/
def lmElStop (grant eng p n0 : Nat) (st : Staging) (n : Nat) : Option Stop :=
  let a := st.elAddr n
  let z := elBytes st.fmt
  if a < 0 ∨ (grant : Int) < a + z then some { cls := .bounds, eng := eng, rank := 2 + p, detail := n0 }
  else if a.toNat % z ≠ 0 then some { cls := .alignment, eng := eng, rank := 2 + p, detail := n0 }
  else none

/-- Granules that bytes a ... a + z - 1 touch. -/
def granules (a z : Nat) : List Nat := (List.range ((a + z - 1) / 4096 + 1)).drop (a / 4096)

/-- The granules of a beat that the stream has not checked (R131). -/
def LdPort.newGranules (p : LdPort) (as : List Nat) : List Nat :=
  let z := elBytes p.st.fmt
  (as.flatMap fun a => granules a z).foldl (fun l g => if l.contains g || p.checked.contains g then l else l ++ [g]) []

/-- The tag checks of a beat (R131, R234): a stop, or a hold. -/
def tagCheck (s : State) (tgt : Nat) (supv : Bool) (eng rank : Nat) (want : W16) (gs : List Nat) :
    Option Stop × List HoldCause :=
  let t (g : Nat) : W16 := (s.at tgt).tag supv g
  match gs.find? fun g => t g == 0xFFFF#16 with
  | some g => (some { cls := .memoryError, eng := eng, rank := rank, detail := g * 65536 + want.toNat }, [])
  | none =>
    let bad := gs.filter fun g => t g != want
    match bad with
    | [] => (none, [])
    | g :: _ =>
      if s.core.strict then (some { cls := .schedule, eng := eng, rank := rank, detail := g * 65536 + want.toNat }, [])
      else (none, bad.map fun g => .tag tgt supv g want eng rank)

/-- Translate the elements of a beat in turn (R132, R321): one lookup per page crossing. Stop, state, the leaf held,
the elements as (virtual, physical, leaf bits). -/
def xlElements (c eng p n0 : Nat) (st : Staging) (wr : Bool) :
    List Nat → State → Option Leaf → List (Nat × Nat × Byte) → Option Stop × State × Option Leaf × List (Nat × Nat × Byte)
  | [], s, leaf, acc => (none, s, leaf, acc)
  | n :: r, s, leaf, acc =>
    let a := st.elAddr n
    let bad (k : Stop) (s : State) := (some k, s, leaf, acc)
    if a < 0 ∨ 2 ^ 57 ≤ a then bad { cls := .bounds, eng := eng, rank := 2 + p, detail := n0 } s
    else
      let va := a.toNat
      let held := match leaf with
        | some l => decide (l.va ≤ va) && decide (va < l.va + l.size)
        | none => false
      let (res, s) : WalkRes × State := match held, leaf with
        | true, some l => (.inr l, s)
        | _, _ => s.lookup c va
      match res with
      | .inl k => bad (transStop eng (2 + p) k wr va) s
      | .inr l =>
        match s.leafCheck c l (!wr) wr va with
        | some k => bad (transStop eng (2 + p) k wr va) s
        | none =>
          let s := if held then s else s.countHint c st.hint l.mt
          if va % elBytes st.fmt ≠ 0 then bad { cls := .alignment, eng := eng, rank := 2 + p, detail := n0 } s
          else xlElements c eng p n0 st wr r s (some l) (acc ++ [(va, l.phys va, l.bits)])

/-- A beat that is due, as far as it is known before its lines are read. -/
structure Plan where
  port : Nat
  els : List (Nat × Nat × Byte)
  lines : List (Nat × Nat × Nat)     -- lines to look up: line, virtual address, memory type
  leaf : Option Leaf
  granules : List Nat
  far : Bool                         -- data of it cross a port (R354)

/-- Whether data of a physical address come to core me over a link that retrains (R24, R354): those of another module, and of
another die (DEDUCED, log entry 14). -/
def State.crosses (s : State) (me pa : Nat) : Bool :=
  match s.target pa with
  | .pod _ _ => true
  | .vault c _ | .lm c _ | .ctr c _ => dieOf c != dieOf me
  | .hbm | .decode | .none => false

/-- Whether a line that core me looks up comes over such a link: it is not in its L1D. -/
def State.lineCrosses (s : State) (me line mt : Nat) : Bool :=
  s.crosses me (128 * line) && (decide (2 ≤ mt) || !((s.at me).l1d.any fun x => x.pa == line))

/-- The first element of each line of a beat, in ascending order of lines (R271). -/
def beatLines (els : List (Nat × Nat × Byte)) : List (Nat × Nat × Nat) :=
  let ls := els.foldl (fun l e => insNat (e.2.1 / 128) l) []
  ls.filterMap fun ln => (els.find? fun e => e.2.1 / 128 == ln).map fun (va, pa, b) =>
    (ln, va - pa % 128, bitsOf b.toNat 6 2)

/-- The lines a beat looks up: none while it continues a run (R271). -/
def LdPort.needs (p : LdPort) (els : List (Nat × Nat × Byte)) : List (Nat × Nat × Nat) :=
  match beatLines els, p.run with
  | [x], some r => if r.1 = x.1 then [] else [x]
  | l, _ => l

/-- What one due beat of load port p comes to before its data are read. -/
def planBeat (s : State) (p : Nat) : Option Stop × List HoldCause × State × Plan :=
  let c := s.core
  let y := c.ctx.ld p
  let per := elsPerBeat y.st.fmt
  let n0 := y.beat * per
  let ns := y.st.beatEls per y.beat
  if isGlobal y.st.space then
    let (k, t, leaf, els) := xlElements s.cur.val 1 p n0 y.st false ns s y.leaf []
    (k, [], t, ⟨p, els, y.needs els, leaf, [], (y.needs els).any fun x => s.lineCrosses s.cur.val x.1 x.2.2⟩)
  else
    let as := ns.map fun n => (y.st.elAddr n).toNat
    let plan : Plan := ⟨p, as.map fun a => (a, a, 0#8), [], none, [], false⟩
    match ns.findSome? fun n => lmElStop c.lmGrant 1 p n0 y.st n with
    | some k => (some k, [], s, plan)
    | none =>
      if y.st.tagMode = 0#2 then (none, [], s, plan)
      else
        let gs := y.newGranules as
        let tgt := c.gbase + spaceCore y.st.space (c.gidx s.cur.val)
        let (k, h) := tagCheck s tgt c.ctx.sup 1 (2 + p) y.st.tag gs
        (k, h, s, { plan with granules := gs })

/-- Whether a beat of load port p is read in this cycle. -/
def LdPort.dueAt (y : LdPort) (now : Nat) : Bool :=
  y.running && decide (y.beat < y.st.beats) && y.readAt y.beat == now

/-- A line request of this cycle: line, virtual address, memory type, hint, port (8: a prefetch). -/
structure LineReq where
  line : Nat
  va : Nat
  mt : Nat
  hint : BitVec 2
  src : Nat

/-- Insert a request in ascending order of lines (R273). -/
def insReq (x : LineReq) : List LineReq → List LineReq
  | [] => [x]
  | y :: r => if x.line < y.line then x :: y :: r else y :: insReq x r

/-- Handle the requests of a cycle in order (R273): the data of each. -/
def doRequests (c : Nat) : List LineReq → State → List (LineReq × List Byte × List Bool) → State × List (LineReq × List Byte × List Bool)
  | [], s, acc => (s, acc)
  | x :: r, s, acc =>
    let (d, s) := s.lineRequest c x.line x.va x.hint x.mt (x.src == 8)
    doRequests c r s (acc ++ [(x, d.1, d.2)])

/-- The requests of prefetches due in this cycle (R140, R272): lines outside the space (R26) or that fail translation are
skipped. -/
def prefRequests (c : Nat) : List (Nat × Nat × BitVec 2) → State → List LineReq → State × List LineReq
  | [], s, acc => (s, acc)
  | (_, va, h) :: r, s, acc =>
    if 2 ^ 57 ≤ va then prefRequests c r s acc
    else
      let (res, s) := s.lookup c va
      match res with
      | .inl _ => prefRequests c r s acc
      | .inr l =>
        match s.leafCheck c l true false va with
        | some _ => prefRequests c r s acc
        | none => prefRequests c r s (insReq ⟨l.phys va / 128, va, l.mt, h, 8⟩ acc)

/-- An element's value as a beat carries it (R50, R126). -/
def beatEl (f : BitVec 5) (b : List Byte) : Nat := if f = 2#5 then leNat b / 8192 * 8192 else leNat b

/-- A beat of elements, element 0 in the low bits (R126). -/
def packBeat (f : BitVec 5) (els : List (List Byte)) : W128 :=
  BitVec.ofNat 128 ((els.mapIdx fun i b => beatEl f b * 2 ^ (8 * elBytes f * i)).foldl (· + ·) 0)

/-- The data of a planned beat, and whether a poisoned word is in it (R233). -/
def planData (s : State) (pl : Plan) (got : List (LineReq × List Byte × List Bool)) : List (List Byte) × Bool × Option (Nat × List Byte × List Bool) :=
  let c := s.core
  let y := c.ctx.ld pl.port
  let z := elBytes y.st.fmt
  if isGlobal y.st.space then
    let mine : List (Nat × List Byte × List Bool) :=
      (got.filter fun g => g.1.src == pl.port).map fun g => (g.1.line, g.2.1, g.2.2)
    let tab := match y.run with
      | some r => mine ++ [r]
      | none => mine
    let look (pa : Nat) : Nat × List Byte × List Bool := (tab.find? fun t => t.1 == pa / 128).getD (0, [], [])
    let data := pl.els.map fun (_, pa, _) => ((look pa).2.1.drop (pa % 128)).take z
    let bad := pl.els.any fun (_, pa, _) =>
      let m := (look pa).2.2
      m.getD (pa % 128 / 4) false || m.getD ((pa % 128 + z - 1) / 4) false
    let run := match beatLines pl.els with
      | [x] => tab.find? fun t => t.1 == x.1
      | _ => none
    (data, bad, run)
  else
    let t := s.at (c.gbase + spaceCore y.st.space (c.gidx s.cur.val))
    (pl.els.map fun (a, _, _) => t.lmReadN c.ctx.sup a z, false, none)

/-- A planned beat is read: its delivery is on its way (R128). -/
def readBeat (s : State) (now : Nat) (pl : Plan) (got : List (LineReq × List Byte × List Bool)) : State :=
  let y := s.core.ctx.ld pl.port
  let (data, bad, run) := planData s pl got
  let d : Delivery := ⟨now + deliverAfter y.st.space, some (packBeat y.st.fmt data), y.beat + 1 == y.st.beats, bad, 0,
    none, y.beat * elsPerBeat y.st.fmt, isGlobal y.st.space, pl.far⟩
  s.modCtx fun x => x.setLd pl.port { y with
    beat := y.beat + 1, dels := y.dels ++ [d], leaf := pl.leaf, run := run, checked := y.checked ++ pl.granules }

/-- STREAM_BEAT_READ: the load beats due, and the line requests of prefetches due (R128, R271-R273). -/
def tryBeatRead (s : State) : Try :=
  let c := s.cur.val
  let now := s.core.now
  let ports := (List.range 8).filter fun p => (s.core.ctx.ld p).dueAt now
  let (t, stops, holds, plans) := ports.foldl (fun (t, ks, hs, ps) p =>
    let (k, h, t', pl) := planBeat t p
    match k with
    | some k => (t, ks ++ [(k, (planBeat s p).2.2.1)], hs, ps)
    | none => (t', ks, hs ++ h, ps ++ [pl])) (s, [], [], [])
  let prefs := s.core.ctx.prefs.filter fun q => q.1 == now
  let (t, reqs) := prefRequests c prefs t []
  let reqs := plans.foldl (fun l pl =>
    pl.lines.foldl (fun l (ln, va, mt) => insReq ⟨ln, va, mt, (s.core.ctx.ld pl.port).st.hint, pl.port⟩ l) l) reqs
  let (t, got) := doRequests c reqs t []
  let t := plans.foldl (fun t pl => readBeat t now pl got) t
  let t := t.modCtx fun x => { x with prefs := x.prefs.filter fun q => q.1 != now }
  tryAll s stops holds t

/-- STREAM_BEAT_READ (R128). -/
def execStreamBeatRead (s : State) : Out := finish s (tryBeatRead s)

/-! Deliveries (R128, R129, R185, R233). -/

/-- What one delivery comes to: a stop or a hold cause. -/
def deliverCheck (s : State) (p : Nat) (d : Delivery) : Option Stop × List HoldCause :=
  if d.data.isNone then (none, [])
  else if s.time < d.arrive then
    if s.core.strict then (some { cls := .schedule, eng := 1, rank := 2 + p, detail := d.n }, [])
    else (none, [.late s.cur.val p d.arrive d.retrain])
  else if d.poison then (some { cls := .memoryError, eng := 1, rank := 2 + p, detail := d.n }, [])
  else if (s.core.grid.beats.getD p (0#128, false)).2 then (some (bareStop s 3 (2 + p) .command 0xFFFF), [])
  else (none, [])

/-- The beat register of a port takes a beat (R185). -/
def Grid.deliver (g : Grid) (p : Nat) (b : Option W128) : Grid :=
  match b with
  | none => g
  | some b => { g with beats := g.beats.set p (b, true) }

/-- Whether two beats with data are due at one port in cycle now (a global beat and a beat of a later stream): the second
is a delivery while the first has set FULL (R185; DEDUCED, log entry 63). -/
def Ctx.beatsMeet (x : Ctx) (now p : Nat) : Bool :=
  decide (2 ≤ (x.ld p).dels.countP fun d => d.due == now && d.data.isSome)

/-- STREAM_BEAT_DELIVER: the deliveries due reach their ports. -/
def tryBeatDeliver (s : State) : Try :=
  let now := s.core.now
  let due := (List.range 8).flatMap fun p => ((s.core.ctx.ld p).dels.filter fun d => d.due == now).map fun d => (p, d)
  let cs := due.map fun (p, d) => deliverCheck s p d
  let meet := (List.range 8).filterMap fun p =>
    if s.core.ctx.beatsMeet now p then some (bareStop s 3 (2 + p) .command 0xFFFF, s) else none
  let t := due.foldl (fun t (p, d) => t.mod fun c => { c with grid := c.grid.deliver p d.data }) s
  let t := t.modCtx fun x => { x with ldP := x.ldP.map fun y => { y with dels := y.dels.filter fun d => d.due != now } }
  tryAll s ((cs.filterMap Prod.fst).map (fun k => (k, s)) ++ meet) (cs.flatMap Prod.snd) t

/-- STREAM_BEAT_DELIVER (R128, R185). -/
def execStreamBeatDeliver (s : State) : Out := finish s (tryBeatDeliver s)

/-- The first global beat on its way comes at time t. -/
def lateBeat (t : Nat) : List Delivery → List Delivery
  | [] => []
  | b :: r => if b.glob && b.data.isSome then { b with arrive := t } :: r else b :: lateBeat t r

/-- GLOBAL_BEAT_LATE (R129): the data of the next global beat due at port p come d time units from now. -/
def execGlobalBeatLate (p : BitVec 3) (d : Nat) (s : State) : Out :=
  .next (s.modCtx fun x =>
    let y := x.ld p.toNat
    x.setLd p.toNat { y with dels := lateBeat (s.time + d) y.dels })

/-! Beats of store streams (R126, R130-R132). -/

/-- The element a store stream writes from one lane value (R126): code and flags. -/
def storeConv (f : BitVec 5) (md : BitVec 2) (v : W64) : W64 × Byte :=
  if f = 0#5 ∨ f = 1#5 ∨ f = 0x14#5 ∨ fmtWidth f < 8 then (v, 0#8)
  else if (intRange f).isSome then rnd f md (toVal 0x14#5 v).1
  else rnd f md (toVal 1#5 v).1

/-- Lane i of a beat as a store stream of format f takes it. -/
def beatLane (f : BitVec 5) (b : W128) (i : Nat) : W64 :=
  if f = 0#5 then BitVec.extractLsb' (64 * i) 64 b else (BitVec.extractLsb' (32 * i) 32 b).setWidth 64

/-- Whether a later element than those of beat j lies in granule g (R131); one below address zero lies in none. -/
def laterIn (st : Staging) (g : Nat) : Nat → Nat → Bool
  | 0, _ => false
  | k + 1, n =>
    (decide (0 ≤ st.elAddr n) && (granules (st.elAddr n).toNat (elBytes st.fmt)).contains g) || laterIn st g k (n + 1)

/-- Whether a presented beat is a command fault at a port (R130). -/
def StPort.refuses (y : StPort) (now : Nat) : Bool :=
  !y.open_ || decide (now < y.start) || decide (y.st.storeBeats ≤ y.accepted)
  || (match y.lastAcc with
      | some u => decide (now - u < y.st.interval.toNat)
      | none => false)

/-- A beat presented at store port p in this cycle (R126, R130-R132): the stop with its state, or the state. -/
def acceptBeat (s : State) (p : Nat) (b : W128) : (Stop × State) ⊕ State :=
  let c := s.core
  let now := c.now
  let y := c.ctx.st p
  let st := y.st
  let z := elBytes st.fmt
  let per := elsPerStoreBeat st.fmt
  if y.refuses now then .inl (bareStop s 2 (2 + p) .command 0xFFFF, s)
  else
    let ns := st.beatEls per y.accepted
    let n0 := y.accepted * per
    let vals := (List.range ns.length).map fun i => storeConv st.fmt st.rnd (beatLane st.fmt b i)
    let flags := vals.foldl (fun f v => f ||| v.2) 0#8
    let me := c.gidx s.cur.val
    let done (s : State) (leaf : Option Leaf) (lands : List StLand) : State :=
      (s.modCtx fun x => (x.setSt p { y with
        accepted := y.accepted + 1, lastAcc := some now, leaf := leaf, lands := y.lands ++ lands
        open_ := decide (y.accepted + 1 < st.storeBeats) }).raise flags)
    if isGlobal st.space then
      match xlElements s.cur.val 2 p n0 st true ns s y.leaf [] with
      | (some k, t, _, _) => .inl (k, t)
      | (none, t, leaf, els) =>
        .inr (done t leaf (els.mapIdx fun i (_, pa, bits) =>
          StLand.mk (now + 3) y.start me true ((natLe z (vals.getD i (0#64, 0#8)).1.toNat).mapIdx fun j x => (pa + j, x)) []
            0#16 bits st.hint p))
    else
      match ns.findSome? fun n => lmElStop c.lmGrant 2 p n0 st n with
      | some k => .inl (k, s)
      | none =>
        let as := ns.map fun n => (st.elAddr n).toNat
        let cells := (as.mapIdx fun i a => (natLe z (vals.getD i (0#64, 0#8)).1.toNat).mapIdx fun j x => (a + j, x)).flatten
        let gs := (as.flatMap fun a => granules a z).foldl (fun l g => insNat g l) []
        let nxt := (y.accepted + 1) * per
        let tags := if st.tagMode = 0#2 then [] else gs.filter fun g => !laterIn st g (st.elems - nxt) nxt
        let due := now + (if isNear st.space then 8 else 3)
        .inr (done s none [StLand.mk due y.start (spaceCore st.space me) false cells tags st.tag 0#8 st.hint p])

/-- One landing of a store stream (R130, R131, R236). -/
def landStore (s : State) (l : StLand) : State :=
  let c := s.core
  if l.glob then
    match l.cells with
    | [] => s
    | (pa, _) :: _ => s.storeEl s.cur.val pa (l.cells.map Prod.snd) l.hint (bitsOf l.bits.toNat 6 2)
  else
    s.modAt (c.gbase + l.q) fun k =>
      l.tags.foldl (fun k g => k.landTag c.ctx.sup g l.tag)
        (l.cells.foldl (fun k x => k.noteBytes c.ctx.sup x.1 1) (k.lmWriteCells c.ctx.sup l.cells))

/-- STORE_BEAT_LAND (R130, R235): the higher port lands first, so the lower prevails. -/
def execStoreBeatLand (s : State) : Out :=
  let now := s.core.now
  let due := (List.range 8).reverse.flatMap fun p => (s.core.ctx.st p).lands.filter fun l => l.due == now
  let s := s.modCtx fun x => { x with stP := x.stP.map fun y => { y with lands := y.lands.filter fun l => l.due != now } }
  .next (due.foldl landStore s)

end Sys2Proof.Machine
end

