-- ==== Sys2Proof/Machine/Grid.lean ====
section
/-! DEFINITION. The grid fabric (R183-R199, R208-R211): lane operations, configuration images, the four configuration
words, contexts and their results, the done tree. -/

namespace Sys2Proof.Machine

/-! Operations on one element (R190, R213). -/

/-- The format of a lane type (R188). -/
def laneFmt (t : Nat) : BitVec 5 :=
  match t with
  | 0 => 1#5
  | 1 => 0x14#5
  | _ => 0#5

/-- Low w bits. -/
def lowBits (w : Nat) (v : W64) : W64 := BitVec.ofNat 64 (v.toNat % 2 ^ w)

/-- All ones in w bits. -/
def allOnes (w : Nat) : W64 := BitVec.ofNat 64 (2 ^ w - 1)

/-- The integer value of an element of an integer format. -/
def elInt (f : BitVec 5) (v : W64) : Int :=
  match (toVal f v).1 with
  | .fin n _ => n
  | _ => 0

/-- An integer result kept in w bits (R71). -/
def wrapTo (w : Nat) (x : Int) : W64 := BitVec.ofInt 64 (x % (2 ^ w : Nat))

/-- A reserved TER2 code is taken as 0 and raises IV; no operation writes it: where a bitwise operation would, it writes 0
in its place (R52; DESIGN CHOICE, log entry 61). -/
def terCode (f : BitVec 5) (v : W64) : W64 × Byte := if f = 0x11#5 ∧ lowBits 2 v = 2#64 then (0#64, fIV) else (v, 0#8)

/-- A bitwise operation on element codes. -/
def bitwise (f : BitVec 5) (g : W64 → W64 → W64) (a b : W64) : W64 × Byte :=
  let (a, x) := terCode f a
  let (b, y) := terCode f b
  ((terCode f (lowBits (fmtWidth f) (g a b))).1, x ||| y)

/-- One element of an operation of R190 on format f: a result and its flags. Code 0x40 is the clamped sum of R213. -/
def elemOp (op : Nat) (f : BitVec 5) (md : BitVec 2) (pred : Nat) (a b c : W64) : W64 × Byte :=
  let w := fmtWidth f
  let int := (intRange f).isSome
  let va := (toVal f a).1
  let vb := (toVal f b).1
  let vc := (toVal f c).1
  let out (x : Val × Byte) : W64 × Byte :=
    let (r, g) := rnd f md x.1
    (r, x.2 ||| g)
  let ints (x : Int) : W64 × Byte := (wrapTo w x, 0#8)
  let ia := elInt f a
  let ib := elInt f b
  match op with
  | 0x01 => (lowBits w a, 0#8)
  | 0x02 => if int then ints (ia + ib) else out (Val.add md va vb)
  | 0x03 => if int then ints (ia - ib) else out (Val.add md va vb.minus)
  | 0x04 => if int then ints (ia * ib) else out (Val.mul va vb)
  | 0x05 => if int then ints (ia * ib + elInt f c) else out (Val.fma md va vb vc)
  | 0x06 => out (Val.minMax false va vb, 0#8)
  | 0x07 => out (Val.minMax true va vb, 0#8)
  | 0x08 =>
    if int then ints (if ia < 0 then -ia else ia)
    else if va.isNan then (canonNan f, 0#8) else (lowBits (w - 1) a, 0#8)
  | 0x09 =>
    if int then ints (-ia)
    else if va.isNan then (canonNan f, 0#8) else (lowBits w (a ^^^ BitVec.ofNat 64 (2 ^ (w - 1))), 0#8)
  | 0x0A => (lowBits w (if lowBits w c = 0#64 then b else a), 0#8)
  | 0x0B => (if Val.pred pred va vb then allOnes w else 0#64, 0#8)
  | 0x10 => bitwise f (· &&& ·) a b
  | 0x11 => bitwise f (· ||| ·) a b
  | 0x12 => bitwise f (· ^^^ ·) a b
  | 0x13 => (lowBits w (a <<< (b.toNat % 32)), 0#8)
  | 0x14 => (lowBits w a >>> (b.toNat % 32), 0#8)
  | 0x15 => (((a.setWidth 32).sshiftRight (b.toNat % 32)).setWidth 64, 0#8)
  | 0x40 => rnd f 0#2 (Val.mk' (ia + ib) 1 false)
  | _ => special (op - 0x18) f md va

/-- Latency of an operation (R190). -/
def opLat (op : Nat) : Nat :=
  if op = 0x04 ∨ op = 0x05 ∨ op = 0x20 then 2 else if 0x18 ≤ op ∧ op ≤ 0x1C then 4 else 1

/-- A conversion of one element (R62), with the flag of a reserved code. -/
def convEl (fa fb : BitVec 5) (md : BitVec 2) (v : W64) : W64 × Byte :=
  let (x, g) := toVal fa v
  let (r, h) := rnd fb md x
  (r, g ||| h)

/-! Operations on 128 bits (R190, R191). -/

/-- Field i of width w of a 128-bit value. -/
def part128 (w i : Nat) (v : W128) : W64 := BitVec.ofNat 64 (bitsOf v.toNat (w * i) w)

/-- Fields of width w, from field k on, put in place of those of v. -/
def put128 (w : Nat) (v : W128) : Nat → List W64 → W128
  | _, [] => v
  | k, x :: r =>
    let n := v.toNat
    put128 w (BitVec.ofNat 128 (n - bitsOf n (w * k) w * 2 ^ (w * k) + x.toNat % 2 ^ w * 2 ^ (w * k))) (k + 1) r

/-- The lane formats of R191. -/
def isLaneFmt (f : BitVec 5) : Bool := f == 0#5 || f == 1#5 || f == 2#5 || f == 0x14#5

/-- CVT (R191). -/
def cvt128 (md : BitVec 2) (p : Nat) (fa fb : BitVec 5) (a c : W128) : W128 × Byte :=
  let src (w : Nat) (ks : List Nat) : List (W64 × Byte) := ks.map fun k => convEl fa fb md (part128 w k a)
  let quad := [0, 1, 2, 3]
  let (base, w, k, l) : W128 × Nat × Nat × List (W64 × Byte) :=
    if isLaneFmt fa && isLaneFmt fb then
      if fa = 0#5 ∧ fb = 0#5 then (0#128, 64, 0, src 64 [0, 1])
      else if fb = 0#5 then (0#128, 64, 0, src 32 [2 * p, 2 * p + 1])
      else if fa = 0#5 then (0#128, 32, 0, src 64 [p])
      else (0#128, 32, 0, src 32 quad)
    else if isLaneFmt fb then
      if fb = 0#5 then (0#128, 64, 0, src (fmtWidth fa) [2 * p, 2 * p + 1])
      else (0#128, 32, 0, src (fmtWidth fa) (quad.map (4 * p + ·)))
    else if fa = 0#5 then (c, fmtWidth fb, 2 * p, src 64 [0, 1])
    else (c, fmtWidth fb, 4 * p, src 32 quad)
  (put128 w base k (l.map Prod.fst), l.foldl (fun g x => g ||| x.2) 0#8)

/-- An operation of R190 other than those of XE on 128-bit values. -/
def laneOp (op t : Nat) (md : BitVec 2) (p : Nat) (fa fb : BitVec 5) (a b c : W128) : W128 × Byte :=
  match op with
  | 0x01 => (a, 0#8)
  | 0x10 => (a &&& b, 0#8)
  | 0x11 => (a ||| b, 0#8)
  | 0x12 => (a ^^^ b, 0#8)
  | 0x20 => cvt128 md p fa fb a c
  | _ =>
    let f := laneFmt t
    let w := fmtWidth f
    let ks := List.range (128 / w)
    if op = 0x0C then (put128 w 0#128 0 (ks.map fun _ => part128 w p a), 0#8)
    else
      let l := ks.map fun k => elemOp op f md p (part128 w k a) (part128 w k b) (part128 w k c)
      (put128 w 0#128 0 (l.map Prod.fst), l.foldl (fun g x => g ||| x.2) 0#8)

/-! Context words (R188, R189). -/

/-- A field of a context word. -/
def cwf (x : W128) (lo w : Nat) : Nat := bitsOf x.toNat lo w

/-- The fields an operation uses (R190): T, RND, P, A, B, C. -/
def usesT (op : Nat) : Bool := (decide (2 ≤ op) && decide (op ≤ 0x0C)) || (decide (0x13 ≤ op) && decide (op ≤ 0x15))
  || (decide (0x18 ≤ op) && decide (op ≤ 0x1C)) || op == 0x28 || op == 0x29
def usesR (op : Nat) : Bool := (decide (2 ≤ op) && decide (op ≤ 5)) || (decide (0x18 ≤ op) && decide (op ≤ 0x1C))
  || op == 0x20 || op == 0x29
def usesP (op : Nat) : Bool := op == 0x0B || op == 0x0C || op == 0x20
def usesA (op : Nat) : Bool := op != 0 && op != 0x29 && op != 0x2A
def usesB (op : Nat) : Bool := (decide (2 ≤ op) && decide (op ≤ 7)) || op == 0x0A || op == 0x0B
  || (decide (0x10 ≤ op) && decide (op ≤ 0x15))
def usesC (op : Nat) (fa fb : BitVec 5) : Bool := op == 5 || op == 0x0A
  || (op == 0x20 && isLaneFmt fa && !isLaneFmt fb)

/-- The operation codes of R190. -/
def opKnown (op : Nat) : Bool := decide (op ≤ 0x0C) || (decide (0x10 ≤ op) && decide (op ≤ 0x15))
  || (decide (0x18 ≤ op) && decide (op ≤ 0x1C)) || op == 0x20 || (decide (0x28 ≤ op) && decide (op ≤ 0x2A))

/-- Whether an operation writes a destination (R190). -/
def opWrites (op : Nat) : Bool := op != 0 && op != 0x28 && op != 0x2A

/-- R189: a selector legal at an element. -/
def selOk (er ec sel : Nat) : Bool :=
  decide (sel < 0x20) || (sel == 0x20 && decide (er ≠ 0)) || (sel == 0x21 && decide (ec ≠ 7))
  || (sel == 0x22 && decide (er ≠ 7)) || sel == 0x23 || sel == 0x24 || (decide (0x30 ≤ sel) && decide (sel < 0x40))
  || (decide (0x40 ≤ sel) && decide (sel < 0x60) && decide (6 ≤ ec))
  || (decide (0x60 ≤ sel) && decide (sel < 0xA0) && decide (er ≤ 1))

/-- Whether a CVT keeps R191. -/
def cvtOk (fa fb : BitVec 5) (p : Nat) : Bool :=
  let is6 (f : BitVec 5) : Bool := f == 9#5 || f == 10#5
  let isNq (f : BitVec 5) : Bool := f == 0x12#5 || f == 0x13#5
  let la := isLaneFmt fa
  let lb := isLaneFmt fb
  let fits (w per : Nat) : Bool := decide ((per * p + per) * w ≤ 128)
  decide (fa.toNat ≤ 0x14) && decide (fb.toNat ≤ 0x14) && !isNq fa && !isNq fb && (la || lb) && !is6 fb
  && (if la && lb then p == 0 || (p == 1 && ((fa == 0#5) != (fb == 0#5)))
      else if lb then fits (fmtWidth fa) (if fb = 0#5 then 2 else 4) && (!is6 fa || decide (p ≤ 4))
      else fits (fmtWidth fb) (if fa = 0#5 then 2 else 4))

/-- Whether a context word passes the checks of R196 at element (er, ec). -/
def contextOk (er ec : Nat) (x : W128) : Bool :=
  let op := cwf x 0 7
  let t := cwf x 7 3
  let fa := BitVec.ofNat 5 (cwf x 12 5)
  let fb := BitVec.ofNat 5 (cwf x 17 5)
  let p := cwf x 22 4
  let src (used : Bool) (lo k : Nat) : Bool :=
    if used then selOk er ec (cwf x lo 8) && (cwf x k 1 == 0 || (cwf x lo 8 == 0x23 && ec == 0))
    else cwf x lo 8 == 0 && cwf x k 1 == 0
  opKnown op && cwf x 26 6 == 0 && cwf x 59 5 == 0 && cwf x 82 46 == 0
  && (if usesT op then decide (t ≤ 2) && (!(decide (0x13 ≤ op) && decide (op ≤ 0x15)) || t == 1)
        && (!(decide (0x18 ≤ op) && decide (op ≤ 0x1C)) || t == 0) && (!(op == 0x28 || op == 0x29) || t != 1)
      else t == 0)
  && (usesR op || cwf x 10 2 == 0) && (usesP op || p == 0)
  && (op != 0x0B || decide (p ≤ 5)) && (op != 0x0C || decide (p < (if t = 2 then 2 else 4)))
  && (if op = 0x20 then cvtOk fa fb p else fa == 0#5 && fb == 0#5)
  && decide (cwf x 56 1 + cwf x 57 1 + cwf x 58 1 ≤ 1)
  && src (usesA op) 32 56 && src (usesB op) 40 57 && src (usesC op fa fb) 48 58
  && (if opWrites op then
        (cwf x 64 1 == 1 || cwf x 65 5 == 0) && (cwf x 74 1 == 1 || (cwf x 75 7 == 0))
        && (cwf x 70 1 == 0 || decide (er ≠ 0)) && (cwf x 72 1 == 0 || decide (er ≠ 7)) && (cwf x 73 1 == 0 || decide (ec ≠ 0))
        && (cwf x 74 1 == 0 || (if cwf x 75 1 = 1 then decide (6 ≤ ec) else decide (6 ≤ er)))
      else cwf x 64 18 == 0)

/-! Configuration images (R194-R196). -/

/-- A little-endian number of n bytes at offset o of an image. -/
def imgNat (img : List Byte) (o n : Nat) : Nat := leNat ((img.drop o).take n)

/-- LEN and II of an image. -/
def imgLen (img : List Byte) : Nat := imgNat img 4 2
def imgII (img : List Byte) : Nat := imgNat img 6 2 % 64

/-- The descriptor of element e (R195). -/
def imgDesc (img : List Byte) (e : Nat) : Nat := imgNat img (128 + 16 * e) 16

/-- Context word k of a descriptor. -/
def imgCtx (img : List Byte) (d k : Nat) : W128 := BitVec.ofNat 128 (imgNat img (bitsOf d 64 11 * 16 + 16 * k) 16)

/-- Whether the descriptor of element e and its context words pass the checks (R195, R196). -/
def descOk (img : List Byte) (len ii e : Nat) : Bool :=
  let d := imgDesc img e
  if d % 2 = 0 then d == 0
  else
    let co := bitsOf d 64 11 * 16
    let ko := bitsOf d 75 11 * 16
    bitsOf d 3 13 == 0 && bitsOf d 86 42 == 0 && decide (1152 ≤ co) && decide (co + 16 * ii ≤ len)
    && (ko == 0 || (decide (1152 ≤ ko) && decide (ko + 64 ≤ len)))
    && (List.range ii).all fun k => contextOk (e / 8) (e % 8) (imgCtx img d k)

/-- The checks of R196 on the image at GCS address a. -/
def imageOk (gcs : Mem) (a : Nat) : Bool :=
  let h := leNat (memReadN gcs a 128)
  let len := bitsOf h 32 16
  let ii := bitsOf h 48 6
  bitsOf h 0 16 == 1 && bitsOf h 16 16 == 0 && h / 2 ^ 54 == 0 && decide (1168 ≤ len) && decide (len ≤ 32768)
  && len % 16 == 0 && decide (1 ≤ ii) && decide (ii ≤ 32) && decide (a + len ≤ 0x20000)
  && (let img := memReadN gcs a len
      (List.range 64).all fun e => descOk img len ii e)

/-- Element e as an image configures it (R183, R195, R196). -/
def imgElement (img : List Byte) (e : Nat) : Element :=
  let d := imgDesc img e
  let ko := bitsOf d 75 11 * 16
  if d % 2 = 0 then Element.reset
  else { Element.reset with
    ctxs := (List.range 32).map fun k => if k < imgII img then imgCtx img d k else 0#128
    consts := (List.range 16).map fun k => if ko = 0 then 0#32 else BitVec.ofNat 32 (imgNat img (ko + 4 * k) 4)
    en := true, src := d / 2 % 2 == 1, snk := d / 4 % 2 == 1, dly := bitsOf d 16 16, iters := bitsOf d 32 32 }

/-- Cycles of a load (R208). -/
def loadCycles (len : Nat) : Nat := 2 + (len + 511) / 512

/-! Configuration words (R208-R211). -/

/-- Change the grid of the current core. -/
def State.modGrid (s : State) (f : Grid → Grid) : State := s.mod fun c => { c with grid := f c.grid }

/-- `gr.cfg` (R208). -/
def tryGrCfg (i : BitVec 4) (g : BitVec 10) (s : State) : Try :=
  let c := s.core
  let a := 128 * g.toNat
  if !c.grid.doneBit || c.grid.loading.isSome || !imageOk c.gcs a then .stop (plainStop s 3 .command)
  else
    let len := leNat (memReadN c.gcs (a + 4) 2)
    .ok ((s.issued 3 1 i).modGrid fun y =>
      { y with loading := some (c.now + loadCycles len, memReadN c.gcs a len), inPlace := false })

/-- GR_CFG (R208). -/
def execGrCfg (i : BitVec 4) (g : BitVec 10) (s : State) : Out := finish s (tryGrCfg i g s)

/-- `gr.const` (R209): the slot is written at the end of the cycle. -/
def tryGrConst (i : BitVec 4) (el : BitVec 6) (k : BitVec 4) (v : W32) (s : State) : Try :=
  if s.core.grid.loading.isSome then .stop (plainStop s 3 .command)
  else .ok ((s.issued 3 1 i).modGrid fun y => { y with constW := some (el.toNat, k.toNat, v) })

/-- GR_CONST (R209). -/
def execGrConst (i : BitVec 4) (el : BitVec 6) (k : BitVec 4) (v : W32) (s : State) : Out :=
  finish s (tryGrConst i el k v s)

/-- Element e of a grid, and its change. -/
def Grid.el (g : Grid) (e : Nat) : Element := if h : e < 64 then g.els[e] else Element.reset
def Grid.modEl (g : Grid) (e : Nat) (f : Element → Element) : Grid :=
  if h : e < 64 then { g with els := g.els.set e (f g.els[e]) } else g

/-- The end of a cycle: the constant written in it enters its slot (R209). -/
def Grid.landConst (g : Grid) : Grid :=
  match g.constW with
  | none => g
  | some (e, k, v) => { g.modEl e (fun x => { x with consts := x.consts.set k v }) with constW := none }

/-- Whether a pass is in flight (R205). -/
def Grid.passing (g : Grid) (now : Nat) : Bool := g.passes.any fun p => decide (now ≤ p.done)

/-- The enabled sinks with the cycles in which they finish a graph started at s (R198). -/
def Grid.sinkEnds (g : Grid) (s : Nat) : List (Nat × Nat) :=
  (List.range 64).filterMap fun e =>
    let x := g.el e
    if x.en && x.snk then some (e, if x.iters = 0 then s else s + x.dly + x.iters * g.ii + 4) else none

/-- The done bit is due four cycles after the last sink, or after cycle t where there is none (R198). -/
def Grid.await (g : Grid) (sinks : List (Nat × Nat)) (t : Nat) : Grid :=
  { g with sinks := sinks, doneAt := if sinks.isEmpty then some t else none }

/-- `gr.start` (R198, R210). Elements other than sinks that are still within R186's cycles of the run before it end that
run with the start (DESIGN CHOICE, log entry 63). -/
def tryGrStart (i : BitVec 4) (s : State) : Try :=
  let c := s.core
  let g := c.grid
  if !g.inPlace || g.loading.isSome || !g.doneBit || g.passing c.now then .stop (plainStop s 3 .command)
  else .ok ((s.issued 3 1 i).modGrid fun g =>
    { g with running := some c.now, stopAt := none, doneBit := false }.await (g.sinkEnds c.now) (c.now + 4))

/-- GR_START (R210). -/
def execGrStart (i : BitVec 4) (_t : Lit) (s : State) : Out := finish s (tryGrStart i s)

/-- A grid after a stop at cycle t (R211): all sinks emit at t + 4; a stop of a graph that is stopping adds nothing. -/
def Grid.halt (g : Grid) (t : Nat) : Grid :=
  if g.doneBit || g.stopAt.isSome then g
  else Grid.await { g with stopAt := some t } ((g.sinkEnds t).map fun x : Nat × Nat => (x.1, t + 4)) (t + 8)

/-- GR_STOP (R211). -/
def execGrStop (i : BitVec 4) (s : State) : Out :=
  .next ((s.issued 3 1 i).modGrid fun g => g.halt s.core.now)

/-- GRID_CFG_DONE (R196, R208): the loaded image is in place from the end of its last cycle. -/
def execGridCfgDone (s : State) : Out :=
  .next (s.modGrid fun g =>
    match g.loading with
    | none => g
    | some (t, img) =>
      if t ≠ s.core.now then g
      else { g with
        els := Vector.ofFn fun e => imgElement img e.val, ii := imgII img, inPlace := true, loading := none
        running := none, stopAt := none, beats := g.beats.map fun b => (b.1, false) })

/-! Contexts (R184-R192). -/

/-- The slot and iteration of an element at cycle c (R186). -/
def Grid.turn (g : Grid) (x : Element) (c : Nat) : Option (Nat × Nat) :=
  match g.running with
  | none => none
  | some s =>
    let d := s + 1 + x.dly
    let live := x.en && decide (d ≤ c) && decide (c - d < x.iters * g.ii)
      && (match g.stopAt with
          | some t => decide (c < t)
          | none => true)
      && (match g.loading with
          | some (t, img) => decide (c + loadCycles (imgLen img) ≤ t)
          | none => true)
    if live then some ((c - d) % g.ii, (c - d) / g.ii) else none

/-- The physical entry of rotating name k in iteration n (R187). -/
def rotEntry (k n : Nat) : Nat := (k + 32 - n % 32) % 32

/-- The value of a source selector at element e in iteration n (R184, R189). -/
def Grid.source (g : Grid) (e : Nat) (t n sel : Nat) : W128 :=
  let x := g.el e
  let link (e d : Nat) : W128 := (g.el e).links.getD d 0#128
  if sel < 0x20 then x.rf.getD (rotEntry sel n) 0#128
  else if sel = 0x20 then link (e - 8) 2
  else if sel = 0x21 then link (e + 1) 3
  else if sel = 0x22 then link (e + 8) 0
  else if sel = 0x23 then (if e % 8 = 0 then (g.beats.getD (e / 8) (0#128, false)).1 else link (e - 1) 1)
  else if sel = 0x24 then 0#128
  else if sel < 0x40 then
    let k := sel - 0x30
    let a := x.consts.getD k 0#32
    let b := if t = 2 then x.consts.getD ((k + 1) % 16) 0#32 else a
    b ++ a ++ b ++ a
  else if sel < 0x60 then g.yret.getD (sel - 0x40) 0#128
  else g.dret.getD (sel - 0x60) 0#128

/-- The element of number e executes context word x in iteration n at cycle c (R188-R191): its schedule fault, if it
consumes a beat that is not there (R185), and the grid after it. -/
def Grid.context (g : Grid) (e : Nat) (x : W128) (n c : Nat) : Bool × Grid :=
  let op := cwf x 0 7
  let t := cwf x 7 3
  let md := BitVec.ofNat 2 (cwf x 10 2)
  let fa := BitVec.ofNat 5 (cwf x 12 5)
  let fb := BitVec.ofNat 5 (cwf x 17 5)
  let a := g.source e t n (cwf x 32 8)
  let b := g.source e t n (cwf x 40 8)
  let k := g.source e t n (cwf x 48 8)
  let takes := cwf x 56 3 != 0
  let miss := takes && !(g.beats.getD (e / 8) (0#128, false)).2
  let g := if takes then { g with beats := g.beats.modify (e / 8) fun y => (y.1, false) } else g
  let f := laneFmt t
  let w := fmtWidth f
  match op with
  | 0x00 => (miss, g)
  | 0x28 =>
    (miss, g.modEl e fun y => { y with
      xe := (List.range (128 / w)).foldl (fun q k => q.add true (toVal f (part128 w k a)).1) y.xe })
  | 0x2A => (miss, g.modEl e fun y => { y with xe := XAcc.empty })
  | _ =>
    let (v, fl) : W128 × Byte := if op = 0x29 then
        let (r, h) := (g.el e).xe.out true f md
        (put128 w 0#128 0 [r], h)
      else laneOp op t md (cwf x 22 4) fa fb a b k
    let res : GridRes :=
      { el := e, due := c + opLat op - 1, issue := c, val := v, flags := fl
        rf := if cwf x 64 1 = 1 then some (rotEntry (cwf x 65 5) n) else none
        links := BitVec.ofNat 4 (cwf x 70 4)
        seg := if cwf x 74 1 = 1 then some (cwf x 75 1 == 1, cwf x 76 5, cwf x 81 1 == 1) else none }
    (miss, { g with results := g.results ++ [res] })

/-- All elements execute their slots of cycle c: the elements that missed a beat, and the grid after it (R186). -/
def Grid.cycle (g : Grid) (c : Nat) : List Nat × Grid :=
  (List.range 64).foldl (fun (ms, g) e =>
    match g.turn (g.el e) c with
    | none => (ms, g)
    | some (slot, n) =>
      let (m, g) := g.context e ((g.el e).ctxs.getD slot 0#128) n c
      (if m then ms ++ [e] else ms, g)) ([], g)

/-- The store ports to which the E links of column 7 present a beat at cycle c (R184). -/
def Grid.presents (g : Grid) (c : Nat) : List Nat :=
  (List.range 8).filter fun p => g.results.any fun r => r.el == 8 * p + 7 && r.due + 1 == c && r.links.getLsbD 1

/-- GRID_CONTEXT_EXECUTE: beats presented in this cycle are accepted (R130, R184), then the contexts execute. -/
def tryContexts (s : State) : Try :=
  let now := s.core.now
  let (t, ks) := (s.core.grid.presents now).foldl (fun (t, ks) p =>
    match acceptBeat t p ((s.core.grid.el (8 * p + 7)).links.getD 1 0#128) with
    | .inl (k, _) =>
      let alone := match acceptBeat s p ((s.core.grid.el (8 * p + 7)).links.getD 1 0#128) with
        | .inl (_, u) => u
        | .inr u => u
      (t, ks ++ [(k, alone)])
    | .inr u => (u, ks)) (s, [])
  let (ms, g) := t.core.grid.cycle now
  let ks := ks ++ ms.map fun e => (bareStop s 3 (2 + e / 8) .schedule 0xFFFF, s)
  tryAll s ks [] (t.modGrid fun _ => g)

/-- GRID_CONTEXT_EXECUTE (R186). -/
def execGridContextExecute (s : State) : Out := finish s (tryContexts s)

/-! Results (R190, R192). -/

/-- A segment of an edge buffer is written, and its side's mark set where the write asks it (R192). -/
def Grid.putSeg (g : Grid) (grad : Bool) (k : Nat) (mark : Bool) (v : W128) : Grid :=
  if grad then { g with geb := g.geb.set k v, gmark := g.gmark || mark }
  else { g with aeb := g.aeb.set k v, amark := g.amark || mark }

/-- One result lands (R187, R188). -/
def Grid.land (g : Grid) (r : GridRes) : Grid :=
  let g := g.modEl r.el fun x => { x with
    rf := match r.rf with
      | some k => x.rf.set k r.val
      | none => x.rf
    links := x.links.mapIdx fun d v => if r.links.getLsbD d then r.val else v }
  match r.seg with
  | some (grad, k, m) => g.putSeg grad k m r.val
  | none => g

/-- Whether two of several results write one segment (R192). -/
def segClash : List GridRes → Bool
  | [] => false
  | r :: l => (match r.seg with
      | some (a, k, _) => l.any fun q => match q.seg with
        | some (b, j, _) => a == b && k == j
        | none => false
      | none => false) || segClash l

/-- GRID_RESULT_LAND (R190): results due land, the later executed last; those that a store port takes are kept for
one more cycle. -/
def tryResultLand (s : State) : Try :=
  let now := s.core.now
  let due := s.core.grid.results.filter fun r => r.due == now
  if segClash due then .stop (bareStop s 3 2 .command 0xFFFF)
  else
    let fl := due.foldl (fun f r => f ||| r.flags) 0#8
    .ok ((s.modGrid fun g => { due.foldl Grid.land g with
        results := g.results.filter fun r => decide (now < r.due) || (r.due == now && r.el % 8 == 7 && r.links.getLsbD 1) }
      ).modCtx fun x => x.raise fl)

/-- GRID_RESULT_LAND (R190). -/
def execGridResultLand (s : State) : Out := finish s (tryResultLand s)

/-! The done tree (R198, R211). -/

/-- SINK_FINISH: the sinks due emit their markers; the last of them starts the done tree's four levels. -/
def execSinkFinish (s : State) : Out :=
  let now := s.core.now
  .next (s.modGrid fun g =>
    if g.sinks.any fun x => x.2 == now then
      g.await (g.sinks.filter fun x => x.2 != now) (now + 4)
    else g)

/-- GRID_DONE: the grid-done bit is set at its cycle. -/
def execGridDone (s : State) : Out :=
  .next (s.modGrid fun g => if g.doneAt = some s.core.now then { g with doneBit := true, doneAt := none } else g)

end Sys2Proof.Machine
end

