-- ==== Sys2Proof/Machine/Vector.lean ====
section
/-! DEFINITION. Passes of the grid datapath (R200-R207, R212-R222): vector words, reductions, conversions, chains. -/

namespace Sys2Proof.Machine

/-! Chains (R219-R221). -/

/-- Fields of an operation descriptor (R220). -/
def opOp (d : Lit) : Nat := bitsOf d.toNat 0 7
def opT (d : Lit) : Nat := bitsOf d.toNat 7 3
def opFA (d : Lit) : BitVec 5 := BitVec.ofNat 5 (bitsOf d.toNat 10 5)
def opFB (d : Lit) : BitVec 5 := BitVec.ofNat 5 (bitsOf d.toNat 15 5)
def opB (d : Lit) : Nat := bitsOf d.toNat 20 3
def opC (d : Lit) : Nat := bitsOf d.toNat 23 3

/-- The format a chain's source has (R221). -/
def chainSrc (ops : List Lit) : BitVec 5 :=
  match ops with
  | [] => 1#5
  | d :: _ => if opOp d = 0x20 then opFA d else laneFmt (opT d)

/-- The format a value has after an operation. -/
def opOut (d : Lit) : BitVec 5 := if opOp d = 0x20 then opFB d else laneFmt (opT d)

/-- The format a chain's destination has (R221). -/
def chainDst (ops : List Lit) : BitVec 5 := (ops.getLast?.map opOut).getD 1#5

/-- The formats under which a chain selects src2. -/
def chainS2 (ops : List Lit) : List (BitVec 5) :=
  ops.filterMap fun d => if opOp d ≠ 0x20 ∧ (opB d = 1 ∨ opC d = 1) then some (laneFmt (opT d)) else none

/-- R221's rules for one operation that meets a value of format v. -/
def opOk (src v : BitVec 5) (first last : Bool) (d : Lit) : Bool :=
  let op := opOp d
  if op = 0x20 then
    let fa := opFA d
    let fb := opFB d
    let banned (f : BitVec 5) : Bool := f == 0x12#5 || f == 0x13#5
    fa == v && opB d == 0 && opC d == 0 && !banned fa && !banned fb && fb != 9#5 && fb != 10#5
    && (isLaneFmt fa || (first && isLaneFmt fb)) && (isLaneFmt fb || last)
  else
    let t := laneFmt (opT d)
    t == v && (usesB op == (opB d != 0)) && (usesC op 0#5 0#5 == (opC d != 0))
    && !((opB d == 2 || opC d == 2) && src != t)

/-- R221's rules along a chain. -/
def chainOps (src : BitVec 5) : Bool → BitVec 5 → List Lit → Bool
  | _, _, [] => true
  | first, v, d :: r => opOk src v first r.isEmpty d && chainOps src false (opOut d) r

/-- R221's rules, but for the counts. -/
def chainOk (src2 : Bool) (ops : List Lit) : Bool :=
  let s2 := chainS2 ops
  chainOps (chainSrc ops) true (chainSrc ops) ops && src2 == !s2.isEmpty
  && s2.all fun f => some f == s2.head?

/-- One element through a chain (R221). -/
def chainEl (md : BitVec 2) (x y : W64) : List Lit → W64 → Byte → W64 × Byte
  | [], v, fl => (v, fl)
  | d :: r, v, fl =>
    let sel (k : Nat) : W64 := match k with
      | 1 => y
      | 2 => x
      | _ => 0#64
    let (u, g) := if opOp d = 0x20 then convEl (opFA d) (opFB d) md v
      else elemOp (opOp d) (laneFmt (opT d)) md ((opFA d).toNat % 16) v (sel (opB d)) (sel (opC d))
    chainEl md x y r u (fl ||| g)

/-! Passes. -/

/-- Width of an element as R205's W counts it. -/
def passWidth (f : BitVec 5) : Nat := if fmtWidth f = 6 then 8 else fmtWidth f

/-- Whether every byte of n elements of width w of a region lies below the grant (R204). -/
def regionInside (grant : Nat) (r : Region) (w n : Nat) : Bool :=
  if n = 0 then true
  else
    let rows := (n * w - 1) / 1024 + 1
    let tail := (n * w - (rows - 1) * 1024 + 7) / 8
    let row (k len : Nat) : Bool :=
      let a := (regBase r : Int) + k * regStride r
      decide (0 ≤ a) && decide (a + len ≤ grant)
    row (rows - 1) tail && (rows == 1 || (row 0 128 && row (rows - 2) 128))

/-- Whether a region moves whole rows (R201). -/
def Region.whole (r : Region) : Bool := regBase r % 128 == 0 && r.stride.toNat % 8 == 0

/-- The formats of a pass's sources. -/
def Pass.srcFmts (p : Pass) : List (BitVec 5) :=
  match p.op with
  | .chain ops => [p.fmt, (chainS2 ops).headD p.fmt]
  | _ => [p.fmt, p.fmt, p.fmt]

/-- Whether a pass writes once, at its end. -/
def PassOp.once : PassOp → Bool
  | .sum => true
  | .dot _ => true
  | _ => false

/-- Whether a pass reads its source twice (R218). -/
def PassOp.twice : PassOp → Bool
  | .nqenc _ => true
  | _ => false

/-- A pass issued at t: n elements, d cycles from a read to its write (R205, R215, R216, R218). -/
def mkPass (t : Nat) (supv : Bool) (op : PassOp) (fs fd : BitVec 5) (md : BitVec 2) (pred : BitVec 3) (dst : Region)
    (srcs : List Region) (w n d : Nat) : Pass :=
  let g := 1024 / w
  let steps := (n + g - 1) / g * (if op.twice then 2 else 1)
  let h := if (dst :: srcs).all Region.whole then 1 else 2
  { t := t, op := op, fmt := fs, dfmt := fd, rnd := md, pred := pred, dst := dst, srcs := srcs, n := n, g := g
    steps := steps, h := h, d := d, bufs := [], acc := XAcc.empty, accI := 0, flags := 0#8
    done := if steps = 0 then (if op.once then t + d + 1 else t) else t + 1 + (steps - 1) * h + d, supv := supv }

/-- The last cycle of a pass's reading window. -/
def Pass.windowEnd (p : Pass) : Nat := if p.steps = 0 then p.t else p.t + 1 + (p.steps - 1) * p.h

/-- A vector or chain word issues, or stops (R204, R206, R222): `rules` are the rules of its entry; regions with their
formats. -/
def tryPass (i : BitVec 4) (rules : Bool) (regs : List (Region × BitVec 5)) (p : Pass) (s : State) : Try :=
  let c := s.core
  let g := c.grid
  let strides := regs.all fun r => fmtWidth r.2 != 6 || r.1.stride == 8#13
  let inside := regs.all fun (r, f) => regionInside c.lmGrant r (fmtWidth f) r.count.toNat
  if !g.doneBit || (g.passes.any fun q => decide (c.now < q.windowEnd)) || !rules || !strides then
    .stop (plainStop s 3 .command)
  else if !inside then .stop (plainStop s 3 .bounds)
  else .ok ((s.issued 3 1 i).modGrid fun g => { g with passes := g.passes ++ [p] })

/-- An element-wise word (R212, R213): the operation, by R190's code, on the elements of its sources. -/
def tryMap (i : BitVec 4) (op : Nat) (f : BitVec 5) (md : BitVec 2) (pred : BitVec 3) (dst : Region)
    (srcs : List Region) (s : State) : Try :=
  tryPass i (srcs.all fun r => r.count == dst.count) ((dst :: srcs).map fun r => (r, f))
    (mkPass s.core.now s.core.ctx.sup (.bin op) f f md pred dst srcs (passWidth f) dst.count.toNat (3 + opLat op)) s

/-- GR_VADD (R213). -/
def execGrVadd (i : BitVec 4) (f : BitVec 5) (md : BitVec 2) (dst a b : Region) (s : State) : Out :=
  finish s (tryMap i 0x02 f md 0#3 dst [a, b] s)
/-- GR_VSUB (R213). -/
def execGrVsub (i : BitVec 4) (f : BitVec 5) (md : BitVec 2) (dst a b : Region) (s : State) : Out :=
  finish s (tryMap i 0x03 f md 0#3 dst [a, b] s)
/-- GR_VMUL (R213). -/
def execGrVmul (i : BitVec 4) (f : BitVec 5) (md : BitVec 2) (dst a b : Region) (s : State) : Out :=
  finish s (tryMap i 0x04 f md 0#3 dst [a, b] s)
/-- GR_VMIN (R213). -/
def execGrVmin (i : BitVec 4) (f : BitVec 5) (dst a b : Region) (s : State) : Out :=
  finish s (tryMap i 0x06 f 0#2 0#3 dst [a, b] s)
/-- GR_VMAX (R213). -/
def execGrVmax (i : BitVec 4) (f : BitVec 5) (dst a b : Region) (s : State) : Out :=
  finish s (tryMap i 0x07 f 0#2 0#3 dst [a, b] s)
/-- GR_VAND (R213). -/
def execGrVand (i : BitVec 4) (f : BitVec 5) (dst a b : Region) (s : State) : Out :=
  finish s (tryMap i 0x10 f 0#2 0#3 dst [a, b] s)
/-- GR_VOR (R213). -/
def execGrVor (i : BitVec 4) (f : BitVec 5) (dst a b : Region) (s : State) : Out :=
  finish s (tryMap i 0x11 f 0#2 0#3 dst [a, b] s)
/-- GR_VXOR (R213). -/
def execGrVxor (i : BitVec 4) (f : BitVec 5) (dst a b : Region) (s : State) : Out :=
  finish s (tryMap i 0x12 f 0#2 0#3 dst [a, b] s)
/-- GR_VSADD (R213). -/
def execGrVsadd (i : BitVec 4) (f : BitVec 5) (dst a b : Region) (s : State) : Out :=
  finish s (tryMap i 0x40 f 0#2 0#3 dst [a, b] s)
/-- GR_VCMP (R213). -/
def execGrVcmp (i : BitVec 4) (f : BitVec 5) (pr : BitVec 3) (dst a b : Region) (s : State) : Out :=
  finish s (tryMap i 0x0B f 0#2 pr dst [a, b] s)
/-- GR_VFMA (R213). -/
def execGrVfma (i : BitVec 4) (f : BitVec 5) (md : BitVec 2) (dst a b c : Region) (s : State) : Out :=
  finish s (tryMap i 0x05 f md 0#3 dst [a, b, c] s)
/-- GR_VSEL (R213). -/
def execGrVsel (i : BitVec 4) (f : BitVec 5) (dst a b c : Region) (s : State) : Out :=
  finish s (tryMap i 0x0A f 0#2 0#3 dst [a, b, c] s)
/-- GR_VABS (R213). -/
def execGrVabs (i : BitVec 4) (f : BitVec 5) (dst a : Region) (s : State) : Out :=
  finish s (tryMap i 0x08 f 0#2 0#3 dst [a] s)
/-- GR_VNEG (R213). -/
def execGrVneg (i : BitVec 4) (f : BitVec 5) (dst a : Region) (s : State) : Out :=
  finish s (tryMap i 0x09 f 0#2 0#3 dst [a] s)
/-- GR_VRCP (R213). -/
def execGrVrcp (i : BitVec 4) (f : BitVec 5) (md : BitVec 2) (dst a : Region) (s : State) : Out :=
  finish s (tryMap i 0x18 f md 0#3 dst [a] s)
/-- GR_VRSQRT (R213). -/
def execGrVrsqrt (i : BitVec 4) (f : BitVec 5) (md : BitVec 2) (dst a : Region) (s : State) : Out :=
  finish s (tryMap i 0x19 f md 0#3 dst [a] s)
/-- GR_VEXP2 (R213). -/
def execGrVexp2 (i : BitVec 4) (f : BitVec 5) (md : BitVec 2) (dst a : Region) (s : State) : Out :=
  finish s (tryMap i 0x1A f md 0#3 dst [a] s)
/-- GR_VLOG2 (R213). -/
def execGrVlog2 (i : BitVec 4) (f : BitVec 5) (md : BitVec 2) (dst a : Region) (s : State) : Out :=
  finish s (tryMap i 0x1B f md 0#3 dst [a] s)
/-- GR_VTANH (R213). -/
def execGrVtanh (i : BitVec 4) (f : BitVec 5) (md : BitVec 2) (dst a : Region) (s : State) : Out :=
  finish s (tryMap i 0x1C f md 0#3 dst [a] s)

/-- GR_VFILL (R214). -/
def execGrVfill (i : BitVec 4) (f : BitVec 5) (dst : Region) (v : W32) (s : State) : Out :=
  finish s (tryPass i true [(dst, f)]
    (mkPass s.core.now s.core.ctx.sup (.fill v) f f 0#2 0#3 dst [] (passWidth f) dst.count.toNat 4) s)

/-- GR_VSUM (R215). -/
def execGrVsum (i : BitVec 4) (f : BitVec 5) (md : BitVec 2) (dst a : Region) (s : State) : Out :=
  finish s (tryPass i (dst.count == 1#16) [(dst, f), (a, f)]
    (mkPass s.core.now s.core.ctx.sup .sum f f md 0#3 dst [a] (passWidth f) a.count.toNat 7) s)

/-- GR_VSCAN (R215). -/
def execGrVscan (i : BitVec 4) (f : BitVec 5) (md : BitVec 2) (dst a : Region) (s : State) : Out :=
  finish s (tryPass i (dst.count == a.count) [(dst, f), (a, f)]
    (mkPass s.core.now s.core.ctx.sup .scan f f md 0#3 dst [a] (passWidth f) a.count.toNat 6) s)

/-- GR_VDOT (R216). -/
def execGrVdot (i : BitVec 4) (fs fd : BitVec 5) (md : BitVec 2) (dst a b : Region) (s : State) : Out :=
  finish s (tryPass i (dst.count == 1#16 && a.count == b.count) [(dst, fd), (a, fs), (b, fs)]
    (mkPass s.core.now s.core.ctx.sup (.dot fd) fs fd md 0#3 dst [a, b] (passWidth fs) a.count.toNat 8) s)

/-- GR_VCVT (R217). -/
def execGrVcvt (i : BitVec 4) (fs fd : BitVec 5) (md : BitVec 2) (dst a : Region) (s : State) : Out :=
  finish s (tryPass i (dst.count == a.count) [(dst, fd), (a, fs)]
    (mkPass s.core.now s.core.ctx.sup (.cvt fd) fs fd md 0#3 dst [a] (max (passWidth fs) (passWidth fd))
      a.count.toNat 5) s)

/-- The records of n elements as a contiguous region of bytes (R54). -/
def nqBytes (fd : BitVec 5) (n : Nat) : Nat := (n + 16383) / 16384 * recordSize fd

/-- `gr.vnqenc` (R218): its destination is records, whose bytes must lie within the grant. -/
def tryNqenc (i : BitVec 4) (fs fd : BitVec 5) (dst a : Region) (s : State) : Try :=
  let n := a.count.toNat
  let rules := dst.count == a.count && regBase dst % 128 == 0 && dst.stride == 8#13
  let p := mkPass s.core.now s.core.ctx.sup (.nqenc fd) fs fd 0#2 0#3 dst [a] (passWidth fs) n 6
  match tryPass i rules [(a, fs)] p s with
  | .ok t => if n = 0 ∨ regBase dst + nqBytes fd n ≤ s.core.lmGrant then .ok t else .stop (plainStop s 3 .bounds)
  | x => x

/-- GR_VNQENC (R218). -/
def execGrVnqenc (i : BitVec 4) (fs fd : BitVec 5) (dst a : Region) (s : State) : Out :=
  finish s (tryNqenc i fs fd dst a s)

/-- GR_CHAIN (R219-R221). -/
def execGrChain (i : BitVec 4) (md : BitVec 2) (dst src : Region) (src2 : Option Region) (ops : List Lit)
    (s : State) : Out :=
  let fs := chainSrc ops
  let fd := chainDst ops
  let f2 := (chainS2 ops).headD fs
  let srcs := src :: src2.toList
  let w := (match src2 with
    | some _ => max (passWidth f2) (max (passWidth fs) (passWidth fd))
    | none => max (passWidth fs) (passWidth fd))
  finish s (tryPass i ((srcs.all fun r => r.count == dst.count) && chainOk src2.isSome ops)
    ((dst, fd) :: (src, fs) :: src2.toList.map fun r => (r, f2))
    (mkPass s.core.now s.core.ctx.sup (.chain ops) fs fd md 0#3 dst srcs w dst.count.toNat
      (3 + (ops.map fun d => opLat (opOp d)).foldl (· + ·) 0)) s)

/-! Reading steps (R205, R207). -/

/-- The elements of a step. -/
def Pass.stepEls (p : Pass) (j : Nat) : List Nat :=
  let per := if p.op.twice then p.steps / 2 else p.steps
  let k := if p.op.twice then j % per else j
  (List.range p.g).filterMap fun e => if k * p.g + e < p.n then some (k * p.g + e) else none

/-- An element as the datapath reads it: of an FP19 container bits [12:0] are ignored (R50). -/
def cleanEl (f : BitVec 5) (v : W64) : W64 := if f = 2#5 then v >>> 13 <<< 13 else v

/-- Read elements of a region. -/
def Core.readEls (c : Core) (sup : Bool) (r : Region) (f : BitVec 5) (es : List Nat) : List W64 :=
  es.map fun e => cleanEl f (c.lmBits sup (regBit r (fmtWidth f) e).toNat (fmtWidth f))

/-- The magnitude of a finite element as a code; 0 for others (R218's amax). -/
def finMag (f : BitVec 5) (v : W64) : Nat :=
  match (toVal f v).1 with
  | .fin _ _ => v.toNat % 2 ^ (fmtWidth f - 1)
  | _ => 0

/-- One product of `gr.vdot` (R216). -/
def dotTerm (f : BitVec 5) (x y : W64) : Val × Byte :=
  let (p, g) := Val.mul (toVal f x).1 (toVal f y).1
  if f = 0#5 then
    let (r, h) := rnd 0#5 0#2 p
    ((toVal 0#5 r).1, g ||| h)
  else (p, g)

/-- Whether the accumulator of a pass is XD (R215, R216). -/
def Pass.wide (p : Pass) : Bool :=
  match p.op with
  | .dot _ => true
  | _ => p.fmt == 0#5

/-- A pass takes step j with the elements read. -/
def Pass.take (p : Pass) (j : Nat) (els : List (List W64)) : Pass :=
  let a := els.getD 0 []
  let b := els.getD 1 []
  let int := (intRange p.fmt).isSome
  match p.op with
  | .sum =>
    if int then { p with accI := a.foldl (fun q x => q + elInt p.fmt x) p.accI }
    else { p with acc := a.foldl (fun q x => q.add p.wide (toVal p.fmt x).1) p.acc }
  | .dot _ =>
    if int then { p with accI := (a.zip b).foldl (fun q (x, y) => q + elInt p.fmt x * elInt p.fmt y) p.accI }
    else (a.zip b).foldl (fun p (x, y) =>
      let (v, g) := dotTerm p.fmt x y
      { p with acc := p.acc.add true v, flags := p.flags ||| g }) p
  | .nqenc _ =>
    if j < p.steps / 2 then { p with bufs := p.bufs ++ [(j, [[BitVec.ofNat 64 ((a.map (finMag p.fmt)).foldl max 0)]])] }
    else { p with bufs := p.bufs ++ [(j, [a])] }
  | _ => { p with bufs := p.bufs ++ [(j, els)] }

/-- The step a pass reads at cycle c. -/
def Pass.readsAt (p : Pass) (c : Nat) : Option Nat :=
  if p.t + 1 ≤ c ∧ (c - p.t - 1) % p.h = 0 ∧ (c - p.t - 1) / p.h < p.steps then some ((c - p.t - 1) / p.h) else none

/-- A pass reads the step due at cycle t. -/
def Pass.readStep (c : Core) (t : Nat) (p : Pass) : Pass :=
  match p.readsAt t with
  | none => p
  | some j => p.take j ((p.srcs.zip p.srcFmts).map fun (r, f) => c.readEls p.supv r f (p.stepEls j))

/-- PASS_STEP_READ (R205, R207): every pass whose step is due reads its sources. -/
def execPassStepRead (s : State) : Out :=
  let c := s.core
  .next (s.modGrid fun g => { g with passes := g.passes.map (Pass.readStep c c.now) })

/-! Writing steps (R205, R207, R215, R216, R218). -/

/-- Element e of a pass that works element by element. -/
def Pass.el (p : Pass) (xs : List W64) : W64 × Byte :=
  let x := xs.getD 0 0#64
  let y := xs.getD 1 0#64
  match p.op with
  | .bin op => elemOp op p.fmt p.rnd p.pred.toNat x y (xs.getD 2 0#64)
  | .fill v =>
    -- no flag, of a reserved TER2 code either, which is written as 0 (R52; DEDUCED, log entry 61)
    (if p.fmt = 0#5 then (Machine.rnd 0#5 0#2 (toVal 1#5 (v.setWidth 64)).1).1
      else (terCode p.fmt (lowBits (fmtWidth p.fmt) (v.setWidth 64))).1, 0#8)
  | .cvt fd => convEl p.fmt fd p.rnd x
  | .chain ops => chainEl p.rnd x y ops x 0#8
  | _ => (0#64, 0#8)

/-- Write element e of the destination (R203, R212). -/
def Core.writeEl (c : Core) (p : Pass) (e : Nat) (v : W64) : Core :=
  let w := fmtWidth p.dfmt
  c.lmPutBits p.supv (regBit p.dst w e).toNat w (cleanEl p.dfmt v).toNat

/-- The rounded or clamped total of a reduction (R215, R216). -/
def Pass.total (p : Pass) (acc : XAcc) (accI : Int) : W64 × Byte :=
  if (intRange p.fmt).isSome then Machine.rnd p.dfmt 0#2 (Val.mk' accI 1 false) else acc.out p.wide p.dfmt p.rnd

/-- One step of a scan: each prefix rounded on its own (R215). -/
def scanStep (p : Pass) : List (Nat × W64) → Core → Byte → Pass × Core × Byte
  | [], c, fl => (p, c, fl)
  | (e, x) :: r, c, fl =>
    let p := if (intRange p.fmt).isSome then { p with accI := p.accI + elInt p.fmt x }
      else { p with acc := p.acc.add p.wide (toVal p.fmt x).1 }
    let (v, g) := p.total p.acc p.accI
    scanStep p r (c.writeEl p e v) (fl ||| g)

/-- R218's amax of block b, as a magnitude code, from the first reading. -/
def Pass.amax (p : Pass) (b : Nat) : Nat :=
  (p.bufs.filterMap fun (j, l) =>
    if j < p.steps / 2 ∧ j * p.g / 64 = b then some ((l.headD []).headD 0#64).toNat else none).foldl max 0

/-- A magnitude code as a fraction. -/
def magFrac (f : BitVec 5) (m : Nat) : Frac :=
  match (toVal f (BitVec.ofNat 64 m)).1 with
  | .fin n d => (n, d)
  | _ => (0, 1)

/-- R218's G of record r. -/
def Pass.scaleG (p : Pass) (r : Nat) : W32 :=
  let g := ((List.range 256).map fun b => p.amax (256 * r + b)).foldl max 0
  let (n, d) := magFrac p.fmt g
  if g = 0 then 0x3F800000#32 else (Machine.rnd 1#5 2#2 (.fin n (d * 255))).1.setWidth 32

/-- R218's q of block b under G. -/
def Pass.scaleQ (p : Pass) (g : W32) (b : Nat) : Byte :=
  let a := p.amax b
  if a = 0 then 0#8
  else
    let x := fdiv (magFrac p.fmt a) (magFrac 1#5 g.toNat)
    BitVec.ofNat 8 (-(ffloor (fmul (fint (-1)) x))).toNat

/-- The code of an element (R56, R218). -/
def nqElCode (fs fd : BitVec 5) (q : Byte) (g : W32) (v : W64) : Nat × Byte :=
  let x := (toVal fs v).1
  if q = 0#8 then
    (if x.neg then (if fd = 0x13#5 then 4 else 8) else 0, match x with
      | .nan => fIV
      | .inf _ => fIV
      | _ => 0#8)
  else nqEncode fd x (fmul (fint q.toNat) (magFrac 1#5 g.toNat))

/-- Put the code of element k of the record at a. -/
def Core.putCode (c : Core) (sup : Bool) (fd : BitVec 5) (a k v : Nat) : Core :=
  c.lmPutBits sup (8 * a + fmtWidth fd * k) (fmtWidth fd) v

/-- The codes of one step of the second reading (R218). -/
def encStep (p : Pass) (fd : BitVec 5) (es : List (Nat × W64)) (c : Core) : Core × Byte :=
  es.foldl (fun (c, fl) (e, v) =>
    let r := e / 16384
    let g := p.scaleG r
    let (k, f) := nqElCode p.fmt fd (p.scaleQ g (e / 64)) g v
    (c.putCode p.supv fd (regBase p.dst + r * recordSize fd) (e % 16384) k, fl ||| f)) (c, 0#8)

/-- The scales, G and zeros of record r, written with its last code step (R54, R218). -/
def encRecord (p : Pass) (fd : BitVec 5) (c : Core) (r : Nat) : Core :=
  let a := regBase p.dst + r * recordSize fd
  let g := p.scaleG r
  let used := min 16384 (p.n - r * 16384)
  let c := (List.range (16384 - used)).foldl (fun c k => c.putCode p.supv fd a (used + k) 0) c
  let qs := (List.range 256).map fun b => if 64 * b < used then p.scaleQ g (256 * r + b) else 0#8
  let tail := recordSize fd - recordCodes fd - 260
  c.landBytes p.supv (a + recordCodes fd) (qs ++ natLe 4 g.toNat ++ List.replicate tail 0#8)

/-- The records whose last codes lie among the elements of a step. -/
def Pass.closing (p : Pass) (es : List Nat) : List Nat :=
  (es.filter fun e => e % 16384 == 16383 || e + 1 == p.n).map fun e => e / 16384

/-- A pass writes the step due at cycle c (R205): the pass, the core, the flags. -/
def Pass.write (p : Pass) (k : Core) (c : Nat) : Pass × Core × Byte :=
  if p.op.once then
    if p.done = c then
      let (v, g) := p.total p.acc p.accI
      (p, k.writeEl p 0 v, p.flags ||| g)
    else (p, k, 0#8)
  else
    match (if p.d ≤ c then p.readsAt (c - p.d) else none) with
    | none => (p, k, 0#8)
    | some j =>
      let es := p.stepEls j
      let els := ((p.bufs.find? fun b => b.1 == j).map Prod.snd).getD []
      let drop (p : Pass) : Pass := { p with bufs := p.bufs.filter fun b => b.1 != j }
      match p.op with
      | .nqenc fd =>
        if j < p.steps / 2 then (p, k, 0#8)
        else
          let (k, fl) := encStep p fd (es.zip (els.headD [])) k
          (drop p, (p.closing es).foldl (encRecord p fd) k, fl)
      | .scan =>
        let (p, k, fl) := scanStep p (es.zip (els.headD [])) k 0#8
        (drop p, k, fl)
      | _ =>
        let (k, fl) := (es.mapIdx fun i e => (e, els.map fun l => l.getD i 0#64)).foldl (fun (k, fl) (e, xs) =>
          let (v, g) := p.el xs
          (k.writeEl p e v, fl ||| g)) (k, 0#8)
        (drop p, k, fl)

/-- PASS_STEP_WRITE (R205-R207): the steps due are written, the later word last; a pass that is done leaves. -/
def execPassStepWrite (s : State) : Out :=
  let now := s.core.now
  let (ps, k, fl) := s.core.grid.passes.foldl (fun (ps, k, fl) p =>
    let (p, k, g) := Pass.write p k now
    (ps ++ [p], k, fl ||| g)) ([], s.core, 0#8)
  .next (s.mod fun _ => { k with
    grid := { k.grid with passes := ps.filter fun p => decide (now < p.done) }, ctx := k.ctx.raise fl })

end Sys2Proof.Machine
end

