-- ==== Sys2Proof/Machine/Array.lean ====
section
/-! DEFINITION. The counter-flow array (R148-R182): its formats, the step of a cell, fronts, the drain stage and the
histogram, loads of the shadow plane, and the array words. -/

namespace Sys2Proof.Machine

/-! Formats (R161). -/

/-- The families of R161. -/
def isF8 (f : BitVec 5) : Bool := decide (5 ≤ f.toNat) && decide (f.toNat ≤ 8)
def isF6 (f : BitVec 5) : Bool := decide (9 ≤ f.toNat) && decide (f.toNat ≤ 11)
def isNqFmt (f : BitVec 5) : Bool := f == 0x12#5 || f == 0x13#5
def isI8 (f : BitVec 5) : Bool := f == 0x0D#5 || f == 0x0E#5
def isI4 (f : BitVec 5) : Bool := f == 0x0F#5 || f == 0x10#5 || f == 0x11#5

/-- The packing k of a resident format. -/
def packK (f : BitVec 5) : Nat :=
  if isF8 f || isI8 f then 2 else if isF6 f || isI4 f || isNqFmt f then 4 else 1

/-- The accumulation format of a resident format: FP64, FP32 or INT32. -/
def accFmtOf (f : BitVec 5) : BitVec 5 :=
  if f = 0#5 then 0#5 else if f = 0x0C#5 || isI8 f || isI4 f then 0x14#5 else 1#5

/-- Whether an operand format stands in the row of a resident format, and the spacing of that row. -/
def operandRow (res f : BitVec 5) : Option Nat :=
  let small (f : BitVec 5) : Bool := isF8 f || isF6 f
  match res.toNat with
  | 0x00 => if f = 0#5 then some 16 else none
  | 0x01 => if 1 ≤ f.toNat ∧ f.toNat ≤ 4 then some 4 else none
  | 0x02 | 0x03 | 0x04 => if 2 ≤ f.toNat ∧ f.toNat ≤ 4 then some 1 else none
  | 0x0C => if f = 0x0C#5 || isI8 f then some 1 else none
  | 0x05 | 0x06 | 0x07 | 0x08 => if isF8 f then some 1 else none
  | 0x0D | 0x0E => if isI8 f then some 1 else none
  | 0x09 | 0x0A | 0x0B => if small f then some 1 else none
  | 0x0F | 0x10 | 0x11 => if isI8 f || isI4 f then some 1 else none
  | 0x12 | 0x13 => if small f then some 1 else if f = 3#5 ∨ f = 4#5 then some 4 else none
  | _ => none

/-- The spacing of the row that a resident format and a front's formats form. -/
def rowSpacing (res af gf : BitVec 5) : Option Nat :=
  match operandRow res af, operandRow res gf with
  | some a, some b => if a = b then some a else none
  | _, _ => none

/-- The smallest spacing of a resident format's rows (R154). -/
def leastSpacing (res : BitVec 5) : Nat := if res = 0#5 then 16 else if res = 1#5 then 4 else 1

/-- The output formats of a resident format's row (R161). -/
def outOk (res f : BitVec 5) : Bool :=
  match (accFmtOf res).toNat with
  | 0x00 => f == 0#5 || f == 1#5 || f == 3#5 || f == 4#5
  | 0x14 => f == 0x14#5 || f == 0x0C#5 || isI8 f
  | _ => decide (1 ≤ f.toNat) && decide (f.toNat ≤ 8)

/-- Whether a front's formats form a row of R161 at a cell. -/
def ArrSet.fits (x : ArrSet) (res : BitVec 5) : Bool :=
  (rowSpacing res x.afmt x.gfmt).isSome && outOk res x.ofmt

/-! Cells (R148-R158). -/

/-- Element k of a list of codes. -/
def codeAt (l : List W64) (k : Nat) : W64 := l.getD k 0#64

/-- The value of weight m of a plane (R162). -/
def Plane.val (p : Plane) (m : Nat) : Val :=
  if isNqFmt p.fmt then nqValue p.fmt (codeAt p.w m).toNat p.nq p.g else (toVal p.fmt (codeAt p.w m)).1

/-- Zero accumulators for a plane (R157). -/
def zeroAcc (f : BitVec 5) : List W64 := List.replicate (packK f) 0#64

/-- Products added to a sum, m ascending (R63, R64, R150). -/
def accRun (af : BitVec 5) (s : W64) : List (Val × Val) → W64 × Byte
  | [] => (s, 0#8)
  | (w, x) :: r =>
    let (t, f) := accStep af s w x
    let (u, g) := accRun af t r
    (u, f ||| g)

/-- W - eta * d, rounded once into the resident format (R156, R157). -/
def stepWeight (f : BitVec 5) (w eta d : Val) : W64 × Byte :=
  let (t, a) := Val.mul eta d
  let (r, b) := Val.add 0#2 w t.minus
  let (c, g) := rnd f 0#2 r
  (c, a ||| b ||| g)

/-- An FP32 setting as a value. -/
def setVal (v : W32) : Val := (toVal 1#5 (v.setWidth 64)).1

/-- Replace the weights of the active plane. -/
def Cell.putW (c : Cell) (l : List (W64 × Byte)) : Cell := { c with act := { c.act with w := l.map Prod.fst } }

/-- All flags of a list. -/
def flagsOf (l : List (W64 × Byte)) : Byte := l.foldl (fun g x => g ||| x.2) 0#8

/-- An A front at a cell (R157). -/
def Cell.applyA (c : Cell) (x : ArrSet) : Cell × Byte :=
  let f := c.act.fmt
  let l := (List.range (packK f)).map fun m =>
    let w := c.act.val m
    let (t, a) := Val.mul (setVal x.fade) w
    let (u, b) := Val.add 0#2 (toVal (accFmtOf f) (codeAt c.acc m)).1 t
    let (r, g) := stepWeight f w (setVal x.eta) u
    (r, a ||| b ||| g)
  ({ c.putW l with acc := zeroAcc f, v := c.v + 1#16 }, flagsOf l)

/-- An S front at a cell (R157). -/
def Cell.swap (c : Cell) : Cell :=
  let o := c.act.fmt
  let n := c.shadow.fmt
  { c with act := c.shadow, shadow := c.act, v := c.v + 1#16
           acc := if accFmtOf o = accFmtOf n ∧ packK o = packK n then c.acc else zeroAcc n }

/-- A completed pair: activation operands with their format, the gradient operand, the completing front's settings. -/
structure Pair where
  xf : BitVec 5
  xs : List W64
  gf : BitVec 5
  g : W64
  set : ArrSet

/-- A completed pair acts (R156). -/
def Cell.pairUp (c : Cell) (p : Pair) : Cell × Byte :=
  let f := c.act.fmt
  let ms := List.range (packK f)
  let x (m : Nat) : Val := (toVal p.xf (codeAt p.xs m)).1
  let g := (toVal p.gf p.g).1
  match p.set.mode.toNat with
  | 1 =>
    let l := ms.map fun m =>
      let (d, a) := Val.mul (x m) g
      let (r, b) := stepWeight f (c.act.val m) (setVal p.set.eta) d
      (r, a ||| b)
    ({ c.putW l with v := c.v + 1#16 }, flagsOf l)
  | 2 =>
    let l := ms.map fun m => accStep (accFmtOf f) (codeAt c.acc m) (x m) g
    ({ c with acc := l.map Prod.fst }, flagsOf l)
  | _ => (c, 0#8)

/-- Whether a pair is a command fault on a cell's plane (R156). -/
def Pair.bad (p : Pair) (f : BitVec 5) : Bool :=
  p.set.mode != 0#2 && (isNqFmt f || p.xs.length != packK f)

/-- Whether a front reads operands (R153). -/
def Front.reads (f : Front) : Bool :=
  match f.kind with
  | .F => true
  | .R | .G => f.ce || f.pe
  | _ => false

/-- Whether a front computes (R153). -/
def Front.computes (f : Front) : Bool := f.kind == .F || ((f.kind == .R || f.kind == .G) && f.ce)

/-- The activation operands of a front at cell column j with packing k. -/
def Front.xs (f : Front) (j k : Nat) : List W64 := (List.range k).map fun m => codeAt f.ops (k * j + m)

/-- What a cell comes to in one cycle. -/
structure CellRes where
  fault : Option StopClass
  cell : Cell
  y : Option W64                     -- the y sum that leaves to the east
  dx : List W64                      -- the dx sums that leave to the north
  flags : Byte

/-- The change of pair slot p by the arrivals of this cycle (R155): overrun, the slot, completed pairs. -/
def pairSlot (s : Slot) (j k i : Nat) (a g : Option Front) : Bool × Slot × List (Bool × Pair) :=
  let xs (f : Front) : BitVec 5 × List W64 := (f.set.afmt, f.xs j k)
  let gv (f : Front) : BitVec 5 × W64 := (f.set.gfmt, codeAt f.ops i)
  match s, a, g with
  | .empty, some a, none => (false, .act (xs a).1 (xs a).2, [])
  | .empty, none, some g => (false, .grad (gv g).1 (gv g).2, [])
  | .empty, some a, some g => (false, .empty, [(true, ⟨(xs a).1, (xs a).2, (gv g).1, (gv g).2, g.set⟩)])
  | .act f x, none, some g => (false, .empty, [(true, ⟨f, x, (gv g).1, (gv g).2, g.set⟩)])
  | .grad f x, some a, none => (false, .empty, [(false, ⟨(xs a).1, (xs a).2, f, x, a.set⟩)])
  | .act _ _, some _, _ => (true, s, [])
  | .grad _ _, _, some _ => (true, s, [])
  | s, none, none => (false, s, [])

/-- One cycle of cell (i, j) with the fronts at it (R150, R155-R158, R161, R177). A cell with several causes in one cycle
records one: a command fault, else a pair overrun, else a bad pair (R168 orders cells only; DESIGN CHOICE, log entry 62). -/
def cellStep (i j : Nat) (c : Cell) (fa fg : Option Front) (clra : Bool) : CellRes :=
  let res := c.act.fmt
  let k := packK res
  let af := accFmtOf res
  let ra := fa.filter Front.reads
  let rg := fg.filter Front.reads
  let misfit := (ra.toList ++ rg.toList).any fun f => !f.set.fits res
  let onNq := isNqFmt res && fa.any fun f => f.kind == .A
  -- what is computed, from the state at the start of the cycle
  let (y, yf) : Option W64 × Byte := match ra.filter Front.computes with
    | none => (none, 0#8)
    | some f =>
      let (s, g) := accRun af (codeAt f.sums i) ((List.range k).map fun m => (c.act.val m, (toVal f.set.afmt (codeAt f.ops (k * j + m))).1))
      (some s, g)
  let dl : List (W64 × Byte) := match rg.filter Front.computes with
    | none => []
    | some f => (List.range k).map fun m =>
        accStep af (codeAt f.sums (k * j + m)) (c.act.val m) (toVal f.set.gfmt (codeAt f.ops i)).1
  -- pairs, slot by slot
  let off (f : Option Front) (p : Nat) : Option Front := f.filter fun x => x.pe && x.p == p
  let ps := (List.range 4).map fun p => pairSlot (c.slots.getD p .empty) j k i (off ra p) (off rg p)
  let overrun := ps.any fun x => x.1
  let pairs := ps.flatMap fun x => x.2.2
  let ordered := (pairs.filter fun x => !x.1) ++ (pairs.filter fun x => x.1)
  let c := { c with slots := ps.map fun x => x.2.1 }
  -- the end of the cycle: A or S front, clear, pairs
  let (c, uf) : Cell × Byte := match fa.map Front.kind, fa with
    | some .A, some f => if onNq then (c, 0#8) else c.applyA f.set
    | some .S, _ => (c.swap, 0#8)
    | _, _ => (c, 0#8)
  let c := if clra then { c with acc := zeroAcc c.act.fmt } else c
  let badPair := ordered.any fun x => x.2.bad c.act.fmt
  let (c, pf) := ordered.foldl (fun (c, g) x =>
    let (c, h) := c.pairUp x.2
    (c, g ||| h)) (c, 0#8)
  let fault := if misfit || onNq then some .command else if overrun then some .pairOverrun
    else if badPair then some .command else none
  ⟨fault, c, y, dl.map Prod.fst, yf ||| flagsOf dl ||| uf ||| pf⟩

/-! Fronts (R152-R154, R160, R163). -/

/-- Change the array of the current core. -/
def State.modArr (s : State) (f : Arr → Arr) : State := s.mod fun c => { c with arr := f c.arr }

/-- Cell n of an array. -/
def Arr.cell (a : Arr) (n : Nat) : Cell := if h : n < 4096 then a.cells[n] else Cell.reset

/-- Replace cell n. -/
def Arr.putCell (a : Arr) (n : Nat) (c : Cell) : Arr := if h : n < 4096 then { a with cells := a.cells.set n c } else a

/-- Add to the sums of the front of a side admitted at a. -/
def Arr.putSum (x : Arr) (grad : Bool) (a k : Nat) (v : W64) : Arr :=
  { x with fronts := x.fronts.map fun f => if f.grad == grad && f.a == a then { f with sums := f.sums.set k v } else f }

/-- A value leaves an edge in the cycle after its last cell and is presented two cycles later (R163). -/
def leaveEdge (f : Front) (af : BitVec 5) (now k : Nat) (v : W64) : OutVal :=
  ⟨f.grad, f.a, now + 3, k, v, af, f.set.ofmt, f.set.rnd⟩

/-- A stop at a cell (R155, R168, R283). -/
def cellStop (cls : StopClass) (i j : Nat) : Stop :=
  { cls := cls, eng := 4, rank := 2 + 64 * i + j, detail := 256 * i + j }

/-- One cell of the anti-diagonal that fronts fa and fg stand on. -/
def Arr.visit (x : Arr) (i j now : Nat) (fa fg : Option Front) (clra : Bool) : Arr × Byte × List Stop :=
  let n := 64 * i + j
  let c := x.cell n
  let af := accFmtOf c.act.fmt
  let k := packK c.act.fmt
  let r := cellStep i j c fa fg clra
  let x := x.putCell n r.cell
  let x := match fa, r.y with
    | some f, some v =>
      let x := x.putSum false f.a i v
      if j = 63 then { x with outs := x.outs ++ [leaveEdge f af now i v] } else x
    | _, _ => x
  let x := match fg with
    | some f => (r.dx.mapIdx fun m v => (k * j + m, v)).foldl (fun x (col, v) =>
        let x := x.putSum true f.a col v
        if i = 0 then { x with outs := x.outs ++ [leaveEdge f af now col v] } else x) x
    | none => x
  (x, r.flags, match r.fault with
    | some cls => [cellStop cls i j]
    | none => [])

/-- The rows of an anti-diagonal. -/
def diagRows (d : Nat) : List Nat := (List.range (min 63 d + 1)).drop (d - 63)

/-- The front of a side on an anti-diagonal at cycle c (R152). -/
def Arr.frontOn (x : Arr) (grad : Bool) (d c : Nat) : Option Front :=
  x.fronts.find? fun f => f.grad == grad && decide (f.a ≤ c)
    && (if grad then c - f.a + d == 126 else c - f.a == d)

/-- Every cell of the array in one cycle: state, flags, stops in row-major order of cause. -/
def Arr.cycle (x : Arr) (now : Nat) : Arr × Byte × List Stop :=
  let clra := x.clra
  let y := if clra then
      { x with clra := false, cells := Vector.ofFn fun n =>
          let d := n.val / 64 + n.val % 64
          let c := x.cells[n]
          if (x.frontOn false d now).isSome || (x.frontOn true d now).isSome then c
          else { c with acc := zeroAcc c.act.fmt } }
    else x
  let r := (List.range 127).foldl (fun (y, fl, ks) d =>
    let fa := x.frontOn false d now
    let fg := x.frontOn true d now
    if fa.isNone && fg.isNone then (y, fl, ks)
    else (diagRows d).foldl (fun (y, fl, ks) i =>
      let (y, g, k) := Arr.visit y i (d - i) now fa fg clra
      (y, fl ||| g, ks ++ k)) (y, fl, ks)) (y, 0#8, [])
  ({ r.1 with fronts := r.1.fronts.filter fun f => decide (now < f.a + 126) }, r.2.1, r.2.2)

/-- FRONT_CELL_STEP: the fronts of the current core advance one anti-diagonal. -/
def tryFrontStep (s : State) : Try :=
  let now := s.core.now
  if s.core.arr.fronts.isEmpty && !s.core.arr.clra then .ok s
  else
    let (x, fl, ks) := s.core.arr.cycle now
    tryAll s (ks.map fun k => (k, s)) [] ((s.modArr fun _ => x).modCtx fun y => y.raise fl)

/-- FRONT_CELL_STEP (R152). -/
def execFrontCellStep (s : State) : Out := finish s (tryFrontStep s)

/-- The operand codes of an edge buffer in format f: elements of its bit string (R192). -/
def edgeOps (segs : List W128) (f : BitVec 5) (n : Nat) : List W64 :=
  let w := fmtWidth f
  let v := segs.foldr (fun x r => x.toNat + 2 ^ 128 * r) 0
  (List.range n).map fun e => BitVec.ofNat 64 (bitsOf v (e * w) w)

/-- The spacing a front counts with (R154): none where its formats form no row at its first cell. -/
def Arr.spacing (x : Arr) (f : Front) : Option Nat :=
  let res := (x.cell (if f.grad then 4095 else 0)).act.fmt
  if f.reads then rowSpacing res x.set.afmt x.set.gfmt else some (leastSpacing res)

/-- The spacing that repeatable mode asks of computing fronts (R335). -/
def Gov.srep (g : Gov) (reads : Bool) : Nat := if g.ctl.getLsbD 16 && reads then bitsOf g.ctl.toNat 21 5 else 0

/-- Whether an earlier admission lies within a window before cycle c. -/
def within (w c : Nat) (t : Option Nat) : Bool :=
  match t with
  | some t => decide (c ≤ t + w)
  | none => false

/-- Admission of a front (R154, R160, R171, R173). `cf.swp` with a `cf.ldst` in flight takes the command fault of R171 also
inside the window of R160, which R173's order does not place (DESIGN CHOICE, log entry 62). A front whose formats form no row at its first cell meets its fault
there in this cycle. -/
def tryFront (i : BitVec 4) (kind : FrontKind) (grad : Bool) (p : Nat) (pe ce av : Bool) (s : State) : Try :=
  let c := s.core
  let now := c.now
  let x := c.arr
  let f : Front := ⟨kind, grad, now, pe, ce, p, x.set, [], List.replicate 256 0#64, 1#5⟩
  let sp := (x.spacing f).getD 0
  let last := if grad then x.lastGrad else x.lastAct
  let tight := match last with
    | some (t, q) => decide (now < t + max (max sp q) (s.gov.srep f.reads))
    | none => false
  let opf := if grad then x.set.gfmt else x.set.afmt
  let fresh := if grad then c.grid.gmark else c.grid.amark
  let swaps := kind == .A || kind == .S
  let straddle := (grad && !av && within 126 now x.lastAS) || (swaps && x.strict.any fun b => decide (now ≤ b + 126))
  if tight || (kind == .S && x.ldst.isSome) then .stop (plainStop s 4 .command)
  else if f.reads && !fresh then .stop (plainStop s 4 .schedule)
  else if straddle then .stop (plainStop s 4 .versionStraddle)
  else
    let n := if grad then 64 else 64 * packK (x.cell 0).act.fmt
    let ops := if f.reads then edgeOps (if grad then c.grid.geb else c.grid.aeb) opf n else []
    let fl := ops.foldl (fun g v => g ||| (toVal opf v).2) 0#8
    let f := { f with ops := ops, accFmt := accFmtOf opf }
    let s := (s.issued 4 1 i).modArr fun x => { x with
      fronts := x.fronts ++ [f]
      lastAct := if grad then x.lastAct else some (now, sp)
      lastGrad := if grad then some (now, sp) else x.lastGrad
      lastAS := if swaps then some now else x.lastAS
      lastS := if kind == .S then some now else x.lastS
      strict := if grad && !av then x.strict.filter (fun b => decide (now ≤ b + 126)) ++ [now] else x.strict }
    let s := if f.reads then s.modGrid fun g => if grad then { g with gmark := false } else { g with amark := false } else s
    .ok (s.modCtx fun y => y.raise fl)

/-- CF_FWD (R172, R173). -/
def execCfFwd (i : BitVec 4) (_t : Lit) (s : State) : Out := finish s (tryFront i .F false 0 false true false s)
/-- CF_RPL (R172, R173). -/
def execCfRpl (i : BitVec 4) (p : BitVec 2) (pe ce : BitVec 1) (_t : Lit) (s : State) : Out :=
  finish s (tryFront i .R false p.toNat (pe == 1#1) (ce == 1#1) false s)
/-- CF_GRD (R172, R173). -/
def execCfGrd (i : BitVec 4) (p : BitVec 2) (pe ce av : BitVec 1) (_t : Lit) (s : State) : Out :=
  finish s (tryFront i .G true p.toNat (pe == 1#1) (ce == 1#1) (av == 1#1) s)
/-- CF_APL (R157, R172). -/
def execCfApl (i : BitVec 4) (_t : Lit) (s : State) : Out := finish s (tryFront i .A false 0 false false false s)
/-- CF_SWP (R157, R172). -/
def execCfSwp (i : BitVec 4) (_t : Lit) (s : State) : Out := finish s (tryFront i .S false 0 false false false s)
/-- CF_NUL (R172, R173). -/
def execCfNul (i : BitVec 4) (av sd : BitVec 1) (_t : Lit) (s : State) : Out :=
  finish s (tryFront i .N (sd == 1#1) 0 false false (av == 1#1) s)

/-! Settings (R169, R174-R177, R179, R181). -/

/-- A settings word issues. -/
def State.arrWord (s : State) (i : BitVec 4) (f : Arr → Arr) : State := (s.issued 4 1 i).modArr f

/-- CF_MODE (R174). -/
def execCfMode (i : BitVec 4) (m : BitVec 2) (s : State) : Out :=
  .next (s.arrWord i fun x => { x with set := { x.set with mode := m } })
/-- CF_ETA (R175). -/
def execCfEta (i : BitVec 4) (v : W32) (s : State) : Out :=
  .next (s.arrWord i fun x => { x with set := { x.set with eta := v } })
/-- CF_FADE (R175). -/
def execCfFade (i : BitVec 4) (v : W32) (s : State) : Out :=
  .next (s.arrWord i fun x => { x with set := { x.set with fade := v } })
/-- CF_FMT (R176). -/
def execCfFmt (i : BitVec 4) (af gf ofm : BitVec 5) (md : BitVec 2) (s : State) : Out :=
  .next (s.arrWord i fun x => { x with set := { x.set with afmt := af, gfmt := gf, ofmt := ofm, rnd := md } })
/-- CF_CLRA (R177): the clear takes its place in the order of R158. -/
def execCfClra (i : BitVec 4) (s : State) : Out := .next (s.arrWord i fun x => { x with clra := true })
/-- CF_HSEL (R179). -/
def execCfHsel (i : BitVec 4) (src : BitVec 2) (s : State) : Out := .next (s.arrWord i fun x => { x with hsrc := src })
/-- CF_HCLR (R181): this cycle's counts have been made. -/
def execCfHclr (i : BitVec 4) (s : State) : Out :=
  .next (s.arrWord i fun x => { x with hb := List.replicate 32 0#32 })

/-! Words with an LM operand (R170, R171, R178, R180, R182). -/

/-- The stop of an LM operand of an array word. DETAIL is the operand's first address, also where only its end passes the
grant (R283 says 'faulting address'; DESIGN CHOICE, log entry 70). -/
def arrRange (s : State) (a len : Nat) : Option Stop :=
  (lmRangeCheck s.core.lmGrant a len 128).map fun k => issueStop s 4 k a

/-- Bytes of a row, and of the whole plane, as `cf.ldst` takes them (R170). -/
def rowBytes (f : BitVec 5) : Nat := 64 * packK f * fmtWidth f / 8
def planeBytes (f : BitVec 5) : Nat := if isNqFmt f then recordSize f else 64 * rowBytes f

/-- `cf.ldst` (R170, R171). Bounds and alignment come before the command causes of R182, as at a copy (DEDUCED, log
entry 25). -/
def tryLdst (i : BitVec 4) (f : BitVec 5) (a : BitVec 21) (s : State) : Try :=
  let x := s.core.arr
  match arrRange s a.toNat (planeBytes f) with
  | some k => .stop k
  | none =>
    if x.ldst.isSome || within 126 s.core.now x.lastS then .stop (plainStop s 4 .command)
    else .ok (s.arrWord i fun x => { x with ldst := some ⟨s.core.now, f, a.toNat, []⟩ })

/-- CF_LDST (R170). -/
def execCfLdst (i : BitVec 4) (f : BitVec 5) (a : BitVec 21) (s : State) : Out := finish s (tryLdst i f a s)

/-- Bytes of an output element (R178). -/
def outBytes (f : BitVec 5) : Nat := fmtWidth f / 8

/-- `cf.drain` (R178), with its causes in the order of `cf.ldst` (log entry 25). -/
def tryDrain (i : BitVec 4) (ofm : BitVec 5) (md : BitVec 2) (d : BitVec 21) (s : State) : Try :=
  let x := s.core.arr
  let k := packK (x.cell 0).act.fmt
  match arrRange s d.toNat (4096 * k * outBytes ofm) with
  | some q => .stop q
  | none =>
    if x.drain.isSome then .stop (plainStop s 4 .command)
    else .ok (s.arrWord i fun x => { x with drain := some ⟨s.core.now, ofm, md, d.toNat, k, []⟩ })

/-- CF_DRAIN (R178). -/
def execCfDrain (i : BitVec 4) (ofm : BitVec 5) (md : BitVec 2) (d : BitVec 21) (s : State) : Out :=
  finish s (tryDrain i ofm md d s)

/-- `cf.hread` (R180): the counts of this cycle have been made. -/
def tryHread (i : BitVec 4) (d : BitVec 21) (s : State) : Try :=
  match arrRange s d.toNat 128 with
  | some k => .stop k
  | none => .ok (s.arrWord i fun x => { x with hreads := x.hreads ++ [⟨s.core.now, d.toNat, x.hb⟩] })

/-- CF_HREAD (R180). -/
def execCfHread (i : BitVec 4) (d : BitVec 21) (s : State) : Out := finish s (tryHread i d s)

/-! Loads of the shadow plane (R171). -/

/-- Element c of a row of codes of width w. -/
def rowCode (b : List Byte) (w c : Nat) : W64 :=
  BitVec.ofNat 64 (leNat ((b.drop (w * c / 8)).take 9) / 2 ^ (w * c % 8) % 2 ^ w)

/-- A code as the shadow plane takes it (R171). -/
def loadCode (f : BitVec 5) (v : W64) : W64 := if f = 0x11#5 ∧ v = 2#64 then 0#64 else cleanEl f v

/-- Row i of the shadow plane is written. -/
def Arr.writeRow (x : Arr) (l : Ldst) (i : Nat) (b : List Byte) : Arr × Byte :=
  let k := packK l.fmt
  let w := fmtWidth l.fmt
  let cs := (List.range (64 * k)).map fun c => rowCode b w c
  let bad := l.fmt == 0x11#5 && cs.any fun v => v == 2#64
  let x := (List.range 64).foldl (fun x j =>
    let n := 64 * i + j
    let c := x.cell n
    x.putCell n { c with shadow := { c.shadow with
      fmt := l.fmt, w := (List.range k).map fun m => loadCode l.fmt (codeAt cs (k * j + m)) } }) x
  (x, if bad then fIV else 0#8)

/-- The scales and G of a record are written (R54, R162). -/
def Arr.writeScales (x : Arr) (b : List Byte) : Arr :=
  let g := BitVec.ofNat 32 (leNat ((b.drop 256).take 4))
  { x with cells := x.cells.mapIdx fun n c =>
      { c with shadow := { c.shadow with nq := b.getD (4 * (n / 64) + n % 64 / 16) 0#8, g := g } } }

/-- One cycle of a load (R171). -/
def ldstCycle (k : Core) (l : Ldst) (now : Nat) : Arr × Byte :=
  let i := now - l.t - 1
  let l := if i < 64 then { l with rows := l.rows ++ [(i, k.lmReadN k.ctx.sup (l.addr + i * rowBytes l.fmt) (rowBytes l.fmt))] }
    else if i = 64 ∧ isNqFmt l.fmt then { l with rows := l.rows ++ [(64, k.lmReadN k.ctx.sup (l.addr + recordCodes l.fmt) 260)] }
    else l
  let due := if 3 ≤ i then l.rows.filter fun r => r.1 == i - 3 else []
  let l := { l with rows := if 3 ≤ i then l.rows.filter fun r => r.1 != i - 3 else l.rows }
  let (x, fl) := due.foldl (fun (x, fl) (r, b) =>
    if r = 64 then (Arr.writeScales x b, fl)
    else
      let (x, g) := Arr.writeRow x l r b
      (x, fl ||| g)) (k.arr, 0#8)
  ({ x with ldst := if l.t + 68 ≤ now then none else some l }, fl)

/-- LDST_ROW_WRITE (R171): the load in flight reads one row and writes the row read three cycles ago. -/
def execLdstRowWrite (s : State) : Out :=
  let k := s.core
  match k.arr.ldst with
  | none => .next s
  | some l =>
    if k.now ≤ l.t then .next s
    else
      let (x, fl) := ldstCycle k l k.now
      .next ((s.modArr fun _ => x).modCtx fun y => y.raise fl)

/-! The drain stage, the histogram and drains (R163, R164, R178, R193). -/

/-- The bin of a rounded value (R164). -/
def histBin (f : BitVec 5) (v : W64) : Nat :=
  match (toVal f v).1 with
  | .zero _ => 0
  | .fin n d =>
    let e := ilog2 n.natAbs d + 16
    if e < 1 then 1 else if e > 30 then 30 else e.toNat
  | _ => 31

/-- Count one value of a source (R164, R179): 1 y, 2 dx, 3 drains. -/
def Arr.count (x : Arr) (src : Nat) (f : BitVec 5) (v : W64) : Arr :=
  if x.hsrc.toNat = src then
    { x with hb := x.hb.modify (histBin f v) fun h => if h = 0xFFFFFFFF#32 then h else h + 1#32 }
  else x

/-- Put a value into the deskewing stage (R193). -/
def deskewPut (l : List Deskew) (o : OutVal) (v : W64) : List Deskew :=
  if l.any fun d => d.grad == o.grad && d.a == o.a then
    l.map fun d => if d.grad == o.grad && d.a == o.a then { d with vals := d.vals ++ [(o.idx, v)] } else d
  else l ++ [⟨o.grad, o.a, o.ofmt, [(o.idx, v)]⟩]

/-- A value passes the drain stage (R163). -/
def Arr.present (x : Arr) (o : OutVal) : Arr × Byte :=
  let (v, fl) := rnd o.ofmt o.rnd (toVal o.accFmt o.val).1
  ({ x.count (if o.grad then 2 else 1) o.ofmt v with deskew := deskewPut x.deskew o v }, fl)

/-- The values of a drain's row, rounded (R178). -/
def Drain.out (d : Drain) (vs : List (W64 × BitVec 5)) : List (W64 × Byte) :=
  vs.map fun (v, af) => Machine.rnd d.ofmt d.rnd (toVal af v).1

/-- The row a drain reads at cycle c. -/
def Drain.readsAt (d : Drain) (c : Nat) : Option Nat := if d.t + 1 ≤ c ∧ c ≤ d.t + 64 then some (c - d.t - 1) else none

/-- The first cell of row i that a drain cannot read (R178). -/
def Arr.drainBad (x : Arr) (d : Drain) (i : Nat) : Option Nat :=
  (List.range 64).find? fun j =>
    let f := (x.cell (64 * i + j)).act.fmt
    !outOk f d.ofmt || packK f != d.k

/-- The row of accumulators that a drain reads. -/
def Arr.drainRow (x : Arr) (i : Nat) : List (W64 × BitVec 5) :=
  (List.range 64).flatMap fun j =>
    let c := x.cell (64 * i + j)
    (List.range (packK c.act.fmt)).map fun m => (codeAt c.acc m, accFmtOf c.act.fmt)

/-- DRAIN_PRESENT: values presented in this cycle are rounded, flagged and counted; a drain reads its row. -/
def tryPresent (s : State) : Try :=
  let now := s.core.now
  let x := s.core.arr
  let due := x.outs.filter fun o => o.due == now
  let (y, fl) := due.foldl (fun (y, fl) o =>
    let (y, g) := Arr.present y o
    (y, fl ||| g)) ({ x with outs := x.outs.filter fun o => o.due != now }, 0#8)
  match x.drain with
  | none => .ok ((s.modArr fun _ => y).modCtx fun c => c.raise fl)
  | some d =>
    let rows := if 2 ≤ now - d.t then d.rows.filter fun r => r.1 + d.t + 3 == now else []
    let outs := rows.flatMap fun r => d.out r.2
    let y := outs.foldl (fun y v => Arr.count y 3 d.ofmt v.1) y
    let fl := fl ||| flagsOf outs
    let t (y : Arr) : State := (s.modArr fun _ => y).modCtx fun c => c.raise fl
    match d.readsAt now with
    | none => .ok (t y)
    | some i =>
      match x.drainBad d i with
      | some j => .stop (cellStop .command i j)
      | none => .ok (t { y with drain := some { d with rows := d.rows ++ [(i, x.drainRow i)] } })

/-- DRAIN_PRESENT (R163, R178). -/
def execDrainPresent (s : State) : Out := finish s (tryPresent s)

/-- DRAIN_ROW_WRITE (R178): the row read two cycles ago lands in LM; the drain ends with its last row. -/
def execDrainRowWrite (s : State) : Out :=
  let now := s.core.now
  match s.core.arr.drain with
  | none => .next s
  | some d =>
    let due := d.rows.filter fun r => r.1 + d.t + 3 == now
    let d' := { d with rows := d.rows.filter fun r => r.1 + d.t + 3 != now }
    .next (s.mod fun c =>
      let z := outBytes d.ofmt
      let c := due.foldl (fun c (i, vs) =>
        c.landBytes c.ctx.sup (d.addr + i * 64 * d.k * z) ((d.out vs).flatMap fun v => natLe z v.1.toNat)) c
      { c with arr := { c.arr with drain := if d.t + 66 ≤ now then none else some d' } })

/-- HREAD_LAND (R180): a snapshot lands two cycles after its word. -/
def execHreadLand (s : State) : Out :=
  let now := s.core.now
  .next (s.mod fun c =>
    let due := c.arr.hreads.filter fun h => h.t + 2 == now
    let c := due.foldl (fun c h => c.landBytes c.ctx.sup h.addr (h.vals.flatMap fun v => natLe 4 v.toNat)) c
    { c with arr := { c.arr with hreads := c.arr.hreads.filter fun h => h.t + 2 != now } })

/-- A vector in its return register (R192, R193). Where a gradient front crosses a swap that changes k, two of its values
may have one index: their codes are added (R163 does not say; DESIGN CHOICE, log entry 62). -/
def Deskew.segs (d : Deskew) (n : Nat) : List W128 :=
  let w := fmtWidth d.ofmt
  let v := d.vals.foldl (fun v (k, x) => v + x.toNat % 2 ^ w * 2 ^ (w * k)) 0
  (List.range n).map fun k => BitVec.ofNat 128 (v / 2 ^ (128 * k))

/-- RETURN_REGISTER_REPLACE (R193): at the start of cycle a + 130 the vector of the front admitted at a takes its
register. -/
def execReturnRegisterReplace (s : State) : Out :=
  let now := s.core.now
  .next (s.mod fun c =>
    let due := c.arr.deskew.filter fun d => d.a + 130 == now
    let g := due.foldl (fun g d => if d.grad then { g with dret := d.segs 64 } else { g with yret := d.segs 32 }) c.grid
    { c with grid := g, arr := { c.arr with deskew := c.arr.deskew.filter fun d => d.a + 130 != now } })

end Sys2Proof.Machine
end

