-- ==== Sys2Proof/Machine/Copy.lean ====
section
/-! DEFINITION. The block-transfer engine (R135-R142, R272, R274-R276): descriptors, routes, copies chunk by chunk and
outside logical time, prefetches, retention registers; the lookups of words that translate at issue (R321). -/

namespace Sys2Proof.Machine

/-! Lookups of words that translate at issue (R321). -/

/-- Lookups made for a word: page or range start, and the outcome. -/
abbrev Looks := List (Nat × WalkRes)

/-- The outcome found for an address. -/
def lookOf (l : Looks) (va : Nat) : Option WalkRes :=
  l.findSome? fun (a, r) => match r with
    | .inr x => if x.va ≤ va ∧ va < x.va + x.size then some r else none
    | .inl _ => if a = va then some r else none

/-- Look ranges up in the quad TLB until one page misses: what is found, and the ranges left, the miss first. -/
def lookRanges (c : Nat) : Nat → State → List (Nat × Nat) → Looks → State × Looks × List (Nat × Nat)
  | 0, s, _, acc => (s, acc, [])
  | _, s, [], acc => (s, acc, [])
  | f + 1, s, (va, e) :: r, acc =>
    if e ≤ va then lookRanges c f s r acc
    else match lookOf acc va with
      | some (.inr l) => lookRanges c f s ((l.va + l.size, e) :: r) acc
      | some (.inl _) => (s, acc, [])
      | none =>
        match s.tlbFind c va with
        | some l => lookRanges c f (s.countHit c) ((l.va + l.size, e) :: r) (acc ++ [(va, .inr l)])
        | none => (s, acc, (va, e) :: r)

/-- Enough steps for the pages of ranges. -/
def rangeFuel (rs : List (Nat × Nat)) : Nat := (rs.map fun r => (r.2 - r.1) / 4096 + 4).foldl (· + ·) 4

/-- The lookups of a word at the head of queue e (5 or 6) over ranges (start, end): all found, or a state that
waits for walks. A word whose walks are under way makes no lookup again (R321). -/
def issueLooks (s : State) (e : Nat) (rs : List (Nat × Nat)) : State × Option Looks :=
  let p := s.core.ctx.pend e
  if p.ready then (s, some p.looks)
  else if p.started && !p.walks.isEmpty then (s, none)
  else
    let (t, l, left) := lookRanges s.cur.val (rangeFuel rs) s rs []
    if left.isEmpty then (t, some l)
    else (t.modCtx fun x => x.setPend e { p with started := true, looks := l, walks := left }, none)

/-- One walk for the word that waits at the head of queue e of the current core (R319, R321), and the lookups after it. -/
def walkOnce (s : State) (e : Nat) : State :=
  let p := s.core.ctx.pend e
  match p.walks with
  | [] => s
  | (va, ed) :: r =>
    let (res, s) := s.missWalk s.cur.val va
    let (s, l, left) := match res with
      | .inl _ => (s, p.looks ++ [(va, res)], [])
      | .inr x => lookRanges s.cur.val (rangeFuel ((va, ed) :: r)) s ((x.va + x.size, ed) :: r) (p.looks ++ [(va, res)])
    s.modCtx fun x => x.setPend e { p with looks := l, walks := left, ready := left.isEmpty }

/-- PAGE_WALK (R319): the words held for walks make their next one. -/
def execPageWalk (s : State) : Out := .next (walkOnce (walkOnce s 5) 6)

/-- The checks of R320 on bytes va ... va + n - 1 under one leaf: the leaf's own, and whether each line of them has a target.
The code of the failure, and the address of the first byte that fails. -/
def State.rangeCheck (s : State) (c : Nat) (x : Leaf) (rd wr : Bool) (va n : Nat) : Option (Nat × Nat) :=
  (List.range ((va % 128 + n + 127) / 128)).findSome? fun i =>
    let a := max va (va / 128 * 128 + 128 * i)
    (s.leafCheck c x rd wr a).map fun k => (k, a)

/-- The pages of a range as pieces (offset in the range, physical base, length, leaf bits), or the first failure
(level and kind, virtual address): the checks of R320. -/
def rangePieces (s : State) (c : Nat) (l : Looks) (rd wr : Bool) (a : Nat) :
    Nat → Nat → Nat → (Nat × Nat) ⊕ List (Nat × Nat × Nat × Byte)
  | 0, _, _ => .inr []
  | f + 1, va, e =>
    if e ≤ va then .inr []
    else match lookOf l va with
      | none => .inl (0, va)
      | some (.inl k) => .inl (k, va)
      | some (.inr x) =>
        let n := min e (x.va + x.size) - va
        match s.rangeCheck c x rd wr va n with
        | some k => .inl k
        | none =>
          match rangePieces s c l rd wr a f (va + n) e with
          | .inl k => .inl k
          | .inr r => .inr ((va - a, x.phys va, n, x.bits) :: r)

/-- The physical pieces of va ... va + n - 1. -/
def pieces (s : State) (l : Looks) (rd wr : Bool) (va n : Nat) : (Nat × Nat) ⊕ List (Nat × Nat × Nat × Byte) :=
  rangePieces s s.cur.val l rd wr va (n / 4096 + 2) va (va + n)

/-! Descriptors (R135). -/

/-- A copy descriptor. -/
structure Desc where
  src : Nat
  dst : Nat
  len : Nat
  xtag : W16
  wtag : W16
  sk : Nat
  dk : Nat
  exp : Bool
  wr : Bool
  og : Nat
  clean : Bool                       -- no reserved bit set
  deriving DecidableEq, Repr

/-- Read a descriptor from its 256 bits (R135). -/
def descOf (v : Nat) : Desc :=
  { src := bitsOf v 0 64, dst := bitsOf v 64 64, len := bitsOf v 128 32, xtag := BitVec.ofNat 16 (bitsOf v 160 16),
    wtag := BitVec.ofNat 16 (bitsOf v 176 16), sk := bitsOf v 192 2, dk := bitsOf v 194 2, exp := bitsOf v 196 1 == 1,
    wr := bitsOf v 197 1 == 1, og := bitsOf v 208 9,
    clean := bitsOf v 198 10 == 0 && bitsOf v 217 39 == 0 }

/-- The three words that name a descriptor. -/
inductive DescWord where
  | copy | ovl | pref
  deriving DecidableEq, Repr

/-- Whether a descriptor breaks R135, R137, R139 or R140 for its word (sup: at supervisor privilege, R276). -/
def Desc.bad (d : Desc) (w : DescWord) (h : BitVec 2) (sup : Bool) : Bool :=
  !d.clean || (decide (2 ≤ d.sk) && !sup) || (d.exp && d.sk != 0)
  || decide (2 ^ (if d.sk = 1 then 57 else 21) ≤ d.src) || decide (2 ^ (if d.dk = 1 then 57 else 21) ≤ d.dst)
  || (decide (2 ≤ d.dk) && d.dst % 128 != 0) || (d.og != 0 && (decide (d.dk < 2) || !d.wr))
  || (match w with
      | .copy => decide (2 ≤ d.dk) && !sup
      | .ovl => decide (d.dk < 2) || d.len % 128 != 0 || h != 0#2
          || (decide (d.dk = 2) && decide ((if sup && decide (0x10000 ≤ d.dst) then 0x12000 else 0x10000) < d.dst + d.len))
          || (decide (d.dk = 3) && decide (0x20000 < d.dst + d.len))
      | .pref => d.sk != 1 || d.dk != 0 || d.dst != 0 || d.xtag != 0#16 || d.wtag != 0#16 || d.exp || d.wr || d.og != 0)

/-! Routes (R136). -/

/-- Order of the route classes. -/
def Route.code : Route → Nat
  | .lself => 0
  | .lquad => 1
  | .vnear => 2
  | .vdie => 3
  | .ldie => 4
  | .xdie => 5
  | .hbm => 6

/-- Base latency in lc. -/
def Route.base : Route → Nat
  | .lself => 8
  | .lquad => 16
  | .vnear => 40
  | .vdie => 90
  | .ldie => 96
  | .xdie => 220
  | .hbm => 0

/-- Bytes per lc. -/
def Route.rate : Route → Nat
  | .lself | .lquad | .vnear => 64
  | .vdie | .ldie => 32
  | .xdie | .hbm => 16

/-- The class of a target as core me sees it. -/
def targetRoute (me : Nat) : Target → Route
  | .lm c _ =>
    if c = me then .lself else if quadOf c = quadOf me then .lquad else if dieOf c = dieOf me then .ldie else .xdie
  | .vault c _ => if c = me then .vnear else if dieOf c = dieOf me then .vdie else .xdie
  | .hbm | .ctr _ _ | .decode | .pod _ _ | .none => .hbm

/-- The farther of two routes. -/
def Route.far (a b : Route) : Route := if a.code < b.code then b else a

/-- The route class of one end (R136). -/
def endRoute (s : State) (me : Nat) : CopyEnd → Route
  | .phys l => l.foldl (fun r (_, pa, _) => r.far (targetRoute me (s.target pa))) .lself
  | .lm _ _ _ | .imem _ | .gcs _ => .lself

/-- Whether an end lies in an LM window of a core outside the gang of core me. -/
def endOutside (s : State) (me : Nat) : CopyEnd → Bool
  | .phys l => l.any fun (_, pa, _) => match s.target pa with
    | .lm c _ => !(s.members me).contains c
    | _ => false
  | .lm _ _ _ | .imem _ | .gcs _ => false

/-- Chunks of a copy and its latency (R136). -/
def Copy.chunks (x : Copy) : Nat := (x.len + x.route.rate - 1) / x.route.rate
def Copy.lat (x : Copy) : Nat := x.route.base + x.chunks

/-- Whether a copy moves at the guaranteed cycles of its route (R136, R276). -/
def guaranteed (r : Route) (sup : Bool) : Bool := r != .hbm && !(sup && r != .lself)

/-- Whether a route needs a reservation (R136, R276). -/
def needsRes (s : State) (me : Nat) (sup : Bool) (r : Route) (a b : CopyEnd) : Bool :=
  guaranteed r sup && (match r with
    | .lself => false
    | .lquad => endOutside s me a || endOutside s me b
    | _ => true)

/-- Bytes left of a reservation (R137, R309). -/
def Task.left (t : Task) (r : Route) : Nat := (t.res.filterMap fun (q, n) => if q = r then some n else none).foldl (· + ·) 0

/-- Consume bytes of a reservation. -/
def consume (r : Route) : List (Route × Nat) → Nat → List (Route × Nat)
  | [], _ => []
  | (q, n) :: l, k => if q = r then (q, n - k) :: consume r l (k - n) else (q, n) :: consume r l k

/-! Issue (R137-R139). -/

/-- The physical lines of pieces. -/
def inPieces (l : List (Nat × Nat × Nat)) (line : Nat) : Bool :=
  l.any fun (_, pa, n) => decide (pa / 128 ≤ line) && decide (line ≤ (pa + n - 1) / 128)

/-- Whether an end has bytes in a physical line. -/
def CopyEnd.hasLine : CopyEnd → Nat → Bool
  | .phys l, line => inPieces l line
  | .lm _ _ _, _ | .imem _, _ | .gcs _, _ => false

/-- Drop the leaf bits of pieces. -/
def plainPieces (l : List (Nat × Nat × Nat × Byte)) : List (Nat × Nat × Nat) := l.map fun (o, pa, n, _) => (o, pa, n)

/-- One end of a copy: kind, address, length. Bounds of local spaces; pieces of global ones. With length 0 no byte lies
outside a local space, and a global end is the page of its address (DEDUCED, log entry 25). -/
def copyEnd (s : State) (l : Looks) (kind a n : Nat) (wr : Bool) : Stop ⊕ (CopyEnd × List Byte) :=
  let c := s.core
  let sup := c.ctx.sup
  match kind with
  | 0 => if n ≠ 0 ∧ c.lmGrant < a + n then .inl (issueStop s 5 .bounds a) else .inr (.lm s.cur.val a sup, [])
  | 1 =>
    if 2 ^ 57 < a + n then .inl (issueStop s 5 .bounds a)
    else match pieces s l (!wr) wr a (max 1 n) with
      | .inl (k, va) => .inl { transStop 5 1 k wr va with waddr := c.ctx.headAddr 5 }
      | .inr ps => .inr (.phys (plainPieces ps), ps.map fun p => p.2.2.2)
  | 2 =>
    let top := if wr && decide (0x10000 ≤ a) then 0x12000 else 0x10000
    if n ≠ 0 ∧ top < a + n then .inl (issueStop s 5 .bounds a) else .inr (.imem a, [])
  | _ => if n ≠ 0 ∧ 0x20000 < a + n then .inl (issueStop s 5 .bounds a) else .inr (.gcs a, [])

/-- The ranges that a copy translates at issue. -/
def Desc.ranges (d : Desc) : List (Nat × Nat) :=
  (if d.sk = 1 then [(d.src, d.src + max 1 d.len)] else []) ++ (if d.dk = 1 then [(d.dst, d.dst + max 1 d.len)] else [])

/-- Whether the issuing core may not start another guaranteed copy on a route (R137). -/
def tooMany (x : Ctx) (now : Nat) (r : Route) : Bool :=
  let live := x.copies.filter fun y => decide (now < y.issue + y.lat)
  decide (16 ≤ live.length) || decide (4 ≤ (live.filter fun y => y.route == r).length)

/-- The copy proper, once its ends are known (R136-R138). -/
def startCopy (s t : State) (i : BitVec 4) (h : BitVec 2) (d : Desc) (src dst : CopyEnd) (bits : List Byte) : Try :=
  let c := s.core
  let me := s.cur.val
  let sup := c.ctx.sup
  let r := (endRoute s me src).far (endRoute s me dst)
  let need := needsRes s me sup r src dst
  let cmd := Try.stopIn t (plainStop s 5 .command)
  let window := match dst with
    | .phys l => l.all fun (_, pa, _) => match s.target pa with
      | .lm _ _ => true
      | _ => false
    | _ => true
  if d.wr && !window then cmd
  else if need && decide (((c.task.map fun k => k.left r).getD 0) < d.len) then cmd
  else if guaranteed r sup && tooMany c.ctx c.now r then cmd
  else if d.len = 0 then .ok (t.issued 5 1 i)
  else
    let gs := granules d.src d.len
    let (k, hs) := if d.exp && c.ctx.echk && !guaranteed r sup then tagCheck s me sup 5 1 d.xtag gs else (none, [])
    match k, hs with
    | some k, _ => .stopIn t { k with waddr := c.ctx.headAddr 5 }
    | none, hc :: r => .hold hc s r
    | none, [] =>
      let (id, t) := t.newId
      let x : Copy :=
        { id := id, core := me, route := r, src := src, dst := dst, len := d.len, issue := c.now,
          ready := s.time + 2 * (s.quad (quadOf me)).period,
          exp := if d.exp && c.ctx.echk && guaranteed r sup then some d.xtag else none,
          wtag := if d.wr then some d.wtag else none, og := d.og, next := 0, pend := [], err := [], checked := [],
          supv := sup, who := c.ctx.who, dev := bits.any fun b => bitsOf b.toNat 6 2 == 3, acc := [], part := s.partOf me, ctx := (s.walkerOf me).ctx, arrive := 0, retrain := none }
      let t := bits.foldl (fun t b => t.countHint me h (bitsOf b.toNat 6 2)) t
      let t := t.wordActions me (fun ln => src.hasLine ln || dst.hasLine ln) dst.hasLine
      let t := t.issued 5 1 i
      let t := if need then t.mod fun k => { k with task := k.task.map fun y => { y with res := consume r y.res d.len } } else t
      if guaranteed r sup then .ok (t.modCtx fun y => { y with copies := y.copies ++ [x] })
      else .ok { t with hbm := t.hbm ++ [x] }

/-- The descriptor a word names, after the bounds check that comes first (R137). -/
def readDesc (s : State) (d : BitVec 14) : Option Desc :=
  let a := 128 * d.toNat
  if s.core.lmGrant < a + 32 then none else some (descOf (leNat (s.core.lmReadN s.core.ctx.sup a 32)))

/-- `bt.copy` and `bt.ovl` (R137, R139). -/
def tryCopy (w : DescWord) (i : BitVec 4) (h : BitVec 2) (d : BitVec 14) (s : State) : Try :=
  match readDesc s d with
  | none => .stop (issueStop s 5 .bounds (128 * d.toNat))
  | some x =>
    if x.bad w h s.core.ctx.sup then .stop (plainStop s 5 .command)
    else match issueLooks s 5 x.ranges with
      | (t, none) => .hold (.walk 5) t
      | (t, some l) =>
        match copyEnd s l x.sk x.src x.len false with
        | .inl k => .stopIn t k
        | .inr (src, b1) =>
          match copyEnd s l x.dk x.dst x.len true with
          | .inl k => .stopIn t k
          | .inr (dst, b2) => startCopy s t i h x src dst (b1 ++ b2)

/-- BT_COPY (R137). -/
def execBtCopy (i : BitVec 4) (h : BitVec 2) (d : BitVec 14) (_w : When) (s : State) : Out := finish s (tryCopy .copy i h d s)
/-- BT_OVL (R139). -/
def execBtOvl (i : BitVec 4) (h : BitVec 2) (d : BitVec 14) (_w : When) (s : State) : Out := finish s (tryCopy .ovl i h d s)

/-- `bt.pref` (R140, R272): line k is requested at issue + 1 + k. -/
def tryPref (i : BitVec 4) (h : BitVec 2) (d : BitVec 14) (s : State) : Try :=
  match readDesc s d with
  | none => .stop (issueStop s 5 .bounds (128 * d.toNat))
  | some x =>
    if x.bad .pref h s.core.ctx.sup then .stop (plainStop s 5 .command)
    else
      let l0 := x.src / 128
      let n := if x.len = 0 then 0 else (x.src + x.len - 1) / 128 - l0 + 1
      let s := (s.flushLines s.cur.val fun _ => true).issued 5 1 i
      let now := s.core.now
      .ok (s.modCtx fun y => { y with prefs := y.prefs ++ (List.range n).map fun k => (now + 1 + k, 128 * (l0 + k), h) })

/-- BT_PREF (R140). -/
def execBtPref (i : BitVec 4) (h : BitVec 2) (d : BitVec 14) (s : State) : Out := finish s (tryPref i h d s)
/-- BT_PREF_TIMED (R140). -/
def execBtPrefTimed (i : BitVec 4) (h : BitVec 2) (d : BitVec 14) (_w : When) (s : State) : Out := finish s (tryPref i h d s)

/-- BT_ECHK (R138). -/
def execBtEchk (i : BitVec 4) (m : BitVec 2) (s : State) : Out :=
  .next ((s.issued 5 1 i).modCtx fun x => { x with echk := m == 1#2 })

/-! Retention registers (R141, R142). -/

/-- The lines pinned by register k stay as ordinary lines (R142). -/
def Core.unpin (c : Core) (k : Nat) : Core :=
  { c with
    vc := c.vc.map fun x => if x.pin = some k then { x with pin := none } else x
    ctx := { c.ctx with pins := c.ctx.pins.set k none } }

/-- Retention registers granted to the running task. -/
def Core.retain (c : Core) : Nat := (c.task.map Task.ret).getD 0

/-- `bt.pin` (R141). -/
def tryPin (i : BitVec 4) (k : BitVec 3) (a : BitVec 57) (n : Lit) (s : State) : Try :=
  if s.core.retain ≤ k.toNat ∨ a.toNat % 128 ≠ 0 ∨ n = 0#29 then .stop (plainStop s 5 .command)
  else .ok ((s.issued 5 1 i).mod fun c =>
    let c := c.unpin k.toNat
    { c with ctx := { c.ctx with pins := c.ctx.pins.set k.toNat (some (a.toNat, n.toNat)) } })

/-- BT_PIN (R141). -/
def execBtPin (i : BitVec 4) (k : BitVec 3) (a : BitVec 57) (n : Lit) (s : State) : Out := finish s (tryPin i k a n s)

/-- `bt.unpin` (R142). -/
def tryUnpin (i : BitVec 4) (k : BitVec 3) (s : State) : Try :=
  if s.core.retain ≤ k.toNat then .stop (plainStop s 5 .command) else .ok ((s.issued 5 1 i).mod fun c => c.unpin k.toNat)

/-- BT_UNPIN (R142). -/
def execBtUnpin (i : BitVec 4) (k : BitVec 3) (s : State) : Out := finish s (tryUnpin i k s)

/-! Chunks (R136, R138, R274). -/

/-- The bytes of chunk j. -/
def Copy.chunkLen (x : Copy) (j : Nat) : Nat := min x.route.rate (x.len - j * x.route.rate)

/-- Whether a chunk of a copy is read in this cycle. -/
def Copy.readsAt (x : Copy) (now : Nat) : Bool := decide (x.next < x.chunks) && x.issue + 1 + x.next == now

/-- The tag check of the chunk that a copy reads next (R138). -/
def chunkCheck (s : State) (x : Copy) : Option Stop × List HoldCause × List Nat :=
  match x.exp, x.src with
  | some t, .lm c a u =>
    let lo := x.next * x.route.rate
    let gs := (granules (a + lo) (x.chunkLen x.next)).filter fun g => !x.checked.contains g
    let (k, h) := tagCheck s c u 5 2 t gs
    (k, h, gs)
  | _, _ => (none, [], [])

/-- A copy reads its next chunk. -/
def readChunk (s : State) (x : Copy) : State × Copy :=
  let (b, s) := s.copyRead x (x.next * x.route.rate) (x.chunkLen x.next)
  (s, { x with next := x.next + 1, pend := x.pend ++ [(x.next, b)], checked := x.checked ++ (chunkCheck s x).2.2 })

/-- COPY_CHUNK_READ: the source chunks due are read. -/
def tryChunkRead (s : State) : Try :=
  let now := s.core.now
  let due := s.core.ctx.copies.filter fun x => x.readsAt now
  let cs := due.map fun x => chunkCheck s x
  let (t, l) := s.core.ctx.copies.foldl (fun (t, l) x =>
    if x.readsAt now then
      let (t, y) := readChunk t x
      (t, l ++ [y])
    else (t, l ++ [x])) (s, [])
  tryAll s ((cs.filterMap fun c => c.1).map fun k => (k, s)) (cs.flatMap fun c => c.2.1)
    (t.modCtx fun y => { y with copies := l })

/-- COPY_CHUNK_READ (R136). -/
def execCopyChunkRead (s : State) : Out := finish s (tryChunkRead s)

/-- The chunks of core c's copies that land in this cycle: copy and chunk. -/
def chunksDue (s : State) (c : Nat) : List (Copy × Nat) :=
  let k := s.at c
  k.ctx.copies.filterMap fun x =>
    (x.pend.find? fun p => x.issue + x.route.base + p.1 == k.now).map fun p => (x, p.1)

/-- Insert in the order in which landings are applied (R235 rank 5): earlier issues first, then higher cores. -/
def insLand (x : Copy × Nat) : List (Copy × Nat) → List (Copy × Nat)
  | [] => [x]
  | y :: r =>
    if x.1.issue < y.1.issue ∨ (x.1.issue = y.1.issue ∧ y.1.core < x.1.core) then x :: y :: r else y :: insLand x r

/-- Replace or drop a copy of core c after a landing. -/
def afterLand (c : Core) (x : Copy) (j : Nat) (err : List (Nat × Nat)) : Core :=
  let f (y : Copy) : Option Copy :=
    if y.id ≠ x.id then some y
    else if j + 1 = x.chunks then none
    else some { y with err := err, pend := y.pend.filter fun p => p.1 != j }
  { c with ctx := { c.ctx with copies := c.ctx.copies.filterMap f } }

/-- The bytes of a landed chunk in the LM of cores outside the gang are kept for the end of the cycle (R235 rank 6). -/
def State.later (s : State) (x : Copy) (lo : Nat) (b : List (Byte × Bool)) : State :=
  let out := match x.dst with
    | .phys l => (List.range b.length).any fun i => match s.target (pieceAt l (lo + i)) with
      | .lm c _ => !(s.members x.core).contains c
      | _ => false
    | _ => false
  if out then { s with outLands := s.outLands ++ [⟨s.time + (s.quad (quadOf x.core)).period, s.members x.core, x, lo, b⟩] } else s

/-- One chunk lands. -/
def landChunk (s : State) (x : Copy × Nat) : State :=
  -- the copy as it stands now: its error marks may have grown in this cycle
  let y := ((s.at x.1.core).ctx.copies.find? fun y => y.id == x.1.id).getD x.1
  let b := ((y.pend.find? fun p => p.1 == x.2).map Prod.snd).getD []
  let lo := x.2 * y.route.rate
  let ms := s.members y.core
  let (s, err) := s.copyLand ⟨ms.contains, true, none⟩ y lo b
  (s.later { y with err := err } lo b).modAt y.core fun c => afterLand c y x.2 err

/-- The chunks due of the gang of the current core, in the order in which they are applied. -/
def gangChunks (s : State) : List (Copy × Nat) :=
  ((s.members s.cur.val).flatMap fun m => chunksDue s m).foldl (fun l x => insLand x l) []

/-- COPY_CHUNK_LAND: the chunks due of the gang of the current core land; a chunk on a reserved route whose data are late
after a retrain holds the gang, or stops it in strict mode (R24, R354). -/
def tryChunkLand (s : State) : Try :=
  let due := gangChunks s
  let late := (due.map Prod.fst).filter fun x => decide (s.time < x.arrive)
  let (stops, holds) : List (Stop × State) × List HoldCause :=
    if s.core.strict then (late.map fun _ => (bareStop s 5 2 .schedule 0xFFFF, s), [])
    else ([], late.map fun x => .lateCopy x.core x.id x.retrain)
  tryAll s stops holds (due.foldl landChunk s)

/-- COPY_CHUNK_LAND (R136, R235). -/
def execCopyChunkLand (s : State) : Out := finish s (tryChunkLand s)

/-- HBM_COPY_LAND (R235 rank 6, R274): the k-th copy outside logical time moves its bytes, once its issue cycle + 1 has
passed, and, with DEV pages, once its core's earlier copies with such pages have (R228). All of them land in one step (DESIGN
CHOICE, log entry 22). -/
def execHbmCopyLand (k : Nat) (s : State) : Out :=
  match s.hbm[k]? with
  | none => .next s
  | some x =>
    if s.time < x.ready || s.devWaits k x then .next s else .next (s.landHbm k x)

/-- The k-th landing outside its gang takes place (R235 rank 6). -/
def State.outLand (s : State) (k : Nat) : State :=
  match s.outLands[k]? with
  | none => s
  | some o =>
    let s := { s with outLands := s.outLands.eraseIdx k }
    (s.copyLand ⟨fun c => !o.gang.contains c, false, some o.due⟩ o.copy o.lo o.bytes).1

/-- TARGET_GATED_NACK (R337): a request addressed to a gated quad is refused and counted. -/
def execTargetGatedNack (q : BitVec 6) (s : State) : Out :=
  .next (if (s.quad q.toNat).gated then s.nack q.toNat else s)

end Sys2Proof.Machine
end

