-- ==== Sys2Proof/WellFormed.lean ====
section
/-! DEFINITION. What makes an instruction well formed: the format, scope, space, mode and operation codes that each
word accepts (R80-R83 and each word's entry). `wfWord` looks at fields of the word only, `wfLits` at literals
(R83: which bits of a literal are reserved follows from the word alone). -/

namespace Sys2Proof

/-- Formats that streams accept (R126), R80's codes: all but NQ4, NQ3 and the reserved codes. -/
def streamFmt (f : BitVec 5) : Bool := decide (f.toNat ≤ 0x11) || f == 0x14#5
/-- Fl of R213: FP64, FP32, FP19, BF16, FP16. -/
def flFmt (f : BitVec 5) : Bool := decide (f.toNat ≤ 4)
/-- In of R213: INT32, INT16, INT8, UINT8. -/
def inFmt (f : BitVec 5) : Bool := f == 0x14#5 || f == 0x0C#5 || f == 0x0D#5 || f == 0x0E#5
/-- Sf of R213: FP32, FP19, BF16, FP16. -/
def sfFmt (f : BitVec 5) : Bool := decide (1 ≤ f.toNat ∧ f.toNat ≤ 4)
/-- Formats of `vabs` and `vneg` (R213). -/
def absFmt (f : BitVec 5) : Bool := flFmt f || f == 0x14#5 || f == 0x0C#5 || f == 0x0D#5
/-- Formats of `vcvt` (R217): any of R80 but NQ4 and NQ3. -/
def cvtFmt (f : BitVec 5) : Bool := streamFmt f
/-- The pairs of `vdot` (R216). -/
def dotFmts (fs fd : BitVec 5) (md : BitVec 2) : Bool :=
  (sfFmt fs && flFmt fd) || (fs == 0#5 && (fd == 0#5 || fd == 1#5))
    || ((fs == 0x0C#5 || fs == 0x0D#5 || fs == 0x0E#5) && (fd == 0x14#5 || fd == 0x0C#5) && md == 0#2)
/-- Activation and gradient formats of `cf.fmt` (R176): the operand column of R161. -/
def operandFmt (f : BitVec 5) : Bool := decide (f.toNat ≤ 0x11)
/-- Output formats of `cf.fmt` and `cf.drain` (R161). -/
def outFmt (f : BitVec 5) : Bool := decide (f.toNat ≤ 8) || inFmt f
/-- Scope codes 6 and 7 are reserved (R80). -/
def scopeOk (s : BitVec 3) : Bool := decide (s.toNat ≤ 5)
/-- Space codes 2 and 3 are reserved (R80). -/
def spaceOk (s : BitVec 3) : Bool := s != 2#3 && s != 3#3
/-- Space code 1 is global memory (R80). -/
def spaceIsGlobal (s : BitVec 3) : Bool := s == 1#3

/-- An operation descriptor of a chain (R220): reserved bits and codes, and the lane types R190 allows. -/
def opDescOk (d : Lit) : Bool :=
  let op := (d.extractLsb' 0 7).toNat
  let t := (d.extractLsb' 7 3).toNat
  let fa := (d.extractLsb' 10 5).toNat
  let fb := (d.extractLsb' 15 5).toNat
  let b := (d.extractLsb' 20 3).toNat
  let c := (d.extractLsb' 23 3).toNat
  decide (d.extractLsb' 26 3 = 0#3) && decide (t ≤ 2) && decide (b ≤ 3) && decide (c ≤ 3) &&
  (if op = 0x20 then decide (t = 0 ∧ fa ≤ 0x14 ∧ fb ≤ 0x14)
   else decide (fb = 0) &&
    (if op = 0x0B then decide (fa ≤ 5)
     else decide (fa = 0) &&
      ((decide (1 ≤ op ∧ op ≤ 0x0A) || decide (0x10 ≤ op ∧ op ≤ 0x12))
       || (decide (0x13 ≤ op ∧ op ≤ 0x15) && decide (t = 1))
       || (decide (0x18 ≤ op ∧ op ≤ 0x1C) && decide (t = 0)))))

/-- The codes in the fields of a word (R83). Steps that are no words are well formed. A nonzero hint on `bt.ovl`, which
R139 forbids without naming a fault, is an illegal encoding, and `gr.vcvt` takes any md, between integer formats too, for R217
names no limit there (DESIGN CHOICE, log entry 64). -/
def wfWord : Instr → Bool
  | .cpNop e _ => e != 7#3
  | .wait e _ n => e != 7#3 && n != 0#18
  | .untilStamp e _ _ => e != 7#3
  | .cpAdd _ _ _ => true
  | .cpSub _ _ _ => true
  | .cpMul _ _ _ => true
  | .cpMulh _ _ _ => true
  | .cpAnd _ _ _ => true
  | .cpOr _ _ _ => true
  | .cpXor _ _ _ => true
  | .cpAndn _ _ _ => true
  | .cpShl _ _ _ => true
  | .cpShr _ _ _ => true
  | .cpSar _ _ _ => true
  | .cpMin _ _ _ => true
  | .cpMax _ _ _ => true
  | .cpAddi _ _ _ => true
  | .cpAndi _ _ _ => true
  | .cpOri _ _ _ => true
  | .cpXori _ _ _ => true
  | .cpShli _ _ _ => true
  | .cpShri _ _ _ => true
  | .cpSari _ _ _ => true
  | .cpLim _ _ => true
  | .cpLimx _ _ _ => true
  | .cpCeq _ _ _ => true
  | .cpCne _ _ _ => true
  | .cpClt _ _ _ => true
  | .cpCle _ _ _ => true
  | .cpCltu _ _ _ => true
  | .cpCleu _ _ _ => true
  | .cpCeqi _ _ _ => true
  | .cpClti _ _ _ => true
  | .cpSel _ _ _ _ => true
  | .cpPut _ _ _ => true
  | .cpSpill _ _ _ => true
  | .cpFill _ _ => true
  | .cpLd8 _ _ _ => true
  | .cpLd8s _ _ _ => true
  | .cpLd16 _ _ _ => true
  | .cpLd16s _ _ _ => true
  | .cpLd32 _ _ _ => true
  | .cpLd32s _ _ _ => true
  | .cpLd64 _ _ _ => true
  | .cpLdt64 _ _ _ _ => true
  | .cpSt8 _ _ _ _ => true
  | .cpSt16 _ _ _ _ => true
  | .cpSt32 _ _ _ _ => true
  | .cpSt64 _ _ _ _ => true
  | .cpTagw _ _ _ => true
  | .cpTagr _ _ => true
  | .cpNld64 _ _ _ => true
  | .cpNst64 _ _ _ _ => true
  | .cpBr _ _ => true
  | .cpBz _ _ _ => true
  | .cpBnz _ _ _ => true
  | .cpBrx _ _ => true
  | .cpCall _ _ => true
  | .cpCallx _ _ => true
  | .cpRet _ => true
  | .cpLoop _ _ d _ => d != 0#13
  | .cpRdlcc _ => true
  | .cpRdwtc _ => true
  | .cpRdhdc _ => true
  | .cpRdflag _ => true
  | .cpClrflag _ _ => true
  | .ldBase _ sp _ => spaceOk sp
  | .ldDim _ _ _ _ => true
  | .ldFmt _ f _ _ => streamFmt f
  | .ldTag _ tm _ => tm == 0#2 || tm == 1#2
  | .ldRate _ n => n != 0#8
  | .ldStart _ => true
  | .ldStartTimed _ _ => true
  | .ldStop _ => true
  | .stBase _ sp _ => spaceOk sp
  | .stDim _ _ _ _ => true
  | .stFmt _ f _ _ _ => streamFmt f
  | .stTag _ tm _ => tm == 0#2 || tm == 2#2
  | .stRate _ n => n != 0#8
  | .stStart _ => true
  | .stStartTimed _ _ => true
  | .stStop _ => true
  | .grCfg _ _ => true
  | .grConst _ _ _ _ => true
  | .grStart _ _ => true
  | .grStop _ => true
  | .grVadd _ f md _ _ _ => flFmt f || (inFmt f && md == 0#2)
  | .grVsub _ f md _ _ _ => flFmt f || (inFmt f && md == 0#2)
  | .grVmul _ f md _ _ _ => flFmt f || (inFmt f && md == 0#2)
  | .grVmin _ f _ _ _ => flFmt f || inFmt f
  | .grVmax _ f _ _ _ => flFmt f || inFmt f
  | .grVand _ f _ _ _ => streamFmt f
  | .grVor _ f _ _ _ => streamFmt f
  | .grVxor _ f _ _ _ => streamFmt f
  | .grVsadd _ f _ _ _ => inFmt f
  | .grVcmp _ f pr _ _ _ => (flFmt f || inFmt f) && decide (pr.toNat ≤ 5)
  | .grVfma _ f md _ _ _ _ => flFmt f || (inFmt f && md == 0#2)
  | .grVsel _ f _ _ _ _ => flFmt f || inFmt f
  | .grVabs _ f _ _ => absFmt f
  | .grVneg _ f _ _ => absFmt f
  | .grVrcp _ f _ _ _ => sfFmt f
  | .grVrsqrt _ f _ _ _ => sfFmt f
  | .grVexp2 _ f _ _ _ => sfFmt f
  | .grVlog2 _ f _ _ _ => sfFmt f
  | .grVtanh _ f _ _ _ => sfFmt f
  | .grVsum _ f md _ _ => flFmt f || (inFmt f && md == 0#2)
  | .grVscan _ f md _ _ => flFmt f || (inFmt f && md == 0#2)
  | .grVfill _ f _ _ => streamFmt f
  | .grVcvt _ fs fd _ _ _ => cvtFmt fs && cvtFmt fd
  | .grVdot _ fs fd md _ _ _ => dotFmts fs fd md
  | .grVnqenc _ fs fd _ _ => (fs == 1#5 || fs == 3#5 || fs == 4#5) && (fd == 0x12#5 || fd == 0x13#5)
  | .grChain _ _ _ _ _ ops => decide (1 ≤ ops.length ∧ ops.length ≤ 8)
  | .cfLdst _ f _ => decide (f.toNat ≤ 0x13)
  | .cfFwd _ _ => true
  | .cfRpl _ p pe _ _ => pe == 1#1 || p == 0#2
  | .cfGrd _ p pe _ _ _ => pe == 1#1 || p == 0#2
  | .cfApl _ _ => true
  | .cfSwp _ _ => true
  | .cfNul _ av sd _ => sd == 1#1 || av == 0#1
  | .cfMode _ m => m != 3#2
  | .cfEta _ _ => true
  | .cfFade _ _ => true
  | .cfFmt _ af gf ofm _ => operandFmt af && operandFmt gf && outFmt ofm
  | .cfDrain _ ofm _ _ => outFmt ofm
  | .cfClra _ => true
  | .cfHsel _ _ => true
  | .cfHread _ _ => true
  | .cfHclr _ => true
  | .btCopy _ _ _ _ => true
  | .btOvl _ h _ _ => h == 0#2
  | .btPref _ _ _ => true
  | .btPrefTimed _ _ _ _ => true
  | .btNmc _ _ => true
  | .btNmfence _ _ _ => true
  | .btPin _ _ _ _ => true
  | .btUnpin _ _ => true
  | .btEchk _ m => decide (m.toNat ≤ 1)
  | .syBar _ sc => scopeOk sc
  | .syArrive _ sc _ => scopeOk sc
  | .syAwait _ sc _ => scopeOk sc
  | .syBind _ _ _ _ => true
  | .syRel _ sc _ => scopeOk sc
  | .syAcq _ sc _ _ => scopeOk sc
  | .syFence _ sc => scopeOk sc
  | .syAtom _ op f _ _ => (decide (op.toNat ≤ 5) && inFmt f) || (op == 6#4 && flFmt f)
  | .syAtomx _ op f _ _ _ _ _ => decide (op.toNat ≤ 5) && inFmt f
  | .syBatch _ _ _ => true
  | .sySafe _ _ _ => true
  | .syTrap _ _ => true
  | .sySyscall _ _ => true
  | .syEnd _ => true
  | .syResume _ _ => true
  | .syMfsr _ _ _ => true
  | .syMtsr _ _ _ => true
  | .syTlbi _ k _ => decide (k.toNat ≤ 2)
  | .syAsave _ _ => true
  | .syArest _ _ => true
  | .syGsave _ _ => true
  | .syGrest _ _ => true
  | .syHalt _ => true
  | .split => true
  | .cpResultDrop => true
  | .cpStoreLand => true
  | .holdEnd => true
  | .holdTimeout => true
  | .safeGapFault => true
  | .streamBeatRead => true
  | .streamBeatDeliver => true
  | .globalBeatLate _ _ => true
  | .storeBeatLand => true
  | .copyChunkRead => true
  | .copyChunkLand => true
  | .hbmCopyLand _ => true
  | .gridCfgDone => true
  | .gridContextExecute => true
  | .gridResultLand => true
  | .sinkFinish => true
  | .gridDone => true
  | .passStepRead => true
  | .passStepWrite => true
  | .frontCellStep => true
  | .drainPresent => true
  | .returnRegisterReplace => true
  | .ldstRowWrite => true
  | .drainRowWrite => true
  | .hreadLand => true
  | .barrierComplete => true
  | .releaseIncrement _ => true
  | .acquireComplete => true
  | .fenceComplete => true
  | .atomxApply _ => true
  | .atomxResultLand _ => true
  | .nmJobAccept _ => true
  | .nmJobComplete _ => true
  | .pageWalk => true
  | .handlerEntry => true
  | .prvEnter => true
  | .prvHltClear => true
  | .preemptRequest => true
  | .preemptPending => true
  | .preemptHoldStop => true
  | .taskCommit => true
  | .phaseCommit _ => true
  | .lncHeadWrite _ _ => true
  | .launchIntake _ => true
  | .bindRecordArm _ => true
  | .dispatchBind => true
  | .gangAlign => true
  | .governorTick => true
  | .controlInterval => true
  | .droopStretch _ => true
  | .thermalTrip _ => true
  | .lsgEnvUpWrite _ => true
  | .lsgCtlWrite _ => true
  | .repeatableModeApply => true
  | .quadGateRequest _ => true
  | .quadDrainEnd _ => true
  | .quadGated _ => true
  | .quadWakeRequest _ => true
  | .quadRiseDone _ => true
  | .targetGatedNack _ => true
  | .vltCtlWrite _ => true
  | .pcsSample => true
  | .partitionEnable _ => true
  | .partitionReset _ => true
  | .partitionResetDone _ => true
  | .warmReset => true
  | .coldReset => true
  | .correctableError _ _ => true
  | .uncorrectableError _ => true
  | .patrolScrub _ => true
  | .linkRetrain _ _ => true
  | .linkDown _ => true
  | .rhousAccess _ => true
  | .podRequest _ => true
  | .attestationQuote _ => true
  | .fwMinVersionRaise _ => true
  | .registerWrite _ _ => true
  | .abandonTask => true
  | .tlbiComplete => true
  | .saveRestoreComplete => true
  | .neighbourLoadRead => true
  | .mfsrWrite => true
  | .droopEnd _ => true
  | .ultraEthernetRequest _ => true
  | .configRecordWrite _ => true

/-- The literals of a word (R83). -/
def wfLits : Instr → Bool
  | .cpNop _ _ => true
  | .wait _ _ _ => true
  | .untilStamp _ _ _ => true
  | .cpAdd _ _ _ => true
  | .cpSub _ _ _ => true
  | .cpMul _ _ _ => true
  | .cpMulh _ _ _ => true
  | .cpAnd _ _ _ => true
  | .cpOr _ _ _ => true
  | .cpXor _ _ _ => true
  | .cpAndn _ _ _ => true
  | .cpShl _ _ _ => true
  | .cpShr _ _ _ => true
  | .cpSar _ _ _ => true
  | .cpMin _ _ _ => true
  | .cpMax _ _ _ => true
  | .cpAddi _ _ _ => true
  | .cpAndi _ _ _ => true
  | .cpOri _ _ _ => true
  | .cpXori _ _ _ => true
  | .cpShli _ _ _ => true
  | .cpShri _ _ _ => true
  | .cpSari _ _ _ => true
  | .cpLim _ _ => true
  | .cpLimx _ _ _ => true
  | .cpCeq _ _ _ => true
  | .cpCne _ _ _ => true
  | .cpClt _ _ _ => true
  | .cpCle _ _ _ => true
  | .cpCltu _ _ _ => true
  | .cpCleu _ _ _ => true
  | .cpCeqi _ _ _ => true
  | .cpClti _ _ _ => true
  | .cpSel _ _ _ _ => true
  | .cpPut _ _ _ => true
  | .cpSpill _ _ _ => true
  | .cpFill _ _ => true
  | .cpLd8 _ _ _ => true
  | .cpLd8s _ _ _ => true
  | .cpLd16 _ _ _ => true
  | .cpLd16s _ _ _ => true
  | .cpLd32 _ _ _ => true
  | .cpLd32s _ _ _ => true
  | .cpLd64 _ _ _ => true
  | .cpLdt64 _ _ _ _ => true
  | .cpSt8 _ _ _ _ => true
  | .cpSt16 _ _ _ _ => true
  | .cpSt32 _ _ _ _ => true
  | .cpSt64 _ _ _ _ => true
  | .cpTagw _ _ _ => true
  | .cpTagr _ _ => true
  | .cpNld64 _ _ _ => true
  | .cpNst64 _ _ _ _ => true
  | .cpBr _ _ => true
  | .cpBz _ _ _ => true
  | .cpBnz _ _ _ => true
  | .cpBrx _ _ => true
  | .cpCall _ _ => true
  | .cpCallx _ _ => true
  | .cpRet _ => true
  | .cpLoop _ _ _ _ => true
  | .cpRdlcc _ => true
  | .cpRdwtc _ => true
  | .cpRdhdc _ => true
  | .cpRdflag _ => true
  | .cpClrflag _ _ => true
  | .ldBase _ sp v => spaceIsGlobal sp || decide (v.toNat < 0x200000)
  | .ldDim _ _ _ _ => true
  | .ldFmt _ _ _ _ => true
  | .ldTag _ _ _ => true
  | .ldRate _ _ => true
  | .ldStart _ => true
  | .ldStartTimed _ _ => true
  | .ldStop _ => true
  | .stBase _ sp v => spaceIsGlobal sp || decide (v.toNat < 0x200000)
  | .stDim _ _ _ _ => true
  | .stFmt _ _ _ _ _ => true
  | .stTag _ _ _ => true
  | .stRate _ _ => true
  | .stStart _ => true
  | .stStartTimed _ _ => true
  | .stStop _ => true
  | .grCfg _ _ => true
  | .grConst _ _ _ _ => true
  | .grStart _ _ => true
  | .grStop _ => true
  | .grVadd _ _ _ _ _ _ => true
  | .grVsub _ _ _ _ _ _ => true
  | .grVmul _ _ _ _ _ _ => true
  | .grVmin _ _ _ _ _ => true
  | .grVmax _ _ _ _ _ => true
  | .grVand _ _ _ _ _ => true
  | .grVor _ _ _ _ _ => true
  | .grVxor _ _ _ _ _ => true
  | .grVsadd _ _ _ _ _ => true
  | .grVcmp _ _ _ _ _ _ => true
  | .grVfma _ _ _ _ _ _ _ => true
  | .grVsel _ _ _ _ _ _ => true
  | .grVabs _ _ _ _ => true
  | .grVneg _ _ _ _ => true
  | .grVrcp _ _ _ _ _ => true
  | .grVrsqrt _ _ _ _ _ => true
  | .grVexp2 _ _ _ _ _ => true
  | .grVlog2 _ _ _ _ _ => true
  | .grVtanh _ _ _ _ _ => true
  | .grVsum _ _ _ _ _ => true
  | .grVscan _ _ _ _ _ => true
  | .grVfill _ _ _ _ => true
  | .grVcvt _ _ _ _ _ _ => true
  | .grVdot _ _ _ _ _ _ _ => true
  | .grVnqenc _ _ _ _ _ => true
  | .grChain _ _ _ _ _ ops => ops.all opDescOk
  | .cfLdst _ _ _ => true
  | .cfFwd _ _ => true
  | .cfRpl _ _ _ _ _ => true
  | .cfGrd _ _ _ _ _ _ => true
  | .cfApl _ _ => true
  | .cfSwp _ _ => true
  | .cfNul _ _ _ _ => true
  | .cfMode _ _ => true
  | .cfEta _ _ => true
  | .cfFade _ _ => true
  | .cfFmt _ _ _ _ _ => true
  | .cfDrain _ _ _ _ => true
  | .cfClra _ => true
  | .cfHsel _ _ => true
  | .cfHread _ _ => true
  | .cfHclr _ => true
  | .btCopy _ _ _ _ => true
  | .btOvl _ _ _ _ => true
  | .btPref _ _ _ => true
  | .btPrefTimed _ _ _ _ => true
  | .btNmc _ _ => true
  | .btNmfence _ _ _ => true
  | .btPin _ _ _ _ => true
  | .btUnpin _ _ => true
  | .btEchk _ _ => true
  | .syBar _ _ => true
  | .syArrive _ _ _ => true
  | .syAwait _ _ _ => true
  | .syBind _ _ _ _ => true
  | .syRel _ _ _ => true
  | .syAcq _ _ _ _ => true
  | .syFence _ _ => true
  | .syAtom _ _ _ _ _ => true
  | .syAtomx _ _ _ _ _ _ _ _ => true
  | .syBatch _ _ _ => true
  | .sySafe _ _ _ => true
  | .syTrap _ _ => true
  | .sySyscall _ _ => true
  | .syEnd _ => true
  | .syResume _ _ => true
  | .syMfsr _ _ _ => true
  | .syMtsr _ _ _ => true
  | .syTlbi _ _ _ => true
  | .syAsave _ _ => true
  | .syArest _ _ => true
  | .syGsave _ _ => true
  | .syGrest _ _ => true
  | .syHalt _ => true
  | .split => true
  | .cpResultDrop => true
  | .cpStoreLand => true
  | .holdEnd => true
  | .holdTimeout => true
  | .safeGapFault => true
  | .streamBeatRead => true
  | .streamBeatDeliver => true
  | .globalBeatLate _ _ => true
  | .storeBeatLand => true
  | .copyChunkRead => true
  | .copyChunkLand => true
  | .hbmCopyLand _ => true
  | .gridCfgDone => true
  | .gridContextExecute => true
  | .gridResultLand => true
  | .sinkFinish => true
  | .gridDone => true
  | .passStepRead => true
  | .passStepWrite => true
  | .frontCellStep => true
  | .drainPresent => true
  | .returnRegisterReplace => true
  | .ldstRowWrite => true
  | .drainRowWrite => true
  | .hreadLand => true
  | .barrierComplete => true
  | .releaseIncrement _ => true
  | .acquireComplete => true
  | .fenceComplete => true
  | .atomxApply _ => true
  | .atomxResultLand _ => true
  | .nmJobAccept _ => true
  | .nmJobComplete _ => true
  | .pageWalk => true
  | .handlerEntry => true
  | .prvEnter => true
  | .prvHltClear => true
  | .preemptRequest => true
  | .preemptPending => true
  | .preemptHoldStop => true
  | .taskCommit => true
  | .phaseCommit _ => true
  | .lncHeadWrite _ _ => true
  | .launchIntake _ => true
  | .bindRecordArm _ => true
  | .dispatchBind => true
  | .gangAlign => true
  | .governorTick => true
  | .controlInterval => true
  | .droopStretch _ => true
  | .thermalTrip _ => true
  | .lsgEnvUpWrite _ => true
  | .lsgCtlWrite _ => true
  | .repeatableModeApply => true
  | .quadGateRequest _ => true
  | .quadDrainEnd _ => true
  | .quadGated _ => true
  | .quadWakeRequest _ => true
  | .quadRiseDone _ => true
  | .targetGatedNack _ => true
  | .vltCtlWrite _ => true
  | .pcsSample => true
  | .partitionEnable _ => true
  | .partitionReset _ => true
  | .partitionResetDone _ => true
  | .warmReset => true
  | .coldReset => true
  | .correctableError _ _ => true
  | .uncorrectableError _ => true
  | .patrolScrub _ => true
  | .linkRetrain _ _ => true
  | .linkDown _ => true
  | .rhousAccess _ => true
  | .podRequest _ => true
  | .attestationQuote _ => true
  | .fwMinVersionRaise _ => true
  | .registerWrite _ _ => true
  | .abandonTask => true
  | .tlbiComplete => true
  | .saveRestoreComplete => true
  | .neighbourLoadRead => true
  | .mfsrWrite => true
  | .droopEnd _ => true
  | .ultraEthernetRequest _ => true
  | .configRecordWrite _ => true

/-- An instruction the encoding tables admit. -/
def WellFormed (i : Instr) : Bool := wfWord i && wfLits i

/-- Whether an instruction is a word of the instruction stream (rows 0-159). -/
def isWord : Instr → Bool
  | .cpNop _ _ => true
  | .wait _ _ _ => true
  | .untilStamp _ _ _ => true
  | .cpAdd _ _ _ => true
  | .cpSub _ _ _ => true
  | .cpMul _ _ _ => true
  | .cpMulh _ _ _ => true
  | .cpAnd _ _ _ => true
  | .cpOr _ _ _ => true
  | .cpXor _ _ _ => true
  | .cpAndn _ _ _ => true
  | .cpShl _ _ _ => true
  | .cpShr _ _ _ => true
  | .cpSar _ _ _ => true
  | .cpMin _ _ _ => true
  | .cpMax _ _ _ => true
  | .cpAddi _ _ _ => true
  | .cpAndi _ _ _ => true
  | .cpOri _ _ _ => true
  | .cpXori _ _ _ => true
  | .cpShli _ _ _ => true
  | .cpShri _ _ _ => true
  | .cpSari _ _ _ => true
  | .cpLim _ _ => true
  | .cpLimx _ _ _ => true
  | .cpCeq _ _ _ => true
  | .cpCne _ _ _ => true
  | .cpClt _ _ _ => true
  | .cpCle _ _ _ => true
  | .cpCltu _ _ _ => true
  | .cpCleu _ _ _ => true
  | .cpCeqi _ _ _ => true
  | .cpClti _ _ _ => true
  | .cpSel _ _ _ _ => true
  | .cpPut _ _ _ => true
  | .cpSpill _ _ _ => true
  | .cpFill _ _ => true
  | .cpLd8 _ _ _ => true
  | .cpLd8s _ _ _ => true
  | .cpLd16 _ _ _ => true
  | .cpLd16s _ _ _ => true
  | .cpLd32 _ _ _ => true
  | .cpLd32s _ _ _ => true
  | .cpLd64 _ _ _ => true
  | .cpLdt64 _ _ _ _ => true
  | .cpSt8 _ _ _ _ => true
  | .cpSt16 _ _ _ _ => true
  | .cpSt32 _ _ _ _ => true
  | .cpSt64 _ _ _ _ => true
  | .cpTagw _ _ _ => true
  | .cpTagr _ _ => true
  | .cpNld64 _ _ _ => true
  | .cpNst64 _ _ _ _ => true
  | .cpBr _ _ => true
  | .cpBz _ _ _ => true
  | .cpBnz _ _ _ => true
  | .cpBrx _ _ => true
  | .cpCall _ _ => true
  | .cpCallx _ _ => true
  | .cpRet _ => true
  | .cpLoop _ _ _ _ => true
  | .cpRdlcc _ => true
  | .cpRdwtc _ => true
  | .cpRdhdc _ => true
  | .cpRdflag _ => true
  | .cpClrflag _ _ => true
  | .ldBase _ _ _ => true
  | .ldDim _ _ _ _ => true
  | .ldFmt _ _ _ _ => true
  | .ldTag _ _ _ => true
  | .ldRate _ _ => true
  | .ldStart _ => true
  | .ldStartTimed _ _ => true
  | .ldStop _ => true
  | .stBase _ _ _ => true
  | .stDim _ _ _ _ => true
  | .stFmt _ _ _ _ _ => true
  | .stTag _ _ _ => true
  | .stRate _ _ => true
  | .stStart _ => true
  | .stStartTimed _ _ => true
  | .stStop _ => true
  | .grCfg _ _ => true
  | .grConst _ _ _ _ => true
  | .grStart _ _ => true
  | .grStop _ => true
  | .grVadd _ _ _ _ _ _ => true
  | .grVsub _ _ _ _ _ _ => true
  | .grVmul _ _ _ _ _ _ => true
  | .grVmin _ _ _ _ _ => true
  | .grVmax _ _ _ _ _ => true
  | .grVand _ _ _ _ _ => true
  | .grVor _ _ _ _ _ => true
  | .grVxor _ _ _ _ _ => true
  | .grVsadd _ _ _ _ _ => true
  | .grVcmp _ _ _ _ _ _ => true
  | .grVfma _ _ _ _ _ _ _ => true
  | .grVsel _ _ _ _ _ _ => true
  | .grVabs _ _ _ _ => true
  | .grVneg _ _ _ _ => true
  | .grVrcp _ _ _ _ _ => true
  | .grVrsqrt _ _ _ _ _ => true
  | .grVexp2 _ _ _ _ _ => true
  | .grVlog2 _ _ _ _ _ => true
  | .grVtanh _ _ _ _ _ => true
  | .grVsum _ _ _ _ _ => true
  | .grVscan _ _ _ _ _ => true
  | .grVfill _ _ _ _ => true
  | .grVcvt _ _ _ _ _ _ => true
  | .grVdot _ _ _ _ _ _ _ => true
  | .grVnqenc _ _ _ _ _ => true
  | .grChain _ _ _ _ _ _ => true
  | .cfLdst _ _ _ => true
  | .cfFwd _ _ => true
  | .cfRpl _ _ _ _ _ => true
  | .cfGrd _ _ _ _ _ _ => true
  | .cfApl _ _ => true
  | .cfSwp _ _ => true
  | .cfNul _ _ _ _ => true
  | .cfMode _ _ => true
  | .cfEta _ _ => true
  | .cfFade _ _ => true
  | .cfFmt _ _ _ _ _ => true
  | .cfDrain _ _ _ _ => true
  | .cfClra _ => true
  | .cfHsel _ _ => true
  | .cfHread _ _ => true
  | .cfHclr _ => true
  | .btCopy _ _ _ _ => true
  | .btOvl _ _ _ _ => true
  | .btPref _ _ _ => true
  | .btPrefTimed _ _ _ _ => true
  | .btNmc _ _ => true
  | .btNmfence _ _ _ => true
  | .btPin _ _ _ _ => true
  | .btUnpin _ _ => true
  | .btEchk _ _ => true
  | .syBar _ _ => true
  | .syArrive _ _ _ => true
  | .syAwait _ _ _ => true
  | .syBind _ _ _ _ => true
  | .syRel _ _ _ => true
  | .syAcq _ _ _ _ => true
  | .syFence _ _ => true
  | .syAtom _ _ _ _ _ => true
  | .syAtomx _ _ _ _ _ _ _ _ => true
  | .syBatch _ _ _ => true
  | .sySafe _ _ _ => true
  | .syTrap _ _ => true
  | .sySyscall _ _ => true
  | .syEnd _ => true
  | .syResume _ _ => true
  | .syMfsr _ _ _ => true
  | .syMtsr _ _ _ => true
  | .syTlbi _ _ _ => true
  | .syAsave _ _ => true
  | .syArest _ _ => true
  | .syGsave _ _ => true
  | .syGrest _ _ => true
  | .syHalt _ => true
  | .split => false
  | .cpResultDrop => false
  | .cpStoreLand => false
  | .holdEnd => false
  | .holdTimeout => false
  | .safeGapFault => false
  | .streamBeatRead => false
  | .streamBeatDeliver => false
  | .globalBeatLate _ _ => false
  | .storeBeatLand => false
  | .copyChunkRead => false
  | .copyChunkLand => false
  | .hbmCopyLand _ => false
  | .gridCfgDone => false
  | .gridContextExecute => false
  | .gridResultLand => false
  | .sinkFinish => false
  | .gridDone => false
  | .passStepRead => false
  | .passStepWrite => false
  | .frontCellStep => false
  | .drainPresent => false
  | .returnRegisterReplace => false
  | .ldstRowWrite => false
  | .drainRowWrite => false
  | .hreadLand => false
  | .barrierComplete => false
  | .releaseIncrement _ => false
  | .acquireComplete => false
  | .fenceComplete => false
  | .atomxApply _ => false
  | .atomxResultLand _ => false
  | .nmJobAccept _ => false
  | .nmJobComplete _ => false
  | .pageWalk => false
  | .handlerEntry => false
  | .prvEnter => false
  | .prvHltClear => false
  | .preemptRequest => false
  | .preemptPending => false
  | .preemptHoldStop => false
  | .taskCommit => false
  | .phaseCommit _ => false
  | .lncHeadWrite _ _ => false
  | .launchIntake _ => false
  | .bindRecordArm _ => false
  | .dispatchBind => false
  | .gangAlign => false
  | .governorTick => false
  | .controlInterval => false
  | .droopStretch _ => false
  | .thermalTrip _ => false
  | .lsgEnvUpWrite _ => false
  | .lsgCtlWrite _ => false
  | .repeatableModeApply => false
  | .quadGateRequest _ => false
  | .quadDrainEnd _ => false
  | .quadGated _ => false
  | .quadWakeRequest _ => false
  | .quadRiseDone _ => false
  | .targetGatedNack _ => false
  | .vltCtlWrite _ => false
  | .pcsSample => false
  | .partitionEnable _ => false
  | .partitionReset _ => false
  | .partitionResetDone _ => false
  | .warmReset => false
  | .coldReset => false
  | .correctableError _ _ => false
  | .uncorrectableError _ => false
  | .patrolScrub _ => false
  | .linkRetrain _ _ => false
  | .linkDown _ => false
  | .rhousAccess _ => false
  | .podRequest _ => false
  | .attestationQuote _ => false
  | .fwMinVersionRaise _ => false
  | .registerWrite _ _ => false
  | .abandonTask => false
  | .tlbiComplete => false
  | .saveRestoreComplete => false
  | .neighbourLoadRead => false
  | .mfsrWrite => false
  | .droopEnd _ => false
  | .ultraEthernetRequest _ => false
  | .configRecordWrite _ => false

end Sys2Proof
end

