-- ==== Sys2Proof/Decode.lean ====
section
/-! DEFINITION. Decoding and encoding of instruction words (R78-R83, R85, R289), from the encoding tables of the
spec. Decoding is total on any list of words, and rejects by name. -/

namespace Sys2Proof

/-- Why words do not decode (R83). -/
inductive DecodeError where
  /-- no word at all -/
  | empty
  /-- a word with E = 7 where an instruction is expected -/
  | strayLiteral
  /-- an opcode R82 does not list -/
  | opcode
  /-- a nonzero reserved bit of the operand field -/
  | reserved
  /-- a reserved code, or a code the word does not accept -/
  | code
  /-- a required literal position that holds no literal -/
  | literalMissing
  /-- a nonzero reserved bit of a literal -/
  | literalReserved
  /-- a literal value the word does not accept -/
  | literalCode
  deriving DecidableEq, Repr

/-- What the word says of one of its literals: its reserved bits, and whether it is a chain descriptor. -/
structure LitRule where
  rsv : Lit
  desc : Bool
  deriving DecidableEq, Repr

/-- A row of R82: reserved bits of the operand field (R81), and the literals the word takes. -/
structure Row where
  rsv : BitVec 18
  lits : List LitRule
  deriving DecidableEq, Repr

/-- The literals TM selects (R80). -/
def tmRules (x : BitVec 18) : List LitRule :=
  if x.extractLsb' 16 2 = 1#2 then [⟨0#29, false⟩]
  else if x.extractLsb' 16 2 = 2#2 then [⟨0#29, false⟩, ⟨0#29, false⟩] else []

/-- The address literals of `ld.base` and `st.base` (R124): 57 bits in global space, 21 in an LM space. -/
def spaceRules (x : BitVec 18) : List LitRule :=
  if spaceIsGlobal (x.extractLsb' 15 3) then [⟨0x10000000#29, false⟩, ⟨0#29, false⟩]
  else [⟨0x1FFFFFFF#29, false⟩, ⟨0x1FE00000#29, false⟩]

/-- The literals of `gr.chain` (R219): dst, src, src2 if B, then the descriptors. -/
def chainRules (x : BitVec 18) : List LitRule :=
  [⟨0x1FFE0000#29, false⟩, ⟨0#29, false⟩, ⟨0x1FFE0000#29, false⟩, ⟨0#29, false⟩] ++
  (if x.getLsbD 12 then [⟨0x1FFE0000#29, false⟩, ⟨0#29, false⟩] else []) ++
  List.replicate ((x.extractLsb' 15 3).toNat + 1) ⟨0x1C000000#29, true⟩

/-- Literal k of a list of payloads. -/
def lit (l : List Lit) (k : Nat) : Lit := l.getD k 0#29
/-- The 58-bit value of literals k and k + 1 (R79, A58). -/
def v58 (l : List Lit) (k : Nat) : BitVec 58 := lit l k ++ lit l (k + 1)
/-- The region of literals k and k + 1 (R79, RG). -/
def region (l : List Lit) (k : Nat) : Region :=
  ⟨(lit l k).extractLsb' 0 17, (lit l (k + 1)).extractLsb' 16 13, (lit l (k + 1)).extractLsb' 0 16⟩
/-- The time TM names (R80). -/
def whenOf (x : BitVec 18) (l : List Lit) : When :=
  if x.extractLsb' 16 2 = 2#2 then .abs (v58 l 0) else .stamp (lit l 0)

/-- The word is one of those common to all engines (R82, R85). -/
def commonRow (op : Nat) : Option Row :=
  match op with
  | 0x00 => some ⟨0x3FFFF#18, []⟩
  | 0x01 => some ⟨0#18, []⟩
  | 0x7E => some ⟨0x3FFFF#18, [⟨0#29, false⟩]⟩
  | _ => none

/-- The instruction of a common word. -/
def commonBuild (e : BitVec 3) (op : Nat) (i : BitVec 4) (x : BitVec 18) (l : List Lit) : Option Instr :=
  match op with
  | 0x00 => some (.cpNop e i)
  | 0x01 => some (.wait e i x)
  | 0x7E => some (.untilStamp e i (lit l 0))
  | _ => none

/-- The rows of R82 for E = 0. -/
def rowsCP (op : Nat) (_x : BitVec 18) : Option Row :=
  match op with
  | 0x02 => some ⟨0xFF#18, []⟩
  | 0x03 => some ⟨0xFF#18, []⟩
  | 0x04 => some ⟨0xFF#18, []⟩
  | 0x05 => some ⟨0xFF#18, []⟩
  | 0x06 => some ⟨0xFF#18, []⟩
  | 0x07 => some ⟨0xFF#18, []⟩
  | 0x08 => some ⟨0xFF#18, []⟩
  | 0x09 => some ⟨0xFF#18, []⟩
  | 0x0A => some ⟨0xFF#18, []⟩
  | 0x0B => some ⟨0xFF#18, []⟩
  | 0x0C => some ⟨0xFF#18, []⟩
  | 0x0D => some ⟨0xFF#18, []⟩
  | 0x0E => some ⟨0xFF#18, []⟩
  | 0x10 => some ⟨0x0#18, []⟩
  | 0x11 => some ⟨0x0#18, []⟩
  | 0x12 => some ⟨0x0#18, []⟩
  | 0x13 => some ⟨0x0#18, []⟩
  | 0x14 => some ⟨0x1FC0#18, []⟩
  | 0x15 => some ⟨0x1FC0#18, []⟩
  | 0x16 => some ⟨0x1FC0#18, []⟩
  | 0x18 => some ⟨0x0#18, []⟩
  | 0x19 => some ⟨0xFFF#18, [⟨0#29, false⟩, ⟨0#29, false⟩]⟩
  | 0x1A => some ⟨0xFF#18, []⟩
  | 0x1B => some ⟨0xFF#18, []⟩
  | 0x1C => some ⟨0xFF#18, []⟩
  | 0x1D => some ⟨0xFF#18, []⟩
  | 0x1E => some ⟨0xFF#18, []⟩
  | 0x1F => some ⟨0xFF#18, []⟩
  | 0x20 => some ⟨0x0#18, []⟩
  | 0x21 => some ⟨0x0#18, []⟩
  | 0x22 => some ⟨0x7#18, []⟩
  | 0x23 => some ⟨0x1FF#18, []⟩
  | 0x24 => some ⟨0x1E00#18, []⟩
  | 0x25 => some ⟨0x3FE00#18, []⟩
  | 0x28 => some ⟨0x0#18, []⟩
  | 0x29 => some ⟨0x0#18, []⟩
  | 0x2A => some ⟨0x0#18, []⟩
  | 0x2B => some ⟨0x0#18, []⟩
  | 0x2C => some ⟨0x0#18, []⟩
  | 0x2D => some ⟨0x0#18, []⟩
  | 0x2E => some ⟨0x0#18, []⟩
  | 0x2F => some ⟨0x0#18, []⟩
  | 0x30 => some ⟨0x0#18, []⟩
  | 0x31 => some ⟨0x0#18, []⟩
  | 0x32 => some ⟨0x0#18, []⟩
  | 0x33 => some ⟨0x0#18, []⟩
  | 0x34 => some ⟨0xFF#18, []⟩
  | 0x35 => some ⟨0x1FFF#18, []⟩
  | 0x36 => some ⟨0x1F3F#18, []⟩
  | 0x37 => some ⟨0x3F#18, []⟩
  | 0x40 => some ⟨0x3C000#18, []⟩
  | 0x41 => some ⟨0x0#18, []⟩
  | 0x42 => some ⟨0x0#18, []⟩
  | 0x43 => some ⟨0x1FFF#18, []⟩
  | 0x44 => some ⟨0x3C000#18, []⟩
  | 0x45 => some ⟨0x1FFF#18, []⟩
  | 0x46 => some ⟨0x3FFFF#18, []⟩
  | 0x47 => some ⟨0x0#18, [⟨0#29, false⟩]⟩
  | 0x50 => some ⟨0x3FFFF#18, []⟩
  | 0x51 => some ⟨0x3FFFF#18, []⟩
  | 0x52 => some ⟨0x3FFFF#18, []⟩
  | 0x53 => some ⟨0x3FFFF#18, []⟩
  | 0x54 => some ⟨0x3FF00#18, []⟩
  | _ => commonRow op

/-- The instruction of a word of E = 0 from its fields and literals. -/
def buildCP (op : Nat) (i : BitVec 4) (x : BitVec 18) (l : List Lit) : Option Instr :=
  match op with
  | 0x02 => some (.cpAdd i (x.extractLsb' 13 5) (x.extractLsb' 8 5))
  | 0x03 => some (.cpSub i (x.extractLsb' 13 5) (x.extractLsb' 8 5))
  | 0x04 => some (.cpMul i (x.extractLsb' 13 5) (x.extractLsb' 8 5))
  | 0x05 => some (.cpMulh i (x.extractLsb' 13 5) (x.extractLsb' 8 5))
  | 0x06 => some (.cpAnd i (x.extractLsb' 13 5) (x.extractLsb' 8 5))
  | 0x07 => some (.cpOr i (x.extractLsb' 13 5) (x.extractLsb' 8 5))
  | 0x08 => some (.cpXor i (x.extractLsb' 13 5) (x.extractLsb' 8 5))
  | 0x09 => some (.cpAndn i (x.extractLsb' 13 5) (x.extractLsb' 8 5))
  | 0x0A => some (.cpShl i (x.extractLsb' 13 5) (x.extractLsb' 8 5))
  | 0x0B => some (.cpShr i (x.extractLsb' 13 5) (x.extractLsb' 8 5))
  | 0x0C => some (.cpSar i (x.extractLsb' 13 5) (x.extractLsb' 8 5))
  | 0x0D => some (.cpMin i (x.extractLsb' 13 5) (x.extractLsb' 8 5))
  | 0x0E => some (.cpMax i (x.extractLsb' 13 5) (x.extractLsb' 8 5))
  | 0x10 => some (.cpAddi i (x.extractLsb' 13 5) (x.extractLsb' 0 13))
  | 0x11 => some (.cpAndi i (x.extractLsb' 13 5) (x.extractLsb' 0 13))
  | 0x12 => some (.cpOri i (x.extractLsb' 13 5) (x.extractLsb' 0 13))
  | 0x13 => some (.cpXori i (x.extractLsb' 13 5) (x.extractLsb' 0 13))
  | 0x14 => some (.cpShli i (x.extractLsb' 13 5) (x.extractLsb' 0 6))
  | 0x15 => some (.cpShri i (x.extractLsb' 13 5) (x.extractLsb' 0 6))
  | 0x16 => some (.cpSari i (x.extractLsb' 13 5) (x.extractLsb' 0 6))
  | 0x18 => some (.cpLim i (x.extractLsb' 0 18))
  | 0x19 => some (.cpLimx i (x.extractLsb' 12 6) (v58 l 0))
  | 0x1A => some (.cpCeq i (x.extractLsb' 13 5) (x.extractLsb' 8 5))
  | 0x1B => some (.cpCne i (x.extractLsb' 13 5) (x.extractLsb' 8 5))
  | 0x1C => some (.cpClt i (x.extractLsb' 13 5) (x.extractLsb' 8 5))
  | 0x1D => some (.cpCle i (x.extractLsb' 13 5) (x.extractLsb' 8 5))
  | 0x1E => some (.cpCltu i (x.extractLsb' 13 5) (x.extractLsb' 8 5))
  | 0x1F => some (.cpCleu i (x.extractLsb' 13 5) (x.extractLsb' 8 5))
  | 0x20 => some (.cpCeqi i (x.extractLsb' 13 5) (x.extractLsb' 0 13))
  | 0x21 => some (.cpClti i (x.extractLsb' 13 5) (x.extractLsb' 0 13))
  | 0x22 => some (.cpSel i (x.extractLsb' 13 5) (x.extractLsb' 8 5) (x.extractLsb' 3 5))
  | 0x23 => some (.cpPut i (x.extractLsb' 14 4) (x.extractLsb' 9 5))
  | 0x24 => some (.cpSpill i (x.extractLsb' 13 5) (x.extractLsb' 0 9))
  | 0x25 => some (.cpFill i (x.extractLsb' 0 9))
  | 0x28 => some (.cpLd8 i (x.extractLsb' 13 5) (x.extractLsb' 0 13))
  | 0x29 => some (.cpLd8s i (x.extractLsb' 13 5) (x.extractLsb' 0 13))
  | 0x2A => some (.cpLd16 i (x.extractLsb' 13 5) (x.extractLsb' 0 13))
  | 0x2B => some (.cpLd16s i (x.extractLsb' 13 5) (x.extractLsb' 0 13))
  | 0x2C => some (.cpLd32 i (x.extractLsb' 13 5) (x.extractLsb' 0 13))
  | 0x2D => some (.cpLd32s i (x.extractLsb' 13 5) (x.extractLsb' 0 13))
  | 0x2E => some (.cpLd64 i (x.extractLsb' 13 5) (x.extractLsb' 0 13))
  | 0x2F => some (.cpLdt64 i (x.extractLsb' 13 5) (x.extractLsb' 8 5) (x.extractLsb' 0 8))
  | 0x30 => some (.cpSt8 i (x.extractLsb' 13 5) (x.extractLsb' 8 5) (x.extractLsb' 0 8))
  | 0x31 => some (.cpSt16 i (x.extractLsb' 13 5) (x.extractLsb' 8 5) (x.extractLsb' 0 8))
  | 0x32 => some (.cpSt32 i (x.extractLsb' 13 5) (x.extractLsb' 8 5) (x.extractLsb' 0 8))
  | 0x33 => some (.cpSt64 i (x.extractLsb' 13 5) (x.extractLsb' 8 5) (x.extractLsb' 0 8))
  | 0x34 => some (.cpTagw i (x.extractLsb' 13 5) (x.extractLsb' 8 5))
  | 0x35 => some (.cpTagr i (x.extractLsb' 13 5))
  | 0x36 => some (.cpNld64 i (x.extractLsb' 13 5) (x.extractLsb' 6 2))
  | 0x37 => some (.cpNst64 i (x.extractLsb' 13 5) (x.extractLsb' 8 5) (x.extractLsb' 6 2))
  | 0x40 => some (.cpBr i (x.extractLsb' 0 14))
  | 0x41 => some (.cpBz i (x.extractLsb' 14 4) (x.extractLsb' 0 14))
  | 0x42 => some (.cpBnz i (x.extractLsb' 14 4) (x.extractLsb' 0 14))
  | 0x43 => some (.cpBrx i (x.extractLsb' 13 5))
  | 0x44 => some (.cpCall i (x.extractLsb' 0 14))
  | 0x45 => some (.cpCallx i (x.extractLsb' 13 5))
  | 0x46 => some (.cpRet i)
  | 0x47 => some (.cpLoop i (x.extractLsb' 13 5) (x.extractLsb' 0 13) (lit l 0))
  | 0x50 => some (.cpRdlcc i)
  | 0x51 => some (.cpRdwtc i)
  | 0x52 => some (.cpRdhdc i)
  | 0x53 => some (.cpRdflag i)
  | 0x54 => some (.cpClrflag i (x.extractLsb' 0 8))
  | _ => commonBuild 0#3 op i x l

/-- The rows of R82 for E = 1. -/
def rowsLd (op : Nat) (x : BitVec 18) : Option Row :=
  match op with
  | 0x02 => some ⟨0x7FFF#18, spaceRules x⟩
  | 0x03 => some ⟨0x0#18, [⟨0x1FFFFFF8#29, false⟩, ⟨0#29, false⟩]⟩
  | 0x04 => some ⟨0xFF#18, []⟩
  | 0x05 => some ⟨0x0#18, []⟩
  | 0x06 => some ⟨0x3FF00#18, []⟩
  | 0x07 => some ⟨0xFFFF#18, tmRules x⟩
  | 0x08 => some ⟨0x3FFFF#18, []⟩
  | _ => commonRow op

/-- The instruction of a word of E = 1 from its fields and literals. -/
def buildLd (op : Nat) (i : BitVec 4) (x : BitVec 18) (l : List Lit) : Option Instr :=
  match op with
  | 0x02 => some (.ldBase i (x.extractLsb' 15 3) ((v58 l 0).setWidth 57))
  | 0x03 => some (.ldDim i (x.extractLsb' 16 2) (x.extractLsb' 0 16) ((v58 l 0).setWidth 32))
  | 0x04 => some (.ldFmt i (x.extractLsb' 13 5) (x.extractLsb' 10 3) (x.extractLsb' 8 2))
  | 0x05 => some (.ldTag i (x.extractLsb' 16 2) (x.extractLsb' 0 16))
  | 0x06 => some (.ldRate i (x.extractLsb' 0 8))
  | 0x07 => if x.extractLsb' 16 2 = 3#2 then none else if x.extractLsb' 16 2 = 0#2 then some (.ldStart i) else some (.ldStartTimed i (whenOf x l))
  | 0x08 => some (.ldStop i)
  | _ => commonBuild 1#3 op i x l

/-- The rows of R82 for E = 2. -/
def rowsSt (op : Nat) (x : BitVec 18) : Option Row :=
  match op with
  | 0x02 => some ⟨0x7FFF#18, spaceRules x⟩
  | 0x03 => some ⟨0x0#18, [⟨0x1FFFFFF8#29, false⟩, ⟨0#29, false⟩]⟩
  | 0x04 => some ⟨0x3F#18, []⟩
  | 0x05 => some ⟨0x0#18, []⟩
  | 0x06 => some ⟨0x3FF00#18, []⟩
  | 0x07 => some ⟨0xFFFF#18, tmRules x⟩
  | 0x08 => some ⟨0x3FFFF#18, []⟩
  | _ => commonRow op

/-- The instruction of a word of E = 2 from its fields and literals. -/
def buildSt (op : Nat) (i : BitVec 4) (x : BitVec 18) (l : List Lit) : Option Instr :=
  match op with
  | 0x02 => some (.stBase i (x.extractLsb' 15 3) ((v58 l 0).setWidth 57))
  | 0x03 => some (.stDim i (x.extractLsb' 16 2) (x.extractLsb' 0 16) ((v58 l 0).setWidth 32))
  | 0x04 => some (.stFmt i (x.extractLsb' 13 5) (x.extractLsb' 10 3) (x.extractLsb' 8 2) (x.extractLsb' 6 2))
  | 0x05 => some (.stTag i (x.extractLsb' 16 2) (x.extractLsb' 0 16))
  | 0x06 => some (.stRate i (x.extractLsb' 0 8))
  | 0x07 => if x.extractLsb' 16 2 = 3#2 then none else if x.extractLsb' 16 2 = 0#2 then some (.stStart i) else some (.stStartTimed i (whenOf x l))
  | 0x08 => some (.stStop i)
  | _ => commonBuild 2#3 op i x l

/-- The rows of R82 for E = 3. -/
def rowsGrid (op : Nat) (x : BitVec 18) : Option Row :=
  match op with
  | 0x02 => some ⟨0xFF#18, []⟩
  | 0x03 => some ⟨0xFF#18, [⟨0x1FFFFFF8#29, false⟩, ⟨0#29, false⟩]⟩
  | 0x04 => some ⟨0x3FFFF#18, [⟨0#29, false⟩]⟩
  | 0x05 => some ⟨0x3FFFF#18, []⟩
  | 0x10 => some ⟨0x7FF#18, [⟨0x1FFE0000#29, false⟩, ⟨0#29, false⟩, ⟨0x1FFE0000#29, false⟩, ⟨0#29, false⟩, ⟨0x1FFE0000#29, false⟩, ⟨0#29, false⟩]⟩
  | 0x11 => some ⟨0x7FF#18, [⟨0x1FFE0000#29, false⟩, ⟨0#29, false⟩, ⟨0x1FFE0000#29, false⟩, ⟨0#29, false⟩, ⟨0x1FFE0000#29, false⟩, ⟨0#29, false⟩]⟩
  | 0x12 => some ⟨0x7FF#18, [⟨0x1FFE0000#29, false⟩, ⟨0#29, false⟩, ⟨0x1FFE0000#29, false⟩, ⟨0#29, false⟩, ⟨0x1FFE0000#29, false⟩, ⟨0#29, false⟩]⟩
  | 0x13 => some ⟨0x1FFF#18, [⟨0x1FFE0000#29, false⟩, ⟨0#29, false⟩, ⟨0x1FFE0000#29, false⟩, ⟨0#29, false⟩, ⟨0x1FFE0000#29, false⟩, ⟨0#29, false⟩]⟩
  | 0x14 => some ⟨0x1FFF#18, [⟨0x1FFE0000#29, false⟩, ⟨0#29, false⟩, ⟨0x1FFE0000#29, false⟩, ⟨0#29, false⟩, ⟨0x1FFE0000#29, false⟩, ⟨0#29, false⟩]⟩
  | 0x15 => some ⟨0x1FFF#18, [⟨0x1FFE0000#29, false⟩, ⟨0#29, false⟩, ⟨0x1FFE0000#29, false⟩, ⟨0#29, false⟩, ⟨0x1FFE0000#29, false⟩, ⟨0#29, false⟩]⟩
  | 0x16 => some ⟨0x1FFF#18, [⟨0x1FFE0000#29, false⟩, ⟨0#29, false⟩, ⟨0x1FFE0000#29, false⟩, ⟨0#29, false⟩, ⟨0x1FFE0000#29, false⟩, ⟨0#29, false⟩]⟩
  | 0x17 => some ⟨0x1FFF#18, [⟨0x1FFE0000#29, false⟩, ⟨0#29, false⟩, ⟨0x1FFE0000#29, false⟩, ⟨0#29, false⟩, ⟨0x1FFE0000#29, false⟩, ⟨0#29, false⟩]⟩
  | 0x18 => some ⟨0x1FFF#18, [⟨0x1FFE0000#29, false⟩, ⟨0#29, false⟩, ⟨0x1FFE0000#29, false⟩, ⟨0#29, false⟩, ⟨0x1FFE0000#29, false⟩, ⟨0#29, false⟩]⟩
  | 0x19 => some ⟨0x18FF#18, [⟨0x1FFE0000#29, false⟩, ⟨0#29, false⟩, ⟨0x1FFE0000#29, false⟩, ⟨0#29, false⟩, ⟨0x1FFE0000#29, false⟩, ⟨0#29, false⟩]⟩
  | 0x1A => some ⟨0x7FF#18, [⟨0x1FFE0000#29, false⟩, ⟨0#29, false⟩, ⟨0x1FFE0000#29, false⟩, ⟨0#29, false⟩, ⟨0x1FFE0000#29, false⟩, ⟨0#29, false⟩, ⟨0x1FFE0000#29, false⟩, ⟨0#29, false⟩]⟩
  | 0x1B => some ⟨0x1FFF#18, [⟨0x1FFE0000#29, false⟩, ⟨0#29, false⟩, ⟨0x1FFE0000#29, false⟩, ⟨0#29, false⟩, ⟨0x1FFE0000#29, false⟩, ⟨0#29, false⟩, ⟨0x1FFE0000#29, false⟩, ⟨0#29, false⟩]⟩
  | 0x20 => some ⟨0x1FFF#18, [⟨0x1FFE0000#29, false⟩, ⟨0#29, false⟩, ⟨0x1FFE0000#29, false⟩, ⟨0#29, false⟩]⟩
  | 0x21 => some ⟨0x1FFF#18, [⟨0x1FFE0000#29, false⟩, ⟨0#29, false⟩, ⟨0x1FFE0000#29, false⟩, ⟨0#29, false⟩]⟩
  | 0x22 => some ⟨0x7FF#18, [⟨0x1FFE0000#29, false⟩, ⟨0#29, false⟩, ⟨0x1FFE0000#29, false⟩, ⟨0#29, false⟩]⟩
  | 0x23 => some ⟨0x7FF#18, [⟨0x1FFE0000#29, false⟩, ⟨0#29, false⟩, ⟨0x1FFE0000#29, false⟩, ⟨0#29, false⟩]⟩
  | 0x24 => some ⟨0x7FF#18, [⟨0x1FFE0000#29, false⟩, ⟨0#29, false⟩, ⟨0x1FFE0000#29, false⟩, ⟨0#29, false⟩]⟩
  | 0x25 => some ⟨0x7FF#18, [⟨0x1FFE0000#29, false⟩, ⟨0#29, false⟩, ⟨0x1FFE0000#29, false⟩, ⟨0#29, false⟩]⟩
  | 0x26 => some ⟨0x7FF#18, [⟨0x1FFE0000#29, false⟩, ⟨0#29, false⟩, ⟨0x1FFE0000#29, false⟩, ⟨0#29, false⟩]⟩
  | 0x27 => some ⟨0x7FF#18, [⟨0x1FFE0000#29, false⟩, ⟨0#29, false⟩, ⟨0x1FFE0000#29, false⟩, ⟨0#29, false⟩]⟩
  | 0x28 => some ⟨0x7FF#18, [⟨0x1FFE0000#29, false⟩, ⟨0#29, false⟩, ⟨0x1FFE0000#29, false⟩, ⟨0#29, false⟩]⟩
  | 0x29 => some ⟨0x1FFF#18, [⟨0x1FFE0000#29, false⟩, ⟨0#29, false⟩, ⟨0x1FFFFFF8#29, false⟩, ⟨0#29, false⟩]⟩
  | 0x30 => some ⟨0x3F#18, [⟨0x1FFE0000#29, false⟩, ⟨0#29, false⟩, ⟨0x1FFE0000#29, false⟩, ⟨0#29, false⟩]⟩
  | 0x31 => some ⟨0x3F#18, [⟨0x1FFE0000#29, false⟩, ⟨0#29, false⟩, ⟨0x1FFE0000#29, false⟩, ⟨0#29, false⟩, ⟨0x1FFE0000#29, false⟩, ⟨0#29, false⟩]⟩
  | 0x32 => some ⟨0xFF#18, [⟨0x1FFE0000#29, false⟩, ⟨0#29, false⟩, ⟨0x1FFE0000#29, false⟩, ⟨0#29, false⟩]⟩
  | 0x06 => some ⟨0xFFF#18, chainRules x⟩
  | _ => commonRow op

/-- The instruction of a word of E = 3 from its fields and literals. -/
def buildGrid (op : Nat) (i : BitVec 4) (x : BitVec 18) (l : List Lit) : Option Instr :=
  match op with
  | 0x02 => some (.grCfg i (x.extractLsb' 8 10))
  | 0x03 => some (.grConst i (x.extractLsb' 12 6) (x.extractLsb' 8 4) ((v58 l 0).setWidth 32))
  | 0x04 => some (.grStart i (lit l 0))
  | 0x05 => some (.grStop i)
  | 0x10 => some (.grVadd i (x.extractLsb' 13 5) (x.extractLsb' 11 2) (region l 0) (region l 2) (region l 4))
  | 0x11 => some (.grVsub i (x.extractLsb' 13 5) (x.extractLsb' 11 2) (region l 0) (region l 2) (region l 4))
  | 0x12 => some (.grVmul i (x.extractLsb' 13 5) (x.extractLsb' 11 2) (region l 0) (region l 2) (region l 4))
  | 0x13 => some (.grVmin i (x.extractLsb' 13 5) (region l 0) (region l 2) (region l 4))
  | 0x14 => some (.grVmax i (x.extractLsb' 13 5) (region l 0) (region l 2) (region l 4))
  | 0x15 => some (.grVand i (x.extractLsb' 13 5) (region l 0) (region l 2) (region l 4))
  | 0x16 => some (.grVor i (x.extractLsb' 13 5) (region l 0) (region l 2) (region l 4))
  | 0x17 => some (.grVxor i (x.extractLsb' 13 5) (region l 0) (region l 2) (region l 4))
  | 0x18 => some (.grVsadd i (x.extractLsb' 13 5) (region l 0) (region l 2) (region l 4))
  | 0x19 => some (.grVcmp i (x.extractLsb' 13 5) (x.extractLsb' 8 3) (region l 0) (region l 2) (region l 4))
  | 0x1A => some (.grVfma i (x.extractLsb' 13 5) (x.extractLsb' 11 2) (region l 0) (region l 2) (region l 4) (region l 6))
  | 0x1B => some (.grVsel i (x.extractLsb' 13 5) (region l 0) (region l 2) (region l 4) (region l 6))
  | 0x20 => some (.grVabs i (x.extractLsb' 13 5) (region l 0) (region l 2))
  | 0x21 => some (.grVneg i (x.extractLsb' 13 5) (region l 0) (region l 2))
  | 0x22 => some (.grVrcp i (x.extractLsb' 13 5) (x.extractLsb' 11 2) (region l 0) (region l 2))
  | 0x23 => some (.grVrsqrt i (x.extractLsb' 13 5) (x.extractLsb' 11 2) (region l 0) (region l 2))
  | 0x24 => some (.grVexp2 i (x.extractLsb' 13 5) (x.extractLsb' 11 2) (region l 0) (region l 2))
  | 0x25 => some (.grVlog2 i (x.extractLsb' 13 5) (x.extractLsb' 11 2) (region l 0) (region l 2))
  | 0x26 => some (.grVtanh i (x.extractLsb' 13 5) (x.extractLsb' 11 2) (region l 0) (region l 2))
  | 0x27 => some (.grVsum i (x.extractLsb' 13 5) (x.extractLsb' 11 2) (region l 0) (region l 2))
  | 0x28 => some (.grVscan i (x.extractLsb' 13 5) (x.extractLsb' 11 2) (region l 0) (region l 2))
  | 0x29 => some (.grVfill i (x.extractLsb' 13 5) (region l 0) ((v58 l 2).setWidth 32))
  | 0x30 => some (.grVcvt i (x.extractLsb' 13 5) (x.extractLsb' 8 5) (x.extractLsb' 6 2) (region l 0) (region l 2))
  | 0x31 => some (.grVdot i (x.extractLsb' 13 5) (x.extractLsb' 8 5) (x.extractLsb' 6 2) (region l 0) (region l 2) (region l 4))
  | 0x32 => some (.grVnqenc i (x.extractLsb' 13 5) (x.extractLsb' 8 5) (region l 0) (region l 2))
  | 0x06 => some (.grChain i (x.extractLsb' 13 2) (region l 0) (region l 2) (if x.getLsbD 12 then some (region l 4) else none) (l.drop (if x.getLsbD 12 then 6 else 4)))
  | _ => commonBuild 3#3 op i x l

/-- The rows of R82 for E = 4. -/
def rowsCfa (op : Nat) (_x : BitVec 18) : Option Row :=
  match op with
  | 0x02 => some ⟨0x1FFF#18, [⟨0x1FE00000#29, false⟩]⟩
  | 0x03 => some ⟨0x3FFFF#18, [⟨0#29, false⟩]⟩
  | 0x04 => some ⟨0x3FFF#18, [⟨0#29, false⟩]⟩
  | 0x05 => some ⟨0x1FFF#18, [⟨0#29, false⟩]⟩
  | 0x06 => some ⟨0x3FFFF#18, [⟨0#29, false⟩]⟩
  | 0x07 => some ⟨0x3FFFF#18, [⟨0#29, false⟩]⟩
  | 0x08 => some ⟨0x3CFFF#18, [⟨0#29, false⟩]⟩
  | 0x10 => some ⟨0xFFFF#18, []⟩
  | 0x11 => some ⟨0x3FFFF#18, [⟨0x1FFFFFF8#29, false⟩, ⟨0#29, false⟩]⟩
  | 0x12 => some ⟨0x3FFFF#18, [⟨0x1FFFFFF8#29, false⟩, ⟨0#29, false⟩]⟩
  | 0x13 => some ⟨0x1#18, []⟩
  | 0x14 => some ⟨0x7FF#18, [⟨0x1FE00000#29, false⟩]⟩
  | 0x15 => some ⟨0x3FFFF#18, []⟩
  | 0x16 => some ⟨0xFFFF#18, []⟩
  | 0x17 => some ⟨0x3FFFF#18, [⟨0x1FE00000#29, false⟩]⟩
  | 0x18 => some ⟨0x3FFFF#18, []⟩
  | _ => commonRow op

/-- The instruction of a word of E = 4 from its fields and literals. -/
def buildCfa (op : Nat) (i : BitVec 4) (x : BitVec 18) (l : List Lit) : Option Instr :=
  match op with
  | 0x02 => some (.cfLdst i (x.extractLsb' 13 5) ((lit l 0).setWidth 21))
  | 0x03 => some (.cfFwd i (lit l 0))
  | 0x04 => some (.cfRpl i (x.extractLsb' 16 2) (x.extractLsb' 15 1) (x.extractLsb' 14 1) (lit l 0))
  | 0x05 => some (.cfGrd i (x.extractLsb' 16 2) (x.extractLsb' 15 1) (x.extractLsb' 14 1) (x.extractLsb' 13 1) (lit l 0))
  | 0x06 => some (.cfApl i (lit l 0))
  | 0x07 => some (.cfSwp i (lit l 0))
  | 0x08 => some (.cfNul i (x.extractLsb' 13 1) (x.extractLsb' 12 1) (lit l 0))
  | 0x10 => some (.cfMode i (x.extractLsb' 16 2))
  | 0x11 => some (.cfEta i ((v58 l 0).setWidth 32))
  | 0x12 => some (.cfFade i ((v58 l 0).setWidth 32))
  | 0x13 => some (.cfFmt i (x.extractLsb' 13 5) (x.extractLsb' 8 5) (x.extractLsb' 3 5) (x.extractLsb' 1 2))
  | 0x14 => some (.cfDrain i (x.extractLsb' 13 5) (x.extractLsb' 11 2) ((lit l 0).setWidth 21))
  | 0x15 => some (.cfClra i)
  | 0x16 => some (.cfHsel i (x.extractLsb' 16 2))
  | 0x17 => some (.cfHread i ((lit l 0).setWidth 21))
  | 0x18 => some (.cfHclr i)
  | _ => commonBuild 4#3 op i x l

/-- The rows of R82 for E = 5. -/
def rowsBte (op : Nat) (x : BitVec 18) : Option Row :=
  match op with
  | 0x02 => some ⟨0x0#18, tmRules x⟩
  | 0x03 => some ⟨0x0#18, tmRules x⟩
  | 0x04 => some ⟨0x0#18, tmRules x⟩
  | 0x05 => some ⟨0x3FFFF#18, [⟨0x10000000#29, false⟩, ⟨0#29, false⟩]⟩
  | 0x06 => some ⟨0x3FFFF#18, [⟨0x10000000#29, false⟩, ⟨0#29, false⟩, ⟨0#29, false⟩]⟩
  | 0x07 => some ⟨0x7FFF#18, [⟨0x10000000#29, false⟩, ⟨0#29, false⟩, ⟨0#29, false⟩]⟩
  | 0x08 => some ⟨0x7FFF#18, []⟩
  | 0x09 => some ⟨0xFFFF#18, []⟩
  | _ => commonRow op

/-- The instruction of a word of E = 5 from its fields and literals. -/
def buildBte (op : Nat) (i : BitVec 4) (x : BitVec 18) (l : List Lit) : Option Instr :=
  match op with
  | 0x02 => if x.extractLsb' 16 2 = 1#2 ∨ x.extractLsb' 16 2 = 2#2 then some (.btCopy i (x.extractLsb' 14 2) (x.extractLsb' 0 14) (whenOf x l)) else none
  | 0x03 => if x.extractLsb' 16 2 = 1#2 ∨ x.extractLsb' 16 2 = 2#2 then some (.btOvl i (x.extractLsb' 14 2) (x.extractLsb' 0 14) (whenOf x l)) else none
  | 0x04 => if x.extractLsb' 16 2 = 3#2 then none else if x.extractLsb' 16 2 = 0#2 then some (.btPref i (x.extractLsb' 14 2) (x.extractLsb' 0 14)) else some (.btPrefTimed i (x.extractLsb' 14 2) (x.extractLsb' 0 14) (whenOf x l))
  | 0x05 => some (.btNmc i ((v58 l 0).setWidth 57))
  | 0x06 => some (.btNmfence i ((v58 l 0).setWidth 57) (lit l 2))
  | 0x07 => some (.btPin i (x.extractLsb' 15 3) ((v58 l 0).setWidth 57) (lit l 2))
  | 0x08 => some (.btUnpin i (x.extractLsb' 15 3))
  | 0x09 => some (.btEchk i (x.extractLsb' 16 2))
  | _ => commonBuild 5#3 op i x l

/-- The rows of R82 for E = 6. -/
def rowsSyn (op : Nat) (_x : BitVec 18) : Option Row :=
  match op with
  | 0x02 => some ⟨0x7FFF#18, []⟩
  | 0x03 => some ⟨0x7FF#18, []⟩
  | 0x04 => some ⟨0x7FF#18, []⟩
  | 0x05 => some ⟨0x3FFFF#18, [⟨0x10000000#29, false⟩, ⟨0#29, false⟩, ⟨0x10000000#29, false⟩, ⟨0#29, false⟩, ⟨0#29, false⟩]⟩
  | 0x06 => some ⟨0x7FFF#18, [⟨0x10000000#29, false⟩, ⟨0#29, false⟩]⟩
  | 0x07 => some ⟨0x7FFF#18, [⟨0x10000000#29, false⟩, ⟨0#29, false⟩, ⟨0#29, false⟩, ⟨0#29, false⟩]⟩
  | 0x08 => some ⟨0x7FFF#18, []⟩
  | 0x09 => some ⟨0x1FF#18, [⟨0x10000000#29, false⟩, ⟨0#29, false⟩, ⟨0x1FE00000#29, false⟩]⟩
  | 0x0A => some ⟨0x3F#18, [⟨0x10000000#29, false⟩, ⟨0#29, false⟩, ⟨0x1FE00000#29, false⟩, ⟨0x1FE00000#29, false⟩, ⟨0x1FFF0000#29, false⟩]⟩
  | 0x0B => some ⟨0x7FFF#18, [⟨0#29, false⟩]⟩
  | 0x0C => some ⟨0x30000#18, [⟨0#29, false⟩]⟩
  | 0x0D => some ⟨0x0#18, []⟩
  | 0x0E => some ⟨0x0#18, []⟩
  | 0x0F => some ⟨0x3FFFF#18, []⟩
  | 0x60 => some ⟨0x3FFFF#18, [⟨0x1F800000#29, false⟩, ⟨0#29, false⟩]⟩
  | 0x61 => some ⟨0x3F#18, [⟨0x1FE00000#29, false⟩]⟩
  | 0x62 => some ⟨0x3F#18, [⟨0x1FE00000#29, false⟩]⟩
  | 0x63 => some ⟨0x7FFF#18, [⟨0x10000000#29, false⟩, ⟨0#29, false⟩]⟩
  | 0x64 => some ⟨0x3FFFF#18, [⟨0x1F800000#29, false⟩, ⟨0#29, false⟩]⟩
  | 0x65 => some ⟨0x3FFFF#18, [⟨0x1F800000#29, false⟩, ⟨0#29, false⟩]⟩
  | 0x66 => some ⟨0x3FFFF#18, [⟨0x1F800000#29, false⟩, ⟨0#29, false⟩]⟩
  | 0x67 => some ⟨0x3FFFF#18, [⟨0x1F800000#29, false⟩, ⟨0#29, false⟩]⟩
  | 0x68 => some ⟨0x3FFFF#18, []⟩
  | _ => commonRow op

/-- The instruction of a word of E = 6 from its fields and literals. -/
def buildSyn (op : Nat) (i : BitVec 4) (x : BitVec 18) (l : List Lit) : Option Instr :=
  match op with
  | 0x02 => some (.syBar i (x.extractLsb' 15 3))
  | 0x03 => some (.syArrive i (x.extractLsb' 15 3) (x.extractLsb' 11 4))
  | 0x04 => some (.syAwait i (x.extractLsb' 15 3) (x.extractLsb' 11 4))
  | 0x05 => some (.syBind i ((v58 l 0).setWidth 57) ((v58 l 2).setWidth 57) (lit l 4))
  | 0x06 => some (.syRel i (x.extractLsb' 15 3) ((v58 l 0).setWidth 57))
  | 0x07 => some (.syAcq i (x.extractLsb' 15 3) ((v58 l 0).setWidth 57) (v58 l 2))
  | 0x08 => some (.syFence i (x.extractLsb' 15 3))
  | 0x09 => some (.syAtom i (x.extractLsb' 14 4) (x.extractLsb' 9 5) ((v58 l 0).setWidth 57) ((lit l 2).setWidth 21))
  | 0x0A => some (.syAtomx i (x.extractLsb' 14 4) (x.extractLsb' 9 5) (x.extractLsb' 6 3) ((v58 l 0).setWidth 57) ((lit l 2).setWidth 21) ((lit l 3).setWidth 21) ((lit l 4).setWidth 16))
  | 0x0B => some (.syBatch i (x.extractLsb' 15 3) (lit l 0))
  | 0x0C => some (.sySafe i (x.extractLsb' 0 16) (lit l 0))
  | 0x0D => some (.syTrap i (x.extractLsb' 0 18))
  | 0x0E => some (.sySyscall i (x.extractLsb' 0 18))
  | 0x0F => some (.syEnd i)
  | 0x60 => some (.syResume i ((v58 l 0).setWidth 52))
  | 0x61 => some (.syMfsr i (x.extractLsb' 6 12) ((lit l 0).setWidth 21))
  | 0x62 => some (.syMtsr i (x.extractLsb' 6 12) ((lit l 0).setWidth 21))
  | 0x63 => some (.syTlbi i (x.extractLsb' 15 3) ((v58 l 0).setWidth 57))
  | 0x64 => some (.syAsave i ((v58 l 0).setWidth 52))
  | 0x65 => some (.syArest i ((v58 l 0).setWidth 52))
  | 0x66 => some (.syGsave i ((v58 l 0).setWidth 52))
  | 0x67 => some (.syGrest i ((v58 l 0).setWidth 52))
  | 0x68 => some (.syHalt i)
  | _ => commonBuild 6#3 op i x l

/-- The row of a word (R82); none for an unassigned opcode and for E = 7. -/
def rowOf (e : BitVec 3) (op : BitVec 7) (x : BitVec 18) : Option Row :=
  match e.toNat with
  | 0 => rowsCP op.toNat x
  | 1 => rowsLd op.toNat x
  | 2 => rowsSt op.toNat x
  | 3 => rowsGrid op.toNat x
  | 4 => rowsCfa op.toNat x
  | 5 => rowsBte op.toNat x
  | 6 => rowsSyn op.toNat x
  | _ => none

/-- The instruction of a word, from its fields and its literals. -/
def build (e : BitVec 3) (op : BitVec 7) (i : BitVec 4) (x : BitVec 18) (l : List Lit) : Option Instr :=
  match e.toNat with
  | 0 => buildCP op.toNat i x l
  | 1 => buildLd op.toNat i x l
  | 2 => buildSt op.toNat i x l
  | 3 => buildGrid op.toNat i x l
  | 4 => buildCfa op.toNat i x l
  | 5 => buildBte op.toNat i x l
  | 6 => buildSyn op.toNat i x l
  | _ => none

/-- The fields of R78. -/
def engOf (w : W32) : BitVec 3 := w.extractLsb' 29 3
def idleOf (w : W32) : BitVec 4 := w.extractLsb' 25 4
def opOf (w : W32) : BitVec 7 := w.extractLsb' 18 7
def operOf (w : W32) : BitVec 18 := w.extractLsb' 0 18
/-- The payload of a literal (R79). -/
def payload (w : W32) : Lit := w.extractLsb' 0 29
/-- Whether a word is a literal (R79). -/
def isLit (w : W32) : Bool := engOf w == 7#3

/-- The opcodes marked privileged (R82). -/
def isPriv (w : W32) : Bool := engOf w == 6#3 && decide (0x60 ≤ (opOf w).toNat ∧ (opOf w).toNat ≤ 0x68)

/-- The control words (R88). -/
def isControl (w : W32) : Bool :=
  (engOf w == 0#3 && decide (0x40 ≤ (opOf w).toNat ∧ (opOf w).toNat ≤ 0x47))
  || (engOf w == 6#3 && (opOf w == 0x0F#7 || opOf w == 0x60#7 || opOf w == 0x68#7))

/-- The literals a word takes (R82). -/
def litRules (w : W32) : List LitRule := ((rowOf (engOf w) (opOf w) (operOf w)).map Row.lits).getD []

/-- The check of a word without its literals (R83): what the splitter tests when it places the word. -/
def checkWord (w : W32) : Except DecodeError Unit :=
  if isLit w then .error .strayLiteral
  else match rowOf (engOf w) (opOf w) (operOf w) with
    | none => .error .opcode
    | some r =>
      if operOf w &&& r.rsv ≠ 0#18 then .error .reserved
      else match build (engOf w) (opOf w) (idleOf w) (operOf w) (r.lits.map fun _ => 0#29) with
        | none => .error .code
        | some i => if wfWord i then .ok () else .error .code

/-- The check of one literal (R83). -/
def checkLit (r : LitRule) (w : W32) : Except DecodeError Unit :=
  if !isLit w then .error .literalMissing
  else if payload w &&& r.rsv ≠ 0#29 then .error .literalReserved
  else if r.desc && !opDescOk (payload w) then .error .literalCode
  else .ok ()

/-- Take the literals a word needs from the words that follow it. -/
def takeLits : List LitRule → List W32 → Except DecodeError (List Lit × List W32)
  | [], ws => .ok ([], ws)
  | _ :: _, [] => .error .literalMissing
  | r :: rs, w :: ws =>
    match checkLit r w with
    | .error x => .error x
    | .ok _ => match takeLits rs ws with
      | .error x => .error x
      | .ok (l, rest) => .ok (payload w :: l, rest)

/-- Decode the first instruction of a list of words. -/
def decodeWords : List W32 → Except DecodeError (Instr × List W32)
  | [] => .error .empty
  | w :: ws =>
    if isLit w then .error .strayLiteral
    else match rowOf (engOf w) (opOf w) (operOf w) with
      | none => .error .opcode
      | some r =>
        if operOf w &&& r.rsv ≠ 0#18 then .error .reserved
        else match takeLits r.lits ws with
          | .error x => .error x
          | .ok (l, rest) =>
            match build (engOf w) (opOf w) (idleOf w) (operOf w) l with
            | none => .error .code
            | some i => if WellFormed i then .ok (i, rest) else .error .code

/-- The words of little-endian bytes (R5). -/
def wordsOf : List Byte → List W32
  | a :: b :: c :: d :: rest => (d ++ c ++ b ++ a) :: wordsOf rest
  | _ => []

/-- Decode the first instruction of a list of bytes. -/
def decodeBytes (b : List Byte) : Except DecodeError (Instr × List W32) := decodeWords (wordsOf b)

/-- The longest instruction: `gr.chain` with three regions and eight descriptors (R219). -/
def maxWords : Nat := 15

/-- The instruction whose bits are w, the words above nbits zero. -/
def decodeTableWord (nbits w : Nat) : Option Instr :=
  match decodeWords ((List.range maxWords).map fun k => BitVec.ofNat 32 ((w % 2 ^ nbits) / 2 ^ (32 * k))) with
  | .ok (i, _) => some i
  | .error _ => none

/-- A word (R78). -/
def mkWord (e : BitVec 3) (op : BitVec 7) (i : BitVec 4) (x : BitVec 18) : W32 := e ++ i ++ op ++ x
/-- A literal word (R79). -/
def mkLit (p : Lit) : W32 := 7#3 ++ p
/-- The two literals of a 58-bit value (R79). -/
def lits58 (v : BitVec 58) : List Lit := [v.extractLsb' 29 29, v.extractLsb' 0 29]
/-- The two literals of a region (R79). -/
def regionLits (r : Region) : List Lit := [r.base.setWidth 29, r.stride ++ r.count]
/-- The literals of an optional region. -/
def optRegionLits : Option Region → List Lit
  | none => []
  | some r => regionLits r
/-- The TM code of a time (R80). -/
def tmOf : When → BitVec 2
  | .stamp _ => 1#2
  | .abs _ => 2#2
/-- The literals of a time (R80). -/
def whenLits : When → List Lit
  | .stamp t => [t]
  | .abs t => lits58 t

/-- The first word of an instruction and its literals, from the encoding tables; no words for the steps that are
no words of the stream. -/
def encodeParts : Instr → Option (W32 × List Lit)
  | .cpNop e i => some (mkWord e 0x00#7 i 0#18, [])
  | .wait e i n => some (mkWord e 0x01#7 i n, [])
  | .untilStamp e i t => some (mkWord e 0x7E#7 i 0#18, [t])
  | .cpAdd i a b => some (mkWord 0#3 0x02#7 i (a ++ b ++ 0#8), [])
  | .cpSub i a b => some (mkWord 0#3 0x03#7 i (a ++ b ++ 0#8), [])
  | .cpMul i a b => some (mkWord 0#3 0x04#7 i (a ++ b ++ 0#8), [])
  | .cpMulh i a b => some (mkWord 0#3 0x05#7 i (a ++ b ++ 0#8), [])
  | .cpAnd i a b => some (mkWord 0#3 0x06#7 i (a ++ b ++ 0#8), [])
  | .cpOr i a b => some (mkWord 0#3 0x07#7 i (a ++ b ++ 0#8), [])
  | .cpXor i a b => some (mkWord 0#3 0x08#7 i (a ++ b ++ 0#8), [])
  | .cpAndn i a b => some (mkWord 0#3 0x09#7 i (a ++ b ++ 0#8), [])
  | .cpShl i a b => some (mkWord 0#3 0x0A#7 i (a ++ b ++ 0#8), [])
  | .cpShr i a b => some (mkWord 0#3 0x0B#7 i (a ++ b ++ 0#8), [])
  | .cpSar i a b => some (mkWord 0#3 0x0C#7 i (a ++ b ++ 0#8), [])
  | .cpMin i a b => some (mkWord 0#3 0x0D#7 i (a ++ b ++ 0#8), [])
  | .cpMax i a b => some (mkWord 0#3 0x0E#7 i (a ++ b ++ 0#8), [])
  | .cpAddi i a m => some (mkWord 0#3 0x10#7 i (a ++ m), [])
  | .cpAndi i a m => some (mkWord 0#3 0x11#7 i (a ++ m), [])
  | .cpOri i a m => some (mkWord 0#3 0x12#7 i (a ++ m), [])
  | .cpXori i a m => some (mkWord 0#3 0x13#7 i (a ++ m), [])
  | .cpShli i a m => some (mkWord 0#3 0x14#7 i (a ++ 0#7 ++ m), [])
  | .cpShri i a m => some (mkWord 0#3 0x15#7 i (a ++ 0#7 ++ m), [])
  | .cpSari i a m => some (mkWord 0#3 0x16#7 i (a ++ 0#7 ++ m), [])
  | .cpLim i m => some (mkWord 0#3 0x18#7 i (m), [])
  | .cpLimx i h v => some (mkWord 0#3 0x19#7 i (h ++ 0#12), lits58 v)
  | .cpCeq i a b => some (mkWord 0#3 0x1A#7 i (a ++ b ++ 0#8), [])
  | .cpCne i a b => some (mkWord 0#3 0x1B#7 i (a ++ b ++ 0#8), [])
  | .cpClt i a b => some (mkWord 0#3 0x1C#7 i (a ++ b ++ 0#8), [])
  | .cpCle i a b => some (mkWord 0#3 0x1D#7 i (a ++ b ++ 0#8), [])
  | .cpCltu i a b => some (mkWord 0#3 0x1E#7 i (a ++ b ++ 0#8), [])
  | .cpCleu i a b => some (mkWord 0#3 0x1F#7 i (a ++ b ++ 0#8), [])
  | .cpCeqi i a m => some (mkWord 0#3 0x20#7 i (a ++ m), [])
  | .cpClti i a m => some (mkWord 0#3 0x21#7 i (a ++ m), [])
  | .cpSel i a b c => some (mkWord 0#3 0x22#7 i (a ++ b ++ c ++ 0#3), [])
  | .cpPut i n a => some (mkWord 0#3 0x23#7 i (n ++ a ++ 0#9), [])
  | .cpSpill i a k => some (mkWord 0#3 0x24#7 i (a ++ 0#4 ++ k), [])
  | .cpFill i k => some (mkWord 0#3 0x25#7 i (0#9 ++ k), [])
  | .cpLd8 i a m => some (mkWord 0#3 0x28#7 i (a ++ m), [])
  | .cpLd8s i a m => some (mkWord 0#3 0x29#7 i (a ++ m), [])
  | .cpLd16 i a m => some (mkWord 0#3 0x2A#7 i (a ++ m), [])
  | .cpLd16s i a m => some (mkWord 0#3 0x2B#7 i (a ++ m), [])
  | .cpLd32 i a m => some (mkWord 0#3 0x2C#7 i (a ++ m), [])
  | .cpLd32s i a m => some (mkWord 0#3 0x2D#7 i (a ++ m), [])
  | .cpLd64 i a m => some (mkWord 0#3 0x2E#7 i (a ++ m), [])
  | .cpLdt64 i a b m => some (mkWord 0#3 0x2F#7 i (a ++ b ++ m), [])
  | .cpSt8 i a b m => some (mkWord 0#3 0x30#7 i (a ++ b ++ m), [])
  | .cpSt16 i a b m => some (mkWord 0#3 0x31#7 i (a ++ b ++ m), [])
  | .cpSt32 i a b m => some (mkWord 0#3 0x32#7 i (a ++ b ++ m), [])
  | .cpSt64 i a b m => some (mkWord 0#3 0x33#7 i (a ++ b ++ m), [])
  | .cpTagw i a b => some (mkWord 0#3 0x34#7 i (a ++ b ++ 0#8), [])
  | .cpTagr i a => some (mkWord 0#3 0x35#7 i (a ++ 0#13), [])
  | .cpNld64 i a q => some (mkWord 0#3 0x36#7 i (a ++ 0#5 ++ q ++ 0#6), [])
  | .cpNst64 i a b q => some (mkWord 0#3 0x37#7 i (a ++ b ++ q ++ 0#6), [])
  | .cpBr i t => some (mkWord 0#3 0x40#7 i (0#4 ++ t), [])
  | .cpBz i k t => some (mkWord 0#3 0x41#7 i (k ++ t), [])
  | .cpBnz i k t => some (mkWord 0#3 0x42#7 i (k ++ t), [])
  | .cpBrx i a => some (mkWord 0#3 0x43#7 i (a ++ 0#13), [])
  | .cpCall i t => some (mkWord 0#3 0x44#7 i (0#4 ++ t), [])
  | .cpCallx i a => some (mkWord 0#3 0x45#7 i (a ++ 0#13), [])
  | .cpRet i => some (mkWord 0#3 0x46#7 i (0#18), [])
  | .cpLoop i a d p => some (mkWord 0#3 0x47#7 i (a ++ d), [p])
  | .cpRdlcc i => some (mkWord 0#3 0x50#7 i (0#18), [])
  | .cpRdwtc i => some (mkWord 0#3 0x51#7 i (0#18), [])
  | .cpRdhdc i => some (mkWord 0#3 0x52#7 i (0#18), [])
  | .cpRdflag i => some (mkWord 0#3 0x53#7 i (0#18), [])
  | .cpClrflag i m => some (mkWord 0#3 0x54#7 i (0#10 ++ m), [])
  | .ldBase i sp v => some (mkWord 1#3 0x02#7 i (sp ++ 0#15), lits58 (v.setWidth 58))
  | .ldDim i d c v => some (mkWord 1#3 0x03#7 i (d ++ c), lits58 (v.setWidth 58))
  | .ldFmt i f p h => some (mkWord 1#3 0x04#7 i (f ++ p ++ h ++ 0#8), [])
  | .ldTag i tm t => some (mkWord 1#3 0x05#7 i (tm ++ t), [])
  | .ldRate i n => some (mkWord 1#3 0x06#7 i (0#10 ++ n), [])
  | .ldStart i => some (mkWord 1#3 0x07#7 i (0#2 ++ 0#16), [])
  | .ldStartTimed i w => some (mkWord 1#3 0x07#7 i ((tmOf w) ++ 0#16), whenLits w)
  | .ldStop i => some (mkWord 1#3 0x08#7 i (0#18), [])
  | .stBase i sp v => some (mkWord 2#3 0x02#7 i (sp ++ 0#15), lits58 (v.setWidth 58))
  | .stDim i d c v => some (mkWord 2#3 0x03#7 i (d ++ c), lits58 (v.setWidth 58))
  | .stFmt i f p h md => some (mkWord 2#3 0x04#7 i (f ++ p ++ h ++ md ++ 0#6), [])
  | .stTag i tm t => some (mkWord 2#3 0x05#7 i (tm ++ t), [])
  | .stRate i n => some (mkWord 2#3 0x06#7 i (0#10 ++ n), [])
  | .stStart i => some (mkWord 2#3 0x07#7 i (0#2 ++ 0#16), [])
  | .stStartTimed i w => some (mkWord 2#3 0x07#7 i ((tmOf w) ++ 0#16), whenLits w)
  | .stStop i => some (mkWord 2#3 0x08#7 i (0#18), [])
  | .grCfg i g => some (mkWord 3#3 0x02#7 i (g ++ 0#8), [])
  | .grConst i el k v => some (mkWord 3#3 0x03#7 i (el ++ k ++ 0#8), lits58 (v.setWidth 58))
  | .grStart i t => some (mkWord 3#3 0x04#7 i (0#18), [t])
  | .grStop i => some (mkWord 3#3 0x05#7 i (0#18), [])
  | .grVadd i f md dst a b => some (mkWord 3#3 0x10#7 i (f ++ md ++ 0#11), regionLits dst ++ regionLits a ++ regionLits b)
  | .grVsub i f md dst a b => some (mkWord 3#3 0x11#7 i (f ++ md ++ 0#11), regionLits dst ++ regionLits a ++ regionLits b)
  | .grVmul i f md dst a b => some (mkWord 3#3 0x12#7 i (f ++ md ++ 0#11), regionLits dst ++ regionLits a ++ regionLits b)
  | .grVmin i f dst a b => some (mkWord 3#3 0x13#7 i (f ++ 0#13), regionLits dst ++ regionLits a ++ regionLits b)
  | .grVmax i f dst a b => some (mkWord 3#3 0x14#7 i (f ++ 0#13), regionLits dst ++ regionLits a ++ regionLits b)
  | .grVand i f dst a b => some (mkWord 3#3 0x15#7 i (f ++ 0#13), regionLits dst ++ regionLits a ++ regionLits b)
  | .grVor i f dst a b => some (mkWord 3#3 0x16#7 i (f ++ 0#13), regionLits dst ++ regionLits a ++ regionLits b)
  | .grVxor i f dst a b => some (mkWord 3#3 0x17#7 i (f ++ 0#13), regionLits dst ++ regionLits a ++ regionLits b)
  | .grVsadd i f dst a b => some (mkWord 3#3 0x18#7 i (f ++ 0#13), regionLits dst ++ regionLits a ++ regionLits b)
  | .grVcmp i f pr dst a b => some (mkWord 3#3 0x19#7 i (f ++ 0#2 ++ pr ++ 0#8), regionLits dst ++ regionLits a ++ regionLits b)
  | .grVfma i f md dst a b c => some (mkWord 3#3 0x1A#7 i (f ++ md ++ 0#11), regionLits dst ++ regionLits a ++ regionLits b ++ regionLits c)
  | .grVsel i f dst a b c => some (mkWord 3#3 0x1B#7 i (f ++ 0#13), regionLits dst ++ regionLits a ++ regionLits b ++ regionLits c)
  | .grVabs i f dst a => some (mkWord 3#3 0x20#7 i (f ++ 0#13), regionLits dst ++ regionLits a)
  | .grVneg i f dst a => some (mkWord 3#3 0x21#7 i (f ++ 0#13), regionLits dst ++ regionLits a)
  | .grVrcp i f md dst a => some (mkWord 3#3 0x22#7 i (f ++ md ++ 0#11), regionLits dst ++ regionLits a)
  | .grVrsqrt i f md dst a => some (mkWord 3#3 0x23#7 i (f ++ md ++ 0#11), regionLits dst ++ regionLits a)
  | .grVexp2 i f md dst a => some (mkWord 3#3 0x24#7 i (f ++ md ++ 0#11), regionLits dst ++ regionLits a)
  | .grVlog2 i f md dst a => some (mkWord 3#3 0x25#7 i (f ++ md ++ 0#11), regionLits dst ++ regionLits a)
  | .grVtanh i f md dst a => some (mkWord 3#3 0x26#7 i (f ++ md ++ 0#11), regionLits dst ++ regionLits a)
  | .grVsum i f md dst a => some (mkWord 3#3 0x27#7 i (f ++ md ++ 0#11), regionLits dst ++ regionLits a)
  | .grVscan i f md dst a => some (mkWord 3#3 0x28#7 i (f ++ md ++ 0#11), regionLits dst ++ regionLits a)
  | .grVfill i f dst v => some (mkWord 3#3 0x29#7 i (f ++ 0#13), regionLits dst ++ lits58 (v.setWidth 58))
  | .grVcvt i fs fd md dst a => some (mkWord 3#3 0x30#7 i (fs ++ fd ++ md ++ 0#6), regionLits dst ++ regionLits a)
  | .grVdot i fs fd md dst a b => some (mkWord 3#3 0x31#7 i (fs ++ fd ++ md ++ 0#6), regionLits dst ++ regionLits a ++ regionLits b)
  | .grVnqenc i fs fd dst a => some (mkWord 3#3 0x32#7 i (fs ++ fd ++ 0#8), regionLits dst ++ regionLits a)
  | .grChain i md dst src src2 ops => some (mkWord 3#3 0x06#7 i ((BitVec.ofNat 3 (ops.length - 1)) ++ md ++ (BitVec.ofBool src2.isSome) ++ 0#12), regionLits dst ++ regionLits src ++ optRegionLits src2 ++ ops)
  | .cfLdst i f a => some (mkWord 4#3 0x02#7 i (f ++ 0#13), [a.setWidth 29])
  | .cfFwd i t => some (mkWord 4#3 0x03#7 i (0#18), [t])
  | .cfRpl i p pe ce t => some (mkWord 4#3 0x04#7 i (p ++ pe ++ ce ++ 0#14), [t])
  | .cfGrd i p pe ce av t => some (mkWord 4#3 0x05#7 i (p ++ pe ++ ce ++ av ++ 0#13), [t])
  | .cfApl i t => some (mkWord 4#3 0x06#7 i (0#18), [t])
  | .cfSwp i t => some (mkWord 4#3 0x07#7 i (0#18), [t])
  | .cfNul i av sd t => some (mkWord 4#3 0x08#7 i (0#4 ++ av ++ sd ++ 0#12), [t])
  | .cfMode i m => some (mkWord 4#3 0x10#7 i (m ++ 0#16), [])
  | .cfEta i v => some (mkWord 4#3 0x11#7 i (0#18), lits58 (v.setWidth 58))
  | .cfFade i v => some (mkWord 4#3 0x12#7 i (0#18), lits58 (v.setWidth 58))
  | .cfFmt i af gf ofm md => some (mkWord 4#3 0x13#7 i (af ++ gf ++ ofm ++ md ++ 0#1), [])
  | .cfDrain i ofm md d => some (mkWord 4#3 0x14#7 i (ofm ++ md ++ 0#11), [d.setWidth 29])
  | .cfClra i => some (mkWord 4#3 0x15#7 i (0#18), [])
  | .cfHsel i src => some (mkWord 4#3 0x16#7 i (src ++ 0#16), [])
  | .cfHread i d => some (mkWord 4#3 0x17#7 i (0#18), [d.setWidth 29])
  | .cfHclr i => some (mkWord 4#3 0x18#7 i (0#18), [])
  | .btCopy i h d w => some (mkWord 5#3 0x02#7 i ((tmOf w) ++ h ++ d), whenLits w)
  | .btOvl i h d w => some (mkWord 5#3 0x03#7 i ((tmOf w) ++ h ++ d), whenLits w)
  | .btPref i h d => some (mkWord 5#3 0x04#7 i (0#2 ++ h ++ d), [])
  | .btPrefTimed i h d w => some (mkWord 5#3 0x04#7 i ((tmOf w) ++ h ++ d), whenLits w)
  | .btNmc i c => some (mkWord 5#3 0x05#7 i (0#18), lits58 (c.setWidth 58))
  | .btNmfence i a n => some (mkWord 5#3 0x06#7 i (0#18), lits58 (a.setWidth 58) ++ [n])
  | .btPin i k a n => some (mkWord 5#3 0x07#7 i (k ++ 0#15), lits58 (a.setWidth 58) ++ [n])
  | .btUnpin i k => some (mkWord 5#3 0x08#7 i (k ++ 0#15), [])
  | .btEchk i m => some (mkWord 5#3 0x09#7 i (m ++ 0#16), [])
  | .syBar i sc => some (mkWord 6#3 0x02#7 i (sc ++ 0#15), [])
  | .syArrive i sc k => some (mkWord 6#3 0x03#7 i (sc ++ k ++ 0#11), [])
  | .syAwait i sc k => some (mkWord 6#3 0x04#7 i (sc ++ k ++ 0#11), [])
  | .syBind i o a n => some (mkWord 6#3 0x05#7 i (0#18), lits58 (o.setWidth 58) ++ lits58 (a.setWidth 58) ++ [n])
  | .syRel i sc o => some (mkWord 6#3 0x06#7 i (sc ++ 0#15), lits58 (o.setWidth 58))
  | .syAcq i sc o n => some (mkWord 6#3 0x07#7 i (sc ++ 0#15), lits58 (o.setWidth 58) ++ lits58 n)
  | .syFence i sc => some (mkWord 6#3 0x08#7 i (sc ++ 0#15), [])
  | .syAtom i op f a l => some (mkWord 6#3 0x09#7 i (op ++ f ++ 0#9), lits58 (a.setWidth 58) ++ [l.setWidth 29])
  | .syAtomx i op f k a l r tg => some (mkWord 6#3 0x0A#7 i (op ++ f ++ k ++ 0#6), lits58 (a.setWidth 58) ++ [l.setWidth 29] ++ [r.setWidth 29] ++ [tg.setWidth 29])
  | .syBatch i k n => some (mkWord 6#3 0x0B#7 i (k ++ 0#15), [n])
  | .sySafe i m n => some (mkWord 6#3 0x0C#7 i (0#2 ++ m), [n])
  | .syTrap i c => some (mkWord 6#3 0x0D#7 i (c), [])
  | .sySyscall i c => some (mkWord 6#3 0x0E#7 i (c), [])
  | .syEnd i => some (mkWord 6#3 0x0F#7 i (0#18), [])
  | .syResume i a => some (mkWord 6#3 0x60#7 i (0#18), lits58 (a.setWidth 58))
  | .syMfsr i r d => some (mkWord 6#3 0x61#7 i (r ++ 0#6), [d.setWidth 29])
  | .syMtsr i r d => some (mkWord 6#3 0x62#7 i (r ++ 0#6), [d.setWidth 29])
  | .syTlbi i k a => some (mkWord 6#3 0x63#7 i (k ++ 0#15), lits58 (a.setWidth 58))
  | .syAsave i a => some (mkWord 6#3 0x64#7 i (0#18), lits58 (a.setWidth 58))
  | .syArest i a => some (mkWord 6#3 0x65#7 i (0#18), lits58 (a.setWidth 58))
  | .syGsave i a => some (mkWord 6#3 0x66#7 i (0#18), lits58 (a.setWidth 58))
  | .syGrest i a => some (mkWord 6#3 0x67#7 i (0#18), lits58 (a.setWidth 58))
  | .syHalt i => some (mkWord 6#3 0x68#7 i (0#18), [])
  | .split => none
  | .cpResultDrop => none
  | .cpStoreLand => none
  | .holdEnd => none
  | .holdTimeout => none
  | .safeGapFault => none
  | .streamBeatRead => none
  | .streamBeatDeliver => none
  | .globalBeatLate _ _ => none
  | .storeBeatLand => none
  | .copyChunkRead => none
  | .copyChunkLand => none
  | .hbmCopyLand _ => none
  | .gridCfgDone => none
  | .gridContextExecute => none
  | .gridResultLand => none
  | .sinkFinish => none
  | .gridDone => none
  | .passStepRead => none
  | .passStepWrite => none
  | .frontCellStep => none
  | .drainPresent => none
  | .returnRegisterReplace => none
  | .ldstRowWrite => none
  | .drainRowWrite => none
  | .hreadLand => none
  | .barrierComplete => none
  | .releaseIncrement _ => none
  | .acquireComplete => none
  | .fenceComplete => none
  | .atomxApply _ => none
  | .atomxResultLand _ => none
  | .nmJobAccept _ => none
  | .nmJobComplete _ => none
  | .pageWalk => none
  | .handlerEntry => none
  | .prvEnter => none
  | .prvHltClear => none
  | .preemptRequest => none
  | .preemptPending => none
  | .preemptHoldStop => none
  | .taskCommit => none
  | .phaseCommit _ => none
  | .lncHeadWrite _ _ => none
  | .launchIntake _ => none
  | .bindRecordArm _ => none
  | .dispatchBind => none
  | .gangAlign => none
  | .governorTick => none
  | .controlInterval => none
  | .droopStretch _ => none
  | .thermalTrip _ => none
  | .lsgEnvUpWrite _ => none
  | .lsgCtlWrite _ => none
  | .repeatableModeApply => none
  | .quadGateRequest _ => none
  | .quadDrainEnd _ => none
  | .quadGated _ => none
  | .quadWakeRequest _ => none
  | .quadRiseDone _ => none
  | .targetGatedNack _ => none
  | .vltCtlWrite _ => none
  | .pcsSample => none
  | .partitionEnable _ => none
  | .partitionReset _ => none
  | .partitionResetDone _ => none
  | .warmReset => none
  | .coldReset => none
  | .correctableError _ _ => none
  | .uncorrectableError _ => none
  | .patrolScrub _ => none
  | .linkRetrain _ _ => none
  | .linkDown _ => none
  | .rhousAccess _ => none
  | .podRequest _ => none
  | .attestationQuote _ => none
  | .fwMinVersionRaise _ => none
  | .registerWrite _ _ => none
  | .abandonTask => none
  | .tlbiComplete => none
  | .saveRestoreComplete => none
  | .neighbourLoadRead => none
  | .mfsrWrite => none
  | .droopEnd _ => none
  | .ultraEthernetRequest _ => none
  | .configRecordWrite _ => none

/-- The words of an instruction. -/
def encode (i : Instr) : List W32 :=
  match encodeParts i with
  | none => []
  | some (w, l) => w :: l.map mkLit

end Sys2Proof
end

