-- ==== Sys2Proof/Machine/NearMem.lean ====
section
/-! DEFINITION. Near-memory jobs (R143-R146, R246, R275): issue, acceptance and completion, and the fence over them. -/

namespace Sys2Proof.Machine

/-- The latest frame that core c wrote. -/
def State.frameRec (s : State) (c : Nat) : Option FrameRec :=
  s.saved.findSome? fun x => match x with
    | .frame _ f => if f.core = c then some f else none
    | _ => none

/-- Whether two frames are of one core of one task. -/
def FrameRec.sameTask (f g : FrameRec) : Bool :=
  f.gidx == g.gidx
  && (f.task.map fun t => (t.part, t.lid, t.tile, t.phase)) == (g.task.map fun t => (t.part, t.lid, t.tile, t.phase))

/-- Whether a frame stands for a task that is stopped: it is the task's last, and its core is in a handler for that task,
or the task is pre-empted. -/
def State.frozen (s : State) (f : FrameRec) : Bool :=
  match f.task with
  | none => false
  | some t =>
    (s.saved.findSome? fun x => match x with
      | .frame _ g => if g.sameTask f then some g.stop else none
      | _ => none) == some f.stop
    && (((s.at f.core).hnd && ((s.at f.core).task.map fun u => u.lid == t.lid && u.tile == t.tile && u.phase == t.phase).getD false)
      || s.launches.any fun l => l.part == t.part && l.lid == t.lid &&
          l.tasks.any fun r => r.tile == t.tile && r.phase == t.phase && r.st == .preempted)

/-- The copy of a number as the newest frame that saved it holds it. -/
def State.savedCopy (s : State) (id : Nat) : Option (FrameRec × Copy) :=
  s.saved.findSome? fun x => match x with
    | .frame _ f => (f.ctx.copies.find? fun y => y.id == id).map fun y => (f, y)
    | _ => none

/-- The copy of a number, while it is on its way: outside logical time, on a core, or stopped with its task. -/
def State.liveCopy (s : State) (id : Nat) : Option Copy :=
  (s.hbm ++ s.outLands.map OutLand.copy).find? (fun y => y.id == id)
  <|> (s.cores.toList.findSome? fun k => k.ctx.copies.find? fun y => y.id == id)
  <|> (match s.savedCopy id with
    | some (f, y) => if s.frozen f then some y else none
    | none => none)

/-- The copies that core c has issued and that go on: those of the code that it runs, and, whoever issued them, those
outside logical time (R274, R279). -/
def State.copiesOf (s : State) (c : Nat) : List Copy :=
  (s.at c).ctx.copies ++ (s.hbm ++ s.outLands.map OutLand.copy).filter fun x => x.core == c

/-- Copies in flight among those a job waits for. -/
def State.jobCopies (s : State) (j : Job) : List Copy := j.copies.filterMap s.liveCopy

/-- The physical address of the LM window of a core (R315). -/
def windowBase (c : Nat) : Nat := 0x18000000000 + 0x200000 * c

/-- Whether a copy writes a byte of a physical range: also through the LM of a core, whose window holds it (R315), but not
in the supervisor local memory, which has none. -/
def State.writesIn (s : State) (x : Copy) (pa n : Nat) : Bool :=
  let a := s.normPa pa
  let hits (p m : Nat) : Bool := decide (p < a + n) && decide (a < p + m)
  match x.dst with
  | .phys l => l.any fun (_, p, m) => hits (s.normPa p) m
  | .lm c o u => hits (windowBase c + o) (if u then min x.len (0x1FC000 - o) else x.len)
  | .imem _ | .gcs _ => false

/-- Fields of a card (R143). -/
structure Card where
  opc : Nat
  fmt : BitVec 5
  rnd : BitVec 2
  rsv : Bool                         -- a reserved bit is set
  count : Nat
  sa : W64
  sb : W64
  w : Nat
  x : Nat
  obj : Nat
  st : Nat

/-- The card in 512 bits. -/
def cardOf (v : Nat) : Card :=
  { opc := bitsOf v 0 8, fmt := BitVec.ofNat 5 (bitsOf v 8 5), rnd := BitVec.ofNat 2 (bitsOf v 13 2),
    rsv := bitsOf v 15 17 != 0 || bitsOf v 448 64 != 0, count := bitsOf v 32 32,
    sa := BitVec.ofNat 64 (bitsOf v 64 64), sb := BitVec.ofNat 64 (bitsOf v 128 64), w := bitsOf v 192 64,
    x := bitsOf v 256 64, obj := bitsOf v 320 64, st := bitsOf v 384 2 }

/-- The card at a physical address. -/
def State.cardAt (s : State) (pa : Nat) : Card := cardOf (leNat (s.homeBytes pa 64))

/-- Operations that read X, and those that read W (R144). -/
def readsX (opc : Nat) : Bool := opc == 2 || opc == 4 || opc == 5 || opc == 6
def readsW (opc : Nat) : Bool := opc == 3 || opc == 4 || opc == 5 || opc == 6

/-- Element bytes of a card's format; none: a format no card may have (R143). -/
def cardBytes (f : BitVec 5) : Option Nat :=
  match f.toNat with
  | 0 => some 8
  | 1 => some 4
  | 3 | 4 => some 2
  | _ => none

/-- CODE 3 or 4 of a card, 0 if it is valid (R144). An OBJ outside the virtual space is one that fails translation. -/
def Card.code (c : Card) : Nat :=
  match cardBytes c.fmt with
  | none => 3
  | some z =>
    let scalar (v : W64) : Bool := c.fmt == 0#5 || decide (v.toNat < 2 ^ 32)
    let n := c.count * z
    if c.opc < 1 ∨ 6 < c.opc ∨ c.rsv = true ∨ c.w % z ≠ 0 ∨ 2 ^ 57 ≤ c.w ∨ c.obj % 64 ≠ 0
        ∨ (readsX c.opc = true ∧ (c.x % z ≠ 0 ∨ 2 ^ 57 ≤ c.x)) ∨ scalar c.sa = false ∨ scalar c.sb = false then 3
    else if readsX c.opc = true ∧ c.w ≠ c.x ∧ c.x < c.w + n ∧ c.w < c.x + n then 4
    else 0

/-- Physical pieces of a virtual range in a job's context, by which jobs are compared (R145 step 1); pages that fail
are left out, and the job makes its own lookups as it reaches each page (R321). -/
def footPieces (s : State) (j : Job) (wr : Bool) : Nat → Nat → Nat → List (Nat × Nat)
  | 0, _, _ => []
  | f + 1, va, e =>
    if e ≤ va ∨ 2 ^ 57 ≤ va then []
    else
      let n := min e ((va / 4096 + 1) * 4096) - va
      match s.plainPhys j.ctx j.part j.root.toNat j.kc j.sup (!wr) wr va with
      | .inl _ => footPieces s j wr f (va + n) e
      | .inr (pa, _) => (pa, n) :: footPieces s j wr f (va + n) e

/-- The bytes a job writes, and those it reads or writes (R144), in physical memory. -/
def jobFoot (s : State) (j : Job) : List (Nat × Nat) × List (Nat × Nat) :=
  let n := j.count * (cardBytes j.fmt).getD 1
  let w := if j.code = 0 then footPieces s j true (n / 4096 + 2) j.w (j.w + n) else []
  let x := if j.code = 0 ∧ readsX j.opc = true then footPieces s j false (n / 4096 + 2) j.x (j.x + n) else []
  (w, w ++ x)

/-- Whether two lists of physical pieces share a byte, under whichever of its addresses. -/
def State.meets (s : State) (a b : List (Nat × Nat)) : Bool :=
  a.any fun (p, n) => b.any fun (q, m) => decide (s.normPa p < s.normPa q + m) && decide (s.normPa q < s.normPa p + n)

/-- A job with the fields of its card. -/
def Job.withCard (j : Job) (c : Card) (code : Nat) : Job :=
  { j with opc := c.opc, fmt := c.fmt, rnd := c.rnd, count := c.count, sa := c.sa, sb := c.sb, w := c.w, x := c.x,
           obj := c.obj, code := code }

/-- The walker of a job's lookups: its issuer's context, at the issuing core's TLB and die (R321, R323). -/
def Job.walker (j : Job) : Walker := ⟨j.ctx, j.part, j.root.toNat, dieOf j.core⟩

/-- One access of a job of z bytes: it holds the leaf of its page, and makes one lookup per page that it reaches (R321,
R323). Physical address and leaf; none: outside the space, or a check fails. -/
def jobLook (s : State) (j : Job) (held : Option Leaf) (rd wr : Bool) (va z : Nat) : Option (Nat × Leaf) × State :=
  if 2 ^ 57 < va + z then (none, s)
  else
    let (r, s) : WalkRes × State := match held with
      | some l => if l.va ≤ va ∧ va < l.va + l.size then (.inr l, s) else s.lookupIn (quadOf j.core) j.walker va
      | none => s.lookupIn (quadOf j.core) j.walker va
    match r with
    | .inl _ => (none, s)
    | .inr l => match s.leafPhys j.part j.kc j.sup rd wr va l with
      | .inl _ => (none, s)
      | .inr x => (some x, s)

/-- The lines of a job's card, W and OBJ: those that the core's private caches give up (R237 step 3). -/
def jobLines (s : State) (j : Job) (obj : Option Nat) (ln : Nat) : Bool :=
  ln == j.card / 128 || (obj.map fun pa => ln == pa / 128).getD false
  || (jobFoot s j).1.any fun (p, n) => decide (p / 128 ≤ ln) && decide (ln ≤ (p + n - 1) / 128)

/-- Whether a completion object is usable (R144): its physical address. -/
def objOf (s : State) (x : Option (Nat × Leaf)) : Option Nat :=
  x.bind fun (pa, l) =>
    if l.mt = 3 then none
    else match s.target pa with
      | .lm _ _ | .decode => none
      | _ => some pa

/-- The lookup of a completion object: its physical address, if it is usable. -/
def jobObj (s : State) (j : Job) (obj : Nat) : Option Nat × State :=
  let (x, t) := jobLook s j none false true obj 8
  (objOf t x, t)

/-- The physical address of a completion object as the core's caches are searched for it; not counted. -/
def plainObj (s : State) (j : Job) (obj : Nat) : Option Nat :=
  if obj = 0 ∨ 2 ^ 57 ≤ obj then none
  else match s.plainPhys j.ctx j.part j.root.toNat j.kc j.sup false true obj with
    | .inl _ => none
    | .inr (pa, _) => some pa

/-- `bt.nmc` (R145): the card is translated, the core's writes become visible, the job is handed over once the copies
it waits for have landed. -/
def tryNmc (i : BitVec 4) (a : BitVec 57) (s : State) : Try :=
  let c := s.core
  let me := s.cur.val
  let va := a.toNat
  if va % 64 ≠ 0 then .stop (issueStop s 5 .alignment va)
  else match issueLooks s 5 [(va, va + 64)] with
    | (t, none) => .hold (.walk 5) t
    | (t, some l) =>
      match pieces s l true false va 64 with
      | .inl (k, va) => .stopIn t { transStop 5 1 k false va with waddr := c.ctx.headAddr 5 }
      | .inr ps =>
        let pa := (ps.head?.map fun p => p.2.1).getD 0
        let t := t.flushLines me fun _ => true
        let (id, t) := t.newId
        let w := s.walkerOf me
        let j : Job :=
          { id := id, core := me, ctx := w.ctx, part := w.part, lid := (c.task.map Task.lid).getD 0#32,
            phase := (c.task.map Task.phase).getD 0, sup := c.ctx.sup, card := pa,
            copies := (s.copiesOf me).map Copy.id, accepted := false, code := 0,
            opc := 0, fmt := 0#5, rnd := 0#2, count := 0, sa := 0#64, sb := 0#64, w := 0, x := 0, obj := 0,
            objPa := none, root := BitVec.ofNat 64 w.root, kc := c.trnCtx.getLsbD 16 }
        let k := t.cardAt pa
        let t := t.dropLines me (jobLines t (j.withCard k k.code) (plainObj t j k.obj))
        .ok { t.issued 5 1 i with jobs := t.jobs ++ [j] }

/-- BT_NMC (R145). -/
def execBtNmc (i : BitVec 4) (c : BitVec 57) (s : State) : Out := finish s (tryNmc i c s)

/-- Whether a job of core c keeps a fence over lines a ... a + 128 n - 1 waiting (R146). -/
def fenceBlocked (s : State) (c a n : Nat) : Bool :=
  s.jobs.any fun j => j.core == c && (!j.accepted ||
    (j.code == 0 && j.ctx == (s.walkerOf c).ctx && decide (j.w < a + 128 * n)
      && decide (a < j.w + j.count * (cardBytes j.fmt).getD 1)))

/-- `bt.nmfence` (R146). -/
def tryNmfence (i : BitVec 4) (a : BitVec 57) (n : Lit) (s : State) : Try :=
  let me := s.cur.val
  if a.toNat % 128 ≠ 0 then .stop (plainStop s 5 .command)
  else if n = 0#29 then .ok (s.issued 5 1 i)
  else if fenceBlocked s me a.toNat n.toNat then
    .hold .nmfence (s.modCtx fun x => x.setPend 5 { x.pend5 with started := true, arg := [a.toNat, n.toNat] })
  else
    -- copies of the lines the core still holds would hide the results
    let w := s.walkerOf me
    let hide (ln : Nat) : Bool :=
      (List.range (n.toNat / 32 + 2)).any fun p =>
        let va := a.toNat / 4096 * 4096 + 4096 * p
        match s.walkPlain w va with
        | .inr l => decide (va < 2 ^ 57) && l.phys va / 4096 == ln / 32
        | .inl _ => false
    .ok ((s.dropLines me hide).issued 5 1 i)

/-- BT_NMFENCE (R146). -/
def execBtNmfence (i : BitVec 4) (a : BitVec 57) (n : Lit) (s : State) : Out := finish s (tryNmfence i a n s)

/-- The fields of STATUS as a 64-bit value (R143). -/
def statusVal (st code index : Nat) (flags : Byte) : Nat := st + code * 4 + index * 256 + flags.toNat % 32 * 2 ^ 40

/-- A release sequence at its home is incremented (R239); a gated target gives a reply that is counted (R337, log entry
60). -/
def State.seqInc (s : State) (part : Nat) (ctx : W16) (pa : Nat) : State :=
  if s.noAnswer part pa then s.nackAt pa
  else s.homeWriteN part ctx pa (natLe 8 (s.home64 pa + 1#64).toNat)

/-- Step 5 of R145: STATUS, then the completion object. A gated target discards STATUS (R337, log entry 60). -/
def endJob (s : State) (j : Job) (st code index : Nat) (flags : Byte) : State :=
  let s := if s.noAnswer j.part j.card then s.nackAt j.card
    else s.homeWriteN j.part j.ctx (j.card + 48) (natLe 8 (statusVal st code index flags))
  if j.obj = 0 ∨ code = 6 then s
  else match j.objPa with
    | some pa => s.seqInc j.part j.ctx pa
    | none => s

/-- Whether a job not yet accepted waits for copies that write its card or its operands (R145), or for earlier stores of its
core to DEV pages (R228). -/
def jobWaits (s : State) (j : Job) : Bool :=
  let c := s.cardAt j.card
  ((s.jobCopies j).any fun x => s.writesIn x j.card 64 || (jobFoot s (j.withCard c c.code)).2.any fun (p, n) => s.writesIn x p n)
  || s.devs.any fun d => d.core == j.core && decide (d.id < j.id)

/-- CODE at acceptance (R144, R145): a nonzero OBJ that fails its checks ends the job with 6 whatever else the card
breaks, but that a misaligned OBJ is CODE 3. -/
def Card.acceptCode (c : Card) (obj : Option Nat) : Nat :=
  if c.obj ≠ 0 ∧ c.obj % 64 = 0 ∧ obj = none then 6 else c.code

/-- NM_JOB_ACCEPT (R145): the k-th job, once the copies it must see have landed. What the core handed to its L1D by the
issue cycle is visible by then, and the core's copies of the lines that the job writes are gone (R237). A card at a gated
target is not read, and its job is gone with the reply (R337; DEDUCED, log entry 60). -/
def execNmJobAccept (k : Nat) (s : State) : Out :=
  match s.jobs[k]? with
  | none => .next s
  | some j =>
    if j.accepted || jobWaits s j then .next s
    else if s.noAnswer j.part j.card then .next { s.nackAt j.card with jobs := s.jobs.eraseIdx k }
    else
      let s := s.flushLines j.core fun _ => true
      let c := s.cardAt j.card
      if jobWaits s j then .next s
      else
        let s := s.dropLines j.core (jobLines s (j.withCard c c.code) (plainObj s j c.obj))
        let rest := s.jobs.eraseIdx k
        if c.st = 1 then
          .next ({ s with jobs := rest }.modAt j.core fun k => { k with nmuDup := satAdd48 k.nmuDup 1 })
        else
          let s := s.homeWriteN j.part j.ctx (j.card + 48) (natLe 8 1)
          let (obj, s) := if c.obj = 0 then (none, s) else jobObj s j c.obj
          let j' := { j.withCard c (c.acceptCode obj) with objPa := obj }
          .next { s with jobs := rest ++ [{ j' with accepted := true }] }

/-- The exact new value of an element, with the flags met on the way (R144). -/
def jobValue (opc : Nat) (md : BitVec 2) (a b w x : Val) : Val × Byte :=
  match opc with
  | 1 => (a, 0#8)
  | 2 => (x, 0#8)
  | 3 => Val.mul a w
  | 4 => Val.add md w x
  | 5 => Val.fma md a x w
  | _ =>
    let (t, f) := Val.fma md b w x
    let (p, g) := Val.mul a t
    let (r, h) := Val.add md w p.minus
    (r, f ||| g ||| h)

/-- Where a run of elements stands; the leaves it holds for W and X. -/
structure JobRun where
  s : State
  lw : Option Leaf
  lx : Option Leaf
  flags : Byte
  code : Nat
  index : Nat
  ended : Bool

/-- Replies of gated targets to a job are counted (R337). -/
def State.nackEls (s : State) (wp : Nat) (xp : Option Nat) : State :=
  match xp with
  | some p => (s.nackAt wp).nackAt p
  | none => s.nackAt wp

/-- One element of a job whose W[i] and X[i] lie at wp and xp (R145 steps 2-4). -/
def jobAt (j : Job) (z : Nat) (r : JobRun) (i wp : Nat) (xp : Option Nat) : JobRun :=
  let s := r.s
  let bad (pa : Nat) : Bool := s.poisonedEl pa z
  if s.noAnswer j.part wp || (xp.map (s.noAnswer j.part)).getD false then
    { r with s := s.nackEls wp xp, code := 5, index := i, ended := true }
  else if (readsW j.opc && bad wp) || (xp.map bad).getD false then
    -- every word that holds a byte of W[i] is poisoned (R275)
    let lo := wp / 4 * 4
    let hi := (wp + z + 3) / 4 * 4
    let cells := (List.range (hi - lo)).map fun o => (lo + o, 0xFF#8, true)
    { r with s := s.homeWrite j.part j.ctx cells, code := 1, index := i, ended := true }
  else
    let sv (v : W64) : Val := if j.fmt = 0#5 then (toVal 0#5 v).1 else (toVal 1#5 v).1
    let val (pa : Nat) : Val := (toVal j.fmt (s.homeEl pa z)).1
    let wv := if readsW j.opc then val wp else .zero false
    let (xv, s) := match xp with
      | some p => (val p, s.homeTouch j.part j.ctx p)
      | none => (.zero false, s)
    let (v, f) := jobValue j.opc j.rnd (sv j.sa) (sv j.sb) wv xv
    let (b, g) := rnd j.fmt j.rnd v
    { r with s := s.homeWriteN j.part j.ctx wp (natLe z b.toNat), flags := r.flags ||| f ||| g }

/-- One element of a job (R145 steps 2-4): it reaches the pages of W[i] and X[i]. -/
def jobEl (j : Job) (z : Nat) (r : JobRun) (i : Nat) : JobRun :=
  if r.ended then r
  else
    let (w, s) := jobLook r.s j r.lw (readsW j.opc) true (j.w + i * z) z
    let (x, s) := if readsX j.opc then jobLook s j r.lx true false (j.x + i * z) z else (none, s)
    match w, readsX j.opc, x with
    | some (wp, lw), true, some (xp, lx) => jobAt j z { r with s := s, lw := some lw, lx := some lx } i wp (some xp)
    | some (wp, lw), false, _ => jobAt j z { r with s := s, lw := some lw } i wp none
    | _, _, _ => { r with s := s, code := 2, index := i, ended := true }

/-- Run a job to its end. -/
def runJob (s : State) (j : Job) : State :=
  if j.code ≠ 0 then endJob s j 3 j.code 0 0#8
  else
    let z := (cardBytes j.fmt).getD 1
    let r := (List.range j.count).foldl (jobEl j z) ⟨s, none, none, 0#8, 0, j.count, false⟩
    endJob r.s j (if r.code = 0 then 2 else 3) r.code r.index r.flags

/-- Whether job j waits for an earlier-accepted one (R145 step 1). -/
def jobBlocked (s : State) (k : Nat) (j : Job) : Bool :=
  (s.jobs.take k).any fun e => e.accepted && (s.meets (jobFoot s e).1 (jobFoot s j).2 || s.meets (jobFoot s j).1 (jobFoot s e).2)

/-- NM_JOB_COMPLETE (R145): the k-th job runs to its end, once no earlier job conflicts. -/
def execNmJobComplete (k : Nat) (s : State) : Out :=
  match s.jobs[k]? with
  | none => .next s
  | some j =>
    if !j.accepted || jobBlocked s k j then .next s
    else .next (runJob { s with jobs := s.jobs.eraseIdx k } j)

end Sys2Proof.Machine
end

