-- ==== Sys2Proof/Machine/Sync.lean ====
section
/-! DEFINITION. The sync unit's words for user programs (R238-R241, R251-R267): barriers, bind, release, acquire and
fence, atomics, safe points, traps and the end of a core's stream, and the events that complete them. -/

namespace Sys2Proof.Machine

/-! Work in flight on a core (R254). -/

/-- Whether a front leaves an effect (R153). -/
def Front.effective (f : Front) : Bool := f.reads || f.kind == .A || f.kind == .S

/-- Whether work issued by cycle a, and not over by its end, has an effect at cycle u or later (R254 `.core`): each
piece of work is given by its issue cycle and the cycle of its last effect. -/
def Core.busyFrom (k : Core) (a u : Nat) : Bool :=
  let live (t last : Nat) : Bool := decide (t ≤ a) && decide (a < last) && decide (u ≤ last)
  let x := k.ctx
  let g := k.grid
  let r := k.arr
  (decide (a < u) && x.dropped.any fun t => decide (t ≤ a))
  || (x.effs.any fun e => (e.drops || e.kind == .nload) && live e.issue e.due)
  || (x.ldP.any fun p => p.running && live p.start (p.readAt (p.st.beats - 1)))
  || (x.stP.any fun p => (p.open_ && decide (p.start ≤ a)) || p.lands.any fun l => live l.start l.due)
  || (x.copies.any fun c => live c.issue (c.issue + c.lat - 1))
  || (match g.loading with
      | some (t, img) => live (t - loadCycles (imgLen img)) t
      | none => false)
  || (g.passes.any fun p => live p.t p.done)
  || (!g.doneBit && (match g.running, g.doneAt with
      | some s, some t => live s t
      | some s, none => decide (s ≤ a)
      | none, _ => false))
  || (r.fronts.any fun f => f.effective && live f.a (if f.computes then f.a + 129 else f.a + 126))
  || (r.deskew.any fun d => live d.a (d.a + 129))
  || (match r.ldst with
      | some l => live l.t (l.t + 68)
      | none => false)
  || (match r.drain with
      | some d => live d.t (d.t + 66)
      | none => false)
  || (r.hreads.any fun h => live h.t (h.t + 2))

/-! Barriers (R252-R254). -/

/-- The state of a barrier on a context. -/
def Ctx.bar (x : Ctx) (sc k : Nat) : Bar :=
  (x.bars.find? fun b => b.scope == sc && b.k == k).getD ⟨sc, k, 0, 0, 0, 0, false, false⟩

/-- Replace the state of a barrier. -/
def Ctx.putBar (x : Ctx) (b : Bar) : Ctx :=
  { x with bars := b :: x.bars.filter fun y => !(y.scope == b.scope && y.k == b.k) }

/-- The unit of core c at a scope, as a test of cores (R12). -/
def inUnit (sc c m : Nat) : Bool :=
  match sc with
  | 2 => quadOf m == quadOf c
  | 3 => dieOf m == dieOf c
  | _ => true

/-- The members of a barrier of quad scope or wider (R253): the gang, or the cores of the launch's co-resident tasks
in the unit. -/
def State.barMembers (s : State) (c sc : Nat) : List Nat :=
  let gang := s.members c
  match (s.at c).task with
  | none => gang
  | some t =>
    if !t.cor then gang
    else match s.launch t.part t.lid with
      | none => gang
      | some l =>
        let all := (l.tasks.filter fun r => r.phase == t.phase).flatMap fun r => (List.range r.gsize).map fun i => r.core + i
        (all.filter fun m => inUnit sc c m).foldl (fun r m => insNat m r) []

/-- Whether a barrier of core c lies within its gang (R13). -/
def State.gangBar (s : State) (c sc : Nat) : Bool :=
  decide (sc < 2) || (s.barMembers c sc).all fun m => (s.members c).contains m

/-- The context that holds the barrier states of core m (R252): that of its task, which a frame keeps while the task is
in a handler or pre-empted; a handler's own words act on the handler's states. -/
def State.barCtx (s : State) (own : Bool) (m : Nat) : Ctx :=
  let k := s.at m
  if own || (!k.hnd && k.task.isSome) then k.ctx
  else match s.frameRec m with
    | some f => if s.frozen f then f.ctx else k.ctx
    | none => k.ctx

/-- The arrival of core m in episode n of a barrier: cycle. -/
def State.arrival (s : State) (m sc k n : Nat) : Option Nat :=
  let b := (s.at m).ctx.bar sc k
  if b.n = n then some b.last else if b.n = n + 1 then some b.prev else none

/-- Whether the start of cycle u, the present one, has found the grid-done bit of core c set (R198, R270): a graph started in
it clears the bit later. -/
def State.laneFound (s : State) (c u : Nat) : Bool :=
  let g := (s.at c).grid
  g.doneBit || (!(s.at c).hnd && !(s.at c).gridHeld && g.running == some u)

/-- Whether the episode of an arrived barrier inside the gang of core c is complete at cycle u (R254); at `.lane` it
is where the start of a cycle from the arrival to u has found the grid-done bit set (R253, R198, R270; DEDUCED, log entry
20). -/
def State.gangDone (s : State) (c u : Nat) (b : Bar) : Bool :=
  match b.scope with
  | 0 => b.rep || s.laneFound c u
  | 1 => !(s.at c).busyFrom b.last u
  | _ => (s.barMembers c b.scope).all fun m =>
    match s.arrival m b.scope b.k b.n with
    | some t => decide (t + 6 ≤ u)
    | none => false

/-- Whether every member of a barrier across gangs has arrived in core c's episode, at quad scope at least six cycles
ago (R254). -/
def State.netDone (s : State) (c : Nat) (b : Bar) : Bool :=
  (s.barMembers c b.scope).all fun m =>
    let y := (s.barCtx (s.at c).hnd m).bar b.scope b.k
    decide (b.n < y.n) || (y.n == b.n
      && (b.scope != 2 || decide (y.time + 6 * (s.quad (quadOf c)).period ≤ s.time)))

/-- Whether a wide barrier lacks co-residence (R253). -/
def wideBad (s : State) (sc : Nat) : Bool := decide (3 ≤ sc) && !((s.core.task.map Task.cor).getD false)

/-- A core arrives (R252); found: the start of the cycle has found the grid-done bit set. -/
def Ctx.arrive (x : Ctx) (sc k now time : Nat) (found : Bool) : Ctx :=
  let b := x.bar sc k
  x.putBar { b with n := b.n + 1, prev := b.last, last := now, time := time, on := true, rep := sc == 0 && found }

/-- The current core arrives (R252). -/
def State.arrives (s : State) (sc k : Nat) : State :=
  let found := s.laneFound s.cur.val s.core.now
  s.modCtx fun x => x.arrive sc k s.core.now s.time found

/-- The arrived `.lane` barriers of a context whose next cycle's start finds the grid-done bit set are complete (R254). -/
def Ctx.findLane (x : Ctx) (done : Bool) : Ctx :=
  { x with bars := x.bars.map fun b => if b.on && b.scope == 0 && done then { b with rep := true } else b }

/-- `sy.arrive` (R252). -/
def tryArrive (i : BitVec 4) (sc : BitVec 3) (k : BitVec 4) (s : State) : Try :=
  if wideBad s sc.toNat || (s.core.ctx.bar sc.toNat k.toNat).on then .stop (plainStop s 6 .command)
  else .ok ((s.arrives sc.toNat k.toNat).issued 6 1 i)

/-- SY_ARRIVE (R252). -/
def execSyArrive (i : BitVec 4) (sc : BitVec 3) (k : BitVec 4) (s : State) : Out := finish s (tryArrive i sc k s)

/-- An arrived core awaits (R252, R254): its episode is complete, or the word faults inside the gang and holds across
gangs. -/
def awaitBar (i : BitVec 4) (sc k : Nat) (s : State) : Try :=
  let c := s.cur.val
  let b := s.core.ctx.bar sc k
  let go := (s.issued 6 1 i).modCtx fun x => x.putBar { b with on := false, rep := false }
  if s.gangBar c sc then
    if s.gangDone c s.core.now b then .ok go else .stop (plainStop s 6 .schedule)
  else if b.rep then .ok go
  else .hold (.barrier sc k) (s.modCtx fun x => x.setPend 6 { x.pend6 with started := true, arg := [3, sc, k] })

/-- `sy.await` (R252). -/
def tryAwait (i : BitVec 4) (sc : BitVec 3) (k : BitVec 4) (s : State) : Try :=
  if wideBad s sc.toNat || !(s.core.ctx.bar sc.toNat k.toNat).on then .stop (plainStop s 6 .command)
  else awaitBar i sc.toNat k.toNat s

/-- SY_AWAIT (R252). -/
def execSyAwait (i : BitVec 4) (sc : BitVec 3) (k : BitVec 4) (s : State) : Out := finish s (tryAwait i sc k s)

/-- `sy.bar` (R252): arrival and await in one cycle; a held word has arrived. -/
def tryBar (i : BitVec 4) (sc : BitVec 3) (s : State) : Try :=
  if s.core.ctx.pend6.started then awaitBar i sc.toNat 0 s
  else if wideBad s sc.toNat || (s.core.ctx.bar sc.toNat 0).on then .stop (plainStop s 6 .command)
  else awaitBar i sc.toNat 0 (s.arrives sc.toNat 0)

/-- SY_BAR (R252). -/
def execSyBar (i : BitVec 4) (sc : BitVec 3) (s : State) : Out := finish s (tryBar i sc s)

/-- BARRIER_COMPLETE (R254): the network reports the complete episodes of the current core. -/
def execBarrierComplete (s : State) : Out :=
  let c := s.cur.val
  .next (s.modCtx fun x => { x with bars := x.bars.map fun b =>
    if b.on && !(s.gangBar c b.scope) && s.netDone c b then { b with rep := true } else b })

/-! Sync objects (R238, R255-R258). -/

/-- Whether the check of R320 that a word's object fails is that for a read. -/
def readDenied (s : State) (l : Looks) (rd : Bool) (o : Nat) : Bool :=
  match lookOf l o with
  | some (.inr x) => rd && !x.bits.getLsbD 3 && !(x.bits.getLsbD 5 && !s.core.ctx.sup)
  | _ => false

/-- A word that names a sync object (R255, R320): the object is aligned, translated with write permission, for `sy.acq`
(rd) with read permission too, and no device page; then f with its physical address. -/
def withObj (rd : Bool) (o : Nat) (s : State) (f : State → Nat → Try) : Try :=
  if o % 64 ≠ 0 then .stop (plainStop s 6 .command)
  else match issueLooks s 6 [(o, o + 8)] with
    | (t, none) => .hold (.walk 6) t
    | (t, some l) =>
      match pieces t l rd true o 8 with
      | .inl (k, va) => .stopIn t { transStop 6 1 k (!readDenied t l rd o) va with waddr := s.core.ctx.headAddr 6 }
      | .inr ps =>
        match ps with
        | (_, pa, _, bits) :: _ => if bitsOf bits.toNat 6 2 = 3 then .stopIn t (plainStop s 6 .command) else f t pa
        | [] => .stopIn t (plainStop s 6 .command)

/-- The physical runs of a virtual range, page by page, as the walker finds them: pages that fail are skipped (R255), and
what lies outside the space (R26; DEDUCED, log entry 35). -/
def pageRuns (s : State) (w : Walker) (kc : Bool) : Nat → Nat → Nat → List (Nat × Nat)
  | 0, _, _ => []
  | f + 1, va, e =>
    if e ≤ va ∨ 2 ^ 57 ≤ va then []
    else
      let n := min e ((va / 4096 + 1) * 4096) - va
      let r := pageRuns s w kc f (va + n) e
      match s.walkPlain w va with
      | .inl _ => r
      | .inr l => if s.hasTarget w.part kc (l.phys va) then (l.phys va, n) :: r else r

/-- The physical runs that core c has bound to object o. -/
def State.boundRuns (s : State) (c o : Nat) : List (Nat × Nat) :=
  ((s.at c).ctx.binds.filter fun b => b.obj == o).flatMap fun b =>
    pageRuns s (s.walkerOf c) ((s.at c).trnCtx.getLsbD 16) (b.lines / 32 + 2) b.base (b.base + 128 * b.lines)

/-- Whether a line lies in physical runs. -/
def inRuns (l : List (Nat × Nat)) (line : Nat) : Bool :=
  l.any fun (pa, n) => decide (pa / 128 ≤ line) && decide (line ≤ (pa + n - 1) / 128)

/-- `sy.bind` (R255). -/
def tryBind (i : BitVec 4) (o a : BitVec 57) (n : Lit) (s : State) : Try :=
  if a.toNat % 128 ≠ 0 ∨ n = 0#29 then .stop (plainStop s 6 .command)
  else withObj false o.toNat s fun t _ =>
    let b : Binding := ⟨o.toNat, a.toNat, n.toNat⟩
    let l := t.core.ctx.binds
    if l.contains b then .ok (t.issued 6 1 i)
    else if 16 ≤ l.length then .stopIn t (plainStop s 6 .command)
    else .ok ((t.issued 6 1 i).modCtx fun x => { x with binds := x.binds ++ [b] })

/-- SY_BIND (R255). -/
def execSyBind (i : BitVec 4) (o a : BitVec 57) (n : Lit) (s : State) : Out := finish s (tryBind i o a n s)

/-- `sy.rel` (R239, R249, R256): the release waits for the copies that write bound lines, and for the core's earlier
returning atomics. -/
def tryRel (i : BitVec 4) (sc : BitVec 3) (o : BitVec 57) (s : State) : Try :=
  withObj false o.toNat s fun t pa =>
    let c := t.cur.val
    let runs := t.boundRuns c o.toNat
    let copies := (t.copiesOf c).filter fun x => runs.any fun (p, n) => t.writesIn x p n
    let atoms := t.atoms.filter fun x => x.who == t.core.ctx.who && x.result.isNone
    let (id, t) := t.newId
    let t := t.flushLines c (inRuns runs)
    let w := t.walkerOf c
    .ok { t.issued 6 1 i with
      rels := t.rels ++ [⟨id, c, pa, w.part, w.ctx, sc, runs, copies.map Copy.id, atoms.map Atomx.id, t.core.ctx.who⟩] }

/-- SY_REL (R256). -/
def execSyRel (i : BitVec 4) (sc : BitVec 3) (o : BitVec 57) (s : State) : Out := finish s (tryRel i sc o s)

/-- Whether release q of a task that has stopped waits for a copy that stands still in its frame, saved before release r
was issued: the code that runs on the core after the stop does not wait for it (DEDUCED, log entry 34). -/
def State.heldBack (s : State) (q r : Release) : Bool :=
  s.saved.any fun x => match x with
    | .frame id f => decide (id < r.id) && s.frozen f && f.ctx.copies.any fun y => q.copies.contains y.id
    | _ => false

/-- Whether a release waits for nothing (R239): its copies have landed, its atomics are applied, no earlier store of its core
to a bound DEV page waits, and no earlier release of its core is in flight. -/
def State.relReady (s : State) (k : Nat) (r : Release) : Bool :=
  (r.copies.all fun id => (s.liveCopy id).isNone)
  && !(s.atoms.any fun x => r.atoms.contains x.id && x.result.isNone)
  && !(s.devs.any fun d => d.core == r.core && decide (d.id < r.id) && inRuns r.lines (d.pa / 128))
  && !((s.rels.take k).any fun q => q.core == r.core && !s.heldBack q r)

/-- RELEASE_INCREMENT (R239): the k-th release makes its core's writes visible and increments its object. -/
def execReleaseIncrement (k : Nat) (s : State) : Out :=
  match s.rels[k]? with
  | none => .next s
  | some r =>
    if !s.relReady k r then .next s
    else
      let s := s.flushLines r.core (inRuns r.lines)
      .next ({ s with rels := s.rels.eraseIdx k }.seqInc r.part r.ctx r.obj)

/-- `sy.acq` (R240, R257): it holds until its completion. A gated target gives one reply, which is counted (R337; DEDUCED, log
entry 60). -/
def tryAcq (i : BitVec 4) (sc : BitVec 3) (o : BitVec 57) (n : BitVec 58) (s : State) : Try :=
  let p := s.core.ctx.pend6
  if p.arg.head? = some 1 then
    if p.ready then .ok (s.issued 6 1 i) else .hold .acquire s
  else withObj true o.toNat s fun t pa =>
    let t := if t.noAnswer (t.partOf t.cur.val) pa then t.nackAt pa else t
    .hold .acquire (t.modCtx fun x => x.setPend 6 ⟨true, false, [], [], [1, pa, n.toNat, o.toNat, sc.toNat]⟩)

/-- SY_ACQ (R257). -/
def execSyAcq (i : BitVec 4) (sc : BitVec 3) (o : BitVec 57) (n : BitVec 58) (s : State) : Out :=
  finish s (tryAcq i sc o n s)

/-- What the word at the head of the SYN queue waits for has come about. -/
def State.syncReady (s : State) : State := s.modCtx fun x => x.setPend 6 { x.pend6 with ready := true }

/-- Whether a read of core c finds a release sequence at its home at n or above (R240): not at a gated target. -/
def State.seqReached (s : State) (c pa n : Nat) : Bool := !s.noAnswer (s.partOf c) pa && decide (n ≤ (s.home64 pa).toNat)

/-- ACQUIRE_COMPLETE (R240): a read of the home finds the sequence at n or above; the copies of bound lines go. -/
def execAcquireComplete (s : State) : Out :=
  match s.core.ctx.pend6.arg with
  | 1 :: pa :: n :: o :: _ =>
    if !s.seqReached s.cur.val pa n then .next s
    else .next (s.dropLines s.cur.val (inRuns (s.boundRuns s.cur.val o))).syncReady
  | _ => .next s

/-! Atomics (R259-R262). -/

/-- An LM operand of an atomic (R259): bounds before alignment. -/
def atomSlot (s : State) (a n : Nat) : Option Stop :=
  (lmRangeCheck s.core.lmGrant a n n).map fun k => issueStop s 6 k a

/-- The global operand of an atomic: physical address and memory type (R259). -/
def withAtom (va n : Nat) (s : State) (f : State → Nat → Nat → Try) : Try :=
  if va % n ≠ 0 then .stop (issueStop s 6 .alignment va)
  else match issueLooks s 6 [(va, va + n)] with
    | (t, none) => .hold (.walk 6) t
    | (t, some l) =>
      match pieces t l false true va n with
      | .inl (k, va) => .stopIn t { transStop 6 1 k true va with waddr := s.core.ctx.headAddr 6 }
      | .inr ps =>
        let (pa, mt) := match ps with
          | (_, pa, _, bits) :: _ => (pa, bitsOf bits.toNat 6 2)
          | [] => (0, 3)
        let window := match t.target pa with
          | .lm _ _ => true
          | .decode => true
          | _ => false
        if mt = 3 ∨ window = true then .stopIn t (plainStop s 6 .command) else f t pa mt

/-- The operand in LM. -/
def atomOperand (s : State) (f : BitVec 5) (a : Nat) : W64 :=
  BitVec.ofNat 64 (leNat (s.core.lmReadN s.core.ctx.sup a (atomBytes f)))

/-- `sy.atom` (R259). -/
def tryAtom (i : BitVec 4) (op : BitVec 4) (f : BitVec 5) (a : BitVec 57) (l : BitVec 21) (s : State) : Try :=
  match atomSlot s l.toNat (atomBytes f) with
  | some k => .stop k
  | none => withAtom a.toNat (atomBytes f) s fun t pa mt =>
    let v := atomOperand s f l.toNat
    let u : Update := ⟨pa, op, f, v, XAcc.empty.add (wideAcc f) (toVal f v).1⟩
    .ok ((t.atomUpdate t.cur.val u mt).issued 6 1 i)

/-- SY_ATOM (R259). -/
def execSyAtom (i : BitVec 4) (op : BitVec 4) (f : BitVec 5) (a : BitVec 57) (l : BitVec 21) (s : State) : Out :=
  finish s (tryAtom i op f a l s)

/-- The declaration of batch k on a context. -/
def Ctx.batch (x : Ctx) (k : Nat) : Option BatchDecl := x.batches.find? fun b => b.k == k

/-- Replace a declaration. -/
def Ctx.putBatch (x : Ctx) (b : BatchDecl) : Ctx := { x with batches := b :: x.batches.filter fun y => y.k != b.k }

/-- Core c's contribution to batch k closes (R260). -/
def State.closeBatch (s : State) (c k : Nat) : State :=
  match (s.at c).task with
  | none => s
  | some t => s.modLaunch t.part t.lid fun l => { l with tasks := l.tasks.map fun r =>
      if r.tile == t.tile && r.phase == t.phase && !r.closed.contains ((s.at c).gidx c, k) then
        { r with closed := ((s.at c).gidx c, k) :: r.closed } else r }

/-- Whether the current task may use batches (R260). -/
def batchOk (s : State) : Bool := (s.core.task.map Task.batch).getD false

/-- `sy.batch` (R261). -/
def tryBatch (i : BitVec 4) (k : BitVec 3) (n : Lit) (s : State) : Try :=
  if !batchOk s || (s.core.ctx.batch k.toNat).isSome then .stop (plainStop s 6 .command)
  else
    let t := (s.issued 6 1 i).modCtx fun x => x.putBatch ⟨k.toNat, n.toNat, 0, n == 0#29, true⟩
    .ok (if n = 0#29 then t.closeBatch s.cur.val k.toNat else t)

/-- SY_BATCH (R261). -/
def execSyBatch (i : BitVec 4) (k : BitVec 3) (n : Lit) (s : State) : Out := finish s (tryBatch i k n s)

/-- `sy.atomx` (R262). -/
def tryAtomx (i : BitVec 4) (op : BitVec 4) (f : BitVec 5) (k : BitVec 3) (a : BitVec 57) (l r : BitVec 21) (tg : W16)
    (s : State) : Try :=
  let n := atomBytes f
  match batchOk s, s.core.ctx.batch k.toNat with
  | true, some d =>
    if d.m ≤ d.issued then .stop (plainStop s 6 .command)
    else match atomSlot s l.toNat n, atomSlot s r.toNat n with
      | some q, _ => .stop q
      | none, some q => .stop q
      | none, none => withAtom a.toNat n s fun t pa _ =>
        let c := t.cur.val
        let v := atomOperand s f l.toNat
        let t := t.wordActions c (fun ln => ln == pa / 128) (fun ln => ln == pa / 128)
        let (id, t) := t.newId
        let k0 := t.core
        let x : Atomx :=
          { id := id, core := c, lid := (k0.task.map Task.lid).getD 0#32, phase := (k0.task.map Task.phase).getD 0,
            tile := (k0.task.map Task.tile).getD 0#48, gidx := k0.gidx c, k := k.toNat, issue := k0.now, op := op,
            fmt := f, pa := pa, operand := v, slot := r.toNat, tag := tg, supv := k0.ctx.sup,
            who := k0.ctx.who, acc := [], copies := (t.copiesOf c).map Copy.id, ready := t.time + 2 * (t.quad (quadOf c)).period, result := none }
        let done := d.issued + 1 == d.m
        let t := { (t.issued 6 1 i).modCtx fun y => y.putBatch { d with issued := d.issued + 1, closed := done } with
          atoms := t.atoms ++ [x] }
        .ok (if done then t.closeBatch c k.toNat else t)
  | _, _ => .stop (plainStop s 6 .command)

/-- SY_ATOMX (R262). -/
def execSyAtomx (i : BitVec 4) (op : BitVec 4) (f : BitVec 5) (k : BitVec 3) (a : BitVec 57) (l r : BitVec 21) (tg : W16)
    (s : State) : Out := finish s (tryAtomx i op f k a l r tg s)

/-- Whether core g of a task has closed batch k. -/
def TaskRec.hasClosed (r : TaskRec) (k g : Nat) : Bool := r.closed.contains (g, k)

/-- Whether atomic x precedes y in batch order (R260). -/
def Atomx.before (x y : Atomx) : Bool :=
  decide (x.tile.toNat < y.tile.toNat) || (x.tile == y.tile && (decide (x.gidx < y.gidx)
    || (x.gidx == y.gidx && decide (x.id < y.id))))

/-- Whether an atomic may be applied (R262): also the copies that its core issued before it have landed (R249). -/
def State.atomReady (s : State) (x : Atomx) : Bool :=
  (x.copies.all fun id => (s.liveCopy id).isNone)
  && (match s.launch (s.partOf x.core) x.lid with
    | none => true
    | some l => l.tasks.all fun r =>
      r.phase != x.phase
      || (if r.tile.toNat < x.tile.toNat then (List.range r.gsize).all fun g => r.hasClosed x.k g
          else if r.tile = x.tile then (List.range x.gidx).all fun g => r.hasClosed x.k g
          else true))
  && !(s.atoms.any fun y => y.lid == x.lid && s.partOf y.core == s.partOf x.core && y.phase == x.phase && y.k == x.k && s.normPa y.pa == s.normPa x.pa
        && y.result.isNone && y.before x)

/-- ATOMX_APPLY (R262): the k-th returning atomic is applied at its home. -/
def execAtomxApply (k : Nat) (s : State) : Out :=
  match s.atoms[k]? with
  | none => .next s
  | some x =>
    if x.result.isSome || !s.atomReady x then .next s
    else
      let n := atomBytes x.fmt
      let set (s : State) (r : W64 × Bool) : State := { s with atoms := s.atoms.set k { x with result := some r } }
      if s.noAnswerFor x.acc (s.partOf x.core) x.pa then
        .next (set (s.nackAt x.pa) (0#64, true))
      else if s.poisonedEl x.pa n then .next (set s (0#64, true))
      else
        let old := s.homeEl x.pa n
        let s' := s.homeWriteN (s.partOf x.core) (s.walkerOf x.core).ctx x.pa
          (natLe n (atomInt x.op x.fmt old x.operand).toNat)
        .next (set s' (old, false))

/-- ATOMX_RESULT_LAND (R262): the result of the k-th returning atomic lands, after those of its core's earlier ones. -/
def execAtomxResultLand (k : Nat) (s : State) : Out :=
  match s.atoms[k]? with
  | none => .next s
  | some x =>
    match x.result with
    | none => .next s
    | some (v, bad) =>
      if s.time < x.ready || (s.atoms.take k).any fun y => y.core == x.core then .next s
      else
        let s := { s with atoms := s.atoms.eraseIdx k }
        if s.discards x.core then .next s
        else .next (s.modAt x.core fun c =>
          let c' := if bad then c else c.copyBytes (some s.time) x.supv x.slot (natLe (atomBytes x.fmt) v.toNat)
          let g := x.slot / 4096
          if !(x.supv && decide (508 ≤ g)) && c.keepsTag s.time g then c'
          else c'.setTag x.supv g (if bad then 0xFFFF#16 else x.tag))

/-! The fence (R241, R258). -/

/-- `sy.fence` (R241, R258): it holds until its completion. -/
def tryFence (i : BitVec 4) (sc : BitVec 3) (s : State) : Try :=
  let p := s.core.ctx.pend6
  if p.started && p.ready then .ok (s.issued 6 1 i)
  else .hold .fence (s.modCtx fun x => x.setPend 6 { x.pend6 with started := true, arg := [2, sc.toNat] })

/-- SY_FENCE (R258). -/
def execSyFence (i : BitVec 4) (sc : BitVec 3) (s : State) : Out := finish s (tryFence i sc s)

/-- Whether every earlier write of core c to the destinations that p selects, near-memory jobs apart, is visible once its
L1D is written back, and its releases have completed (R241, R291). What an earlier code of the core issued and what stands
still with it is not waited for (DEDUCED, log entry 34). -/
def State.writesDone (s : State) (c : Nat) (p : CopyEnd → Bool) : Bool :=
  let w := (s.at c).ctx.who
  !((s.at c).ctx.copies.any fun x => p x.dst)
  && !((s.hbm ++ s.outLands.map OutLand.copy).any fun x => x.core == c && p x.dst) && !(s.devs.any fun d => d.core == c)
  && ((s.rels.mapIdx fun n (r : Release) => r.core != c || (r.who != w && !s.relReady n r)).all id)
  && !(s.atoms.any fun x => x.core == c && x.result.isNone && (x.who == w || s.atomReady x))

/-- Whether an end of a copy is global. -/
def CopyEnd.isGlobal : CopyEnd → Bool
  | .phys _ => true
  | .lm _ _ _ | .imem _ | .gcs _ => false

/-- Whether every earlier write of core c is visible (R241). -/
def State.allDone (s : State) (c : Nat) : Bool := s.writesDone c fun _ => true

/-- FENCE_COMPLETE (R241). -/
def execFenceComplete (s : State) : Out :=
  let c := s.cur.val
  if s.core.ctx.pend6.arg.head? ≠ some 2 ∨ s.allDone c = false then .next s
  else .next ((s.flushLines c fun _ => true).dropLines c fun _ => true).syncReady

/-! Safe points, traps, the end (R263-R266). -/

/-- An end stop of the current core is due at the end of this cycle (R279). -/
def State.endStop (s : State) (k : Stop) (mask : W16) (ext : Nat) : State :=
  s.mod fun c => { c with endStop := some (k, mask, ext) }

/-- Whether a pre-emption request is pending at the gang of the current core (R295). -/
def State.preempting (s : State) : Bool := (s.members s.cur.val).any fun m => (s.at m).prePend

/-- `sy.safe` (R263, R264). -/
def trySafe (i : BitVec 4) (m : BitVec 16) (n : Lit) (s : State) : Try :=
  if n.toNat % 4096 ≠ 0 ∨ s.core.lmGrant < n.toNat then .stop (plainStop s 6 .command)
  else
    let now := s.core.now
    let k := plainStop s 6 .preemptSafe
    let t := (s.issued 6 1 i).modGang s.cur.val fun c => { c with ctx := { c.ctx with safePt := now } }
    .ok (if s.preempting then t.endStop k m n.toNat else t)

/-- SY_SAFE (R263). -/
def execSySafe (i : BitVec 4) (m : BitVec 16) (n : Lit) (s : State) : Out := finish s (trySafe i m n s)

/-- SY_TRAP (R265): the gang stops at the end of this cycle. -/
def execSyTrap (i : BitVec 4) (c : BitVec 18) (s : State) : Out :=
  .next ((s.issued 6 1 i).endStop (issueStop s 6 .trap c.toNat) 0xFFFF#16 s.core.lmGrant)

/-- SY_SYSCALL (R265): the gang stops at the end of this cycle. -/
def execSySyscall (i : BitVec 4) (c : BitVec 18) (s : State) : Out :=
  .next ((s.issued 6 1 i).endStop (issueStop s 6 .syscall c.toNat) 0xFFFF#16 s.core.lmGrant)

/-- A core whose stream has ended: its record shows that it commits (R307; DESIGN CHOICE, log entry 65). -/
def Core.committing (k : Core) : Core := if k.task.isSome && !k.hnd then { k with hst := 6 } else k

/-- SY_END (R260, R266): the core's stream ends, and with it its contributions to the batches. -/
def execSyEnd (i : BitVec 4) (s : State) : Out :=
  let t := ((s.issued 6 1 i).modCtx fun x => { x with ended := true }).mod Core.committing
  .next (if batchOk s then (List.range 8).foldl (fun t k => t.closeBatch s.cur.val k) t else t)

/-- SAFE_GAP_FAULT (R264): no safe point within G cycles of the last. -/
def execSafeGapFault (s : State) : Out :=
  let c := s.core
  let g := (c.task.map Task.sgap).getD 0
  finish s (if c.ctx.safePt + g + 1 ≤ c.now ∧ c.task.isSome ∧ !c.hnd then .stop (bareStop s 7 2 .safeGap 0xFFFF) else .ok s)

end Sys2Proof.Machine
end

