-- ==== Sys2Proof/Machine/Regs.lean ====
section
/-! DEFINITION. The system registers (R277): what a read of each returns and what a write of each does, with the
authority of a supervisor's `sy.mtsr` or of firmware's own port. Writes of firmware that act beyond their register
stand in Firmware.lean. -/

namespace Sys2Proof.Machine

/-! Fields. -/

/-- The fields of a register kept by a mask; the others are reserved and read zero. -/
def maskOf (lo w : Nat) : W64 := BitVec.ofNat 64 ((2 ^ w - 1) * 2 ^ lo)

/-- A counter of R227 after a write. -/
def counterWrite (v : W64) : W64 := v &&& maskOf 0 48

/-- Clamp an envelope rate to its strap; 0 is taken as 1 (R334). -/
def clampRate (v : Nat) (strap : Nat) : W16 := BitVec.ofNat 16 (min (max 1 (v % 2 ^ 16)) strap)

/-- LSG_CTL fields (R339). -/
def Gov.cstep (g : Gov) : Nat := bitsOf g.ctl.toNat 0 8
def Gov.pinrsv (g : Gov) : Nat := bitsOf g.ctl.toNat 8 8
def Gov.ratio (g : Gov) : Nat := bitsOf g.ctl.toNat 17 2
def Gov.point (g : Gov) : Nat := bitsOf g.ctl.toNat 19 2
def Gov.rep (g : Gov) : Bool := g.ctl.getLsbD 16
/-- The depth D of the ramp credit in mW (R330). -/
def Gov.depth (g : Gov) : Nat := 1000 * g.up.toNat

/-- PINRSV lowered to its bound (R334). -/
def Gov.clampPin (g : Gov) : Gov :=
  { g with ctl := putBits g.ctl 8 8 (min g.pinrsv (g.up.toNat - 4 * g.cstep)) }

/-- A write of LSG_ENV_UP (R330, R334): Q becomes D. -/
def Gov.writeUp (g : Gov) (v : W64) : Gov :=
  let g := { g with up := clampRate v.toNat Config.strapUp }
  { g with q := g.depth }.clampPin

/-- A write of LSG_ENV_DN (R334). -/
def Gov.writeDn (g : Gov) (v : W64) : Gov := { g with dn := clampRate v.toNat Config.strapDn }

/-- The repeatable-mode fields of a value of LSG_CTL: REP, RATIO, POINT, SREP (0 is taken as 1; above 16 as 16). -/
def repFields (v : W64) : W64 :=
  (v &&& maskOf 16 5) ||| (BitVec.ofNat 64 (min 16 (max 1 (bitsOf v.toNat 21 5)) * 2 ^ 21))

/-- A write of LSG_CTL (R334, R335): CSTEP and PINRSV at once, the repeatable-mode fields once no task is bound. -/
def Gov.writeCtl (g : Gov) (v : W64) : Gov :=
  let rep := repFields v
  let ctl := putBits (putBits g.ctl 0 8 (max 1 (bitsOf v.toNat 0 8))) 8 8 (bitsOf v.toNat 8 8)
  { g with ctl := ctl, next := if rep = repFields g.ctl then none else some rep }.clampPin

/-- A write of PWR_CAP (R334, R339). -/
def Gov.writeCap (g : Gov) (v : W64) : Gov :=
  { g with cap := putBits (v &&& maskOf 0 40) 0 16 (min (bitsOf v.toNat 0 16) Config.strapPmax) }

/-! The quad registers (R339). -/

/-- A field of two bits in which code 3 is ignored. -/
def keepOld (r : W64) (lo : Nat) (v : W64) : W64 :=
  if bitsOf v.toNat lo 2 = 3 then r else putBits r lo 2 (bitsOf v.toNat lo 2)

/-- A write of QPC_CTL. -/
def Quad.writeCtl (q : Quad) (v : W64) : Quad :=
  let r := putBits (putBits (putBits q.ctl 2 2 (bitsOf v.toNat 2 2)) 6 2 (bitsOf v.toNat 6 2)) 8 1 (bitsOf v.toNat 8 1)
  { q with ctl := keepOld (keepOld r 0 v) 4 v }

/-- State codes of R336. -/
def PState.code : PState → Nat
  | .on => 0
  | .drain => 1
  | .fall => 2
  | .gated => 3
  | .wakeWait => 4
  | .rise => 5

/-- QPC_STAT (R339). -/
def Quad.stat (q : Quad) : W64 :=
  BitVec.ofNat 64 (q.ratio.toNat + (if q.point = 4#3 then 0 else q.point.toNat % 4 * 4) + (if q.bst then 16 else 0)
    + (if q.icap then 32 else 0) + (if q.tcap then 64 else 0) + (if q.capx then 128 else 0)
    + (if q.stretch then 256 else 0) + (if q.ballast ≠ 0 then 512 else 0) + q.est % 2 ^ 32 * 2 ^ 32)

/-- QPC_PSTATE (R339). -/
def Quad.pstate (q : Quad) : W64 :=
  BitVec.ofNat 64 (q.ps.code + (if q.refused then 8 else 0) + q.nack.toNat * 2 ^ 16)

/-- A request bit written one at time t: it stays until a tick takes it. -/
def requestAt (old : Option Nat) (b : Bool) (t : Nat) : Option Nat := if b then some (old.getD t) else old

/-- A write of a quad register (R339, R340) with offset from 0x310, effective at time t. -/
def Quad.write (q : Quad) (k : Nat) (v : W64) (t : Nat) : Quad :=
  match k with
  | 1 => q.writeCtl v
  | 3 => { q with ballastCyc := counterWrite v }
  | 4 => { q with stretchCyc := counterWrite v }
  | 5 => { q with gateReq := requestAt q.gateReq (v.getLsbD 0) t, depth := v.getLsbD 1 }
  | 6 => { q with wakeReq := requestAt q.wakeReq (v.getLsbD 0) t }
  | 7 => { q with refused := q.refused && !v.getLsbD 3 }
  | _ => q

/-- Whether the clock of a quad runs (R336): not while it is gated or waits for its wake. -/
def Quad.runs (q : Quad) : Bool := !q.tripped && q.ps != .gated && q.ps != .wakeWait

/-- The first cycle start of a quad's clock at time t or later (R21). -/
def Quad.clockFrom (q : Quad) (t : Nat) : Nat := q.edge + (t + q.period - 1 - q.edge) / q.period * q.period

/-- The cycles of a quad's clock that began before time t are counted (R327, R333, R341): the stretched ones, and those
in which ballast ran. A clock that is stopped begins none. -/
def Quad.settleClock (q : Quad) (t : Nat) : Quad :=
  if q.runs then
    let n := (t + q.period - 1 - q.edge) / q.period
    { q with
      stretchCyc := if q.stretch then satAdd48 q.stretchCyc n else q.stretchCyc
      ballastCyc := if q.ballast ≠ 0 then satAdd48 q.ballastCyc n else q.ballastCyc
      edge := q.edge + n * q.period }
  else { q with edge := max q.edge t }

/-- A read of a quad register with offset from 0x310. -/
def Quad.read (q : Quad) (k : Nat) : W64 :=
  match k with
  | 1 => q.ctl
  | 2 => q.statSnap
  | 3 => q.ballastCyc
  | 4 => q.stretchCyc
  | 5 => BitVec.ofNat 64 ((if q.gateReq.isSome then 1 else 0) + (if q.depth then 2 else 0))
  | 7 => q.pstSnap
  | _ => 0#64

/-! Format windows (R229, R231). -/

/-- The bits of an address register of a window. -/
def lineMask : W64 := maskOf 7 45

/-- Whether a window's formats stand in their lists. -/
def windowFormats (v : W64) : Bool :=
  let sf := bitsOf v.toNat 1 5
  let tf := bitsOf v.toNat 6 5
  (sf == 0x12 || sf == 0x13) && decide (3 ≤ tf) && decide (tf ≤ 6)

/-- A write of register k of a window: ignored while the window is enabled, a write that would clear EN too, but for the
counters (R229; log entry 37). -/
def Window.write (x : Window) (k : Nat) (v : W64) : Window :=
  let en := x.ctl.getLsbD 0
  match k with
  | 0 =>
    if en then x
    else
      let c := v &&& maskOf 0 11
      { x with ctl := if windowFormats v then c else putBits c 0 1 0 }
  | 1 => if en then x else { x with base := v &&& lineMask }
  | 2 => if en then x else { x with lim := v &&& lineMask }
  | 3 => if en then x else { x with store := v &&& lineMask }
  | 4 => { x with cntA := v }
  | 5 => { x with cntB := v }
  | _ => x

/-- A read of register k of a window. -/
def Window.read (x : Window) (k : Nat) : Option W64 :=
  match k with
  | 0 => some x.ctl
  | 1 => some x.base
  | 2 => some x.lim
  | 3 => some x.store
  | 4 => some x.cntA
  | 5 => some x.cntB
  | _ => none

/-- A write of window w; lines of its range decoded under other settings are not kept (R230). -/
def State.writeWindow (s : State) (w k : Nat) (v : W64) : State :=
  let t := s.modWindow w fun x => x.write k v
  if t.window w = s.window w ∨ 3 < k then t
  else { t with msc := t.msc.filter fun y => !(decide ((t.window w).base.toNat ≤ 128 * y.line)
    && decide (128 * y.line < (t.window w).lim.toNat) && s.target (128 * y.line) == .decode) }

/-! The core's registers (R278). -/

/-- PRE_CTL (R278). -/
def Core.preCtl (c : Core) : W64 :=
  BitVec.ofNat 64 ((if c.preReq then 1 else 0) + min (2 ^ 32 - 1) (c.hacc / Config.unitsPerNs) * 2 ^ 32)

/-- PRE_CTL.REQ is set at a core whose gang runs (R295): HACC counts from here. -/
def Core.request (c : Core) : Core := if c.preReq then c else { c with preReq := true, hacc := 0 }

/-- A write of VLT_CTL on core c (R225): held while a task is bound. -/
def Core.writeVlt (c : Core) (v : W64) : Core := if c.task.isSome then { c with vltHeld := some v } else c.applyVlt v

/-- A write of PCS_CTL (R339). -/
def pcsWrite (old v : W64) : W64 :=
  let r := putBits (v &&& maskOf 0 1) 1 15 (max 1 (bitsOf v.toNat 1 15))
  let len := bitsOf v.toNat 16 5
  putBits r 16 5 (if 4 ≤ len ∧ len ≤ 20 then len else bitsOf old.toNat 16 5)

/-- A register of core c alone: read. -/
def coreRead (s : State) (c n : Nat) : Option W64 :=
  let k := s.at c
  match n with
  | 0x000 => some (s.prvStatus c)
  | 0x001 => some k.fltBase
  | 0x002 => some k.fltVec
  | 0x003 => some k.fltCause
  | 0x004 => some (k.wdog.setWidth 64)
  | 0x005 => some k.preCtl
  | 0x040 => some k.ctx.stickyWord
  | 0x041 => some k.hintIgn
  | 0x042 => some k.nmuDup
  | 0x100 => some k.vltCtl
  | 0x101 => some k.vcHit
  | 0x102 => some k.vcPhit
  | 0x103 => some k.vcMiss
  | 0x104 => some k.vcOvfl
  | 0x200 => some k.trnRoot
  | 0x201 => some k.trnCtx
  | 0x202 => some k.trnCtxTab
  | 0x203 => some (s.quad (quadOf c)).trnHit
  | 0x204 => some (s.quad (quadOf c)).trnMiss
  | 0x205 => some (s.die (dieOf c)).wcHit
  | 0x206 => some (s.die (dieOf c)).wRead
  | 0x310 => some (k.qpcSel.setWidth 64)
  | 0x320 => some k.pcsCtl
  | 0x321 => some k.pcsBase
  | 0x322 => some (k.pcsHead.setWidth 64)
  | _ => none

/-- A module-wide register: read. -/
def moduleRead (s : State) (n : Nat) : Option W64 :=
  match n with
  | 0x300 => some (s.gov.up.setWidth 64)
  | 0x301 => some (s.gov.dn.setWidth 64)
  | 0x302 => some (BitVec.ofNat 64 (Config.strapUp + Config.strapDn * 2 ^ 16 + Config.strapPmax * 2 ^ 32))
  | 0x303 => some (s.gov.ctl ||| (if s.gov.next.isSome then maskOf 26 1 else 0#64))
  | 0x304 => some (BitVec.ofNat 32 (s.gov.q % 2 ^ 32).toNat ++ BitVec.ofNat 32 s.gov.est)
  | 0x305 => some s.gov.rampWait
  | 0x306 => some s.gov.viol
  | 0x307 => some s.gov.dnShort
  | 0x308 => some s.gov.cap
  | 0x450 => some s.mgtEvq
  | 0x451 => some (s.mgtEvhead.setWidth 64)
  | 0x452 => some (if s.mgtRst then 1#64 else 0#64)
  | 0x472 => some (s.rasScrub.setWidth 64)
  | 0x480 => some s.idnSerial
  | 0x481 => some s.idnPod
  | 0x482 => some (BitVec.ofNat 64 (s.sigNext.toNat + (if 2 ^ 20 ≤ s.sigNext.toNat then 2 ^ 21 else 0)))
  | 0x490 => some s.rhsCtl
  | 0x500 => some s.sltErr
  | _ => none

/-- PRT_CFG of a partition (R343). -/
def Part.cfg (p : Part) : W64 :=
  BitVec.ofNat 64 ((if p.en then 1 else 0) + (if p.inrst then 4 else 0) + p.maxcls.toNat * 8 + p.mways.toNat * 64
    + p.win.toNat * 2 ^ 16)

/-- A partition register as core c sees it (R343): those of another partition read zero. -/
def partRead (s : State) (c n : Nat) : Option W64 :=
  let me := s.partOf c
  let own (p : Nat) (v : W64) : Option W64 := some (if p = me then v else 0#64)
  if n = 0x400 then some (BitVec.ofNat 64 me)
  else if 0x410 ≤ n ∧ n < 0x420 then own (n - 0x410) (s.part (n - 0x410)).cfg
  else if 0x420 ≤ n ∧ n < 0x430 then own (n - 0x420) ((s.part (n - 0x420)).qmask.setWidth 64)
  else if 0x430 ≤ n ∧ n < 0x440 then own (n - 0x430) (s.part (n - 0x430)).hbm
  else if n = 0x470 then some (s.part me).ce
  else if n = 0x471 then some (s.part me).ue
  else none

/-- System register n as core c reads it; none: the number is not assigned (R277). -/
def State.sysRead (s : State) (c n : Nat) : Option W64 :=
  match coreRead s c n with
  | some v => some v
  | none =>
    match moduleRead s n with
    | some v => some v
    | none =>
      match partRead s c n with
      | some v => some v
      | none =>
        if 0x180 ≤ n ∧ n < 0x200 then (s.window ((n - 0x180) / 8)).read ((n - 0x180) % 8)
        else if 0x311 ≤ n ∧ n ≤ 0x317 then some (((s.quad (s.at c).qpcSel.toNat).settleClock s.time).read (n - 0x310))
        else none

/-- A register of core c alone: write with a supervisor's authority. -/
def coreWrite (k : Core) (n : Nat) (v : W64) : Core :=
  match n with
  | 0x000 => if v.getLsbD 4 then { k with hlt := false } else k
  | 0x001 => { k with fltBase := v &&& maskOf 12 40 }
  | 0x002 => { k with fltVec := v &&& (maskOf 0 15 ||| maskOf 16 32) }
  | 0x004 => { k with wdog := BitVec.ofNat 32 (max 1000 (v.toNat % 2 ^ 32)) }
  | 0x005 => if v.getLsbD 0 then k.request else k
  | 0x040 => { k with ctx := k.ctx.clearFlags (v.setWidth 8) }
  | 0x041 => { k with hintIgn := counterWrite v }
  | 0x042 => { k with nmuDup := counterWrite v }
  | 0x100 => k.writeVlt v
  | 0x101 => { k with vcHit := counterWrite v }
  | 0x102 => { k with vcPhit := counterWrite v }
  | 0x103 => { k with vcMiss := counterWrite v }
  | 0x104 => { k with vcOvfl := counterWrite v }
  | 0x310 => if v.toNat % 64 < 48 then { k with qpcSel := v.setWidth 6 } else k
  | 0x320 => { k with pcsCtl := pcsWrite k.pcsCtl v
                      pcsNext := max 1 (bitsOf v.toNat 1 15) }
  | 0x321 => { k with pcsBase := v &&& maskOf 12 40 }
  | 0x322 => { k with pcsHead := v.setWidth 32 }
  | _ => k

/-- Core c writes system register n (R277, R290, R339, R343): fields that only firmware writes stay. The write is effective at time t. -/
def State.sysWrite (s : State) (c n : Nat) (v : W64) (t : Nat) : State :=
  if 0x180 ≤ n ∧ n < 0x200 then s.writeWindow ((n - 0x180) / 8) ((n - 0x180) % 8) v
  else if 0x311 ≤ n ∧ n ≤ 0x317 then s.modQuad (s.at c).qpcSel.toNat fun q => (q.settleClock t).write (n - 0x310) v t
  else match n with
    | 0x203 => s.modQuad (quadOf c) fun q => { q with trnHit := counterWrite v }
    | 0x204 => s.modQuad (quadOf c) fun q => { q with trnMiss := counterWrite v }
    | 0x205 => s.modDie (dieOf c) fun d => { d with wcHit := counterWrite v }
    | 0x206 => s.modDie (dieOf c) fun d => { d with wRead := counterWrite v }
    | 0x305 => { s with gov := { s.gov with rampWait := counterWrite v } }
    | 0x306 => { s with gov := { s.gov with viol := counterWrite v } }
    | 0x307 => { s with gov := { s.gov with dnShort := counterWrite v } }
    | _ => s.modAt c fun k => coreWrite k n v

end Sys2Proof.Machine
end

