-- ==== Sys2Proof/Machine/Split.lean ====
section
/-! DEFINITION. Fetch and the splitter (R83, R86-R91, R118, R119), and the issue order of the queues (R92-R94). -/

namespace Sys2Proof.Machine

/-- Queue depths in words (R20). -/
def queueDepth (e : Nat) : Nat :=
  match e with
  | 0 | 3 | 5 => 16
  | 1 | 2 | 4 => 32
  | _ => 8

/-- The words of a line as fetch reads it: lines 448 and above are SIMEM at supervisor privilege (R276). -/
def Core.fetchLine (c : Core) (line : Nat) : List W32 :=
  let rd (o : Nat) : Byte :=
    if c.ctx.sup ∧ 448 ≤ line then memRead c.simem (128 * (line - 448) + o) else memRead c.imem (128 * line + o)
  (List.range 32).map fun k => rd (4 * k + 3) ++ rd (4 * k + 2) ++ rd (4 * k + 1) ++ rd (4 * k)

/-- The line's mark of word k, and its V (R86). -/
def lineV (l : List W32) : Bool := (l.getD 0 0#32).getLsbD 31
def lineMark (l : List W32) (k : Nat) : Bool := decide (0 < k) && (l.getD 0 0#32).getLsbD (k - 1)

/-- Words whose first literal is a stamp S29 (R80, R82). -/
def isStamped (w : W32) : Bool :=
  let e := (engOf w).toNat
  let op := (opOf w).toNat
  op == 0x7E || ((e == 1 || e == 2) && op == 7 && (operOf w).extractLsb' 16 2 == 1#2)
  || (e == 3 && op == 4) || (e == 4 && decide (3 ≤ op) && decide (op ≤ 8))
  || (e == 5 && decide (2 ≤ op) && decide (op ≤ 4) && (operOf w).extractLsb' 16 2 == 1#2)

/-- Words that take an absolute time (R80, R93). -/
def isTimed (w : W32) : Bool :=
  let e := (engOf w).toNat
  let op := (opOf w).toNat
  (operOf w).extractLsb' 16 2 == 2#2
  && (((e == 1 || e == 2) && op == 7) || (e == 5 && decide (2 ≤ op) && decide (op ≤ 4)))

/-- Sum of i * period over the active levels (R93, R119). -/
def loopOffset (l : List LoopLevel) : Nat := l.foldl (fun n v => n + v.i * v.period) 0

/-- Give the last instruction of a queue its effective time. -/
def setLastEff (l : List QEntry) (f : Option Nat → Option Nat) : List QEntry :=
  match (l.reverse.findIdx? fun q => !isLit q.word) with
  | none => l
  | some k => l.mapIdx fun i q => if i + k + 1 = l.length then { q with eff := f q.eff } else q

/-- The instruction at the tail of a queue. -/
def tailInstr (l : List QEntry) : Option W32 := (l.reverse.find? fun q => !isLit q.word).map QEntry.word

/-- What placing one word comes to. -/
inductive Place where
  | full
  | fault (k : Stop)
  | go (x : Ctx)
  /-- placed; the splitter does nothing more in this cycle -/
  | last (x : Ctx)

/-- The turn of the loop stack when the word at position p has been placed (R119): the levels whose last word that is
are examined, top first; levels left, and the word a turn lands on. -/
def turnLoops (p : Nat) : List LoopLevel → List LoopLevel × Option Nat
  | [] => ([], none)
  | v :: r =>
    if v.last ≠ p then
      let (l, t) := turnLoops p r
      (v :: l, t)
    else if v.i + 1 < v.count then ({ v with i := v.i + 1 } :: r, some v.first)
    else turnLoops p r

/-- Place the next word (R83, R86-R88, R119); pres: the cycle in which it is present. Where the spec names no order, the
model chooses (DESIGN CHOICE, log entry 41): a body's last word that R119 forbids and that is an illegal encoding too records
the illegal encoding alone; a word landed on without its mark, or in a line with V = 0, records control flow alone, an illegal
encoding or not; a word in the place of a literal that is owed needs a free slot of the queue that owes it, whatever its own
E, before it is split and faults. -/
def placeWord (s : State) (k : Core) (x : Ctx) (pres : Nat) : Place :=
  let p := x.spl.next
  let line := p / 32
  let j := p % 32
  let ws := match x.spl.line with
    | some (l, ws) => if l = line then ws else k.fetchLine line
    | none => k.fetchLine line
  let w := ws.getD j 0#32
  let owed := x.spl.owed
  let q := if owed.isEmpty then (engOf w).toNat else x.spl.owedEng
  let stop (e : Nat) (c : StopClass) : Place := .fault (bareStop s e 0 c (4 * p))
  if 511 < line then stop 0 .controlFlow
  else if q < 7 ∧ j ≠ 0 ∧ queueDepth q ≤ (x.q q).es.length then .full
  else if j == 0 || !lineV ws || (x.spl.landing && !lineMark ws j) then stop 0 .controlFlow
  else
    let ctl := match owed with
      | [] => isControl w
      | _ => ((tailInstr (x.q q).es).map isControl).getD false
    let rules : List (Lit × Bool) := match owed with
      | [] => (litRules w).map fun r => (r.rsv, r.desc)
      | _ :: r => r
    let bad : Option StopClass := match owed with
      | (rsv, desc) :: _ => match checkLit ⟨rsv, desc⟩ w with
        | .ok _ => none
        | .error _ => some .illegalEncoding
      | [] =>
        if isPriv w && !k.ctx.sup then some .privileged
        else if k.hnd && decide (1 ≤ q) && decide (q ≤ 4) then some .privileged
        else match checkWord w with
          | .ok _ => none
          | .error _ => some .illegalEncoding
    match bad with
    | some c => stop q c
    | none =>
      let ends := x.loops.any fun v => v.last == p
      if ends && (!rules.isEmpty || ctl || (x.loops.head?.map LoopLevel.last) != some p) then stop 0 .controlFlow
      else
        let eff : Option Nat :=
          if owed.isEmpty ∧ isStamped w = true then some (loopOffset x.loops)
          else if owed.isEmpty ∧ isTimed w = true then some 0 else none
        let es := (x.q q).es ++ [⟨w, 4 * p, pres, eff⟩]
        -- the literals of a time: one S29, or the two of an A58
        let tail := (tailInstr (x.q q).es).getD 0#32
        let n := (litRules tail).length - owed.length
        let es :=
          if owed.isEmpty then es
          else if isStamped tail = true ∧ n = 0 then setLastEff es fun o => o.map fun v => v + (payload w).toNat
          else if isTimed tail = true ∧ n < 2 then
            setLastEff es fun o => o.map fun v => v * 2 ^ 29 + (payload w).toNat
          else es
        let x := x.setQ q ⟨(x.q q).ni, es⟩
        let spl : Splitter :=
          { x.spl with next := nextPos p, landing := false,
                       line := if (nextPos p) / 32 = line then some (line, ws) else none, owedEng := q, owed := rules }
        if ctl && rules.isEmpty then .last { x with spl := { spl with halted := true, resumeAt := none } }
        else if ends then
          match turnLoops p x.loops with
          | (l, some first) => .last { x with loops := l, spl := { spl with next := first, landing := true, line := none } }
          | (l, none) => .go { x with loops := l, spl := spl }
        else .go { x with spl := spl }

/-- Place up to n words (R88): the context, and the stop of the word that may not be placed. -/
def placeWords (s : State) (k : Core) (pres : Nat) : Nat → Ctx → Ctx × Option Stop
  | 0, x => (x, none)
  | n + 1, x =>
    match placeWord s k x pres with
    | .full => (x, none)
    | .fault f => (x, some f)
    | .go y => placeWords s k pres n y
    | .last y => (y, none)

/-- The splitter's cycle (R88, R89). Where a word faults, those placed before it stay in their queues (R83). -/
def trySplit (s : State) : Try :=
  let k := s.core
  let now := k.now
  let go (x : Ctx) : Try :=
    match placeWords s k (now + 1) 8 x with
    | (y, none) => .ok (s.modCtx fun _ => y)
    | (y, some f) => .stopIn (s.modCtx fun _ => y) f
  if k.ctx.spl.halted then
    match k.ctx.spl.resumeAt with
    | some t => if t ≤ now then go { k.ctx with spl := { k.ctx.spl with halted := false, resumeAt := none, line := none } } else .ok s
    | none => .ok s
  else go k.ctx

/-- SPLIT (R88). -/
def execSplit (s : State) : Out := finish s (trySplit s)

/-- Place words before cycle 0 (R90, R286): until the splitter halts, meets a full queue, or meets a word that it may
not place. -/
def placeAhead (s : State) (k : Core) : Nat → Ctx → Ctx
  | 0, x => x
  | n + 1, x =>
    match placeWord s k x 0 with
    | .full => x
    | .fault _ => x
    | .go y => placeAhead s k n y
    | .last y => y

/-- The splitter runs before cycle 0 from position p (R90). -/
def Core.splitAhead (k : Core) (s : State) (p : Nat) : Core :=
  let x := { k.ctx with spl := { next := p, halted := false, resumeAt := none, landing := false, line := none,
                                 owedEng := 0, owed := [] } }
  { k with ctx := placeAhead s k 160 x }

/-! Issue (R92-R94). -/

/-- What the head of a queue does in a cycle. -/
inductive Due where
  | none
  | issue (i : Instr)
  | miss (waddr : Nat)
  deriving DecidableEq, Repr

/-- The entries of the instruction at the head of a queue. -/
def headEntries (q : Queue) : List QEntry :=
  match q.es with
  | [] => []
  | h :: r => h :: r.take (litRules h.word).length

/-- Whether an entry is present in cycle t (R92). -/
def QEntry.here (t : Nat) (e : QEntry) : Bool := decide (e.pres ≤ t)

/-- Whether the issue time of an instruction whose present literals are l is known: an unstamped one, or one whose time is
present. A stamp is not known before its literal is present (R94; DEDUCED, log entry 41). -/
def timeKnown (h : QEntry) (l : List QEntry) : Bool :=
  !(isStamped h.word || isTimed h.word) || l.length == (litRules h.word).length || (isStamped h.word && !l.isEmpty)
  || decide (2 ≤ l.length)

/-- The first stamped instruction of a queue that became present, it or a literal of it, after its effective stamp
(R94): its IMEM byte address. The first argument bounds the number of instructions. -/
def lateStamp (t : Nat) : Nat → List QEntry → Option Nat
  | 0, _ => none
  | _, [] => none
  | f + 1, h :: r =>
    let l := r.take (litRules h.word).length
    let at_ := h.eff.getD 0
    if (isStamped h.word || isTimed h.word) && timeKnown h (l.filter (QEntry.here t))
        && (h :: l).any fun e => decide (e.pres ≤ t) && decide (at_ < e.pres) then some h.addr
    else lateStamp t f (r.drop l.length)

/-- Whether the head of a queue issues in cycle t, or has missed its time (R92-R94). Where a later stamped word and the head
miss in one cycle, WADDR names the later word and MORE is not set (DESIGN CHOICE, log entry 41). -/
def headDue (q : Queue) (t : Nat) : Due :=
  match headEntries q with
  | [] => .none
  | h :: r =>
    let all := h :: r
    let whole := r.length == (litRules h.word).length
    let timed := isStamped h.word || isTimed h.word
    let known := timeKnown h (r.filter (QEntry.here t))
    let at_ := if timed then h.eff.getD 0 else q.ni
    let here (e : QEntry) : Bool := decide (e.pres ≤ t)
    match lateStamp t q.es.length q.es with
    | some a => .miss a
    | none =>
    if !here h then .none
    else if known && (all.any fun e => here e && decide (at_ < e.pres)) then .miss h.addr
    else if known && timed && (r.take 1).all here && decide (at_ < q.ni) then .miss h.addr
    else if whole && all.all here && at_ == t then
      match decodeWords (all.map QEntry.word) with
      | .ok (i, _) => .issue i
      | .error _ => .none
    else .none

/-- The schedule miss of the head of queue e of the current core, if it has one in this cycle (R94). -/
def missStop (s : State) (e : Nat) : Option Stop :=
  match headDue (s.core.ctx.q e) s.core.now with
  | .miss a => some (bareStop s e 1 .scheduleMiss a)
  | .none | .issue _ => none

end Sys2Proof.Machine
end

