-- ==== Sys2Proof/Machine/Priv.lean ====
section
/-! DEFINITION. Privileged words (R276, R289-R294), the ends of holds (R23, R25, R298), handlers (R286-R288) and
pre-emption requests (R295). -/

namespace Sys2Proof.Machine

/-- A privileged word at the head of the SYN queue: at user privilege it takes the privileged-instruction fault
(R83, R276). -/
def privileged (s : State) (f : State → Try) : Try :=
  if s.core.ctx.sup then f s else .stop { plainStop s 6 .privileged with rank := 0 }

/-! System registers (R277, R290). -/

/-- The LM operand of a system-register word: bounds, then alignment. -/
def regOperand (s : State) (d : Nat) : Option Stop := (lmRangeCheck s.core.lmGrant d 8 8).map fun k => issueStop s 6 k d

/-- `sy.mfsr` (R290): the register as it stands at the start of the cycle, to LM at the end of t + 2. -/
def tryMfsr (i : BitVec 4) (r : BitVec 12) (d : BitVec 21) (s : State) : Try :=
  privileged s fun s =>
    match s.sysRead s.cur.val r.toNat, regOperand s d.toNat with
    | none, _ => .stop (plainStop s 6 .command)
    | some _, some k => .stop k
    | some v, none => .ok ((s.issued 6 1 i).modCtx fun x =>
        { x with mfsrs := x.mfsrs ++ [⟨d.toNat, v, s.core.now + 2⟩] })

/-- SY_MFSR (R290). -/
def execSyMfsr (i : BitVec 4) (r : BitVec 12) (d : BitVec 21) (s : State) : Out := finish s (tryMfsr i r d s)

/-- `sy.mtsr` (R290): the value read at the start of t enters the register at the end of t. -/
def tryMtsr (i : BitVec 4) (r : BitVec 12) (d : BitVec 21) (s : State) : Try :=
  privileged s fun s =>
    match s.sysRead s.cur.val r.toNat, regOperand s d.toNat with
    | none, _ => .stop (plainStop s 6 .command)
    | some _, some k => .stop k
    | some _, none =>
      let v := BitVec.ofNat 64 (loadVal s d.toNat 8)
      .ok ((s.issued 6 1 i).modCtx fun x => { x with mtsrs := x.mtsrs ++ [⟨r, v, s.core.now⟩] })

/-- SY_MTSR (R290). -/
def execSyMtsr (i : BitVec 4) (r : BitVec 12) (d : BitVec 21) (s : State) : Out := finish s (tryMtsr i r d s)

/-- MFSR_WRITE (R290, rank 1 of R235): values due land in LM. -/
def execMfsrWrite (s : State) : Out :=
  let now := s.core.now
  .next (s.mod fun c =>
    let due := c.ctx.mfsrs.filter fun m => m.due == now
    let c := due.foldl (fun c m => c.landBytes c.ctx.sup m.addr (natLe 8 m.val.toNat)) c
    { c with ctx := { c.ctx with mfsrs := c.ctx.mfsrs.filter fun m => m.due != now } })

/-- Whether a register stands outside its core's own cycles: windows, counters of quad and die, the governor's counters,
the quad registers, sampling. -/
def sharedReg (n : Nat) : Bool :=
  (decide (0x180 ≤ n) && decide (n < 0x200)) || (decide (0x203 ≤ n) && decide (n ≤ 0x206))
  || (decide (0x305 ≤ n) && decide (n ≤ 0x307)) || (decide (0x311 ≤ n) && decide (n ≤ 0x317))
  || (decide (0x320 ≤ n) && decide (n ≤ 0x322))

/-- The writes of `sy.mtsr` take effect at the end of their cycle, on core c (R290, R340): those that other units see at
the time of that end. -/
def State.landMtsrs (s : State) (c : Nat) : State :=
  let k := s.at c
  let t := s.time + (s.quad (quadOf c)).period
  let s := k.ctx.mtsrs.foldl (fun s m =>
    if sharedReg m.reg.toNat then { s with outWrites := s.outWrites ++ [⟨t, c, m.reg, m.val⟩] }
    else s.sysWrite c m.reg.toNat m.val t) s
  s.modAt c fun k => { k with ctx := { k.ctx with mtsrs := [] } }

/-- The k-th write outside its core takes effect (R290, R340). -/
def State.outWrite (s : State) (k : Nat) : State :=
  match s.outWrites[k]? with
  | none => s
  | some w => { s with outWrites := s.outWrites.eraseIdx k }.sysWrite w.core w.reg.toNat w.val w.due

/-! Translations are removed (R291). -/

/-- Operands of an invalidation: kind, address, current context and partition. -/
structure Inval where
  kind : Nat
  va : Nat
  ctx : W16
  part : Nat

/-- Whether a context is within an invalidation. -/
def Inval.hitsCtx (v : Inval) (ctx : W16) (part : Nat) : Bool :=
  part == v.part && (v.kind == 2 || ctx == v.ctx)

/-- Whether a leaf matches (R291). -/
def Inval.hitsLeaf (v : Inval) (l : Leaf) : Bool :=
  v.hitsCtx l.ctx l.part && (v.kind != 0 || (decide (l.va ≤ v.va) && decide (v.va < l.va + l.size)))

/-- Whether a walk-cache entry matches (R291). -/
def Inval.hitsEntry (v : Inval) (e : W16 × Nat × Nat × Nat × W64) : Bool :=
  v.hitsCtx e.1 e.2.1 && (v.kind != 0 || e.2.2.2.1 == lvlPrefix e.2.2.1 v.va)

/-- A held leaf that matches is given up: its stream translates again before its next element (R291 step 3). -/
def Inval.drop (v : Inval) (l : Option Leaf) : Option Leaf :=
  match l with
  | some x => if v.hitsLeaf x then none else some x
  | none => none

/-- Lookups made for a held word that match are made again. -/
def Inval.pend (v : Inval) (p : Pend) : Pend :=
  if p.arg.isEmpty && p.looks.any (fun x => match x.2 with
    | .inr l => v.hitsLeaf l
    | .inl _ => false) then Pend.reset else p

/-- A context without the translations an invalidation removes. -/
def Inval.clean (v : Inval) (x : Ctx) : Ctx :=
  { x with ldP := x.ldP.map fun p => { p with leaf := v.drop p.leaf }
           stP := x.stP.map fun p => { p with leaf := v.drop p.leaf }
           pend5 := v.pend x.pend5, pend6 := v.pend x.pend6 }

/-- Remove translations everywhere (R291 steps 2 and 3), frames of stopped gangs included. -/
def State.invalidate (s : State) (v : Inval) : State :=
  { s with
    quads := s.quads.map fun q => { q with tlb := q.tlb.filter fun l => !v.hitsLeaf l }
    dies := s.dies.map fun d => { d with wc := d.wc.filter fun e => !v.hitsEntry e }
    cores := s.cores.map fun c => { c with ctx := v.clean c.ctx }
    saved := s.saved.map fun x => match x with
      | .frame id f => .frame id { f with ctx := v.clean f.ctx }
      | y => y }

/-- `sy.tlbi` (R291, R321): kind 0 makes its own lookup of the page at issue; then it holds until its completion. -/
def tryTlbi (i : BitVec 4) (k : BitVec 3) (a : BitVec 57) (s : State) : Try :=
  privileged s fun s =>
    let p := s.core.ctx.pend6
    let held (t : State) : Try :=
      .hold .tlbi (t.modCtx fun x => x.setPend 6 ⟨true, false, [], [], [5, k.toNat, a.toNat]⟩)
    if k ≠ 0#3 ∧ a ≠ 0#57 then .stop (plainStop s 6 .command)
    else if p.arg.head? = some 5 then
      if p.ready then .ok (s.issued 6 1 i) else .hold .tlbi s
    else if k ≠ 0#3 then held s
    else match issueLooks s 6 [(a.toNat, a.toNat + 1)] with
      | (t, none) => .hold (.walk 6) t
      | (t, some l) =>
        match lookOf l a.toNat with
        | some (.inl c) => .stopIn t { transStop 6 1 c false a.toNat with waddr := s.core.ctx.headAddr 6 }
        | _ => held t

/-- TLBI_COMPLETE (R291): once the core's earlier writes are visible, the matching entries go. -/
def execTlbiComplete (s : State) : Out :=
  let c := s.cur.val
  match s.core.ctx.pend6.arg with
  | [5, k, a] =>
    if s.writesDone c CopyEnd.isGlobal = false then .next s
    else
      let s := s.flushLines c fun _ => true
      let w := s.walkerOf c
      .next (s.invalidate ⟨k, a, w.ctx, w.part⟩).syncReady
  | _ => .next s

/-! Saving and restoring the array and the grid (R166, R167, R199, R292). -/

/-- Sizes of the two images. -/
def arrayImageSize : Nat := 0x40000
def gridImageSize : Nat := 0x20000

/-- The header of an array image (R167). A front past its last cell, whose outputs are in the drain stage, is no longer in
flight (DESIGN CHOICE, log entry 62). -/
def arrayHeader (a : Arr) : Nat :=
  let slots := (List.range 4).foldl (fun n p =>
    if a.cells.toList.any fun c => c.slots.getD p .empty != .empty then n + 2 ^ p else n) 0
  1 + a.stopCyc % 2 ^ 64 * 2 ^ 32 + a.set.mode.toNat * 2 ^ 96 + a.set.eta.toNat * 2 ^ 128 + a.set.fade.toNat * 2 ^ 160
  + a.set.afmt.toNat * 2 ^ 192 + a.set.gfmt.toNat * 2 ^ 197 + a.set.ofmt.toNat * 2 ^ 202 + a.set.rnd.toNat * 2 ^ 207
  + a.hsrc.toNat * 2 ^ 209 + slots * 2 ^ 211 + (if a.fronts.isEmpty then 0 else 2 ^ 215)

/-- A byte of a freeze image (R167); the body is opaque (log entry 8). -/
def arrayImage (id : Nat) (a : Arr) (o : Nat) : Byte :=
  if o < 256 then byteOf (arrayHeader a) o else Config.imageByte id o

/-- A byte of a grid image (R292). -/
def gridImage (id : Nat) (g : Grid) (o : Nat) : Byte :=
  if o < 256 then byteOf (1 + g.stopCyc % 2 ^ 64 * 2 ^ 32) o else Config.imageByte id o

/-- Whether memory at pa holds n bytes of an image. -/
def imageAt (s : State) (pa n : Nat) (f : Nat → Byte) : Bool :=
  (List.range n).all fun o => s.homeByte (pa + o) == f o

/-- Whether the current core's hardware reaches an image of n bytes at pa, and its REV is 0x0001 (R167, R292, R347). -/
def imageRev (s : State) (pa n : Nat) : Bool :=
  s.ownReach (s.partOf s.cur.val) pa n && s.homeByte pa == 1#8 && s.homeByte (pa + 1) == 0#8

/-- An array image of another module of the kind: what its opaque body holds is the array that its header describes (R166,
R167; log entry 8). -/
def foreignArray (s : State) (pa : Nat) : Option (Arr × Bool × Bool) :=
  (Config.foreignArray (s.homeBytes pa arrayImageSize)).filter fun x => imageAt s pa 256 (byteOf (arrayHeader x.1))

/-- The array that a freeze image in memory holds, with the freshness marks (R166). -/
def findArray (s : State) (pa : Nat) : Option (Arr × Bool × Bool) :=
  if !imageRev s pa arrayImageSize then none
  else (s.saved.findSome? fun x => match x with
    | .array id a am gm => if imageAt s pa arrayImageSize (arrayImage id a) then some (a, am, gm) else none
    | _ => none) <|> foreignArray s pa

/-- The grid that a grid image in memory holds. -/
def findGrid (s : State) (pa : Nat) : Option Grid :=
  if !imageRev s pa gridImageSize then none
  else s.saved.findSome? fun x => match x with
    | .grid id g => if imageAt s pa gridImageSize (gridImage id g) then some g else none
    | _ => none

/-- Whether the array runs work of the issuing code (R292): a front, a `cf.ldst` or a `cf.drain`. -/
def Core.arrayBusy (c : Core) : Bool :=
  !c.hnd && !c.arrHeld && (!c.arr.fronts.isEmpty || c.arr.ldst.isSome || c.arr.drain.isSome)

/-- Whether the grid runs work of the issuing code (R292). -/
def Core.gridBusy (c : Core) : Bool :=
  !c.hnd && !c.gridHeld && (!c.grid.doneBit || c.grid.loading.isSome || !c.grid.passes.isEmpty)

/-- A save or restore word (R292): op 0 asave, 1 arest, 2 gsave, 3 grest. It holds until the image is written or
read. -/
def trySave (i : BitVec 4) (op : Nat) (pa : Nat) (s : State) : Try :=
  privileged s fun s =>
    let p := s.core.ctx.pend6
    if p.started && p.ready then .ok (s.issued 6 1 i)
    else if p.started then .hold .saveRestore s
    else
      let busy := if op < 2 then s.core.arrayBusy else s.core.gridBusy
      let bad := (op == 1 && (findArray s pa).isNone) || (op == 3 && (findGrid s pa).isNone)
      if pa % 128 ≠ 0 ∨ busy = true ∨ bad = true then .stop (plainStop s 6 .command)
      else .hold .saveRestore (s.modCtx fun x => x.setPend 6 { x.pend6 with started := true, arg := [4, op, pa] })

/-- SY_ASAVE (R292). -/
def execSyAsave (i : BitVec 4) (a : BitVec 52) (s : State) : Out := finish s (trySave i 0 a.toNat s)
/-- SY_AREST (R292). -/
def execSyArest (i : BitVec 4) (a : BitVec 52) (s : State) : Out := finish s (trySave i 1 a.toNat s)
/-- SY_GSAVE (R292). -/
def execSyGsave (i : BitVec 4) (a : BitVec 52) (s : State) : Out := finish s (trySave i 2 a.toNat s)
/-- SY_GREST (R292). -/
def execSyGrest (i : BitVec 4) (a : BitVec 52) (s : State) : Out := finish s (trySave i 3 a.toNat s)

/-- The bytes of an image. -/
def imageBytes (n : Nat) (f : Nat → Byte) : List Byte := (List.range n).map f

/-- SAVE_RESTORE_COMPLETE (R292): the image is written or read. -/
def execSaveRestoreComplete (s : State) : Out :=
  match s.core.ctx.pend6.arg with
  | [4, op, pa] =>
    if s.core.ctx.pend6.ready then .next s
    else
      let (id, t) := s.newId
      let part := s.partOf s.cur.val
      let w := s.walkerOf s.cur.val
      .next (match op with
        | 0 => { (t.ownFill part w.ctx pa (imageBytes arrayImageSize (arrayImage id s.core.arr))).syncReady with
                 saved := .array id s.core.arr s.core.grid.amark s.core.grid.gmark :: s.saved }
        | 1 => match findArray s pa with
          | some (a, am, gm) => (s.mod fun c => { c with
              arr := a, arrHeld := true, grid := { c.grid with amark := am, gmark := gm } }).syncReady
          | none => s.syncReady
        | 2 => { (t.ownFill part w.ctx pa (imageBytes gridImageSize (gridImage id s.core.grid))).syncReady with
                 saved := .grid id s.core.grid :: s.saved }
        | _ => match findGrid s pa with
          | some g => (s.mod fun c => { c with grid := g, gridHeld := true }).syncReady
          | none => s.syncReady)
  | _ => .next s

/-- Whether core c still has words in other queues than the SYN's, or copies that only its own cycles bring to their end
(R293). -/
def State.resumeQueued (s : State) (c : Nat) : Bool :=
  let k := s.at c
  (List.range 6).any (fun e => !(k.ctx.q e).es.isEmpty) || !k.ctx.copies.isEmpty

/-- Whether work outside logical time that the running code of core c issued is in flight (R293, R294): copies, releases,
returning atomics. -/
def State.ownOutside (s : State) (c : Nat) : Bool :=
  let w := (s.at c).ctx.who
  ((s.hbm ++ s.outLands.map OutLand.copy).any fun x => x.who == w)
  || (s.rels.any fun r => r.who == w) || (s.atoms.any fun x => x.who == w)

/-- Whether the core still has words or work that a resume waits for (R293). -/
def State.resumeBusy (s : State) (c : Nat) : Bool := s.resumeQueued c || s.ownOutside c

/-! Ends of holds (R23, R25, R298). -/

/-- Whether one cause of a hold has cleared. -/
def State.causeClear (s : State) (c : Nat) (h : HoldCause) : Bool :=
  let pends (f : Nat → Pend → Bool) : Bool := (s.members c).all fun m => f m (s.at m).ctx.pend6
  let waits (k : Nat) (p : Pend) : Bool := p.started && p.arg.head? == some k && !p.ready
  match h with
  | .tag q supv g t _ _ =>
    let v := (s.at q).tag supv g
    v == t || v == 0xFFFF#16
  | .late c p _ _ =>
    let k := s.at c
    (((k.ctx.ldP[p]?).map LdPort.dels).getD []).all fun d => d.due != k.now || decide (d.arrive ≤ s.time)
  | .lateCopy c id _ => (s.at c).ctx.copies.all fun x => x.id != id || decide (x.arrive ≤ s.time)
  | .walk e => (s.members c).all fun m => ((s.at m).ctx.pend e).walks.isEmpty
  | .acquire => pends fun _ p => !waits 1 p
  | .fence => pends fun _ p => !waits 2 p
  | .tlbi => pends fun _ p => !waits 5 p
  | .saveRestore => pends fun _ p => !waits 4 p
  | .resume => (s.members c).all fun m => (s.at m).ctx.pend6.arg.head? != some 6 || !s.ownOutside m
  | .nmfence => (s.members c).all fun m => match (s.at m).ctx.pend5.arg with
      | [a, n] => !fenceBlocked s m a n
      | _ => true
  | .barrier sc k => (s.members c).all fun m =>
      (s.at m).ctx.pend6.arg != [3, sc, k] || ((s.at m).ctx.bar sc k).rep

/-- Whether a cause has come to a point at which a fault may show (R25): a granule carries the error tag, whatever tag is
expected (R234); late data have come and are poisoned (R233); the walks of a word, or the work that a resume waits for,
are done. -/
def State.causeFound (s : State) (c : Nat) (h : HoldCause) : Bool :=
  match h with
  | .tag q supv g _ _ _ => (s.at q).tag supv g == 0xFFFF#16
  | .late c p _ _ => ((s.at c).ctx.ld p).dels.any fun d =>
      d.due == (s.at c).now && d.data.isSome && d.poison && decide (d.arrive ≤ s.time)
  | .walk e => s.causeClear c (.walk e)
  | .resume => s.causeClear c .resume
  | _ => false

/-- Whether the cycle at which the gang's hold began is to be tested again: every cause has cleared (R23), or one may show
a fault, which ends the hold at once (R25). -/
def State.holdClear (s : State) (c : Nat) : Bool :=
  match (s.at c).hold with
  | none => false
  | some h => (h.causes.all fun x => s.causeClear c x) || h.causes.any fun x => s.causeFound c x

/-- A hold ends, or is to be tested: what it has lasted is kept for a test that finds it again (R298). -/
def Core.unhold (k : Core) : Core :=
  { k with hold := none, held := k.hold.map fun h => (k.now, h.since, h.wdog, h.linkSeen) }

/-- HOLD_END (R23, R25): logical time goes on with the cycle at which the hold began. -/
def execHoldEnd (s : State) : Out :=
  .next (if s.holdClear s.cur.val then s.modGang s.cur.val Core.unhold else s)

/-- Whether the hold watchdog has expired (R298). -/
def State.watchdog (s : State) (c : Nat) : Bool :=
  match (s.at c).hold with
  | none => false
  | some h => decide (h.since + h.wdog * Config.unitsPerNs ≤ s.time)

/-- HOLD_TIMEOUT (R25, R298, R354). -/
def execHoldTimeout (s : State) : Out :=
  match s.core.hold with
  | none => .next s
  | some h =>
    if !s.watchdog s.cur.val then .next s
    else
      let cls : StopClass :=
        if s.preempting then .preemptHold else if h.linkSeen.isSome then .linkLost else .holdTimeout
      let s := match cls, h.linkSeen with
        | .linkLost, some pt =>
          s.post .link (s.partOf s.cur.val) pt ((s.core.task.map fun t => t.ctx.toNat).getD 0xFFFF) 0
            ((s.core.task.map fun t => t.lid.toNat).getD 0) 0
        | _, _ => s
      finish s (.stop { h.why with cls := cls })

/-- Whether HACC has reached the watchdog during a hold of a gang with a pending request (R295). -/
def State.haccFull (s : State) (c : Nat) : Bool :=
  match (s.at c).hold with
  | none => false
  | some h => !(s.at c).hnd && (s.members c).any fun m =>
      (s.at m).prePend && decide (h.wdog * Config.unitsPerNs ≤ (s.at m).hacc)

/-- PREEMPT_HOLD_STOP (R295): class 0x13 at the hold's first cycle. -/
def execPreemptHoldStop (s : State) : Out :=
  if s.haccFull s.cur.val then finish s (.stop (bareStop s 7 2 .preemptHold 0xFFFF)) else .next s

/-! Handlers (R286, R288). -/

/-- Core c enters its handler (R286). -/
def State.enterCore (s : State) (c : Nat) : State :=
  let (id, s) := s.newId
  let k := s.at c
  let (head, detail) := match s.frameRec c with
    | some f => (headerWord f, f.stop.why.detail)
    | none => (0, 0)
  let n : List W64 := [k.fltBase, BitVec.ofNat 64 (k.gidx c + 4 * k.gsize), BitVec.ofNat 64 head, BitVec.ofNat 64 detail]
    ++ List.replicate 12 0#64
  let k := { k with
    ctx := { Ctx.reset with who := id, n := n, qs := List.replicate 7 ⟨0, []⟩, sup := true }
    hnd := true, hlc := 0, hold := none, held := none, endStop := none, enter := false, wrote := [], wroteTags := []
    nextCyc := (s.quad (quadOf c)).clockFrom (max k.nextCyc s.time) }
  s.setAt c (k.splitAhead s (bitsOf k.fltVec.toNat 0 14))

/-- HANDLER_ENTRY (R286): every core of the stopped gang enters its handler. -/
def execHandlerEntry (s : State) : Out :=
  let c := s.cur.val
  if s.core.stop.isNone || s.core.hnd || !((s.core.stop.map Stopped.frame).getD false) then .next s
  else .next ((s.members c).foldl (fun s m => s.enterCore m) s)

/-- PRV_ENTER (R288): firmware sets ENTER on the current core; the gang enters once every core of it has it set. -/
def execPrvEnter (s : State) : Out :=
  let c := s.cur.val
  if s.core.hnd || !((s.core.stop.map Stopped.frame).getD false) then .next s
  else
    let s := s.mod fun k => { k with enter := true }
    if (s.members c).all fun m => (s.at m).enter then execHandlerEntry s else .next s

/-- PRV_HLT_CLEAR (R278): HLT is written one. -/
def execPrvHltClear (s : State) : Out := .next (s.mod fun k => { k with hlt := false })

/-- SY_TLBI (R291). -/
def execSyTlbi (i : BitVec 4) (k : BitVec 3) (a : BitVec 57) (s : State) : Out := finish s (tryTlbi i k a s)

end Sys2Proof.Machine
end

