-- ==== Sys2Proof/Machine/Sched.lean ====
section
/-! DEFINITION. From launch to issue (R266, R294, R302-R314): intake, bind records, dispatch, alignment, commit, phases
and the end of a launch; the return from a stop and the end of a handler (R287, R293, R294). -/

namespace Sys2Proof.Machine

/-! Reports of phases and launches (R313). The fields that such entries leave unstated are free values. -/

/-- A phase or launch entry. -/
def State.reportTop (s : State) (p : Nat) (lid : W32) (st : TaskState) (lvl code : Nat) : State :=
  let (a, s) := s.freeVal
  let (b, s) := s.freeVal
  let (c, s) := s.freeVal
  let (d, s) := s.freeVal
  let (e, s) := s.freeVal
  match s.launch p lid with
  | none => s
  | some l =>
    let phase := if lvl = 1 then l.phase else bitsOf a.toNat 0 4
    s.report p lid st.code lvl phase (bitsOf b.toNat 0 48) (bitsOf b.toNat 48 16) code c.toNat d.toNat e.toNat

/-! The end of a task on its gang. -/

/-- The cells of an array whose pair slots are emptied without effect (R165). -/
def Arr.emptySlots (a : Arr) : Arr := { a with cells := a.cells.map fun c => { c with slots := List.replicate 4 .empty } }

/-- Core c after its gang's task has ended: R27 keeps LM, tags, the array and the edge buffers; pair slots are emptied
(R165). -/
def Core.freed (k0 : Core) (c : Nat) : Core :=
  let k := match k0.vltHeld with
    | some v => { k0 with task := none, vltHeld := none }.applyVlt v
    | none => k0
  { k with
    ctx := { Ctx.reset with spm := k.ctx.spm }, task := none, hold := none, held := none, stop := none, endStop := none, hnd := false
    enter := false, gbase := c, gsize := 1, preReq := false, prePend := false, armed := false, hst := 0
    lastCtx := (k0.task.map fun t => (t.ctx, t.part)).orElse fun _ => k.lastCtx
    arr := k.arr.emptySlots
    vc := k.vc.map fun x => { x with pin := none } }

/-- The cores of the gang of core c are freed; what is due of them in this cycle is not done. -/
def State.freeGang (s : State) (c : Nat) : State :=
  let ms := s.members c
  let base := (s.at c).gbase
  let s := { s with
    agenda := s.agenda.filter fun a => !(ms.contains a.1.val)
    gov := { s.gov with reqs := s.gov.reqs.filter fun r => match r with
      | .gang b _ _ _ => b != base
      | .wake _ _ => true } }
  ms.foldl (fun s m => s.modAt m fun k => k.freed m) s

/-- Whether any core still has a task of a launch bound. -/
def State.hasTask (s : State) (p : Nat) (lid : W32) : Bool :=
  s.cores.toList.any fun k => (k.task.map fun t => t.part == p && t.lid == lid).getD false

/-- A faulted launch ends once none of its tasks is bound (R312). -/
def State.settle (s : State) (p : Nat) (lid : W32) : State :=
  match s.launch p lid with
  | none => s
  | some l =>
    if l.faulted && !l.ended && !s.hasTask p lid then
      (s.modLaunch p lid fun l => { l with ended := true }).reportTop p lid .faulted 2 l.fcode
    else s

/-- The state that the record of a task keeps. -/
def State.taskState (s : State) (t : Task) : Option TaskState :=
  (s.launch t.part t.lid).bind fun l => (l.tasks.find? fun r => r.tile == t.tile && r.phase == t.phase).map TaskRec.st

/-- A launch is faulted with a class (R312). -/
def State.faultLaunch (s : State) (p : Nat) (lid : W32) (code : Nat) : State :=
  s.modLaunch p lid fun l => if l.faulted then l else { l with faulted := true, fcode := code }

/-- n free bytes. -/
def State.freeBytes (s : State) (n : Nat) : List Byte × State :=
  ((List.range n).map fun i => (Config.free (s.freeCount + i)).setWidth 8, { s with freeCount := s.freeCount + n })

/-- Core c after an abandoned load: LM, IMEM and GCS hold no defined content (R311), free values. -/
def State.halfLoaded (s : State) (c : Nat) : State :=
  let (lm, s) := s.freeBytes 0x200000
  let (im, s) := s.freeBytes 0x10000
  let (gc, s) := s.freeBytes 0x20000
  s.modAt c fun k => { k with lm := memWriteN [] 0 lm, imem := memWriteN [] 0 im, gcs := memWriteN [] 0 gc }

/-- The task of the gang of core c ends without commit (R288, R294, R312): its report, and the launch faulted unless it
was pre-empted. A partition reset reports with its own code 0x17 also what is faulted already (R346). A load that is abandoned
leaves no defined content (R311). -/
def State.endTask (s : State) (c : Nat) (st : TaskState) (code : Nat) : State :=
  match (s.at c).task with
  | none => s.freeGang c
  | some t =>
    let s := if (s.at c).hst = 2 then (s.members c).foldl State.halfLoaded s else s
    let s := if s.taskState t = some st ∧ code ≠ 0x17 then s else s.reportTask c st code
    let s := if st = .preempted then s else s.faultLaunch t.part t.lid code
    (s.freeGang c).settle t.part t.lid

/-- The task of the gang of core c commits (R266): streams still open, bindings, retention registers and barrier
states end with its context. -/
def State.commitTask (s : State) (c : Nat) : State :=
  match (s.at c).task with
  | none => s.freeGang c
  | some t => ((s.reportTask c .committed 0).freeGang c).settle t.part t.lid

/-- The gang of core c is lost (R300): no frame, no further act; it is reported and its cores are freed. Work outside
logical time goes on. -/
def State.loseGang (s : State) (c : Nat) : State :=
  match (s.at c).task with
  | none => s
  | some t => (s.post .gangLost (s.partOf c) c t.ctx.toNat 0x14 t.lid.toNat 0).endTask c .lost 0x14

/-! The return from a stop and the end of a handler (R287, R293, R294). -/

/-- Core c's CP stores, tag writes and `sy.mfsr` writes still on their way land as the handler ends. -/
def State.landAll (s : State) (c : Nat) : State :=
  let x := (s.at c).ctx
  let s := x.mfsrs.foldl (fun s m => s.modAt c fun k => k.lmWriteN x.sup m.addr (natLe 8 m.val.toNat)) s
  x.effs.foldl (fun s e => landEff s c x.sup e) s

/-- A resumed task is reported running again where it had escalated or was pre-empted (R314); its record follows it. -/
def State.reportResumed (s : State) (c : Nat) (again : Bool) : State :=
  match (s.at c).task with
  | none => s
  | some t =>
    let s := s.modLaunch t.part t.lid fun l => { l with tasks := l.tasks.map fun r =>
      if r.tile == t.tile && r.phase == t.phase then { r with core := (s.at c).gbase, st := .running } else r }
    if again then s.reportTask c .running 0 else s

/-- The whole gang of core c returns to the frames its cores named (R293). A supervisor task that resumes another
task ends with that, committed. -/
def State.resumeGang (s : State) (c : Nat) (l : List (Nat × Nat)) : State :=
  let k := s.at c
  let esc := (k.stop.map Stopped.escalated).getD false
  let s := l.foldl (fun s (m, _) => s.landAll m) s
  let fs := l.filterMap fun (m, pa) => (findFrame s pa).map fun f => (m, pa, f)
  let s := if k.hnd then s else s.reportTask c .committed 0
  let s := fs.foldl (fun s (m, pa, f) => resumeCore s m pa f) s
  let s := s.modGang c fun k => { k.fresh with nextCyc := k.nextCyc + (s.quad (quadOf c)).period }
  let s := { s with agenda := s.agenda.filter fun a => !((s.members c).contains a.1.val) }
  let pre := fs.any fun (_, _, f) => f.stop.why.cls == .preemptSafe || f.stop.why.cls == .preemptHold
  s.reportResumed c (esc || (pre && !k.hnd))

/-- The frames that the cores of the gang of core c have named. -/
def State.namedFrames (s : State) (c : Nat) : List (Nat × Nat) :=
  (s.members c).filterMap fun m => match (s.at m).ctx.pend6.arg with
    | [6, _, _, pa] => some (m, pa)
    | _ => none

/-- The checks of R293 on the frame that core c names; one at an address without a target is none (R344, log entry 68). -/
def State.frameOk (s : State) (c pa : Nat) : Bool :=
  match if s.ownReach (s.partOf c) pa frameSize then findFrame s pa else none with
  | none => false
  | some r => r.stop.frame && r.stop.why.cls.restartable && (s.at c).arr.stopCyc == r.stop.cyc
      && (s.at c).grid.stopCyc == r.stop.cyc

/-- A `sy.resume` that waits for what only its gang's own cycles bring about stays at its queue's head and is tried again
in the next cycle, within the hold watchdog as it stood at time t0, when the wait began (R298; DEDUCED, log entry 67); named:
it has named its frame. -/
def resumeAgain (s : State) (t0 wdog : Nat) (named : List Nat) : Try :=
  if t0 + wdog * Config.unitsPerNs ≤ s.time then .stop (bareStop s 6 1 .holdTimeout (s.core.ctx.headAddr 6))
  else .ok (s.modCtx fun x => (x.setPend 6 { x.pend6 with started := true, arg := 6 :: t0 :: wdog :: named }).setQ 6
    ⟨s.core.now + 1, (x.q 6).es⟩)

/-- The wait of a resume that becomes a hold counts from time t0, within the watchdog as it stood then (R298). -/
def Core.waited (k : Core) (t0 wdog : Nat) : Core :=
  { k with held := match k.held with
    | some (n, since, w, seen) =>
      if n ≠ k.now then some (k.now, t0, wdog, none)
      else if t0 < since then some (n, t0, wdog, seen) else some (n, since, w, seen)
    | none => some (k.now, t0, wdog, none) }

/-- `sy.resume` (R293): it waits for the core's other queues and the work of the running code, and for every core of the
gang. -/
def tryResume (f : BitVec 52) (s : State) : Try :=
  privileged s fun s =>
    let c := s.cur.val
    let (t0, wdog) := match s.core.ctx.pend6.arg with
      | 6 :: t :: w :: _ => (t, w)
      | _ => (s.time, s.core.wdog.toNat)
    if s.resumeQueued c then resumeAgain s t0 wdog []
    else if s.ownOutside c then
      .hold .resume ((s.modGang c fun k => k.waited t0 wdog).modCtx fun x =>
        x.setPend 6 { x.pend6 with started := true, arg := [6, t0, wdog] })
    else if f.toNat % 4096 ≠ 0 ∨ s.frameOk c f.toNat = false then .stop (plainStop s 6 .command)
    else
      let t := s.modCtx fun x => x.setPend 6 { x.pend6 with started := true, arg := [6, t0, wdog, f.toNat] }
      let l := t.namedFrames c
      if l.length < s.core.gsize then resumeAgain s t0 wdog [f.toNat] else .ok (t.resumeGang c l)

/-- SY_RESUME (R293). -/
def execSyResume (_i : BitVec 4) (f : BitVec 52) (s : State) : Out := finish s (tryResume f s)

/-- SY_HALT (R294): the core's stream ends; what follows comes once its words and work are done (TASK_COMMIT). -/
def execSyHalt (i : BitVec 4) (s : State) : Out :=
  finish s (privileged s fun s => .ok ((s.issued 6 1 i).modCtx fun x => { x with halted := true }))

/-- Whether core c has nothing left in its queues or on its way (R266). -/
def State.coreDone (s : State) (c : Nat) : Bool :=
  let k := s.at c
  let x := k.ctx
  (x.ended || x.halted) && (x.qs.all fun q => q.es.isEmpty) && x.effs.isEmpty && x.mfsrs.isEmpty && x.mtsrs.isEmpty
  && (x.ldP.all fun p => !p.running && p.dels.isEmpty) && (x.stP.all fun p => p.lands.isEmpty) && x.copies.isEmpty
  && (k.hnd || (k.grid.loading.isNone && k.grid.passes.isEmpty && k.grid.doneBit && k.arr.fronts.isEmpty && k.arr.outs.isEmpty
      && k.arr.deskew.isEmpty && k.arr.ldst.isNone && k.arr.drain.isNone && k.arr.hreads.isEmpty))
  && !s.ownOutside c

/-- Whether the gang of core c has come to its end (R266, R294): a handler ends by `sy.halt`. -/
def State.gangOver (s : State) (c : Nat) : Bool :=
  let k := s.at c
  let ms := s.members c
  k.task.isSome && (k.hnd || k.stop.isNone) && k.hold.isNone && (ms.all fun m => s.coreDone m)
  && (!k.hnd || ms.any fun m => (s.at m).ctx.halted)

/-- TASK_COMMIT (R266, R294): the task commits, or a handler that halted ends it. -/
def execTaskCommit (s : State) : Out :=
  let c := s.cur.val
  let k := s.core
  if !s.gangOver c then .next s
  else if k.hnd then
    let cls := (k.stop.map fun st => st.why.cls).getD .supervisor
    .next (s.endTask c (if cls == .preemptSafe || cls == .preemptHold then .preempted else .faulted) cls.code)
  else
    let halts := (s.members c).filter fun m => (s.at m).ctx.halted
    let s := s.commitTask c
    .next (halts.foldl (fun s m => s.modAt m fun k => { k with hlt := true }) s)

/-! Pre-emption requests (R295, R311). -/

/-- A bind is withdrawn (R311): the task is reported pre-empted with no frame. -/
def State.withdraw (s : State) (c : Nat) : State := s.endTask c .preempted 0

/-- PREEMPT_REQUEST (R295, R311): PRE_CTL.REQ is written one at the current core. -/
def execPreemptRequest (s : State) : Out :=
  match s.core.task with
  | none => .next s
  | some t =>
    if t.t0 then .next (s.mod fun k => k.request) else .next (s.withdraw s.cur.val)

/-- PREEMPT_PENDING (R295): the request becomes pending at the gang. -/
def execPreemptPending (s : State) : Out :=
  .next (s.mod fun k => if k.preReq && k.task.isSome then { k with prePend := true } else k)

/-! Intake (R303-R306). -/

/-- A write of LNC_HEAD of partition p (R303, R361): ignored and counted while intake is closed, or out of range. -/
def State.writeHead (s : State) (p : Nat) (v : W32) : State :=
  let P := s.part p
  let drop := !s.intake || !P.en || decide (v.toNat < P.lncTail.toNat) || decide (P.lncTail.toNat + 64 < v.toNat)
  s.modPart p fun P =>
    if drop then { P with lncDrop := BitVec.ofNat 32 (min (2 ^ 32 - 1) (P.lncDrop.toNat + 1)) } else { P with lncHead := v }

/-- LNC_HEAD_WRITE (R303). -/
def execLncHeadWrite (p : BitVec 4) (v : W32) (s : State) : Out := .next (s.writeHead p.toNat v)

/-- Bytes of a virtual range in a context with read permission (R305); none: a page fails, or a word is poisoned. -/
def ctxBytes (s : State) (ctx : W16) (part root : Nat) (kc : Bool) : Nat → Nat → Nat → Option (List Byte)
  | 0, _, _ => some []
  | f + 1, va, e =>
    if e ≤ va then some []
    else
      let n := min e ((va / 4096 + 1) * 4096) - va
      match s.plainPhys ctx part root kc false true false va with
      | .inl _ => none
      | .inr (pa, _) =>
        if (List.range n).any fun i => s.poisoned (pa + i) then none
        else (ctxBytes s ctx part root kc f (va + n) e).map fun r => s.homeBytes pa n ++ r

/-- n bytes at a virtual address of a context of a partition. -/
def State.readCtx (s : State) (ctx : W16) (part va n : Nat) : Option (List Byte) :=
  let (root, kc, _) := s.ctxRoot part ctx
  if 2 ^ 57 < va + n then none else ctxBytes s ctx part root kc (n / 4096 + 2) va (va + n)

/-- The enabled cores of a partition; of one that is not enabled, none (R345). -/
def State.partCores (s : State) (p : Nat) : List Nat :=
  (List.range 192).filter fun c => (s.part p).en && (s.part p).qmask.getLsbD (quadOf c)

/-- Addressable bytes of the vault above a core (R225, R306). -/
def Core.vaultBytes (c : Core) : Nat := 0x800000 - c.vcShare

/-- A task header (R302). -/
structure Header where
  entry : Nat
  gang : Nat
  sgap : Nat
  lmg : Nat
  spmg : Nat
  gcsg : Nat
  vltg : Nat
  ret : Nat
  sect : List (Nat × Nat)            -- offset and length of imem, lm, spm and gcs
  res : List (Nat × Nat)             -- route code and bytes
  ok : Bool                          -- R305 code 0x05 finds nothing
  deriving DecidableEq, Repr

/-- Read a header from its 2,048 bits. A section length beyond its space is a size field out of range (R35, R305): IMEM, the
grants LMG and GCSG, and for SPM the 4 KiB that dispatch writes, not SPMG (DESIGN CHOICE, log entry 70). -/
def headerOf (v : Nat) : Header :=
  let b := bitsOf v
  let sect := (List.range 4).map fun k => (b (256 + 64 * k) 32, b (288 + 64 * k) 32)
  let nres := b 228 4
  let res := (List.range (min nres 8)).map fun k => (b (512 + 64 * k) 3, b (520 + 64 * k) 40)
  let len (k : Nat) : Nat := (sect.getD k (0, 0)).2
  let clean := b 30 2 == 0 && b 35 29 == 0 && b 80 16 == 0 && b 106 22 == 0 && b 138 22 == 0 && b 171 21 == 0
    && b 204 20 == 0 && b 232 24 == 0 && b 1024 1024 == 0
    && ((List.range 8).all fun k => b (515 + 64 * k) 5 == 0 && b (560 + 64 * k) 16 == 0)
  let size := (b 32 3 == 1 || b 32 3 == 2 || b 32 3 == 4) && decide (1 ≤ b 96 10) && decide (b 96 10 ≤ 512)
    && decide (b 128 10 ≤ 512) && decide (b 160 11 ≤ 1024) && decide (b 192 12 ≤ 2048) && decide (b 224 4 ≤ 8)
    && decide (nres ≤ 8) && (sect.all fun x => x.1 % 128 == 0 && x.2 % 128 == 0)
    && decide (len 0 ≤ 0x10000) && decide (len 1 ≤ 4096 * b 96 10) && decide (len 2 ≤ 0x1000) && decide (len 3 ≤ 128 * b 160 11)
  let entry := b 16 14
  { entry := entry, gang := b 32 3, sgap := b 64 16, lmg := b 96 10, spmg := b 128 10, gcsg := b 160 11, vltg := b 192 12,
    ret := b 224 4, sect := sect, res := res,
    ok := b 0 16 == 1 && clean && size && decide (4 * entry < len 0) && (res.all fun r => decide (1 ≤ r.1) && decide (r.1 ≤ 5)) }

/-- Route of a code of R302. -/
def routeOf (k : Nat) : Route :=
  match k with
  | 1 => .lquad
  | 2 => .vnear
  | 3 => .vdie
  | 4 => .ldie
  | _ => .xdie

/-- Channels of a route class (R309) in the unit that holds them. -/
def Route.channels : Route → Nat
  | .lquad => 4
  | .vnear => 2
  | .vdie | .ldie => 16
  | .xdie => 32
  | .lself | .hbm => 0

/-- The first resource a header's requests exceed (R306); 0: none. -/
def State.exceeds (s : State) (p : Nat) (h : Header) : Nat :=
  let vault := (s.partCores p).foldl (fun n c => max n (s.at c).vaultBytes) 0
  let need (r : Route) : Nat :=
    let n := (h.res.filter fun x => routeOf x.1 == r).length
    if r = .vnear then n else n * h.gang
  if vault < 4096 * h.vltg then 4
  else if [Route.lquad, .vnear, .vdie, .ldie, .xdie].any fun r => decide (r.channels < need r) then 7
  else 0

/-- A launch packet (R304) read from its 8,192 bits, for partition p. -/
def packetOf (v p : Nat) : Launch :=
  let b := bitsOf v
  let n := b 16 4 + 1
  { lid := BitVec.ofNat 32 (b 32 32), part := p, ph := n, cls := BitVec.ofNat 3 (b 20 3), strict := b 24 1 == 1,
    pinned := b 25 1 == 1, cor := b 26 1 == 1, batch := b 27 1 == 1, aff := BitVec.ofNat 2 (b 28 2),
    rep := BitVec.ofNat 2 (b 30 2), xext := b 64 16, yext := b 80 16, zext := b 96 16, ctx := BitVec.ofNat 16 (b 112 16),
    image := b 128 64, deadline := BitVec.ofNat 64 (b 192 64), repAddr := b 256 64, repn := b 320 16,
    affId := BitVec.ofNat 32 (b 352 32),
    args := (List.range n).map fun q => (List.range 6).map fun k => BitVec.ofNat 64 (b (1024 + 384 * q + 64 * k) 64),
    gang := 1, phase := 0, tasks := [], prev := [], affs := [], reports := 0, fcode := 0, faulted := false, ended := false, committed := false }

/-- Tasks of one phase of a launch. -/
def Launch.size (l : Launch) : Nat := l.xext * l.yext * l.zext

/-- The checks of R305 in order: CODE and RES, 0 where all pass, and the header. -/
def State.intakeCheck (s : State) (p v : Nat) : Nat × Nat × Header :=
  let l := packetOf v p
  let b := bitsOf v
  let h0 := headerOf 0
  let (_, _, ctxOk) := s.ctxRoot p l.ctx
  let open_ := s.launches.any fun x => x.part == p && x.lid == l.lid && !x.ended
  if b 0 16 ≠ 1 ∨ b 23 1 ≠ 0 ∨ b 336 16 ≠ 0 ∨ b 384 640 ≠ 0 then (1, 0, h0)
  else if l.lid = 0#32 ∨ open_ = true ∨ l.xext = 0 ∨ l.yext = 0 ∨ l.zext = 0 ∨ l.aff = 3#2 ∨ l.repAddr % 64 ≠ 0
      ∨ 2 ^ 57 < l.repAddr + 64 * l.repn ∨ l.repn = 0 then (2, 0, h0)
  else if !ctxOk then (3, 0, h0)
  else
    let ring := bitsOf (s.part p).lncRing.toNat 10 42 * 1024 + 1024 * ((s.part p).lncTail.toNat % 64)
    -- the ring stands at a physical address (R303)
    let badArgs := (List.range (48 * l.ph)).any fun i =>
      s.poisoned (ring + 128 + i) || s.noAnswer p (ring + 128 + i) || !s.hasTarget p false (ring + 128 + i)
    match (if l.image % 256 = 0 ∧ badArgs = false then s.readCtx l.ctx p l.image 256 else none) with
    | none => (4, 0, h0)
    | some hb =>
      let h := headerOf (leNat hb)
      if h.sect.any fun (o, n) => (s.readCtx l.ctx p (l.image + o) n).isNone then (4, 0, h)
      else if !h.ok then (5, 0, h)
      else
        let r := s.exceeds p h
        if r ≠ 0 then (6, r, h)
        else if (s.part p).maxcls.toNat < l.cls.toNat then (7, 0, h)
        else if l.cor = true ∧ (s.partCores p).length < l.size * h.gang then (8, 0, h)
        else if l.aff = 2#2 ∧ !(s.launches.any fun x => x.part == p && x.lid == l.affId && x.committed && x.ctx == l.ctx
            && x.xext == l.xext && x.yext == l.yext && x.zext == l.zext && x.gang == h.gang) then (9, 0, h)
        else (0, 0, h)

/-- A rejected launch gets one launch-level report (R305, R313). -/
def State.reject (s : State) (l : Launch) (code res : Nat) : State :=
  let (a, s) := s.freeVal
  let (b, s) := s.freeVal
  let (c, s) := s.freeVal
  let (d, s) := s.freeVal
  let (e, s) := s.freeVal
  s.reportRaw l 6 2 (bitsOf a.toNat 0 4) (bitsOf b.toNat 0 48) (bitsOf b.toNat 48 16) code res c.toNat d.toNat e.toNat

/-- Whether report entries of partition p of the present WTC instant are still to be written (R313). -/
def State.reporting (s : State) (p : Nat) : Bool := s.reps.any fun e => e.part == p

/-- Whether intake of partition p takes a packet: one waits, and the entries of launches that it may close are written. -/
def State.takes (s : State) (p : Nat) : Bool :=
  let P := s.part p
  P.en && !P.inrst && decide (P.lncTail.toNat < P.lncHead.toNat) && !s.reporting p

/-- LAUNCH_INTAKE (R303, R305): intake takes the next packet of partition p. A ring without a target in p's shares reads as
zero (R347, log entry 68). With AFF = 2 the launch keeps what the tasks of AFFID's launch ran on (R308). -/
def execLaunchIntake (p : BitVec 4) (s : State) : Out :=
  let P := s.part p.toNat
  if !s.takes p.toNat then .next s
  else
    let ring := bitsOf P.lncRing.toNat 10 42 * 1024 + 1024 * (P.lncTail.toNat % 64)
    let v := if s.ownReach p.toNat ring 1024 then leNat (s.homeBytes ring 1024) else 0
    let l := packetOf v p.toNat
    let (code, res, h) := s.intakeCheck p.toNat v
    let s := s.modPart p.toNat fun P => { P with lncTail := P.lncTail + 1#32 }
    let affs := if l.aff = 2#2 then ((s.launch p.toNat l.affId).map Launch.prev).getD [] else []
    .next (if code ≠ 0 then s.reject l code res
      else { s with launches := s.launches.filter (fun x => !(x.part == p.toNat && x.lid == l.lid)) ++ [{ l with gang := h.gang, affs := affs }] })

/-! Bind records and dispatch (R307-R311). -/

/-- A refused record (R307, R308): it returns to HST 0 and is counted. -/
def State.refuse (s : State) (c why : Nat) : State :=
  let s := s.modAt c fun k => { k with armed := false, hst := 0 }
  let n := min (2 ^ 32 - 1) (bitsOf s.sltErr.toNat 0 32 + 1)
  { s with sltErr := putBits (putBits (putBits s.sltErr 0 32 n) 32 16 c) 48 8 why }

/-- BIND_RECORD_ARM (R307, R337, R344, R353): firmware writes the record of the current core and arms it. -/
def execBindRecordArm (r : BindRec) (s : State) : Out :=
  let c := s.cur.val
  if s.core.armed || s.core.hst != 0 then .next s
  else
    let s := s.mod fun k => { k with slot := r, armed := true, hst := 1 }
    if (s.quad (quadOf c)).gated then .next ((s.refuse c 5).nack (quadOf c))
    else match s.launch (s.partOf c) r.lid with
      | some l => if (s.partCores l.part).contains c then .next s else .next (s.refuse c 4)
      | none => if s.launches.any fun l => l.lid == r.lid && !l.ended then .next (s.refuse c 4) else .next s

/-- The armed and waiting records that share the GID of core c's (R307). -/
def State.recordGang (s : State) (c : Nat) : List Nat :=
  (List.range 192).filter fun m => (s.at m).armed && (s.at m).hst == 1 && (s.at m).slot.gid == (s.at c).slot.gid

/-- The waiting records of core c's partition that share its record's GID; none where its own record does not wait. -/
def State.waitingGang (s : State) (c : Nat) : List Nat :=
  if (s.at c).armed && (s.at c).hst == 1 then (s.recordGang c).filter fun m => s.partOf m == s.partOf c else []

/-- ABANDON_TASK (R288, R308, R312): firmware abandons the stopped task of the current core, or the task that its
record names and that cannot be bound: the records of its gang are free again (R307), and its launch ends. -/
def execAbandonTask (s : State) : Out :=
  let c := s.cur.val
  let k := s.core
  match k.task with
  | some _ =>
    match k.stop with
    | some st => if k.hnd then .next s else .next (s.endTask c .faulted st.why.cls.code)
    | none => .next s
  | none =>
    let lid := k.slot.lid
    let p := s.partOf c
    let s := (s.waitingGang c).foldl (fun s m => s.modAt m fun k => { k with armed := false, hst := 0 }) s
    match s.launch p lid with
    | none => .next s
    | some l => .next (if l.ended then s else (s.faultLaunch p lid 0).settle p lid)

/-- Whether the records of a gang agree and keep R15's core pairs. -/
def State.recordsOk (s : State) (c : Nat) (g : List Nat) : Bool :=
  let r := (s.at c).slot
  let base := c - r.gidx.toNat
  g.all fun m =>
    let x := (s.at m).slot
    x.lid == r.lid && x.tile == r.tile && x.phase == r.phase && x.gsize == r.gsize
    && (r.gsize == 1#3 || r.gsize == 2#3 || r.gsize == 4#3) && decide (x.gidx.toNat < x.gsize.toNat)
    && m == base + x.gidx.toNat && base % r.gsize.toNat == 0

/-- Coordinates of a tile as in N0. -/
def tileOk (l : Launch) (t : BitVec 48) : Bool :=
  decide (bitsOf t.toNat 0 16 < l.xext) && decide (bitsOf t.toNat 16 16 < l.yext) && decide (bitsOf t.toNat 32 16 < l.zext)

/-- Place of a tile in logical order (R28). -/
def tileIndex (l : Launch) (t : BitVec 48) : Nat :=
  bitsOf t.toNat 0 16 + l.xext * (bitsOf t.toNat 16 16 + l.yext * bitsOf t.toNat 32 16)

/-- The task records that affinity looks at (R308). -/
def Launch.affRecords (l : Launch) : List TaskRec :=
  if l.aff = 1#2 then l.prev else if l.aff = 2#2 then l.affs else []

/-- Whether affinity names another core for a gang at base (R308). -/
def Launch.affBad (l : Launch) (t : BitVec 48) (base : Nat) : Bool :=
  (l.affRecords.find? fun r => r.tile == t).map (fun r => r.core != base) |>.getD false

/-- The reservations that core m holds, or will hold once the gangs in acc (lowest core, header) have bound (R309). -/
def State.resOf (s : State) (acc : List (Nat × Header)) (m : Nat) : List Route :=
  ((((s.at m).task.map Task.res).getD []).map Prod.fst)
  ++ acc.flatMap fun (b, h) => if b ≤ m ∧ m < b + h.gang then h.res.map fun x => routeOf x.1 else []

/-- Channels of a route claimed in the unit of core c (R309). -/
def State.claimed (s : State) (acc : List (Nat × Header)) (r : Route) (c : Nat) : Nat :=
  let near (m : Nat) : Bool := match r with
    | .vnear => m == c
    | .lquad => quadOf m == quadOf c
    | .vdie | .ldie => dieOf m == dieOf c
    | _ => true
  ((List.range 192).filter near).foldl (fun n m => n + (s.resOf acc m).count r) 0

/-- Whether every entry of a header can be claimed for a gang at base, beside the gangs in acc. -/
def State.canClaim (s : State) (acc : List (Nat × Header)) (h : Header) (base : Nat) : Bool :=
  [Route.lquad, .vnear, .vdie, .ldie, .xdie].all fun r =>
    let n := h.res.countP fun (x : Nat × Nat) => routeOf x.1 == r
    n == 0 || (List.range h.gang).all fun i =>
      decide (s.claimed acc r (base + i) + (if r = .vnear then n else n * h.gang) ≤ r.channels)

/-- What dispatch finds of a waiting record: nothing to do yet, a refusal of its gang, or a bind. -/
inductive Verdict where
  | wait
  | refuse (g : List Nat) (why : Nat)
  | bind (base : Nat) (l : Launch) (h : Header)

/-- The conditions of R308 on the gang of core c's record, co-residence apart. The header is read again at the bind, and at the
load: a GSIZE that differs from that of the header as intake read it, or as it reads now, is refused, and a header that has
lost its validity keeps the record waiting (R305 lets only a valid image in; DESIGN CHOICE, log entry 65). -/
def State.verdict (s : State) (c : Nat) : Verdict :=
  let k := s.at c
  if !k.armed || k.hst != 1 then .wait
  else
    let g := s.recordGang c
    let r := k.slot
    let base := c - r.gidx.toNat
    if !s.recordsOk c g then .refuse g 1
    else if g.any fun m => (s.quad (quadOf m)).gated then .refuse g 5
    else if g.length < r.gsize.toNat then .wait
    else match s.launch (s.partOf base) r.lid with
      | none => if s.launches.any fun l => l.lid == r.lid && !l.ended then .refuse g 4 else .wait
      | some l =>
        if !(g.all fun m => (s.partCores l.part).contains m) then .refuse g 4
        else match s.readCtx l.ctx l.part l.image 256 with
          | none => .wait
          | some hb =>
            let h := headerOf (leNat hb)
            let free := g.all fun m =>
              let x := s.at m
              x.task.isNone && !x.hlt && !x.fenced
            let old := l.tasks.find? fun t => t.tile == r.tile && t.phase == l.phase
            let earlier := (List.range (tileIndex l r.tile)).all fun n =>
              l.tasks.any fun t => t.phase == l.phase && tileIndex l t.tile == n
            if !h.ok then .wait
            else if r.gsize.toNat ≠ l.gang || h.gang != r.gsize.toNat then .refuse g 2
            else if l.affBad r.tile base then .refuse g 3
            else if g.any fun m => decide ((s.at m).vaultBytes < 4096 * h.vltg) then .refuse g 6
            else if l.ended || l.faulted || r.phase.toNat != l.phase || !tileOk l r.tile then .wait
            else if (old.map fun t => t.st != .preempted).getD false then .wait
            else if l.batch && !l.cor && !earlier then .wait
            else if !free || !s.canClaim [] h base then .wait
            else .bind base l h

/-- Core k after R27: another context's task ran on it before (R310 step 1). -/
def Core.wiped (k : Core) : Core :=
  { k with lm := [], tags := [], imem := [], gcs := [], arr := { Arr.reset with stopCyc := k.arr.stopCyc },
           grid := { Grid.reset with stopCyc := k.grid.stopCyc } }

/-- The array and grid at T0 (R165, R197, R268). -/
def Core.unitsAtT0 (k : Core) : Core :=
  { k with
    arr := { k.arr with
      cells := k.arr.cells.map fun c => { c with slots := List.replicate 4 .empty }
      set := ArrSet.reset, hsrc := 0#2, fronts := [], lastAct := none, lastGrad := none, lastAS := none, lastS := none
      strict := [], outs := [], deskew := [], ldst := none, drain := none, hreads := [], clra := false }
    grid := { Grid.reset with aeb := k.grid.aeb, geb := k.grid.geb, amark := k.grid.amark, gmark := k.grid.gmark,
                              stopCyc := k.grid.stopCyc }
    arrHeld := false, gridHeld := false }

/-- Step 1 of R310 on one core: the record's task is bound, and another context's state cleared (R27). -/
def State.bindCore (s : State) (l : Launch) (h : Header) (base m : Nat) (r : BindRec) : State :=
  let e := s.ctxEntry l.part (s.at m).trnCtxTab l.ctx
  let (id, s) := s.newId
  let k := s.at m
  let k := if k.lastCtx = some (l.ctx, l.part) then k else k.wiped
  s.setAt m { k with
    ctx := { Ctx.reset with who := id, sup := r.supv }
    lcc := 0, hdc := 0#64, hlc := 0, hnd := false, hold := none, held := none, stop := none, endStop := none, enter := false
    preReq := false, prePend := false, gbase := base, gsize := h.gang, hst := 2
    trnRoot := e &&& maskOf 12 40, trnCtx := l.ctx.setWidth 64 ||| (if e.getLsbD 1 then maskOf 16 1 else 0#64)
    task := some
      { lid := l.lid, tile := r.tile, phase := l.phase, ctx := l.ctx, part := l.part, supv := r.supv, strict := l.strict,
        pinned := l.pinned, cor := l.cor, batch := l.batch, lmg := 4096 * h.lmg, spmg := 8 * h.spmg, ret := h.ret,
        sgap := h.sgap + 1, res := h.res.map fun (x : Nat × Nat) => (routeOf x.1, x.2), t0 := false, rampNs := 0
        rampFrom := s.time + Config.loadTime s.freeCount, granted := false, ran := false } }

/-- Step 2 of R310 on one core: sections, registers, and the splitter ahead of T0. Of a section that was readable at
intake and is no longer, no byte is written (DESIGN CHOICE, log entry 65). -/
def State.loadCore (s : State) (l : Launch) (h : Header) (base m : Nat) (r : BindRec) : State :=
  let sec (k : Nat) : List Byte :=
    let (o, n) := h.sect.getD k (0, 0)
    (s.readCtx l.ctx l.part (l.image + o) n).getD []
  let k := (s.at m).unitsAtT0
  let n : List W64 := [r.tile.setWidth 64, BitVec.ofNat 64 (m - base + 4 * h.gang)] ++ (l.args.getD l.phase [])
    ++ List.replicate 8 0#64
  let k := { k with
    imem := memWriteN k.imem 0 (sec 0), lm := memWriteN k.lm 0 (sec 1), gcs := memWriteN k.gcs 0 (sec 3)
    ctx := { Ctx.reset with who := k.ctx.who, n := n, spm := memWriteN [] 0 (sec 2), qs := List.replicate 7 ⟨0, []⟩, sup := r.supv }
    hst := 3, task := k.task.map fun (t : Task) => { t with rampFrom := s.time } }
  s.setAt m (k.splitAhead s h.entry)

/-- Step 1 of R310 for one gang: its members are bound, its task is reported. -/
def State.bindGang (s : State) (base : Nat) (l : Launch) (h : Header) : State :=
  let r := (s.at base).slot
  let s := (List.range h.gang).foldl (fun s i => s.bindCore l h base (base + i) (s.at (base + i)).slot) s
  let new : TaskRec := ⟨r.tile, l.phase, base, h.gang, .bound, []⟩
  let s : State := { s with freeCount := s.freeCount + 1 }
  let s := s.modLaunch l.part l.lid fun l => { l with
    tasks := (l.tasks.filter fun t => !(t.tile == r.tile && t.phase == l.phase)) ++ [new] }
  s.reportTask base .bound 0

/-- Whether the load of the gang of core c is due to end (R310 step 2). -/
def State.loadDue (s : State) (c : Nat) : Bool :=
  (s.at c).hst == 2 && ((s.at c).task.map fun t => decide (t.rampFrom ≤ s.time)).getD false

/-- Steps 2 and 3 of R310 for the gang of core c: its members are loaded, and it asks for a ramp slot. -/
def State.loadGang (s : State) (c : Nat) : State :=
  let base := (s.at c).gbase
  match (s.at base).task with
  | none => s
  | some t =>
    match s.launch t.part t.lid with
    | none => s
    | some l =>
      let h := headerOf (leNat ((s.readCtx l.ctx l.part l.image 256).getD []))
      let s := (s.members base).foldl (fun s m => s.loadCore l { h with gang := (s.at base).gsize } base m (s.at m).slot) s
      { s with gov := { s.gov with reqs := s.gov.reqs ++ [.gang base (s.at base).gsize t.pinned s.time] } }

/-- The gangs that are armed for a launch and meet the conditions of R308, co-residence apart, in ascending core. -/
def State.ready (s : State) (l : Launch) : List (Nat × Header) :=
  (List.range 192).filterMap fun m =>
    if (s.at m).armed && (s.at m).hst == 1 && (s.at m).slot.lid == l.lid && (s.at m).slot.gidx == 0#2 then
      match s.verdict m with
      | .bind b l' h => if l'.part == l.part then some (b, h) else none
      | .wait | .refuse _ _ => none
    else none

/-- The tiles of a launch in logical order (R28). -/
def Launch.tiles (l : Launch) : List (BitVec 48) :=
  (List.range l.size).map fun n => BitVec.ofNat 48
    (n % l.xext + n / l.xext % l.yext * 2 ^ 16 + n / l.xext / l.yext * 2 ^ 32)

/-- Whether a tile's task of the current phase is bound, or has been and was not pre-empted. -/
def Launch.taken (l : Launch) (t : BitVec 48) : Bool :=
  l.tasks.any fun r => r.tile == t && r.phase == l.phase && r.st != .preempted

/-- One gang for every tile of a phase that has none yet, in logical order: the first that is armed for it and whose
reservations can be claimed beside those chosen before (R308, R309); none: some tile has no such gang. -/
def State.coResident (s : State) (ready : List (Nat × Header)) : List (BitVec 48) → List (Nat × Header) → Option (List (Nat × Header))
  | [], acc => some acc
  | t :: r, acc =>
    match ready.find? fun g => (s.at g.1).slot.tile == t && s.canClaim acc g.2 g.1 with
    | none => none
    | some g => s.coResident ready r (acc ++ [g])

/-- The gangs that start together with the one of core c (R308): with COR those of all tasks of the phase that are not
bound yet, when all can. -/
def State.starters (s : State) (base : Nat) (l : Launch) (h : Header) : List (Nat × Header) :=
  if !l.cor then [(base, h)]
  else (s.coResident (s.ready l) (l.tiles.filter fun t => !l.taken t) []).getD []

/-- DISPATCH_BIND (R308, R310 steps 1 to 3) for the record of the current core: its gang, with COR all gangs of the phase,
are bound; a gang that is bound is loaded. -/
def execDispatchBind (s : State) : Out :=
  if s.loadDue s.cur.val then .next (s.loadGang s.cur.val)
  else match s.verdict s.cur.val with
  | .wait => .next s
  | .refuse g why => .next (g.foldl (fun s m => s.refuse m why) s)
  | .bind base l h => .next ((s.starters base l h).foldl (fun s (b, h) =>
      match s.launch l.part l.lid with
      | some l => s.bindGang b l h
      | none => s) s)

/-- GANG_ALIGN (R310 step 4): a granted gang meets, and T0 falls on all its members. -/
def execGangAlign (s : State) : Out :=
  let c := s.cur.val
  match s.core.task with
  | none => .next s
  | some t =>
    if t.t0 || !t.granted then .next s
    else
      let s := s.modGang c fun k => { k with
        hst := 4, lcc := 0, wrote := [], wroteTags := [], nextCyc := (s.quad (quadOf c)).clockFrom s.time
        task := k.task.map fun t => { t with t0 := true } }
      .next (s.reportTask c .running 0)

/-! Phases (R247, R312). -/

/-- Whether the current phase of a launch has all its tasks committed, and its near-memory jobs done. -/
def State.phaseOver (s : State) (l : Launch) : Bool :=
  !l.ended && !l.faulted && decide (l.size ≤ (l.tasks.countP fun t => t.st == .committed && t.phase == l.phase))
  && !(s.jobs.any fun j => j.part == l.part && j.lid == l.lid && j.phase == l.phase)

/-- The current phase of a launch commits (R247, R312), and after the last the launch. -/
def State.endPhase (s : State) (l : Launch) : State :=
  let s := (s.reportTop l.part l.lid .committed 1 0).boundary
  if l.phase + 1 = l.ph then
    (s.modLaunch l.part l.lid fun l => { l with
      prev := l.tasks, tasks := [], ended := true, committed := true }).reportTop l.part l.lid .committed 2 0
  else s.modLaunch l.part l.lid fun l => { l with phase := l.phase + 1, prev := l.tasks, tasks := [] }

/-- PHASE_COMMIT (R247, R312): the current phase of a launch lid whose tasks have all committed. -/
def execPhaseCommit (lid : W32) (s : State) : Out :=
  match s.launches.find? fun l => l.lid == lid && s.phaseOver l with
  | none => .next s
  | some l => .next (s.endPhase l)

end Sys2Proof.Machine
end

