-- ==== Sys2Proof/Machine/Power.lean ====
section
/-! DEFINITION. Clocks, the load-step governor, gating and sampling (R325-R342, R355). Steps of one tick stand before
GOVERNOR_TICK in the agenda; the tick they belong to is number `Gov.tick`. -/

namespace Sys2Proof.Machine

/-- The number of the tick in progress. -/
def State.tickNo (s : State) : Nat := s.gov.tick

/-- The cores of quad q. -/
def quadCores (q : Nat) : List Nat := (List.range 4).map fun k => 4 * q + k

/-! Control intervals (R325-R328). -/

/-- The frequency points of R325 in MHz with ratio and point, highest first, boost apart. -/
def freqPoints : List (Nat × Nat × Nat) :=
  [(3000, 2, 0), (2800, 2, 1), (2600, 2, 2), (2400, 2, 3), (2250, 1, 0), (2100, 1, 1), (2000, 1, 2), (1900, 1, 3),
   (1500, 0, 0), (1400, 0, 1), (1300, 0, 2), (1200, 0, 3)]

/-- The next point below, and the next above, in MHz. -/
def pointBelow (f : Nat) : Nat := ((freqPoints.find? fun x => decide (x.1 < f)).map Prod.fst).getD 1200
def pointAbove (f : Nat) : Nat := ((freqPoints.reverse.find? fun x => decide (f < x.1)).map Prod.fst).getD f

/-- Fields of QPC_CTL. -/
def Quad.rreq (q : Quad) : Nat := bitsOf q.ctl.toNat 0 2
def Quad.preq (q : Quad) : Nat := bitsOf q.ctl.toNat 2 2
def Quad.rmin (q : Quad) : Nat := bitsOf q.ctl.toNat 4 2
def Quad.pmin (q : Quad) : Nat := bitsOf q.ctl.toNat 6 2
/-- f_min (R327). -/
def Quad.fmin (q : Quad) : Nat := freqMHz q.rmin q.pmin

/-- The mean of LSG_EST over the last interval lies above a limit in W. -/
def Gov.meanAbove (g : Gov) (w : Nat) : Bool := decide (w * 1000 * g.meanCnt < g.meanSum)
def Gov.meanBelow (g : Gov) (w : Nat) : Bool := decide (g.meanSum < w * 1000 * g.meanCnt)
def Gov.plim (g : Gov) : Nat := bitsOf g.cap.toNat 0 16
def Gov.tlim (g : Gov) : Nat := bitsOf g.cap.toNat 16 8
def Gov.ilim (g : Gov) : Nat := bitsOf g.cap.toNat 24 16

/-- The clock of quad n for the next interval (R328): the module limit of step 7 lowers f_req within steps 4 and 5 alone. -/
def Quad.nextClock (q : Quad) (n : Nat) (g : Gov) : Quad :=
  let k := g.interval
  let cur := freqMHz q.ratio.toNat q.point.toNat
  let want := max (freqMHz q.rreq q.preq) q.fmin
  let low := if g.meanAbove g.plim then pointBelow want else want
  let fi := ((freqPoints.find? fun x => decide (x.1 ≤ want) && decide (Config.predictedAmps n x.1 k ≤ g.ilim)).map
    Prod.fst).getD 1200
  let hot := Config.hottest n k
  let ft := if g.tlim ≤ hot then pointBelow cur else if hot + 5 < g.tlim then pointAbove cur else cur
  let icap := decide (fi < want)
  let tcap := decide (ft < want)
  let f := min low (min fi ft)
  let fit := freqPoints.find? fun x => decide (x.1 ≤ f) && decide (x.2.1 ≤ q.rreq) && decide (q.rmin ≤ x.2.1)
  let capx := decide (f < q.fmin)
  let (r, p) := match fit with
    | some (x, r, p) => if x < q.fmin then (q.rmin, q.pmin) else (r, p)
    | none => (q.rmin, q.pmin)
  let bst := q.rreq == 2 && q.preq == 0 && q.ctl.getLsbD 8 && !icap && !tcap && !q.lastCap && g.meanBelow g.plim
  { q with
    ratio := BitVec.ofNat 2 (if bst then 2 else r), point := BitVec.ofNat 3 (if bst then 4 else p), bst := bst
    icap := icap, tcap := tcap, capx := capx, lastCap := icap || tcap }

/-- The clock of a quad in repeatable mode (R335). -/
def Quad.repClock (q : Quad) (g : Gov) : Quad :=
  { q with ratio := BitVec.ofNat 2 (min 2 g.ratio), point := BitVec.ofNat 3 g.point, bst := false, icap := false
           tcap := false, capx := false, lastCap := false }

/-- Whether R328 sets a quad's clock: it runs, and is not rising (R336, R342). -/
def Quad.clocked (q : Quad) : Bool := q.ps == .on || q.ps == .drain || q.ps == .fall

/-- CONTROL_INTERVAL (R328, R335). -/
def execControlInterval (s : State) : Out :=
  let g := s.gov
  .next { s with
    quads := s.quads.mapIdx fun n q =>
      let q := q.settleClock s.time
      if !q.clocked then q else if g.rep then q.repClock g else q.nextClock n g
    gov := { g with interval := g.interval + 1, meanSum := 0, meanCnt := 0 } }

/-- Whether any task is bound on the module (R335). -/
def State.anyTask (s : State) : Bool := s.cores.toList.any fun k => k.task.isSome

/-- REPEATABLE_MODE_APPLY (R335): a waiting change takes effect at an interval boundary with no task bound. -/
def execRepeatableModeApply (s : State) : Out :=
  match s.gov.next with
  | none => .next s
  | some v =>
    if s.anyTask then .next s
    else .next { s with gov := { s.gov with ctl := (s.gov.ctl &&& ~~~(maskOf 16 10)) ||| v, next := none } }

/-- DROOP_STRETCH (R327). -/
def execDroopStretch (q : BitVec 6) (s : State) : Out :=
  .next (s.modQuad q.toNat fun x => { x.settleClock s.time with stretch := true })

/-- DROOP_END (R327). -/
def execDroopEnd (q : BitVec 6) (s : State) : Out :=
  .next (s.modQuad q.toNat fun x => { x.settleClock s.time with stretch := false })

/-- LSG_ENV_UP_WRITE (R330, R334). -/
def execLsgEnvUpWrite (v : W64) (s : State) : Out := .next { s with gov := s.gov.writeUp v }

/-- LSG_CTL_WRITE (R334, R335). -/
def execLsgCtlWrite (v : W64) (s : State) : Out := .next { s with gov := s.gov.writeCtl v }

/-- VLT_CTL_WRITE (R225): at the vault above the current core. -/
def execVltCtlWrite (v : W64) (s : State) : Out := .next (s.mod fun k => k.writeVlt v)

/-! Gating (R336, R337, R340-R342). -/

/-- Whether a request written by time t is taken now (R340). -/
def taken (r : Option Nat) (now : Nat) : Bool :=
  match r with
  | some t => decide (t < now)
  | none => false

/-- Whether a record of a quad's cores is armed or held (R336). -/
def State.quadBusy (s : State) (q : Nat) : Bool := (quadCores q).any fun c => (s.at c).armed || (s.at c).hst != 0

/-- The drain actions of R336 and R353 on quad q. -/
def State.drainQuad (s : State) (q : Nat) : State :=
  let s := (quadCores q).foldl (fun s c => s.dropLines c fun _ => true) s
  s.modQuad q fun x => { x with tlb := [] }

/-- Whether an enabled partition holds quad q (R343). -/
def State.owned (s : State) (q : Nat) : Bool := (List.range 16).any fun p => (s.part p).en && (s.part p).qmask.getLsbD q

/-- QUAD_GATE_REQUEST (R336, R340, R345): at the tick that takes REQ; a quad of no enabled partition takes the same
path at depth 0, and one that has tripped is on it. What is on its way to the quad has been accepted (R341). -/
def execQuadGateRequest (q : BitVec 6) (s : State) : Out :=
  let n := q.toNat
  let x := s.quad n
  if x.ps = .on ∧ x.tripped = false ∧ s.owned n = false then
    .next (((s.acceptAll n).drainQuad n).modQuad n fun x => { x with gateReq := none, ps := .drain, psTick := s.tickNo, nack := 0#16 })
  else if !taken x.gateReq s.time then .next s
  else
    let s := s.modQuad n fun x => { x with gateReq := none }
    if x.ps ≠ .on ∨ x.tripped = true then .next s
    else if s.quadBusy n then .next (s.modQuad n fun x => { x with refused := true })
    else .next (((s.acceptAll n).drainQuad n).modQuad n fun x => { x with ps := .drain, psTick := s.tickNo, nack := 0#16 })

/-- QUAD_DRAIN_END (R341): drain ends at a later tick, once its actions are done, which take a time that is open (DESIGN
CHOICE, log entry 9), and the requests that the quad had accepted. Ballast takes the place of the quad's estimate. -/
def execQuadDrainEnd (q : BitVec 6) (s : State) : Out :=
  let n := q.toNat
  let x := s.quad n
  if x.ps ≠ .drain ∨ s.tickNo ≤ x.psTick + Config.drainExtra n x.psTick ∨ s.awaits n = true then .next s
  else .next (s.modQuad n fun x => { x.settleClock s.time with ps := .fall, psTick := s.tickNo, ballast := x.est - Config.idleFloor n })

/-- A core of a quad as gating leaves it (R336): with retention, all but the grid; else as after a change of
context. -/
def Core.gate (k : Core) (depth : Bool) : Core :=
  let g := { Grid.reset with stopCyc := k.grid.stopCyc }
  if depth then { k with grid := g } else { k.wiped with grid := g, lastCtx := none }

/-- Quad q enters the gated state. -/
def State.gateQuad (s : State) (q : Nat) (depth : Bool) : State :=
  let s := (quadCores q).foldl (fun s c => s.modAt c fun k => k.gate depth) s
  s.modQuad q fun x => { x.settleClock s.time with ps := .gated, psTick := s.tickNo, floorOn := false, ballast := 0 }

/-- QUAD_GATED (R336, R341, R355): the first tick after the ballast has reached zero; a quad that has tripped, at depth 0. -/
def execQuadGated (q : BitVec 6) (s : State) : Out :=
  let n := q.toNat
  let x := s.quad n
  if x.tripped = true ∧ x.ps ≠ .gated then .next (s.gateQuad n false)
  else if x.ps ≠ .fall ∨ s.tickNo ≤ x.psTick ∨ x.ballast ≠ 0 then .next s
  else .next (s.gateQuad n (x.depth && s.owned n))

/-- QUAD_WAKE_REQUEST (R336, R342, R345, R355): at the tick that takes WAKE, and only once the sensor reads below TLIM; a quad
of no enabled partition stays gated. -/
def execQuadWakeRequest (q : BitVec 6) (s : State) : Out :=
  let n := q.toNat
  let x := s.quad n
  if !taken x.wakeReq s.time then .next s
  else if x.ps ≠ .gated ∨ s.owned n = false then .next (s.modQuad n fun x => { x with wakeReq := none })
  else if s.gov.tlim ≤ Config.hottest n s.gov.interval then .next s
  else
    let s := s.modQuad n fun x => { x with wakeReq := none, ps := .wakeWait, psTick := s.tickNo, tripped := false }
    .next { s with gov := { s.gov with reqs := s.gov.reqs ++ [.wake n s.time] } }

/-- A core after a partition reset (R346 step 5). -/
def Core.cleanAll (k : Core) : Core :=
  { k.wiped with simem := [], slm := [], slmTags := List.replicate 4 0#16, hlt := false, lastCtx := none }

/-- QUAD_RISE_DONE (R342, R346): the 31st tick after the grant. -/
def execQuadRiseDone (q : BitVec 6) (s : State) : Out :=
  let n := q.toNat
  let x := s.quad n
  if x.ps ≠ .rise ∨ s.tickNo < x.psTick + 31 then .next s
  else
    let s := if x.wipe then (quadCores n).foldl (fun s c => s.modAt c fun k => k.cleanAll) s else s
    .next (s.modQuad n fun x => { x with ps := .on, psTick := s.tickNo, wipe := false })

/-- Whether the sensor of quad n reads high enough to trip it (R355). -/
def State.tripsAt (s : State) (n : Nat) : Bool :=
  let hot := Config.hottest n s.gov.interval
  decide (s.gov.tlim + 15 ≤ hot) || decide (110 ≤ hot)

/-- THERMAL_TRIP (R355): a quad that is too hot trips: its clock stops, its gangs are lost and no core is fenced; a wake
that waits for its grant is given up, and the quad is gated at depth 0 at the next tick. One that is gated already goes to
depth 0 at once. -/
def execThermalTrip (q : BitVec 6) (s : State) : Out :=
  let n := q.toNat
  let x := s.quad n
  if 48 ≤ n ∨ x.tripped = true ∨ s.tripsAt n = false then .next s
  else
    let s := (quadCores n).foldl (fun s c => s.loseGang c) s
    let s := s.drainQuad n
    let s := if x.ps = .gated then s.gateQuad n false else s
    let s := s.modQuad n fun x => { x.settleClock s.time with tripped := true, ballast := 0 }
    let s := { s with gov := { s.gov with reqs := s.gov.reqs.filter fun r => match r with
      | .wake k _ => k != n
      | .gang _ _ _ _ => true } }
    .next (s.post .thermal (s.partOf (4 * n)) (4 * n) 0xFFFF 0 0 0)

/-! The governor (R329-R332). -/

/-- Whether a gang of core c advances. -/
def Core.works (k : Core) : Bool :=
  (k.task.map Task.t0).getD false && k.hold.isNone && (k.stop.isNone || k.hnd)

/-- Whether a quad works. -/
def State.quadWorks (s : State) (q : Nat) : Bool := (quadCores q).any fun c => (s.at c).works

/-- Whether a pinned gang of a quad is held: its ballast stays (R332). -/
def State.pinnedHeld (s : State) (q : Nat) : Bool :=
  (quadCores q).any fun c => (((s.at c).task.map Task.pinned).getD false) && (s.at c).hold.isSome

/-- The power a quad draws in mW at tick k (R329, R332, R341). -/
def Quad.power (q : Quad) (n k : Nat) : Nat :=
  match q.ps with
  | .on | .drain | .rise => Config.quadPower n k + q.ballast
  | .fall => Config.idleFloor n + q.ballast
  | .gated | .wakeWait => 0

/-- Ballast starts on a quad that falls idle (R332), after work since the last tick too; b: whether it does. -/
def Quad.startBallast (q : Quad) (works b : Bool) : Quad :=
  if q.ps == .on && !works && (!q.idle || q.worked) && b then { q with ballast := q.workEst } else q

/-- The estimate of a package at tick k. -/
def estimate (qs : List Quad) (k : Nat) : Nat :=
  (qs.mapIdx fun n q => q.power n k).foldl (· + ·) (Config.otherPower k)

/-- Lower ballast in ascending quad number by at most a budget (R332); keep: quads whose ballast stays. -/
def lowerBallast : Nat → List (Quad × Bool) → List Quad
  | _, [] => []
  | b, (q, keep) :: r =>
    let d := if keep then 0 else min b q.ballast
    { q with ballast := q.ballast - d } :: lowerBallast (b - d) r

/-- A 48-bit counter of the governor adds n. -/
def addWait (g : Gov) (n : Nat) : Gov := { g with rampWait := satAdd48 g.rampWait n }

/-- Step of a start in mW (R330). -/
def StartReq.step (r : StartReq) (g : Gov) : Nat :=
  match r with
  | .gang _ n _ _ => n * g.cstep * 1000
  | .wake _ _ => 4 * g.cstep * 1000
/-- Time at which a start asked. -/
def StartReq.since : StartReq → Nat
  | .gang _ _ _ t => t
  | .wake _ t => t
/-- Whether a start is pinned. -/
def StartReq.pinned : StartReq → Bool
  | .gang _ _ p _ => p
  | .wake _ _ => false

/-- A start is granted (R330, R342): its step is charged and its wait counted. -/
def State.grant (s : State) (r : StartReq) : State :=
  let ns := (s.time - r.since) / Config.unitsPerNs
  let g := addWait s.gov ns
  let s := { s with gov := { g with q := max (-(g.depth : Int)) (g.q - r.step g), reqs := g.reqs.erase r } }
  match r with
  | .gang base _ _ _ => s.modGang base fun k => { k with
      task := k.task.map fun t => { t with granted := true, rampNs := ns } }
  | .wake q _ => s.modQuad q fun x => { x.settleClock s.time with
      ps := .rise, psTick := s.tickNo, floorOn := true, ratio := BitVec.ofNat 2 x.rmin, point := BitVec.ofNat 3 x.pmin }

/-- A pinned start that the credit cannot hold (R331). -/
def State.violate (s : State) (r : StartReq) : State :=
  let s := { s with gov := { s.gov with viol := satAdd48 s.gov.viol 1, reqs := s.gov.reqs.erase r } }
  match r with
  | .wake _ _ => s
  | .gang base _ _ _ =>
    let t := (s.at base).task
    let lid := (t.map fun t => t.lid.toNat).getD 0
    let ctx := (t.map fun t => t.ctx.toNat).getD 0xFFFF
    let s := (s.reportTask base .faulted 0x16).freeGang base
    -- the phase cannot commit, so the launch ends faulted (R19)
    let s := match t with
      | some t => (s.faultLaunch t.part t.lid 0x16).settle t.part t.lid
      | none => s
    s.post .ramp (s.partOf base) base ctx 0x16 lid 0

/-- Serve the pinned starts (R330). -/
def servePinned : List StartReq → State → State
  | [], s => s
  | r :: l, s =>
    let s := if (min (r.step s.gov) s.gov.depth : Int) ≤ s.gov.q then s.grant r else s.violate r
    servePinned l s

/-- Serve the other starts: none overtakes (R330). -/
def serveOthers : List StartReq → State → State
  | [], s => s
  | r :: l, s =>
    let rsv : Int := 1000 * s.gov.pinrsv
    if min (r.step s.gov : Int) (s.gov.depth - rsv) ≤ s.gov.q - rsv then serveOthers l (s.grant r) else s

/-- The grant loop of a tick (R330): refill, charge of the last tick's rises, starts. -/
def State.grants (s : State) : State :=
  let g := s.gov
  let q := min (g.depth : Int) (g.q + 64 * g.up.toNat)
  let q := max (-(g.depth : Int)) (q - g.rises)
  let s := { s with gov := { g with q := q } }
  let l := s.gov.reqs
  serveOthers (l.filter fun r => !r.pinned) (servePinned (l.filter fun r => r.pinned) s)

/-- Estimates, ballast and rises of a tick (R329, R332, R341). -/
def State.balance (s : State) : State :=
  let k := s.tickNo
  let old := s.quads.toList.map fun q => q.settleClock s.time
  -- a gang whose hold has ended works again from its next cycle on, in which ballast stops
  let works := old.mapIdx fun n q => s.quadWorks n && q.worked
  let w (n : Nat) : Bool := works.getD n false
  let started := old.mapIdx fun n q => q.startBallast (w n) (s.pinnedHeld n || Config.runsBallast n k)
  let before := estimate started k
  let floor := s.gov.est - 64 * s.gov.dn.toNat
  let short := decide (before < floor)
  let budget := before - floor
  let keep (n : Nat) (q : Quad) : Bool :=
    s.pinnedHeld n || w n || (q.ps == .fall && decide (k ≤ q.psTick)) || (q.ps == .on && (!q.idle || q.worked))
  let low := lowerBallast budget (started.mapIdx fun n q => (q, keep n q))
  let fresh (n : Nat) : Bool := (quadCores n).any fun c => ((s.at c).task.map fun t => t.t0 && !t.ran).getD false
  let rises : Int := ((old.mapIdx fun n q =>
    if (w n || q.worked) && q.idle && !fresh n then ((q.power n k - q.replaced : Nat) : Int) else 0)).foldl (· + ·) 0
  let done := low.mapIdx fun n q =>
    let est := q.power n k
    let q := { q with est := est, workEst := if w n then est else q.workEst, idle := !w n, worked := false, replaced := 0 }
    { q with statSnap := q.stat, pstSnap := q.pstate }
  let p := estimate low k
  { s with
    quads := Vector.ofFn fun n => done.getD n.val Quad.reset
    cores := s.cores.map fun c => { c with task := c.task.map fun t => if t.t0 then { t with ran := true } else t }
    gov := { s.gov with est := p, rises := rises, meanSum := s.gov.meanSum + p, meanCnt := s.gov.meanCnt + 1,
                        dnShort := satAdd48 s.gov.dnShort (if short then 1 else 0) } }

/-- Ticks to a core's next sample pass (R338); the samples due follow this tick. -/
def State.samples (s : State) : State :=
  let due := (List.finRange 192).filter fun c => s.cores[c].pcsCtl.getLsbD 0 && decide (s.cores[c].pcsNext ≤ 1)
  { s with
    cores := s.cores.map fun k =>
      if !k.pcsCtl.getLsbD 0 then k
      else { k with pcsNext := if k.pcsNext ≤ 1 then max 1 (bitsOf k.pcsCtl.toNat 1 15) else k.pcsNext - 1 }
    agenda := (due.map fun c => (c, Act.event .pcsSample)) ++ s.agenda }

/-- GOVERNOR_TICK (R329, R330, R332): starts are served, the estimate is formed, ballast falls. -/
def execGovernorTick (s : State) : Out :=
  let s := s.grants.balance.samples
  .next { s with gov := { s.gov with tick := s.gov.tick + 1 } }

/-- STATE of a sample (R338). -/
def sampleState (s : State) (c : Nat) : Nat :=
  let k := s.at c
  if k.stop.isSome ∧ !k.hnd then 3
  else if k.hold.isSome then 2
  else if (k.task.map Task.t0).getD false then 1
  else if (s.quad (quadOf c)).ballast ≠ 0 then 4 else 0

/-- PCS_SAMPLE (R338): the current core writes one sample into its ring. -/
def execPcsSample (s : State) : Out :=
  let c := s.cur.val
  let k := s.core
  if !k.pcsCtl.getLsbD 0 then .next s
  else
    let per := bitsOf k.pcsCtl.toNat 1 15
    let len := bitsOf k.pcsCtl.toNat 16 5
    let at_ := bitsOf k.pcsBase.toNat 12 40 * 4096 + 32 * (k.pcsHead.toNat % 2 ^ len)
    let lcc := if k.task.isSome then k.lcc else 0
    let ctx := (k.task.map fun t => t.ctx.toNat).getD 0
    let energy := (s.quad (quadOf c)).est * 64 * per / 4
    let v := s.wtc % 2 ^ 64 + lcc % 2 ^ 64 * 2 ^ 64 + ctx * 2 ^ 128 + k.ctx.headAddr 0 * 2 ^ 144 + sampleState s c * 2 ^ 160
      + energy % 2 ^ 64 * 2 ^ 192
    .next ((s.ownFill (s.partOf c) ((k.task.map Task.ctx).getD 0xFFFF#16) at_ (natLe 32 v)).mod fun k => { k with pcsHead := k.pcsHead + 1#32 })

end Sys2Proof.Machine
end

