-- ==== Sys2Proof/Machine/Part.lean ====
section
/-! DEFINITION. Partitions, errors, ports and bring-up (R343-R363). -/

namespace Sys2Proof.Machine

/-! Partitions (R343-R346). -/

/-- First and end GiB of a partition's HBM share. -/
def Part.lo (p : Part) : Nat := bitsOf p.hbm.toNat 0 10
def Part.hi (p : Part) : Nat := bitsOf p.hbm.toNat 16 10

/-- Whether the shares of two partitions are disjoint (R345). -/
def Part.disjoint (p q : Part) : Bool :=
  p.qmask &&& q.qmask == 0#48 && (decide (p.hi ≤ q.lo) || decide (q.hi ≤ p.lo)) && p.win &&& q.win == 0#16

/-- The numbers of the enabled partitions. -/
def State.enabledParts (s : State) : List Nat := (List.range 16).filter fun p => (s.part p).en

/-- The conditions of R345 on setting EN of partition p. -/
def State.mayEnable (s : State) (p : Nat) : Bool :=
  let P := s.part p
  let es := s.enabledParts
  P.qmask != 0#48 && decide (P.lo < P.hi) && decide (P.hi ≤ 576) && (es.all fun q => P.disjoint (s.part q))
  && decide (1 ≤ P.mways.toNat) && decide ((es.map fun q => (s.part q).mways.toNat).foldl (· + ·) P.mways.toNat ≤ 16)
  && (List.range 192).all fun c => !P.qmask.getLsbD (quadOf c) || (!(s.at c).armed && (s.at c).hst == 0)

/-- PARTITION_ENABLE (R345). -/
def execPartitionEnable (p : BitVec 4) (s : State) : Out :=
  .next (if !(s.part p.toNat).en && s.mayEnable p.toNat then s.modPart p.toNat fun P => { P with en := true } else s)

/-- The gang of core c, if it is of partition p, is abandoned with no frame (R346 step 2). -/
def State.abandonAt (s : State) (p c : Nat) : State :=
  match (s.at c).task with
  | some t => if t.part = p then s.endTask c .faulted 0x17 else s
  | none => s

/-- PARTITION_RESET (R346 steps 1 and 2): RST of an enabled partition; of one that is not enabled it does nothing (DESIGN
CHOICE, log entry 47). -/
def execPartitionReset (p : BitVec 4) (s : State) : Out :=
  let P := s.part p.toNat
  if !P.en || P.inrst then .next s
  else
    let s := s.modPart p.toNat fun P => { P with inrst := true, lncTail := P.lncHead }
    let cs := s.partCores p.toNat
    let s := cs.foldl (fun s c => s.abandonAt p.toNat c) s
    .next (cs.foldl (fun s c => s.modAt c fun k => { k with armed := false, hst := 0 }) s)

/-- Whether work that partition p's agents issued outside logical time is still on its way (R346 step 3), or entries of its
reports are still to be written (R313), for step 6 leaves it no address with a target. -/
def State.outsideWork (s : State) (p : Nat) : Bool :=
  ((s.hbm ++ s.outLands.map OutLand.copy).any fun x => x.part == p) || (s.jobs.any fun x => x.part == p) || (s.rels.any fun x => x.part == p)
  || (s.atoms.any fun x => s.partOf x.core == p) || (s.devs.any fun x => x.part == p) || s.reporting p

/-- Whether a home address lies in the shares of partition p. -/
def State.shareOf (s : State) (p pa : Nat) : Bool := s.hasTarget p true pa

/-- Step 4 of R346. -/
def State.cleanShares (s : State) (p : Nat) : State :=
  let s := (List.range 192).foldl (fun s c =>
    if (s.partCores p).contains c then s.dropLines c fun _ => true else s.flushLines c fun l => s.shareOf p (128 * l)) s
  { s with
    accs := s.accs.filter fun e => !s.shareOf p e.pa
    msc := s.msc.filter fun x => x.alloc != p
    quads := s.quads.map fun q => { q with tlb := q.tlb.filter fun l => l.part != p }
    dies := s.dies.map fun d => { d with wc := d.wc.filter fun e => e.2.1 != p } }

/-- Step 5 of R346 on core c: at the wake of its quad where that does not run. -/
def State.cleanCore (s : State) (c : Nat) : State :=
  if (s.quad (quadOf c)).ps = .on then s.modAt c fun k => k.cleanAll
  else s.modQuad (quadOf c) fun q => { q with wipe := true }

/-- PARTITION_RESET_DONE (R346 steps 3 to 6): once the outside work of p has completed. -/
def execPartitionResetDone (p : BitVec 4) (s : State) : Out :=
  if !(s.part p.toNat).inrst || s.outsideWork p.toNat then .next s
  else
    let s := s.cleanShares p.toNat
    let s := (s.partCores p.toNat).foldl (fun s c => s.cleanCore c) s
    let s := s.modPart p.toNat fun P => { P with en := false, inrst := false }
    .next (s.post .partReset p.toNat 0xFFFF 0xFFFF 0 0 0)

/-! Errors (R349-R352). -/

/-- Time units in a minute. -/
def unitsPerMinute : Nat := 60000000000 * Config.unitsPerNs

/-- A 48-bit count saturates. -/
def Part.countUe (p : Part) : Part := { p with ue := satAdd48 p.ue 1 }

/-- The patrol pass in progress: its hits are dropped when a pass has ended (R350, R352). -/
def State.patrol (s : State) : State :=
  let d := s.rasScrub.toNat * unitsPerMinute
  if s.time < s.rasPass + d then s
  else { s with rasHits := [], rasRows := [], rasPass := s.rasPass + (s.time - s.rasPass) / max d 1 * d }

/-- An error in a line is charged to its owner (R351). -/
def State.charge (s : State) (p core ctx line : Nat) : State :=
  (s.modPart p Part.countUe).post .uncorrectable p core ctx 0 0 (128 * line)

/-- The partition whose share holds a home address (R350). -/
def State.shareHolder (s : State) (pa : Nat) : Option Nat := s.enabledParts.find? fun p => s.shareOf p pa

/-- The enabled partition of core c's quad (R343). -/
def State.quadHolder (s : State) (c : Nat) : Option Nat := s.enabledParts.find? fun p => (s.part p).qmask.getLsbD (quadOf c)

/-- The partition that owns the storage of a physical address (R344, R349): of a vault, an LM or a counter page that of its
quad. -/
def State.storeOwner (s : State) (pa : Nat) : Option Nat :=
  match s.target pa with
  | .vault c _ | .lm c _ | .ctr c _ => s.quadHolder c
  | .hbm | .decode | .pod _ _ | .none => s.shareHolder pa

/-- Where a correctable error is (R349): the partition that owns the storage, the core and the line that its event names, and
the word, numbered among all words of the module (the numbers of words in cores are the model's, log entry 48). -/
def State.errorPlace (s : State) (w : CeSite) (a : Nat) : Option Nat × Nat × Nat × Nat :=
  let c := s.cur.val
  match w with
  | .home => (s.storeOwner a, 0xFFFF, a / 128 * 128, s.normPa a / 4)
  | .privateLine => (s.quadHolder c, c, a / 128 * 128, 2 ^ 52 * (c + 1) + s.normPa a / 4)
  | .coreStore => (s.quadHolder c, c, 0, 2 ^ 52 * (c + 193) + a)

/-- A count for key w in a list of counts: the new count, and the list. -/
def countUp (l : List (Nat × Nat)) (w : Nat) : Nat × List (Nat × Nat) :=
  let n := ((l.find? fun h => h.1 == w).map Prod.snd).getD 0 + 1
  (n, (w, n) :: l.filter fun h => h.1 != w)

/-- CORRECTABLE_ERROR (R349, R352): corrected in place, which nothing observes; counted for the partition that owns the
storage. The eighth of a word, and the eighth of a row, in a pass posts an event. -/
def execCorrectableError (p : CeSite) (a : BitVec 52) (s : State) : Out :=
  let s := s.patrol
  let (own, core, line, w) := s.errorPlace p a.toNat
  let s := match own with
    | some q => s.modPart q fun P => { P with ce := satAdd48 P.ce 1 }
    | none => s
  let (n, hits) := countUp s.rasHits w
  let (m, rows) := countUp s.rasRows (Config.rowOf w)
  let post (s : State) : State := s.post .correctable (own.getD 0) core 0xFFFF 0 0 line
  let s := { s with rasHits := hits, rasRows := rows }
  let s := if n = 8 then post s else s
  .next (if m = 8 then post s else s)

/-- An uncorrectable error in a word at its home: it is poisoned, and charged to the owner of the line that a memory-side
cache holds; a word of an HBM stack, or of a line that none holds, to the partition whose share holds it (R349-R351). -/
def State.homeError (s : State) (w : HomeWord) : State :=
  let a := s.normPa w.pa.toNat
  let store := match s.target w.pa.toNat with
    | .hbm | .vault _ _ => true
    | _ => false
  if !store then s
  else
    let s := { s with poison := insNat (a / 4) s.poison }
    match (if w.stack then none else s.mscFind a) with
    | some x => s.charge x.part 0xFFFF x.ctx.toNat (a / 128)
    | none => match s.shareHolder a with
      | some p => s.charge p 0xFFFF 0xFFFF (a / 128)
      | none => s

/-- An uncorrectable error in core c's copy of a line: a clean line is discarded; the words of a written one are
poisoned at the home, and it is charged (R349, R351). -/
def State.copyError (s : State) (c line : Nat) : State :=
  let k := s.at c
  let drop (s : State) : State := s.modAt c fun k => { k with
    l1d := k.l1d.filter fun x => x.pa != line, vc := k.vc.filter fun x => x.pa != line
    upd := k.upd.filter fun u => u.pa / 128 != line }
  match k.l1d.find? fun x => x.pa == line with
  | none => drop s
  | some x =>
    if x.dirty.any id || k.upd.any fun u => u.pa / 128 == line then
      let ws := (List.range 32).map fun i => s.normPa (128 * line) / 4 + i
      { (drop s) with poison := ws.foldl (fun l w => insNat w l) s.poison }.charge x.part c x.ctx.toNat line
    else drop s

/-- UNCORRECTABLE_ERROR (R300, R349-R352). -/
def execUncorrectableError (w : ErrorSite) (s : State) : Out :=
  let c := s.cur.val
  match w with
  | .home w => .next (s.homeError w)
  | .privateLine pa => .next (s.copyError c (s.normPa pa.toNat / 128))
  | .coreStore => .next ((s.loseGang c).modAt c fun k => { k with fenced := true })
  | .coreReg =>
    if s.core.task.isNone then .next s else .next ((s.loseGang c).modAt c fun k => { k with fenced := true })
  | .quadShared => .next ((quadCores (quadOf c)).foldl (fun s m => s.loseGang m) s)

/-- PATROL_SCRUB (R350): the scrub finds an uncorrectable word. -/
def execPatrolScrub (w : HomeWord) (s : State) : Out := .next (s.patrol.homeError w)

/-! Ports (R354). -/

/-- Change port pt. -/
def State.modPort (s : State) (pt : Nat) (f : Port → Port) : State := { s with ports := s.ports.modify pt f }

/-- Beats whose data cross a link, and copies on the reserved route that does, come at a time, for a retrain of port pt (R24,
R129, R354; DEDUCED, log entry 14). -/
def Ctx.delayBeats (x : Ctx) (pt at_ : Nat) : Ctx :=
  { x with
    ldP := x.ldP.map fun y => { y with dels := y.dels.map fun b =>
      if b.far then { b with arrive := max b.arrive at_, retrain := some pt } else b }
    copies := x.copies.map fun y =>
      if y.route != .xdie || y.supv then y else { y with arrive := max y.arrive at_, retrain := some pt } }

/-- What core c has on its way to or from other modules, outside logical time, comes at a time or later. -/
def State.delayPod (s : State) (c at_ : Nat) : State :=
  let pod (pa : Nat) : Bool := match s.target pa with
    | .pod _ _ => true
    | _ => false
  let far : CopyEnd → Bool
    | .phys l => l.any fun p => pod p.2.1
    | .lm _ _ _ | .imem _ | .gcs _ => false
  { s with
    hbm := s.hbm.map fun y => if y.core == c && (far y.src || far y.dst) then { y with ready := max y.ready at_ } else y
    atoms := s.atoms.map fun y => if y.core == c && pod y.pa then { y with ready := max y.ready at_ } else y }

/-- Whether a hold cause of core c is late data that a retrain of port pt delays (R298). -/
def State.causeLink (s : State) (pt c : Nat) (h : HoldCause) : Bool :=
  match h with
  | .late m p _ _ => m == c && ((s.at c).ctx.ld p).dels.any fun d =>
      d.due == (s.at c).now && d.retrain == some pt && decide (s.time < d.arrive)
  | .lateCopy m id _ => m == c && (s.at c).ctx.copies.any fun x =>
      x.id == id && x.retrain == some pt && decide (s.time < x.arrive)
  | _ => false

/-- A hold of the gang of core c has late data after a retrain of port pt among its causes, if it has (R298). -/
def State.seeLink (s : State) (pt c : Nat) : State :=
  let see (h : Hold) : Hold :=
    if h.causes.any (s.causeLink pt c) then { h with linkSeen := h.linkSeen.orElse fun _ => some pt } else h
  s.modGang c fun k => { k with hold := k.hold.map see }

/-- LINK_RETRAIN (R354): reservations and budgets stay; what comes over the port for the current core comes in order, d
time units later. Several events of one time stand for the cores that a retrain meets (log entry 3). -/
def execLinkRetrain (pt : BitVec 5) (d : Nat) (s : State) : Out :=
  let t := s.time + d
  .next ((((s.modPort pt.toNat fun p => { p with up := true, since := some s.time, back := t }).modCtx
    fun x => x.delayBeats pt.toNat t).delayPod s.cur.val t).seeLink pt.toNat s.cur.val)

/-- 10 ms of WTC (R354). -/
def portLimit : Nat := 10000000 * Config.unitsPerNs

/-- Whether a port in training has not returned within 10 ms (R354). -/
def Port.overdue (p : Port) (now : Nat) : Bool :=
  match p.since with
  | some t => p.up && decide (t + portLimit ≤ now) && decide (t + portLimit < p.back)
  | none => false

/-- LINK_DOWN (R354): a port that has not returned within 10 ms. -/
def execLinkDown (pt : BitVec 5) (s : State) : Out :=
  if (s.ports[pt.toNat]?.map fun p => p.overdue s.time).getD false then
    .next ((s.modPort pt.toNat fun p => { p with up := false }).post .link 0 pt.toNat 0xFFFF 0 0 0)
  else .next s

/-! The host and remote agents (R362, R363). -/

/-- Whether an agent of partition p reaches n bytes from pa on (R344). -/
def State.reaches (s : State) (p pa n : Nat) : Bool := (List.range n).all fun i => s.hasTarget p true (pa + i)

/-- Whether n bytes from pa on answer an agent of partition p with data: no gated target, no poison. -/
def State.answers (s : State) (p pa n : Nat) : Bool :=
  (List.range n).all fun i => !s.noAnswer p (pa + i) && !s.poisoned (pa + i)

/-- Replies of gated quads are counted (R337). -/
def State.nackRange (s : State) (pa n : Nat) : State :=
  let qs := ((List.range n).filterMap fun i => s.gatedAt (pa + i)).foldl (fun r q => insNat q r) []
  qs.foldl State.nack s

/-- A write of an outside agent of partition p at the homes: bytes for gated targets are discarded (R337). -/
def State.agentWrite (s : State) (p pa : Nat) (b : List Byte) : State :=
  let cells := (b.mapIdx fun i x => (pa + i, x, false)).filter fun (c : Nat × Byte × Bool) => !s.noAnswer p c.1
  let lines := (cells.map fun c => c.1 / 128).foldl (fun r l => insNat l r) []
  lines.foldl (fun s l => s.homeWrite p 0xFFFF#16 (cells.filter fun c => c.1 / 128 == l)) (s.nackRange pa b.length)

/-- A read of an outside agent of partition p. The spec states no bytes for an address that does not answer with data: free
values. -/
def State.agentRead (s : State) (p pa n : Nat) (ok : Bool) : State :=
  if ok && s.answers p pa n then
    let lines := ((List.range n).map fun i => (pa + i) / 128).foldl (fun r l => insNat l r) []
    { lines.foldl (fun s l => s.homeTouch p 0xFFFF#16 (128 * l)) s with hostOut := s.homeBytes pa n, hostErr := !ok }
  else
    let (b, t) := (if ok then s.nackRange pa n else s).freeBytes n
    { t with hostOut := b, hostErr := true }

/-- The intake registers of a partition (R303). -/
def State.intakeRead (s : State) (p k : Nat) : W32 :=
  match k with
  | 0 => (s.part p).lncHead
  | 1 => (s.part p).lncTail
  | _ => (s.part p).lncDrop

/-- A write of LNC_DROP: bits written one are cleared (R303). -/
def State.writeDrop (s : State) (p : Nat) (v : W32) : State := s.modPart p fun P => { P with lncDrop := P.lncDrop &&& ~~~v }

/-- Partition and enable of the memory aperture (R362). -/
def State.rhsPart (s : State) : Nat := bitsOf s.rhsCtl.toNat 0 4
def State.rhsEn (s : State) : Bool := s.rhsCtl.getLsbD 4

/-- What a module reset keeps (R352, R357, R358, R360): the flash, the fences that only a passed self-test clears, what
comes from outside, what the images that memory may come to hold again stand for (R166), and the counters that make
identifiers and free values new. A warm reset keeps the mailbox, which step 1 alone brings up. -/
def State.kept (s : State) (cold : Bool) : State :=
  { State.reset with
    sigNext := s.sigNext, minVersion := s.minVersion, fwVersion := s.fwVersion, fwImage := s.fwImage, fwSig := s.fwSig
    records := s.records, cores := Vector.ofFn fun c => { Core.reset c.val with fenced := s.cores[c].fenced }
    mailbox := if cold then State.reset.mailbox else s.mailbox, doorbell := if cold then 0 else s.doorbell
    resets := s.resets + 1, nextId := s.nextId, freeCount := s.freeCount, sched := s.sched, saved := s.saved }

/-- The 8 bytes of a repair entry (R358). -/
def entryBytes (e : RepairEntry) : List Byte :=
  natLe 8 (e.kind.toNat + e.die.toNat * 2 ^ 4 + e.unit.toNat * 2 ^ 8 + e.failing.toNat * 2 ^ 16 + e.spare.toNat * 2 ^ 32
    + e.rsv.toNat * 2 ^ 48)

/-- The bytes of the sections of a record that are signed (R358). The order of the fields within the header, the identity
and the pod section is the model's (log entry 10). -/
def headerBytes (r : ConfigRecord) : List Byte :=
  natLe 2 r.revision.toNat ++ natLe 4 r.length.toNat ++ natLe 4 r.seq.toNat
def identityBytes (r : ConfigRecord) : List Byte := natLe 8 r.serial.toNat ++ r.devKey ++ r.cert ++ r.helper
def podBytes (r : ConfigRecord) : List Byte := natLe 4 r.pod.toNat ++ natLe 2 r.modNo.toNat
/-- The whole record. -/
def recordBytes (r : ConfigRecord) : List Byte :=
  headerBytes r ++ r.sigHeader ++ identityBytes r ++ r.sigIdentity ++ r.factory.flatMap entryBytes ++ r.sigFactory
  ++ r.inField.flatMap entryBytes ++ r.sigInField ++ podBytes r ++ r.sigPod

/-- Bytes of a signature, and of a public key (R356). -/
def sigSize : Nat := 2820
def keySize : Nat := 68

/-- Whether a signature of some bytes verifies under the vendor key (R356). -/
def vendorVerifies (msg sig : List Byte) : Bool := sig.length == sigSize && Config.vendorOk msg sig

/-- The public key of the device key that helper data regenerate (R356). -/
def deviceKey (helper : List Byte) : List Byte := (List.range keySize).map (Config.deviceKeyByte helper)

/-- The signature of some bytes by the device key with index n (R356): the index stands first, most significant byte first
(PRESUMED, SP 800-208; log entry 10). -/
def deviceSig (helper : List Byte) (n : Nat) (msg : List Byte) : List Byte :=
  (natLe 4 n).reverse ++ (List.range (sigSize - 4)).map (Config.deviceSigByte helper msg n)

/-- Whether a signature of some bytes verifies under the device key of a record (R356): one that this key has made does. -/
def deviceVerifies (r : ConfigRecord) (msg sig : List Byte) : Bool :=
  r.devKey.length == keySize && sig.length == sigSize
  && (Config.deviceOk r.devKey msg sig
    || (r.devKey == deviceKey r.helper && sig == deviceSig r.helper (leNat (sig.take 4).reverse) msg))

/-- Whether a repair entry has no reserved code and no reserved bit (R358). -/
def entryOk (e : RepairEntry) : Bool :=
  decide (1 ≤ e.kind.toNat) && decide (e.kind.toNat ≤ 6) && e.rsv == 0#16

/-- Whether every section of a record verifies (R356, R358): its signature under the key that R358 gives, its revision and
its entries. -/
def recordVerifies (r : ConfigRecord) : Bool :=
  let dev := deviceVerifies r
  r.revision == 1#16 && (if r.byDevice then dev (headerBytes r) r.sigHeader else vendorVerifies (headerBytes r) r.sigHeader)
  && vendorVerifies (identityBytes r) r.sigIdentity
  && r.factory.all entryOk && vendorVerifies (r.factory.flatMap entryBytes) r.sigFactory
  && r.inField.all entryOk && dev (r.inField.flatMap entryBytes) r.sigInField
  && dev (podBytes r) r.sigPod

/-- The record in force: the newer copy that verifies (R358). -/
def pickRecord (l : List ConfigRecord) : Option ConfigRecord :=
  (l.filter recordVerifies).foldl (fun b r => match b with
    | none => some r
    | some x => if x.seq.toNat < r.seq.toNat then some r else b) none

/-- The entries of a repair map of given kinds for a unit: failing and spare index. -/
def repairsOf (l : List RepairEntry) (kinds : List Nat) (die unit : Nat) : List (Nat × Nat) :=
  (l.filter fun e => kinds.contains e.kind.toNat && e.die.toNat == die && e.unit.toNat == unit).map fun e =>
    (e.failing.toNat, e.spare.toNat)

/-- The quads of a die that the repair map replaces: failing and spare physical quad of 13 (R1, R352). -/
def quadRepairs (l : List RepairEntry) (die : Nat) : List (Nat × Nat) :=
  (l.filter fun e => e.kind == 3#4 && e.die.toNat == die).map fun e => (e.failing.toNat, e.spare.toNat)

/-- The physical core, of 13 quads to a die, that core c stands for (R361 step 3). -/
def physCore (l : List RepairEntry) (c : Nat) : Nat :=
  let q := quadOf c % 12
  52 * dieOf c + 4 * (((quadRepairs l (dieOf c)).find? fun e => e.1 == q).map Prod.snd).getD q + c % 4

/-- Whether core c passes the self-test of reset n, with its array, its grid and the vault above it (R361 step 5; which of
these fence the core is the model's choice, log entry 11). -/
def corePasses (n : Nat) (l : List RepairEntry) (c : Nat) : Bool :=
  let u := physCore l c
  Config.selfTest 0 u n [] && Config.selfTest 1 u n (repairsOf l [1, 2] (dieOf c) (c % 48)) && Config.selfTest 2 u n []
  && Config.selfTest 3 c n (repairsOf l [6] (dieOf c) (c % 48))

/-- Whether core c is fenced by the self-test of reset n (R352, R361): it fails, or a core of its quad fails and its die
has no spare quad left. -/
def coreFenced (n : Nat) (l : List RepairEntry) (c : Nat) : Bool :=
  !corePasses n l c
  || (!(quadRepairs l (dieOf c)).isEmpty && (quadCores (quadOf c)).any fun m => !corePasses n l m)

/-- The failures of a self-test as events name them: cores, and 0xFFFF for a memory-side cache or lanes. -/
def selfFailures (n : Nat) (l : List RepairEntry) : List Nat :=
  ((List.range 192).filter fun c => !corePasses n l c)
  ++ ((List.range 4).flatMap fun d =>
    (if Config.selfTest 4 d n [] then [] else [0xFFFF])
    ++ (if Config.selfTest 6 d n ((l.filter fun e => e.kind == 5#4 && e.die.toNat == d).map fun e =>
        (e.failing.toNat, e.spare.toNat)) then [] else [0xFFFF]))
  ++ ((List.range 8).flatMap fun k =>
    if Config.selfTest 5 k n ((l.filter fun e => e.kind == 4#4 && e.unit.toNat == k).map fun e => (e.failing.toNat, e.spare.toNat))
    then [] else [0xFFFF])

/-- Whether the boot ROM starts the firmware image in flash (R356, R357): its signature verifies over its version and
bytes, and the version is not below the minimum. -/
def State.imageRuns (s : State) : Bool :=
  vendorVerifies (natLe 4 s.fwVersion.toNat ++ s.fwImage) s.fwSig && decide (s.minVersion.toNat ≤ s.fwVersion.toNat)

/-- The module after steps 2 to 7 of R361. -/
def State.bringUp (s : State) : State :=
  match pickRecord s.records with
  | none => { s with recovery := true, fwRuns := false }
  | some r =>
    let map := r.factory ++ r.inField
    { s with
      idnSerial := r.serial, idnPod := BitVec.ofNat 64 (r.modNo.toNat + r.pod.toNat * 2 ^ 16), repair := map
      cores := s.cores.mapIdx fun c k => { k with fenced := coreFenced s.resets map c }
      selfFail := selfFailures s.resets map, recovery := false, fwRuns := s.imageRuns }

/-- Whether the port's training is over (R354, R361 step 9): it has come back, or it is down. -/
def Port.settled (p : Port) (now : Nat) : Bool := p.since.isSome && (decide (p.back ≤ now) || !p.up)

/-- Whether intake may open (R361 step 10): firmware runs, and every port has been trained. -/
def State.opens (s : State) : Bool := s.fwRuns && !s.intake && !s.recovery && s.ports.all fun p => p.settled s.time

/-- WARM_RESET (R360, R361 from step 2). -/
def execWarmReset (s : State) : Out := .next (s.kept false).bringUp

/-- COLD_RESET (R360, R361). -/
def execColdReset (s : State) : Out := .next (s.kept true).bringUp

/-- RHOUS_ACCESS (R362): in recovery only the mailbox answers. -/
def execRhousAccess (x : HostAccess) (s : State) : Out :=
  match x with
  | .mailWrite k v => .next { s with mailbox := s.mailbox.set k.toNat v }
  | .mailRead k => .next { s with hostOut := natLe 4 (s.mailbox.getD k.toNat 0#32).toNat, hostErr := false }
  | .doorbell => .next { s with doorbell := s.doorbell + 1 }
  | .warm => execWarmReset s
  | .headWrite p v => .next (if s.recovery then s else s.writeHead p.toNat v)
  | .dropWrite p v => .next (if s.recovery then s else s.writeDrop p.toNat v)
  | .intakeRead p k =>
    .next (if s.recovery then s else { s with hostOut := natLe 4 (s.intakeRead p.toNat k.toNat).toNat, hostErr := false })
  | .memWrite pa b =>
    .next (if s.recovery || !s.rhsEn then s
      else if s.reaches s.rhsPart pa.toNat b.length then s.agentWrite s.rhsPart pa.toNat b else s)
  | .memRead pa n =>
    .next (if s.recovery then s
      else if !s.rhsEn then { s with hostOut := List.replicate n 0#8, hostErr := false }
      else s.agentRead s.rhsPart pa.toNat n (s.reaches s.rhsPart pa.toNat n))

/-- A request of a remote agent of a partition that R344 may turn away with an error (R363). -/
def State.remote (s : State) (x : RemoteAccess) (ok : Nat → Nat → Nat → Bool) : State :=
  match x with
  | .write p pa b =>
    if !ok p.toNat pa.toNat b.length then { s with hostErr := true }
    else
      let e := !((List.range b.length).all fun i => !s.noAnswer p.toNat (pa.toNat + i))
      { s.agentWrite p.toNat pa.toNat b with hostErr := e }
  | .read p pa n => if ok p.toNat pa.toNat n then s.agentRead p.toNat pa.toNat n true else { s with hostOut := [], hostErr := true }
  | .head p v => { s.writeHead p.toNat v with hostErr := false }

/-- POD_REQUEST (R363): a request of another module, checked against R344 for its partition. -/
def execPodRequest (x : RemoteAccess) (s : State) : Out :=
  .next (if s.recovery then { s with hostErr := true } else s.remote x fun p pa n => s.reaches p pa n)

/-- A remote request with its partition replaced. -/
def withPart (x : RemoteAccess) (p : BitVec 4) : RemoteAccess :=
  match x with
  | .write _ pa b => .write p pa b
  | .read _ pa n => .read p pa n
  | .head _ v => .head p v

/-- ULTRA_ETHERNET_REQUEST (R363): launch packets, and remote memory operations into the HBM share of the partition to
which firmware has mapped the port. -/
def execUltraEthernetRequest (x : PortRequest) (s : State) : Out :=
  .next (if s.recovery then { s with hostErr := true }
    else s.remote (withPart x.ask (s.uePart.getD x.port.toNat 0#4)) fun p pa n =>
      s.reaches p pa n && (List.range n).all fun i => s.target (pa + i) == .hbm)

/-! Security (R356-R358). -/

/-- Device-key indices (R357). -/
def sigLimit : Nat := 2 ^ 20

/-- n indices are used: the counter advances before the signatures are released; at 1,024 left an event is posted. -/
def State.useIndices (s : State) (n : Nat) : State :=
  let t := { s with sigNext := BitVec.ofNat 21 (s.sigNext.toNat + n) }
  if s.sigNext.toNat + 1024 < sigLimit ∧ sigLimit ≤ t.sigNext.toNat + 1024 then t.post .sigLow 0 0xFFFF 0xFFFF 0 0 0 else t

/-- What a quote signs (R356), in the order of its list; the index used last. -/
def State.quoteBody (s : State) (nonce : BitVec 256) : List Byte :=
  natLe 32 nonce.toNat ++ ((List.range 32).map (Config.digestByte s.fwImage))
  ++ ((List.range 32).map (Config.digestByte (((pickRecord s.records).map recordBytes).getD [])))
  ++ ((List.range 16).flatMap fun p =>
    let P := s.part p
    natLe 8 P.cfg.toNat ++ natLe 8 P.qmask.toNat ++ natLe 8 P.hbm.toNat)
  ++ natLe 8 s.idnSerial.toNat ++ natLe 8 s.sigNext.toNat

/-- The helper data of the record in force, from which the seed of the device key is regenerated (R356). -/
def State.helper (s : State) : List Byte := ((pickRecord s.records).map ConfigRecord.helper).getD []

/-- ATTESTATION_QUOTE (R356, R357): the body and its signature; EXHAUSTED once no index is left. -/
def execAttestationQuote (nonce : BitVec 256) (s : State) : Out :=
  let n := s.sigNext.toNat
  if sigLimit ≤ n then .next { s with quote := [], quoteExh := true }
  else
    let body := s.quoteBody nonce
    .next { s.useIndices 1 with quote := body ++ deviceSig s.helper n body, quoteExh := false }

/-- FW_MIN_VERSION_RAISE (R357): a request that the vendor has signed; the stored minimum only increases. -/
def execFwMinVersionRaise (v : RaiseRequest) (s : State) : Out :=
  .next (if vendorVerifies (natLe 4 v.version.toNat) v.sig ∧ s.minVersion.toNat < v.version.toNat then
    { s with minVersion := v.version } else s)

/-- A record as the device key signs it beside the copy in force (R358): its in-field and pod sections where they change,
and the header if the section written last is the device's; index n is the next. The record, and the indices used. -/
def deviceSigned (helper : List Byte) (r : ConfigRecord) (cur : Option ConfigRecord) (n : Nat) : ConfigRecord × Nat :=
  let f := (cur.map ConfigRecord.inField) != some r.inField
  let p := (cur.map fun x => (x.pod, x.modNo)) != some (r.pod, r.modNo)
  let kf := if f then 1 else 0
  let kp := if p then 1 else 0
  ({ r with
      sigInField := if f then deviceSig helper n (r.inField.flatMap entryBytes) else (cur.map ConfigRecord.sigInField).getD r.sigInField
      sigPod := if p then deviceSig helper (n + kf) (podBytes r) else (cur.map ConfigRecord.sigPod).getD r.sigPod
      sigHeader := if r.byDevice then deviceSig helper (n + kf + kp) (headerBytes r) else r.sigHeader },
    kf + kp + (if r.byDevice then 1 else 0))

/-- CONFIG_RECORD_WRITE (R358): the flash keeps two copies; the older one gives way. The device key signs the sections
it holds that change, and the header (R356). -/
def execConfigRecordWrite (r : ConfigRecord) (s : State) : Out :=
  let (r, n) := deviceSigned s.helper r (pickRecord s.records) s.sigNext.toNat
  if sigLimit < s.sigNext.toNat + n then .next s
  else
    let newest := s.records.foldl (fun (b : Option ConfigRecord) x => match b with
      | none => some x
      | some y => if y.seq.toNat < x.seq.toNat then some x else b) none
    .next { s.useIndices n with records := r :: newest.toList }

end Sys2Proof.Machine
end

