-- ==== Sys2Proof/Machine/Firmware.lean ====
section
/-! DEFINITION. REGISTER_WRITE: a register write with the authority of firmware's own port (R277, R303, R339, R343,
R348, R350, R362). -/

namespace Sys2Proof.Machine

/-- A write of PRT_CFG (R343, R345, R346): MAXCLS always (RST is a request and reads zero: DESIGN CHOICE, log entry 47); MWAYS and WIN while the partition is not enabled; then EN,
or a reset for RST or for EN = 0 of an enabled partition. -/
def State.writePrtCfg (s : State) (p : BitVec 4) (v : W64) : Out :=
  let en := (s.part p.toNat).en
  let s := s.modPart p.toNat fun P =>
    let P := { P with maxcls := v.extractLsb' 3 3 }
    if en then P else { P with mways := v.extractLsb' 6 5, win := v.extractLsb' 16 16 }
  if en then (if v.getLsbD 1 || !v.getLsbD 0 then execPartitionReset p s else .next s)
  else if v.getLsbD 0 then execPartitionEnable p s else .next s

/-- A write of PRT_QMASK or PRT_HBM: ignored while the partition is enabled (R345). -/
def State.writeShare (s : State) (p : Nat) (f : Part → Part) : State :=
  s.modPart p fun P => if P.en then P else f P

/-- Self-test failures are posted once the ring is set (R361). -/
def State.postSelfTest (s : State) : State :=
  s.selfFail.foldl (fun s c => s.post .selfTest 0 c 0xFFFF 0 0 0) { s with selfFail := [] }

/-- A write of MGT_EVQ (R348). -/
def State.writeEvq (s : State) (v : W64) : State :=
  { s with mgtEvq := putBits (v &&& (maskOf 0 4 ||| maskOf 12 40)) 0 4 (min 12 (bitsOf v.toNat 0 4)) }.postSelfTest

/-- The period of patrol scrubbing (R350). -/
def scrubMinutes (v : W64) : W16 := BitVec.ofNat 16 (min 10080 (max 1 (v.toNat % 2 ^ 16)))

/-- Registers 0x400-0x4FF, of which only firmware writes. -/
def State.writePart (s : State) (n : Nat) (v : W64) : Out :=
  let me := s.partOf s.cur.val
  if 0x410 ≤ n ∧ n < 0x420 then s.writePrtCfg (BitVec.ofNat 4 (n - 0x410)) v
  else if 0x420 ≤ n ∧ n < 0x430 then .next (s.writeShare (n - 0x420) fun P => { P with qmask := v.setWidth 48 })
  else if 0x430 ≤ n ∧ n < 0x440 then
    .next (s.writeShare (n - 0x430) fun P => { P with hbm := v &&& (maskOf 0 10 ||| maskOf 16 10) })
  else match n with
    | 0x450 => .next (s.writeEvq v)
    | 0x452 => if v.getLsbD 0 then execWarmReset s else .next s
    | 0x470 => .next (s.modPart me fun P => { P with ce := counterWrite v })
    | 0x471 => .next (s.modPart me fun P => { P with ue := counterWrite v })
    | 0x472 => .next { s.patrol with rasScrub := scrubMinutes v }
    | 0x490 => .next { s with rhsCtl := v &&& maskOf 0 5 }
    | _ => .next s

/-- PRV_STATUS: ENTER, and HLT written one (R278, R288). -/
def State.writeStatus (s : State) (v : W64) : Out :=
  let s := if v.getLsbD 4 then s.mod fun k => { k with hlt := false } else s
  if v.getLsbD 3 then execPrvEnter s else .next s

/-- A system register by its number. -/
def State.writeSys (s : State) (n : Nat) (v : W64) : Out :=
  if 0x400 ≤ n ∧ n < 0x500 then s.writePart n v
  else match n with
    | 0x000 => s.writeStatus v
    | 0x005 => if v.getLsbD 0 then execPreemptRequest s else .next s
    | 0x202 => .next (s.mod fun k => { k with trnCtxTab := v &&& maskOf 19 33 })
    | 0x300 => .next { s with gov := s.gov.writeUp v }
    | 0x301 => .next { s with gov := s.gov.writeDn v }
    | 0x303 => .next { s with gov := s.gov.writeCtl v }
    | 0x308 => .next { s with gov := s.gov.writeCap v }
    | 0x500 => .next { s with sltErr := putBits s.sltErr 0 32 v.toNat }
    | _ => .next (s.sysWrite s.cur.val n v s.time)

/-- Word k of a bind record with a value (R307): the named fields of it. -/
def putRecordWord (r : BindRec) (k : Nat) (v : W64) : BindRec :=
  match k with
  | 0 => { r with supv := v.getLsbD 4, gidx := v.extractLsb' 8 2, gsize := v.extractLsb' 10 3, gid := v.extractLsb' 16 16
                  lid := v.extractLsb' 32 32 }
  | 1 => { r with tile := v.extractLsb' 0 48, phase := v.extractLsb' 48 4 }
  | 6 => { r with dl := v }
  | _ => r

/-- A write of word k of the current core's bind record (R307): only while ARM = 0 and HST = 0; ARM written one hands the
record to dispatch. -/
def State.writeRecord (s : State) (k : Nat) (v : W64) : Out :=
  if s.core.armed || s.core.hst != 0 then .next s
  else
    let r := putRecordWord s.core.slot k v
    if k = 0 ∧ v.getLsbD 0 = true then execBindRecordArm r s else .next (s.mod fun c => { c with slot := r })

/-- REGISTER_WRITE (R277, R303, R307, R362, R363). -/
def execRegisterWrite (r : RegId) (v : W64) (s : State) : Out :=
  match r with
  | .sys n => s.writeSys n.toNat v
  | .lncRing p => .next (s.modPart p.toNat fun P => { P with lncRing := v &&& maskOf 10 42 })
  | .lncDrop p => .next (s.writeDrop p.toNat (v.setWidth 32))
  | .mail k => .next { s with mailbox := s.mailbox.set k.toNat (v.setWidth 32) }
  | .record k => s.writeRecord k.toNat v
  | .uePart k => .next { s with uePart := s.uePart.set k.toNat (v.setWidth 4) }

end Sys2Proof.Machine
end

