-- ==== Sys2Proof/Machine/Dispatch.lean ====
section
/-! DEFINITION. One arm per constructor of Instr. -/

namespace Sys2Proof.Machine

/-- The meaning of a step. -/
def exec (i : Instr) (s : State) : Host.Outcome State Fault Refusal :=
  match i with
  | .cpNop e idle => Sys2Proof.Machine.execCpNop e idle s
  | .wait e idle n => Sys2Proof.Machine.execWait e idle n s
  | .untilStamp e idle t => Sys2Proof.Machine.execUntilStamp e idle t s
  | .cpAdd idle a b => Sys2Proof.Machine.execCpAdd idle a b s
  | .cpSub idle a b => Sys2Proof.Machine.execCpSub idle a b s
  | .cpMul idle a b => Sys2Proof.Machine.execCpMul idle a b s
  | .cpMulh idle a b => Sys2Proof.Machine.execCpMulh idle a b s
  | .cpAnd idle a b => Sys2Proof.Machine.execCpAnd idle a b s
  | .cpOr idle a b => Sys2Proof.Machine.execCpOr idle a b s
  | .cpXor idle a b => Sys2Proof.Machine.execCpXor idle a b s
  | .cpAndn idle a b => Sys2Proof.Machine.execCpAndn idle a b s
  | .cpShl idle a b => Sys2Proof.Machine.execCpShl idle a b s
  | .cpShr idle a b => Sys2Proof.Machine.execCpShr idle a b s
  | .cpSar idle a b => Sys2Proof.Machine.execCpSar idle a b s
  | .cpMin idle a b => Sys2Proof.Machine.execCpMin idle a b s
  | .cpMax idle a b => Sys2Proof.Machine.execCpMax idle a b s
  | .cpAddi idle a m => Sys2Proof.Machine.execCpAddi idle a m s
  | .cpAndi idle a m => Sys2Proof.Machine.execCpAndi idle a m s
  | .cpOri idle a m => Sys2Proof.Machine.execCpOri idle a m s
  | .cpXori idle a m => Sys2Proof.Machine.execCpXori idle a m s
  | .cpShli idle a m => Sys2Proof.Machine.execCpShli idle a m s
  | .cpShri idle a m => Sys2Proof.Machine.execCpShri idle a m s
  | .cpSari idle a m => Sys2Proof.Machine.execCpSari idle a m s
  | .cpLim idle m => Sys2Proof.Machine.execCpLim idle m s
  | .cpLimx idle h v => Sys2Proof.Machine.execCpLimx idle h v s
  | .cpCeq idle a b => Sys2Proof.Machine.execCpCeq idle a b s
  | .cpCne idle a b => Sys2Proof.Machine.execCpCne idle a b s
  | .cpClt idle a b => Sys2Proof.Machine.execCpClt idle a b s
  | .cpCle idle a b => Sys2Proof.Machine.execCpCle idle a b s
  | .cpCltu idle a b => Sys2Proof.Machine.execCpCltu idle a b s
  | .cpCleu idle a b => Sys2Proof.Machine.execCpCleu idle a b s
  | .cpCeqi idle a m => Sys2Proof.Machine.execCpCeqi idle a m s
  | .cpClti idle a m => Sys2Proof.Machine.execCpClti idle a m s
  | .cpSel idle a b c => Sys2Proof.Machine.execCpSel idle a b c s
  | .cpPut idle n a => Sys2Proof.Machine.execCpPut idle n a s
  | .cpSpill idle a k => Sys2Proof.Machine.execCpSpill idle a k s
  | .cpFill idle k => Sys2Proof.Machine.execCpFill idle k s
  | .cpLd8 idle a m => Sys2Proof.Machine.execCpLd8 idle a m s
  | .cpLd8s idle a m => Sys2Proof.Machine.execCpLd8s idle a m s
  | .cpLd16 idle a m => Sys2Proof.Machine.execCpLd16 idle a m s
  | .cpLd16s idle a m => Sys2Proof.Machine.execCpLd16s idle a m s
  | .cpLd32 idle a m => Sys2Proof.Machine.execCpLd32 idle a m s
  | .cpLd32s idle a m => Sys2Proof.Machine.execCpLd32s idle a m s
  | .cpLd64 idle a m => Sys2Proof.Machine.execCpLd64 idle a m s
  | .cpLdt64 idle a b m => Sys2Proof.Machine.execCpLdt64 idle a b m s
  | .cpSt8 idle a b m => Sys2Proof.Machine.execCpSt8 idle a b m s
  | .cpSt16 idle a b m => Sys2Proof.Machine.execCpSt16 idle a b m s
  | .cpSt32 idle a b m => Sys2Proof.Machine.execCpSt32 idle a b m s
  | .cpSt64 idle a b m => Sys2Proof.Machine.execCpSt64 idle a b m s
  | .cpTagw idle a b => Sys2Proof.Machine.execCpTagw idle a b s
  | .cpTagr idle a => Sys2Proof.Machine.execCpTagr idle a s
  | .cpNld64 idle a q => Sys2Proof.Machine.execCpNld64 idle a q s
  | .cpNst64 idle a b q => Sys2Proof.Machine.execCpNst64 idle a b q s
  | .cpBr idle t => Sys2Proof.Machine.execCpBr idle t s
  | .cpBz idle k t => Sys2Proof.Machine.execCpBz idle k t s
  | .cpBnz idle k t => Sys2Proof.Machine.execCpBnz idle k t s
  | .cpBrx idle a => Sys2Proof.Machine.execCpBrx idle a s
  | .cpCall idle t => Sys2Proof.Machine.execCpCall idle t s
  | .cpCallx idle a => Sys2Proof.Machine.execCpCallx idle a s
  | .cpRet idle => Sys2Proof.Machine.execCpRet idle s
  | .cpLoop idle a d p => Sys2Proof.Machine.execCpLoop idle a d p s
  | .cpRdlcc idle => Sys2Proof.Machine.execCpRdlcc idle s
  | .cpRdwtc idle => Sys2Proof.Machine.execCpRdwtc idle s
  | .cpRdhdc idle => Sys2Proof.Machine.execCpRdhdc idle s
  | .cpRdflag idle => Sys2Proof.Machine.execCpRdflag idle s
  | .cpClrflag idle m => Sys2Proof.Machine.execCpClrflag idle m s
  | .ldBase idle sp v => Sys2Proof.Machine.execLdBase idle sp v s
  | .ldDim idle d c v => Sys2Proof.Machine.execLdDim idle d c v s
  | .ldFmt idle f p h => Sys2Proof.Machine.execLdFmt idle f p h s
  | .ldTag idle tm t => Sys2Proof.Machine.execLdTag idle tm t s
  | .ldRate idle n => Sys2Proof.Machine.execLdRate idle n s
  | .ldStart idle => Sys2Proof.Machine.execLdStart idle s
  | .ldStartTimed idle w => Sys2Proof.Machine.execLdStartTimed idle w s
  | .ldStop idle => Sys2Proof.Machine.execLdStop idle s
  | .stBase idle sp v => Sys2Proof.Machine.execStBase idle sp v s
  | .stDim idle d c v => Sys2Proof.Machine.execStDim idle d c v s
  | .stFmt idle f p h md => Sys2Proof.Machine.execStFmt idle f p h md s
  | .stTag idle tm t => Sys2Proof.Machine.execStTag idle tm t s
  | .stRate idle n => Sys2Proof.Machine.execStRate idle n s
  | .stStart idle => Sys2Proof.Machine.execStStart idle s
  | .stStartTimed idle w => Sys2Proof.Machine.execStStartTimed idle w s
  | .stStop idle => Sys2Proof.Machine.execStStop idle s
  | .grCfg idle g => Sys2Proof.Machine.execGrCfg idle g s
  | .grConst idle el k v => Sys2Proof.Machine.execGrConst idle el k v s
  | .grStart idle t => Sys2Proof.Machine.execGrStart idle t s
  | .grStop idle => Sys2Proof.Machine.execGrStop idle s
  | .grVadd idle f md dst a b => Sys2Proof.Machine.execGrVadd idle f md dst a b s
  | .grVsub idle f md dst a b => Sys2Proof.Machine.execGrVsub idle f md dst a b s
  | .grVmul idle f md dst a b => Sys2Proof.Machine.execGrVmul idle f md dst a b s
  | .grVmin idle f dst a b => Sys2Proof.Machine.execGrVmin idle f dst a b s
  | .grVmax idle f dst a b => Sys2Proof.Machine.execGrVmax idle f dst a b s
  | .grVand idle f dst a b => Sys2Proof.Machine.execGrVand idle f dst a b s
  | .grVor idle f dst a b => Sys2Proof.Machine.execGrVor idle f dst a b s
  | .grVxor idle f dst a b => Sys2Proof.Machine.execGrVxor idle f dst a b s
  | .grVsadd idle f dst a b => Sys2Proof.Machine.execGrVsadd idle f dst a b s
  | .grVcmp idle f pr dst a b => Sys2Proof.Machine.execGrVcmp idle f pr dst a b s
  | .grVfma idle f md dst a b c => Sys2Proof.Machine.execGrVfma idle f md dst a b c s
  | .grVsel idle f dst a b c => Sys2Proof.Machine.execGrVsel idle f dst a b c s
  | .grVabs idle f dst a => Sys2Proof.Machine.execGrVabs idle f dst a s
  | .grVneg idle f dst a => Sys2Proof.Machine.execGrVneg idle f dst a s
  | .grVrcp idle f md dst a => Sys2Proof.Machine.execGrVrcp idle f md dst a s
  | .grVrsqrt idle f md dst a => Sys2Proof.Machine.execGrVrsqrt idle f md dst a s
  | .grVexp2 idle f md dst a => Sys2Proof.Machine.execGrVexp2 idle f md dst a s
  | .grVlog2 idle f md dst a => Sys2Proof.Machine.execGrVlog2 idle f md dst a s
  | .grVtanh idle f md dst a => Sys2Proof.Machine.execGrVtanh idle f md dst a s
  | .grVsum idle f md dst a => Sys2Proof.Machine.execGrVsum idle f md dst a s
  | .grVscan idle f md dst a => Sys2Proof.Machine.execGrVscan idle f md dst a s
  | .grVfill idle f dst v => Sys2Proof.Machine.execGrVfill idle f dst v s
  | .grVcvt idle fs fd md dst a => Sys2Proof.Machine.execGrVcvt idle fs fd md dst a s
  | .grVdot idle fs fd md dst a b => Sys2Proof.Machine.execGrVdot idle fs fd md dst a b s
  | .grVnqenc idle fs fd dst a => Sys2Proof.Machine.execGrVnqenc idle fs fd dst a s
  | .grChain idle md dst src src2 ops => Sys2Proof.Machine.execGrChain idle md dst src src2 ops s
  | .cfLdst idle f a => Sys2Proof.Machine.execCfLdst idle f a s
  | .cfFwd idle t => Sys2Proof.Machine.execCfFwd idle t s
  | .cfRpl idle p pe ce t => Sys2Proof.Machine.execCfRpl idle p pe ce t s
  | .cfGrd idle p pe ce av t => Sys2Proof.Machine.execCfGrd idle p pe ce av t s
  | .cfApl idle t => Sys2Proof.Machine.execCfApl idle t s
  | .cfSwp idle t => Sys2Proof.Machine.execCfSwp idle t s
  | .cfNul idle av sd t => Sys2Proof.Machine.execCfNul idle av sd t s
  | .cfMode idle m => Sys2Proof.Machine.execCfMode idle m s
  | .cfEta idle v => Sys2Proof.Machine.execCfEta idle v s
  | .cfFade idle v => Sys2Proof.Machine.execCfFade idle v s
  | .cfFmt idle af gf ofm md => Sys2Proof.Machine.execCfFmt idle af gf ofm md s
  | .cfDrain idle ofm md d => Sys2Proof.Machine.execCfDrain idle ofm md d s
  | .cfClra idle => Sys2Proof.Machine.execCfClra idle s
  | .cfHsel idle src => Sys2Proof.Machine.execCfHsel idle src s
  | .cfHread idle d => Sys2Proof.Machine.execCfHread idle d s
  | .cfHclr idle => Sys2Proof.Machine.execCfHclr idle s
  | .btCopy idle h d w => Sys2Proof.Machine.execBtCopy idle h d w s
  | .btOvl idle h d w => Sys2Proof.Machine.execBtOvl idle h d w s
  | .btPref idle h d => Sys2Proof.Machine.execBtPref idle h d s
  | .btPrefTimed idle h d w => Sys2Proof.Machine.execBtPrefTimed idle h d w s
  | .btNmc idle c => Sys2Proof.Machine.execBtNmc idle c s
  | .btNmfence idle a n => Sys2Proof.Machine.execBtNmfence idle a n s
  | .btPin idle k a n => Sys2Proof.Machine.execBtPin idle k a n s
  | .btUnpin idle k => Sys2Proof.Machine.execBtUnpin idle k s
  | .btEchk idle m => Sys2Proof.Machine.execBtEchk idle m s
  | .syBar idle sc => Sys2Proof.Machine.execSyBar idle sc s
  | .syArrive idle sc k => Sys2Proof.Machine.execSyArrive idle sc k s
  | .syAwait idle sc k => Sys2Proof.Machine.execSyAwait idle sc k s
  | .syBind idle o a n => Sys2Proof.Machine.execSyBind idle o a n s
  | .syRel idle sc o => Sys2Proof.Machine.execSyRel idle sc o s
  | .syAcq idle sc o n => Sys2Proof.Machine.execSyAcq idle sc o n s
  | .syFence idle sc => Sys2Proof.Machine.execSyFence idle sc s
  | .syAtom idle op f a l => Sys2Proof.Machine.execSyAtom idle op f a l s
  | .syAtomx idle op f k a l r tg => Sys2Proof.Machine.execSyAtomx idle op f k a l r tg s
  | .syBatch idle k n => Sys2Proof.Machine.execSyBatch idle k n s
  | .sySafe idle m n => Sys2Proof.Machine.execSySafe idle m n s
  | .syTrap idle c => Sys2Proof.Machine.execSyTrap idle c s
  | .sySyscall idle c => Sys2Proof.Machine.execSySyscall idle c s
  | .syEnd idle => Sys2Proof.Machine.execSyEnd idle s
  | .syResume idle a => Sys2Proof.Machine.execSyResume idle a s
  | .syMfsr idle r d => Sys2Proof.Machine.execSyMfsr idle r d s
  | .syMtsr idle r d => Sys2Proof.Machine.execSyMtsr idle r d s
  | .syTlbi idle k a => Sys2Proof.Machine.execSyTlbi idle k a s
  | .syAsave idle a => Sys2Proof.Machine.execSyAsave idle a s
  | .syArest idle a => Sys2Proof.Machine.execSyArest idle a s
  | .syGsave idle a => Sys2Proof.Machine.execSyGsave idle a s
  | .syGrest idle a => Sys2Proof.Machine.execSyGrest idle a s
  | .syHalt idle => Sys2Proof.Machine.execSyHalt idle s
  | .split => Sys2Proof.Machine.execSplit s
  | .cpResultDrop => Sys2Proof.Machine.execCpResultDrop s
  | .cpStoreLand => Sys2Proof.Machine.execCpStoreLand s
  | .holdEnd => Sys2Proof.Machine.execHoldEnd s
  | .holdTimeout => Sys2Proof.Machine.execHoldTimeout s
  | .safeGapFault => Sys2Proof.Machine.execSafeGapFault s
  | .streamBeatRead => Sys2Proof.Machine.execStreamBeatRead s
  | .streamBeatDeliver => Sys2Proof.Machine.execStreamBeatDeliver s
  | .globalBeatLate p d => Sys2Proof.Machine.execGlobalBeatLate p d s
  | .storeBeatLand => Sys2Proof.Machine.execStoreBeatLand s
  | .copyChunkRead => Sys2Proof.Machine.execCopyChunkRead s
  | .copyChunkLand => Sys2Proof.Machine.execCopyChunkLand s
  | .hbmCopyLand k => Sys2Proof.Machine.execHbmCopyLand k s
  | .gridCfgDone => Sys2Proof.Machine.execGridCfgDone s
  | .gridContextExecute => Sys2Proof.Machine.execGridContextExecute s
  | .gridResultLand => Sys2Proof.Machine.execGridResultLand s
  | .sinkFinish => Sys2Proof.Machine.execSinkFinish s
  | .gridDone => Sys2Proof.Machine.execGridDone s
  | .passStepRead => Sys2Proof.Machine.execPassStepRead s
  | .passStepWrite => Sys2Proof.Machine.execPassStepWrite s
  | .frontCellStep => Sys2Proof.Machine.execFrontCellStep s
  | .drainPresent => Sys2Proof.Machine.execDrainPresent s
  | .returnRegisterReplace => Sys2Proof.Machine.execReturnRegisterReplace s
  | .ldstRowWrite => Sys2Proof.Machine.execLdstRowWrite s
  | .drainRowWrite => Sys2Proof.Machine.execDrainRowWrite s
  | .hreadLand => Sys2Proof.Machine.execHreadLand s
  | .barrierComplete => Sys2Proof.Machine.execBarrierComplete s
  | .releaseIncrement k => Sys2Proof.Machine.execReleaseIncrement k s
  | .acquireComplete => Sys2Proof.Machine.execAcquireComplete s
  | .fenceComplete => Sys2Proof.Machine.execFenceComplete s
  | .atomxApply k => Sys2Proof.Machine.execAtomxApply k s
  | .atomxResultLand k => Sys2Proof.Machine.execAtomxResultLand k s
  | .nmJobAccept k => Sys2Proof.Machine.execNmJobAccept k s
  | .nmJobComplete k => Sys2Proof.Machine.execNmJobComplete k s
  | .pageWalk => Sys2Proof.Machine.execPageWalk s
  | .handlerEntry => Sys2Proof.Machine.execHandlerEntry s
  | .prvEnter => Sys2Proof.Machine.execPrvEnter s
  | .prvHltClear => Sys2Proof.Machine.execPrvHltClear s
  | .preemptRequest => Sys2Proof.Machine.execPreemptRequest s
  | .preemptPending => Sys2Proof.Machine.execPreemptPending s
  | .preemptHoldStop => Sys2Proof.Machine.execPreemptHoldStop s
  | .taskCommit => Sys2Proof.Machine.execTaskCommit s
  | .phaseCommit l => Sys2Proof.Machine.execPhaseCommit l s
  | .lncHeadWrite p v => Sys2Proof.Machine.execLncHeadWrite p v s
  | .launchIntake p => Sys2Proof.Machine.execLaunchIntake p s
  | .bindRecordArm r => Sys2Proof.Machine.execBindRecordArm r s
  | .dispatchBind => Sys2Proof.Machine.execDispatchBind s
  | .gangAlign => Sys2Proof.Machine.execGangAlign s
  | .governorTick => Sys2Proof.Machine.execGovernorTick s
  | .controlInterval => Sys2Proof.Machine.execControlInterval s
  | .droopStretch q => Sys2Proof.Machine.execDroopStretch q s
  | .thermalTrip q => Sys2Proof.Machine.execThermalTrip q s
  | .lsgEnvUpWrite v => Sys2Proof.Machine.execLsgEnvUpWrite v s
  | .lsgCtlWrite v => Sys2Proof.Machine.execLsgCtlWrite v s
  | .repeatableModeApply => Sys2Proof.Machine.execRepeatableModeApply s
  | .quadGateRequest q => Sys2Proof.Machine.execQuadGateRequest q s
  | .quadDrainEnd q => Sys2Proof.Machine.execQuadDrainEnd q s
  | .quadGated q => Sys2Proof.Machine.execQuadGated q s
  | .quadWakeRequest q => Sys2Proof.Machine.execQuadWakeRequest q s
  | .quadRiseDone q => Sys2Proof.Machine.execQuadRiseDone q s
  | .targetGatedNack q => Sys2Proof.Machine.execTargetGatedNack q s
  | .vltCtlWrite v => Sys2Proof.Machine.execVltCtlWrite v s
  | .pcsSample => Sys2Proof.Machine.execPcsSample s
  | .partitionEnable p => Sys2Proof.Machine.execPartitionEnable p s
  | .partitionReset p => Sys2Proof.Machine.execPartitionReset p s
  | .partitionResetDone p => Sys2Proof.Machine.execPartitionResetDone p s
  | .warmReset => Sys2Proof.Machine.execWarmReset s
  | .coldReset => Sys2Proof.Machine.execColdReset s
  | .correctableError p a => Sys2Proof.Machine.execCorrectableError p a s
  | .uncorrectableError w => Sys2Proof.Machine.execUncorrectableError w s
  | .patrolScrub w => Sys2Proof.Machine.execPatrolScrub w s
  | .linkRetrain pt d => Sys2Proof.Machine.execLinkRetrain pt d s
  | .linkDown pt => Sys2Proof.Machine.execLinkDown pt s
  | .rhousAccess x => Sys2Proof.Machine.execRhousAccess x s
  | .podRequest x => Sys2Proof.Machine.execPodRequest x s
  | .attestationQuote nonce => Sys2Proof.Machine.execAttestationQuote nonce s
  | .fwMinVersionRaise v => Sys2Proof.Machine.execFwMinVersionRaise v s
  | .registerWrite r v => Sys2Proof.Machine.execRegisterWrite r v s
  | .abandonTask => Sys2Proof.Machine.execAbandonTask s
  | .tlbiComplete => Sys2Proof.Machine.execTlbiComplete s
  | .saveRestoreComplete => Sys2Proof.Machine.execSaveRestoreComplete s
  | .neighbourLoadRead => Sys2Proof.Machine.execNeighbourLoadRead s
  | .mfsrWrite => Sys2Proof.Machine.execMfsrWrite s
  | .droopEnd q => Sys2Proof.Machine.execDroopEnd q s
  | .ultraEthernetRequest x => Sys2Proof.Machine.execUltraEthernetRequest x s
  | .configRecordWrite r => Sys2Proof.Machine.execConfigRecordWrite r s

end Sys2Proof.Machine
end

