-- ==== Sys2Proof/Machine/Cycle.lean ====
section
/-! DEFINITION. What is due: the acts of a cycle of a gang in their order (R23, R84, R92, R235, R279, R281), the end of
a cycle, work outside logical time, ticks and intervals, and the advance of time. -/

namespace Sys2Proof.Machine

/-- Core number m. -/
def coreFin (m : Nat) : Fin 192 := Fin.ofNat 192 m

/-! Acts of a cycle. -/

/-- The head of queue e of the current core issues, or has missed its cycle (R92-R94). -/
def issueHead (s : State) (e : Nat) : Out :=
  match headDue (s.core.ctx.q e) s.core.now with
  | .issue i => exec i s
  | .miss a => .next (takeStop s (bareStop s e 1 .scheduleMiss a) [] false 0xFFFF#16 none)
  | .none => .fault .emptyIssue

/-- One issue or event. -/
def runAct (s : State) (a : Fin 192 × Act) : Out :=
  let s := { s with cur := a.1 }
  match a.2 with
  | .issue e => issueHead s e.toNat
  | .event i => exec i s
  | .check | .advance => .next s

/-- Issues of queue e in this cycle, of the cores of a gang whose head p selects. -/
def issuesOf (s : State) (ms : List Nat) (e : Nat) (p : Option Instr → Bool) : List (Fin 192 × Act) :=
  ms.filterMap fun m =>
    match headDue ((s.at m).ctx.q e) (s.at m).now with
    | .none => none
    | .issue i => if p (some i) then some (coreFin m, .issue (BitVec.ofNat 3 e)) else none
    | .miss _ => if p none then some (coreFin m, .issue (BitVec.ofNat 3 e)) else none

/-- One event on each of some cores. -/
def eventOn (ms : List Nat) (i : Instr) : List (Fin 192 × Act) := ms.map fun m => (coreFin m, .event i)

/-- Whether a SYN word reads a system register as it stands at the start of the cycle (R290). -/
def isMfsr : Option Instr → Bool
  | some (.syMfsr _ _ _) => true
  | _ => false

/-- Whether a SYN word is `sy.resume`, which ends the cycle of its code (R293). -/
def isResume : Option Instr → Bool
  | some (.syResume _ _) => true
  | _ => false

/-- Whether the array, and the grid, of core m act in its cycles: not in a handler, nor while they hold a restored
image (R166, R286, R292). -/
def arrActs (s : State) (m : Nat) : Bool := !(s.at m).hnd && !(s.at m).arrHeld
def gridActs (s : State) (m : Nat) : Bool := !(s.at m).hnd && !(s.at m).gridHeld

/-- Whether a safe-gap fault is due on core m (R264). -/
def gapDue (s : State) (m : Nat) : Bool :=
  let k := s.at m
  match k.task with
  | some t => !k.hnd && decide (k.ctx.safePt + t.sgap + 1 ≤ k.now)
  | none => false

/-- The acts of a cycle of the gang of core c: the split, reads and issues in the order of engines, then the landings
in the order of R235, of which the last prevails. -/
def cycleActs (s : State) (c : Nat) : List (Fin 192 × Act) :=
  let ms := s.members c
  let hi := ms.reverse
  let arr := ms.filter (arrActs s)
  let grid := ms.filter (gridActs s)
  let any : Option Instr → Bool := fun _ => true
  eventOn (ms.filter (gapDue s)) .safeGapFault ++ eventOn ms .split ++ eventOn ms .copyChunkRead
  ++ issuesOf s ms 6 isMfsr ++ eventOn ms .streamBeatDeliver ++ eventOn arr .returnRegisterReplace
  ++ eventOn arr .drainPresent ++ issuesOf s ms 0 any ++ issuesOf s ms 1 any ++ eventOn ms .streamBeatRead
  ++ issuesOf s ms 2 any ++ issuesOf s ms 3 any ++ issuesOf s ms 4 any ++ issuesOf s ms 5 any
  ++ issuesOf s ms 6 (fun i => !isMfsr i && !isResume i)
  ++ eventOn ms .neighbourLoadRead ++ eventOn grid .passStepRead
  ++ eventOn arr .ldstRowWrite ++ eventOn grid .gridContextExecute ++ eventOn arr .frontCellStep
  ++ eventOn [c] .copyChunkLand ++ eventOn (hi.filter (gridActs s)) .passStepWrite
  ++ eventOn (hi.filter (arrActs s)) .drainRowWrite ++ eventOn (hi.filter (arrActs s)) .hreadLand
  ++ eventOn hi .storeBeatLand ++ eventOn hi .mfsrWrite ++ eventOn hi .cpStoreLand
  ++ eventOn grid .gridResultLand ++ eventOn grid .gridCfgDone ++ eventOn grid .sinkFinish ++ eventOn grid .gridDone
  ++ issuesOf s ms 6 isResume

/-- A trial of the acts of a cycle: the state so far, the acts that stop the gang and those that hold it, with their
causes. -/
structure Trial where
  state : State
  stops : List (Stop × Bool × (Fin 192 × Act))
  holds : List (List HoldCause × (Fin 192 × Act))

/-- One act more: what stops or holds has no effect (R279). -/
def Trial.act (t : Trial) (a : Fin 192 × Act) : Trial :=
  match runAct { t.state with lastStop := none, moreStops := false } a with
  | .next u =>
    match u.lastStop with
    | some k => { t with stops := t.stops ++ [(k, u.moreStops, a)] }
    | none =>
      match (u.at a.1.val).hold with
      | some h => { t with holds := t.holds ++ [(h.causes, a)] }
      | none => { t with state := u }
  | .fault _ => t
  | .refused _ => t

/-- The stop that prevails (R281). -/
def prevails : List (Stop × Bool × (Fin 192 × Act)) → Option (Stop × Bool × (Fin 192 × Act))
  | [] => none
  | x :: r => some (r.foldl (fun b y => if y.1.before b.1 then y else b) x)

/-- The acts that hold a gang, one after another, from the start of their cycle (R251); one whose cause only the cycle
itself brings about holds with that cause. -/
def runHolds (s : State) : List (List HoldCause × (Fin 192 × Act)) → State
  | [] => s
  | (l, a) :: r =>
    let own := l.foldl addHold { s with cur := a.1 }
    match runAct { s with cur := a.1 } a with
    | .next t => runHolds (if l.all (fun h => ((t.at a.1.val).hold.map fun x => x.causes.contains h).getD false) then t else own) r
    | .fault _ => runHolds own r
    | .refused _ => runHolds own r

/-- The stop k of act a, taken at the start of its cycle: nothing of the cycle has an effect (R279). The lookups that
found a cause of the act alone stay counted. -/
def stopAct (s : State) (k : Stop) (a : Fin 192 × Act) : Out :=
  let own := takeStop { s with cur := a.1 } k [] false 0xFFFF#16 none
  match runAct s a with
  | .next t => .next (if t.lastStop = some k then t else own)
  | .fault _ => .next own
  | .refused _ => .next own

/-- The end stops of a gang's cores: the one that prevails with its masks, and the others (R279, R281). -/
def State.endStops (s : State) (c : Nat) : List (Stop × W16 × Nat) := (s.members c).filterMap fun m => (s.at m).endStop

/-- The test of a cycle of the gang of core c: a stop, else a hold, else its acts become due (R279, R281). -/
def checkCycle (s : State) (c : Fin 192) : Out :=
  let s := { s with cur := c, lastStop := none, moreStops := false }
  let acts := cycleActs s c.val
  let t := acts.foldl Trial.act ⟨s, [], []⟩
  match prevails t.stops with
  | some (k, more, a) =>
    let others := more || decide (2 ≤ t.stops.length) || !t.holds.isEmpty || !(t.state.endStops c.val).isEmpty
    stopAct { s with moreStops := others } k a
  | none =>
    if t.holds.isEmpty then .next { s.modGang c.val Core.fresh with agenda := acts ++ [(c, .advance)] ++ s.agenda }
    else .next (runHolds s t.holds)

/-! The end of a cycle. -/

/-- Load ports at the end of a cycle: a stream whose beats are all read has ended (R127). -/
def LdPort.settle (y : LdPort) : LdPort := { y with running := y.running && decide (y.beat < y.st.beats) }

/-- Core k at the end of its cycle: flags raised enter ARF_STICKY after its clears (R61), the cycle's marks go, and the start
of the next cycle may complete a `.lane` barrier (R254). -/
def Core.closeCycle (k : Core) (period : Nat) : Core :=
  { k with
    ctx := { k.ctx.findLane k.grid.doneBit with
      sticky := k.ctx.sticky ||| k.ctx.raised, raised := 0#8, dropped := [], ldP := k.ctx.ldP.map LdPort.settle }
    arr := { k.arr with clra := false }
    grid := k.grid.landConst
    nextCyc := k.nextCyc + period }

/-- The cycle of core k has passed: it counts (R21, R286). -/
def Core.count (k : Core) : Core := if k.hnd then { k with hlc := k.hlc + 1 } else { k with lcc := k.lcc + 1 }

/-- A gang of a quad advances at time t: ballast stops, and what it drew is kept (R332). -/
def Quad.work (q : Quad) (t : Nat) : Quad :=
  if q.ballast = 0 then { q with worked := true }
  else { q.settleClock t with worked := true, ballast := 0, replaced := q.ballast }

/-- What core m has issued outside logical time lands no sooner than the end of the cycle after its issue, held or not
(R274). -/
def State.paceCopies (s : State) (m : Nat) : State :=
  let k := s.at m
  let p := (s.quad (quadOf m)).period
  { s with hbm := s.hbm.map fun x =>
    if x.core == m && x.who == k.ctx.who && (x.issue == k.now || x.issue + 1 == k.now) then
      { x with ready := max x.ready (s.time + p * (x.issue + 2 - k.now)) }
    else x }

/-- The end of a cycle of the gang of core c (R21, R61, R279, R290). -/
def advanceCycle (s : State) (c : Fin 192) : Out :=
  let s := { s with cur := c, moreStops := false }
  let ms := s.members c.val
  let s := ms.foldl (fun s m => (s.landMtsrs m).paceCopies m) s
  let s := ms.foldl (fun s m => s.modAt m fun k => k.closeCycle (s.quad (quadOf m)).period) s
  let s := s.modQuad (quadOf c.val) fun q => q.work s.time
  match s.endStops c.val with
  | [] => .next (s.modGang c.val Core.count)
  | (k, mask, ext) :: r =>
    let (k, mask, ext) := r.foldl (fun b x => if x.1.before b.1 then x else b) (k, mask, ext)
    .next (takeStop { s with moreStops := !r.isEmpty } k [] true mask (some ext))

/-- One entry of the agenda. -/
def doAct (s : State) (a : Fin 192 × Act) : Out :=
  match a.2 with
  | .check => checkCycle s a.1
  | .advance => advanceCycle s a.1
  | .issue _ | .event _ => runAct s a

/-! Work outside logical time: the first that is due. -/

/-- The first index of a list whose element p selects. -/
def firstIdx {α : Type} (p : Nat → α → Bool) (l : List α) : Option Nat := (List.range l.length).find? fun k => match l[k]? with
  | some x => p k x
  | none => false

/-- Releases, atomics and jobs. -/
def memoryWork (s : State) : Option Instr :=
  let rel := (firstIdx (fun k r => s.relReady k r) s.rels).map Instr.releaseIncrement
  let app := (firstIdx (fun _ x => x.result.isNone && s.atomReady x) s.atoms).map Instr.atomxApply
  let res := (firstIdx (fun k (x : Atomx) => x.result.isSome && decide (x.ready ≤ s.time)
    && !(s.atoms.take k).any fun y => y.core == x.core) s.atoms).map Instr.atomxResultLand
  let acc := (firstIdx (fun _ (j : Job) => !j.accepted && !jobWaits s j) s.jobs).map Instr.nmJobAccept
  let run := (firstIdx (fun k (j : Job) => j.accepted && !jobBlocked s k j) s.jobs).map Instr.nmJobComplete
  ((((rel <|> app) <|> res) <|> acc) <|> run)

/-- What of rank 6 of R235 lands now: the core that issued it, and its place among the copies outside logical time, or
among the landings outside a gang. -/
def State.landings (s : State) : List (Nat × (Nat ⊕ Nat)) :=
  ((s.hbm.mapIdx fun k (x : Copy) => (decide (x.ready ≤ s.time) && !s.devWaits k x, x.core, Sum.inl k))
    ++ s.outLands.mapIdx fun k (o : OutLand) => (decide (o.due ≤ s.time), o.copy.core, Sum.inr k)).filterMap fun (x : Bool × Nat × (Nat ⊕ Nat)) =>
      if x.1 then some x.2 else none

/-- The landing that comes next: that of the highest core, so that the lowest prevails (R235). -/
def State.nextLanding (s : State) : Option (Nat × (Nat ⊕ Nat)) :=
  s.landings.foldl (fun b x => match b with
    | none => some x
    | some y => if y.1 < x.1 then some x else b) none

/-- Whether the word that waits at the head of core k's SYN queue waits with operands that begin with a code. -/
def Core.waits (k : Core) (code : Nat) : Bool := k.ctx.pend6.arg.head? == some code && !k.ctx.pend6.ready

/-- What is due of the waiting words of core c: walks and completions. -/
def waitingWork (s : State) (c : Nat) : Option Instr :=
  let k := s.at c
  let acq := match k.ctx.pend6.arg with
    | 1 :: pa :: n :: _ => s.seqReached c pa n
    | _ => false
  if !k.ctx.pend5.walks.isEmpty || !k.ctx.pend6.walks.isEmpty then some .pageWalk
  else if k.waits 1 && acq then some .acquireComplete
  else if k.waits 2 && s.allDone c then some .fenceComplete
  else if k.waits 5 && s.writesDone c CopyEnd.isGlobal then some .tlbiComplete
  else if k.waits 4 then some .saveRestoreComplete
  else if k.ctx.bars.any fun b => b.on && !b.rep && !s.gangBar c b.scope && s.netDone c b then some .barrierComplete
  else none

/-- What is due of the gang of core c as a whole. -/
def gangWork (s : State) (c : Nat) : Option Instr :=
  let k := s.at c
  if k.gbase ≠ c then none
  else if s.gangOver c then some .taskCommit
  else if s.loadDue c then some .dispatchBind
  else if (k.task.map fun t => t.granted && !t.t0).getD false then some .gangAlign
  else if s.holdClear c then some .holdEnd
  else if s.haccFull c then some .preemptHoldStop
  else if s.watchdog c then some .holdTimeout
  else none

/-- What is due at core c of requests and bind records. -/
def recordWork (s : State) (c : Nat) : Option Instr :=
  let k := s.at c
  if k.preReq && !k.prePend && k.task.isSome then some .preemptPending
  else if !k.armed then none
  else match s.verdict c with
    | .wait => none
    | .refuse _ _ => some .dispatchBind
    | .bind base l h => if (s.starters base l h).isEmpty then none else some .dispatchBind

/-- Phases, intake, partition resets, ports that have not returned. -/
def moduleWork (s : State) : Option Instr :=
  let ph := (s.launches.find? fun l => s.phaseOver l).map fun l => Instr.phaseCommit l.lid
  let ps := List.range 16
  let inn := (ps.find? s.takes).map fun p => Instr.launchIntake (BitVec.ofNat 4 p)
  let rst := (ps.find? fun p => (s.part p).inrst && !s.outsideWork p).map fun p => Instr.partitionResetDone (BitVec.ofNat 4 p)
  let dn := ((List.range s.ports.length).find? fun k => (s.ports[k]?.map fun p => p.overdue s.time).getD false).map fun k =>
    Instr.linkDown (BitVec.ofNat 5 k)
  (((ph <|> inn) <|> rst) <|> dn)

/-- The first core with work of a kind. -/
def firstCore (f : Nat → Option Instr) : Option (Fin 192 × Instr) :=
  (List.range 192).findSome? fun c => (f c).map fun i => (coreFin c, i)

/-- The work outside logical time that comes next. -/
def State.outside (s : State) : Option (Fin 192 × Instr) :=
  ((((memoryWork s).map fun i => (s.cur, i)) <|> firstCore (waitingWork s)) <|> firstCore (gangWork s))
  <|> (firstCore (recordWork s) <|> (moduleWork s).map fun i => (s.cur, i))

/-! Ticks, intervals, time. -/

/-- Whether an event comes from firmware, which must run (R357, R361). -/
def ofFirmware : Instr → Bool
  | .prvEnter | .prvHltClear | .preemptRequest | .bindRecordArm _ | .lsgEnvUpWrite _ | .lsgCtlWrite _ | .vltCtlWrite _
  | .partitionEnable _ | .partitionReset _ | .attestationQuote _ | .fwMinVersionRaise _ | .registerWrite _ _
  | .abandonTask | .configRecordWrite _ => true
  | _ => false

/-- Time of the next governor tick, and of the next control interval: tick 0 falls at WTC 0 (log entry 3). -/
def State.tickAt (s : State) : Nat := 64 * s.gov.tick * Config.unitsPerNs
def State.intervalAt (s : State) : Nat := 1000 * (s.gov.interval + 1) * Config.unitsPerNs

/-- The gating steps of quad q at a tick (R336, R340-R342, R345, R355). -/
def gateSteps (s : State) (q : Nat) : List Instr :=
  let x := s.quad q
  let b := BitVec.ofNat 6 q
  (if taken x.gateReq s.time || (x.ps == .on && !s.owned q) then [Instr.quadGateRequest b] else [])
  ++ (if x.tripped && x.ps != .gated then [Instr.quadGated b] else match x.ps with
    | .drain => [Instr.quadDrainEnd b]
    | .fall => [Instr.quadGated b]
    | .rise => [Instr.quadRiseDone b]
    | .on | .gated | .wakeWait => [])
  ++ (if taken x.wakeReq s.time then [Instr.quadWakeRequest b] else [])

/-- The acts of a governor tick. -/
def tickActs (s : State) : List (Fin 192 × Act) :=
  (((List.range 48).flatMap (gateSteps s)).map fun i => (s.cur, Act.event i)) ++ [(s.cur, .event .governorTick)]

/-- The acts of a control interval: quads that have grown too hot trip (R355). -/
def intervalActs (s : State) : List (Fin 192 × Act) :=
  (((List.range 48).filter fun n => s.tripsAt n && !(s.quad n).tripped).map fun n =>
    (s.cur, Act.event (.thermalTrip (BitVec.ofNat 6 n))))
  ++ (if s.gov.next.isSome && !s.anyTask then [(s.cur, Act.event .repeatableModeApply)] else [])
  ++ [(s.cur, .event .controlInterval)]

/-- The gangs whose clocks run: their lowest cores. -/
def State.clocked (s : State) : List Nat := (List.range 192).filter fun c =>
  let k := s.at c
  k.gbase == c && (k.task.map Task.t0).getD false && (k.stop.isNone || k.hnd)

/-- A cycle of a held gang that lasts d passes on core k (R22, R295). -/
def Core.heldTime (k : Core) (d : Nat) : Core :=
  { k.fresh with
    hdc := k.hdc + 1#64, nextCyc := k.nextCyc + d
    hacc := if (k.preReq || k.prePend) && !k.hnd then k.hacc + d else k.hacc }

/-- The gang of core c comes to the start of a cycle: a held one counts it in HDC (R22, R25), another has its results
drop and its cycle tested. -/
def startCycle (s : State) (c : Nat) : State :=
  let ms := s.members c
  if (s.at c).hold.isSome then
    ms.foldl (fun s m => (s.paceCopies m).modAt m fun k => k.heldTime (s.quad (quadOf m)).period) s
  else
    let drops := ms.filter fun m => (s.at m).ctx.effs.any fun e => e.drops && e.due == (s.at m).now
    { s with agenda := eventOn drops .cpResultDrop ++ [(coreFin c, .check)] }

/-- The least of some times and t. -/
def minOf (t : Nat) (l : List Nat) : Nat := l.foldl min t

/-- Times at which a port's training ends, or its limit is reached (R354). -/
def Port.times (p : Port) : List Nat :=
  match p.since with
  | some t => if p.up then [p.back, t + portLimit] else []
  | none => []

/-- The next moment at which anything is due: an outside event, a tick, an interval, the start of a cycle, a write or a
landing outside its gang, the end of a load, a port. -/
def State.nextTime (s : State) : Nat :=
  minOf (min s.tickAt s.intervalAt) ((s.sched.take 1).map Prod.fst ++ (s.clocked.map fun c => (s.at c).nextCyc)
    ++ (s.outWrites.map OutWrite.due ++ s.outLands.map OutLand.due ++ s.hbm.map Copy.ready
      ++ (s.cores.toList.filterMap fun k => if k.hst == 2 then k.task.map Task.rampFrom else none)
      ++ s.ports.flatMap Port.times).filter fun t => decide (s.time < t))

/-- What comes at the present time beside ticks, intervals and outside events: a write of `sy.mtsr` to a register outside
its core; a landing of rank 6; work outside logical time; the opening of intake. -/
def State.presentWork (s : State) : Option Out :=
  match firstIdx (fun _ (w : OutWrite) => decide (w.due ≤ s.time)) s.outWrites with
  | some k => some (.next (s.outWrite k))
  | none =>
    match s.nextLanding with
    | some (c, .inl k) => some (exec (.hbmCopyLand k) { s with cur := coreFin c })
    | some (_, .inr k) => some (.next (s.outLand k))
    | none =>
      match s.outside with
      | some (c, i) => some (exec i { s with cur := c })
      | none => if s.opens then some (.next { s with intake := true }) else none

/-- Time goes on to the next moment; the report entries of a WTC instant are written before it is over (R313). -/
def State.pass (s : State) : State :=
  if s.nextTime / Config.unitsPerNs ≠ s.wtc ∧ s.reps.isEmpty = false then s.putReps else { s with time := s.nextTime }

/-- The step of a machine with an empty agenda: a tick; an interval; an outside event that has come; what comes at the
present time; the start of a gang's cycle; else time goes on. Ticks come first, for what meets a tick at its boundary
counts as later (R353). -/
def idleStep (s : State) : Out :=
  let rest (s : State) : Out :=
    match s.presentWork with
    | some o => o
    | none =>
      match s.clocked.find? fun c => decide ((s.at c).nextCyc ≤ s.time) with
      | some c => .next (startCycle s c)
      | none => .next s.pass
  if s.tickAt ≤ s.time then .next { s with agenda := tickActs s }
  else if s.intervalAt ≤ s.time then .next { s with agenda := intervalActs s }
  else match s.sched with
  | (t, c, i) :: r =>
    if t ≤ s.time then
      let s := { s with sched := r, cur := c }
      if ofFirmware i && !s.fwRuns then .next s else exec i s
    else rest s
  | [] => rest s

/-! Placing one instruction where the next issue takes it. -/

/-- The 32-bit words of an instruction whose bits are w, zero words behind them. -/
def tableWords (nbits w : Nat) : List W32 := (List.range maxWords).map fun k => BitVec.ofNat 32 ((w % 2 ^ nbits) / 2 ^ (32 * k))

/-- Words at the head of a queue, present and due at cycle now. -/
def placedQueue (ws : List W32) (now : Nat) : Queue :=
  ⟨now, ws.mapIdx fun k w => ⟨w, 4 * k, 0, if k = 0 && (isStamped w || isTimed w) then some now else none⟩⟩

end Sys2Proof.Machine
end

