-- ==== Sys2Proof/Machine/Step.lean ====
section
/-! DEFINITION. One step of the machine, and the placing of an instruction at its next issue. -/

namespace Sys2Proof.Machine

/-- One step: the first entry of the agenda, or what comes next where it is empty. -/
def step (s : State) : Host.Outcome State Fault Refusal :=
  match s.agenda with
  | a :: r => doAct { s with agenda := r } a
  | [] => idleStep s

/-- s with an instruction at the head of its engine's queue on the current core, due in the present cycle, and that
issue first on the agenda (log entry 1). -/
def State.withFetchWord (s : State) (nbits w : Nat) : State :=
  let ws := tableWords nbits w
  let e := engOf (ws.getD 0 0#32)
  { s.modCtx fun x => x.setQ e.toNat (placedQueue ws s.core.now) with agenda := [(s.cur, .issue e)] }

end Sys2Proof.Machine
end

