-- ==== Sys2Proof/Safety.lean ====
section
/-! DEFINITION. What counts as a safe run, in the terms the claims use: the properties that a state may have, that
reset has, and that steps keep. -/

namespace Sys2Proof.Machine

/-- The local memories of a core are in canonical form. -/
def Core.memOk (c : Core) : Prop :=
  Memory.wf c.lm = true ∧ Memory.wf c.imem = true ∧ Memory.wf c.gcs = true ∧ Memory.wf c.simem = true
  ∧ Memory.wf c.slm = true ∧ Memory.wf c.ctx.spm = true

/-- Every memory of the machine is in canonical form. -/
def State.canon (s : State) : Prop := Memory.wf s.gmem = true ∧ ∀ c, (s.at c).memOk

/-- The bounds that the board straps set hold of the governor's registers (R334); a repeatable-mode change that waits
touches no other field of LSG_CTL. -/
def Gov.strapped (g : Gov) : Prop :=
  1 ≤ g.up.toNat ∧ g.up.toNat ≤ Config.strapUp ∧ 1 ≤ g.dn.toNat ∧ g.dn.toNat ≤ Config.strapDn
  ∧ g.plim ≤ Config.strapPmax ∧ 1 ≤ g.cstep ∧ g.pinrsv ≤ g.up.toNat - 4 * g.cstep
  ∧ ∀ v, g.next = some v → v &&& ~~~(maskOf 16 10) = 0#64

/-- The fields of a partition that only firmware, or a reset of the partition, writes (R303, R343, R346). -/
def Part.share (p : Part) : Part :=
  { p with lncHead := 0#32, lncTail := 0#32, lncDrop := 0#32, ce := 0#64, ue := 0#64 }

/-- What only firmware's own port, an outside agent or a reset of the module writes: the envelopes, LSG_CTL and PWR_CAP
(R339), the partitions' shares (R343), the event ring's place (R348), the scrub period (R350), the flash and identity
registers (R357, R358), the repair map (R361), RHS_CTL (R362), the partitions of the Ultra Ethernet ports (R363). -/
structure Firm where
  up : W16
  dn : W16
  ctl : W64
  next : Option W64
  cap : W64
  shares : Vector Part 16
  mgtEvq : W64
  rasScrub : W16
  sigNext : BitVec 21
  minVersion : W32
  fwVersion : W32
  fwImage : List Byte
  fwSig : List Byte
  fwRuns : Bool
  records : List ConfigRecord
  recovery : Bool
  repair : List RepairEntry
  idnSerial : W64
  idnPod : W64
  rhsCtl : W64
  uePart : List (BitVec 4)
  deriving DecidableEq, Repr

/-- That part of a state. -/
def State.firm (s : State) : Firm :=
  { up := s.gov.up, dn := s.gov.dn, ctl := s.gov.ctl, next := s.gov.next, cap := s.gov.cap
    shares := s.parts.map Part.share, mgtEvq := s.mgtEvq, rasScrub := s.rasScrub, sigNext := s.sigNext
    minVersion := s.minVersion, fwVersion := s.fwVersion, fwImage := s.fwImage, fwSig := s.fwSig, fwRuns := s.fwRuns, records := s.records
    recovery := s.recovery, repair := s.repair, idnSerial := s.idnSerial, idnPod := s.idnPod, rhsCtl := s.rhsCtl
    uePart := s.uePart }

/-- What a step of a program keeps: what only firmware writes, and the canonical form of every memory. -/
structure Kept (s t : State) : Prop where
  firm : t.firm = s.firm
  canon : s.canon → t.canon

/-- A run goes on: no step of it ends in a fault or a refusal. -/
def Runs : Nat → State → Prop
  | 0, _ => True
  | n + 1, s => ∃ t, step s = .next t ∧ Runs n t

end Sys2Proof.Machine
end

