-- ==== Sys2Proof/Certificates/Slice0/Obligations.lean ====
section
/-! DEFINITION. The statements for the provers, family by family, in the order of the opcode table; before each family
the vocabulary its statements share. -/

namespace Sys2Proof.Claims
open Sys2Proof Sys2Proof.Machine

/-! Frames. -/

/-- Reading any byte of memory gives after what it gave before: home memory, and of each core its LM at either
privilege, IMEM, GCS, SIMEM, SLM and SPM. -/
def SameBytes (s t : State) : Prop :=
  (∀ pa, t.homeByte pa = s.homeByte pa) ∧
  ∀ c a, (∀ u, (t.at c).lmRead u a = (s.at c).lmRead u a) ∧ memRead (t.at c).imem a = memRead (s.at c).imem a
    ∧ memRead (t.at c).gcs a = memRead (s.at c).gcs a ∧ memRead (t.at c).simem a = memRead (s.at c).simem a
    ∧ memRead (t.at c).slm a = memRead (s.at c).slm a ∧ memRead (t.at c).ctx.spm a = memRead (s.at c).ctx.spm a

/-- t is s but for the parts of the current core's context that f puts back; no byte of memory differs. -/
def SameButCtx (s t : State) (f : Ctx → Ctx → Ctx) : Prop := t.modCtx (f s.core.ctx) = s ∧ SameBytes s t

/-- The current core is a gang of its own. -/
def Alone (s : State) : Prop := s.core.gsize = 1 ∧ s.core.gbase = s.cur.val

/-- The word at the head of queue e has issued (R84, R92): it and its literals are gone, NI is the issue cycle plus occ
plus idle, every other queue stands. -/
def Popped (s t : State) (e occ : Nat) (idle : BitVec 4) : Prop :=
  t.core.ctx.qs = s.core.ctx.qs.set e ⟨s.core.now + occ + idle.toNat, popInstr (s.core.ctx.q e).es⟩

/-- The word takes a stop at its issue: nothing of the word but the stop, which names its class, its engine, the word's
address and `detail` (R279, R283). -/
def StopsAtIssue (s : State) (w : Instr) (e : Nat) (cls : StopClass) (detail : Option Nat) : Prop :=
  ∃ k, exec w s = .next (takeStop s k [] false 0xFFFF#16 none) ∧ k.cls = cls ∧ k.eng = e
    ∧ k.waddr = s.core.ctx.headAddr e ∧ ∀ d, detail = some d → k.detail = d

/-! Control processor. -/

/-- A CP word with idle field `idle` has issued and put effect e in flight, and done nothing else (R97, R99, R100). -/
def CpStarted (s t : State) (idle : BitVec 4) (e : CpEff) : Prop :=
  Popped s t 0 1 idle ∧ t.core.ctx.effs = s.core.ctx.effs ++ [e]
  ∧ SameButCtx s t fun x y => { y with qs := x.qs, effs := x.effs }

/-- A value that drops into the result queue `lat` cycles after its word's issue, here the present cycle. -/
def dropIn (s : State) (lat : Nat) (v : W64) : CpEff :=
  { kind := .drop, data := v, due := s.core.now + lat, issue := s.core.now }

/-- One if the relation holds, else zero. -/
def one (p : Prop) [Decidable p] : Int := if p then 1 else 0

/-- What a CP word computes (R99-R105, R121): idle field, latency, exact result, of which 64 bits are kept. -/
def cpResult (s : State) : Instr → Option (BitVec 4 × Nat × Int)
  | .cpAdd i a b => some (i, 1, (s.src a).toNat + (s.src b).toNat)
  | .cpSub i a b => some (i, 1, (s.src a).toNat - (s.src b).toNat)
  | .cpMul i a b => some (i, 3, (s.src a).toNat * (s.src b).toNat)
  | .cpMulh i a b => some (i, 3, (s.src a).toInt * (s.src b).toInt / 2 ^ 64)
  | .cpAnd i a b => some (i, 1, ((s.src a).toNat &&& (s.src b).toNat : Nat))
  | .cpOr i a b => some (i, 1, ((s.src a).toNat ||| (s.src b).toNat : Nat))
  | .cpXor i a b => some (i, 1, ((s.src a).toNat ^^^ (s.src b).toNat : Nat))
  | .cpAndn i a b => some (i, 1, ((s.src a).toNat &&& (2 ^ 64 - 1 - (s.src b).toNat) : Nat))
  | .cpShl i a b => some (i, 1, (s.src a).toNat * 2 ^ ((s.src b).toNat % 64))
  | .cpShr i a b => some (i, 1, (s.src a).toNat / 2 ^ ((s.src b).toNat % 64))
  | .cpSar i a b => some (i, 1, (s.src a).toInt / 2 ^ ((s.src b).toNat % 64))
  | .cpMin i a b => some (i, 1, min (s.src a).toInt (s.src b).toInt)
  | .cpMax i a b => some (i, 1, max (s.src a).toInt (s.src b).toInt)
  | .cpAddi i a m => some (i, 1, (s.src a).toNat + m.toInt)
  | .cpAndi i a m => some (i, 1, ((s.src a).toNat &&& (m.toInt % 2 ^ 64).toNat : Nat))
  | .cpOri i a m => some (i, 1, ((s.src a).toNat ||| (m.toInt % 2 ^ 64).toNat : Nat))
  | .cpXori i a m => some (i, 1, ((s.src a).toNat ^^^ (m.toInt % 2 ^ 64).toNat : Nat))
  | .cpShli i a m => some (i, 1, (s.src a).toNat * 2 ^ m.toNat)
  | .cpShri i a m => some (i, 1, (s.src a).toNat / 2 ^ m.toNat)
  | .cpSari i a m => some (i, 1, (s.src a).toInt / 2 ^ m.toNat)
  | .cpLim i m => some (i, 1, m.toInt)
  | .cpLimx i h v => some (i, 1, h.toNat * 2 ^ 58 + v.toNat)
  | .cpCeq i a b => some (i, 1, one ((s.src a).toNat = (s.src b).toNat))
  | .cpCne i a b => some (i, 1, one ((s.src a).toNat ≠ (s.src b).toNat))
  | .cpClt i a b => some (i, 1, one ((s.src a).toInt < (s.src b).toInt))
  | .cpCle i a b => some (i, 1, one ((s.src a).toInt ≤ (s.src b).toInt))
  | .cpCltu i a b => some (i, 1, one ((s.src a).toNat < (s.src b).toNat))
  | .cpCleu i a b => some (i, 1, one ((s.src a).toNat ≤ (s.src b).toNat))
  | .cpCeqi i a m => some (i, 1, one ((s.src a).toInt = m.toInt))
  | .cpClti i a m => some (i, 1, one ((s.src a).toInt < m.toInt))
  | .cpSel i a b c => some (i, 1, if (s.src a).toNat ≠ 0 then (s.src b).toNat else (s.src c).toNat)
  | .cpRdlcc i => some (i, 1, s.core.now)
  | .cpRdwtc i => some (i, 1, (s.time / Config.unitsPerNs : Nat))
  | .cpRdhdc i => some (i, 1, s.core.hdc.toNat)
  | .cpRdflag i => some (i, 1, s.core.ctx.sticky.toNat)
  | _ => none

/-- The control words of the splitter: the splitter halts and resumes two cycles later at position p; `land`: the
word there must be marked (R87, R89). -/
def Sent (s t : State) (idle : BitVec 4) (p : Nat) (land : Bool) : Prop :=
  Popped s t 0 1 idle ∧ t.core.ctx.spl = { s.core.ctx.spl with
    next := p, halted := true, resumeAt := some (s.core.now + 2), landing := land, line := none }

/-- A taken branch to p (R120): the levels from the top whose address range does not hold p are gone, no other. -/
def BranchTaken (s t : State) (idle : BitVec 4) (p : Nat) : Prop :=
  Sent s t idle p true ∧ (∃ gone, s.core.ctx.loops = gone ++ t.core.ctx.loops
    ∧ (∀ l ∈ gone, ¬(l.first ≤ p ∧ p ≤ l.last)) ∧ ∀ l ∈ t.core.ctx.loops.head?, l.first ≤ p ∧ p ≤ l.last)
  ∧ SameButCtx s t fun x y => { y with qs := x.qs, spl := x.spl, loops := x.loops }

/-- The position n words after p, headers skipped (R86). -/
def wordsOn : Nat → Nat → Nat
  | 0, p => p
  | n + 1, p => wordsOn n (nextPos p)

/-- What a plain load reads (R109): idle field, effective address, size, whether the value is extended by its sign. -/
def cpLoad (s : State) : Instr → Option (BitVec 4 × Int × Nat × Bool)
  | .cpLd8 i a m => some (i, (s.src a).toNat + m.toInt, 1, false)
  | .cpLd8s i a m => some (i, (s.src a).toNat + m.toInt, 1, true)
  | .cpLd16 i a m => some (i, (s.src a).toNat + m.toInt, 2, false)
  | .cpLd16s i a m => some (i, (s.src a).toNat + m.toInt, 2, true)
  | .cpLd32 i a m => some (i, (s.src a).toNat + m.toInt, 4, false)
  | .cpLd32s i a m => some (i, (s.src a).toNat + m.toInt, 4, true)
  | .cpLd64 i a m => some (i, (s.src a).toNat + m.toInt, 8, false)
  | _ => none

/-- What a store writes (R110): idle field, effective address, size, source of the data. -/
def cpStore (s : State) : Instr → Option (BitVec 4 × Int × Nat × W64)
  | .cpSt8 i a b m => some (i, (s.src a).toNat + m.toInt, 1, s.src b)
  | .cpSt16 i a b m => some (i, (s.src a).toNat + m.toInt * 2, 2, s.src b)
  | .cpSt32 i a b m => some (i, (s.src a).toNat + m.toInt * 4, 4, s.src b)
  | .cpSt64 i a b m => some (i, (s.src a).toNat + m.toInt * 8, 8, s.src b)
  | _ => none

/-- The checks of R108 pass: the address lies below the granted LM size and is a multiple of the access size. -/
def LmOk (s : State) (ea : Int) (size : Nat) : Prop := 0 ≤ ea ∧ ea < s.core.lmGrant ∧ ea % size = 0

/-- The little-endian number that n bytes of the current core's LM hold. -/
def lmNat (s : State) (a : Nat) : Nat → Nat
  | 0 => 0
  | n + 1 => (s.core.lmRead s.core.ctx.sup a).toNat + 256 * lmNat s (a + 1) n

/-- A number of n bytes taken as signed. -/
def signed (n : Nat) (v : Nat) : Int := if 2 * v < 256 ^ n then v else (v : Int) - 256 ^ n

/-- The checks of R108 fail: the class, bounds before alignment. -/
def lmFault (s : State) (ea : Int) (size : Nat) : Option StopClass :=
  if ea < 0 ∨ (s.core.lmGrant : Int) ≤ ea then some .bounds else if ea % size ≠ 0 then some .alignment else none

/-- The LM accesses of the CP that R108 checks: effective address and size; a neighbour's gang index. -/
def cpAccess (s : State) (w : Instr) : Option (Int × Nat) :=
  match cpLoad s w, cpStore s w, w with
  | some (_, ea, n, _), _, _ => some (ea, n)
  | _, some (_, ea, n, _), _ => some (ea, n)
  | _, _, .cpLdt64 _ a _ m => some ((s.src a).toNat + m.toInt * 8, 8)
  | _, _, _ => none

/-- Whether a CP effect of the current core stores to byte a of LM of core c (R110, R114). -/
def StoresTo (s : State) (e : CpEff) (c a : Nat) : Prop :=
  a < 0x200000 ∧ ((e.kind = .store ∧ c = s.cur.val ∧ e.addr ≤ a ∧ a < e.addr + e.size)
    ∨ (e.kind = .nstore ∧ c = s.core.gbase + e.q ∧ e.addr ≤ a ∧ a < e.addr + 8))

/-- Whether a CP effect of the current core sets the tag of granule g of core c (R113). -/
def TagsGranule (s : State) (e : CpEff) (c g : Nat) : Prop :=
  e.kind = .tagw ∧ c = s.cur.val ∧ e.addr / 4096 = g

/-- In a list e is the last for which P holds. -/
def LastOf {α : Type} (l : List α) (P : α → Prop) (e : α) : Prop :=
  ∃ pre post, l = pre ++ e :: post ∧ P e ∧ ∀ f ∈ post, ¬P f

end Sys2Proof.Claims

open Sys2Proof Sys2Proof.Machine Sys2Proof.Claims

/-- R85: the words common to all engines do nothing but issue; `wait` occupies its queue n cycles. A word that waits at
the head of the BTE or SYN queue leaves no record. -/
def Obligations.CommonWordsOnlyIssue : Prop :=
  ∀ (s : State) (e : BitVec 3) (idle : BitVec 4) (n : BitVec 18) (t : Lit),
    ∀ p ∈ [(Instr.cpNop e idle, 1), (.wait e idle n, n.toNat), (.untilStamp e idle t, 1)],
    ∃ u, exec p.1 s = .next u ∧ Popped s u e.toNat p.2 idle
      ∧ u.core.ctx.pend5 = (if e = 5#3 then Pend.reset else s.core.ctx.pend5)
      ∧ u.core.ctx.pend6 = (if e = 6#3 then Pend.reset else s.core.ctx.pend6)
      ∧ SameButCtx s u fun x y => { y with qs := x.qs, pend5 := x.pend5, pend6 := x.pend6 }

/-- R99-R105, R121: each arithmetic, logic, shift, compare, select and read word of the CP puts one result in flight, the
low 64 bits of its exact value, at its latency; it sets no flag and has no other effect. -/
def Obligations.CpResults : Prop :=
  ∀ (s : State) (w : Instr) idle lat v, cpResult s w = some (idle, lat, v) →
    ∃ t d, exec w s = .next t ∧ ((d : W64).toNat : Int) = v % 2 ^ 64 ∧ CpStarted s t idle (dropIn s lat d)

/-- R98, R106, R107, R121, R61: `cp.put` writes one named register, `cp.spill` the eight bytes of its slot,
`cp.fill` reads them, `cp.clrflag` clears the flags of its mask; each has no other effect. -/
def Obligations.CpPutSpillFillClear : Prop :=
  (∀ (s : State) idle (k : BitVec 4) a, ∃ t, exec (.cpPut idle k a) s = .next t ∧ Popped s t 0 1 idle
    ∧ t.core.ctx.n = s.core.ctx.n.set k.toNat (s.src a) ∧ SameButCtx s t fun x y => { y with qs := x.qs, n := x.n })
  ∧ (∀ (s : State) idle (m : Byte), ∃ t, exec (.cpClrflag idle m) s = .next t ∧ Popped s t 0 1 idle
    ∧ (∀ k, t.core.ctx.sticky.getLsbD k = (s.core.ctx.sticky.getLsbD k && !m.getLsbD k))
    ∧ SameButCtx s t fun x y => { y with qs := x.qs, sticky := x.sticky })
  ∧ (∀ (s : State) idle a (k : BitVec 9), s.canon → 8 * k.toNat + 8 ≤ s.core.spmGrant →
    ∃ t, exec (.cpSpill idle a k) s = .next t ∧ Popped s t 0 1 idle
      ∧ (∀ j < 8, (memRead t.core.ctx.spm (8 * k.toNat + j)).toNat = (s.src a).toNat / 256 ^ j % 256)
      ∧ (∀ j, j < 8 * k.toNat ∨ 8 * k.toNat + 8 ≤ j → memRead t.core.ctx.spm j = memRead s.core.ctx.spm j)
      ∧ SameBytes s (t.modCtx fun x => { x with spm := s.core.ctx.spm })
      ∧ (t.modCtx fun x => { x with qs := s.core.ctx.qs, spm := s.core.ctx.spm }) = s)
  ∧ (∀ (s : State) idle (k : BitVec 9), 8 * k.toNat + 8 ≤ s.core.spmGrant →
    ∃ t d, exec (.cpFill idle k) s = .next t ∧ CpStarted s t idle (dropIn s 1 d)
      ∧ ∀ j < 8, d.toNat / 256 ^ j % 256 = (memRead s.core.ctx.spm (8 * k.toNat + j)).toNat)
  ∧ (∀ (s : State) idle a (k : BitVec 9), s.core.spmGrant < 8 * k.toNat + 8 →
    StopsAtIssue s (.cpSpill idle a k) 0 .bounds (some (8 * k.toNat))
    ∧ StopsAtIssue s (.cpFill idle k) 0 .bounds (some (8 * k.toNat)))

/-- R108-R110: a plain load whose address passes the checks drops, four cycles later, the little-endian value of the bytes as
they stand, extended as its form says; a store puts its bytes in flight, to land two cycles later, and writes nothing at
its issue; an access at or beyond the granted LM size takes a bounds fault, else one that is not aligned an alignment
fault, with no effect of the word. That an address below zero is a bounds fault, with the low 64 bits of the sum as its
DETAIL, is the model's choice (log entry 19). -/
def Obligations.CpLoadsAndStores : Prop :=
  (∀ (s : State) (w : Instr) idle ea size sgn, cpLoad s w = some (idle, ea, size, sgn) → LmOk s ea size →
     ∃ t d, exec w s = .next t ∧ CpStarted s t idle (dropIn s 4 d)
       ∧ ((d : W64).toNat : Int) = (if sgn then signed size (lmNat s ea.toNat size) else lmNat s ea.toNat size) % 2 ^ 64)
  ∧ (∀ (s : State) (w : Instr) idle ea size v, cpStore s w = some (idle, ea, size, v) → LmOk s ea size →
       ∃ t, exec w s = .next t ∧ CpStarted s t idle
         { kind := .store, data := v, addr := ea.toNat, size := size, due := s.core.now + 2, issue := s.core.now })
  ∧ (∀ (s : State) (w : Instr) ea size cls, cpAccess s w = some (ea, size) → lmFault s ea size = some cls →
       StopsAtIssue s w 0 cls (some (ea % 2 ^ 64).toNat))

/-- R112-R114: after R108's checks `cp.ldt64` compares the granule's tag: on a match it acts as `cp.ld64`, on a mismatch it
takes a schedule fault in strict mode and else holds the gang, with nothing read. `cp.tagw`, `cp.nst64` and `cp.nld64` put
their access in flight with the spec's timing, `cp.tagr` drops the granule's tag; each stops with a bounds fault where the
spec says so, the neighbour index first. An address below zero lies outside (the model's choice, log entry 19). -/
def Obligations.CpTagsAndNeighbours : Prop :=
  (∀ (s : State) idle a b (m : BitVec 8), let ea := ((s.src a).toNat : Int) + m.toInt * 8
     let g := ea.toNat / 4096
     let want : W16 := (s.src b).setWidth 16
     let got := s.core.tag s.core.ctx.sup g
     let strict := (s.core.task.map Task.strict).getD false
     LmOk s ea 8 →
     (got = want → got ≠ 0xFFFF#16 → ∃ t d, exec (.cpLdt64 idle a b m) s = .next t
       ∧ CpStarted s t idle (dropIn s 4 d) ∧ (d : W64).toNat = lmNat s ea.toNat 8)
     ∧ (got ≠ want → got ≠ 0xFFFF#16 → strict = true →
       StopsAtIssue s (.cpLdt64 idle a b m) 0 .schedule (some (g * 65536 + want.toNat)))
     ∧ (got ≠ want → got ≠ 0xFFFF#16 → strict = false →
       exec (.cpLdt64 idle a b m) s = .next (addHold s (.tag s.cur.val s.core.ctx.sup g want 0 1))))
  ∧ (∀ (s : State) (idle : BitVec 4) (a b : BitVec 5) (q : BitVec 2),
       (let g := (s.src a).toNat / 4096
        (g * 4096 < s.core.lmGrant → (∃ t, exec (.cpTagw idle a b) s = .next t ∧ CpStarted s t idle
             { kind := .tagw, data := (s.src b) &&& 0xFFFF#64, addr := (s.src a).toNat, due := s.core.now + 2,
               issue := s.core.now })
           ∧ ∃ t d, exec (.cpTagr idle a) s = .next t ∧ CpStarted s t idle (dropIn s 4 d)
             ∧ (d : W64).toNat = (s.core.tag s.core.ctx.sup g).toNat)
        ∧ (s.core.lmGrant ≤ g * 4096 → StopsAtIssue s (.cpTagw idle a b) 0 .bounds (some (s.src a).toNat)
           ∧ StopsAtIssue s (.cpTagr idle a) 0 .bounds (some (s.src a).toNat)))
       ∧ (let ea := (s.src a).toNat
          (q.toNat < s.core.gsize → LmOk s ea 8 →
             (∃ t, exec (.cpNld64 idle a q) s = .next t ∧ CpStarted s t idle
               { kind := .nload, data := 0#64, addr := ea, q := q.toNat, due := s.core.now + 12, issue := s.core.now })
             ∧ ∃ t, exec (.cpNst64 idle a b q) s = .next t ∧ CpStarted s t idle
               { kind := .nstore, data := s.src b, addr := ea, q := q.toNat, due := s.core.now + 6, issue := s.core.now })
          ∧ (s.core.gsize ≤ q.toNat → StopsAtIssue s (.cpNld64 idle a q) 0 .bounds (some ea)
             ∧ StopsAtIssue s (.cpNst64 idle a b q) 0 .bounds (some ea))
          ∧ (q.toNat < s.core.gsize → ∀ cls, lmFault s ea 8 = some cls →
             StopsAtIssue s (.cpNld64 idle a q) 0 cls (some ea) ∧ StopsAtIssue s (.cpNst64 idle a b q) 0 cls (some ea))))

/-- R116, R117, R120: a taken branch sends the splitter to its target and leaves the loop levels that do not hold it; one not
taken sends it to the next word; a computed target above bit 13 is a control-flow fault. A call pushes the word after it
and transfers, a return pops the top entry and transfers to it, the loop stack standing; a call with eight entries and a
return with none are control-flow faults. -/
def Obligations.CpTransfers : Prop :=
  (∀ (s : State) (idle : BitVec 4) (l : BitVec 14) (k : BitVec 4) (a : BitVec 5),
     let zero := s.core.ctx.rq.getD k.toNat 0#64 = 0#64
     let next (w : Instr) : Prop := ∃ t, exec w s = .next t ∧ Sent s t idle (nextPos (s.core.ctx.headAddr 0 / 4)) false
       ∧ SameButCtx s t fun x y => { y with qs := x.qs, spl := x.spl }
     let takes (w : Instr) (p : Nat) : Prop := ∃ t, exec w s = .next t ∧ BranchTaken s t idle p
     takes (.cpBr idle l) l.toNat
     ∧ (zero → takes (.cpBz idle k l) l.toNat ∧ next (.cpBnz idle k l))
     ∧ (¬zero → takes (.cpBnz idle k l) l.toNat ∧ next (.cpBz idle k l))
     ∧ ((s.src a).toNat < 2 ^ 14 → takes (.cpBrx idle a) (s.src a).toNat)
     ∧ (2 ^ 14 ≤ (s.src a).toNat → StopsAtIssue s (.cpBrx idle a) 0 .controlFlow none
       ∧ StopsAtIssue s (.cpCallx idle a) 0 .controlFlow none))
  ∧ (∀ (s : State) (idle : BitVec 4) (l : BitVec 14) (a : BitVec 5),
       let calls (w : Instr) (p : Nat) : Prop := ∃ t, exec w s = .next t ∧ Sent s t idle p true
         ∧ t.core.ctx.ret = nextPos (s.core.ctx.headAddr 0 / 4) :: s.core.ctx.ret
         ∧ SameButCtx s t fun x y => { y with qs := x.qs, spl := x.spl, ret := x.ret }
       (s.core.ctx.ret.length < 8 → calls (.cpCall idle l) l.toNat
         ∧ ((s.src a).toNat < 2 ^ 14 → calls (.cpCallx idle a) (s.src a).toNat))
       ∧ (8 ≤ s.core.ctx.ret.length → StopsAtIssue s (.cpCall idle l) 0 .controlFlow none
         ∧ StopsAtIssue s (.cpCallx idle a) 0 .controlFlow none)
       ∧ (∀ p r, s.core.ctx.ret = p :: r → ∃ t, exec (.cpRet idle) s = .next t ∧ Sent s t idle p true
         ∧ t.core.ctx.ret = r ∧ SameButCtx s t fun x y => { y with qs := x.qs, spl := x.spl, ret := x.ret })
       ∧ (s.core.ctx.ret = [] → StopsAtIssue s (.cpRet idle) 0 .controlFlow none))

/-- R118: with fewer than four levels a count above zero pushes a level whose body is the D words after the literal,
headers skipped, and sends the splitter to its first word, whose mark is not tested; a count of zero sends it to the
word after the body; with four levels the word takes a control-flow fault. Positions count 32 words a line, of which the
first is a header. -/
def Obligations.CpLoop : Prop :=
  ∀ (s : State) (idle : BitVec 4) (a : BitVec 5) (d : BitVec 13) (p : Lit),
    let count := (s.src a).toNat % 2 ^ 32
    let first := nextPos (nextPos (s.core.ctx.headAddr 0 / 4))
    let same (t : State) : Prop := SameButCtx s t fun x y => { y with qs := x.qs, spl := x.spl, loops := x.loops }
    (s.core.ctx.loops.length < 4 → 0 < count → d ≠ 0#13 →
      ∃ t, exec (.cpLoop idle a d p) s = .next t ∧ Sent s t idle first false
        ∧ t.core.ctx.loops = ⟨first, wordsOn (d.toNat - 1) first, count, 0, p.toNat⟩ :: s.core.ctx.loops ∧ same t)
    ∧ (s.core.ctx.loops.length < 4 → count = 0 →
      ∃ t, exec (.cpLoop idle a d p) s = .next t ∧ Sent s t idle (wordsOn d.toNat first) true
        ∧ t.core.ctx.loops = s.core.ctx.loops ∧ same t)
    ∧ (4 ≤ s.core.ctx.loops.length → StopsAtIssue s (.cpLoop idle a d p) 0 .controlFlow none)

/-- R97, R114: the results due drop at the start of the cycle, the latest issued on top, each value already in the queue as
many positions back as results drop. A neighbour load reads, six cycles after its issue, the eight bytes of its target
core; the value drops at issue + 12. Neither changes anything else. -/
def Obligations.CpResultsArrive : Prop :=
  (∀ s : State,
     let due := s.core.ctx.effs.filter fun e => (e.kind == .drop || e.kind == .nread) && e.due == s.core.now
     ∃ t, exec .cpResultDrop s = .next t
       ∧ (∀ k < 16, t.core.ctx.rq.getD k 0#64 = ((due.map CpEff.data).reverse ++ s.core.ctx.rq).getD k 0#64)
       ∧ t.core.ctx.effs = (s.core.ctx.effs.filter fun e => !((e.kind == .drop || e.kind == .nread) && e.due == s.core.now))
       ∧ SameButCtx s t fun x y => { y with rq := x.rq, effs := x.effs, dropped := x.dropped })
  ∧ (∀ s : State, ∃ t, exec .neighbourLoadRead s = .next t ∧ t.core.ctx.effs.length = s.core.ctx.effs.length
       ∧ (∀ (k : Nat) (e : CpEff), s.core.ctx.effs[k]? = some e → ∃ f : CpEff, t.core.ctx.effs[k]? = some f
         ∧ (¬(e.kind = .nload ∧ e.due = s.core.now + 6) → f = e)
         ∧ (e.kind = .nload → e.due = s.core.now + 6 → f.kind = .nread ∧ f.due = e.due ∧ f.issue = e.issue
           ∧ ∀ j < 8, f.data.toNat / 256 ^ j % 256
               = ((s.at (s.core.gbase + e.q)).lmRead s.core.ctx.sup (e.addr + j)).toNat))
       ∧ SameButCtx s t fun x y => { y with effs := x.effs })

/-- R110, R113, R114: at the end of a cycle the due stores and tag writes land in the order of issue: a byte or a
granule takes what the last of them that reaches it carries, every other keeps its value, and a store changes no tag. The
order of issue among stores of one core on one byte is the model's choice (log entry 21). -/
def Obligations.CpStoresLand : Prop :=
  ∀ s : State, s.canon →
    let isDue (e : CpEff) : Bool := (e.kind == .store || e.kind == .tagw || e.kind == .nstore) && e.due == s.core.now
    let due := s.core.ctx.effs.filter isDue
    let sup := s.core.ctx.sup
    ∃ t, exec .cpStoreLand s = .next t
      ∧ t.core.ctx.effs = (s.core.ctx.effs.filter fun e => !isDue e)
      ∧ (∀ c < 192, ∀ a, ((∀ e ∈ due, ¬StoresTo s e c a) → ∀ u, (t.at c).lmRead u a = (s.at c).lmRead u a)
        ∧ ∀ e, LastOf due (fun f => StoresTo s f c a) e →
            ((t.at c).lmRead sup a).toNat = e.data.toNat / 256 ^ (a - e.addr) % 256)
      ∧ (∀ c < 192, ∀ g < 512, ((∀ e ∈ due, ¬TagsGranule s e c g) → ∀ u, (t.at c).tag u g = (s.at c).tag u g)
        ∧ ∀ e, LastOf due (fun f => TagsGranule s f c g) e → (g < 508 ∨ sup = false ∨ (s.at c).slmTags.length = 4) →
            (t.at c).tag sup g = e.data.setWidth 16)
      ∧ t.gmem = s.gmem
      ∧ ∀ c, (t.at c).imem = (s.at c).imem ∧ (t.at c).gcs = (s.at c).gcs ∧ (t.at c).simem = (s.at c).simem
          ∧ (t.at c).ctx.spm = (s.at c).ctx.spm ∧ (t.at c).ctx.rq = (s.at c).ctx.rq ∧ (t.at c).ctx.n = (s.at c).ctx.n

namespace Sys2Proof.Claims

/-! Streams. -/

/-- t is s but for the parts of the current core that f puts back; no byte of memory differs. -/
def SameButCore (s t : State) (f : Core → Core → Core) : Prop := t.mod (f s.core) = s ∧ SameBytes s t

/-- What a configuration word of a streamer makes of the staging registers (R123, R124): engine, idle field, the new
staging registers. -/
def staged (s : State) : Instr → Option (Nat × BitVec 4 × Staging)
  | .ldBase i sp v => some (1, i, { s.core.ctx.ldS with space := sp, addr := v })
  | .ldDim i d c v => some (1, i, { s.core.ctx.ldS with
      counts := s.core.ctx.ldS.counts.set d.toNat c.toNat, strides := s.core.ctx.ldS.strides.set d.toNat v.toInt })
  | .ldFmt i f p h => some (1, i, { s.core.ctx.ldS with fmt := f, port := p, hint := h, rnd := 0#2 })
  | .ldTag i m t => some (1, i, { s.core.ctx.ldS with tagMode := m, tag := t })
  | .ldRate i n => some (1, i, { s.core.ctx.ldS with interval := n })
  | .stBase i sp v => some (2, i, { s.core.ctx.stS with space := sp, addr := v })
  | .stDim i d c v => some (2, i, { s.core.ctx.stS with
      counts := s.core.ctx.stS.counts.set d.toNat c.toNat, strides := s.core.ctx.stS.strides.set d.toNat v.toInt })
  | .stFmt i f p h m => some (2, i, { s.core.ctx.stS with fmt := f, port := p, hint := h, rnd := m })
  | .stTag i m t => some (2, i, { s.core.ctx.stS with tagMode := m, tag := t })
  | .stRate i n => some (2, i, { s.core.ctx.stS with interval := n })
  | _ => none

/-- The command faults of a start on a port (R127): its stream still runs, a tag mode in global space, a neighbour that
the gang does not have. -/
def StartFaults (s : State) (running : Bool) (st : Staging) : Prop :=
  running = true ∨ (st.space = 1#3 ∧ st.tagMode ≠ 0#2) ∨ (4 ≤ st.space.toNat ∧ s.core.gsize ≤ st.space.toNat - 4)

/-- The little-endian number of n bytes from address a on. -/
def numAt (rd : Nat → Byte) (a : Nat) : Nat → Nat
  | 0 => 0
  | n + 1 => (rd a).toNat + 256 * numAt rd (a + 1) n

/-- Number of elements of a stream (R125): the product of its counts. -/
def elements (st : Staging) : Nat := st.counts.foldl (· * ·) 1

/-- Cycles from the read of a beat at its port's space to its delivery; for global space, from its request (R128). -/
def deliveryDelay (sp : BitVec 3) : Nat := if sp = 1#3 then 80 else if 4 ≤ sp.toNat then 6 else 4

/-- The read cycle of beat j of a stream started at cycle c (R128). -/
def readCycle (st : Staging) (c j : Nat) : Nat := c + j * st.interval.toNat + (if 4 ≤ st.space.toNat then 6 else 0)

/-- Whether a beat of load port p is due at its read cycle. -/
def BeatDue (s : State) (p : Nat) : Prop :=
  let y := s.core.ctx.ldP.getD p LdPort.reset
  y.running = true ∧ y.beat < y.st.beats ∧ readCycle y.st y.start y.beat = s.core.now

/-- The number of the core an LM space of a stream names. -/
def spaceTarget (s : State) (sp : BitVec 3) : Nat :=
  if 4 ≤ sp.toNat then s.core.gbase + (sp.toNat - 4) else s.core.gbase + (s.cur.val - s.core.gbase)

/-- The elements of the beat of load port p that is read next (R126): bytes each, first, how many. -/
def beatZ (s : State) (p : Nat) : Nat := elBytes (s.core.ctx.ldP.getD p LdPort.reset).st.fmt
def beatFirst (s : State) (p : Nat) : Nat := (s.core.ctx.ldP.getD p LdPort.reset).beat * (16 / beatZ s p)
def beatCount (s : State) (p : Nat) : Nat :=
  min (16 / beatZ s p) (elements (s.core.ctx.ldP.getD p LdPort.reset).st - beatFirst s p)
/-- Address of its element k (R125). -/
def beatAddr (s : State) (p k : Nat) : Int := (s.core.ctx.ldP.getD p LdPort.reset).st.elAddr (beatFirst s p + k)

/-- Element k of the beat lies in the granted LM, on a multiple of its size (R132). -/
def ElementOk (s : State) (p k : Nat) : Prop :=
  0 ≤ beatAddr s p k ∧ beatAddr s p k + beatZ s p ≤ s.core.lmGrant ∧ beatAddr s p k % beatZ s p = 0

/-- Granule g is checked with the beat (R131): the stream checks tags, an element lies in it, no earlier beat checked it. -/
def ChecksGranule (s : State) (p g : Nat) : Prop :=
  let y := s.core.ctx.ldP.getD p LdPort.reset
  y.st.tagMode ≠ 0#2 ∧ g ∉ y.checked ∧ ∃ k < beatCount s p, (beatAddr s p k).toNat / 4096 = g

/-- The tag that the space of load port p has at granule g. -/
def beatTag (s : State) (p g : Nat) : W16 :=
  (s.at (spaceTarget s (s.core.ctx.ldP.getD p LdPort.reset).st.space)).tag s.core.ctx.sup g

/-- An element value as a beat carries it: of FP19 the low 13 bits are zero (R50). -/
def beatValue (f : BitVec 5) (v : Nat) : Nat := if f = 2#5 then v / 2 ^ 13 * 2 ^ 13 else v

/-- The beat carries the values val k of its elements from bit 0 up, and zeros above (R126). -/
def Carries (s : State) (p : Nat) (b : W128) (val : Nat → Nat) : Prop :=
  let w := 8 * beatZ s p
  (∀ k < beatCount s p, b.toNat / 2 ^ (w * k) % 2 ^ w
    = beatValue (s.core.ctx.ldP.getD p LdPort.reset).st.fmt (val k)) ∧ b.toNat / 2 ^ (w * beatCount s p) = 0

/-- An address in the HBM share of partition p (R344). -/
def InShare (s : State) (p pa : Nat) : Prop :=
  let P := s.part p
  s.target pa = .hbm ∧ P.en = true ∧ P.hbm.toNat % 2 ^ 10 ≤ s.normPa pa / 2 ^ 30
    ∧ s.normPa pa / 2 ^ 30 < P.hbm.toNat / 2 ^ 16 % 2 ^ 10

/-- Leaf l lets the current core read (rd) or write (wr) the n bytes from va on, in its partition's HBM (R319, R320). -/
def Allows (s : State) (l : Leaf) (rd wr : Bool) (va n : Nat) : Prop :=
  (l.bits.getLsbD 5 = true → s.core.ctx.sup = true) ∧ (rd = true → l.bits.getLsbD 3 = true)
  ∧ (wr = true → l.bits.getLsbD 4 = true) ∧ l.va % 4096 = 0 ∧ l.pa % 4096 = 0 ∧ l.va ≤ va ∧ va + n ≤ l.va + l.size
  ∧ ∀ i < n, InShare s (s.partOf s.cur.val) (l.pa + (va - l.va) + i)

/-- The deliveries due in this cycle, with their ports. -/
def deliveriesDue (s : State) : List (Nat × Delivery) :=
  (List.range 8).flatMap fun q =>
    ((s.core.ctx.ldP.getD q LdPort.reset).dels.filter fun x => x.due == s.core.now).map fun x => (q, x)

/-- The store landings due in this cycle, the higher port first: the last prevails (R130, R235). -/
def landingsDue (s : State) : List StLand :=
  (List.range 8).reverse.flatMap fun p => (s.core.ctx.stP.getD p StPort.reset).lands.filter fun x => x.due == s.core.now

end Sys2Proof.Claims

/-- R123, R124: each configuration word of a streamer writes its staging register at its issue and nothing else. -/
def Obligations.StreamStagingWords : Prop :=
  ∀ (s : State) (w : Instr) e idle st, staged s w = some (e, idle, st) →
    ∃ t, exec w s = .next t ∧ Popped s t e 1 idle
      ∧ (e = 1 → t.core.ctx.ldS = st ∧ SameButCtx s t fun x y => { y with qs := x.qs, ldS := x.ldS })
      ∧ (e = 2 → t.core.ctx.stS = st ∧ SameButCtx s t fun x y => { y with qs := x.qs, stS := x.stS })

/-- R127, R128: a start copies the staging registers into the context of the staging port; a load stream of elements
runs, one without delivers its marker alone; deliveries and landings already in flight stay. Each of the three cases of
R127 is a command fault with none of this. -/
def Obligations.StreamStarts : Prop :=
  ∀ (s : State) (idle : BitVec 4) (at_ : When),
    (let st := s.core.ctx.ldS
     let old := s.core.ctx.ldP.getD st.port.toNat LdPort.reset
     ∀ w ∈ [Instr.ldStart idle, .ldStartTimed idle at_],
      (StartFaults s old.running st → StopsAtIssue s w 1 .command none)
      ∧ (¬StartFaults s old.running st → ∃ t y, exec w s = .next t ∧ Popped s t 1 1 idle
          ∧ t.core.ctx.ldP = s.core.ctx.ldP.set st.port.toNat y
          ∧ y.st = st ∧ y.start = s.core.now ∧ y.beat = 0 ∧ (y.running = true ↔ elements st ≠ 0)
          ∧ y.dels = old.dels ++ (if elements st = 0 then
              [⟨readCycle st s.core.now 0 + deliveryDelay st.space, none, true, false, 0, none, 0, false, false⟩] else [])
          ∧ SameButCtx s t fun x z => { z with qs := x.qs, ldP := x.ldP }))
    ∧ (let st := s.core.ctx.stS
       let old := s.core.ctx.stP.getD st.port.toNat StPort.reset
       ∀ w ∈ [Instr.stStart idle, .stStartTimed idle at_],
        (StartFaults s old.open_ st → StopsAtIssue s w 2 .command none)
        ∧ (¬StartFaults s old.open_ st → ∃ t y, exec w s = .next t ∧ Popped s t 2 1 idle
            ∧ t.core.ctx.stP = s.core.ctx.stP.set st.port.toNat y
            ∧ y.st = st ∧ y.start = s.core.now ∧ y.accepted = 0 ∧ (y.open_ = true ↔ elements st ≠ 0)
            ∧ y.lands = old.lands ∧ SameButCtx s t fun x z => { z with qs := x.qs, stP := x.stP }))

/-- R134: a stop ends the stream of the staging port: a load stream reads no further beat and delivers its marker alone
when a beat read now would arrive, a store stream accepts no further beat; what was read or accepted stays in flight. On
an idle port nothing but the issue happens. -/
def Obligations.StreamStops : Prop :=
  ∀ (s : State) (idle : BitVec 4),
    (let p := s.core.ctx.ldS.port.toNat
     let y := s.core.ctx.ldP.getD p LdPort.reset
     ∃ t, exec (.ldStop idle) s = .next t ∧ Popped s t 1 1 idle
       ∧ t.core.ctx.ldP = (if y.running then s.core.ctx.ldP.set p { y with
            running := false
            dels := y.dels ++ [⟨s.core.now + deliveryDelay y.st.space, none, true, false, 0, none, 0, false, false⟩] }
          else s.core.ctx.ldP.set p y)
       ∧ SameButCtx s t fun x z => { z with qs := x.qs, ldP := x.ldP })
    ∧ (let p := s.core.ctx.stS.port.toNat
       let y := s.core.ctx.stP.getD p StPort.reset
       ∃ t, exec (.stStop idle) s = .next t ∧ Popped s t 2 1 idle
         ∧ t.core.ctx.stP = s.core.ctx.stP.set p { y with open_ := false }
         ∧ SameButCtx s t fun x z => { z with qs := x.qs, stP := x.stP })

/-- R125, R126, R128, R131, R132: of every LM stream whose beat is due, if no prefetch is, the elements are read at their
addresses as they stand, each granule that the beat is the first to reach carrying the stream's tag: the delivery follows
after the space's delay with element k at bits w k of the beat, w its width; the next beat is one on, the granules are
checked; nothing else changes. An element outside the grant is a bounds fault, one off its size an alignment fault; a
granule with the error tag is a memory error, one with another tag holds the gang, or is a schedule fault in strict mode. -/
def Obligations.StreamBeatReadsLm : Prop :=
  ∀ s : State, s.core.ctx.ldP.length = 8 → (∀ q ∈ s.core.ctx.prefs, q.1 ≠ s.core.now) →
    (∀ p < 8, BeatDue s p → (s.core.ctx.ldP.getD p LdPort.reset).st.space ≠ 1#3) →
    let want (p : Nat) : W16 := (s.core.ctx.ldP.getD p LdPort.reset).st.tag
    ((∀ p < 8, BeatDue s p → (∀ k < beatCount s p, ElementOk s p k)
        ∧ ∀ g, ChecksGranule s p g → beatTag s p g = want p ∧ want p ≠ 0xFFFF#16) →
      ∃ t, exec .streamBeatRead s = .next t ∧ t.core.ctx.ldP.length = 8 ∧ SameButCtx s t (fun x v => { v with ldP := x.ldP })
        ∧ ∀ p < 8, let y := s.core.ctx.ldP.getD p LdPort.reset
          let z := t.core.ctx.ldP.getD p LdPort.reset
          (¬BeatDue s p → z = y)
          ∧ (BeatDue s p → ∃ b d, { z with checked := y.checked } = { y with
                beat := y.beat + 1, dels := y.dels ++ [d], leaf := none, run := none }
            ∧ (∀ g, g ∈ z.checked ↔ g ∈ y.checked ∨ ChecksGranule s p g)
            ∧ d.due = s.core.now + deliveryDelay y.st.space ∧ d.data = some b ∧ d.poison = false ∧ d.arrive = 0 ∧ d.glob = false ∧ d.far = false
            ∧ (d.last = true ↔ y.beat + 1 = y.st.beats)
            ∧ Carries s p b fun k =>
                numAt ((s.at (spaceTarget s y.st.space)).lmRead s.core.ctx.sup) (beatAddr s p k).toNat (beatZ s p)))
    ∧ ∀ p < 8, BeatDue s p → (∀ q < 8, q ≠ p → ¬BeatDue s q) →
      let stops (cls : StopClass) : Prop := ∃ k, exec .streamBeatRead s = .next (takeStop s k [] false 0xFFFF#16 none)
        ∧ k.cls = cls ∧ k.eng = 1 ∧ k.rank = 2 + p
      (∀ k < beatCount s p, (∀ j < k, ElementOk s p j) →
        (beatAddr s p k < 0 ∨ (s.core.lmGrant : Int) < beatAddr s p k + beatZ s p → stops .bounds)
        ∧ (0 ≤ beatAddr s p k → beatAddr s p k + beatZ s p ≤ s.core.lmGrant → beatAddr s p k % beatZ s p ≠ 0 → stops .alignment))
      ∧ ((∀ k < beatCount s p, ElementOk s p k) →
        let strict := (s.core.task.map Task.strict).getD false
        let erred := ∃ g, ChecksGranule s p g ∧ beatTag s p g = 0xFFFF#16
        let other (g : Nat) : Prop := ChecksGranule s p g ∧ beatTag s p g ≠ want p
        (erred → stops .memoryError)
        ∧ (¬erred → (∃ g, other g) → strict = true → stops .schedule)
        ∧ (¬erred → (∃ g, other g) → strict = false → ∃ gs : List Nat, (∀ g, g ∈ gs ↔ other g) ∧ exec .streamBeatRead s =
            .next ((gs.map fun g => HoldCause.tag (spaceTarget s (s.core.ctx.ldP.getD p LdPort.reset).st.space)
              s.core.ctx.sup g (want p) 1 (2 + p)).foldl addHold s)))

/-- R128, R129, R132, R185, R233, R271, R321: of the deliveries due, all of beats that are present and not poisoned, at most
one with data to a port and that to a register that is not full, each fills its register; markers alone change none. A
beat with late data holds the gang, in strict mode it stops it; a poisoned beat is a memory error; a full register is a
command fault, and so are two beats for one register (the model's choice, log entry 63). The data of the next beat of a
global stream on its way may come later. A beat of a global stream on an uncached page, under the leaf its stream holds,
that begins a run reads its elements at their homes and is due 80 cycles later. -/
def Obligations.StreamBeatDelivers : Prop :=
  (∀ s : State, s.core.ctx.ldP.length = 8 → s.core.grid.beats.length = 8 →
     let full (p : Nat) : Bool := (s.core.grid.beats.getD p (0#128, false)).2
     let gone (x v : Core) : Core := { v with ctx := { v.ctx with ldP := x.ctx.ldP }, grid := { v.grid with beats := x.grid.beats } }
     let fails (p : Nat) (d : Delivery) (cls : StopClass) : Prop := deliveriesDue s = [(p, d)] →
       ∃ k, exec .streamBeatDeliver s = .next (takeStop s k [] false 0xFFFF#16 none) ∧ k.cls = cls
     let strict := (s.core.task.map Task.strict).getD false
     ((∀ x ∈ deliveriesDue s, x.2.data ≠ none → x.2.arrive ≤ s.time ∧ x.2.poison = false ∧ full x.1 = false) →
       (((deliveriesDue s).filter fun x => x.2.data.isSome).map Prod.fst).Pairwise (· ≠ ·) →
       ∃ t, exec .streamBeatDeliver s = .next t
         ∧ (∀ p d b, (p, d) ∈ deliveriesDue s → d.data = some b → t.core.grid.beats[p]? = some (b, true))
         ∧ (∀ p : Nat, (∀ d, (p, d) ∈ deliveriesDue s → d.data = none) →
             (t.core.grid.beats : List (W128 × Bool))[p]? = s.core.grid.beats[p]?)
         ∧ (∀ q : Nat, (t.core.ctx.ldP : List LdPort)[q]? = (s.core.ctx.ldP[q]?).map fun y =>
             { y with dels := y.dels.filter fun x => x.due != s.core.now })
         ∧ SameButCore s t gone)
     ∧ (∀ p d, deliveriesDue s = [(p, d)] → d.data ≠ none → s.time < d.arrive → strict = false →
         exec .streamBeatDeliver s = .next (addHold s (.late s.cur.val p d.arrive d.retrain)))
     ∧ (∀ p d, d.data ≠ none → s.time < d.arrive → strict = true → fails p d .schedule)
     ∧ (∀ p d, d.data ≠ none → d.arrive ≤ s.time → d.poison = true → fails p d .memoryError)
     ∧ (∀ p d, d.data ≠ none → d.arrive ≤ s.time → d.poison = false → full p = true → fails p d .command)
     ∧ ∀ p d e, deliveriesDue s = [(p, d), (p, e)] → d.data ≠ none → e.data ≠ none → d.arrive ≤ s.time → e.arrive ≤ s.time →
         d.poison = false → e.poison = false →
         ∃ u k, exec .streamBeatDeliver s = .next (takeStop u k [] false 0xFFFF#16 none) ∧ k.cls = .command ∧ k.eng = 3
           ∧ { u with moreStops := s.moreStops } = s)
  ∧ (∀ (s : State) (p : BitVec 3) (delay : Nat),
       let y := s.core.ctx.ldP.getD p.toNat LdPort.reset
       let late (d : Delivery) : Prop := d.glob = true ∧ d.data ≠ none
       (∀ pre d post, y.dels = pre ++ d :: post → (∀ x ∈ pre, ¬late x) → late d → ∃ t, exec (.globalBeatLate p delay) s = .next t
         ∧ t.core.ctx.ldP = s.core.ctx.ldP.set p.toNat { y with dels := pre ++ { d with arrive := s.time + delay } :: post }
         ∧ SameButCtx s t fun x v => { v with ldP := x.ldP })
       ∧ ((∀ x ∈ y.dels, ¬late x) → exec (.globalBeatLate p delay) s = .next s))
  ∧ ∀ (s : State) (p : Nat) (l : Leaf), s.core.ctx.ldP.length = 8 → p < 8 → BeatDue s p → (∀ q < 8, q ≠ p → ¬BeatDue s q) →
      (∀ q ∈ s.core.ctx.prefs, q.1 ≠ s.core.now) →
      let y := s.core.ctx.ldP.getD p LdPort.reset
      let pa (k : Nat) : Nat := l.pa + ((beatAddr s p k).toNat - l.va)
      y.st.space = 1#3 → y.leaf = some l → y.run = none → l.bits.toNat / 64 = 2 → s.core.upd = [] →
      (∀ k < beatCount s p, 0 ≤ beatAddr s p k ∧ beatAddr s p k < 2 ^ 57 ∧ beatAddr s p k % beatZ s p = 0
        ∧ Allows s l true false (beatAddr s p k).toNat (beatZ s p)) →
      ∃ t b d, exec .streamBeatRead s = .next t ∧ (t.core.ctx.ldP.getD p LdPort.reset).dels = y.dels ++ [d]
        ∧ (t.core.ctx.ldP.getD p LdPort.reset).beat = y.beat + 1 ∧ d.due = s.core.now + 80 ∧ d.data = some b ∧ d.glob = true
        ∧ d.far = false ∧ d.arrive = 0 ∧ (d.poison = true ↔ ∃ k < beatCount s p, ∃ i < beatZ s p, s.poisoned (pa k + i) = true)
        ∧ (d.last = true ↔ y.beat + 1 = y.st.beats) ∧ Carries s p b (fun k => numAt s.homeByte (pa k) (beatZ s p)) ∧ SameBytes s t

/-- R130, R131, R235: of the landings due in a cycle, all of LM spaces, each byte takes what the last of them that writes
it carries and each granule the tag of the last that tags it, the lower port prevailing; every other byte and tag keeps
its value. R236, R228: a landing due of a global stream, alone, is handed to the L1D: on an uncached page its bytes go to
their home in HBM; on a cached page whose line is there without pending updates the line takes them, marked as written,
and the home keeps its bytes. -/
def Obligations.StoreBeatLands : Prop :=
  (∀ s : State, s.canon → (∀ l ∈ landingsDue s, l.glob = false ∧ s.core.gbase + l.q < 192) →
    let bytes := (landingsDue s).flatMap fun l => l.cells.map fun x => (s.core.gbase + l.q, x)
    let tags := (landingsDue s).flatMap fun l => l.tags.map fun g => (s.core.gbase + l.q, g, l.tag)
    let sup := s.core.ctx.sup
    ∃ t, exec .storeBeatLand s = .next t
      ∧ (∀ c a, (∀ x ∈ bytes, ¬(x.1 = c ∧ x.2.1 = a)) → ∀ u, (t.at c).lmRead u a = (s.at c).lmRead u a)
      ∧ (∀ c a b, LastOf bytes (fun x => x.1 = c ∧ x.2.1 = a) (c, a, b) → a < 0x200000 → (t.at c).lmRead sup a = b)
      ∧ (∀ c g, (∀ x ∈ tags, ¬(x.1 = c ∧ x.2.1 = g)) → ∀ u, (t.at c).tag u g = (s.at c).tag u g)
      ∧ (∀ c g tag, LastOf tags (fun x => x.1 = c ∧ x.2.1 = g) (c, g, tag) → g < 508 → (t.at c).tag sup g = tag)
      ∧ (∀ p : Nat, (t.core.ctx.stP : List StPort)[p]? = (s.core.ctx.stP[p]?).map fun y =>
          { y with lands := y.lands.filter fun l => l.due != s.core.now })
      ∧ t.gmem = s.gmem ∧ (∀ c, (t.at c).imem = (s.at c).imem ∧ (t.at c).gcs = (s.at c).gcs
          ∧ (t.at c).simem = (s.at c).simem ∧ (t.at c).ctx.spm = (s.at c).ctx.spm))
  ∧ ∀ (s : State) (l : StLand) (pa : Nat) (b : List Byte), s.canon → landingsDue s = [l] → l.glob = true →
      l.cells = b.mapIdx (fun i x => (pa + i, x)) → 0 < b.length → pa % 128 + b.length ≤ 128 →
      (∀ i < b.length, s.target (pa + i) = .hbm) →
      (l.bits.toNat / 64 = 2 → ∃ t, exec .storeBeatLand s = .next t
        ∧ (∀ i v, b[i]? = some v → t.homeByte (pa + i) = v)
        ∧ (∀ a, s.target a = .hbm → (∀ i < b.length, s.normPa a ≠ s.normPa (pa + i)) → t.homeByte a = s.homeByte a)
        ∧ ∀ c u a, (t.at c).lmRead u a = (s.at c).lmRead u a)
      ∧ ∀ x, l.bits.toNat / 64 < 2 → s.core.upd = [] → s.core.l1d.find? (fun y => y.pa == pa / 128) = some x →
        x.bytes.length = 128 → x.dirty.length = 128 →
        ∃ t y, exec .storeBeatLand s = .next t ∧ t.gmem = s.gmem
          ∧ t.core.l1d.find? (fun y => y.pa == pa / 128) = some y
          ∧ (∀ j < 128, y.bytes[j]? = if pa % 128 ≤ j ∧ j < pa % 128 + b.length then b[j - pa % 128]? else x.bytes[j]?)
          ∧ (∀ j < 128, y.dirty[j]? = if pa % 128 ≤ j ∧ j < pa % 128 + b.length then some true else x.dirty[j]?)
          ∧ (∀ z, z.pa ≠ pa / 128 → (z ∈ t.core.l1d ↔ z ∈ s.core.l1d)) ∧ ∀ c u a, (t.at c).lmRead u a = (s.at c).lmRead u a

namespace Sys2Proof.Claims

/-! Copies and near-memory jobs. -/

/-- The word at the head of the BTE queue has issued; its waiting record is gone. -/
def PoppedBte (s t : State) (idle : BitVec 4) : Prop := Popped s t 5 1 idle ∧ t.core.ctx.pend5 = Pend.reset

/-- The words of a descriptor's copy or overlay. -/
def copyWords (idle : BitVec 4) (h : BitVec 2) (d : BitVec 14) (at_ : When) : List (Instr × DescWord) :=
  [(.btCopy idle h d at_, .copy), (.btOvl idle h d at_, .ovl)]

/-- The destination of a copy inside the core, by DK (R135). -/
def localDest (s : State) (x : Desc) : Option CopyEnd :=
  if x.dk = 0 then some (.lm s.cur.val x.dst s.core.ctx.sup)
  else if x.dk = 2 then some (.imem x.dst) else if x.dk = 3 then some (.gcs x.dst) else none

/-- What R135, R137 and R139 forbid in the descriptor of a copy or overlay (sup: at supervisor privilege, R276): a reserved
bit; kinds 2 and 3 of the source, and of the destination of a copy, at user privilege; tags checked of a source that is
not own LM; an address beyond its kind's width; IMEM or GCS addresses off 128 bytes; a granule where no tag is written;
of an overlay another destination, a length off 128 bytes, a hint, an end beyond the space (the supervisor's IMEM ends at
0x12000, R276). -/
def Forbidden (w : DescWord) (h : BitVec 2) (sup : Bool) (x : Desc) : Prop :=
  x.clean = false ∨ (2 ≤ x.sk ∧ sup = false) ∨ (x.exp = true ∧ x.sk ≠ 0) ∨ (x.sk ≠ 1 ∧ 2 ^ 21 ≤ x.src) ∨ (x.sk = 1 ∧ 2 ^ 57 ≤ x.src)
  ∨ (x.dk ≠ 1 ∧ 2 ^ 21 ≤ x.dst) ∨ (x.dk = 1 ∧ 2 ^ 57 ≤ x.dst) ∨ (2 ≤ x.dk ∧ x.dst % 128 ≠ 0)
  ∨ (x.og ≠ 0 ∧ (x.dk < 2 ∨ x.wr = false)) ∨ (w = .copy ∧ 2 ≤ x.dk ∧ sup = false)
  ∨ (w = .ovl ∧ (x.dk < 2 ∨ x.len % 128 ≠ 0 ∨ h ≠ 0#2
      ∨ (x.dk = 2 ∧ (if sup = true ∧ 0x10000 ≤ x.dst then 0x12000 else 0x10000) < x.dst + x.len)
      ∨ (x.dk = 3 ∧ 0x20000 < x.dst + x.len)))

/-- What R140 forbids in the descriptor of a prefetch: all but a global source and a length. -/
def PrefForbidden (x : Desc) : Prop :=
  x.clean = false ∨ x.sk ≠ 1 ∨ 2 ^ 57 ≤ x.src ∨ x.dk ≠ 0 ∨ x.dst ≠ 0 ∨ x.xtag ≠ 0#16 ∨ x.wtag ≠ 0#16 ∨ x.exp = true ∨ x.wr = true ∨ x.og ≠ 0

/-- Place in the table of R136 of the class of a target, as core me sees it. -/
def classOf (me : Nat) : Target → Nat
  | .lm c _ => if c = me then 0 else if c / 4 = me / 4 then 1 else if c / 48 = me / 48 then 4 else 5
  | .vault c _ => if c = me then 2 else if c / 48 = me / 48 then 3 else 5
  | _ => 6

/-- Base latency and rate of the routes, in the order of the table of R136; of hbm none is guaranteed. -/
def routeTable : List (Route × Nat × Nat) :=
  [(.lself, 8, 64), (.lquad, 16, 64), (.vnear, 40, 64), (.vdie, 90, 32), (.ldie, 96, 32), (.xdie, 220, 16)]

/-- The place of a route in the table. -/
def placeOf (r : Route) : Nat := (routeTable.map Prod.fst).idxOf r

/-- Bytes that the current core's reservation of route r has left (R137, R309). -/
def leftOf (s : State) (r : Route) : Nat :=
  (((s.core.task.map Task.res).getD []).map fun x => if x.1 = r then x.2 else 0).sum

/-- A route on which pieces of global space lie asks a reservation of user code (R136). -/
def AsksReservation (s : State) (r : Route) (ps : List (Nat × Nat × Nat × Byte)) : Prop :=
  s.core.ctx.sup = false ∧ 1 ≤ placeOf r ∧ placeOf r ≤ 5
  ∧ (r = .lquad → ∃ p ∈ ps, ∃ c off, s.target p.2.1 = .lm c off ∧ c ∉ s.members s.cur.val)

/-- The range of a copy inside the core lies in its spaces (R137, R139). -/
def InSpaces (s : State) (x : Desc) : Prop :=
  x.src + x.len ≤ s.core.lmGrant ∧ (x.dk = 0 → x.dst + x.len ≤ s.core.lmGrant)
  ∧ (x.dk = 2 → x.dst + x.len ≤ 0x10000) ∧ (x.dk = 3 → x.dst + x.len ≤ 0x20000)

/-- Of the current core's copies those in flight at its cycle (R137). -/
def liveCopies (s : State) : List Copy :=
  s.core.ctx.copies.filter fun y => decide (s.core.now < y.issue + (y.route.base + (y.len + y.route.rate - 1) / y.route.rate))

/-- A route has no room for another copy of the current core (R137). -/
def NoRoom (s : State) (r : Route) : Prop :=
  16 ≤ (liveCopies s).length ∨ 4 ≤ ((liveCopies s).filter fun y => y.route == r).length

/-- The lookups of a copy word of the current core find its ranges without a walk: the state after them, what they found. -/
def LooksUp (s : State) (rs : List (Nat × Nat)) (u : State) (l : Looks) : Prop := issueLooks s 5 rs = (u, some l)

/-- A byte of LM of core k that a writer of ranks 1 to 5 of R235 wrote at the end of the cycle that ends at time t, or later
if t falls inside it. -/
def WrittenAt (k : Core) (t a : Nat) : Prop := t ≤ k.nextCyc ∧ ∃ r ∈ k.wrote, r.1 ≤ a ∧ a < r.1 + r.2

/-- No earlier copy of its core with a DEV page keeps the k-th copy x waiting, nor do stores to such pages wait (R228). -/
def InDevOrder (s : State) (k : Nat) (x : Copy) : Prop :=
  (x.dev = true → ∀ j < k, ∀ y, s.hbm[j]? = some y → ¬(y.core = x.core ∧ y.dev = true)) ∧ ∀ d ∈ s.devs, d.core ≠ x.core

/-- The window that decodes an address: the lowest one that is enabled and holds it (R229). -/
def WindowAt (s : State) (pa w : Nat) : Prop :=
  let holds (v : Nat) : Prop := let x := s.window v; x.ctl.getLsbD 0 = true ∧ x.base.toNat ≤ pa ∧ pa < x.lim.toNat
  w < 16 ∧ holds w ∧ ∀ v < w, ¬holds v

/-- A job of core c keeps a fence over n lines from a on waiting (R146): not accepted, or of a valid card whose W meets the
lines. -/
def FenceWaits (s : State) (c a n : Nat) : Prop :=
  ∃ j ∈ s.jobs, j.core = c ∧ (j.accepted = false ∨ (j.code = 0 ∧ j.ctx.toNat = (s.at c).trnCtx.toNat % 2 ^ 16
    ∧ j.w < a + 128 * n ∧ a < j.w + j.count * (cardBytes j.fmt).getD 1))

/-- Operations that read X, and W (R144). -/
def UsesX (opc : Nat) : Prop := opc = 2 ∨ opc = 4 ∨ opc = 5 ∨ opc = 6
def UsesW (opc : Nat) : Prop := 3 ≤ opc ∧ opc ≤ 6

/-- A card without the faults of CODE 3 (R144), and one whose W and X partly overlap (CODE 4). -/
def CardOk (c : Card) : Prop :=
  ∃ z, cardBytes c.fmt = some z ∧ 1 ≤ c.opc ∧ c.opc ≤ 6 ∧ c.rsv = false ∧ c.w % z = 0 ∧ c.w < 2 ^ 57 ∧ c.obj % 64 = 0
    ∧ (UsesX c.opc → c.x % z = 0 ∧ c.x < 2 ^ 57) ∧ (c.fmt ≠ 0#5 → c.sa.toNat < 2 ^ 32 ∧ c.sb.toNat < 2 ^ 32)
def PartOverlap (c : Card) : Prop :=
  let n := c.count * (cardBytes c.fmt).getD 1
  UsesX c.opc ∧ c.w ≠ c.x ∧ c.x < c.w + n ∧ c.w < c.x + n

/-- New W[i] before its rounding (R144). -/
def jobResult (opc : Nat) (md : BitVec 2) (a b w x : Val) : Val :=
  match opc with
  | 1 => a
  | 2 => x
  | 3 => (Val.mul a w).1
  | 4 => (Val.add md w x).1
  | 5 => (Val.fma md a x w).1
  | _ => (Val.add md w (Val.mul a (Val.fma md b w x).1).1.minus).1

/-- Under leaf l job j may read (rd) and write (wr) the n bytes from va on, in its partition's HBM (R320, R344). -/
def JobMay (s : State) (j : Job) (l : Leaf) (rd wr : Bool) (va n : Nat) : Prop :=
  (l.bits.getLsbD 5 = true → j.sup = true) ∧ (rd = true → l.bits.getLsbD 3 = true) ∧ (wr = true → l.bits.getLsbD 4 = true)
  ∧ l.va % 4096 = 0 ∧ l.pa % 4096 = 0 ∧ l.va ≤ va ∧ va + n ≤ l.va + l.size ∧ va + n ≤ 2 ^ 57
  ∧ ∀ i < n, InShare s j.part (l.pa + (va - l.va) + i)

/-- The element of n bytes at a home, little-endian. -/
def homeNat (s : State) (pa : Nat) : Nat → Nat
  | 0 => 0
  | n + 1 => (s.homeByte pa).toNat + 256 * homeNat s (pa + 1) n

/-- The eight bytes at pa lie in HBM. -/
def HbmWord (s : State) (pa : Nat) : Prop := ∀ i < 8, s.target (pa + i) = .hbm

end Sys2Proof.Claims

/-- R135-R137, R139: a descriptor is read by the layout of R135. A copy or overlay stops with a bounds fault where its
descriptor lies beyond the grant, then with a command fault where the descriptor breaks the rules, where 16 copies of the
core or 4 on the route are in flight, or where a tag is to be written to global bytes that are no LM window. One of length
0 passes these checks too and then only issues; a global address of it is looked up as one byte (the model's choice, log
entry 25). -/
def Obligations.CopyWordChecks : Prop :=
  ∀ (s : State) idle h d at_, ∀ w ∈ copyWords idle h d at_,
    (s.core.lmGrant < 128 * d.toNat + 32 → StopsAtIssue s w.1 5 .bounds (some (128 * d.toNat)))
    ∧ ∀ x, readDesc s d = some x →
      (let v := numAt (s.core.lmRead s.core.ctx.sup) (128 * d.toNat) 32
       let f (lo n : Nat) : Nat := v / 2 ^ lo % 2 ^ n
       x.src = f 0 64 ∧ x.dst = f 64 64 ∧ x.len = f 128 32 ∧ x.xtag.toNat = f 160 16 ∧ x.wtag.toNat = f 176 16 ∧ x.sk = f 192 2
       ∧ x.dk = f 194 2 ∧ (x.exp = true ↔ f 196 1 = 1) ∧ (x.wr = true ↔ f 197 1 = 1) ∧ x.og = f 208 9
       ∧ (x.clean = true ↔ f 198 10 = 0 ∧ f 217 39 = 0))
      ∧ (Forbidden w.2 h s.core.ctx.sup x → StopsAtIssue s w.1 5 .command none)
      ∧ (¬Forbidden w.2 h s.core.ctx.sup x → x.sk ≠ 1 → x.dk ≠ 1 → s.core.ctx.pend5.walks = [] →
          (x.len ≠ 0 → x.sk = 0 → InSpaces s x → NoRoom s .lself → StopsAtIssue s w.1 5 .command none)
          ∧ (x.len = 0 → NoRoom s .lself → StopsAtIssue s w.1 5 .command none)
          ∧ (x.len = 0 → ¬NoRoom s .lself → ∃ t, exec w.1 s = .next t ∧ PoppedBte s t idle
            ∧ SameButCtx s t fun y z => { z with qs := y.qs, pend5 := y.pend5 }))
      ∧ (∀ u l ps, ¬Forbidden w.2 h s.core.ctx.sup x → x.sk ≠ 1 → x.dk = 1 → (x.len = 0 ∨ x.sk = 0 ∧ x.src + x.len ≤ s.core.lmGrant) →
          x.dst + x.len ≤ 2 ^ 57 → LooksUp s [(x.dst, x.dst + max 1 x.len)] u l →
          pieces s l false true x.dst (max 1 x.len) = .inr ps →
          (x.wr = true → (∃ p ∈ ps, ∀ c off, s.target p.2.1 ≠ .lm c off) →
            ∃ k, exec w.1 s = .next (takeStop u k [] false 0xFFFF#16 none) ∧ k.cls = .command ∧ k.eng = 5)
          ∧ (x.wr = false → x.len = 0 → (∀ p ∈ ps, s.target p.2.1 = .hbm) → ps ≠ [] → ∃ t, exec w.1 s = .next t
            ∧ PoppedBte u t idle ∧ SameButCtx u t fun y z => { z with qs := y.qs, pend5 := y.pend5 }))

/-- R136, R137, R139, R276: with fewer than 16 copies in flight, and fewer than 4 inside the core, a copy from own LM to own
LM, IMEM or GCS starts on `lself`: it is recorded with its ends, its length, its tag and its issue cycle; no byte moves at
its issue. A copy from global space to own LM takes the farthest class among its pages: user code needs the bytes of its
reservation where the table asks one, and uses them up; on `hbm`, and at supervisor privilege on any route but `lself`,
the copy goes outside logical time; no byte of any LM and no other core changes. That targets which the table does not
list, counter pages, decode windows and other modules, are of the class `hbm`, is the model's choice (log entry 27). -/
def Obligations.CopyInsideCoreStarts : Prop :=
  ∀ (s : State) idle h d at_ x, ∀ w ∈ copyWords idle h d at_,
    readDesc s d = some x → ¬Forbidden w.2 h s.core.ctx.sup x → 0 < x.len →
    (∀ dst, x.sk = 0 → localDest s x = some dst → InSpaces s x → ¬NoRoom s .lself → s.core.ctx.pend5.walks = [] →
      ∃ t y, exec w.1 s = .next t ∧ PoppedBte s t idle ∧ t.core.ctx.copies = s.core.ctx.copies ++ [y]
        ∧ y.route = .lself ∧ y.src = .lm s.cur.val x.src s.core.ctx.sup ∧ y.dst = dst ∧ y.len = x.len
        ∧ y.issue = s.core.now ∧ y.next = 0 ∧ y.pend = [] ∧ y.og = x.og ∧ y.id = s.nextId
        ∧ y.wtag = (if x.wr then some x.wtag else none)
        ∧ y.exp = (if x.exp && s.core.ctx.echk then some x.xtag else none)
        ∧ t.nextId = s.nextId + 1
        ∧ SameButCtx s { t with nextId := s.nextId } fun y z => { z with qs := y.qs, pend5 := y.pend5, copies := y.copies })
    ∧ ∀ u l ps r, x.sk = 1 → x.dk = 0 → x.dst + x.len ≤ s.core.lmGrant → x.src + x.len ≤ 2 ^ 57 →
      LooksUp s [(x.src, x.src + x.len)] u l → pieces s l true false x.src x.len = .inr ps →
      placeOf r = (ps.map fun p => classOf s.cur.val (s.target p.2.1)).foldl max 0 →
      let timed := r ≠ .hbm ∧ (s.core.ctx.sup = true → r = .lself)
      let short := AsksReservation s r ps ∧ leftOf s r < x.len
      (short ∨ timed ∧ NoRoom s r → ∃ k, exec w.1 s = .next (takeStop u k [] false 0xFFFF#16 none) ∧ k.cls = .command ∧ k.eng = 5)
      ∧ (¬short → (timed → ¬NoRoom s r) → u.core.l1d = [] → u.core.vc = [] → ∃ t y, exec w.1 s = .next t ∧ PoppedBte u t idle
        ∧ t.core.ctx.copies = u.core.ctx.copies ++ (if timed then [y] else []) ∧ t.hbm = u.hbm ++ (if timed then [] else [y])
        ∧ y.route = r ∧ y.src = .phys (ps.map fun p => (p.1, p.2.1, p.2.2.1)) ∧ y.dst = .lm s.cur.val x.dst s.core.ctx.sup
        ∧ y.len = x.len ∧ y.issue = s.core.now ∧ y.next = 0 ∧ y.id = u.nextId ∧ y.exp = none
        ∧ y.wtag = (if x.wr then some x.wtag else none) ∧ y.who = s.core.ctx.who ∧ t.gmem = u.gmem
        ∧ (∀ c, c ≠ s.cur.val → t.at c = u.at c) ∧ (∀ c v a, (t.at c).lmRead v a = (u.at c).lmRead v a)
        ∧ (AsksReservation s r ps → ∀ q, leftOf t q = if q = r then leftOf u q - x.len else leftOf u q)
        ∧ (¬AsksReservation s r ps → t.core.task = u.core.task))

/-- R24, R136-R139, R235, R354: the routes have the latencies and rates of the table. A chunk of a copy is read as it stands
at the start of issue + 1 + j, of the rate's bytes, from an LM or from its home; a chunk whose granule carries another tag
than is expected holds the gang, or is a schedule fault in strict mode. It lands at the end of issue + base + j, the last
chunk sets the written tag; every other byte and tag keeps its value; one whose data a retrain delays holds the gang or
is a schedule fault. -/
def Obligations.CopyChunksMove : Prop :=
  (∀ x ∈ routeTable, x.1.base = x.2.1 ∧ x.1.rate = x.2.2) ∧
  ∀ (s : State) (x : Copy), s.core.ctx.copies = [x] → x.core = s.cur.val →
    let rate := x.route.rate
    let strict := (s.core.task.map Task.strict).getD false
    (x.next * rate < x.len → x.issue + 1 + x.next = s.core.now →
      let at_ := x.next * rate
      let n := min rate (x.len - at_)
      let reads (b : List (Byte × Bool)) (t : State) : Prop := exec .copyChunkRead s = .next t
        ∧ t.core.ctx.copies = [{ x with next := x.next + 1, pend := x.pend ++ [(x.next, b)] }]
      (∀ c src u, x.src = .lm c src u → x.exp = none → ∃ t, SameButCtx s t (fun y z => { z with copies := y.copies })
        ∧ reads ((List.range n).map fun i => ((s.at c).lmRead u (src + at_ + i), false)) t)
      ∧ (∀ pa, x.src = .phys [(0, pa, x.len)] → x.exp = none →
        (∀ i < x.len, s.target (pa + i) = .hbm ∨ ∃ c o, s.target (pa + i) = .vault c o) → ∃ t, SameBytes s t
        ∧ reads ((List.range n).map fun i => if s.poisoned (pa + at_ + i) = true then (0xFF#8, true)
            else (s.homeByte (pa + at_ + i), false)) t)
      ∧ ∀ c src u tag, x.src = .lm c src u → x.exp = some tag →
        let g := (src + at_) / 4096
        (src + at_ + n - 1) / 4096 = g → g ∉ x.checked → (s.at c).tag u g ≠ 0xFFFF#16 → (s.at c).tag u g ≠ tag →
        (strict = false → exec .copyChunkRead s = .next (addHold s (.tag c u g tag 5 2)))
        ∧ (strict = true → ∃ k, exec .copyChunkRead s = .next (takeStop s k [] false 0xFFFF#16 none) ∧ k.cls = .schedule
            ∧ k.eng = 5))
    ∧ ∀ j b, s.canon → Alone s → s.discards s.cur.val = false → x.pend = [(j, b)] → x.issue + x.route.base + j = s.core.now →
      (s.time < x.arrive → strict = false → exec .copyChunkLand s = .next (addHold s (.lateCopy x.core x.id x.retrain)))
      ∧ (s.time < x.arrive → strict = true → ∃ k, exec .copyChunkLand s = .next (takeStop s k [] false 0xFFFF#16 none)
          ∧ k.cls = .schedule ∧ k.eng = 5)
      ∧ (x.arrive ≤ s.time → (∀ v ∈ b, v.2 = false) → x.err = [] →
        let left := if j + 1 = (x.len + rate - 1) / rate then [] else [{ x with pend := [] }]
        (∀ a u, x.dst = .lm s.cur.val a u → ∃ t, exec .copyChunkLand s = .next t ∧ t.core.ctx.copies = left
          ∧ (∀ i v, b[i]? = some v → a + j * rate + i < 0x200000 → t.core.lmRead u (a + j * rate + i) = v.1)
          ∧ (∀ k, (k < a + j * rate ∨ a + j * rate + b.length ≤ k) → ∀ u', t.core.lmRead u' k = s.core.lmRead u' k)
          ∧ (∀ g, (x.wtag = none ∨ ∀ i < b.length, (a + j * rate + i) / 4096 ≠ g) → ∀ u', t.core.tag u' g = s.core.tag u' g)
          ∧ (∀ tag i, x.wtag = some tag → x.len ≤ j * rate + b.length → i < b.length → (a + j * rate + i) / 4096 < 508 →
              t.core.tag u ((a + j * rate + i) / 4096) = tag)
          ∧ (∀ c, c ≠ s.cur.val → t.at c = s.at c) ∧ t.gmem = s.gmem)
        ∧ ∀ a, (x.dst = .imem a ∧ a < 0x10000 ∨ x.dst = .gcs a) → x.wtag = none → ∃ t, exec .copyChunkLand s = .next t
          ∧ t.core.ctx.copies = left
          ∧ (let space (k : Core) : Mem := if x.dst = .gcs a then k.gcs else k.imem
             (∀ i v, b[i]? = some v → memRead (space t.core) (a + j * rate + i) = v.1)
             ∧ ∀ k, (k < a + j * rate ∨ a + j * rate + b.length ≤ k) → memRead (space t.core) k = memRead (space s.core) k)
          ∧ t.core.lm = s.core.lm ∧ t.core.tags = s.core.tags ∧ t.gmem = s.gmem)

/-- R136, R235, R274: a copy outside logical time moves nothing before its time; after it, in one step (the model's choice,
log entry 22), one from HBM, a vault or decode space to the core's LM brings the bytes as they stand at their homes, except
where the core's own cycle that ends then, or the one under way, has written, and leaves; one from LM to HBM writes its
home; every other byte keeps its value. R228: one with a DEV page waits for an earlier one of its core (the model's choice,
log entry 69), and a store to such a page for both. R229, R230, R315: in decode space a byte reads as that of its element, decoded from its record and
rounded into the window's format; outside every enabled window it reads as zero. -/
def Obligations.HbmCopyLands : Prop :=
  (∀ (s : State) (k : Nat),
    (s.hbm[k]? = none → exec (.hbmCopyLand k) s = .next s)
    ∧ ∀ x, s.hbm[k]? = some x →
      (s.time < x.ready → exec (.hbmCopyLand k) s = .next s)
      ∧ (x.dev = true → (∃ j < k, ∃ y, s.hbm[j]? = some y ∧ y.core = x.core ∧ y.dev = true) → exec (.hbmCopyLand k) s = .next s)
      ∧ (∀ pa a u, x.ready ≤ s.time → InDevOrder s k x → x.src = .phys [(0, pa, x.len)] → x.dst = .lm x.core a u → x.core < 192 →
        (∀ i < x.len, (s.target (pa + i) = .hbm ∨ s.target (pa + i) = .decode ∨ ∃ c o, s.target (pa + i) = .vault c o)
          ∧ s.poisoned (pa + i) = false) → s.discards x.core = false →
        s.canon → x.wtag = none → x.err = [] →
        ∃ t, exec (.hbmCopyLand k) s = .next t ∧ t.hbm = s.hbm.eraseIdx k
          ∧ (∀ i < x.len, a + i < 0x200000 → (a + i < 0x1FC000 ∨ u = false) →
              let v := (t.at x.core).lmRead u (a + i)
              (WrittenAt (s.at x.core) s.time (a + i) → v = (s.at x.core).lmRead u (a + i))
              ∧ (¬WrittenAt (s.at x.core) s.time (a + i) → v = s.homeByte (pa + i)))
          ∧ (∀ c b, (c ≠ x.core ∨ b < a ∨ a + x.len ≤ b) → ∀ u', (t.at c).lmRead u' b = (s.at c).lmRead u' b)
          ∧ t.gmem = s.gmem)
      ∧ ∀ c pa a u, x.ready ≤ s.time → InDevOrder s k x → x.src = .lm c a u → x.dst = .phys [(0, pa, x.len)] → s.canon →
        (∀ i < x.len, s.target (pa + i) = .hbm) → (∀ i < x.len, ∀ j < x.len, i ≠ j → s.normPa (pa + i) ≠ s.normPa (pa + j)) →
        x.wtag = none → x.err = [] → ∃ t, exec (.hbmCopyLand k) s = .next t ∧ t.hbm = s.hbm.eraseIdx k
          ∧ (∀ i < x.len, t.homeByte (pa + i) = (s.at c).lmRead u (a + i))
          ∧ (∀ q, s.target q = .hbm → (∀ i < x.len, s.normPa q ≠ s.normPa (pa + i)) → t.homeByte q = s.homeByte q)
          ∧ ∀ m v b, (t.at m).lmRead v b = (s.at m).lmRead v b)
  ∧ (∀ (s : State) (c pa : Nat) (h : BitVec 2) (b : List Byte), s.canon → (∀ i < b.length, s.target (pa + i) = .hbm) →
      let t := s.storeEl c pa b h 3
      let waits := ∃ x ∈ s.hbm, x.core = c ∧ x.dev = true
      (waits → { t with devs := s.devs, nextId := s.nextId } = s
        ∧ ∃ d, t.devs = s.devs ++ [d] ∧ d.core = c ∧ d.pa = pa ∧ d.bytes = b ∧ d.id = s.nextId)
      ∧ (¬waits → t.devs = s.devs ∧ ((∀ i < b.length, ∀ j < b.length, i ≠ j → s.normPa (pa + i) ≠ s.normPa (pa + j)) →
          ∀ i v, b[i]? = some v → t.homeByte (pa + i) = v)))
  ∧ ∀ (s : State) (pa : Nat), s.target pa = .decode →
    ((∀ w, ¬WindowAt s (s.normPa pa) w) → s.homeByte pa = 0#8)
    ∧ ∀ w, WindowAt s (s.normPa pa) w →
      let x := s.window w
      let three := x.ctl.toNat / 2 % 2 ^ 5 = 0x13
      let out := BitVec.ofNat 5 (x.ctl.toNat / 2 ^ 6 % 2 ^ 5)
      let z := max 1 (fmtWidth out / 8)
      let size := if three then 6528 else 8576
      let codes := if three then 6144 else 8192
      let width := if three then 3 else 4
      let e := (s.normPa pa - x.base.toNat) / z
      let rec_ := x.store.toNat + e / 16384 * size
      let k := e % 16384
      let last := ((x.lim.toNat - x.base.toNat) / z + 16383) / 16384 * size + x.store.toNat
      (three ∨ x.ctl.toNat / 2 % 2 ^ 5 = 0x12) → (x.lim.toNat ≤ x.store.toNat ∨ last ≤ x.base.toNat) → (∀ i < size, s.target (rec_ + i) = .hbm) →
      s.homeByte pa = BitVec.ofNat 8 ((rnd out 0#2 (nqValue (if three then 0x13#5 else 0x12#5)
          (numAt s.homeByte (rec_ + width * k / 8) 2 / 2 ^ (width * k % 8) % 2 ^ width)
          (s.homeByte (rec_ + codes + k / 64)) (BitVec.ofNat 32 (numAt s.homeByte (rec_ + codes + 256) 4)))).1.toNat
        / 256 ^ ((s.normPa pa - x.base.toNat) % z))

/-- R138, R140-R142: `bt.echk` switches the checker; `bt.pin` loads and `bt.unpin` empties a retention register of the
grant, what it held before staying in the cache as ordinary lines, and takes a command fault otherwise; `bt.pref` asks
for its lines one a cycle from issue + 1 and, with nothing in the L1D, does nothing else. R223, R226-R228, R236, R237,
R271: a stream's request for a line without pending updates has the L1D's data where it is there; else those of the vault
cache for a WB page, a hit or a miss counted; else those of the home, which an uncached page has always, no cache changed.
The L1D's victim is the least recent line of the first class, none where a way is free. A word's lines have their written
bytes brought home, and those it writes leave the caches. -/
def Obligations.PrefetchAndRetention : Prop :=
  ∀ (s : State) (idle : BitVec 4),
    (∀ m, ∃ t, exec (.btEchk idle m) s = .next t ∧ PoppedBte s t idle ∧ (t.core.ctx.echk = true ↔ m = 1#2)
      ∧ SameButCtx s t fun y z => { z with qs := y.qs, pend5 := y.pend5, echk := y.echk })
    ∧ (∀ (k : BitVec 3) a n,
        let granted := (s.core.task.map Task.ret).getD 0
        let ordinary := s.core.vc.map fun x => if x.pin = some k.toNat then { x with pin := none } else x
        let rest (t : State) : Prop := t.core.vc = ordinary ∧ SameButCore s t fun y z =>
          { z with vc := y.vc, ctx := { z.ctx with qs := y.ctx.qs, pend5 := y.ctx.pend5, pins := y.ctx.pins } }
        (k.toNat < granted → a.toNat % 128 = 0 → n ≠ 0#29 → ∃ t, exec (.btPin idle k a n) s = .next t
          ∧ PoppedBte s t idle ∧ t.core.ctx.pins = s.core.ctx.pins.set k.toNat (some (a.toNat, n.toNat)) ∧ rest t)
        ∧ (granted ≤ k.toNat ∨ a.toNat % 128 ≠ 0 ∨ n = 0#29 → StopsAtIssue s (.btPin idle k a n) 5 .command none)
        ∧ (k.toNat < granted → ∃ t, exec (.btUnpin idle k) s = .next t
          ∧ PoppedBte s t idle ∧ t.core.ctx.pins = s.core.ctx.pins.set k.toNat none ∧ rest t)
        ∧ (granted ≤ k.toNat → StopsAtIssue s (.btUnpin idle k) 5 .command none))
    ∧ (∀ h d at_, ∀ w ∈ [Instr.btPref idle h d, .btPrefTimed idle h d at_],
        (s.core.lmGrant < 128 * d.toNat + 32 → StopsAtIssue s w 5 .bounds (some (128 * d.toNat)))
        ∧ ∀ x, readDesc s d = some x →
          (PrefForbidden x → StopsAtIssue s w 5 .command none)
          ∧ (¬PrefForbidden x → s.core.l1d = [] → 0 < x.len → ∃ t, exec w s = .next t
              ∧ PoppedBte s t idle
              ∧ t.core.ctx.prefs = s.core.ctx.prefs ++ ((List.range ((x.src + x.len - 1) / 128 - x.src / 128 + 1)).map
                  fun k => (s.core.now + 1 + k, 128 * (x.src / 128 + k), h))
              ∧ SameButCtx s t fun y z => { z with qs := y.qs, pend5 := y.pend5, prefs := y.prefs }))
    ∧ (∀ (c line va : Nat) (h : BitVec 2), c < 192 → (s.at c).upd = [] → (∀ i < 128, s.target (128 * line + i) = .hbm) →
        let k := s.at c
        let home := ((List.range 128).map fun i => s.homeByte (128 * line + i), (List.range 32).map fun w => s.poisoned (128 * line + 4 * w))
        let after (mt : Nat) : Core := (s.lineRequest c line va h mt false).2.at c
        let data (mt : Nat) := (s.lineRequest c line va h mt false).1
        let there (l : List Line) : Option Line := l.find? fun x => x.pa == line
        (∀ x mt, mt < 2 → there k.l1d = some x → data mt = (x.bytes, x.poison) ∧ (after mt).vcHit = k.vcHit
          ∧ (after mt).vcMiss = k.vcMiss ∧ (after mt).vc = k.vc)
        ∧ (∀ x, k.l1d = [] → there k.vc = some x → data 0 = (x.bytes, x.poison) ∧ (after 0).vcHit = satAdd48 k.vcHit 1
          ∧ (after 0).vcMiss = satAdd48 k.vcMiss 0)
        ∧ (k.l1d = [] → there k.vc = none → data 0 = home ∧ (after 0).vcMiss = satAdd48 k.vcMiss 1
          ∧ (after 0).vcHit = satAdd48 k.vcHit 0
          ∧ (h ≠ 3#2 → ∃ y, there (after 0).l1d = some y ∧ (y.bytes, y.poison) = home))
        ∧ (k.l1d = [] → data 1 = home ∧ (after 1).vcMiss = k.vcMiss ∧ (after 1).vcHit = k.vcHit ∧ (after 1).vc = k.vc)
        ∧ ∀ mt, 2 ≤ mt → (mt = 3 → ∀ x ∈ s.hbm, ¬(x.core = c ∧ x.dev = true)) →
            data mt = home ∧ (after mt).l1d = k.l1d ∧ (after mt).vc = k.vc)
    ∧ (∀ (l : List Line) (line clock part : Nat) (h : BitVec 2) (ctx : W16), h ≠ 3#2 → (∀ x ∈ l, x.pa ≠ line) →
        let mates := l.filter fun x => x.pa % 64 == line % 64
        let out := (cacheAccess l ⟨64, 8, 0⟩ line h none clock part ctx).out
        let rank (x : Line) : Nat := if x.cls = 1#2 then 0 else if x.cls = 0#2 then 1 else 2
        ((∃ w < 8, ∀ x ∈ mates, x.way ≠ w) → out = none)
        ∧ ((∀ w < 8, ∃ x ∈ mates, x.way = w) → mates.Pairwise (fun x y => x.way ≠ y.way) → ∃ v ∈ mates, out = some v
          ∧ ∀ y ∈ mates, y.way < 8 → rank v < rank y ∨ (rank v = rank y ∧ v.used ≤ y.used)))
    ∧ ∀ (c : Nat) (x : Line) (touch wr : Nat → Bool), c < 192 → s.canon → (s.at c).l1d = [x] → (s.at c).upd = [] →
        (∀ i < 128, s.target (128 * x.pa + i) = .hbm) → x.bytes.length = 128 → x.dirty.length = 128 → touch x.pa = true →
        let t := s.wordActions c touch wr
        (∀ i < 128, t.homeByte (128 * x.pa + i) = if x.dirty.getD i false then x.bytes.getD i 0#8 else s.homeByte (128 * x.pa + i))
        ∧ (∀ q, s.target q = .hbm → s.normPa q / 128 ≠ s.normPa (128 * x.pa) / 128 → t.homeByte q = s.homeByte q)
        ∧ (wr x.pa = true → (t.at c).l1d = [])
        ∧ (wr x.pa = false → (t.at c).l1d = [{ x with dirty := if true ∈ x.dirty then List.replicate 128 false else x.dirty }])
        ∧ ∀ y, y ∈ (t.at c).vc → wr y.pa = false

/-- R145: `bt.nmc` stops on a misaligned card; once its page is found it hands over a job that names the card, the core,
the context and the copies it must see, and issues. R146: `bt.nmfence` stops on a misaligned range, issues where no job of
the core keeps it waiting, and else holds the gang. -/
def Obligations.NearMemoryWords : Prop :=
  ∀ (s : State) (idle : BitVec 4) (a : BitVec 57),
    (a.toNat % 64 ≠ 0 → StopsAtIssue s (.btNmc idle a) 5 .alignment (some a.toNat))
    ∧ (∀ u l ps, a.toNat % 64 = 0 → issueLooks s 5 [(a.toNat, a.toNat + 64)] = (u, some l) →
        pieces s l true false a.toNat 64 = .inr ps → ∃ t j, exec (.btNmc idle a) s = .next t
          ∧ t.jobs = s.jobs ++ [j] ∧ j.core = s.cur.val ∧ j.accepted = false ∧ j.card = (ps.head?.map fun p => p.2.1).getD 0
          ∧ j.ctx = BitVec.ofNat 16 s.core.trnCtx.toNat ∧ j.sup = s.core.ctx.sup
          ∧ (∀ y ∈ s.core.ctx.copies, y.id ∈ j.copies)
          ∧ (∀ y ∈ s.hbm, y.core = s.cur.val → y.id ∈ j.copies) ∧ (∀ o ∈ s.outLands, o.copy.core = s.cur.val → o.copy.id ∈ j.copies)
          ∧ t.core.ctx.pend5 = Pend.reset
          ∧ (t.core.ctx.q 5).es = popInstr (s.core.ctx.q 5).es ∧ t.firm = s.firm)
    ∧ (∀ n, (a.toNat % 128 ≠ 0 → StopsAtIssue s (.btNmfence idle a n) 5 .command none)
        ∧ (a.toNat % 128 = 0 → n = 0#29 → ∃ t, exec (.btNmfence idle a n) s = .next t ∧ PoppedBte s t idle
            ∧ SameButCtx s t fun y z => { z with qs := y.qs, pend5 := y.pend5 })
        ∧ (a.toNat % 128 = 0 → n ≠ 0#29 → ¬FenceWaits s s.cur.val a.toNat n.toNat → s.core.l1d = [] →
            s.core.vc = [] → ∃ t, exec (.btNmfence idle a n) s = .next t ∧ PoppedBte s t idle
            ∧ SameButCtx s t fun y z => { z with qs := y.qs, pend5 := y.pend5 })
        ∧ (a.toNat % 128 = 0 → n ≠ 0#29 → FenceWaits s s.cur.val a.toNat n.toNat →
            ∃ t, exec (.btNmfence idle a n) s = .next (addHold t .nmfence) ∧ t.core.ctx.pend5.started = true
            ∧ SameButCtx s t fun y z => { z with pend5 := y.pend5 }))

/-- R143-R145, R275: a job is accepted once the copies it waits for have landed: its card, of R143's layout, reads as
accepted, its fields and the CODE of R144 are kept and it goes behind every job accepted before; a job whose card is in
use leaves and is counted. An accepted job that no earlier one conflicts with runs to its end in one step and leaves;
conflicts are compared by physical bytes (the model's choices, log entry 58, as is, by log entry 25, that a misaligned OBJ
gives CODE 3 before CODE 6). Where W, and X where the operation reads it,
lie in HBM under one leaf each, elements take their results in order, up to the first with a poisoned source, which is
poisoned and recorded; no other byte changes but STATUS and the completion object, whose sequence grows by one. -/
def Obligations.NearMemoryJobs : Prop :=
  ∀ (s : State) (k : Nat),
    (s.jobs[k]? = none → exec (.nmJobAccept k) s = .next s ∧ exec (.nmJobComplete k) s = .next s)
    ∧ ∀ j, s.jobs[k]? = some j → s.canon → HbmWord s (j.card + 48) → s.target j.card = .hbm →
      let c := s.cardAt j.card
      (j.accepted = true → exec (.nmJobAccept k) s = .next s)
      ∧ (j.accepted = false → exec (.nmJobComplete k) s = .next s)
      ∧ (j.accepted = false → jobWaits s j = true → exec (.nmJobAccept k) s = .next s)
      ∧ (let v := numAt s.homeByte j.card 64
         let f (lo n : Nat) : Nat := v / 2 ^ lo % 2 ^ n
         c.opc = f 0 8 ∧ c.fmt.toNat = f 8 5 ∧ c.rnd.toNat = f 13 2 ∧ (c.rsv = false ↔ f 15 17 = 0 ∧ f 448 64 = 0) ∧ c.count = f 32 32
         ∧ c.sa.toNat = f 64 64 ∧ c.sb.toNat = f 128 64 ∧ c.w = f 192 64 ∧ c.x = f 256 64 ∧ c.obj = f 320 64 ∧ c.st = f 384 2)
      ∧ (j.accepted = false → jobWaits s j = false → (s.at j.core).l1d = [] → c.st ≠ 1 → ∃ t y,
          exec (.nmJobAccept k) s = .next t ∧ t.jobs = s.jobs.eraseIdx k ++ [y] ∧ y.accepted = true ∧ y.id = j.id
          ∧ homeNat t (j.card + 48) 8 = 1 ∧ y.count = c.count ∧ y.opc = c.opc ∧ y.fmt = c.fmt ∧ y.rnd = c.rnd ∧ y.sa = c.sa
          ∧ y.sb = c.sb ∧ y.w = c.w ∧ y.x = c.x ∧ y.obj = c.obj
          ∧ (c.obj = 0 → y.objPa = none ∧ (¬CardOk c → y.code = 3) ∧ (CardOk c → PartOverlap c → y.code = 4)
              ∧ (CardOk c → ¬PartOverlap c → y.code = 0))
          ∧ (c.obj ≠ 0 → c.obj % 64 = 0 → y.objPa = none → y.code = 6)
          ∧ (c.obj % 64 ≠ 0 → y.code = 3))
      ∧ (j.accepted = false → jobWaits s j = false → (s.at j.core).l1d = [] → c.st = 1 → j.core < 192 → ∃ t,
          exec (.nmJobAccept k) s = .next t ∧ t.jobs = s.jobs.eraseIdx k
          ∧ (t.at j.core).nmuDup = satAdd48 (s.at j.core).nmuDup 1 ∧ t.gmem = s.gmem)
      ∧ (j.accepted = true → jobBlocked s k j = true → exec (.nmJobComplete k) s = .next s)
      ∧ (j.accepted = true → (∀ e ∈ s.jobs.take k, e.accepted = false) → j.code ≠ 0 → (j.code = 6 ∨ j.obj = 0) → j.code < 64 →
          ∃ t, exec (.nmJobComplete k) s = .next t ∧ t.jobs = s.jobs.eraseIdx k ∧ t.firm = s.firm
          ∧ homeNat t (j.card + 48) 8 = 3 + 4 * j.code
          ∧ ∀ q, s.target q = .hbm → (∀ i < 8, s.normPa q ≠ s.normPa (j.card + 48 + i)) → t.homeByte q = s.homeByte q)
      ∧ ∀ z lw lx n, j.accepted = true → (∀ e ∈ s.jobs.take k, e.accepted = false) → j.code = 0 → cardBytes j.fmt = some z →
          1 ≤ j.opc → j.opc ≤ 6 → j.w % z = 0 → j.x % z = 0 → j.count < 2 ^ 32 → n ≤ j.count →
          JobMay s j lw (decide (3 ≤ j.opc)) true j.w (j.count * z) → s.tlbIn (j.core / 4) j.walker j.w = some lw →
          (UsesX j.opc → JobMay s j lx true false j.x (j.count * z) ∧ s.tlbIn (j.core / 4) j.walker j.x = some lx) →
          let W (i : Nat) : Nat := lw.pa + (j.w - lw.va) + i * z
          let X (i : Nat) : Nat := lx.pa + (j.x - lx.va) + i * z
          let bad (i : Nat) : Prop := ∃ o < z, (UsesW j.opc ∧ s.poisoned (W i + o) = true) ∨ (UsesX j.opc ∧ s.poisoned (X i + o) = true)
          (UsesX j.opc → ∀ i < j.count * z, ∀ o < j.count * z, s.normPa (W 0 + i) = s.normPa (X 0 + o) → W 0 = X 0) →
          (∀ i < 8, ∀ o < j.count * z, s.normPa (j.card + 48 + i) / 4 ≠ s.normPa (W 0 + o) / 4) →
          (∀ pa, j.objPa = some pa → HbmWord s pa ∧ pa % 64 = 0 ∧ ∀ i < 8, (∀ o < j.count * z, s.normPa (pa + i) ≠ s.normPa (W 0 + o))
            ∧ ∀ o < 8, s.normPa (pa + i) ≠ s.normPa (j.card + 48 + o)) →
          (∀ i < n, ¬bad i) → (n = j.count ∨ bad n) →
          ∃ t, exec (.nmJobComplete k) s = .next t ∧ t.jobs = s.jobs.eraseIdx k ∧ t.firm = s.firm
            ∧ (∀ i < n, (n < j.count → s.normPa (W i) / 4 ≠ s.normPa (W n) / 4) → numAt t.homeByte (W i) z =
                let el (pa : Nat) : Val := (toVal j.fmt (BitVec.ofNat 64 (numAt s.homeByte pa z))).1
                let scalar (v : W64) : Val := (toVal (if j.fmt = 0#5 then 0#5 else 1#5) v).1
                (rnd j.fmt j.rnd (jobResult j.opc j.rnd (scalar j.sa) (scalar j.sb) (el (W i)) (el (X i)))).1.toNat % 256 ^ z)
            ∧ (n = j.count → homeNat t (j.card + 48) 8 % 2 ^ 40 = 2 + 256 * j.count)
            ∧ (n < j.count → homeNat t (j.card + 48) 8 % 2 ^ 40 = 7 + 256 * n
                ∧ ∀ pa, s.normPa pa / 4 = s.normPa (W n) / 4 → s.target pa = .hbm →
                  t.poisoned pa = true ∧ t.homeByte pa = 0xFF#8)
            ∧ (∀ pa, j.obj ≠ 0 → j.objPa = some pa → homeNat t pa 8 = (homeNat s pa 8 + 1) % 2 ^ 64)
            ∧ ∀ q, s.target q = .hbm → (∀ o < j.count * z, s.normPa q / 4 ≠ s.normPa (W 0 + o) / 4) →
                (∀ o < 8, s.normPa q ≠ s.normPa (j.card + 48 + o)) →
                (∀ pa, j.objPa = some pa → ∀ i < 8, s.normPa q ≠ s.normPa (pa + i)) → t.homeByte q = s.homeByte q

namespace Sys2Proof.Claims

/-! Grid. -/

/-- Element e is an enabled sink (R195, R198). -/
def Sink (g : Grid) (e : Nat) : Prop := e < 64 ∧ (g.el e).en = true ∧ (g.el e).snk = true

/-- The cycle in which a sink emits its marker for a graph started at cycle c (R198). -/
def markerAt (g : Grid) (e c : Nat) : Nat :=
  if (g.el e).iters = 0 then c else c + (g.el e).dly + (g.el e).iters * g.ii + 4

/-- The markers still due in t are those of the enabled sinks, at the cycles f gives; without a sink the grid-done bit is
due at cycle alone (R198). -/
def MarkersDue (t : State) (g : Grid) (f : Nat → Nat) (alone : Nat) : Prop :=
  (∀ e c, (e, c) ∈ t.core.grid.sinks ↔ Sink g e ∧ c = f e)
  ∧ ((∃ e, Sink g e) → t.core.grid.doneAt = none) ∧ ((∀ e, ¬Sink g e) → t.core.grid.doneAt = some alone)

/-- Element e executes the context of slot `slot` in iteration n at cycle c (R186): the graph runs, neither stopped nor
replaced. -/
def Executes (g : Grid) (e c slot n : Nat) : Prop :=
  e < 64 ∧ (g.el e).en = true ∧ g.stopAt = none ∧ g.loading = none ∧ ∃ s, g.running = some s
    ∧ c = s + 1 + (g.el e).dly + n * g.ii + slot ∧ slot < g.ii ∧ n < (g.el e).iters

/-- A field of a context word (R189). -/
def field (x : W128) (lo w : Nat) : Nat := x.toNat / 2 ^ lo % 2 ^ w

/-- Put back the grid of the current core and its queues. -/
def gridBack (x v : Core) : Core := { v with ctx := { v.ctx with qs := x.ctx.qs }, grid := x.grid }

/-- A vector or chain word (R212-R222): its fields, the rule of its own entry, the regions it checks with their formats,
its width for R205's G, its depth. -/
structure VecWord where
  idle : BitVec 4
  op : PassOp
  fs : BitVec 5
  fd : BitVec 5
  md : BitVec 2 := 0#2
  pred : BitVec 3 := 0#3
  dst : Region
  srcs : List Region
  rule : Prop
  regs : List (Region × BitVec 5)
  width : Nat
  n : Nat
  depth : Nat

/-- The element width R205 counts. -/
def widthOf (f : BitVec 5) : Nat := if fmtWidth f = 6 then 8 else fmtWidth f

/-- An element-wise word of depth d (R213). -/
def mapWord (i : BitVec 4) (op : Nat) (f : BitVec 5) (md : BitVec 2) (pr : BitVec 3) (dst : Region) (srcs : List Region)
    (d : Nat) : VecWord :=
  ⟨i, .bin op, f, f, md, pr, dst, srcs, ∀ r ∈ srcs, r.count = dst.count, (dst :: srcs).map (·, f), widthOf f,
    dst.count.toNat, d⟩

/-- Each vector word (R213-R218). -/
def vecWord : Instr → Option VecWord
  | .grVadd i f m d a b => some (mapWord i 0x02 f m 0#3 d [a, b] 4)
  | .grVsub i f m d a b => some (mapWord i 0x03 f m 0#3 d [a, b] 4)
  | .grVmul i f m d a b => some (mapWord i 0x04 f m 0#3 d [a, b] 5)
  | .grVfma i f m d a b c => some (mapWord i 0x05 f m 0#3 d [a, b, c] 5)
  | .grVmin i f d a b => some (mapWord i 0x06 f 0#2 0#3 d [a, b] 4)
  | .grVmax i f d a b => some (mapWord i 0x07 f 0#2 0#3 d [a, b] 4)
  | .grVabs i f d a => some (mapWord i 0x08 f 0#2 0#3 d [a] 4)
  | .grVneg i f d a => some (mapWord i 0x09 f 0#2 0#3 d [a] 4)
  | .grVsel i f d a b c => some (mapWord i 0x0A f 0#2 0#3 d [a, b, c] 4)
  | .grVcmp i f p d a b => some (mapWord i 0x0B f 0#2 p d [a, b] 4)
  | .grVand i f d a b => some (mapWord i 0x10 f 0#2 0#3 d [a, b] 4)
  | .grVor i f d a b => some (mapWord i 0x11 f 0#2 0#3 d [a, b] 4)
  | .grVxor i f d a b => some (mapWord i 0x12 f 0#2 0#3 d [a, b] 4)
  | .grVsadd i f d a b => some (mapWord i 0x40 f 0#2 0#3 d [a, b] 4)
  | .grVrcp i f m d a => some (mapWord i 0x18 f m 0#3 d [a] 7)
  | .grVrsqrt i f m d a => some (mapWord i 0x19 f m 0#3 d [a] 7)
  | .grVexp2 i f m d a => some (mapWord i 0x1A f m 0#3 d [a] 7)
  | .grVlog2 i f m d a => some (mapWord i 0x1B f m 0#3 d [a] 7)
  | .grVtanh i f m d a => some (mapWord i 0x1C f m 0#3 d [a] 7)
  | .grVfill i f d v => some ⟨i, .fill v, f, f, 0#2, 0#3, d, [], True, [(d, f)], widthOf f, d.count.toNat, 4⟩
  | .grVsum i f m d a =>
    some ⟨i, .sum, f, f, m, 0#3, d, [a], d.count = 1#16, [(d, f), (a, f)], widthOf f, a.count.toNat, 7⟩
  | .grVscan i f m d a =>
    some ⟨i, .scan, f, f, m, 0#3, d, [a], d.count = a.count, [(d, f), (a, f)], widthOf f, a.count.toNat, 6⟩
  | .grVdot i f g m d a b => some ⟨i, .dot g, f, g, m, 0#3, d, [a, b], d.count = 1#16 ∧ a.count = b.count,
      [(d, g), (a, f), (b, f)], widthOf f, a.count.toNat, 8⟩
  | .grVcvt i f g m d a => some ⟨i, .cvt g, f, g, m, 0#3, d, [a], d.count = a.count, [(d, g), (a, f)],
      max (widthOf f) (widthOf g), a.count.toNat, 5⟩
  | .grVnqenc i f g d a => some ⟨i, .nqenc g, f, g, 0#2, 0#3, d, [a],
      d.count = a.count ∧ d.base.toNat % 8 = 0 ∧ d.stride = 8#13, [(a, f)], widthOf f, a.count.toNat, 6⟩
  | .grChain i m d a b ops =>
    let f := chainSrc ops
    let g := chainDst ops
    let h := (chainS2 ops).headD f
    some ⟨i, .chain ops, f, g, m, 0#3, d, a :: b.toList, (∀ r ∈ a :: b.toList, r.count = d.count) ∧ chainOk b.isSome ops = true,
      (d, g) :: (a, f) :: b.toList.map (·, h), max (match b with | some _ => widthOf h | none => 0) (max (widthOf f) (widthOf g)),
      d.count.toNat, 3 + (ops.map fun o => opLat (opOp o)).sum⟩
  | _ => none

/-- The command faults of a vector or chain word (R204, R206, R222): a graph runs, an earlier word still reads, the
word's own rule, a region of a 6-bit format that is not contiguous. -/
def VecCommand (s : State) (v : VecWord) : Prop :=
  s.core.grid.doneBit = false ∨ (∃ p ∈ s.core.grid.passes, p.steps ≠ 0 ∧ s.core.now < p.t + 1 + (p.steps - 1) * p.h)
  ∨ (∃ p ∈ s.core.grid.passes, p.steps = 0 ∧ s.core.now < p.t)
  ∨ ¬v.rule ∨ ∃ r ∈ v.regs, fmtWidth r.2 = 6 ∧ r.1.stride ≠ 8#13

/-- Every element of every region, and every byte of the records, lies in the granted LM (R204, R218). -/
def VecInside (s : State) (v : VecWord) : Prop :=
  (∀ r ∈ v.regs, ∀ e < r.1.count.toNat, 0 ≤ regBit r.1 (fmtWidth r.2) e
    ∧ regBit r.1 (fmtWidth r.2) e + fmtWidth r.2 ≤ 8 * s.core.lmGrant)
  ∧ ∀ g, v.op = .nqenc g → regBase v.dst + (v.n + 16383) / 16384 * recordSize g ≤ s.core.lmGrant

/-- Bit b of a memory given by its bytes. -/
def bitOf (rd : Nat → Byte) (b : Nat) : Bool := (rd (b / 8)).getLsbD (b % 8)

/-- The number that w bits from bit b on hold. -/
def bitsAt (rd : Nat → Byte) (b : Nat) : Nat → Nat
  | 0 => 0
  | w + 1 => (bitOf rd b).toNat + 2 * bitsAt rd (b + 1) w

/-- An element as the datapath reads it: of an FP19 container the low 13 bits are zero (R50). -/
def elemAt (rd : Nat → Byte) (r : Region) (f : BitVec 5) (e : Nat) : Nat :=
  let v := bitsAt rd (regBit r (fmtWidth f) e).toNat (fmtWidth f)
  if f = 2#5 then v / 2 ^ 13 * 2 ^ 13 else v

/-- Step j of a pass, whose elements are j g … j g + g - 1 below n, reads at cycle c (R205). -/
def ReadsStep (p : Pass) (j c : Nat) : Prop := j < p.steps ∧ c = p.t + 1 + j * p.h

end Sys2Proof.Claims

/-- R208-R211: each configuration word of the grid. `gr.cfg` starts the load of a checked image, of 2 + ⌈LEN/512⌉
cycles; `gr.const` is ready to write its slot at the end of the cycle; `gr.start` starts the graph with its markers due;
`gr.stop` lets every sink emit at t + 4, one that has emitted too, and changes nothing where no graph runs or one is
stopping already (what it does to such a sink and in such a graph is the model's choice, log entry 31). Each command fault
has none of this. -/
def Obligations.GridWords : Prop :=
  ∀ (s : State) (idle : BitVec 4) (b : BitVec 10) (el : BitVec 6) (k : BitVec 4) (v : W32) (at_ : Lit),
    let g := s.core.grid
    let now := s.core.now
    let len := numAt (memRead s.core.gcs) (128 * b.toNat + 4) 2
    let runs (w : Instr) (P : State → Prop) : Prop :=
      ∃ t, exec w s = .next t ∧ Popped s t 3 1 idle ∧ P t ∧ SameButCore s t gridBack
    let flying := ∃ p ∈ g.passes, now ≤ p.done
    let starts := g.inPlace = true ∧ g.loading = none ∧ g.doneBit = true ∧ ¬flying
    (g.doneBit = true → g.loading = none → imageOk s.core.gcs (128 * b.toNat) = true → runs (.grCfg idle b) fun t =>
      ∃ img, t.core.grid = { g with loading := some (now + 2 + (len + 511) / 512, img), inPlace := false }
        ∧ img.length = len ∧ ∀ j < len, img[j]? = some (memRead s.core.gcs (128 * b.toNat + j)))
    ∧ ((g.doneBit = false ∨ g.loading ≠ none ∨ imageOk s.core.gcs (128 * b.toNat) = false) →
        StopsAtIssue s (.grCfg idle b) 3 .command none)
    ∧ (g.loading = none → runs (.grConst idle el k v) fun t =>
        t.core.grid = { g with constW := some (el.toNat, k.toNat, v) })
    ∧ (g.loading ≠ none → StopsAtIssue s (.grConst idle el k v) 3 .command none)
    ∧ (starts → runs (.grStart idle at_) fun t => MarkersDue t g (markerAt g · now) (now + 4)
        ∧ { t.core.grid with sinks := g.sinks, doneAt := g.doneAt }
          = { g with running := some now, stopAt := none, doneBit := false })
    ∧ (¬starts → StopsAtIssue s (.grStart idle at_) 3 .command none)
    ∧ (g.doneBit = false → g.stopAt = none → runs (.grStop idle) fun t =>
        MarkersDue t g (fun _ => now + 4) (now + 8)
        ∧ { t.core.grid with sinks := g.sinks, doneAt := g.doneAt } = { g with stopAt := some now })
    ∧ (g.doneBit = true ∨ g.stopAt ≠ none → runs (.grStop idle) fun t => t.core.grid = g)

/-- R183, R195, R196, R198, R208: a load that ends in this cycle puts its image's elements in place; sinks that are due
emit, and four cycles after the last of them the grid-done bit is set; each event changes nothing where nothing is due. That
a load leaves results in flight and the data of the beat registers is the model's choice (log entries 31 and 63). -/
def Obligations.GridLoadsAndEnds : Prop :=
  ∀ s : State,
    let g := s.core.grid
    let now := s.core.now
    let runs (w : Instr) (P : Grid → Prop) : Prop := ∃ t, exec w s = .next t ∧ P t.core.grid ∧ SameButCore s t gridBack
    (∀ img, g.loading = some (now, img) → runs .gridCfgDone fun h =>
      h.inPlace = true ∧ h.loading = none ∧ h.running = none ∧ h.stopAt = none ∧ h.ii = imgNat img 6 2 % 64
      ∧ (∀ p : Nat, (h.beats : List (W128 × Bool))[p]? = (g.beats[p]?).map fun y : W128 × Bool => (y.1, false))
      ∧ { h with els := g.els, ii := g.ii, inPlace := g.inPlace, loading := g.loading, running := g.running,
                 stopAt := g.stopAt, beats := g.beats } = g
      ∧ ∀ e < 64,
        let d := imgNat img (128 + 16 * e) 16
        let x := h.el e
        (d % 2 = 0 → x = Element.reset)
        ∧ (d % 2 = 1 → x.en = true ∧ (x.src = true ↔ d / 2 % 2 = 1) ∧ (x.snk = true ↔ d / 4 % 2 = 1)
          ∧ x.dly = d / 2 ^ 16 % 2 ^ 16 ∧ x.iters = d / 2 ^ 32 % 2 ^ 32
          ∧ (∀ k < min 32 (imgNat img 6 2 % 64), x.ctxs[k]? =
              some (BitVec.ofNat 128 (imgNat img (d / 2 ^ 64 % 2 ^ 11 * 16 + 16 * k) 16)))
          ∧ ∀ k < 16, x.consts[k]? = some (if d / 2 ^ 75 % 2 ^ 11 = 0 then 0#32
              else BitVec.ofNat 32 (imgNat img (d / 2 ^ 75 % 2 ^ 11 * 16 + 4 * k) 4))))
    ∧ ((∀ img, g.loading ≠ some (now, img)) → exec .gridCfgDone s = .next s)
    ∧ ((∃ x ∈ g.sinks, x.2 = now) → runs .sinkFinish fun h =>
        h.sinks = g.sinks.filter (fun x => x.2 != now)
        ∧ h.doneAt = (if ∀ x ∈ g.sinks, x.2 = now then some (now + 4) else none)
        ∧ { h with sinks := g.sinks, doneAt := g.doneAt } = g)
    ∧ ((∀ x ∈ g.sinks, x.2 ≠ now) → exec .sinkFinish s = .next s)
    ∧ (g.doneAt = some now → runs .gridDone fun h => h = { g with doneBit := true, doneAt := none })
    ∧ (g.doneAt ≠ some now → exec .gridDone s = .next s)

/-- R184-R190: where no east link of column 7 presents a beat, the one element that executes a context in this cycle
puts its operation's result in flight, to land after the operation's latency at the rotated entry, the links and the
segment its word names; the beat it takes leaves its register, and a beat that is not there is a schedule fault. In a
cycle in which no element executes nothing happens. -/
def Obligations.GridContextExecutes : Prop :=
  ∀ s : State,
    let g := s.core.grid
    let now := s.core.now
    (∀ r ∈ g.results, ¬(r.el % 8 = 7 ∧ r.due + 1 = now ∧ r.links.getLsbD 1 = true)) →
    ((∀ e slot n, ¬Executes g e now slot n) → g.stopAt = none → g.loading = none → exec .gridContextExecute s = .next s)
    ∧ ∀ e slot n, Executes g e now slot n → (∀ e' slot' n', Executes g e' now slot' n' → e' = e) →
      let x := (g.el e).ctxs.getD slot 0#128
      let op := field x 0 7
      let t := field x 7 3
      let takes := field x 56 3 ≠ 0
      let full := (g.beats.getD (e / 8) (0#128, false)).2 = true
      (takes → ¬full → ∃ k, exec .gridContextExecute s = .next (takeStop s k [] false 0xFFFF#16 none)
        ∧ k.cls = .schedule ∧ k.eng = 3 ∧ k.rank = 2 + e / 8)
      ∧ (op ≠ 0 → op ≠ 0x28 → op ≠ 0x29 → op ≠ 0x2A → (takes → full) → ∃ u r, exec .gridContextExecute s = .next u
          ∧ u.core.grid.results = g.results ++ [r]
          ∧ (u.core.grid.beats = if takes then g.beats.modify (e / 8) fun y => (y.1, false) else g.beats)
          ∧ r.el = e ∧ r.issue = now ∧ r.due + 1 = now + opLat op
          ∧ (r.val, r.flags) = laneOp op t (BitVec.ofNat 2 (field x 10 2)) (field x 22 4) (BitVec.ofNat 5 (field x 12 5))
              (BitVec.ofNat 5 (field x 17 5)) (g.source e t n (field x 32 8)) (g.source e t n (field x 40 8))
              (g.source e t n (field x 48 8))
          ∧ r.rf = (if field x 64 1 = 1 then some ((field x 65 5 + 32 - n % 32) % 32) else none)
          ∧ r.links.toNat = field x 70 4
          ∧ r.seg = (if field x 74 1 = 1 then some (decide (field x 75 1 = 1), field x 76 5, decide (field x 81 1 = 1)) else none)
          ∧ SameButCore s u fun y z => { z with grid := { z.grid with results := y.grid.results, beats := y.grid.beats } })

/-- R187, R188, R190, R192: of one result due, the register entry, the links and the segment it names take its value,
its flags are raised, and nothing else changes; two results due for one segment are a command fault. -/
def Obligations.GridResultsLand : Prop :=
  ∀ s : State,
    let g := s.core.grid
    let due := g.results.filter fun r => r.due == s.core.now
    (∀ r, due = [r] → r.el < 64 → ∃ t, exec .gridResultLand s = .next t
      ∧ (∀ e < 64, e ≠ r.el → t.core.grid.el e = g.el e)
      ∧ (let x := g.el r.el
         let y := t.core.grid.el r.el
         { y with rf := x.rf, links := x.links } = x
         ∧ (∀ k, y.rf[k]? = if r.rf = some k ∧ k < x.rf.length then some r.val else x.rf[k]?)
         ∧ ∀ d, y.links[d]? = if r.links.getLsbD d = true ∧ d < x.links.length then some r.val else x.links[d]?)
      ∧ t.core.ctx.raised = s.core.ctx.raised ||| r.flags
      ∧ (r.seg = none → t.core.grid.aeb = g.aeb ∧ t.core.grid.geb = g.geb ∧ t.core.grid.amark = g.amark
          ∧ t.core.grid.gmark = g.gmark)
      ∧ (∀ k m, r.seg = some (false, k, m) → t.core.grid.aeb = g.aeb.set k r.val ∧ t.core.grid.geb = g.geb
          ∧ t.core.grid.amark = (g.amark || m) ∧ t.core.grid.gmark = g.gmark)
      ∧ (∀ k m, r.seg = some (true, k, m) → t.core.grid.geb = g.geb.set k r.val ∧ t.core.grid.aeb = g.aeb
          ∧ t.core.grid.gmark = (g.gmark || m) ∧ t.core.grid.amark = g.amark)
      ∧ (∀ q ∈ g.results, s.core.now < q.due → q ∈ t.core.grid.results)
      ∧ (∀ q ∈ t.core.grid.results, q ∈ g.results ∧ s.core.now ≤ q.due)
      ∧ SameButCore s t fun y z => { z with
          ctx := { z.ctx with raised := y.ctx.raised }
          grid := { z.grid with els := y.grid.els, aeb := y.grid.aeb, geb := y.grid.geb, amark := y.grid.amark,
                                gmark := y.grid.gmark, results := y.grid.results } })
    ∧ (∀ a b side k m m', due = [a, b] → a.seg = some (side, k, m) → b.seg = some (side, k, m') →
      ∃ c, exec .gridResultLand s = .next (takeStop s c [] false 0xFFFF#16 none) ∧ c.cls = .command ∧ c.eng = 3)

/-- R204-R206, R212-R222: a vector or chain word that keeps its rules starts a pass over its elements, with the steps,
the interval and the last cycle that R205 and its entry give it; a command fault, and after it, the model's choice (log
entry 25), a bounds fault, has none of this. -/
def Obligations.VectorWordsStart : Prop :=
  ∀ (s : State) (w : Instr) (v : VecWord), vecWord w = some v → WellFormed w = true →
    (VecCommand s v → StopsAtIssue s w 3 .command none)
    ∧ (¬VecCommand s v → ¬VecInside s v → StopsAtIssue s w 3 .bounds none)
    ∧ (¬VecCommand s v → VecInside s v → ∃ t p, exec w s = .next t ∧ Popped s t 3 1 v.idle
      ∧ t.core.grid = { s.core.grid with passes := s.core.grid.passes ++ [p] } ∧ SameButCore s t gridBack
      ∧ p.t = s.core.now ∧ p.op = v.op ∧ p.fmt = v.fs ∧ p.dfmt = v.fd ∧ p.rnd = v.md ∧ p.pred = v.pred ∧ p.dst = v.dst
      ∧ p.srcs = v.srcs ∧ p.n = v.n ∧ p.g = 1024 / v.width ∧ p.d = v.depth ∧ p.supv = s.core.ctx.sup
      ∧ p.steps = (v.n + p.g - 1) / p.g * (if p.op.twice then 2 else 1)
      ∧ p.h = (if ∀ r ∈ v.dst :: v.srcs, regBase r % 128 = 0 ∧ regStride r % 128 = 0 then 1 else 2)
      ∧ (0 < p.steps → p.done = p.t + 1 + (p.steps - 1) * p.h + p.d)
      ∧ (p.steps = 0 → p.done = if p.op.once then p.t + p.d + 1 else p.t)
      ∧ p.bufs = [] ∧ p.acc = XAcc.empty ∧ p.accI = 0 ∧ p.flags = 0#8)

/-- R205, R207, R215: each pass whose step is due reads, of each of its sources, the elements of the step as LM stands;
a sum of integers adds them; a pass without a due step, and all else, keeps its state. -/
def Obligations.PassStepsRead : Prop :=
  ∀ s : State, ∃ t, exec .passStepRead s = .next t ∧ t.core.grid.passes.length = s.core.grid.passes.length
    ∧ SameButCore s t (fun x v => { v with grid := { v.grid with passes := x.grid.passes } })
    ∧ ∀ (k : Nat) (p : Pass), s.core.grid.passes[k]? = some p → ∃ q : Pass, t.core.grid.passes[k]? = some q
      ∧ ((∀ j, ¬ReadsStep p j s.core.now) → q = p)
      ∧ ∀ j, 0 < p.h → ReadsStep p j s.core.now → p.op.twice = false →
        let count := min p.g (p.n - j * p.g)
        let rd := s.core.lmRead p.supv
        (p.op.once = false → ∃ ls, q = { p with bufs := p.bufs ++ [(j, ls)] } ∧ ls.length = min p.srcs.length p.srcFmts.length
          ∧ ∀ (i : Nat) r f, p.srcs[i]? = some r → p.srcFmts[i]? = some f → ∃ l, ls[i]? = some l ∧ l.length = count
            ∧ ∀ m < count, ∃ x : W64, l[m]? = some x ∧ x.toNat = elemAt rd r f (j * p.g + m))
        ∧ (∀ r, p.op = .sum → p.srcs = [r] → (intRange p.fmt).isSome = true → ∃ add, q = { p with accI := p.accI + add }
          ∧ add = ((List.range count).map fun m => elInt p.fmt (BitVec.ofNat 64 (elemAt rd r p.fmt (j * p.g + m)))).sum)

/-- R203, R205-R207, R212, R214: one pass in flight, of an element-wise word, whose read step is due writes the bits of the
step's elements in LM with its operation's results, no other bit, and raises their flags, a fill none; it leaves after its
last cycle. -/
def Obligations.PassStepsWrite : Prop :=
  ∀ (s : State) (p : Pass) (j : Nat) (ls : List (List W64)), s.core.grid.passes = [p] → s.core.ctx.sup = p.supv →
    p.op.once = false → p.op.twice = false → p.op ≠ .scan → 0 < p.h → p.d ≤ s.core.now → ReadsStep p j (s.core.now - p.d) →
    (p.bufs.find? fun b => b.1 == j) = some (j, ls) →
    let count := min p.g (p.n - j * p.g)
    let w := fmtWidth p.dfmt
    let at_ (m : Nat) : Int := regBit p.dst w (j * p.g + m)
    let res (m : Nat) : W64 × Byte := p.el (ls.map fun l => l.getD m 0#64)
    (∀ m < count, 0 ≤ at_ m ∧ at_ m + w ≤ 8 * 0x200000 ∧ ∀ m' < count, m' ≠ m → at_ m + w ≤ at_ m' ∨ at_ m' + w ≤ at_ m) →
    ∃ t, exec .passStepWrite s = .next t
      ∧ (∀ m < count, bitsAt (t.core.lmRead p.supv) (at_ m).toNat w
          = (let v := (res m).1.toNat % 2 ^ w; if p.dfmt = 2#5 then v / 2 ^ 13 * 2 ^ 13 else v))
      ∧ (∀ b : Nat, (∀ m < count, ¬(at_ m ≤ (b : Int) ∧ (b : Int) < at_ m + w)) →
          bitOf (t.core.lmRead p.supv) b = bitOf (s.core.lmRead p.supv) b)
      ∧ t.core.ctx.raised = (List.range count).foldl (fun f m => f ||| (res m).2) s.core.ctx.raised
      ∧ (∀ v, p.op = .fill v → t.core.ctx.raised = s.core.ctx.raised)
      ∧ t.core.grid.passes = (if s.core.now < p.done then [{ p with bufs := p.bufs.filter fun b => b.1 != j }] else [])
      ∧ (t.mod fun c => { c with
          lm := s.core.lm, slm := s.core.slm, wrote := s.core.wrote, ctx := { c.ctx with raised := s.core.ctx.raised }
          grid := s.core.grid }) = s
      ∧ t.core.grid = { s.core.grid with passes := t.core.grid.passes }

namespace Sys2Proof.Claims

/-! Counter-flow array. -/

/-- Put back the array of the current core and its queues. -/
def arrBack (x v : Core) : Core := { v with ctx := { v.ctx with qs := x.ctx.qs }, arr := x.arr }

/-- What a settings word makes of the array at its issue (R174-R177, R179, R181). -/
def arrSetting (x : Arr) : Instr → Option (BitVec 4 × Arr)
  | .cfMode i m => some (i, { x with set := { x.set with mode := m } })
  | .cfEta i v => some (i, { x with set := { x.set with eta := v } })
  | .cfFade i v => some (i, { x with set := { x.set with fade := v } })
  | .cfFmt i af gf o md => some (i, { x with set := { x.set with afmt := af, gfmt := gf, ofmt := o, rnd := md } })
  | .cfClra i => some (i, { x with clra := true })
  | .cfHsel i s => some (i, { x with hsrc := s })
  | .cfHclr i => some (i, { x with hb := List.replicate 32 0#32 })
  | _ => none

/-- The LM operand of an array word (R170, R178, R180): address and bytes. -/
def arrOperand (x : Arr) : Instr → Option (BitVec 4 × Nat × Nat)
  | .cfLdst i f a => some (i, a.toNat, if f = 0x12#5 then 8576 else if f = 0x13#5 then 6528 else 64 * (64 * packK f * fmtWidth f / 8))
  | .cfDrain i o _ a => some (i, a.toNat, 64 * (64 * packK (x.cell 0).act.fmt) * (fmtWidth o / 8))
  | .cfHread i a => some (i, a.toNat, 128)
  | _ => none

/-- The command faults of such a word, after the checks of its operand: another of its kind in flight, or an S front
that is crossing the array (R171, R178). -/
def arrBusy (s : State) : Instr → Bool
  | .cfLdst _ _ _ => s.core.arr.ldst.isSome || s.core.arr.lastS.any fun c => decide (s.core.now ≤ c + 126)
  | .cfDrain _ _ _ _ => s.core.arr.drain.isSome
  | _ => false

/-- What such a word puts in flight. -/
def arrFlight (s : State) : Instr → Arr
  | .cfLdst _ f a => { s.core.arr with ldst := some ⟨s.core.now, f, a.toNat, []⟩ }
  | .cfDrain _ o m a => { s.core.arr with drain := some ⟨s.core.now, o, m, a.toNat, packK (s.core.arr.cell 0).act.fmt, []⟩ }
  | .cfHread _ a => { s.core.arr with hreads := s.core.arr.hreads ++ [⟨s.core.now, a.toNat, s.core.arr.hb⟩] }
  | _ => s.core.arr

/-- A front word (R172, R173): idle field, kind, gradient side, pair enable, compute enable, any version, pair slot. -/
def frontWord : Instr → Option (BitVec 4 × FrontKind × Bool × Bool × Bool × Bool × Nat)
  | .cfFwd i _ => some (i, .F, false, false, true, false, 0)
  | .cfRpl i p pe ce _ => some (i, .R, false, decide (pe = 1#1), decide (ce = 1#1), false, p.toNat)
  | .cfGrd i p pe ce av _ => some (i, .G, true, decide (pe = 1#1), decide (ce = 1#1), decide (av = 1#1), p.toNat)
  | .cfApl i _ => some (i, .A, false, false, false, false, 0)
  | .cfSwp i _ => some (i, .S, false, false, false, false, 0)
  | .cfNul i av sd _ => some (i, .N, decide (sd = 1#1), false, false, decide (av = 1#1), 0)
  | _ => none

/-- Whether a front reads operands (R153). -/
def readsOps (k : FrontKind) (pe ce : Bool) : Bool := k == .F || ((k == .R || k == .G) && (pe || ce))

/-- A front's spacing (R154): that of its row at its first cell, or the least of that cell's rows. -/
def spacingOf (x : Arr) (reads grad : Bool) : Nat :=
  let res := (x.cell (if grad then 4095 else 0)).act.fmt
  if reads then (rowSpacing res x.set.afmt x.set.gfmt).getD 0 else if res = 0#5 then 16 else if res = 1#5 then 4 else 1

/-- The spacing that repeatable mode asks of fronts that read operands (R335). -/
def repeatSpacing (g : Gov) (reads : Bool) : Nat :=
  if reads ∧ g.ctl.getLsbD 16 = true then g.ctl.toNat / 2 ^ 21 % 2 ^ 5 else 0

/-- Byte k of a buffer of segments. -/
def segByte (l : List W128) (k : Nat) : Byte := BitVec.ofNat 8 ((l.getD (k / 16) 0#128).toNat / 256 ^ (k % 16))

/-- The cells on an anti-diagonal. -/
def onDiag (i j d : Nat) : Prop := i < 64 ∧ j < 64 ∧ i + j = d

/-- W - eta (A + fade W), rounded once into the resident format (R157). -/
def applied (f : BitVec 5) (w a eta fade : Val) : W64 :=
  let (r, _) := Val.mul fade w
  let (u, _) := Val.add 0#2 a r
  let (d, _) := Val.mul eta u
  let (x, _) := Val.add 0#2 w d.minus
  (rnd f 0#2 x).1

/-- A front stands on anti-diagonal d in cycle now (R152). -/
def Stands (f : Front) (now d : Nat) : Prop := f.a ≤ now ∧ d ≤ 126 ∧ if f.grad then now - f.a + d = 126 else now - f.a = d

/-- Its activation operands at a cell of column j with packing k, and whether it computes (R150, R153). -/
def actOps (f : Front) (j k : Nat) : List W64 := (List.range k).map fun m => codeAt f.ops (k * j + m)
def Computes (f : Front) : Prop := f.kind = .F ∨ ((f.kind = .R ∨ f.kind = .G) ∧ f.ce = true)

/-- The cell after the clear of `cf.clra`, where it acts in the cycle (R177). -/
def cleared (x : Arr) (c : Cell) : Cell := if x.clra then { c with acc := List.replicate (packK c.act.fmt) 0#64 } else c

/-- A completed pair turns cell c into c' (R156): operands xs of format xf, gradient g of format gf, settings of the front
that completes it. -/
def PairActs (c c' : Cell) (xf : BitVec 5) (xs : List W64) (gf : BitVec 5) (g : W64) (set : ArrSet) : Prop :=
  let r := c.act.fmt
  let x (m : Nat) : Val := (toVal xf (codeAt xs m)).1
  let gv := (toVal gf g).1
  let eta := (toVal 1#5 (set.eta.setWidth 64)).1
  (set.mode = 0#2 → c' = c)
  ∧ (set.mode = 1#2 → { c' with act := c.act, v := c.v } = c ∧ { c'.act with w := c.act.w } = c.act ∧ c'.v = c.v + 1#16
      ∧ c'.act.w.length = packK r
      ∧ ∀ m < packK r, codeAt c'.act.w m
          = (rnd r 0#2 (Val.add 0#2 (c.act.val m) (Val.mul eta (Val.mul (x m) gv).1).1.minus).1).1)
  ∧ (set.mode = 2#2 → { c' with acc := c.acc } = c ∧ c'.acc.length = packK r
      ∧ ∀ m < packK r, codeAt c'.acc m = (accStep (accFmtOf r) (codeAt c.acc m) (x m) gv).1)

/-- A pair that may not complete on a plane (R156). -/
def PairBad (c : Cell) (n : Nat) (set : ArrSet) : Prop :=
  set.mode ≠ 0#2 ∧ (c.act.fmt = 0x12#5 ∨ c.act.fmt = 0x13#5 ∨ n ≠ packK c.act.fmt)

/-- A front that offers operands to its pair slot turns cell (i, j) into c' (R155): it fills an empty slot, or completes the
pair with what the other side left there. -/
def SlotTurns (x : Arr) (f : Front) (i j : Nat) (c c' : Cell) : Prop :=
  let xs := actOps f j (packK c.act.fmt)
  let emptied := { cleared x c with slots := c.slots.set f.p .empty }
  match c.slots.getD f.p .empty, f.grad with
  | .empty, false => c' = { cleared x c with slots := c.slots.set f.p (.act f.set.afmt xs) }
  | .empty, true => c' = { cleared x c with slots := c.slots.set f.p (.grad f.set.gfmt (codeAt f.ops i)) }
  | .act xf ys, true => PairActs emptied c' xf ys f.set.gfmt (codeAt f.ops i) f.set
  | .grad gf g, false => PairActs emptied c' f.set.afmt xs gf g f.set
  | _, _ => False

/-- A front overruns the slot of a cell (R155): it holds operands of the front's side. -/
def Overruns (f : Front) (c : Cell) : Prop :=
  if f.grad then ∃ r g, c.slots.getD f.p .empty = .grad r g else ∃ r xs, c.slots.getD f.p .empty = .act r xs

/-- Its pair may not complete at a cell. -/
def Spoils (f : Front) (c : Cell) : Prop :=
  if f.grad then ∃ r xs, c.slots.getD f.p .empty = .act r xs ∧ PairBad c xs.length f.set
  else ∃ r g, c.slots.getD f.p .empty = .grad r g ∧ PairBad c (packK c.act.fmt) f.set

/-- The bin of a rounded value (R164). -/
def binOf (f : BitVec 5) (v : W64) : Nat :=
  match (toVal f v).1 with
  | .zero _ => 0
  | .fin n d => (min (max (ilog2 n.natAbs d + 16) 1) 30).toNat
  | _ => 31

end Sys2Proof.Claims

/-- R170, R171, R174-R181: a settings word writes its setting for later fronts, a clear the accumulators' clear of this
cycle or the counters; a word with an LM operand starts its transfer, and stops with a bounds fault, an alignment fault
or, where its kind is busy, a command fault, in this order, which after the bounds is the model's choice (log entry 25). -/
def Obligations.ArrayWords : Prop :=
  ∀ (s : State) (w : Instr),
    (∀ i x, arrSetting s.core.arr w = some (i, x) → ∃ t, exec w s = .next t ∧ Popped s t 4 1 i ∧ t.core.arr = x
      ∧ SameButCore s t arrBack)
    ∧ ∀ i a n, arrOperand s.core.arr w = some (i, a, n) →
      (s.core.lmGrant < a + n → StopsAtIssue s w 4 .bounds (some a))
      ∧ (a + n ≤ s.core.lmGrant → a % 128 ≠ 0 → StopsAtIssue s w 4 .alignment (some a))
      ∧ (a + n ≤ s.core.lmGrant → a % 128 = 0 → arrBusy s w = true → StopsAtIssue s w 4 .command none)
      ∧ (a + n ≤ s.core.lmGrant → a % 128 = 0 → arrBusy s w = false → ∃ t, exec w s = .next t ∧ Popped s t 4 1 i
        ∧ t.core.arr = arrFlight s w ∧ SameButCore s t arrBack)

/-- R151, R153, R154, R160, R173: a front enters with the settings as they stand and, where it reads operands, with the
elements of its edge buffer, whose mark it clears; too close to the previous front of its side, or an S front under a
load, is a command fault; stale operands a schedule fault; a gradient front and an A or S front less than 127 cycles
apart a version straddle unless the gradient front carries AV. -/
def Obligations.FrontsAdmitted : Prop :=
  ∀ (s : State) (w : Instr) i kind grad pe ce av p, frontWord w = some (i, kind, grad, pe, ce, av, p) →
    let x := s.core.arr
    let now := s.core.now
    let reads := readsOps kind pe ce
    let sp := spacingOf x reads grad
    let swaps := kind = .A ∨ kind = .S
    let tight := (∃ c q, (if grad then x.lastGrad else x.lastAct) = some (c, q)
      ∧ now < c + max (max sp q) (repeatSpacing s.gov reads)) ∨ (kind = .S ∧ x.ldst ≠ none)
    let fresh := (if grad then s.core.grid.gmark else s.core.grid.amark) = true
    let straddle := (grad = true ∧ av = false ∧ ∃ c, x.lastAS = some c ∧ now ≤ c + 126)
      ∨ (swaps ∧ ∃ c ∈ x.strict, now ≤ c + 126)
    let fmt := if grad then x.set.gfmt else x.set.afmt
    let buf := if grad then s.core.grid.geb else s.core.grid.aeb
    let count := if grad then 64 else 64 * packK (x.cell 0).act.fmt
    (tight → StopsAtIssue s w 4 .command none)
    ∧ (¬tight → reads = true → ¬fresh → StopsAtIssue s w 4 .schedule none)
    ∧ (¬tight → (reads = true → fresh) → straddle → StopsAtIssue s w 4 .versionStraddle none)
    ∧ (¬tight → (reads = true → fresh) → ¬straddle → ∃ t f, exec w s = .next t ∧ Popped s t 4 1 i
      ∧ t.core.arr.fronts = x.fronts ++ [f]
      ∧ f.kind = kind ∧ f.grad = grad ∧ f.a = now ∧ f.pe = pe ∧ f.ce = ce ∧ f.p = p ∧ f.set = x.set
      ∧ f.sums = List.replicate 256 0#64
      ∧ (reads = false → f.ops = [] ∧ t.core.grid = s.core.grid)
      ∧ (reads = true → f.ops.length = count
          ∧ (∀ m < count, ∃ v : W64, f.ops[m]? = some v ∧ v.toNat = bitsAt (segByte buf) (m * fmtWidth fmt) (fmtWidth fmt))
          ∧ t.core.grid = { s.core.grid with
              amark := if grad then s.core.grid.amark else false, gmark := if grad then false else s.core.grid.gmark })
      ∧ { t.core.arr with fronts := x.fronts, strict := x.strict } = { x with
          lastAct := if grad then x.lastAct else some (now, sp)
          lastGrad := if grad then some (now, sp) else x.lastGrad
          lastAS := if kind = .A ∨ kind = .S then some now else x.lastAS
          lastS := if kind = .S then some now else x.lastS }
      ∧ (∀ c, now ≤ c + 126 → (c ∈ t.core.arr.strict ↔ c ∈ x.strict ∨ (c = now ∧ grad = true ∧ av = false)))
      ∧ SameButCore s t fun y v => { v with
          ctx := { v.ctx with qs := y.ctx.qs, raised := y.ctx.raised }, arr := y.arr, grid := y.grid })

/-- R150, R152, R153, R155-R158, R161, R177: one front in the array is in a cycle at the cells of one anti-diagonal. A front
that computes adds to y_i of each row, or to dx of each column, the products of its operands with the weights there, in
the accumulation format, and lets the sums leave at the edge; one with pair enable fills its slot or completes a pair,
whose update is that of its mode. An A front applies A and the fade to each weight, clears the accumulators and counts a
version; an S front exchanges the planes; another changes no cell. A clear of the cycle acts before its pairs, on every
cell; no other cell changes. A pair of two fronts that meet at an empty slot takes the gradient front's settings. No row
of formats, an A front on an NQ plane and a pair that may not complete are command faults, an overrun a pair-overrun
fault of the first cell. -/
def Obligations.FrontCrosses : Prop :=
  ∀ s : State,
    let x := s.core.arr
    let now := s.core.now
    let same (t : State) : Prop := SameButCore s t fun y v => { v with ctx := { v.ctx with raised := y.ctx.raised }
                                                                       arr := { v.arr with cells := y.arr.cells, fronts := y.arr.fronts, outs := y.arr.outs, clra := y.arr.clra } }
    let stops (cls : StopClass) (at_ : Option Nat) : Prop := ∃ k u, exec .frontCellStep s = .next (takeStop u k [] false 0xFFFF#16 none)
      ∧ { u with moreStops := s.moreStops } = s ∧ k.cls = cls ∧ k.eng = 4 ∧ ∀ a, at_ = some a → k.detail = a
    (∀ n < 4096, (x.cell n).slots.length = 4) →
    (x.fronts = [] → x.clra = false → exec .frontCellStep s = .next s)
    ∧ (x.fronts = [] → x.clra = true → ∃ t, exec .frontCellStep s = .next t ∧ (∀ n < 4096, t.core.arr.cell n = cleared x (x.cell n))
        ∧ t.core.arr.clra = false ∧ same t)
    ∧ (∀ f d, x.fronts = [f] → Stands f now d → f.p < 4 → f.sums.length = 256 →
      let reads := readsOps f.kind f.pe f.ce = true
      let pairs := (f.kind = .R ∨ f.kind = .G) ∧ f.pe = true
      let fits := ∀ i j, onDiag i j d → f.set.fits (x.cell (64 * i + j)).act.fmt = true
      let alike := f.grad = true → ∀ i j i' j', onDiag i j d → onDiag i' j' d →
        packK (x.cell (64 * i + j)).act.fmt = packK (x.cell (64 * i' + j')).act.fmt
      let left (g : Front) : List Front := if now < f.a + 126 then [g] else []
      let others (t : State) : Prop := ∀ n < 4096, n / 64 + n % 64 ≠ d → t.core.arr.cell n = cleared x (x.cell n)
      (f.kind ≠ .A → f.kind ≠ .S → (reads → fits) → alike →
        (pairs → ∀ i j, onDiag i j d → ¬Overruns f (x.cell (64 * i + j)) ∧ ¬Spoils f (x.cell (64 * i + j))) →
        ∃ t g, exec .frontCellStep s = .next t ∧ same t ∧ others t ∧ t.core.arr.fronts = left g ∧ { g with sums := f.sums } = f
          ∧ (∀ i j, onDiag i j d → let c := x.cell (64 * i + j)
              let c' := t.core.arr.cell (64 * i + j)
              (pairs → SlotTurns x f i j c c') ∧ (¬pairs → c' = cleared x c))
          ∧ (¬Computes f → g = f ∧ t.core.arr.outs = x.outs)
          ∧ (Computes f → f.grad = false →
              (∀ i < 64, (∀ j, ¬onDiag i j d) → codeAt g.sums i = codeAt f.sums i)
              ∧ (∀ i j, onDiag i j d → let c := x.cell (64 * i + j)
                  let k := packK c.act.fmt
                  codeAt g.sums i = (accRun (accFmtOf c.act.fmt) (codeAt f.sums i)
                    ((List.range k).map fun m => (c.act.val m, (toVal f.set.afmt (codeAt f.ops (k * j + m))).1))).1)
              ∧ (d < 63 → t.core.arr.outs = x.outs)
              ∧ (63 ≤ d → ∃ o, t.core.arr.outs = x.outs ++ [o] ∧ o.idx = d - 63 ∧ o.val = codeAt g.sums (d - 63) ∧ o.grad = false
                  ∧ o.a = f.a ∧ o.due = now + 3 ∧ o.ofmt = f.set.ofmt ∧ o.rnd = f.set.rnd
                  ∧ o.accFmt = accFmtOf (x.cell (64 * (d - 63) + 63)).act.fmt))
          ∧ (Computes f → f.grad = true →
              (∀ i j, onDiag i j d → let c := x.cell (64 * i + j)
                  let k := packK c.act.fmt
                  ∀ m < k, codeAt g.sums (k * j + m) = (accStep (accFmtOf c.act.fmt) (codeAt f.sums (k * j + m)) (c.act.val m)
                    (toVal f.set.gfmt (codeAt f.ops i)).1).1)
              ∧ (63 < d → t.core.arr.outs = x.outs)
              ∧ (d ≤ 63 → ∃ l, t.core.arr.outs = x.outs ++ l ∧ l.length = packK (x.cell d).act.fmt
                  ∧ ∀ (m : Nat) (o : OutVal), l[m]? = some o → o.idx = l.length * d + m ∧ o.val = codeAt g.sums o.idx ∧ o.grad = true
                    ∧ o.a = f.a ∧ o.due = now + 3 ∧ o.ofmt = f.set.ofmt ∧ o.rnd = f.set.rnd
                    ∧ o.accFmt = accFmtOf (x.cell d).act.fmt)))
      ∧ (reads → pairs = False → ¬fits → stops .command none)
      ∧ (pairs → fits → f.set.mode = 0#2 → ∀ i j, onDiag i j d → Overruns f (x.cell (64 * i + j)) →
          (∀ i' j', i' < i → onDiag i' j' d → ¬Overruns f (x.cell (64 * i' + j'))) → stops .pairOverrun (some (256 * i + j)))
      ∧ (pairs → fits → (∀ i j, onDiag i j d → ¬Overruns f (x.cell (64 * i + j))) →
          (∃ i j, onDiag i j d ∧ Spoils f (x.cell (64 * i + j))) → stops .command none)
      ∧ (f.kind = .A → f.grad = false → (∃ i j, onDiag i j d ∧ isNqFmt (x.cell (64 * i + j)).act.fmt = true) → stops .command none)
      ∧ (f.kind = .A → f.grad = false → (∀ i j, onDiag i j d → isNqFmt (x.cell (64 * i + j)).act.fmt = false) →
        ∃ t, exec .frontCellStep s = .next t ∧ same t ∧ others t ∧ t.core.arr.outs = x.outs ∧ t.core.arr.fronts = left f
        ∧ ∀ i j, onDiag i j d →
            let c := x.cell (64 * i + j)
            let c' := t.core.arr.cell (64 * i + j)
            let r := c.act.fmt
            { c' with act := c.act, acc := c.acc, v := c.v } = c ∧ { c'.act with w := c.act.w } = c.act ∧ c'.v = c.v + 1#16
            ∧ c'.acc = List.replicate (packK r) 0#64 ∧ c'.act.w.length = packK r
            ∧ ∀ m < packK r, codeAt c'.act.w m = applied r (c.act.val m) (toVal (accFmtOf r) (codeAt c.acc m)).1
                (toVal 1#5 (f.set.eta.setWidth 64)).1 (toVal 1#5 (f.set.fade.setWidth 64)).1)
      ∧ (f.kind = .S → f.grad = false →
        ∃ t, exec .frontCellStep s = .next t ∧ same t ∧ others t ∧ t.core.arr.outs = x.outs ∧ t.core.arr.fronts = left f
        ∧ ∀ i j, onDiag i j d →
            let c := x.cell (64 * i + j)
            let c' := t.core.arr.cell (64 * i + j)
            let kept := x.clra = false ∧ accFmtOf c.act.fmt = accFmtOf c.shadow.fmt ∧ packK c.act.fmt = packK c.shadow.fmt
            { c' with act := c.act, shadow := c.shadow, acc := c.acc, v := c.v } = c ∧ c'.act = c.shadow ∧ c'.shadow = c.act
            ∧ c'.v = c.v + 1#16 ∧ (kept → c'.acc = c.acc) ∧ (¬kept → c'.acc = List.replicate (packK c.shadow.fmt) 0#64)))
    ∧ ∀ f g d, x.fronts = [f, g] → Stands f now d → Stands g now d → f.grad = false → g.grad = true → f.kind = .R → g.kind = .G →
        f.pe = true → g.pe = true → f.p = g.p → f.p < 4 →
        (∀ i j, onDiag i j d → f.set.fits (x.cell (64 * i + j)).act.fmt = true ∧ g.set.fits (x.cell (64 * i + j)).act.fmt = true
          ∧ (x.cell (64 * i + j)).slots.getD f.p .empty = .empty ∧ ¬PairBad (x.cell (64 * i + j)) (packK (x.cell (64 * i + j)).act.fmt) g.set) →
        ∃ t, exec .frontCellStep s = .next t ∧ same t
          ∧ (∀ n < 4096, n / 64 + n % 64 ≠ d → t.core.arr.cell n = cleared x (x.cell n))
          ∧ ∀ i j, onDiag i j d → let c := x.cell (64 * i + j)
            PairActs (cleared x c) (t.core.arr.cell (64 * i + j)) f.set.afmt (actOps f j (packK c.act.fmt)) g.set.gfmt (codeAt g.ops i) g.set

/-- R171, R178, R180: in cycle t + 1 + i a load reads row i, and at the end of t + 4 + i row i of the shadow plane takes
the codes read; a drain's row i lands at the end of t + 3 + i, its rounded values little-endian; a histogram snapshot
lands two cycles after its word; nothing else changes. -/
def Obligations.ArrayRowsMove : Prop :=
  ∀ s : State,
    let x := s.core.arr
    let now := s.core.now
    let sup := s.core.ctx.sup
    (∀ (l : Ldst) (i : Nat) (b : List Byte), x.ldst = some l → now = l.t + 4 + i → i < 64 → isNqFmt l.fmt = false →
      (l.rows.filter fun r => r.1 == i) = [(i, b)] → b.length = rowBytes l.fmt →
      ∃ t l', exec .ldstRowWrite s = .next t ∧ t.core.arr.ldst = some l'
        ∧ { l' with rows := l.rows } = l
        ∧ (i + 3 < 64 → ∃ w, (i + 3, w) ∈ l'.rows ∧ w.length = rowBytes l.fmt
            ∧ ∀ j < rowBytes l.fmt, w[j]? = some (s.core.lmRead sup (l.addr + (i + 3) * rowBytes l.fmt + j)))
        ∧ (∀ n < 4096, n / 64 ≠ i → t.core.arr.cell n = x.cell n)
        ∧ (∀ j < 64,
            let c := x.cell (64 * i + j)
            let c' := t.core.arr.cell (64 * i + j)
            let w := fmtWidth l.fmt
            { c' with shadow := c.shadow } = c ∧ c'.shadow.fmt = l.fmt ∧ c'.shadow.w.length = packK l.fmt
            ∧ ∀ m < packK l.fmt, (codeAt c'.shadow.w m).toNat =
                (let v := bitsAt (fun q => b.getD q 0#8) ((packK l.fmt * j + m) * w) w
                 if l.fmt = 2#5 then v / 2 ^ 13 * 2 ^ 13 else if l.fmt = 0x11#5 ∧ v = 2 then 0 else v))
        ∧ SameButCore s t fun y v => { v with
            ctx := { v.ctx with raised := y.ctx.raised }, arr := { v.arr with ldst := y.arr.ldst, cells := y.arr.cells } })
    ∧ (x.ldst = none → exec .ldstRowWrite s = .next s)
    ∧ (∀ (d : Drain) (i : Nat) vs, s.canon → x.drain = some d → now = d.t + 3 + i → i < 64 →
      (d.rows.filter fun r => r.1 == i) = [(i, vs)] →
      let z := fmtWidth d.ofmt / 8
      let a := d.addr + i * 64 * d.k * z
      0 < z → a + vs.length * z ≤ 0x200000 →
      ∃ t, exec .drainRowWrite s = .next t
        ∧ (∀ (c : Nat) v, vs[c]? = some v → numAt (t.core.lmRead sup) (a + c * z) z
            = (rnd d.ofmt d.rnd (toVal v.2 v.1).1).1.toNat % 256 ^ z)
        ∧ (∀ q, q < a ∨ a + vs.length * z ≤ q → t.core.lmRead sup q = s.core.lmRead sup q)
        ∧ t.core.arr = { x with drain := if i = 63 then none else some { d with rows := d.rows.filter fun r => r.1 != i } }
        ∧ (t.mod fun c => { c with lm := s.core.lm, slm := s.core.slm, wrote := s.core.wrote, arr := x }) = s)
    ∧ (x.drain = none → exec .drainRowWrite s = .next s)
    ∧ (∀ h : Hread, s.canon → (x.hreads.filter fun y => y.t + 2 == now) = [h] → h.vals.length = 32 → h.addr + 128 ≤ 0x200000 →
      ∃ t, exec .hreadLand s = .next t
        ∧ (∀ (b : Nat) v, h.vals[b]? = some v → numAt (t.core.lmRead sup) (h.addr + 4 * b) 4 = (v : W32).toNat)
        ∧ (∀ q, q < h.addr ∨ h.addr + 128 ≤ q → t.core.lmRead sup q = s.core.lmRead sup q)
        ∧ t.core.arr = { x with hreads := x.hreads.filter fun y => y.t + 2 != now }
        ∧ (t.mod fun c => { c with lm := s.core.lm, slm := s.core.slm, wrote := s.core.wrote, arr := x }) = s)

/-- R163, R164, R178, R193: the one value presented in a cycle is rounded once into its output format, counted where its
stream is the histogram's source, and joins its front's vector; a drain reads the row of this cycle, unless a cell of it
does not take the output format, which is a command fault; the one vector due replaces its return register. -/
def Obligations.ArrayOutputs : Prop :=
  ∀ s : State,
    let x := s.core.arr
    let now := s.core.now
    (∀ o : OutVal, x.drain = none → (x.outs.filter fun y => y.due == now) = [o] →
      let r := rnd o.ofmt o.rnd (toVal o.accFmt o.val).1
      ∃ t, exec .drainPresent s = .next t
        ∧ t.core.arr.outs = x.outs.filter (fun y => y.due != now)
        ∧ t.core.ctx.raised = s.core.ctx.raised ||| r.2
        ∧ (∃ v ∈ t.core.arr.deskew, v.grad = o.grad ∧ v.a = o.a ∧ (o.idx, r.1) ∈ v.vals)
        ∧ (∀ b < 32, t.core.arr.hb[b]? = if x.hsrc.toNat = (if o.grad then 2 else 1) ∧ binOf o.ofmt r.1 = b then
            (x.hb[b]?).map fun h => if h.toNat = 2 ^ 32 - 1 then h else h + 1#32 else x.hb[b]?)
        ∧ SameButCore s t fun y v => { v with
            ctx := { v.ctx with raised := y.ctx.raised }
            arr := { v.arr with outs := y.arr.outs, deskew := y.arr.deskew, hb := y.arr.hb } })
    ∧ (∀ (d : Drain) i, x.drain = some d → (∀ y ∈ x.outs, y.due ≠ now) → now = d.t + 1 + i → i < 64 →
      let bad (j : Nat) : Prop := outOk (x.cell (64 * i + j)).act.fmt d.ofmt = false ∨ packK (x.cell (64 * i + j)).act.fmt ≠ d.k
      ((∀ j < 64, ¬bad j) → ∃ t row, exec .drainPresent s = .next t
        ∧ { t.core.arr with hb := x.hb } = { x with drain := some { d with rows := d.rows ++ [(i, row)] } }
        ∧ row.length = 64 * d.k
        ∧ (∀ j < 64, ∀ m < d.k, row[d.k * j + m]? = some
            (codeAt (x.cell (64 * i + j)).acc m, accFmtOf (x.cell (64 * i + j)).act.fmt))
        ∧ SameButCore s t fun y v => { v with ctx := { v.ctx with raised := y.ctx.raised }, arr := y.arr })
      ∧ ∀ j < 64, bad j → (∀ j' < j, ¬bad j') → ∃ k, exec .drainPresent s = .next (takeStop s k [] false 0xFFFF#16 none)
        ∧ k.cls = .command ∧ k.eng = 4 ∧ k.detail = 256 * i + j)
    ∧ (∀ v : Deskew, (x.deskew.filter fun y => y.a + 130 == now) = [v] →
      ∃ t segs, exec .returnRegisterReplace s = .next t
        ∧ t.core.grid = (if v.grad then { s.core.grid with dret := segs } else { s.core.grid with yret := segs })
        ∧ segs.length = (if v.grad then 64 else 32)
        ∧ ((v.vals.map Prod.fst).Pairwise (· ≠ ·) → ∀ e y, (e, y) ∈ v.vals → e * fmtWidth v.ofmt + fmtWidth v.ofmt ≤ 128 * segs.length →
            bitsAt (segByte segs) (e * fmtWidth v.ofmt) (fmtWidth v.ofmt) = y.toNat % 2 ^ fmtWidth v.ofmt)
        ∧ t.core.arr = { x with deskew := x.deskew.filter fun y => y.a + 130 != now }
        ∧ SameButCore s t fun y z => { z with grid := y.grid, arr := y.arr })

namespace Sys2Proof.Claims

/-! Sync unit. -/

/-- The word at the head of the SYN queue has issued; its waiting record is gone. -/
def PoppedSyn (s t : State) (idle : BitVec 4) : Prop := Popped s t 6 1 idle ∧ t.core.ctx.pend6 = Pend.reset

/-- The lookups of the SYN word find va … va + n - 1 writable, from physical address pa on, with memory type mt (R255,
R259, R319); t: the state after them. -/
def Finds (s t : State) (va n pa mt : Nat) : Prop :=
  ∃ l off len bits r, issueLooks s 6 [(va, va + n)] = (t, some l)
    ∧ pieces t l false true va n = .inr ((off, pa, len, bits) :: r) ∧ (bits : Byte).toNat / 64 % 4 = mt

/-- A wide barrier without co-residence (R253). -/
def TooWide (s : State) (sc : BitVec 3) : Prop := 3 ≤ sc.toNat ∧ s.core.task.map Task.cor ≠ some true

/-- A barrier all of whose members lie in the gang (R13). -/
def InGang (s : State) (sc : BitVec 3) : Prop :=
  sc.toNat < 2 ∨ ∀ m ∈ s.barMembers s.cur.val sc.toNat, m ∈ s.members s.cur.val

/-- A piece of work issued at t whose last effect comes at cycle `last` is in flight at the end of cycle a, and the cycle
after that effect has not come before u (R254). -/
def Acts (a u t last : Nat) : Prop := t ≤ a ∧ a < last ∧ u ≤ last

/-- Work in flight on core k at the end of cycle a that is not over before u: the list of R254 for `.core`, of the CP the
results that are still to drop. A store stream
left open, and a graph whose end is not known yet, never end. -/
def WorkInFlight (k : Core) (a u : Nat) : Prop :=
  let x := k.ctx
  let g := k.grid
  let r := k.arr
  (a < u ∧ ∃ t ∈ x.dropped, t ≤ a)
  ∨ (∃ e ∈ x.effs, (e.kind = .drop ∨ e.kind = .nload ∨ e.kind = .nread) ∧ Acts a u e.issue e.due)
  ∨ (∃ p ∈ x.ldP, p.running = true ∧ Acts a u p.start (p.readAt (p.st.beats - 1)))
  ∨ (∃ p ∈ x.stP, (p.open_ = true ∧ p.start ≤ a) ∨ ∃ l ∈ p.lands, Acts a u l.start l.due)
  ∨ (∃ c ∈ x.copies, Acts a u c.issue (c.issue + c.lat - 1))
  ∨ (∃ t img, g.loading = some (t, img) ∧ Acts a u (t - loadCycles (imgLen img)) t)
  ∨ (∃ p ∈ g.passes, Acts a u p.t p.done)
  ∨ (g.doneBit = false ∧ ∃ t, g.running = some t ∧ ((∃ d, g.doneAt = some d ∧ Acts a u t d) ∨ (g.doneAt = none ∧ t ≤ a)))
  ∨ (∃ f ∈ r.fronts, (f.reads = true ∨ f.kind = .A ∨ f.kind = .S) ∧ Acts a u f.a (if f.computes then f.a + 129 else f.a + 126))
  ∨ (∃ d ∈ r.deskew, Acts a u d.a (d.a + 129))
  ∨ (∃ l, r.ldst = some l ∧ Acts a u l.t (l.t + 68)) ∨ (∃ d, r.drain = some d ∧ Acts a u d.t (d.t + 66))
  ∨ ∃ h ∈ r.hreads, Acts a u h.t (h.t + 2)

/-- The start of the current core's cycle found its grid-done bit set: it is, or a graph that starts in the cycle has
cleared it (R198). -/
def foundDone (s : State) : Bool :=
  s.core.grid.doneBit || (!s.core.hnd && !s.core.gridHeld && s.core.grid.running == some s.core.now)

/-- The episode of the current core's arrival b is complete at its present cycle, for a barrier inside the gang (R254): at
`.lane` where the start of a cycle since the arrival has found the grid-done bit set (R270). -/
def EpisodeOver (s : State) (sc : BitVec 3) (b : Bar) : Prop :=
  (sc = 0#3 → b.rep = true ∨ foundDone s = true)
  ∧ (sc = 1#3 → ¬WorkInFlight s.core b.last s.core.now)
  ∧ (2 ≤ sc.toNat → ∀ m ∈ s.barMembers s.cur.val sc.toNat, ∃ t, s.arrival m sc.toNat b.k b.n = some t ∧ t + 6 ≤ s.core.now)

/-- In t barrier (sc, k) of the current core is b, every other barrier and all else but the queues is that of s. -/
def OnlyBar (s t : State) (sc k : Nat) (b : Bar) : Prop :=
  t.core.ctx.bar sc k = b ∧ (∀ sc' k', (sc', k') ≠ (sc, k) → t.core.ctx.bar sc' k' = s.core.ctx.bar sc' k')
  ∧ SameButCtx s t fun x y => { y with qs := x.qs, pend6 := x.pend6, bars := x.bars }

/-- The arrival that R252 makes of the state of a barrier of scope sc. -/
def arrived (s : State) (sc : BitVec 3) (b : Bar) : Bar :=
  { b with n := b.n + 1, prev := b.last, last := s.core.now, time := s.time, on := true, rep := sc == 0#3 && foundDone s }

/-- Release q of a task that has stopped waits for a copy that stands still in its frame, saved before r was issued: words
issued after the stop do not wait for it (log entry 34). -/
def HeldBack (s : State) (q r : Release) : Prop :=
  ∃ id f, Saved.frame id f ∈ s.saved ∧ id < r.id ∧ s.frozen f = true ∧ ∃ y ∈ f.ctx.copies, y.id ∈ q.copies

/-- The n-th release waits for nothing (R239): its copies have landed, its returning atomics are applied, no earlier store of
its core to a bound DEV page waits (R228), its core's earlier releases are complete. -/
def Released (s : State) (n : Nat) (r : Release) : Prop :=
  (∀ id ∈ r.copies, s.liveCopy id = none) ∧ (∀ x ∈ s.atoms, x.id ∈ r.atoms → x.result ≠ none)
  ∧ (∀ d ∈ s.devs, d.core = r.core → d.id < r.id → ∀ y ∈ r.lines, ¬(y.1 / 128 ≤ d.pa / 128 ∧ d.pa / 128 ≤ (y.1 + y.2 - 1) / 128))
  ∧ ∀ j < n, ∀ q, s.rels[j]? = some q → q.core = r.core → HeldBack s q r

/-- It is an atomic's turn (R249, R260, R262): the copies issued before it have landed, every contribution before its own in
batch order has closed, and every earlier atomic of the batch at its address has been applied. -/
def InTurn (s : State) (x : Atomx) : Prop :=
  (∀ id ∈ x.copies, s.liveCopy id = none)
  ∧ (∀ l, s.launch (s.partOf x.core) x.lid = some l → ∀ r ∈ l.tasks, r.phase = x.phase →
      (r.tile.toNat < x.tile.toNat → ∀ g < r.gsize, (g, x.k) ∈ r.closed) ∧ (r.tile = x.tile → ∀ g < x.gidx, (g, x.k) ∈ r.closed))
  ∧ ∀ y ∈ s.atoms, y.result = none → y.lid = x.lid → s.partOf y.core = s.partOf x.core → y.phase = x.phase → y.k = x.k →
      s.normPa y.pa = s.normPa x.pa →
      ¬(y.tile.toNat < x.tile.toNat ∨ (y.tile = x.tile ∧ (y.gidx < x.gidx ∨ (y.gidx = x.gidx ∧ y.id < x.id))))

/-- Every earlier write of core c to a destination of G, but that of a job, is visible once its L1D is written back (R241,
R291): no such copy of it is in flight, no store waits, no release, no returning atomic. Those of an earlier code of the core
that wait for what stands still with it do not count (the model's choice, log entry 34). -/
def WritesVisible (s : State) (c : Nat) (G : CopyEnd → Prop) : Prop :=
  (∀ x ∈ (s.at c).ctx.copies, ¬G x.dst) ∧ (∀ x ∈ s.hbm, x.core = c → ¬G x.dst) ∧ (∀ o ∈ s.outLands, o.copy.core = c → ¬G o.copy.dst)
  ∧ (∀ d ∈ s.devs, d.core ≠ c)
  ∧ (∀ n r, s.rels[n]? = some r → r.core = c → r.who ≠ (s.at c).ctx.who ∧ ¬Released s n r)
  ∧ ∀ x ∈ s.atoms, x.core = c → x.result = none → x.who ≠ (s.at c).ctx.who ∧ ¬InTurn s x

/-- Any end of a copy; a global one. -/
def anyEnd (_ : CopyEnd) : Prop := True
def globalEnd (e : CopyEnd) : Prop := ∃ l, e = .phys l

/-- No line of the physical runs is among cached lines. -/
def Dropped (runs : List (Nat × Nat)) (l : List Line) : Prop :=
  ∀ y ∈ l, ∀ r ∈ runs, ¬(r.1 / 128 ≤ y.pa ∧ y.pa ≤ (r.1 + r.2 - 1) / 128)

/-- Core c has closed its contribution to batch k, as its launch records it (R260). -/
def ClosedIn (t : State) (c k : Nat) : Prop :=
  ∀ x, (t.at c).task = some x → ∀ l, t.launch x.part x.lid = some l → ∀ r ∈ l.tasks, r.tile = x.tile → r.phase = x.phase →
    ((t.at c).gidx c, k) ∈ r.closed

/-- An element of n bytes in HBM no word of which is poisoned. -/
def HbmElement (s : State) (pa n : Nat) : Prop := ∀ i < n, s.target (pa + i) = .hbm ∧ s.poisoned (pa + i) = false

/-- The integer combinations of R259. -/
def combined (op : BitVec 4) (f : BitVec 5) (a b : W64) : Nat :=
  let w := fmtWidth f
  let less := Val.cmp (toVal f a).1 (toVal f b).1 < 0
  (match op.toNat with
    | 0 => a.toNat + b.toNat
    | 1 => if less then a.toNat else b.toNat
    | 2 => if less then b.toNat else a.toNat
    | 3 => a.toNat &&& b.toNat
    | 4 => a.toNat ||| b.toNat
    | _ => a.toNat ^^^ b.toNat) % 2 ^ w

end Sys2Proof.Claims

/-- R252-R254: `sy.arrive` records the arrival; a second one without an await, and a wide barrier without co-residence,
is a command fault. `sy.await` and `sy.bar`, which arrives in the same cycle, go on where the episode is over; inside a
gang they fault where it is not, as `sy.bar` does at `.quad` scope, six cycles too early; across gangs they hold until the
network has reported it. At the end of a cycle an arrival at `.lane` is complete if the next finds the grid-done bit set
(R270). Which work the core scope waits for, and that `.lane` counts from the arrival on, are the model's choice (log
entries 33 and 20). -/
def Obligations.BarrierWords : Prop :=
  ∀ (s : State) (idle : BitVec 4) (sc : BitVec 3) (k : BitVec 4),
    let b := s.core.ctx.bar sc.toNat k.toNat
    let b0 := s.core.ctx.bar sc.toNat 0
    let isOver (b : Bar) : Bar := { b with on := false, rep := false }
    (TooWide s sc ∨ b.on = true → StopsAtIssue s (.syArrive idle sc k) 6 .command none)
    ∧ (¬TooWide s sc → b.on = false → ∃ t, exec (.syArrive idle sc k) s = .next t ∧ PoppedSyn s t idle
        ∧ OnlyBar s t sc.toNat k.toNat (arrived s sc b))
    ∧ (TooWide s sc ∨ b.on = false → StopsAtIssue s (.syAwait idle sc k) 6 .command none)
    ∧ (¬TooWide s sc → b.on = true → (InGang s sc → EpisodeOver s sc b) → (¬InGang s sc → b.rep = true) →
        ∃ t, exec (.syAwait idle sc k) s = .next t ∧ PoppedSyn s t idle ∧ OnlyBar s t sc.toNat k.toNat (isOver b))
    ∧ (¬TooWide s sc → b.on = true → InGang s sc → ¬EpisodeOver s sc b → StopsAtIssue s (.syAwait idle sc k) 6 .schedule none)
    ∧ (¬TooWide s sc → b.on = true → ¬InGang s sc → b.rep = false → ∃ u,
        exec (.syAwait idle sc k) s = .next (addHold u (.barrier sc.toNat k.toNat)) ∧ u.core.ctx.pend6.started = true
        ∧ SameButCtx s u fun x y => { y with pend6 := x.pend6 })
    ∧ (s.core.ctx.pend6.started = false → (TooWide s sc ∨ b0.on = true) → StopsAtIssue s (.syBar idle sc) 6 .command none)
    ∧ (s.core.ctx.pend6.started = false → ¬TooWide s sc → b0.on = false → sc.toNat < 2 → EpisodeOver s sc (arrived s sc b0) →
        ∃ t, exec (.syBar idle sc) s = .next t ∧ PoppedSyn s t idle ∧ OnlyBar s t sc.toNat 0 (isOver (arrived s sc b0)))
    ∧ (s.core.ctx.pend6.started = false → ¬TooWide s sc → b0.on = false → InGang s sc →
        (sc.toNat < 2 → ¬EpisodeOver s sc (arrived s sc b0)) → (2 ≤ sc.toNat → s.cur.val ∈ s.barMembers s.cur.val sc.toNat) →
        StopsAtIssue s (.syBar idle sc) 6 .schedule none)
    ∧ (s.core.ctx.pend6.started = false → ¬TooWide s sc → b0.on = false → ¬InGang s sc → ∃ u,
        exec (.syBar idle sc) s = .next (addHold u (.barrier sc.toNat 0)) ∧ u.core.ctx.pend6.started = true
        ∧ u.core.ctx.bar sc.toNat 0 = arrived s sc b0 ∧ SameButCtx s u fun x y => { y with pend6 := x.pend6, bars := x.bars })
    ∧ (s.core.ctx.pend6.started = true → ¬InGang s sc → b0.rep = true →
        ∃ t, exec (.syBar idle sc) s = .next t ∧ PoppedSyn s t idle ∧ OnlyBar s t sc.toNat 0 (isOver b0))
    ∧ (∀ (c : Core) (p i : Nat) b, c.ctx.bars[i]? = some b →
        ((c.closeCycle p).ctx.bars : List Bar)[i]? = some { b with rep := b.rep || (b.on && b.scope == 0 && c.grid.doneBit) })
    ∧ (∃ t, exec .barrierComplete s = .next t ∧ SameButCtx s t (fun x y => { y with bars := x.bars })
        ∧ ∀ (i : Nat) b, s.core.ctx.bars[i]? = some b → ∃ r, t.core.ctx.bars[i]? = some { b with rep := r }
          ∧ (r = true ↔ b.rep = true ∨ (b.on = true ∧ s.gangBar s.cur.val b.scope = false
            ∧ ∀ m ∈ s.barMembers s.cur.val b.scope,
                let y := (s.barCtx s.core.hnd m).bar b.scope b.k
                b.n < y.n ∨ (y.n = b.n ∧ (b.scope = 2 → y.time + 6 * (s.quad (quadOf s.cur.val)).period ≤ s.time)))))

/-- R238-R241, R255-R258: `sy.bind` adds a binding to its object, up to 16; `sy.rel` puts a release in flight, with the
copies and atomics it waits for, whose increment, once they are done, adds one to its object; `sy.acq` and `sy.fence` hold
until their completion finds the sequence reached, or the core's writes visible, drops the copies of the lines, and then
they go on; a sequence at a gated target is never reached (the model's choice, log entry 60). A misaligned object is a
command fault. What a stopped task left is not waited for (log 34, the model's reading). -/
def Obligations.SyncObjects : Prop :=
  ∀ (s : State) (idle : BitVec 4) (sc : BitVec 3) (o a : BitVec 57) (n : Lit) (q : BitVec 58),
    let p := s.core.ctx.pend6
    let c := s.cur.val
    let waits (w : Instr) (h : HoldCause) : Prop := ∃ u, exec w s = .next (addHold u h) ∧ u.core.ctx.pend6.started = true
    let goes (w : Instr) : Prop := ∃ t, exec w s = .next t ∧ PoppedSyn s t idle
      ∧ SameButCtx s t fun x y => { y with qs := x.qs, pend6 := x.pend6 }
    (a.toNat % 128 ≠ 0 ∨ n = 0#29 ∨ o.toNat % 64 ≠ 0 → StopsAtIssue s (.syBind idle o a n) 6 .command none)
    ∧ (∀ u pa mt, a.toNat % 128 = 0 → n ≠ 0#29 → o.toNat % 64 = 0 → Finds s u o.toNat 8 pa mt → mt ≠ 3 →
        let l := u.core.ctx.binds
        let b : Binding := ⟨o.toNat, a.toNat, n.toNat⟩
        (b ∈ l ∨ l.length < 16 → ∃ t, exec (.syBind idle o a n) s = .next t ∧ PoppedSyn u t idle
          ∧ t.core.ctx.binds = (if b ∈ l then l else l ++ [b])
          ∧ SameButCtx u t fun x y => { y with qs := x.qs, pend6 := x.pend6, binds := x.binds })
        ∧ (b ∉ l → 16 ≤ l.length → ∃ k, exec (.syBind idle o a n) s = .next (takeStop u k [] false 0xFFFF#16 none)
          ∧ k.cls = .command))
    ∧ (o.toNat % 64 ≠ 0 → StopsAtIssue s (.syRel idle sc o) 6 .command none)
    ∧ (∀ u pa mt, o.toNat % 64 = 0 → Finds s u o.toNat 8 pa mt → mt ≠ 3 → u.core.l1d = [] → ∃ t r,
        exec (.syRel idle sc o) s = .next t ∧ PoppedSyn u t idle ∧ t.rels = u.rels ++ [r]
        ∧ r.core = u.cur.val ∧ r.obj = pa ∧ r.scope = sc ∧ r.part = (u.walkerOf u.cur.val).part
        ∧ r.ctx = (u.walkerOf u.cur.val).ctx ∧ r.id = u.nextId ∧ r.lines = u.boundRuns u.cur.val o.toNat ∧ r.who = u.core.ctx.who
        ∧ (∀ x ∈ u.copiesOf u.cur.val, (∃ y ∈ r.lines, u.writesIn x y.1 y.2 = true) → x.id ∈ r.copies)
        ∧ (∀ x ∈ u.atoms, x.who = u.core.ctx.who → x.result = none → x.id ∈ r.atoms)
        ∧ SameButCtx u { t with rels := u.rels, nextId := u.nextId } fun x y => { y with qs := x.qs, pend6 := x.pend6 })
    ∧ (p.arg.head? ≠ some 1 → o.toNat % 64 ≠ 0 → StopsAtIssue s (.syAcq idle sc o q) 6 .command none)
    ∧ (∀ u pa mt, p.arg.head? ≠ some 1 → o.toNat % 64 = 0 → Finds s u o.toNat 8 pa mt → mt ≠ 3 →
        waits (.syAcq idle sc o q) .acquire)
    ∧ (p.arg.head? = some 1 → p.ready = false → exec (.syAcq idle sc o q) s = .next (addHold s .acquire))
    ∧ (p.arg.head? = some 1 → p.ready = true → goes (.syAcq idle sc o q))
    ∧ (p.started = true → p.ready = true → goes (.syFence idle sc))
    ∧ (p.started = false ∨ p.ready = false → waits (.syFence idle sc) .fence)
    ∧ (∀ pa m r, p.arg = 1 :: pa :: m :: o.toNat :: r →
        ((s.home64 pa).toNat < m ∨ s.noAnswer (s.partOf c) pa = true → exec .acquireComplete s = .next s)
        ∧ (m ≤ (s.home64 pa).toNat → s.noAnswer (s.partOf c) pa = false → ∃ t, exec .acquireComplete s = .next t ∧ t.core.ctx.pend6 = { p with ready := true }
          ∧ Dropped (s.boundRuns c o.toNat) t.core.l1d ∧ Dropped (s.boundRuns c o.toNat) t.core.vc
          ∧ (s.core.l1d = [] → s.core.vc = [] → SameButCtx s t fun x y => { y with pend6 := x.pend6 })))
    ∧ (p.arg.head? = some 2 →
        (¬WritesVisible s c anyEnd → exec .fenceComplete s = .next s)
        ∧ (WritesVisible s c anyEnd → ∃ t, exec .fenceComplete s = .next t ∧ t.core.ctx.pend6 = { p with ready := true }
          ∧ t.core.l1d = [] ∧ t.core.vc = []
          ∧ (s.core.l1d = [] → s.core.vc = [] → SameButCtx s t fun x y => { y with pend6 := x.pend6 })))
    ∧ (p.arg.head? ≠ some 1 → exec .acquireComplete s = .next s)
    ∧ (p.arg.head? ≠ some 2 → exec .fenceComplete s = .next s)
    ∧ ∀ k r, s.rels[k]? = some r → s.canon →
        (¬Released s k r → exec (.releaseIncrement k) s = .next s)
        ∧ (Released s k r → (s.at r.core).l1d = [] → HbmElement s r.obj 8 → ∃ t,
          exec (.releaseIncrement k) s = .next t ∧ t.rels = s.rels.eraseIdx k
          ∧ homeNat t r.obj 8 = (homeNat s r.obj 8 + 1) % 2 ^ 64
          ∧ (∀ m x, ∀ u, (t.at m).lmRead u x = (s.at m).lmRead u x) ∧ t.firm = s.firm)

/-- R243, R244, R259-R262: `sy.atom` checks its LM operand, then its address; on an uncached page it combines the operand
into the home at once, a floating add through the element's exact accumulator; on a WB or WBN page it joins the pending
update of its element in the core's update-only line, which becomes its writer's (R351) and which a fence brings home. `sy.batch` declares a batch, once;
`sy.atomx` counts against its batch, which its last declared use closes for the core, and goes to its home, where in its
turn it is applied; its result lands in LM, with its tag, after the core's earlier ones, and after what the cycle that ends
then has written (R235). That `sy.atom` checks its operand before its address is the model's choice (log entry 25). -/
def Obligations.AtomicsAndBatches : Prop :=
  ∀ (s : State) (idle : BitVec 4) (op : BitVec 4) (f : BitVec 5) (k : BitVec 3) (a : BitVec 57) (l r : BitVec 21) (tg : W16)
      (n : Lit) (i : Nat),
    let z := fmtWidth f / 8
    let may := s.core.task.map Task.batch = some true
    let d := s.core.ctx.batch k.toNat
    let ok (x : BitVec 21) : Prop := x.toNat + z ≤ s.core.lmGrant ∧ x.toNat % z = 0
    (s.core.lmGrant < l.toNat + z → StopsAtIssue s (.syAtom idle op f a l) 6 .bounds (some l.toNat))
    ∧ (l.toNat + z ≤ s.core.lmGrant → l.toNat % z ≠ 0 → StopsAtIssue s (.syAtom idle op f a l) 6 .alignment (some l.toNat))
    ∧ (ok l → a.toNat % z ≠ 0 → StopsAtIssue s (.syAtom idle op f a l) 6 .alignment (some a.toNat))
    ∧ (∀ u pa, 0 < z → ok l → a.toNat % z = 0 → Finds s u a.toNat z pa 2 → HbmElement u pa z → u.canon → op.toNat ≤ 5 →
        u.core.upd = [] → ∃ t, exec (.syAtom idle op f a l) s = .next t ∧ PoppedSyn u t idle
          ∧ homeNat t pa z = combined op f (BitVec.ofNat 64 (homeNat u pa z)) (BitVec.ofNat 64 (lmNat u l.toNat z)) % 256 ^ z
          ∧ ∀ m x y, (t.at m).lmRead y x = (u.at m).lmRead y x)
    ∧ (∀ u pa A, 0 < z → ok l → a.toNat % z = 0 → Finds s u a.toNat z pa 2 → HbmElement u pa z → u.canon → op = 6#4 →
        u.core.upd = [] →
        let term (v : Nat) : XAcc := XAcc.empty.add (wideAcc f) (toVal f (BitVec.ofNat 64 v)).1
        ((∀ e ∈ u.accs, ¬(e.pa = u.normPa pa ∧ e.fmt = f)) ∧ A = term (homeNat u pa z)) ∨ (∃ r, u.accs = ⟨u.normPa pa, f, A⟩ :: r) →
        let sum := A.merge (wideAcc f) (term (lmNat u l.toNat z))
        ∃ t, exec (.syAtom idle op f a l) s = .next t ∧ PoppedSyn u t idle
          ∧ homeNat t pa z = (sum.out (wideAcc f) f 0#2).1.toNat % 256 ^ z ∧ (∃ r, t.accs = ⟨u.normPa pa, f, sum⟩ :: r)
          ∧ t.core.ctx.sticky = s.core.ctx.sticky ∧ t.core.ctx.raised = s.core.ctx.raised)
    ∧ (∀ u pa mt, 0 < z → ok l → a.toNat % z = 0 → Finds s u a.toNat z pa mt → mt < 2 → u.target pa = .hbm →
        let v := BitVec.ofNat 64 (lmNat u l.toNat z)
        (u.core.upd = [] → u.core.l1d = [] → ∃ t y, exec (.syAtom idle op f a l) s = .next t ∧ PoppedSyn u t idle
          ∧ t.core.upd = [y] ∧ y.pa = pa ∧ y.op = op ∧ y.fmt = f ∧ y.val = v ∧ (∃ ln, t.core.l1d = [ln] ∧ ln.pa = pa / 128
            ∧ ln.ctx = (u.walkerOf u.cur.val).ctx)
          ∧ t.gmem = u.gmem ∧ t.accs = u.accs)
        ∧ ∀ e ln, u.core.upd = [e] → e.pa = pa → e.op = op → e.fmt = f → op.toNat ≤ 5 → u.core.l1d = [ln] → ln.pa = pa / 128 →
            true ∉ ln.dirty → ∃ t y, exec (.syAtom idle op f a l) s = .next t ∧ PoppedSyn u t idle ∧ t.core.upd = [y]
            ∧ y.pa = pa ∧ y.op = op ∧ y.fmt = f ∧ y.val.toNat = combined op f e.val v ∧ t.gmem = u.gmem
            ∧ ∃ l, t.core.l1d = [l] ∧ l.pa = ln.pa ∧ l.ctx = (u.walkerOf u.cur.val).ctx)
    ∧ (∀ e ln, s.core.ctx.pend6.arg.head? = some 2 → WritesVisible s s.cur.val anyEnd → s.canon → s.core.upd = [e] → e.op.toNat ≤ 5 →
        8 ≤ fmtWidth e.fmt → HbmElement s e.pa (fmtWidth e.fmt / 8) → s.core.l1d = [ln] → ln.pa = e.pa / 128 → true ∉ ln.dirty →
        ∃ t, exec .fenceComplete s = .next t ∧ t.core.upd = [] ∧ t.core.l1d = [] ∧ homeNat t e.pa (fmtWidth e.fmt / 8)
          = combined e.op e.fmt (BitVec.ofNat 64 (homeNat s e.pa (fmtWidth e.fmt / 8))) e.val % 256 ^ (fmtWidth e.fmt / 8))
    ∧ (may → d = none → n = 0#29 → ∃ t, exec (.syBatch idle k n) s = .next t ∧ PoppedSyn s t idle
        ∧ t.core.ctx.batch k.toNat = some ⟨k.toNat, 0, 0, true, true⟩ ∧ ClosedIn t s.cur.val k.toNat)
    ∧ (¬may ∨ d ≠ none → StopsAtIssue s (.syBatch idle k n) 6 .command none)
    ∧ (may → d = none → n ≠ 0#29 → ∃ t, exec (.syBatch idle k n) s = .next t ∧ PoppedSyn s t idle
        ∧ t.core.ctx.batch k.toNat = some ⟨k.toNat, n.toNat, 0, false, true⟩
        ∧ (∀ j, j ≠ k.toNat → t.core.ctx.batch j = s.core.ctx.batch j)
        ∧ SameButCtx s t fun x y => { y with qs := x.qs, pend6 := x.pend6, batches := x.batches })
    ∧ (¬may ∨ d = none ∨ (∃ b, d = some b ∧ b.m ≤ b.issued) → StopsAtIssue s (.syAtomx idle op f k a l r tg) 6 .command none)
    ∧ (∀ b, may → d = some b → b.issued < b.m → ¬ok l → ∃ cls, StopsAtIssue s (.syAtomx idle op f k a l r tg) 6 cls (some l.toNat)
        ∧ (cls = .bounds ∨ cls = .alignment))
    ∧ (∀ b u pa mt, may → d = some b → b.issued + 1 = b.m → ok l → ok r → a.toNat % z = 0 → Finds s u a.toNat z pa mt → mt ≠ 3 →
        u.target pa = .hbm → ∃ t, exec (.syAtomx idle op f k a l r tg) s = .next t ∧ PoppedSyn u t idle
          ∧ t.core.ctx.batch k.toNat = some { b with issued := b.m, closed := true } ∧ ClosedIn t s.cur.val k.toNat)
    ∧ (∀ b u pa mt, may → d = some b → b.issued + 1 < b.m → ok l → ok r → a.toNat % z = 0 → Finds s u a.toNat z pa mt → mt ≠ 3 →
        u.target pa = .hbm → u.core.l1d = [] → u.core.vc = [] → ∃ t x, exec (.syAtomx idle op f k a l r tg) s = .next t
          ∧ PoppedSyn u t idle ∧ t.atoms = u.atoms ++ [x] ∧ x.core = u.cur.val ∧ x.k = k.toNat ∧ x.op = op ∧ x.fmt = f ∧ x.pa = pa
          ∧ x.slot = r.toNat ∧ x.tag = tg ∧ x.operand = BitVec.ofNat 64 (lmNat u l.toNat z) ∧ x.result = none ∧ x.id = u.nextId
          ∧ x.who = u.core.ctx.who ∧ (∀ y ∈ u.copiesOf u.cur.val, y.id ∈ x.copies)
          ∧ t.core.ctx.batch k.toNat = some { b with issued := b.issued + 1, closed := false }
          ∧ SameButCtx u { t with atoms := u.atoms, nextId := u.nextId } fun y y' =>
              { y' with qs := y.qs, pend6 := y.pend6, batches := y.batches })
    ∧ (s.atoms[i]? = none → exec (.atomxApply i) s = .next s ∧ exec (.atomxResultLand i) s = .next s)
    ∧ ∀ x, s.atoms[i]? = some x → s.canon →
        (x.result ≠ none ∨ ¬InTurn s x → exec (.atomxApply i) s = .next s)
        ∧ (x.result = none → InTurn s x → 8 ≤ fmtWidth x.fmt → HbmElement s x.pa (fmtWidth x.fmt / 8) →
            ∃ t, exec (.atomxApply i) s = .next t
            ∧ t.atoms = s.atoms.set i { x with result := some (BitVec.ofNat 64 (homeNat s x.pa (fmtWidth x.fmt / 8)), false) }
            ∧ homeNat t x.pa (fmtWidth x.fmt / 8)
              = combined x.op x.fmt (BitVec.ofNat 64 (homeNat s x.pa (fmtWidth x.fmt / 8))) x.operand % 256 ^ (fmtWidth x.fmt / 8))
        ∧ (x.result = none ∨ s.time < x.ready ∨ (∃ j < i, ∃ y, s.atoms[j]? = some y ∧ y.core = x.core) →
            exec (.atomxResultLand i) s = .next s)
        ∧ (∀ w, x.result = some (w, false) → x.ready ≤ s.time → (∀ j < i, ∀ y, s.atoms[j]? = some y → y.core ≠ x.core) →
            s.discards x.core = false → x.core < 192 → x.slot < 0x1FC000 → x.slot + fmtWidth x.fmt / 8 ≤ 0x1FC000 →
            ∃ t, exec (.atomxResultLand i) s = .next t ∧ t.atoms = s.atoms.eraseIdx i
            ∧ (∀ j < fmtWidth x.fmt / 8, let b := (t.at x.core).lmRead x.supv (x.slot + j)
                (WrittenAt (s.at x.core) s.time (x.slot + j) → b = (s.at x.core).lmRead x.supv (x.slot + j))
                ∧ (¬WrittenAt (s.at x.core) s.time (x.slot + j) → b.toNat = w.toNat / 256 ^ j % 256))
            ∧ ((s.at x.core).nextCyc < s.time ∨ x.slot / 4096 ∉ (s.at x.core).wroteTags →
                (t.at x.core).tag x.supv (x.slot / 4096) = x.tag)
            ∧ (∀ b, b < x.slot ∨ x.slot + fmtWidth x.fmt / 8 ≤ b → (t.at x.core).lmRead x.supv b = (s.at x.core).lmRead x.supv b)
            ∧ (∀ c, c ≠ x.core → t.at c = s.at c) ∧ t.gmem = s.gmem)

/-- R260, R263-R266: `sy.safe` passes a safe point, which a pending pre-emption makes the end of the cycle's stop;
`sy.trap` and `sy.syscall` ask for the stop of their class at the end of the cycle, with their code; `sy.end` ends the
stream, closes the core's contributions to every batch and shows in the bind record of a task's core (HST 6, log 65, the
model's choice); the safe-point gap is a fault when it has run out. That a safe point is that of the whole gang is the
model's choice (log entry 36). -/
def Obligations.EndsAndTraps : Prop :=
  ∀ (s : State) (idle : BitVec 4) (m : BitVec 16) (n : Lit) (code : BitVec 18),
    let stopsAfter (w : Instr) (cls : StopClass) (detail : Nat) : Prop := ∃ t k, exec w s = .next t ∧ PoppedSyn s t idle
      ∧ t.core.endStop = some (k, 0xFFFF#16, s.core.lmGrant) ∧ k.cls = cls ∧ k.eng = 6 ∧ k.detail = detail
      ∧ k.waddr = s.core.ctx.headAddr 6
      ∧ SameButCore s t fun x y => { y with endStop := x.endStop, ctx := { y.ctx with qs := x.ctx.qs, pend6 := x.ctx.pend6 } }
    (n.toNat % 4096 ≠ 0 ∨ s.core.lmGrant < n.toNat → StopsAtIssue s (.sySafe idle m n) 6 .command none)
    ∧ (n.toNat % 4096 = 0 → n.toNat ≤ s.core.lmGrant → s.core.gsize = 1 → s.core.gbase = s.cur.val → ∃ t,
        exec (.sySafe idle m n) s = .next t ∧ PoppedSyn s t idle ∧ t.core.ctx.safePt = s.core.now
        ∧ (s.core.prePend = false → t.core.endStop = s.core.endStop)
        ∧ (s.core.prePend = true → ∃ k, t.core.endStop = some (k, m, n.toNat) ∧ k.cls = .preemptSafe)
        ∧ SameButCore s t fun x y => { y with
            endStop := x.endStop, ctx := { y.ctx with qs := x.ctx.qs, pend6 := x.ctx.pend6, safePt := x.ctx.safePt } })
    ∧ (n.toNat % 4096 = 0 → n.toNat ≤ s.core.lmGrant → s.cur.val ∈ s.members s.cur.val → ∃ t,
        exec (.sySafe idle m n) s = .next t ∧ PoppedSyn s t idle
        ∧ (∀ c < 192, c ∈ s.members s.cur.val → (t.at c).ctx.safePt = s.core.now)
        ∧ (∀ c, c ∉ s.members s.cur.val → t.at c = s.at c)
        ∧ ((∀ c ∈ s.members s.cur.val, (s.at c).prePend = false) → t.core.endStop = s.core.endStop)
        ∧ ((∃ c ∈ s.members s.cur.val, (s.at c).prePend = true) → ∃ k, t.core.endStop = some (k, m, n.toNat)
            ∧ k.cls = .preemptSafe) ∧ SameBytes s t)
    ∧ stopsAfter (.syTrap idle code) .trap code.toNat ∧ stopsAfter (.sySyscall idle code) .syscall code.toNat
    ∧ (∃ t, exec (.syEnd idle) s = .next t ∧ PoppedSyn s t idle ∧ t.core.ctx.ended = true
        ∧ t.core.hst = (if s.core.task ≠ none ∧ s.core.hnd = false then 6 else s.core.hst)
        ∧ (s.core.task.map Task.batch = some true → ∀ k < 8, ClosedIn t s.cur.val k)
        ∧ (s.core.task.map Task.batch ≠ some true → t.launches = s.launches)
        ∧ SameButCore s { t with launches := s.launches } fun x y => { y with
            hst := x.hst, ctx := { y.ctx with qs := x.ctx.qs, pend6 := x.ctx.pend6, ended := x.ctx.ended } })
    ∧ (∀ t, s.core.task = some t → s.core.hnd = false → s.core.ctx.safePt + t.sgap < s.core.now →
        ∃ k, exec .safeGapFault s = .next (takeStop s k [] false 0xFFFF#16 none) ∧ k.cls = .safeGap ∧ k.eng = 7)
    ∧ (s.core.task = none ∨ s.core.hnd = true ∨ (∀ t, s.core.task = some t → s.core.now ≤ s.core.ctx.safePt + t.sgap) →
        exec .safeGapFault s = .next s)

namespace Sys2Proof.Claims

/-! Privilege, gangs, fetch. -/

/-- The privileged words (R276, R289). -/
def privWords (idle : BitVec 4) (r : BitVec 12) (d : BitVec 21) (k : BitVec 3) (a : BitVec 57) (p : BitVec 52) : List Instr :=
  [.syMfsr idle r d, .syMtsr idle r d, .syTlbi idle k a, .syAsave idle p, .syArest idle p, .syGsave idle p,
    .syGrest idle p, .syResume idle p, .syHalt idle]

/-- A saved frame of the current core's gang stands ready (R278). -/
def HasFrame (s : State) : Prop := ∃ st, s.core.stop = some st ∧ st.frame = true

/-- The little-endian 64-bit number at a physical address. -/
def home8 (s : State) (pa : Nat) : Nat := homeNat s pa 8

/-- Registers that a core's `sy.mtsr` writes field by field, with their fields (R227, R278, R339): the core's own, and those
that stand outside it. -/
def plainRegs : List (Nat × List (Nat × Nat)) :=
  [(0x001, [(12, 40)]), (0x002, [(0, 15), (16, 32)]), (0x041, [(0, 48)]), (0x042, [(0, 48)]), (0x101, [(0, 48)]),
    (0x102, [(0, 48)]), (0x103, [(0, 48)]), (0x104, [(0, 48)])]
def outerRegs : List (Nat × List (Nat × Nat)) :=
  [(0x321, [(12, 40)]), (0x322, [(0, 32)])] ++ [0x203, 0x204, 0x205, 0x206, 0x305, 0x306, 0x307].map fun n => (n, [(0, 48)])

/-- A register that other units see too, and whose write they see at the time the cycle ends: sampling, the counters of quad,
die and governor, windows, the quad registers. -/
def Outer (n : Nat) : Prop :=
  n = 0x320 ∨ n ∈ outerRegs.map Prod.fst ∨ (0x180 ≤ n ∧ n < 0x200) ∨ (0x311 ≤ n ∧ n ≤ 0x317)

/-- Registers that read only or that only firmware writes (R318, R339, R343, R348, R350, R357, R362, R307). -/
def keptRegs : List Nat :=
  [0x003, 0x200, 0x201, 0x202, 0x300, 0x301, 0x302, 0x303, 0x308, 0x400, 0x450, 0x451, 0x452, 0x470, 0x471, 0x472, 0x480,
    0x481, 0x482, 0x490, 0x500] ++ (List.range 48).map (0x410 + ·)

/-- A field of n bits from bit lo on. -/
def fieldOf (v lo n : Nat) : Nat := v / 2 ^ lo % 2 ^ n

/-- A value kept to its fields. -/
def inFields (l : List (Nat × Nat)) (v : W64) (b : Nat) : Bool := v.getLsbD b && l.any fun x => decide (x.1 ≤ b) && decide (b < x.1 + x.2)

/-- What a write of v to word j of window w makes of it (R229): while it is enabled only its counters take one. -/
def WindowEffect (s t : State) (w j : Nat) (v : W64) : Prop :=
  let x := s.window w
  let en := x.ctl.getLsbD 0
  (∀ u < 16, u ≠ w → t.window u = s.window u)
  ∧ (en = true → j < 4 → t.window w = x)
  ∧ (en = false → j = 0 → t.window w = { x with ctl := (t.window w).ctl }
    ∧ (∀ b, 11 ≤ b → (t.window w).ctl.getLsbD b = false) ∧ (t.window w).ctl.toNat / 2 = v.toNat / 2 % 2 ^ 10
    ∧ ((t.window w).ctl.getLsbD 0 = true ↔ v.getLsbD 0 = true
        ∧ v.toNat / 2 % 32 ∈ [0x12, 0x13] ∧ v.toNat / 64 % 32 ∈ [3, 4, 5, 6]))
  ∧ (en = false → 1 ≤ j → j < 4 → ∀ b < 64, (((t.window w).read j).getD 0#64).getLsbD b = inFields [(7, 45)] v b)
  ∧ (4 ≤ j → (t.window w).read j = some v)

/-- What a write of v to quad register n makes of quad q at a time (R339, R340): QPC_CTL takes the request fields, a ratio of
code 3 not; the counters take their 48 bits; QPC_GATE takes DEPTH, and notes a request; QPC_WAKE notes one; REFUSED clears. -/
def QuadEffect (s t : State) (q n : Nat) (v : W64) (time : Nat) : Prop :=
  let x := s.quad q
  let y := t.quad q
  (∀ m < 48, m ≠ q → t.quad m = s.quad m)
  ∧ { y with ctl := x.ctl, ballastCyc := x.ballastCyc, stretchCyc := x.stretchCyc, gateReq := x.gateReq, depth := x.depth
             wakeReq := x.wakeReq, refused := x.refused, edge := x.edge } = x
  ∧ (n ≠ 0x311 → y.ctl = x.ctl) ∧ (n ≠ 0x315 → y.gateReq = x.gateReq ∧ y.depth = x.depth) ∧ (n ≠ 0x316 → y.wakeReq = x.wakeReq)
  ∧ (n ≠ 0x317 → y.refused = x.refused)
  ∧ (n = 0x311 → (∀ lo ∈ [0, 4], fieldOf y.ctl.toNat lo 2 = if fieldOf v.toNat lo 2 = 3 then fieldOf x.ctl.toNat lo 2 else fieldOf v.toNat lo 2)
      ∧ (∀ lo ∈ [2, 6], fieldOf y.ctl.toNat lo 2 = fieldOf v.toNat lo 2) ∧ y.ctl.getLsbD 8 = v.getLsbD 8
      ∧ ∀ b, 9 ≤ b → y.ctl.getLsbD b = x.ctl.getLsbD b)
  ∧ (n = 0x313 → y.ballastCyc.toNat = v.toNat % 2 ^ 48) ∧ (n = 0x314 → y.stretchCyc.toNat = v.toNat % 2 ^ 48)
  ∧ (n = 0x315 → y.depth = v.getLsbD 1 ∧ y.gateReq = if v.getLsbD 0 then some (x.gateReq.getD time) else x.gateReq)
  ∧ (n = 0x316 → y.wakeReq = if v.getLsbD 0 then some (x.wakeReq.getD time) else x.wakeReq)
  ∧ (n = 0x317 → y.refused = (x.refused && !v.getLsbD 3))

/-- What a write of v to register n, by core c or by firmware for it, makes at a time of what other units see too. -/
def OuterEffect (s t : State) (c n : Nat) (v : W64) (time : Nat) : Prop :=
  (n = 0x320 → (t.at c).pcsCtl.getLsbD 0 = v.getLsbD 0
    ∧ (t.at c).pcsCtl.toNat / 2 % 2 ^ 15 = max 1 (v.toNat / 2 % 2 ^ 15)
    ∧ (t.at c).pcsCtl.toNat / 2 ^ 16 = if 4 ≤ v.toNat / 2 ^ 16 % 32 ∧ v.toNat / 2 ^ 16 % 32 ≤ 20 then v.toNat / 2 ^ 16 % 32
        else (s.at c).pcsCtl.toNat / 2 ^ 16 % 32)
  ∧ (∀ l, (n, l) ∈ outerRegs → ∀ b < 64, ((t.sysRead c n).getD 0#64).getLsbD b = inFields l v b)
  ∧ (∀ w < 16, ∀ j < 6, n = 0x180 + 8 * w + j → WindowEffect s t w j v)
  ∧ ((s.at c).qpcSel.toNat < 48 → 0x311 ≤ n → n ≤ 0x317 → QuadEffect s t (s.at c).qpcSel.toNat n v time)

/-- The end of a cycle of the current core, a gang of its own with no stop due, is next. -/
def CycleEnds (s : State) : Prop := (∃ r, s.agenda = (s.cur, .advance) :: r) ∧ Alone s ∧ s.core.endStop = none

/-- Core c still has words in another queue than the SYN's, or copies that only its own cycles end (R293). -/
def QueuesLeft (s : State) (c : Nat) : Prop := (∃ e < 6, ((s.at c).ctx.q e).es ≠ []) ∨ (s.at c).ctx.copies ≠ []

/-- Work outside logical time that the code running on core c issued is in flight (R293): copies, releases, returning
atomics. What an earlier code of the core left does not count. -/
def OwnWork (s : State) (c : Nat) : Prop :=
  let w := (s.at c).ctx.who
  (∃ x ∈ s.hbm, x.who = w) ∨ (∃ o ∈ s.outLands, o.copy.who = w) ∨ (∃ r ∈ s.rels, r.who = w) ∨ ∃ x ∈ s.atoms, x.who = w

/-- The frame in memory at pa is one core c may resume (R283, R293): its partition reaches it (R344), it is saved, restartable, of the stop cycle of the core's
array and grid. -/
def MayResume (s : State) (c pa : Nat) (f : FrameRec) : Prop :=
  (∀ o < 0x3000, s.hasTarget (s.partOf c) true (pa + o) = true) ∧ findFrame s pa = some f ∧ f.stop.frame = true ∧ f.stop.why.cls ≠ .gangLost ∧ f.stop.why.cls ≠ .supervisor
  ∧ (s.at c).arr.stopCyc = f.stop.cyc ∧ (s.at c).grid.stopCyc = f.stop.cyc

/-- The time from which the word at the head of the SYN queue has waited to resume, and the hold watchdog as it stood then
(R298). -/
def waitsSince (s : State) : Nat × Nat :=
  match s.core.ctx.pend6.arg with
  | 6 :: t :: w :: _ => (t, w)
  | _ => (s.time, s.core.wdog.toNat)

/-- A cause of a hold of the gang of core c has cleared (R24, R25). -/
def Cleared (s : State) (c : Nat) : HoldCause → Prop
  | .tag q u g t _ _ => (s.at q).tag u g = t ∨ (s.at q).tag u g = 0xFFFF#16
  | .late m p _ _ => ∀ x, (s.at m).ctx.ldP[p]? = some x → ∀ d ∈ x.dels, d.due = (s.at m).now → d.arrive ≤ s.time
  | .lateCopy m id _ => ∀ x ∈ (s.at m).ctx.copies, x.id = id → x.arrive ≤ s.time
  | .walk e => ∀ m ∈ s.members c, ((s.at m).ctx.pend e).walks = []
  | .acquire => ∀ m ∈ s.members c, (s.at m).ctx.pend6.started = true → (s.at m).ctx.pend6.arg.head? = some 1 → (s.at m).ctx.pend6.ready = true
  | .fence => ∀ m ∈ s.members c, (s.at m).ctx.pend6.started = true → (s.at m).ctx.pend6.arg.head? = some 2 → (s.at m).ctx.pend6.ready = true
  | .tlbi => ∀ m ∈ s.members c, (s.at m).ctx.pend6.started = true → (s.at m).ctx.pend6.arg.head? = some 5 → (s.at m).ctx.pend6.ready = true
  | .saveRestore =>
    ∀ m ∈ s.members c, (s.at m).ctx.pend6.started = true → (s.at m).ctx.pend6.arg.head? = some 4 → (s.at m).ctx.pend6.ready = true
  | .resume => ∀ m ∈ s.members c, (s.at m).ctx.pend6.arg.head? = some 6 → ¬OwnWork s m
  | .nmfence => ∀ m ∈ s.members c, ∀ a n, (s.at m).ctx.pend5.arg = [a, n] → ¬FenceWaits s m a n
  | .barrier sc k => ∀ m ∈ s.members c, (s.at m).ctx.pend6.arg = [3, sc, k] → ((s.at m).ctx.bar sc k).rep = true

/-- A fault may show itself in a hold (R25): the error tag, whatever tag is expected (R234), late data that have come and are
poisoned (R233), or the end of a walk or of what a resume waits for. -/
def MayShowFault (s : State) (c : Nat) : HoldCause → Prop
  | .tag q u g _ _ _ => (s.at q).tag u g = 0xFFFF#16
  | .late m p _ _ => ∃ x, (s.at m).ctx.ldP[p]? = some x ∧ ∃ d ∈ x.dels, d.due = (s.at m).now ∧ d.data ≠ none ∧ d.poison = true
      ∧ d.arrive ≤ s.time
  | .walk e => Cleared s c (.walk e)
  | .resume => Cleared s c .resume
  | _ => False

/-- The hold of the current gang is to be tested again (R23, R25). -/
def HoldOver (s : State) : Prop :=
  ∃ h, s.core.hold = some h ∧ ((∀ x ∈ h.causes, Cleared s s.cur.val x) ∨ ∃ x ∈ h.causes, MayShowFault s s.cur.val x)

/-- A pre-emption request is pending in the current gang, and a hold of its task has lasted it the watchdog's time (R295). -/
def HeldTooLong (s : State) : Prop :=
  ∃ h, s.core.hold = some h ∧ s.core.hnd = false ∧ ∃ m ∈ s.members s.cur.val, (s.at m).prePend = true
    ∧ h.wdog * Config.unitsPerNs ≤ (s.at m).hacc

/-- The word of line l at slot j as fetch reads it (R86, R276). -/
def fetched (s : State) (l j : Nat) : W32 :=
  let a := 128 * l + 4 * j
  let rd (i : Nat) : Byte := if s.core.ctx.sup = true ∧ 448 ≤ l then memRead s.core.simem (a - 0xE000 + i) else memRead s.core.imem (a + i)
  rd 3 ++ rd 2 ++ rd 1 ++ rd 0

/-- Word j of the line of the splitter's next position: of the reading it keeps of the line (R91), else of memory. -/
def lineWord (s : State) (j : Nat) : W32 :=
  let x := s.core.ctx.spl
  match (if x.halted then none else x.line) with
  | some (k, ws) => if k = x.next / 32 then ws.getD j 0#32 else fetched s (x.next / 32) j
  | none => fetched s (x.next / 32) j

/-- The word behind that at the splitter's next position. -/
def followWord (s : State) : W32 :=
  let p := s.core.ctx.spl.next
  if nextPos p / 32 = p / 32 then lineWord s (nextPos p % 32) else fetched s (nextPos p / 32) (nextPos p % 32)

/-- Once the word at the next position stands in queue q, with literals `rest` owed, the queue of the word behind it is full
(R88). -/
def NextFull (s : State) (rest : List (Lit × Bool)) (q : Nat) : Prop :=
  let e := if rest = [] then (engOf (followWord s)).toNat else q
  nextPos s.core.ctx.spl.next / 32 < 512 ∧ e < 7 ∧ queueDepth e ≤ (s.core.ctx.q e).es.length + if e = q then 1 else 0

/-- The word behind it is a literal that no word takes (R83), in a line with V. -/
def NextStray (s : State) (rest : List (Lit × Bool)) : Prop :=
  let p := s.core.ctx.spl.next
  rest = [] ∧ engOf (followWord s) = 7#3 ∧ nextPos p / 32 < 512
  ∧ (nextPos p / 32 = p / 32 ∨ (fetched s (nextPos p / 32) 0).getLsbD 31 = true)

/-- A valid table entry that breaks R317 at its level. -/
def EntryWrong (s : State) (lvl e : Nat) : Prop :=
  let f (lo n : Nat) : Nat := e / 2 ^ lo % 2 ^ n
  f 8 4 ≠ 0 ∨ f 52 12 ≠ 0 ∨ (f 1 1 = 0 ∧ f 2 6 ≠ 0) ∨ (f 1 1 = 1 ∧ lvl ≤ 3) ∨ (f 1 1 = 0 ∧ lvl = 5)
  ∨ (f 1 1 = 1 ∧ lvl = 4 ∧ (f 2 1 = 1 ∨ f 12 9 ≠ 0)) ∨ (f 1 1 = 1 ∧ f 3 1 = 0 ∧ f 4 1 = 1)
  ∨ (f 1 1 = 1 ∧ s.target (f 12 40 * 4096) = .decode ∧ (f 4 1 = 1 ∨ f 6 2 ≠ 0))

/-- The 16 entries of a contiguous group agree (R319), e one of them: valid, marked, of e's bits, of frames in a row from a
multiple of 16 on, none poisoned (R349). -/
def GroupAgrees (s : State) (first e : Nat) : Prop :=
  let f (i lo n : Nat) : Nat := home8 s (first + 8 * i) / 2 ^ lo % 2 ^ n
  f 0 12 40 % 16 = 0 ∧ ∀ i < 16, s.poisoned (first + 8 * i) = false ∧ s.poisoned (first + 8 * i + 4) = false ∧ f i 0 1 = 1
    ∧ f i 2 1 = 1 ∧ f i 0 8 = e % 256 ∧ f i 12 40 = f 0 12 40 + i

/-- The place of va's entry in the table at `base` of a level (R316), and an entry there that the walker reads: it has a
target for the walker's partition (R344) and is not poisoned (R349). -/
def entryPlace (va lvl base : Nat) : Nat := base + 8 * (va / 2 ^ (57 - 9 * lvl) % 512)
def EntryIs (s : State) (w : Walker) (a e : Nat) : Prop :=
  s.hasTarget w.part true a = true ∧ s.poisoned a = false ∧ s.poisoned (a + 4) = false ∧ e = home8 s a

/-- The walk of va from the table at `base` of level lvl on comes to a fault, level and kind, or to a leaf (R316, R317, R319,
R320); an entry without a target is of kind 4 (the model's choice, log entry 68), a poisoned one counts as wrong (R349). -/
inductive Walked (s : State) (w : Walker) (va : Nat) : Nat → Nat → WalkRes → Prop
  | unreached (lvl base) : s.hasTarget w.part true (entryPlace va lvl base) = false → Walked s w va lvl base (.inl (16 * 4))
  | poisoned (lvl base) : s.hasTarget w.part true (entryPlace va lvl base) = true → s.poisoned (entryPlace va lvl base) = true ∨ s.poisoned (entryPlace va lvl base + 4) = true →
      Walked s w va lvl base (.inl (lvl + 16 * 2))
  | invalid (lvl base e) : EntryIs s w (entryPlace va lvl base) e → e % 2 = 0 → Walked s w va lvl base (.inl (lvl + 16 * 1))
  | wrong (lvl base e) : EntryIs s w (entryPlace va lvl base) e → e % 2 = 1 → EntryWrong s lvl e →
      Walked s w va lvl base (.inl (lvl + 16 * 2))
  | page (lvl base e size) : EntryIs s w (entryPlace va lvl base) e → e % 2 = 1 → ¬EntryWrong s lvl e → e / 2 % 2 = 1 →
      (lvl = 5 ∧ e / 4 % 2 = 0 ∧ size = 4096 ∨ lvl = 4 ∧ size = 2 ^ 21) →
      Walked s w va lvl base (.inr ⟨w.ctx, w.part, va / size * size, size, e / 2 ^ 12 % 2 ^ 40 * 4096, BitVec.ofNat 8 e⟩)
  | group (base e) : EntryIs s w (entryPlace va 5 base) e → e % 2 = 1 → ¬EntryWrong s 5 e → e / 4 % 2 = 1 →
      GroupAgrees s (base + 128 * (va / 2 ^ 16 % 32)) e →
      Walked s w va 5 base (.inr ⟨w.ctx, w.part, va / 65536 * 65536, 65536,
        e / 2 ^ 12 % 2 ^ 40 * 4096 - va / 2 ^ 12 % 16 * 4096, BitVec.ofNat 8 e⟩)
  | groupWrong (base e) : EntryIs s w (entryPlace va 5 base) e → e % 2 = 1 → ¬EntryWrong s 5 e → e / 4 % 2 = 1 →
      ¬GroupAgrees s (base + 128 * (va / 2 ^ 16 % 32)) e → Walked s w va 5 base (.inl (5 + 16 * 2))
  | next (lvl base e r) : EntryIs s w (entryPlace va lvl base) e → e % 2 = 1 → ¬EntryWrong s lvl e → e / 2 % 2 = 0 →
      Walked s w va (lvl + 1) (e / 2 ^ 12 % 2 ^ 40 * 4096) r → Walked s w va lvl base r

end Sys2Proof.Claims

/-- R276, R289, R290, R294: at user privilege every privileged word takes the privileged-instruction fault, before any other
check. At supervisor privilege `sy.mfsr` puts the register's value on its way to LM, `sy.mtsr` the LM value on its way to
the register, and a value due lands; a number not assigned is a command fault, a bad operand a bounds or alignment fault;
`sy.halt` ends the stream. R21, R61, R278: the end of a cycle enters the raised flags into ARF_STICKY after the cycle's
clears, counts LCC, or HLC in a handler, and lets a value of `sy.mtsr` take effect by the access of its fields: RW fields
take it, W1C bits clear, W1S set, RO fields and those of firmware stay; a register outside the core takes it at the time
of that end (R340). That the order of such acts is the one modelled, and that the number, then bounds, then alignment of an
operand are checked in this order, is the model's choice (log entries 3 and 25). -/
def Obligations.SystemRegisterWords : Prop :=
  (∀ (s : State) (idle : BitVec 4) r d k a p, s.core.ctx.sup = false → ∀ w ∈ privWords idle r d k a p,
     StopsAtIssue s w 6 .privileged none)
  ∧ (∀ (s : State) (idle : BitVec 4) (r : BitVec 12) (d : BitVec 21), s.core.ctx.sup = true →
       let v := s.sysRead s.cur.val r.toNat
       (v = none → StopsAtIssue s (.syMfsr idle r d) 6 .command none ∧ StopsAtIssue s (.syMtsr idle r d) 6 .command none)
       ∧ (v ≠ none → s.core.lmGrant < d.toNat + 8 → StopsAtIssue s (.syMfsr idle r d) 6 .bounds (some d.toNat)
           ∧ StopsAtIssue s (.syMtsr idle r d) 6 .bounds (some d.toNat))
       ∧ (v ≠ none → d.toNat + 8 ≤ s.core.lmGrant → d.toNat % 8 ≠ 0 → StopsAtIssue s (.syMfsr idle r d) 6 .alignment (some d.toNat)
           ∧ StopsAtIssue s (.syMtsr idle r d) 6 .alignment (some d.toNat))
       ∧ (∀ x, v = some x → d.toNat + 8 ≤ s.core.lmGrant → d.toNat % 8 = 0 →
           (∃ t, exec (.syMfsr idle r d) s = .next t ∧ PoppedSyn s t idle
             ∧ t.core.ctx.mfsrs = s.core.ctx.mfsrs ++ [⟨d.toNat, x, s.core.now + 2⟩]
             ∧ SameButCtx s t fun y z => { z with qs := y.qs, pend6 := y.pend6, mfsrs := y.mfsrs })
           ∧ ∃ t, exec (.syMtsr idle r d) s = .next t ∧ PoppedSyn s t idle
             ∧ t.core.ctx.mtsrs = s.core.ctx.mtsrs ++ [⟨r, BitVec.ofNat 64 (lmNat s d.toNat 8), s.core.now⟩]
             ∧ SameButCtx s t fun y z => { z with qs := y.qs, pend6 := y.pend6, mtsrs := y.mtsrs })
       ∧ (∃ t, exec (.syHalt idle) s = .next t ∧ PoppedSyn s t idle ∧ t.core.ctx.halted = true
           ∧ SameButCtx s t fun y z => { z with qs := y.qs, pend6 := y.pend6, halted := y.halted })
       ∧ (∀ m : MfsrW, s.canon → (s.core.ctx.mfsrs.filter fun x => x.due == s.core.now) = [m] → m.addr + 8 ≤ 0x200000 →
           ∃ t, exec .mfsrWrite s = .next t ∧ numAt (t.core.lmRead s.core.ctx.sup) m.addr 8 = m.val.toNat
             ∧ (∀ b, b < m.addr ∨ m.addr + 8 ≤ b → t.core.lmRead s.core.ctx.sup b = s.core.lmRead s.core.ctx.sup b)
             ∧ t.core.ctx.mfsrs = s.core.ctx.mfsrs.filter (fun x => x.due != s.core.now)
             ∧ (t.mod fun c => { c with lm := s.core.lm, slm := s.core.slm, wrote := s.core.wrote, ctx := { c.ctx with mfsrs := s.core.ctx.mfsrs } }) = s))
  ∧ (∀ s : State, CycleEnds s →
       let k := s.core
       (k.ctx.mtsrs = [] → ∃ t, step s = .next t ∧ t.core.ctx.sticky = k.ctx.sticky ||| k.ctx.raised ∧ t.core.ctx.raised = 0#8
         ∧ t.core.lcc = (if k.hnd then k.lcc else k.lcc + 1) ∧ t.core.hlc = (if k.hnd then k.hlc + 1 else k.hlc)
         ∧ t.core.lm = k.lm ∧ t.core.ctx.qs = k.ctx.qs ∧ t.gmem = s.gmem ∧ t.firm = s.firm)
       ∧ ∀ m : MtsrW, k.ctx.mtsrs = [m] → ∃ t, step s = .next t ∧ t.core.ctx.mtsrs = [] ∧ t.firm = s.firm ∧ t.core.lm = k.lm
         ∧ (let n := m.reg.toNat
            let old (r : Nat) : W64 := (s.sysRead s.cur.val r).getD 0#64
            let new (r : Nat) : W64 := (t.sysRead s.cur.val r).getD 0#64
            (∀ l, (n, l) ∈ plainRegs → (∀ b < 64, (new n).getLsbD b = inFields l m.val b) ∧ ∀ l' r, (r, l') ∈ plainRegs → r ≠ n → new r = old r)
            ∧ (n = 0x000 → t.core.hlt = (k.hlt && !m.val.getLsbD 4) ∧ t.core.fenced = k.fenced ∧ t.core.enter = k.enter ∧ t.core.hnd = k.hnd)
            ∧ (n = 0x004 → (new n).toNat = max 1000 (m.val.toNat % 2 ^ 32))
            ∧ (n = 0x005 → t.core.preReq = (k.preReq || m.val.getLsbD 0))
            ∧ t.core.ctx.sticky = (if n = 0x040 then k.ctx.sticky &&& ~~~(m.val.setWidth 8) else k.ctx.sticky) ||| k.ctx.raised
            ∧ (n = 0x100 → k.task ≠ none → t.core.vltHeld = some m.val ∧ new n = old n)
            ∧ (n = 0x310 → (new n).toNat = if m.val.toNat % 64 < 48 then m.val.toNat % 64 else (old n).toNat)
            ∧ (n ∈ keptRegs → ∀ r ∈ keptRegs, new r = old r)
            ∧ (Outer n → (new n = old n ∨ n = 0x313 ∨ n = 0x314)
              ∧ t.outWrites = s.outWrites ++ [⟨s.time + (s.quad (quadOf s.cur.val)).period, s.cur.val, m.reg, m.val⟩])))
  ∧ ∀ (s : State) (w : OutWrite), s.agenda = [] → s.time < 64 * s.gov.tick * Config.unitsPerNs →
       s.time < 1000 * (s.gov.interval + 1) * Config.unitsPerNs → (∀ x, s.sched.head? = some x → s.time < x.1) →
       s.outWrites = [w] → w.due ≤ s.time → w.core < 192 → Outer w.reg.toNat →
       ∃ t, step s = .next t ∧ t.outWrites = [] ∧ (w.reg.toNat < 0x320 → t.cores = s.cores) ∧ t.firm = s.firm
       ∧ OuterEffect s t w.core w.reg.toNat w.val w.due

/-- R291, R292, R321: at supervisor privilege `sy.tlbi`, of kind 0 once its page is looked up, and the save and restore
words hold until their completion and then go on; a page not mapped is a translation fault; an address with a kind that
takes none, a misaligned image, a restore that finds none, and an array or grid at work for the issuing code are command
faults. The completion of `sy.tlbi` removes every matching leaf and walk-cache entry and no other; that of a save writes
and records the image, that of a restore brings back the array, with the freshness marks, or the grid of the image found,
which module's it be and whatever reset came between (its body is opaque: log 8). `sy.tlbi` waits for global writes alone,
not for what a stopped task left (log 34), and that a misaligned image is a command fault is log 25: the model's choices. -/
def Obligations.InvalidateSaveRestore : Prop :=
  ∀ (s : State) (idle : BitVec 4) (k : BitVec 3) (a : BitVec 57) (pa : BitVec 52), s.core.ctx.sup = true →
    let p := s.core.ctx.pend6
    let goes (w : Instr) : Prop := ∃ t, exec w s = .next t ∧ PoppedSyn s t idle
      ∧ SameButCtx s t fun x y => { y with qs := x.qs, pend6 := x.pend6 }
    let waits (w : Instr) (h : HoldCause) (arg : List Nat) : Prop := ∃ u, exec w s = .next (addHold u h)
      ∧ u.core.ctx.pend6.started = true ∧ u.core.ctx.pend6.arg = arg ∧ SameButCtx s u fun x y => { y with pend6 := x.pend6 }
    let isOver := p.started = true ∧ p.ready = true
    (k ≠ 0#3 → a ≠ 0#57 → StopsAtIssue s (.syTlbi idle k a) 6 .command none)
    ∧ ((k = 0#3 ∨ a = 0#57) → p.arg.head? = some 5 → (p.ready = true → goes (.syTlbi idle k a))
        ∧ (p.ready = false → exec (.syTlbi idle k a) s = .next (addHold s .tlbi)))
    ∧ (k ≠ 0#3 → a = 0#57 → p.arg.head? ≠ some 5 → waits (.syTlbi idle k a) .tlbi [5, k.toNat, 0])
    ∧ (∀ u l, k = 0#3 → p.arg.head? ≠ some 5 → issueLooks s 6 [(a.toNat, a.toNat + 1)] = (u, l) →
        (l = none → exec (.syTlbi idle k a) s = .next (addHold u (.walk 6)))
        ∧ (∀ y x, l = some y → lookOf y a.toNat = some (.inl x) → ∃ w,
            exec (.syTlbi idle k a) s = .next (takeStop u w [] false 0xFFFF#16 none) ∧ w.cls = .translation ∧ w.eng = 6)
        ∧ (∀ y, l = some y → (∀ x, lookOf y a.toNat ≠ some (.inl x)) → ∃ v, exec (.syTlbi idle k a) s = .next (addHold v .tlbi)
            ∧ v.core.ctx.pend6.started = true ∧ v.core.ctx.pend6.arg = [5, 0, a.toNat]
            ∧ SameButCtx u v fun x y => { y with pend6 := x.pend6 }))
    ∧ (∀ w ∈ [(Instr.syAsave idle pa, 0), (.syArest idle pa, 1), (.syGsave idle pa, 2), (.syGrest idle pa, 3)],
        let g := s.core.grid
        let r := s.core.arr
        let busy := s.core.hnd = false ∧ if w.2 < 2 then s.core.arrHeld = false ∧ (r.fronts ≠ [] ∨ r.ldst ≠ none ∨ r.drain ≠ none)
          else s.core.gridHeld = false ∧ (g.doneBit = false ∨ g.loading ≠ none ∨ g.passes ≠ [])
        let missing := (w.2 = 1 ∧ findArray s pa.toNat = none) ∨ (w.2 = 3 ∧ findGrid s pa.toNat = none)
        (isOver → goes w.1)
        ∧ (p.started = true → p.ready = false → exec w.1 s = .next (addHold s .saveRestore))
        ∧ (p.started = false → (pa.toNat % 128 ≠ 0 ∨ busy ∨ missing) → StopsAtIssue s w.1 6 .command none)
        ∧ (p.started = false → pa.toNat % 128 = 0 → ¬busy → ¬missing → waits w.1 .saveRestore [4, w.2, pa.toNat]))
    ∧ (p.arg = [5, k.toNat, a.toNat] → ¬WritesVisible s s.cur.val globalEnd → exec .tlbiComplete s = .next s)
    ∧ (p.arg = [5, k.toNat, a.toNat] → WritesVisible s s.cur.val globalEnd → s.core.l1d = [] → ∃ t, exec .tlbiComplete s = .next t
        ∧ t.core.ctx.pend6.ready = true
        ∧ (let x := s.walkerOf s.cur.val
           let hits (c : W16) (q : Nat) : Prop := q = x.part ∧ (k = 2#3 ∨ c = x.ctx)
           (∀ (q : Nat) (l : Leaf), q < 48 → (l ∈ (t.quad q).tlb ↔ l ∈ (s.quad q).tlb
              ∧ ¬(hits l.ctx l.part ∧ (k = 0#3 → l.va ≤ a.toNat ∧ a.toNat < l.va + l.size))))
           ∧ ∀ (e : Nat) y, e < 4 → (y ∈ (t.die e).wc ↔ y ∈ (s.die e).wc
              ∧ ¬(hits y.1 y.2.1 ∧ (k = 0#3 → y.2.2.2.1 = lvlPrefix y.2.2.1 a.toNat))))
        ∧ t.gmem = s.gmem ∧ (∀ c u b, (t.at c).lmRead u b = (s.at c).lmRead u b) ∧ t.firm = s.firm)
    ∧ (p.ready = false →
        (p.arg = [4, 0, pa.toNat] → ∃ t, exec .saveRestoreComplete s = .next t ∧ t.core.ctx.pend6 = { p with ready := true }
          ∧ t.saved = .array s.nextId s.core.arr s.core.grid.amark s.core.grid.gmark :: s.saved ∧ t.nextId = s.nextId + 1
          ∧ t.core.arr = s.core.arr ∧ ((∀ o < 0x40000, InShare s (s.partOf s.cur.val) (pa.toNat + o)) → s.canon → homeNat t pa.toNat 2 = 1
              ∧ homeNat t (pa.toNat + 4) 8 = s.core.arr.stopCyc % 2 ^ 64))
        ∧ (p.arg = [4, 2, pa.toNat] → ∃ t, exec .saveRestoreComplete s = .next t ∧ t.core.ctx.pend6 = { p with ready := true }
          ∧ t.saved = .grid s.nextId s.core.grid :: s.saved ∧ t.nextId = s.nextId + 1
          ∧ t.core.grid = s.core.grid ∧ ((∀ o < 0x20000, InShare s (s.partOf s.cur.val) (pa.toNat + o)) → s.canon → homeNat t pa.toNat 2 = 1
              ∧ homeNat t (pa.toNat + 4) 8 = s.core.grid.stopCyc % 2 ^ 64))
        ∧ (∀ x, p.arg = [4, 1, pa.toNat] → findArray s pa.toNat = some x → ∃ t, exec .saveRestoreComplete s = .next t
          ∧ t.core.arr = x.1 ∧ t.core.grid.amark = x.2.1 ∧ t.core.grid.gmark = x.2.2 ∧ t.core.arrHeld = true
          ∧ t.core.ctx.pend6 = { p with ready := true }
          ∧ SameButCore s t fun y z => { z with
              arr := y.arr, arrHeld := y.arrHeld, grid := { z.grid with amark := y.grid.amark, gmark := y.grid.gmark }
              ctx := { z.ctx with pend6 := y.ctx.pend6 } })
        ∧ (∀ x, p.arg = [4, 3, pa.toNat] → findGrid s pa.toNat = some x → ∃ t, exec .saveRestoreComplete s = .next t
          ∧ t.core.grid = x ∧ t.core.gridHeld = true ∧ t.core.ctx.pend6 = { p with ready := true }
          ∧ SameButCore s t fun y z => { z with grid := y.grid, gridHeld := y.gridHeld, ctx := { z.ctx with pend6 := y.ctx.pend6 } }))

/-- R293: `sy.resume` waits while the core has words in another queue or copies of its own cycles, cycle by cycle within the
hold watchdog as it stood when the wait began (log 67, the model's reading), and holds while releases, returning atomics or
copies outside logical time of the running code are in flight; then a misaligned address (by log 25 the model's choice), or
memory that holds no frame it may resume, is a command fault; else a gang of one returns: its context is that of the frame with what software may edit read from memory, and
logical time goes on at the stop cycle, or after it where the stop came at its end; HDC counts on (R22). -/
def Obligations.ResumeReturns : Prop :=
  ∀ (s : State) (idle : BitVec 4) (pa : BitVec 52), s.core.ctx.sup = true →
    let c := s.cur.val
    let limit := (waitsSince s).1 + (waitsSince s).2 * Config.unitsPerNs
    (QueuesLeft s c → s.time < limit → ∃ t, exec (.syResume idle pa) s = .next t ∧ t.core.ctx.pend6.started = true
        ∧ (s.core.ctx.qs.length = 7 → t.core.ctx.q 6 = ⟨s.core.now + 1, (s.core.ctx.q 6).es⟩) ∧ waitsSince t = waitsSince s
        ∧ (∀ e, e ≠ 6 → t.core.ctx.q e = s.core.ctx.q e) ∧ SameButCtx s t fun x y => { y with qs := x.qs, pend6 := x.pend6 })
    ∧ (QueuesLeft s c → limit ≤ s.time → StopsAtIssue s (.syResume idle pa) 6 .holdTimeout none)
    ∧ (¬QueuesLeft s c → OwnWork s c → ∃ u, exec (.syResume idle pa) s = .next (addHold u .resume)
        ∧ u.core.ctx.pend6.arg = [6, (waitsSince s).1, (waitsSince s).2]
        ∧ (s.core.held = none → Alone s → u.core.held = some (s.core.now, (waitsSince s).1, (waitsSince s).2, none))
        ∧ (Alone s → SameButCore s u fun x y => { y with held := x.held, ctx := { y.ctx with pend6 := x.ctx.pend6 } }))
    ∧ (¬QueuesLeft s c → ¬OwnWork s c → (pa.toNat % 4096 ≠ 0 ∨ ∀ f, ¬MayResume s c pa.toNat f) →
        StopsAtIssue s (.syResume idle pa) 6 .command none)
    ∧ ∀ f, ¬QueuesLeft s c → ¬OwnWork s c → pa.toNat % 4096 = 0 → MayResume s c pa.toNat f →
        Alone s → s.core.hnd = true → s.core.ctx.effs = [] → s.core.ctx.mfsrs = [] → (∀ st, s.core.stop = some st → st.escalated = false) →
        f.stop.why.cls ≠ .preemptSafe → f.core = c →
        ∃ t, exec (.syResume idle pa) s = .next t
          ∧ t.core.hnd = false ∧ t.core.stop = none ∧ t.core.hold = none
          ∧ t.core.lcc = f.stop.cyc + (if f.stop.atEnd then 1 else 0) ∧ t.core.hdc = s.core.hdc ∧ t.core.ctx.sup = f.ctx.sup
          ∧ t.core.hst = (if f.ctx.ended then 6 else 4)
          ∧ t.core.ctx.ret = f.ctx.ret ∧ t.core.ctx.loops = f.ctx.loops ∧ t.core.ctx.qs = f.ctx.qs
          ∧ (∀ i < 16, (t.core.ctx.rq.getD i 0#64).toNat = home8 s (pa.toNat + 0x100 + 8 * i)
              ∧ (t.core.ctx.n.getD i 0#64).toNat = home8 s (pa.toNat + 0x180 + 8 * i))
          ∧ t.core.ctx.sticky = s.homeByte (pa.toNat + 0x2C0)
          ∧ (∀ b < 4096, memRead t.core.ctx.spm b = s.homeByte (pa.toNat + 0x2000 + b))
          ∧ t.core.lm = s.core.lm ∧ t.core.slm = s.core.slm ∧ t.core.tags = s.core.tags
          ∧ (∀ b, b ≠ c → t.at b = s.at b) ∧ t.gmem = s.gmem

/-- R278, R286, R288: a gang of one whose frame stands ready enters its handler, when its stop asks for it or firmware
sets ENTER: at supervisor privilege, with empty queues, N0-N3 as R286 says and the other registers zero; a gang without
a frame, or in its handler, does not enter by ENTER, the model's choice (log entry 40). HLT written one clears. -/
def Obligations.HandlersEnter : Prop :=
  ∀ s : State,
    let k := s.core
    let enters (w : Instr) : Prop := ∃ t, exec w s = .next t ∧ t.core.hnd = true ∧ t.core.ctx.sup = true ∧ t.core.hlc = 0
      ∧ t.core.enter = false ∧ t.core.stop = k.stop ∧ t.core.lcc = k.lcc ∧ t.core.lm = k.lm ∧ t.core.ctx.ret = []
      ∧ t.core.ctx.loops = [] ∧ t.core.ctx.rq = List.replicate 16 0#64
      ∧ t.core.ctx.n.getD 0 0#64 = k.fltBase
      ∧ t.core.ctx.n.getD 1 0#64 = BitVec.ofNat 64 (4 * k.gsize)
      ∧ (∀ f, s.frameRec s.cur.val = some f → t.core.ctx.n.getD 2 0#64 = BitVec.ofNat 64 (headerWord f)
          ∧ t.core.ctx.n.getD 3 0#64 = BitVec.ofNat 64 f.stop.why.detail)
      ∧ (∀ i, 4 ≤ i → t.core.ctx.n.getD i 0#64 = 0#64)
      ∧ (∀ c, c ≠ s.cur.val → t.at c = s.at c) ∧ t.gmem = s.gmem
    (HasFrame s → k.hnd = false → Alone s → enters .handlerEntry ∧ enters .prvEnter)
    ∧ (¬HasFrame s ∨ k.hnd = true → exec .handlerEntry s = .next s ∧ exec .prvEnter s = .next s)
    ∧ exec .prvHltClear s = .next (s.mod fun c => { c with hlt := false })

/-- R23, R25, R295, R298, R311, R354: a hold ends in every core of its gang once all its causes have cleared, or a fault may
show, for its cycle to be tested again, within the same hold (log 59, the model's reading); one that outlasts the watchdog
is a fault, of its class, that of the link where a link was seen to fail; a pre-emption request is noted, becomes pending, and stops a hold that has lasted;
a task that has not begun is withdrawn. -/
def Obligations.HoldsAndRequests : Prop :=
  ∀ s : State,
    let k := s.core
    let pressed := ∃ c ∈ s.members s.cur.val, (s.at c).prePend = true
    (¬HoldOver s → exec .holdEnd s = .next s)
    ∧ (HoldOver s → ∃ t, exec .holdEnd s = .next t
        ∧ ∀ c, t.at c = if c ∈ s.members s.cur.val then { s.at c with hold := none, held := (s.at c).hold.map fun h =>
            ((s.at c).now, h.since, h.wdog, h.linkSeen) } else s.at c)
    ∧ (k.hold = none → exec .holdTimeout s = .next s)
    ∧ (∀ h, k.hold = some h →
        (s.time < h.since + h.wdog * Config.unitsPerNs → exec .holdTimeout s = .next s)
        ∧ (h.since + h.wdog * Config.unitsPerNs ≤ s.time → (h.linkSeen = none ∨ pressed) → exec .holdTimeout s =
            .next (takeStop s { h.why with cls := if pressed then .preemptHold else .holdTimeout } [] false 0xFFFF#16 none))
        ∧ (∀ pt, h.since + h.wdog * Config.unitsPerNs ≤ s.time → h.linkSeen = some pt → ¬pressed → ∃ u, exec .holdTimeout s =
            .next (takeStop u { h.why with cls := .linkLost } [] false 0xFFFF#16 none) ∧ u.mgtEvhead = s.mgtEvhead + 1#32))
    ∧ (k.task = none → exec .preemptRequest s = .next s)
    ∧ (∀ t, k.task = some t → t.t0 = true → k.preReq = false →
        exec .preemptRequest s = .next (s.mod fun c => { c with preReq := true, hacc := 0 }))
    ∧ (∀ t, k.task = some t → t.t0 = true → k.preReq = true → exec .preemptRequest s = .next s)
    ∧ (∀ t, k.task = some t → t.t0 = false → Alone s → ∃ u, exec .preemptRequest s = .next u ∧ u.core.task = none
        ∧ u.core.arr = k.arr)
    ∧ (k.preReq = true → k.task ≠ none → exec .preemptPending s = .next (s.mod fun c => { c with prePend := true }))
    ∧ (k.preReq = false ∨ k.task = none → exec .preemptPending s = .next s)
    ∧ (¬HeldTooLong s → exec .preemptHoldStop s = .next s)
    ∧ (HeldTooLong s → ∃ x, exec .preemptHoldStop s = .next (takeStop s x [] false 0xFFFF#16 none)
        ∧ x.cls = .preemptHold ∧ x.eng = 7)

/-- R83, R86-R91, R118, R119: the splitter, while it is not halted, or from its resume on, with room in the next word's
queue, places it behind what waits there, present in the next cycle, with its effective stamp, and goes on until a queue is
full; a control word halts it once it is whole; a body's last word turns or pops its levels. A word outside the lines, in a
header's place, in a line without V, not marked where a transfer lands, or forbidden at a body's end is a control flow
fault, a privileged word at user privilege the privileged fault, a word or literal that breaks its encoding an illegal
encoding; words before it stay. R94: a head that became present after its time, once that is known, or whose stamp lies
below NI, misses its time. R316-R320: a page walk gives the word that waits what the tables hold, and installs it. Which of two split-time
causes is recorded is log 41, the model's choice. -/
def Obligations.SplitterPlaces : Prop :=
  (∀ s : State,
    let x := s.core.ctx.spl
    let p := x.next
    let l := p / 32
    let j := p % 32
    let w := lineWord s j
    let owed := x.owed
    let q := if owed = [] then (engOf w).toNat else x.owedEng
    let es := (s.core.ctx.q q).es
    let loops := s.core.ctx.loops
    let active := x.halted = false ∨ ∃ t, x.resumeAt = some t ∧ t ≤ s.core.now
    let room := l < 512 ∧ j ≠ 0 ∧ (q < 7 → es.length < queueDepth q)
    let header := (lineWord s 0).getLsbD 31 = true ∧ (x.landing = true → (lineWord s 0).getLsbD (j - 1) = true)
    let reads := active ∧ room ∧ header
    let priv := isPriv w = true ∧ s.core.ctx.sup = false
    let barred := s.core.hnd = true ∧ 1 ≤ q ∧ q ≤ 4
    let only (u : State) : Prop := u.core.ctx.spl.next = p ∧ SameButCtx s u fun y z => { z with spl := y.spl }
    let faults (cls : StopClass) (e : Nat) : Prop := ∃ u k, exec .split s = .next (takeStop u k [] false 0xFFFF#16 none)
      ∧ only u ∧ (x.halted = false → u = s) ∧ k.cls = cls ∧ k.eng = e ∧ k.waddr = 4 * p
    let ends := ∃ v ∈ loops, v.last = p
    let stamp : Option Nat := if isStamped w then some ((loops.map fun v => v.i * v.period).sum) else if isTimed w then some 0 else none
    (∃ t, exec .split s = .next t)
    ∧ (¬active → exec .split s = .next s)
    ∧ (active → l < 512 → j ≠ 0 → q < 7 → queueDepth q ≤ es.length → ∃ t, exec .split s = .next t ∧ only t ∧ (x.halted = false → t = s))
    ∧ (active → 512 ≤ l ∨ (l < 512 ∧ j = 0) → faults .controlFlow 0)
    ∧ (active → room → ¬header → faults .controlFlow 0)
    ∧ (reads → owed = [] → priv ∨ barred → faults .privileged q)
    ∧ (reads → owed = [] → ¬priv → ¬barred → (checkWord w).toOption = none → faults .illegalEncoding q)
    ∧ (engOf w = 7#3 ∨ opOf w = 0x7F#7 → (checkWord w).toOption = none)
    ∧ (∀ rsv desc r, reads → owed = (rsv, desc) :: r → q < 7 →
        (engOf w ≠ 7#3 ∨ payload w &&& rsv ≠ 0#29 ∨ (desc = true ∧ opDescOk (payload w) = false)) → faults .illegalEncoding q)
    ∧ ∀ (rest : List (Lit × Bool)) (ctl : Bool) (es' : List QEntry), reads → s.core.ctx.qs.length = 7 → q < 7 →
        (owed = [] ∧ ¬priv ∧ ¬barred ∧ (checkWord w).toOption ≠ none ∧ rest = (litRules w).map (fun r => (r.rsv, r.desc))
            ∧ ctl = isControl w ∧ es' = es ++ [⟨w, 4 * p, s.core.now + 1, stamp⟩])
          ∨ (∃ rsv desc pre h lits eff, owed = (rsv, desc) :: rest ∧ es = pre ++ h :: lits ∧ isLit h.word = false
            ∧ (∀ y ∈ lits, isLit y.word = true) ∧ owed.length + lits.length = (litRules h.word).length ∧ ctl = isControl h.word
            ∧ engOf w = 7#3 ∧ payload w &&& rsv = 0#29 ∧ (desc = true → opDescOk (payload w) = true)
            ∧ eff = (if isStamped h.word = true ∧ lits = [] then h.eff.map fun v => v + (payload w).toNat
                else if isStamped h.word = false ∧ isTimed h.word = true ∧ lits.length < 2 then
                  h.eff.map fun v => v * 2 ^ 29 + (payload w).toNat
                else h.eff)
            ∧ es' = pre ++ { h with eff := eff } :: lits ++ [⟨w, 4 * p, s.core.now + 1, none⟩]) →
        let placed (t : State) (loops' : List LoopLevel) (at_ : Nat) : Prop :=
          t.core.ctx.q q = ⟨(s.core.ctx.q q).ni, es'⟩ ∧ (∀ e, e ≠ q → t.core.ctx.q e = s.core.ctx.q e) ∧ t.core.ctx.loops = loops'
          ∧ t.core.ctx.spl.next = at_ ∧ t.core.ctx.spl.owed = rest ∧ t.core.ctx.spl.resumeAt = none
          ∧ SameButCtx s t fun y z => { z with qs := y.qs, spl := y.spl, loops := y.loops }
        let goesOn (loops' : List LoopLevel) : Prop := x.resumeAt = none ∨ x.halted = true →
          (NextFull s rest q → ∃ t, exec .split s = .next t ∧ placed t loops' (nextPos p) ∧ t.core.ctx.spl.halted = false
            ∧ t.core.ctx.spl.landing = false)
          ∧ (NextStray s rest → ∃ u k, exec .split s = .next (takeStop u k [] false 0xFFFF#16 none) ∧ placed u loops' (nextPos p)
            ∧ k.cls = .illegalEncoding ∧ k.eng = 7 ∧ k.waddr = 4 * nextPos p)
        (ends → (rest ≠ [] ∨ ctl = true ∨ loops.head?.map LoopLevel.last ≠ some p) → faults .controlFlow 0)
        ∧ (¬ends → ctl = true → rest = [] → ∃ t, exec .split s = .next t ∧ placed t loops (nextPos p) ∧ t.core.ctx.spl.halted = true)
        ∧ (¬ends → (ctl = false ∨ rest ≠ []) → goesOn loops)
        ∧ (∀ a v b, rest = [] → ctl = false → loops.head?.map LoopLevel.last = some p → loops = a ++ v :: b →
            (∀ y ∈ a, y.last = p → y.count ≤ y.i + 1) → v.last = p → v.i + 1 < v.count → x.resumeAt = none ∨ x.halted = true →
            ∃ t, exec .split s = .next t ∧ t.core.ctx.spl.landing = true ∧ t.core.ctx.spl.halted = false
              ∧ placed t (a.filter (fun y => y.last ≠ p) ++ { v with i := v.i + 1 } :: b) v.first)
        ∧ (ends → rest = [] → ctl = false → loops.head?.map LoopLevel.last = some p → (∀ y ∈ loops, y.last = p → y.count ≤ y.i + 1) →
            goesOn (loops.filter fun y => y.last ≠ p)))
  ∧ (∀ (s : State) (c : Fin 192) (e : BitVec 3) r h l rest,
      let q := (s.at c.val).ctx.q e.toNat
      let now := (s.at c.val).now
      let timed := isStamped h.word = true ∨ isTimed h.word = true
      let here := l.filter fun x => decide (x.pres ≤ now)
      let known := here.length = l.length ∨ (isStamped h.word = true ∧ here ≠ []) ∨ 2 ≤ here.length
      s.agenda = (c, .issue e) :: r → q.es = h :: (l ++ rest) → l.length = (litRules h.word).length →
      ((¬timed ∧ h.pres ≤ now ∧ ∃ x ∈ h :: l, x.pres ≤ now ∧ q.ni < x.pres) ∨ (timed ∧ known ∧ ∃ a, h.eff = some a ∧ (∃ x ∈ h :: l, x.pres ≤ now ∧ a < x.pres))
        ∨ (timed ∧ known ∧ ∃ a, h.eff = some a ∧ a < q.ni ∧ ∀ x ∈ h :: l.take 1, x.pres ≤ now)) →
      ∃ k, step s = .next (takeStop { s with agenda := r, cur := c } k [] false 0xFFFF#16 none) ∧ k.cls = .scheduleMiss
        ∧ k.eng = e.toNat ∧ (rest = [] → k.waddr = h.addr))
  ∧ ∀ (s : State) (e : Nat), e = 5 ∨ e = 6 →
    (s.core.ctx.pend5.walks = [] → s.core.ctx.pend6.walks = [] → exec .pageWalk s = .next s)
    ∧ ∀ va ed r, (s.core.ctx.pend e).walks = (va, ed) :: r → (s.core.ctx.pend (11 - e)).walks = [] → ∃ t res more, exec .pageWalk s = .next t
        ∧ (t.core.ctx.pend e).looks = (s.core.ctx.pend e).looks ++ (va, res) :: more
        ∧ ((t.core.ctx.pend e).ready = true ↔ (t.core.ctx.pend e).walks = []) ∧ t.gmem = s.gmem ∧ t.firm = s.firm
        ∧ (let y := s.walkerOf s.cur.val
           let cached (lvl : Nat) (v : W64) : Prop := (s.die y.die).wc.find? (fun z => z.1 == y.ctx && z.2.1 == y.part && z.2.2.1 == lvl
              && z.2.2.2.1 == lvlPrefix lvl va) = some (y.ctx, y.part, lvl, lvlPrefix lvl va, v)
           ((∀ lvl v, 1 ≤ lvl → lvl ≤ 4 → ¬cached lvl v) → Walked s y va 1 (s.core.trnRoot.toNat / 2 ^ 12 % 2 ^ 40 * 4096) res)
           ∧ (∀ lvl v, 1 ≤ lvl → lvl ≤ 4 → cached lvl v → (∀ m u, lvl < m → m ≤ 4 → ¬cached m u) →
                Walked s y va (lvl + 1) (v.toNat / 2 ^ 12 % 2 ^ 40 * 4096) res)
           ∧ (r = [] → (∀ k, res = .inl k → more = []) ∧ ∀ k, res = .inr k → ed ≤ k.va + k.size → more = []
                ∧ (s.cur.val < 192 → k ∈ (t.quad (quadOf s.cur.val)).tlb
                  ∧ (t.quad (quadOf s.cur.val)).trnMiss = satAdd48 (s.quad (quadOf s.cur.val)).trnMiss 1)))

namespace Sys2Proof.Claims

/-! Launches, power, partitions, bring-up. -/

/-- t is s but for the partitions that f changes. -/
def OnlyPart (s t : State) (p : Nat) (f : Part → Part) : Prop :=
  (∀ q < 16, t.part q = if q = p then f (s.part q) else s.part q) ∧ { t with parts := s.parts } = s

/-- t is s but for quad q, which is what f makes of it. -/
def OnlyQuad (s t : State) (q : Nat) (f : Quad → Quad) : Prop :=
  (∀ n < 48, t.quad n = if n = q then f (s.quad n) else s.quad n) ∧ { t with quads := s.quads } = s

/-- The clock of a quad runs (R336, R355). -/
def ClockRuns (x : Quad) : Prop := x.tripped = false ∧ x.ps ≠ .gated ∧ x.ps ≠ .wakeWait

/-- y is what f makes of x once the n cycles of its clock that began before time t are counted (R327, R333, R341): the
stretched ones, and those in which ballast ran; a clock that is stopped begins none. -/
def Counts (x : Quad) (t : Nat) (f : Quad → Quad) (y : Quad) : Prop :=
  (ClockRuns x → 0 < x.period → ∃ n, t ≤ x.edge + n * x.period ∧ (∀ m < n, x.edge + m * x.period < t)
    ∧ y = f { x with
      edge := x.edge + n * x.period
      stretchCyc := if x.stretch = true then satAdd48 x.stretchCyc n else x.stretchCyc
      ballastCyc := if x.ballast = 0 then x.ballastCyc else satAdd48 x.ballastCyc n })
  ∧ (¬ClockRuns x → y = f { x with edge := max x.edge t })

/-- t is s but for quad q, whose cycles are counted and which f changes. -/
def QuadCounts (s t : State) (q : Nat) (f : Quad → Quad) : Prop :=
  (∀ n < 48, n ≠ q → t.quad n = s.quad n) ∧ (q < 48 → Counts (s.quad q) s.time f (t.quad q)) ∧ { t with quads := s.quads } = s

/-- Quad q has accepted requests that are not complete (R341). -/
def Awaited (s : State) (q : Nat) : Prop :=
  (∃ x ∈ s.hbm, q ∈ x.acc) ∨ (∃ o ∈ s.outLands, q ∈ o.copy.acc) ∨ ∃ x ∈ s.atoms, q ∈ x.acc

/-- The place of the next entry of the event ring, and whether it lies in HBM (R348). -/
def eventAt (s : State) : Nat :=
  s.mgtEvq.toNat / 2 ^ 12 % 2 ^ 40 * 4096 + 32 * (s.mgtEvhead.toNat % 2 ^ (s.mgtEvq.toNat % 2 ^ 4 + 4))
def EventInHbm (s : State) : Prop := ∀ o < 32, s.target (eventAt s + o) = .hbm

/-- One entry has been posted since s, with a kind, a partition, a core, a context and a line address (R348). -/
def Posted (s t : State) (kind part core ctx addr : Nat) : Prop :=
  t.mgtEvhead = s.mgtEvhead + 1#32
  ∧ (s.canon → EventInHbm s → homeNat t (eventAt s) 2 = kind + 256 * part ∧ homeNat t (eventAt s + 2) 2 = core
    ∧ homeNat t (eventAt s + 4) 2 = ctx ∧ homeNat t (eventAt s + 16) 8 = addr ∧ homeNat t (eventAt s + 24) 8 = s.wtc % 2 ^ 64)

/-- Core c has left its gang: no task, hold, stop or handler; its record is free and it is a gang of its own (R266). -/
def Freed (t : State) (c : Nat) : Prop :=
  let k := t.at c
  k.task = none ∧ k.hold = none ∧ k.stop = none ∧ k.hnd = false ∧ k.armed = false ∧ k.hst = 0 ∧ k.gbase = c ∧ k.gsize = 1
  ∧ k.prePend = false ∧ k.ctx.sup = false

/-- Core m is an enabled core of partition p (R343, R345). -/
def CoreOf (s : State) (p m : Nat) : Prop := m < 192 ∧ (s.part p).en = true ∧ (s.part p).qmask.getLsbD (quadOf m) = true

/-- A task header, read as a number, without a fault of code 0x05 (R302, R305). -/
def HeaderOk (v : Nat) : Prop :=
  let f := fieldOf v
  let off (k : Nat) : Nat := f (256 + 64 * k) 32
  let len (k : Nat) : Nat := f (288 + 64 * k) 32
  f 0 16 = 1 ∧ (f 32 3 = 1 ∨ f 32 3 = 2 ∨ f 32 3 = 4) ∧ 1 ≤ f 96 10 ∧ f 96 10 ≤ 512 ∧ f 128 10 ≤ 512 ∧ f 160 11 ≤ 1024
  ∧ f 192 12 ≤ 2048 ∧ f 224 4 ≤ 8 ∧ f 228 4 ≤ 8 ∧ (∀ k < 4, off k % 128 = 0 ∧ len k % 128 = 0)
  ∧ len 0 ≤ 0x10000 ∧ len 1 ≤ 4096 * f 96 10 ∧ len 2 ≤ 0x1000 ∧ len 3 ≤ 128 * f 160 11 ∧ 4 * f 16 14 < len 0
  ∧ (∀ k < f 228 4, 1 ≤ f (512 + 64 * k) 3 ∧ f (512 + 64 * k) 3 ≤ 5)
  ∧ f 30 2 = 0 ∧ f 35 29 = 0 ∧ f 80 16 = 0 ∧ f 106 22 = 0 ∧ f 138 22 = 0 ∧ f 171 21 = 0 ∧ f 204 20 = 0 ∧ f 232 24 = 0
  ∧ f 1024 1024 = 0 ∧ ∀ k < 8, f (515 + 64 * k) 5 = 0 ∧ f (560 + 64 * k) 16 = 0

/-- Reservation entries of a header whose route has a code (R302). -/
def entriesOf (v code : Nat) : Nat := ((List.range (fieldOf v 228 4)).filter fun k => fieldOf v (512 + 64 * k) 3 == code).length

/-- Routes with their codes and their channels per unit (R302, R309), and the cores of the unit of core c. -/
def channelTable : List (Route × Nat × Nat) := [(.lquad, 1, 4), (.vnear, 2, 2), (.vdie, 3, 16), (.ldie, 4, 16), (.xdie, 5, 32)]
def sharesChannels (r : Route) (c m : Nat) : Bool :=
  if r = .vnear then m == c else if r = .lquad then quadOf m == quadOf c
  else if r = .vdie ∨ r = .ldie then dieOf m == dieOf c else true

/-- Channels that a task of a header claims in each unit (R309): vnear per core, the others per core of the gang. -/
def needOf (v : Nat) (r : Route × Nat × Nat) : Nat := if r.1 = .vnear then entriesOf v r.2.1 else entriesOf v r.2.1 * fieldOf v 32 3

/-- The check of R305 with code k fails for packet v (1,024 bytes as a number) of partition p. -/
def Fails (s : State) (p v k : Nat) : Prop :=
  let f := fieldOf v
  let lid := BitVec.ofNat 32 (f 32 32)
  let ctx := BitVec.ofNat 16 (f 112 16)
  let tiles := f 64 16 * f 80 16 * f 96 16
  let args := (s.part p).lncRing.toNat / 2 ^ 10 % 2 ^ 42 * 1024 + 1024 * ((s.part p).lncTail.toNat % 64) + 128
  let head : Option (List Byte) := s.readCtx ctx p (f 128 64) 256
  let h : Nat := leNat (head.getD [])
  match k with
  | 1 => f 0 16 ≠ 1 ∨ f 23 1 ≠ 0 ∨ f 336 16 ≠ 0 ∨ f 384 640 ≠ 0
  | 2 => lid = 0#32 ∨ (∃ x ∈ s.launches, x.part = p ∧ x.lid = lid ∧ x.ended = false) ∨ tiles = 0 ∨ f 28 2 = 3 ∨ f 256 64 % 64 ≠ 0
      ∨ 2 ^ 57 < f 256 64 + 64 * f 320 16 ∨ f 320 16 = 0
  | 3 => (s.ctxEntry p (s.partTab p) ctx).getLsbD 0 = false
  | 4 => f 128 64 % 256 ≠ 0 ∨ (∃ i < 48 * (f 16 4 + 1), s.poisoned (args + i) = true ∨ s.noAnswer p (args + i) = true
        ∨ s.hasTarget p false (args + i) = false) ∨ head = none
      ∨ ∃ j < 4, s.readCtx ctx p (f 128 64 + fieldOf h (256 + 64 * j) 32) (fieldOf h (288 + 64 * j) 32) = none
  | 5 => ¬HeaderOk h
  | 6 => (0 < fieldOf h 192 12 ∧ ∀ m, CoreOf s p m → (s.at m).vaultBytes < 4096 * fieldOf h 192 12)
      ∨ ∃ r ∈ channelTable, r.2.2 < needOf h r
  | 7 => (s.part p).maxcls.toNat < f 20 3
  | 8 => f 26 1 = 1 ∧ (s.partCores p).length < tiles * fieldOf h 32 3
  | 9 => f 28 2 = 2 ∧ ∀ x ∈ s.launches, ¬(x.part = p ∧ x.lid = BitVec.ofNat 32 (f 352 32) ∧ x.committed = true ∧ x.ctx = ctx
      ∧ x.xext = f 64 16 ∧ x.yext = f 80 16 ∧ x.zext = f 96 16 ∧ x.gang = fieldOf h 32 3)
  | _ => False

/-- The first check that fails has code k. -/
def FirstFail (s : State) (p v k : Nat) : Prop := Fails s p v k ∧ ∀ j < k, ¬Fails s p v j

/-- Records with the GID of core c's that are armed and wait (R307). -/
def InRecordGang (s : State) (c m : Nat) : Prop :=
  m < 192 ∧ (s.at m).armed = true ∧ (s.at m).hst = 1 ∧ (s.at m).slot.gid = (s.at c).slot.gid

/-- The lowest core of the gang that core c's record names. -/
def baseOf (s : State) (c : Nat) : Nat := c - (s.at c).slot.gidx.toNat

/-- The records of core c's gang disagree, or break the core pairs of R15 (R308). -/
def RecordsDisagree (s : State) (c : Nat) : Prop :=
  let r := (s.at c).slot
  ∃ m, InRecordGang s c m ∧
    let x := (s.at m).slot
    ¬(x.lid = r.lid ∧ x.tile = r.tile ∧ x.phase = r.phase ∧ x.gsize = r.gsize ∧ (r.gsize = 1#3 ∨ r.gsize = 2#3 ∨ r.gsize = 4#3)
      ∧ x.gidx.toNat < x.gsize.toNat ∧ m = baseOf s c + x.gidx.toNat ∧ baseOf s c % r.gsize.toNat = 0)

/-- The quad of a member is draining, falling, gated or waking. -/
def MemberGated (s : State) (c : Nat) : Prop := ∃ m, InRecordGang s c m ∧ (s.quad (quadOf m)).gated = true

/-- Every record of the gang is armed. -/
def AllArmed (s : State) (c : Nat) : Prop := ∀ i < (s.at c).slot.gsize.toNat, InRecordGang s c (baseOf s c + i)

/-- The launch that the record names, in its core's partition, and the first 256 bytes of its image. -/
def NamesLaunch (s : State) (c : Nat) (l : Launch) : Prop := s.launch (s.partOf (baseOf s c)) (s.at c).slot.lid = some l
def HeadAt (s : State) (l : Launch) (v : Nat) : Prop := ∃ b, s.readCtx l.ctx l.part l.image 256 = some b ∧ v = leNat b

/-- The launch that the record names is another partition's, or a member's core lies outside its partition (R344). -/
def OutsidePartition (s : State) (c : Nat) : Prop :=
  ((∀ l, ¬NamesLaunch s c l) ∧ ∃ l ∈ s.launches, l.lid = (s.at c).slot.lid ∧ l.ended = false)
  ∨ ∃ l, NamesLaunch s c l ∧ ∃ m, InRecordGang s c m ∧ ¬CoreOf s l.part m

/-- Affinity names another core for the record's tile (R308): with AFF = 2 by what the launch kept of AFFID's at intake. -/
def AffinityElsewhere (s : State) (c : Nat) (l : Launch) : Prop :=
  let ran := if l.aff = 1#2 then l.prev else if l.aff = 2#2 then l.affs else []
  ∃ x, ran.find? (fun r => r.tile == (s.at c).slot.tile) = some x ∧ x.core ≠ baseOf s c

/-- The gang of core c's waiting record is refused for a reason (R307, R308, R337, R344, R306). The header is read again as
it stands: it counts while it is valid, and its GSIZE beside that of intake (the model's choice, log entry 65). -/
def Refusal (s : State) (c why : Nat) : Prop :=
  let k := s.at c
  let whole := ¬RecordsDisagree s c ∧ ¬MemberGated s c ∧ AllArmed s c
  let read (l : Launch) (v : Nat) : Prop := whole ∧ ¬OutsidePartition s c ∧ NamesLaunch s c l ∧ HeadAt s l v ∧ HeaderOk v
  let same (l : Launch) (v : Nat) : Prop := k.slot.gsize.toNat = l.gang ∧ fieldOf v 32 3 = l.gang
  k.armed = true ∧ k.hst = 1 ∧
  match why with
  | 1 => RecordsDisagree s c
  | 5 => ¬RecordsDisagree s c ∧ MemberGated s c
  | 4 => whole ∧ OutsidePartition s c
  | 2 => ∃ l v, read l v ∧ ¬same l v
  | 3 => ∃ l v, read l v ∧ same l v ∧ AffinityElsewhere s c l
  | 6 => ∃ l v, read l v ∧ same l v ∧ ¬AffinityElsewhere s c l
      ∧ ∃ m, InRecordGang s c m ∧ (s.at m).vaultBytes < 4096 * fieldOf v 192 12
  | _ => False

/-- Every condition of R308 but co-residence holds of the gang of core c's waiting record, for launch l and header v. -/
def MayStart (s : State) (c : Nat) (l : Launch) (v : Nat) : Prop :=
  let k := s.at c
  let t := k.slot.tile.toNat
  let at_ (x : Nat) : Nat := x % 2 ^ 16 + l.xext * (x / 2 ^ 16 % 2 ^ 16 + l.yext * (x / 2 ^ 32 % 2 ^ 16))
  (∀ why, ¬Refusal s c why) ∧ k.armed = true ∧ k.hst = 1 ∧ AllArmed s c ∧ NamesLaunch s c l ∧ HeadAt s l v ∧ HeaderOk v
  ∧ l.ended = false ∧ l.faulted = false ∧ k.slot.phase.toNat = l.phase
  ∧ t % 2 ^ 16 < l.xext ∧ t / 2 ^ 16 % 2 ^ 16 < l.yext ∧ t / 2 ^ 32 % 2 ^ 16 < l.zext
  ∧ (∀ r, l.tasks.find? (fun r => r.tile == k.slot.tile && r.phase == l.phase) = some r → r.st = .preempted)
  ∧ (l.batch = true → l.cor = false → ∀ n < at_ t, ∃ r ∈ l.tasks, r.phase = l.phase ∧ at_ r.tile.toNat = n)
  ∧ (∀ m, InRecordGang s c m → (s.at m).task = none ∧ (s.at m).hlt = false ∧ (s.at m).fenced = false)
  ∧ ∀ r ∈ channelTable, entriesOf v r.2.1 ≠ 0 → ∀ i < fieldOf v 32 3,
      (((List.range 192).filter (sharesChannels r.1 (baseOf s c + i))).map fun m =>
        ((((s.at m).task.map Task.res).getD []).map Prod.fst).count r.1).sum + needOf v r ≤ r.2.2

/-- The load of the current core's gang is due to end. -/
def LoadDue (s : State) : Prop := s.core.hst = 2 ∧ ∃ x, s.core.task = some x ∧ x.rampFrom ≤ s.time

/-- Nothing of core c's stream is left (R266): it has ended, its queues are empty, and nothing it issued is in flight; in a
handler the stopped task's array and grid do not count. -/
def CoreEnded (s : State) (c : Nat) : Prop :=
  let k := s.at c
  let x := k.ctx
  let g := k.grid
  let r := k.arr
  (x.ended = true ∨ x.halted = true) ∧ (∀ q ∈ x.qs, q.es = []) ∧ x.effs = [] ∧ x.mfsrs = [] ∧ x.mtsrs = [] ∧ x.copies = []
  ∧ (∀ p ∈ x.ldP, p.running = false ∧ p.dels = []) ∧ (∀ p ∈ x.stP, p.lands = []) ∧ ¬OwnWork s c
  ∧ (k.hnd = false → g.loading = none ∧ g.passes = [] ∧ g.doneBit = true ∧ r.fronts = [] ∧ r.outs = [] ∧ r.deskew = []
      ∧ r.ldst = none ∧ r.drain = none ∧ r.hreads = [])

/-- The current core's gang has come to its end (R266), a handler by `sy.halt` (R294). -/
def GangEnded (s : State) : Prop :=
  let k := s.core
  k.task ≠ none ∧ (k.hnd = true ∨ k.stop = none) ∧ k.hold = none ∧ (∀ m ∈ s.members s.cur.val, CoreEnded s m)
  ∧ (k.hnd = true → ∃ m ∈ s.members s.cur.val, (s.at m).ctx.halted = true)

/-- Every task of the launch's current phase has committed, and no job of it is left (R247, R312). -/
def PhaseEnded (s : State) (l : Launch) : Prop :=
  l.ended = false ∧ l.faulted = false
  ∧ l.xext * l.yext * l.zext ≤ (l.tasks.filter fun t => t.st == .committed && t.phase == l.phase).length
  ∧ ∀ j ∈ s.jobs, ¬(j.part = l.part ∧ j.lid = l.lid ∧ j.phase = l.phase)

end Sys2Proof.Claims

/-- R303, R305, R307, R308, R310: a head within 64 of the tail is taken where intake is open and the partition enabled,
another is counted; intake takes one packet, which becomes a launch where it passes the checks; firmware arms an idle
record; a waiting record is refused for the reason of the table, is bound once every condition holds, or waits; of
co-resident tasks all that are not bound yet are bound, or none (R14). A bound core holds the task of its record, without
another context's contents; a loaded one the sections and registers of step 2; a granted gang starts at T0 at a start of its
clock. The model's choices: HST 2 lasts an open time, a header is read again at each use (log 65); a packet is read at its
physical ring place, as zero where the partition has no target there (log 68), a misaligned IMAGE has code 4, and the cases
of WHY 4 are those of log 43. -/
def Obligations.LaunchesToTasks : Prop :=
  ∀ s : State,
    let c := s.cur.val
    (∀ (p : BitVec 4) (v : W32), ∃ t, exec (.lncHeadWrite p v) s = .next t ∧
      OnlyPart s t p.toNat fun P =>
        if s.intake = true ∧ P.en = true ∧ P.lncTail.toNat ≤ v.toNat ∧ v.toNat ≤ P.lncTail.toNat + 64 then { P with lncHead := v }
        else { P with lncDrop := BitVec.ofNat 32 (min (2 ^ 32 - 1) (P.lncDrop.toNat + 1)) })
    ∧ (∀ p : BitVec 4,
        let P := s.part p.toNat
        let ring := P.lncRing.toNat / 1024 % 2 ^ 42 * 1024 + 1024 * (P.lncTail.toNat % 64)
        let v := if s.hasTarget p.toNat true ring = true ∧ s.hasTarget p.toNat true (ring + 1023) = true then homeNat s ring 1024 else 0
        let f := fieldOf v
        (P.en = false ∨ P.inrst = true ∨ P.lncHead.toNat ≤ P.lncTail.toNat ∨ (∃ e ∈ s.reps, e.part = p.toNat) → exec (.launchIntake p) s = .next s)
        ∧ (P.en = true → P.inrst = false → P.lncTail.toNat < P.lncHead.toNat → (∀ e ∈ s.reps, e.part ≠ p.toNat) → ∃ t, exec (.launchIntake p) s = .next t
          ∧ t.part p.toNat = { P with lncTail := P.lncTail + 1#32 }
          ∧ (∀ k, FirstFail s p.toNat v k → t.launches = s.launches)
          ∧ ((∀ k, ¬Fails s p.toNat v k) → ∃ l, l ∈ t.launches ∧ l.part = p.toNat ∧ l.lid.toNat = f 32 32 ∧ l.ph = f 16 4 + 1
              ∧ l.cls.toNat = f 20 3 ∧ (l.strict = true ↔ f 24 1 = 1) ∧ (l.pinned = true ↔ f 25 1 = 1) ∧ (l.cor = true ↔ f 26 1 = 1)
              ∧ (l.batch = true ↔ f 27 1 = 1) ∧ l.aff.toNat = f 28 2 ∧ l.rep.toNat = f 30 2 ∧ l.xext = f 64 16 ∧ l.yext = f 80 16
              ∧ l.zext = f 96 16 ∧ l.ctx.toNat = f 112 16 ∧ l.image = f 128 64 ∧ l.deadline.toNat = f 192 64 ∧ l.repAddr = f 256 64
              ∧ l.repn = f 320 16 ∧ l.affId.toNat = f 352 32 ∧ l.phase = 0 ∧ l.tasks = [] ∧ l.ended = false
              ∧ (∀ h, HeadAt s l h → l.gang = fieldOf h 32 3)
              ∧ (∀ x, l.aff = 2#2 → s.launch p.toNat l.affId = some x → l.affs = x.prev)
              ∧ (∀ q < l.ph, ∀ k < 6, ((l.args.getD q []).getD k 0#64).toNat = f (1024 + 384 * q + 64 * k) 64)
              ∧ (∀ x ∈ s.launches, ¬(x.part = p.toNat ∧ x.lid = l.lid) → x ∈ t.launches)
              ∧ ∀ x ∈ t.launches, x = l ∨ x ∈ s.launches)))
    ∧ (∀ r : BindRec,
        (s.core.armed = true ∨ s.core.hst ≠ 0 → exec (.bindRecordArm r) s = .next s)
        ∧ (s.core.armed = false → s.core.hst = 0 →
          let armed := s.mod fun k => { k with slot := r, armed := true, hst := 1 }
          let back (why : Nat) : Prop := ∃ t, exec (.bindRecordArm r) s = .next t ∧ t.core.armed = false ∧ t.core.hst = 0
            ∧ t.core.slot = r ∧ t.sltErr.toNat % 2 ^ 32 = min (2 ^ 32 - 1) (s.sltErr.toNat % 2 ^ 32 + 1)
            ∧ t.sltErr.toNat / 2 ^ 32 % 2 ^ 16 = c ∧ t.sltErr.toNat / 2 ^ 48 % 2 ^ 8 = why
            ∧ (t.quad (quadOf c)).nack.toNat = (if why = 5 then min 0xFFFF ((s.quad (quadOf c)).nack.toNat + 1) else (s.quad (quadOf c)).nack.toNat)
          ((s.quad (quadOf c)).gated = true → back 5)
          ∧ (∀ l, (s.quad (quadOf c)).gated = false → s.launch (s.partOf c) r.lid = some l →
              (CoreOf s l.part c → exec (.bindRecordArm r) s = .next armed) ∧ (¬CoreOf s l.part c → back 4))
          ∧ ((s.quad (quadOf c)).gated = false → s.launch (s.partOf c) r.lid = none →
              ((∃ l ∈ s.launches, l.lid = r.lid ∧ l.ended = false) → back 4)
              ∧ ((∀ l ∈ s.launches, l.lid = r.lid → l.ended = true) → exec (.bindRecordArm r) s = .next armed))))
    ∧ (¬LoadDue s → (∀ why, ¬Refusal s c why) → (∀ l v, ¬MayStart s c l v) → exec .dispatchBind s = .next s)
    ∧ (∀ why, ¬LoadDue s → Refusal s c why → ∃ t, exec .dispatchBind s = .next t
        ∧ (∀ m < 192, (InRecordGang s c m → (t.at m).armed = false ∧ (t.at m).hst = 0)
          ∧ (¬InRecordGang s c m → (t.at m).armed = (s.at m).armed ∧ (t.at m).hst = (s.at m).hst) ∧ (t.at m).task = (s.at m).task)
        ∧ t.sltErr.toNat / 2 ^ 48 % 2 ^ 8 = why)
    ∧ (∀ l v, ¬LoadDue s → MayStart s c l v → l.cor = false →
        ∃ t, exec .dispatchBind s = .next t
        ∧ (∃ y, t.launch l.part l.lid = some y ∧ ∃ r ∈ y.tasks, r.tile = (s.at (baseOf s c)).slot.tile ∧ r.phase = l.phase
            ∧ r.core = baseOf s c ∧ r.gsize = l.gang ∧ r.st = .bound)
        ∧ (∀ m < 192, ¬InRecordGang s c m → t.at m = s.at m)
        ∧ ∀ i < l.gang,
          let f := fieldOf v
          let k := s.at (baseOf s c + i)
          let k' := t.at (baseOf s c + i)
          let e := (s.ctxEntry l.part k.trnCtxTab l.ctx).toNat
          (∃ x, k'.task = some x ∧ x.lid = l.lid ∧ x.tile = k.slot.tile ∧ x.phase = l.phase ∧ x.ctx = l.ctx ∧ x.part = l.part
            ∧ x.t0 = false ∧ x.granted = false ∧ x.strict = l.strict ∧ x.pinned = l.pinned ∧ x.cor = l.cor ∧ x.batch = l.batch
            ∧ x.lmg = 4096 * f 96 10 ∧ x.spmg = 8 * f 128 10 ∧ x.ret = f 224 4 ∧ x.sgap = f 64 16 + 1 ∧ s.time ≤ x.rampFrom)
          ∧ k'.hst = 2 ∧ k'.gbase = baseOf s c ∧ k'.gsize = l.gang ∧ k'.lcc = 0 ∧ k'.hdc = 0#64 ∧ k'.ctx.sup = k.slot.supv ∧ s.nextId ≤ k'.ctx.who
          ∧ k'.trnRoot.toNat = e / 2 ^ 12 % 2 ^ 40 * 2 ^ 12 ∧ k'.trnCtx.toNat = l.ctx.toNat + e / 2 % 2 * 2 ^ 16
          ∧ (k.lastCtx = some (l.ctx, l.part) → k'.lm = k.lm ∧ k'.tags = k.tags ∧ k'.arr = k.arr ∧ k'.imem = k.imem ∧ k'.gcs = k.gcs)
          ∧ (k.lastCtx ≠ some (l.ctx, l.part) → k'.lm = [] ∧ k'.tags = [] ∧ k'.imem = [] ∧ k'.gcs = []
              ∧ k'.arr.cells = Arr.reset.cells))
    ∧ (∀ l v, ¬LoadDue s → MayStart s c l v → l.cor = true → ∃ t, exec .dispatchBind s = .next t
        ∧ (t = s ∨ ∃ y, t.launch l.part l.lid = some y ∧ ∀ x < l.xext, ∀ u < l.yext, ∀ z < l.zext, ∃ r ∈ y.tasks,
            r.tile.toNat = x + 2 ^ 16 * u + 2 ^ 32 * z ∧ r.phase = l.phase ∧ r.st ≠ .preempted)
        ∧ (∀ x u z, x < l.xext → u < l.yext → z < l.zext →
            (∀ r ∈ l.tasks, r.phase = l.phase → r.st ≠ .preempted → r.tile.toNat ≠ x + 2 ^ 16 * u + 2 ^ 32 * z) →
            (∀ m < 192, (s.at m).armed = true → (s.at m).slot.tile.toNat ≠ x + 2 ^ 16 * u + 2 ^ 32 * z) →
            x < 2 ^ 16 → u < 2 ^ 16 → z < 2 ^ 16 → t = s))
    ∧ (∀ x l v, LoadDue s → Alone s → s.canon → s.core.task = some x → s.launch x.part x.lid = some l → HeadAt s l v →
        (l.args.getD l.phase []).length = 6 →
        let sec (k : Nat) : Option (List Byte) :=
          s.readCtx l.ctx l.part (l.image + fieldOf v (256 + 64 * k) 32) (fieldOf v (288 + 64 * k) 32)
        let holds (m m' : Mem) (b : List Byte) : Prop := (∀ i y, b[i]? = some y → memRead m' i = y)
          ∧ ∀ i, b.length ≤ i → memRead m' i = memRead m i
        ∃ t, exec .dispatchBind s = .next t
        ∧ t.core.hst = 3 ∧ t.core.ctx.sticky = 0#8 ∧ t.core.ctx.sup = s.core.slot.supv ∧ t.core.ctx.rq = List.replicate 16 0#64
        ∧ t.core.ctx.n.getD 0 0#64 = s.core.slot.tile.setWidth 64 ∧ (t.core.ctx.n.getD 1 0#64).toNat = 4
        ∧ (∀ k < 6, t.core.ctx.n.getD (2 + k) 0#64 = (l.args.getD l.phase []).getD k 0#64)
        ∧ (∀ k, 8 ≤ k → t.core.ctx.n.getD k 0#64 = 0#64) ∧ t.core.ctx.ret = [] ∧ t.core.ctx.loops = [] ∧ t.core.ctx.effs = []
        ∧ (∀ b, sec 0 = some b → holds s.core.imem t.core.imem b) ∧ (∀ b, sec 1 = some b → holds s.core.lm t.core.lm b)
        ∧ (∀ b, sec 2 = some b → holds [] t.core.ctx.spm b) ∧ (∀ b, sec 3 = some b → holds s.core.gcs t.core.gcs b)
        ∧ t.core.tags = s.core.tags ∧ t.gov.reqs = s.gov.reqs ++ [.gang c 1 x.pinned s.time])
    ∧ (∀ t, s.core.task = some t → t.t0 = true ∨ t.granted = false → exec .gangAlign s = .next s)
    ∧ (s.core.task = none → exec .gangAlign s = .next s)
    ∧ (∀ t, s.core.task = some t → t.t0 = false → t.granted = true → Alone s →
        let q := s.quad (quadOf c)
        ∃ u, exec .gangAlign s = .next u ∧ u.core.task = some { t with t0 := true } ∧ u.core.lcc = 0 ∧ u.core.hst = 4
        ∧ (0 < q.period → q.edge ≤ s.time → s.time ≤ u.core.nextCyc ∧ u.core.nextCyc < s.time + q.period
            ∧ (u.core.nextCyc - q.edge) % q.period = 0))

/-- R247, R266, R288, R294, R312, R313, R346: a gang that has come to its end commits, or ends its handler, and its core is
freed, its pair slots empty (R165); a stopped task that is abandoned ends; abandoned before its bind, the waiting records of
its gang are free, and that the launch its slot names closes is the model's choice (log entry 45); a phase all of whose tasks
have committed is followed by the next, the last by the end of its launch. -/
def Obligations.TasksEnd : Prop :=
  ∀ s : State,
    let c := s.cur.val
    let k := s.core
    let waits (m : Nat) : Bool := k.armed && k.hst == 1 && (s.at m).armed && (s.at m).hst == 1 && (s.at m).slot.gid == k.slot.gid
      && s.partOf m == s.partOf c
    (¬GangEnded s → exec .taskCommit s = .next s)
    ∧ (GangEnded s → Alone s → ∃ t, exec .taskCommit s = .next t ∧ Freed t c
        ∧ (k.hnd = false → t.core.hlt = (k.hlt || k.ctx.halted))
        ∧ (∀ x, k.task = some x → t.core.lastCtx = some (x.ctx, x.part)) ∧ (∀ y ∈ t.core.arr.cells.toList, y.slots = List.replicate 4 .empty)
        ∧ t.core.lm = k.lm ∧ t.core.tags = k.tags
        ∧ (∀ x l, k.task = some x → s.launch x.part x.lid = some l → k.hnd = false → l.rep.toNat = 2 → s.reps = [] →
            ∃ e r, t.reps = e :: r ∧ e.part = x.part ∧ e.lid = x.lid ∧ e.st = 4 ∧ e.lvl = 0 ∧ e.code = 0 ∧ e.tile = x.tile.toNat))
    ∧ (∀ x, k.task = some x → k.stop = none ∨ k.hnd = true → exec .abandonTask s = .next s)
    ∧ (∀ x st, k.task = some x → k.stop = some st → k.hnd = false → Alone s → ∃ t, exec .abandonTask s = .next t ∧ Freed t c)
    ∧ (k.task = none → (s.launch (s.partOf c) k.slot.lid = none ∨ ∃ l, s.launch (s.partOf c) k.slot.lid = some l ∧ l.ended = true) →
        ∃ t, exec .abandonTask s = .next t ∧ { t with cores := s.cores } = s
        ∧ ∀ m < 192, t.at m = if waits m then { s.at m with armed := false, hst := 0 } else s.at m)
    ∧ (∀ l, k.task = none → s.launch (s.partOf c) k.slot.lid = some l → l.ended = false → ∃ t y, exec .abandonTask s = .next t
        ∧ (∀ m < 192, waits m → (t.at m).armed = false ∧ (t.at m).hst = 0)
        ∧ t.launch (s.partOf c) k.slot.lid = some y ∧ y.faulted = true)
    ∧ (∀ lid, (∀ l ∈ s.launches, l.lid = lid → ¬PhaseEnded s l) → exec (.phaseCommit lid) s = .next s)
    ∧ ∀ l, s.launches = [l] → PhaseEnded s l → ∃ t y, exec (.phaseCommit l.lid) s = .next t ∧ t.launches = [y]
        ∧ y.lid = l.lid ∧ y.tasks = [] ∧ y.prev = l.tasks ∧ t.accs = []
        ∧ (∀ m, (t.at m).l1d = [] ∧ (t.at m).vc = [] ∨ 192 ≤ m)
        ∧ (l.phase + 1 = l.ph → y.ended = true ∧ y.committed = true ∧ y.phase = l.phase)
        ∧ (l.phase + 1 ≠ l.ph → y.ended = false ∧ y.phase = l.phase + 1)

/-- R225, R327, R330, R334, R335: a write of LSG_ENV_UP is clamped to 1 … the strap and refills the ramp credit; one of
LSG_CTL sets CSTEP, at least 1, and PINRSV under its bound at once, and lets a change of the repeatable-mode fields
wait, which takes effect at a boundary with no task bound; a write of VLT_CTL waits for the task to end; stretching
starts and ends, a stretched cycle lasting 5/4 of the period, each of them counted. -/
def Obligations.PowerRegisters : Prop :=
  ∀ (s : State) (v : W64) (q : BitVec 6),
    let pins (g : Gov) : Nat := g.up.toNat - 4 * (g.ctl.toNat % 2 ^ 8)
    (∃ t, exec (.lsgEnvUpWrite v) s = .next t ∧ (t.gov.up.toNat = min (max 1 (v.toNat % 2 ^ 16)) Config.strapUp)
      ∧ t.gov.q = 1000 * t.gov.up.toNat ∧ t.gov.ctl.toNat / 2 ^ 8 % 2 ^ 8 = min (s.gov.ctl.toNat / 2 ^ 8 % 2 ^ 8) (pins t.gov)
      ∧ (∀ b, b < 8 ∨ 16 ≤ b → t.gov.ctl.getLsbD b = s.gov.ctl.getLsbD b)
      ∧ { t with gov := { t.gov with up := s.gov.up, q := s.gov.q, ctl := s.gov.ctl } } = s)
    ∧ (∃ t, exec (.lsgCtlWrite v) s = .next t ∧ t.gov.ctl.toNat % 2 ^ 8 = max 1 (v.toNat % 2 ^ 8)
      ∧ t.gov.ctl.toNat / 2 ^ 8 % 2 ^ 8 = min (v.toNat / 2 ^ 8 % 2 ^ 8) (pins t.gov)
      ∧ (∀ b, 16 ≤ b → t.gov.ctl.getLsbD b = s.gov.ctl.getLsbD b)
      ∧ (t.gov.next = if repFields v = repFields s.gov.ctl then none else some (repFields v))
      ∧ { t with gov := { t.gov with ctl := s.gov.ctl, next := s.gov.next } } = s)
    ∧ (s.gov.next = none ∨ s.anyTask = true → exec .repeatableModeApply s = .next s)
    ∧ (∀ r, s.gov.next = some r → s.anyTask = false → ∃ t, exec .repeatableModeApply s = .next t ∧ t.gov.next = none
        ∧ (∀ b, 16 ≤ b → b < 26 → t.gov.ctl.getLsbD b = r.getLsbD b)
        ∧ (∀ b, b < 16 ∨ 26 ≤ b → t.gov.ctl.getLsbD b = (s.gov.ctl.getLsbD b || r.getLsbD b))
        ∧ { t with gov := { t.gov with ctl := s.gov.ctl, next := s.gov.next } } = s)
    ∧ (∃ t, exec (.vltCtlWrite v) s = .next t
        ∧ (s.core.task ≠ none → t = s.mod fun k => { k with vltHeld := some v })
        ∧ (s.core.task = none → SameButCore s t (fun x y => { y with vltCtl := x.vltCtl, vc := x.vc })
          ∧ (v.toNat % 2 ^ 3 ≤ 4 → t.core.vltCtl.toNat = v.toNat % 2 ^ 3 + 8 * min (v.toNat / 2 ^ 3 % 2 ^ 5) (4 * (v.toNat % 2 ^ 3)))
          ∧ (v.toNat % 2 ^ 3 ≤ 4 → v.toNat % 2 ^ 3 ≠ s.core.vltCtl.toNat % 2 ^ 3 → t.core.vc = [])))
    ∧ (∃ t, exec (.droopStretch q) s = .next t ∧ QuadCounts s t q.toNat fun x => { x with stretch := true })
    ∧ (∃ t, exec (.droopEnd q) s = .next t ∧ QuadCounts s t q.toNat fun x => { x with stretch := false })
    ∧ ∀ x : Quad, { x with stretch := true }.period = { x with stretch := false }.period * 5 / 4

/-- R328-R331, R336-R338, R341, R342, R353, R355: a quad passes its power states one by one under the conditions of the table,
a refused request leaves it on (drain lasts at least one tick, and until what the quad has accepted is complete; how much
longer its own actions take is open, log entry 9; what it has accepted, log entry 3, and the path of a quad that no enabled
partition owns, log entry 47, are the model's choice); a tick pays the credit, grants starts or refuses a pinned one, and ends with the module's estimate and the next number; a
control interval starts a new mean and sets clocks; a quad that is too hot trips and is gated at the next tick, at once where
it is gated already; a request to a quad that is not on is counted; a sample takes one place in its ring. At its time a tick
goes before all else, and an interval before all else but a tick, tick 0 at WTC 0 (the model's choice, log entry 3). -/
def Obligations.QuadsAndTicks : Prop :=
  ∀ (s : State) (b : BitVec 6),
    let n := b.toNat
    let x := s.quad n
    let k := s.gov.tick
    let cores := [4 * n, 4 * n + 1, 4 * n + 2, 4 * n + 3]
    let busy := ∃ c ∈ cores, (s.at c).armed = true ∨ (s.at c).hst ≠ 0
    let asked := ∃ t, x.gateReq = some t ∧ t < s.time
    let unowned := ∀ p < 16, (s.part p).en = false ∨ (s.part p).qmask.getLsbD n = false
    let heat := Config.hottest n s.gov.interval
    let tlim := s.gov.cap.toNat / 2 ^ 16 % 2 ^ 8
    let trips := tlim + 15 ≤ heat ∨ 110 ≤ heat
    n < 48 →
    ((x.ps ≠ .on ∨ x.tripped = true ∨ ¬unowned) → ¬asked → exec (.quadGateRequest b) s = .next s)
    ∧ (x.ps = .on → x.tripped = false → (unowned ∨ (¬busy ∧ asked)) → ∃ t, exec (.quadGateRequest b) s = .next t ∧ (t.quad n).ps = .drain
        ∧ (t.quad n).psTick = k ∧ (t.quad n).gateReq = none ∧ (t.quad n).tlb = [] ∧ (t.quad n).nack = 0#16
        ∧ (∀ c ∈ cores, (t.at c).l1d = [] ∧ (t.at c).vc = []) ∧ t.gov = s.gov
        ∧ (∀ (i : Nat) y, s.hbm[i]? = some y → ∃ z, t.hbm[i]? = some z ∧ { z with acc := y.acc } = y
            ∧ (n ∈ z.acc ↔ n ∈ y.acc ∨ y.src.atQuad s y.core n = true ∨ y.dst.atQuad s y.core n = true))
        ∧ (∀ (i : Nat) y, s.atoms[i]? = some y → ∃ z, t.atoms[i]? = some z ∧ { z with acc := y.acc } = y
            ∧ (n ∈ z.acc ↔ n ∈ y.acc ∨ s.leadsTo n y.pa = true ∨ quadOf y.core = n)))
    ∧ (x.ps = .on → x.tripped = false → ¬unowned → busy → asked → ∃ t, exec (.quadGateRequest b) s = .next t
        ∧ OnlyQuad s t n fun y => { y with gateReq := none, refused := true })
    ∧ (x.ps ≠ .on ∨ x.tripped = true → asked → ∃ t, exec (.quadGateRequest b) s = .next t ∧ OnlyQuad s t n fun y => { y with gateReq := none })
    ∧ (x.ps = .drain → x.psTick + Config.drainExtra n x.psTick < k → ¬Awaited s n → ∃ t, exec (.quadDrainEnd b) s = .next t
        ∧ QuadCounts s t n fun y => { y with ps := .fall, psTick := k, ballast := x.est - Config.idleFloor n })
    ∧ (x.ps ≠ .drain ∨ k ≤ x.psTick + Config.drainExtra n x.psTick ∨ Awaited s n → exec (.quadDrainEnd b) s = .next s)
    ∧ (let falls := x.ps = .fall ∧ x.psTick < k ∧ x.ballast = 0
       let tripped := x.tripped = true ∧ x.ps ≠ .gated
       (¬falls → ¬tripped → exec (.quadGated b) s = .next s)
       ∧ (falls ∨ tripped → ∃ t, exec (.quadGated b) s = .next t ∧ (t.quad n).ps = .gated
          ∧ (t.quad n).psTick = k ∧ (t.quad n).ballast = 0 ∧ (t.quad n).tripped = x.tripped
          ∧ (∀ c ∈ cores, (t.at c).grid = { Grid.reset with stopCyc := (s.at c).grid.stopCyc }
            ∧ (x.depth = true → ¬unowned → ¬tripped → (t.at c).lm = (s.at c).lm ∧ (t.at c).tags = (s.at c).tags
              ∧ (t.at c).arr = (s.at c).arr ∧ (t.at c).imem = (s.at c).imem ∧ (t.at c).gcs = (s.at c).gcs)
            ∧ (x.depth = false ∨ unowned ∨ tripped → (t.at c).lm = [] ∧ (t.at c).tags = [] ∧ (t.at c).imem = []
              ∧ (t.at c).gcs = [] ∧ (t.at c).arr.cells = Arr.reset.cells))
          ∧ (∀ c, c ∉ cores → t.at c = s.at c) ∧ t.gmem = s.gmem))
    ∧ (let woken := ∃ t, x.wakeReq = some t ∧ t < s.time
       let hot := tlim ≤ heat
       (¬woken ∨ (x.ps = .gated ∧ ¬unowned ∧ hot) → exec (.quadWakeRequest b) s = .next s)
       ∧ (woken → x.ps ≠ .gated ∨ unowned → ∃ t, exec (.quadWakeRequest b) s = .next t ∧ OnlyQuad s t n fun y => { y with wakeReq := none })
       ∧ (woken → x.ps = .gated → ¬unowned → ¬hot → ∃ t, exec (.quadWakeRequest b) s = .next t
          ∧ t.gov = { s.gov with reqs := s.gov.reqs ++ [.wake n s.time] }
          ∧ OnlyQuad s { t with gov := s.gov } n fun y => { y with wakeReq := none, ps := .wakeWait, psTick := k, tripped := false }))
    ∧ (x.ps ≠ .rise ∨ k < x.psTick + 31 → exec (.quadRiseDone b) s = .next s)
    ∧ (x.ps = .rise → x.psTick + 31 ≤ k → x.wipe = false → ∃ t, exec (.quadRiseDone b) s = .next t
        ∧ OnlyQuad s t n fun y => { y with ps := .on, psTick := k, wipe := false })
    ∧ (x.tripped = true ∨ ¬trips → exec (.thermalTrip b) s = .next s)
    ∧ (x.tripped = false → trips →
        (∀ c ∈ cores, (s.at c).gbase = c ∧ (s.at c).gsize = 1) → ∃ t, exec (.thermalTrip b) s = .next t ∧ (t.quad n).ps = x.ps
        ∧ (t.quad n).tripped = true ∧ (t.quad n).gateReq = x.gateReq ∧ (t.quad n).wakeReq = x.wakeReq
        ∧ (x.ps = .gated → ∀ c ∈ cores, (t.at c).lm = [] ∧ (t.at c).tags = [] ∧ (t.at c).imem = [] ∧ (t.at c).gcs = []
            ∧ (t.at c).arr.cells = Arr.reset.cells)
        ∧ (∀ c ∈ cores, (t.at c).task = none ∧ (t.at c).fenced = (s.at c).fenced)
        ∧ (∀ since, .wake n since ∉ t.gov.reqs)
        ∧ ((∀ c ∈ cores, (s.at c).task = none) → t.mgtEvhead = s.mgtEvhead + 1#32))
    ∧ (∃ t, exec .governorTick s = .next t ∧ t.gov.tick = k + 1 ∧ t.gov.meanCnt = s.gov.meanCnt + 1
        ∧ t.gov.meanSum = s.gov.meanSum + t.gov.est ∧ t.gov.up = s.gov.up ∧ t.gov.dn = s.gov.dn ∧ t.gov.ctl = s.gov.ctl
        ∧ t.gov.cap = s.gov.cap
        ∧ (let depth : Int := 1000 * s.gov.up.toNat
           let q := max (-depth) (min depth (s.gov.q + 64 * s.gov.up.toNat) - s.gov.rises)
           (s.gov.reqs = [] → t.gov.q = q)
           ∧ ∀ base m pin since x, s.gov.reqs = [.gang base m pin since] → base < 192 → (s.at base).gbase = base →
              (s.at base).gsize = 1 → (s.at base).task = some x →
              let step : Int := m * (s.gov.ctl.toNat % 2 ^ 8) * 1000
              let kept : Int := if pin = true then 0 else 1000 * (s.gov.ctl.toNat / 2 ^ 8 % 2 ^ 8)
              let wait := (s.time - since) / Config.unitsPerNs
              (min step (depth - kept) ≤ q - kept → t.gov.q = max (-depth) (q - step) ∧ t.gov.reqs = []
                ∧ t.gov.rampWait = satAdd48 s.gov.rampWait wait
                ∧ ∃ y, (t.at base).task = some y ∧ y.granted = true ∧ y.rampNs = wait)
              ∧ (q - kept < min step (depth - kept) → t.gov.q = q
                ∧ (pin = false → t.gov.reqs = s.gov.reqs ∧ ∃ y, (t.at base).task = some y ∧ y.granted = x.granted)
                ∧ (pin = true → t.gov.reqs = [] ∧ (t.at base).task = none ∧ t.gov.viol = satAdd48 s.gov.viol 1))))
    ∧ (∃ t, exec .controlInterval s = .next t ∧ t.gov = { s.gov with interval := s.gov.interval + 1, meanSum := 0, meanCnt := 0 }
        ∧ { t with quads := s.quads, gov := s.gov } = s
        ∧ ((x.ps = .gated ∨ x.ps = .wakeWait ∨ x.ps = .rise) → Counts x s.time id (t.quad n))
        ∧ ((x.ps = .on ∨ x.ps = .drain ∨ x.ps = .fall) →
            (s.gov.ctl.getLsbD 16 = true → (t.quad n).ratio.toNat = min 2 (s.gov.ctl.toNat / 2 ^ 17 % 4)
              ∧ (t.quad n).point.toNat = s.gov.ctl.toNat / 2 ^ 19 % 4 ∧ (t.quad n).bst = false)
            ∧ (s.gov.ctl.getLsbD 16 = false →
                let want := max (freqMHz (x.ctl.toNat % 4) (x.ctl.toNat / 4 % 4)) (freqMHz (x.ctl.toNat / 16 % 4) (x.ctl.toNat / 64 % 4))
                Config.predictedAmps n want s.gov.interval ≤ s.gov.cap.toNat / 2 ^ 24 % 2 ^ 16 → heat < tlim →
                freqMHz x.ratio.toNat x.point.toNat = want →
                (t.quad n).icap = false ∧ (t.quad n).tcap = false
                  ∧ (s.gov.meanSum ≤ s.gov.cap.toNat % 2 ^ 16 * 1000 * s.gov.meanCnt → (t.quad n).capx = false))
            ∧ (s.gov.ctl.getLsbD 16 = false →
                let want := max (freqMHz (x.ctl.toNat % 4) (x.ctl.toNat / 4 % 4)) (freqMHz (x.ctl.toNat / 16 % 4) (x.ctl.toNat / 64 % 4))
                ((∀ f ∈ freqPoints, f.1 ≤ want → 1200 < f.1 → s.gov.cap.toNat / 2 ^ 24 % 2 ^ 16 < Config.predictedAmps n f.1 s.gov.interval) →
                  1200 < want → (t.quad n).icap = true)
                ∧ (tlim ≤ heat → freqMHz x.ratio.toNat x.point.toNat ≤ want → 1200 < freqMHz x.ratio.toNat x.point.toNat →
                  (t.quad n).tcap = true))))
    ∧ (x.ps = .on → x.tripped = false → exec (.targetGatedNack b) s = .next s)
    ∧ (x.ps ≠ .on ∨ x.tripped = true → ∃ t, exec (.targetGatedNack b) s = .next t
        ∧ OnlyQuad s t n fun y => { y with nack := BitVec.ofNat 16 (min (y.nack.toNat + 1) 0xFFFF) })
    ∧ (s.core.pcsCtl.getLsbD 0 = false → exec .pcsSample s = .next s)
    ∧ (let at_ := s.core.pcsBase.toNat / 2 ^ 12 % 2 ^ 40 * 4096
            + 32 * (s.core.pcsHead.toNat % 2 ^ (s.core.pcsCtl.toNat / 2 ^ 16 % 2 ^ 5))
       s.core.pcsCtl.getLsbD 0 = true → s.canon → (∀ i < 32, InShare s (s.partOf s.cur.val) (at_ + i)) → ∃ t, exec .pcsSample s = .next t
        ∧ t.core.pcsHead = s.core.pcsHead + 1#32 ∧ homeNat t at_ 8 = s.wtc % 2 ^ 64
        ∧ (s.core.task = none → homeNat t (at_ + 8) 8 = 0)
        ∧ (t.mod fun y => { y with pcsHead := s.core.pcsHead }).cores = s.cores)
    ∧ (s.agenda = [] → 64 * k * Config.unitsPerNs ≤ s.time → ∃ l, step s = .next { s with agenda := l ++ [(s.cur, .event .governorTick)] }
        ∧ (asked → (s.cur, .event (.quadGateRequest b)) ∈ l))
    ∧ (s.agenda = [] → s.time < 64 * k * Config.unitsPerNs → 1000 * (s.gov.interval + 1) * Config.unitsPerNs ≤ s.time →
        ∃ l, step s = .next { s with agenda := l ++ [(s.cur, .event .controlInterval)] }
        ∧ (trips → x.tripped = false → (s.cur, .event (.thermalTrip b)) ∈ l))

namespace Sys2Proof.Claims

/-- Core c's storage as a partition reset leaves it (R346 step 5). -/
def Wiped (t : State) (c : Nat) : Prop :=
  let k := t.at c
  k.lm = [] ∧ k.tags = [] ∧ k.imem = [] ∧ k.gcs = [] ∧ k.simem = [] ∧ k.slm = [] ∧ k.hlt = false ∧ k.l1d = []

/-- Work that the agents of partition p issued outside logical time and that has not completed (R346 step 3): copies, stores,
jobs, atomics, releases, entries of its reports. -/
def OutsideWork (s : State) (p : Nat) : Prop :=
  (∃ x ∈ s.hbm, x.part = p) ∨ (∃ o ∈ s.outLands, o.copy.part = p) ∨ (∃ j ∈ s.jobs, j.part = p) ∨ (∃ r ∈ s.rels, r.part = p)
  ∨ (∃ x ∈ s.atoms, s.partOf x.core = p) ∨ (∃ d ∈ s.devs, d.part = p) ∨ ∃ e ∈ s.reps, e.part = p

/-- Partition q alone owns the storage of an address (R344, R349): it lies in its HBM share, or in a vault, LM window or
counter page of one of its cores. -/
def Owns (s : State) (pa q : Nat) : Prop :=
  InShare s q pa ∨ ∃ c o, (s.target pa = .vault c o ∨ s.target pa = .lm c o ∨ s.target pa = .ctr c o) ∧ CoreOf s q c
def OnlyOwner (s : State) (pa p : Nat) : Prop := p < 16 ∧ Owns s pa p ∧ ∀ q < 16, Owns s pa q → q = p

/-- How often key w has met a correctable error in the patrol pass of the present time (R350, R352). -/
def HitsNow (s : State) (l : List (Nat × Nat)) (w : Nat) : Nat :=
  if s.time < s.rasPass + s.rasScrub.toNat * (60000000000 * Config.unitsPerNs) then ((l.find? fun h => h.1 == w).map Prod.snd).getD 0 else 0

/-- An uncorrectable error has been charged to partition p (R351): RAS_UE and an event name it, and no other partition. -/
def Charged (s t : State) (p core ctx line : Nat) : Prop :=
  (t.part p).ue = satAdd48 (s.part p).ue 1 ∧ (∀ q < 16, q ≠ p → t.part q = s.part q) ∧ Posted s t 4 p core ctx (128 * line)

/-- What a reset of the module keeps: the flash and its counters (R357, R358, R360), and what images saved before stand for
(R166). -/
def KeepsFlash (s t : State) : Prop :=
  t.saved = s.saved ∧ t.records = s.records ∧ t.minVersion = s.minVersion ∧ t.fwVersion = s.fwVersion ∧ t.fwImage = s.fwImage ∧ t.fwSig = s.fwSig
  ∧ t.sigNext = s.sigNext

/-- The vendor, or the device key of a record, has signed some bytes (R356): signatures are of 2,820 bytes and the key of 68,
and those that the device makes with the key that its helper data regenerate verify. -/
def VendorSigned (msg sig : List Byte) : Prop := sig.length = 2820 ∧ Config.vendorOk msg sig = true
def DeviceSigned (r : ConfigRecord) (msg sig : List Byte) : Prop :=
  r.devKey.length = 68 ∧ sig.length = 2820 ∧ (Config.deviceOk r.devKey msg sig = true
    ∨ (r.devKey = deviceKey r.helper ∧ ∃ n < 2 ^ 32, sig = deviceSig r.helper n msg))

/-- A record verifies (R356, R358): revision 1, each section signed by the key that R358 gives it, every repair entry of a
known kind with its reserved bits zero. -/
def Verifies (r : ConfigRecord) : Prop :=
  r.revision = 1#16
  ∧ (if r.byDevice = true then DeviceSigned r (headerBytes r) r.sigHeader else VendorSigned (headerBytes r) r.sigHeader)
  ∧ VendorSigned (identityBytes r) r.sigIdentity ∧ VendorSigned (r.factory.flatMap entryBytes) r.sigFactory
  ∧ DeviceSigned r (r.inField.flatMap entryBytes) r.sigInField ∧ DeviceSigned r (podBytes r) r.sigPod
  ∧ ∀ e ∈ r.factory ++ r.inField, 1 ≤ e.kind.toNat ∧ e.kind.toNat ≤ 6 ∧ e.rsv = 0#16

/-- The record in force: it verifies, and no other that verifies is as new (R358). -/
def InForce (s : State) (r : ConfigRecord) : Prop :=
  r ∈ s.records ∧ Verifies r ∧ ∀ x ∈ s.records, Verifies x → x = r ∨ x.seq.toNat < r.seq.toNat

/-- An agent of partition p gets data from the n bytes at pa: no target of them is gated or out of reach, no word is
poisoned (R337, R354, R363). -/
def Answers (s : State) (p pa n : Nat) : Prop := ∀ i < n, s.noAnswer p (pa + i) = false ∧ s.poisoned (pa + i) = false

end Sys2Proof.Claims

/-- R343, R345, R346: a partition is enabled only with a share that is not empty and meets no other's; a reset loses its
tail and its gangs, whose launches are faulted and which report 0x17, and waits for the outside work, its reports' entries
among it, after which its cores are wiped and it is neither enabled nor in reset. That the reset of one that is not enabled
does nothing is the model's choice (log entry 47). -/
def Obligations.PartitionsEnableAndReset : Prop :=
  ∀ (s : State) (b : BitVec 4),
    let p := b.toNat
    let P := s.part p
    let lo (x : Part) : Nat := x.hbm.toNat % 2 ^ 10
    let hi (x : Part) : Nat := x.hbm.toNat / 2 ^ 16 % 2 ^ 10
    let others := (List.range 16).filter fun q => (s.part q).en
    let may := P.qmask ≠ 0#48 ∧ lo P < hi P ∧ hi P ≤ 576 ∧ 1 ≤ P.mways.toNat
      ∧ P.mways.toNat + (others.map fun q => (s.part q).mways.toNat).sum ≤ 16
      ∧ (∀ q ∈ others, P.qmask &&& (s.part q).qmask = 0#48 ∧ (hi P ≤ lo (s.part q) ∨ hi (s.part q) ≤ lo P)
          ∧ P.win &&& (s.part q).win = 0#16)
      ∧ ∀ c < 192, P.qmask.getLsbD (quadOf c) = true → (s.at c).armed = false ∧ (s.at c).hst = 0
    (P.en = false → may → ∃ t, exec (.partitionEnable b) s = .next t ∧ OnlyPart s t p fun x => { x with en := true })
    ∧ (P.en = true ∨ ¬may → exec (.partitionEnable b) s = .next s)
    ∧ (P.en = false ∨ P.inrst = true → exec (.partitionReset b) s = .next s)
    ∧ (P.en = true → P.inrst = false → (∀ c < 192, (s.at c).gbase = c ∧ (s.at c).gsize = 1) →
        ∃ t, exec (.partitionReset b) s = .next t ∧ t.part p = { P with inrst := true, lncTail := P.lncHead }
        ∧ ∀ c, CoreOf s p c → (t.at c).armed = false ∧ (t.at c).hst = 0 ∧ (∀ x, (t.at c).task = some x → x.part ≠ p)
          ∧ ∀ x l, (s.at c).task = some x → x.part = p → s.launch p x.lid = some l →
              (∃ y, t.launch p x.lid = some y ∧ y.faulted = true)
              ∧ (l.rep = 2#2 → ∃ e ∈ t.reps, e.part = p ∧ e.lid = x.lid ∧ e.lvl = 0 ∧ e.st = 5 ∧ e.code = 0x17 ∧ e.core = c
                  ∧ e.tile = x.tile.toNat))
    ∧ (P.inrst = false ∨ OutsideWork s p → exec (.partitionResetDone b) s = .next s)
    ∧ (P.inrst = true → ¬OutsideWork s p → EventInHbm s → ∃ t, exec (.partitionResetDone b) s = .next t
        ∧ t.part p = { P with en := false, inrst := false } ∧ Posted s t 8 p 0xFFFF 0xFFFF 0
        ∧ (∀ c, CoreOf s p c → ((s.quad (quadOf c)).ps = .on → Wiped t c)
            ∧ ((s.quad (quadOf c)).ps ≠ .on → (t.quad (quadOf c)).wipe = true))
        ∧ (∀ q l, q < 48 → l ∈ (t.quad q).tlb → l.part ≠ p) ∧ ∀ x ∈ t.msc, x.alloc ≠ p)

/-- R300, R349-R352, R354: a correctable error is counted for the partition that owns its storage, a core's own stores and private
lines among it, and the eighth of a word
or row in a patrol pass posts an event; an uncorrectable word of HBM or a vault, met by any agent or by the scrub, is
poisoned, and charged to the owner of the cached line that it is in, or else, and where it is a word of the stack, to the
partition whose share holds it; in a core's private copy a clean line is dropped, a written one poisoned at its home and
charged; an error in a core's stores or registers fences the core and loses its gang; a retraining port carries nothing of
the core that crosses a link before its time, which a hold that waits for it sees, and a port that has not returned in 10 ms
goes down. Which words share a row, two events at one error, core 0xFFFF, the choice among owners, and that a register error
of a core without a gang has no effect are the model's choice (log entry 48), as is what crosses a link (log entry 14). -/
def Obligations.ErrorsAndLinks : Prop :=
  ∀ (s : State) (a : BitVec 52) (pt : BitVec 5) (d : Nat),
    let pa := a.toNat
    let home := s.normPa pa
    let meets (stack : Bool) := [Instr.uncorrectableError (.home ⟨stack, a⟩), .patrolScrub ⟨stack, a⟩]
    let counts (t : State) : Prop :=
      let n := HitsNow s s.rasHits (home / 4) + 1
      let m := HitsNow s s.rasRows (Config.rowOf (home / 4)) + 1
      HitsNow t t.rasHits (home / 4) = n ∧ HitsNow t t.rasRows (Config.rowOf (home / 4)) = m ∧ t.firm = s.firm
      ∧ t.mgtEvhead = s.mgtEvhead + (if n = 8 then 1#32 else 0#32) + (if m = 8 then 1#32 else 0#32)
      ∧ ∀ p, OnlyOwner s pa p → (n = 8 ∨ m = 8) → (n ≠ 8 ∨ m ≠ 8) → Posted s t 5 p 0xFFFF 0xFFFF (pa / 128 * 128)
    (∀ p, OnlyOwner s pa p → 0 < s.rasScrub.toNat → ∃ t, exec (.correctableError .home a) s = .next t
      ∧ (t.part p).ce = satAdd48 (s.part p).ce 1 ∧ (∀ q < 16, q ≠ p → t.part q = s.part q) ∧ counts t)
    ∧ ((s.target pa = .hbm ∨ ∃ c o, s.target pa = .vault c o) → (∀ q < 16, ¬Owns s pa q) → 0 < s.rasScrub.toNat →
        (∀ c o, s.target pa = .vault c o → c < 192) → ∃ t, exec (.correctableError .home a) s = .next t ∧ t.parts = s.parts ∧ counts t)
    ∧ (∀ w ∈ [CeSite.privateLine, .coreStore], ∃ t, exec (.correctableError w a) s = .next t ∧ t.firm = s.firm
        ∧ (t.mgtEvhead = s.mgtEvhead → t.gmem = s.gmem ∧ t.cores = s.cores)
        ∧ (∀ p < 16, CoreOf s p s.cur.val → (∀ q < 16, CoreOf s q s.cur.val → q = p) →
            (t.part p).ce = satAdd48 (s.part p).ce 1 ∧ ∀ q < 16, q ≠ p → t.part q = s.part q)
        ∧ ((∀ q < 16, ¬CoreOf s q s.cur.val) → t.parts = s.parts))
    ∧ (∀ st, ∀ w ∈ meets st, s.target pa = .hbm → (st = true ∨ s.mscFind home = none) → (∀ q < 16, ¬InShare s q home) →
        ∃ t, exec w s = .next t ∧ (∀ x, x ∈ t.poison ↔ x ∈ s.poison ∨ x = home / 4) ∧ t.gmem = s.gmem ∧ t.parts = s.parts)
    ∧ (∀ st, ∀ w ∈ meets st, s.target pa = .hbm → ∃ t, exec w s = .next t
        ∧ (s.normPa (eventAt s) / 128 ≠ home / 128 → home / 4 ∈ t.poison)
        ∧ (∀ x, st = false → s.mscFind home = some x → x.part < 16 → Charged s t x.part 0xFFFF x.ctx.toNat (home / 128))
        ∧ (st = true ∨ s.mscFind home = none → ∀ p, OnlyOwner s home p → Charged s t p 0xFFFF 0xFFFF (home / 128)))
    ∧ (∀ st, ∀ w ∈ meets st, s.target pa = .none → ∃ t, exec w s = .next t ∧ t.poison = s.poison ∧ t.parts = s.parts ∧ t.gmem = s.gmem)
    ∧ (Alone s → s.core.task ≠ none → ∀ w ∈ [Instr.uncorrectableError .coreStore, .uncorrectableError .coreReg], ∃ t, exec w s = .next t
        ∧ t.core.fenced = true ∧ t.core.task = none)
    ∧ (s.core.task = none → exec (.uncorrectableError .coreReg) s = .next s
        ∧ exec (.uncorrectableError .coreStore) s = .next (s.mod fun k => { k with fenced := true }))
    ∧ (s.core.l1d = [] → s.core.upd = [] → s.core.vc = [] → exec (.uncorrectableError (.privateLine a)) s = .next s)
    ∧ (∀ x, s.core.l1d.find? (fun y => y.pa == home / 128) = some x →
        let written := (∃ i : Nat, x.dirty[i]? = some true) ∨ ∃ u ∈ s.core.upd, u.pa / 128 = home / 128
        ∃ t, exec (.uncorrectableError (.privateLine a)) s = .next t ∧ (∀ y ∈ t.core.l1d ++ t.core.vc, y.pa ≠ home / 128)
          ∧ (¬written → t.gmem = s.gmem ∧ t.poison = s.poison ∧ t.parts = s.parts ∧ t.mgtEvhead = s.mgtEvhead)
          ∧ (written → x.part < 16 → Charged s t x.part s.cur.val x.ctx.toNat (home / 128)
            ∧ (s.normPa (eventAt s) / 128 ≠ s.normPa (128 * (home / 128)) / 128 →
                ∀ i < 32, s.normPa (128 * (home / 128)) / 4 + i ∈ t.poison)))
    ∧ ((∀ i < 4, (s.at (4 * quadOf s.cur.val + i)).task = none) → exec (.uncorrectableError .quadShared) s = .next s)
    ∧ (∃ t, exec (.linkRetrain pt d) s = .next t
        ∧ (∀ x, s.ports[pt.toNat]? = some x → t.ports[pt.toNat]? = some { x with up := true, since := some s.time, back := s.time + d })
        ∧ (∀ (q : Nat) y, s.core.ctx.ldP[q]? = some y → ∃ z, t.core.ctx.ldP[q]? = some z ∧ z = { y with dels := z.dels }
            ∧ z.dels.length = y.dels.length ∧ ∀ (i : Nat) e, y.dels[i]? = some e → z.dels[i]? = some
              (if e.far = true then { e with arrive := max e.arrive (s.time + d), retrain := some pt.toNat } else e))
        ∧ (∀ (i : Nat) y, s.core.ctx.copies[i]? = some y → t.core.ctx.copies[i]? = some
            (if y.route ≠ .xdie ∨ y.supv = true then y else { y with arrive := max y.arrive (s.time + d), retrain := some pt.toNat }))
        ∧ (∀ (i : Nat) y, s.atoms[i]? = some y →
            (y.core = s.cur.val → (∃ m o, s.target y.pa = .pod m o) → t.atoms[i]? = some { y with ready := max y.ready (s.time + d) })
            ∧ (y.core ≠ s.cur.val ∨ (∀ m o, s.target y.pa ≠ .pod m o) → t.atoms[i]? = some y))
        ∧ ((∀ m ∈ s.members s.cur.val, (s.at m).hold = none) → SameButCtx s { t with ports := s.ports, hbm := s.hbm, atoms := s.atoms }
            fun x v => { v with ldP := x.ldP, copies := x.copies })
        ∧ ∀ h p a r e, Alone s → 0 < d → s.core.hold = some h → .late s.cur.val p a r ∈ h.causes → h.linkSeen = none →
            e ∈ (s.core.ctx.ldP.getD p LdPort.reset).dels → e.due = s.core.now → e.far = true →
            t.core.hold = some { h with linkSeen := some pt.toNat })
    ∧ (s.ports[pt.toNat]? = none → exec (.linkDown pt) s = .next s)
    ∧ ∀ x, s.ports[pt.toNat]? = some x →
        (x.up = false ∨ x.since = none → exec (.linkDown pt) s = .next s)
        ∧ (∀ u, x.since = some u → s.time < u + 10000000 * Config.unitsPerNs ∨ x.back ≤ u + 10000000 * Config.unitsPerNs →
            exec (.linkDown pt) s = .next s)
        ∧ (∀ u, x.up = true → x.since = some u → u + 10000000 * Config.unitsPerNs ≤ s.time →
            u + 10000000 * Config.unitsPerNs < x.back → ∃ t, exec (.linkDown pt) s = .next t
            ∧ t.ports[pt.toNat]? = some { x with up := false } ∧ Posted s t 6 0 pt.toNat 0xFFFF 0)

/-- R352, R356-R358, R360-R363: a reset of the module starts from the reset state with the flash kept, intake closed and
ports untrained, in recovery where no record verifies, else with the identity and repair map of the record in force, the
cores fenced that their self-test fails (which self-tests fence a core is open, log entry 11), and firmware running only if its signature
verifies at a version not below the minimum; intake ignores LNC_HEAD until it opens; in recovery the host reaches the mailbox alone, and a remote agent gets
an error; the aperture reads and writes homes its partition reaches, an Ultra Ethernet port the HBM of the partition it is
mapped to; a quote uses one device index, none is left at 2^20; the minimum version only rises, by a signed
request; a configuration record replaces the older copy, its changed sections signed with new indices. The quote's field
order and a signature's layout (log 10), the mailbox that a warm reset keeps (log 51) and an error reply without bytes
(log 49) are the model's choice. -/
def Obligations.BringUpAndHost : Prop :=
  ∀ s : State,
    (∀ w ∈ [Instr.warmReset, .coldReset, .rhousAccess .warm], ∃ t, exec w s = .next t ∧ KeepsFlash s t
      ∧ t.resets = s.resets + 1 ∧ t.gmem = [] ∧ t.launches = [] ∧ t.gov = State.reset.gov ∧ t.parts = State.reset.parts
      ∧ t.quads = State.reset.quads ∧ t.windows = State.reset.windows ∧ t.sltErr = 0#64 ∧ t.agenda = []
      ∧ (w = .coldReset ∨ t.mailbox = s.mailbox) ∧ t.intake = false ∧ (∀ x ∈ t.ports, x.up = false ∧ x.since = none)
      ∧ (∀ c < 192, t.at c = { Core.reset c with fenced := (t.at c).fenced })
      ∧ ((∀ r ∈ s.records, ¬Verifies r) → t.recovery = true ∧ t.fwRuns = false ∧ ∀ c < 192, (t.at c).fenced = (s.at c).fenced)
      ∧ (∀ r, InForce s r → t.recovery = false ∧ t.idnSerial = r.serial ∧ t.idnPod.toNat = r.modNo.toNat + 2 ^ 16 * r.pod.toNat
          ∧ t.repair = r.factory ++ r.inField
          ∧ (t.fwRuns = true ↔ s.minVersion.toNat ≤ s.fwVersion.toNat
              ∧ VendorSigned (natLe 4 s.fwVersion.toNat ++ s.fwImage) s.fwSig)
          ∧ ∀ c < 192, (Config.selfTest 0 (physCore t.repair c) t.resets [] = false → (t.at c).fenced = true)
              ∧ ((∀ m < 192, corePasses t.resets t.repair m = true) → (t.at c).fenced = false)))
    ∧ (∀ p v, s.intake = false → s.recovery = false → ∃ t, exec (.rhousAccess (.headWrite p v)) s = .next t
        ∧ OnlyPart s t p.toNat fun P => { P with lncDrop := BitVec.ofNat 32 (min (2 ^ 32 - 1) (P.lncDrop.toNat + 1)) })
    ∧ (∀ k v, exec (.rhousAccess (.mailWrite k v)) s = .next { s with mailbox := s.mailbox.set k.toNat v })
    ∧ (∀ k, ∃ t, exec (.rhousAccess (.mailRead k)) s = .next t ∧ t.hostErr = false ∧ t.hostOut.length = 4
        ∧ leNat t.hostOut = (s.mailbox.getD k.toNat 0#32).toNat ∧ { t with hostOut := s.hostOut, hostErr := s.hostErr } = s)
    ∧ exec (.rhousAccess .doorbell) s = .next { s with doorbell := s.doorbell + 1 }
    ∧ (s.recovery = true → (∀ p v pa n b, exec (.rhousAccess (.headWrite p v)) s = .next s
          ∧ exec (.rhousAccess (.memWrite pa b)) s = .next s ∧ exec (.rhousAccess (.memRead pa n)) s = .next s)
        ∧ ∀ k x, exec (.podRequest x) s = .next { s with hostErr := true }
          ∧ exec (.ultraEthernetRequest ⟨k, x⟩) s = .next { s with hostErr := true })
    ∧ (∀ pa n, s.recovery = false → s.rhsCtl.getLsbD 4 = false → exec (.rhousAccess (.memRead pa n)) s
        = .next { s with hostOut := List.replicate n 0#8, hostErr := false })
    ∧ (∀ (pa : BitVec 52) n (p : BitVec 4) k, s.recovery = false → Answers s p.toNat pa.toNat n →
        (∀ i < n, InShare s p.toNat (pa.toNat + i)) → ∀ w, (w = .podRequest (.read p pa n)
          ∨ (∃ p', w = .ultraEthernetRequest ⟨k, .read p' pa n⟩ ∧ s.uePart.getD k.toNat 0#4 = p)
          ∨ (∃ q : BitVec 41, q.toNat = pa.toNat ∧ w = .rhousAccess (.memRead q n) ∧ s.rhsCtl.getLsbD 4 = true
            ∧ s.rhsCtl.toNat % 16 = p.toNat)) →
        ∃ t, exec w s = .next t ∧ t.hostErr = false
          ∧ t.hostOut.length = n ∧ (∀ i < n, t.hostOut[i]? = some (s.homeByte (pa.toNat + i))) ∧ t.gmem = s.gmem)
    ∧ (∀ (pa : BitVec 52) n (p : BitVec 4) k, s.recovery = false → (∃ i < n, s.hasTarget p.toNat true (pa.toNat + i) = false) →
        exec (.podRequest (.read p pa n)) s = .next { s with hostOut := [], hostErr := true }
        ∧ (s.uePart.getD k.toNat 0#4 = p → ∀ p', exec (.ultraEthernetRequest ⟨k, .read p' pa n⟩) s = .next { s with hostOut := [], hostErr := true }))
    ∧ (∀ nonce, (2 ^ 20 ≤ s.sigNext.toNat → exec (.attestationQuote nonce) s = .next { s with quote := [], quoteExh := true })
        ∧ (s.sigNext.toNat < 2 ^ 20 → ∃ t, exec (.attestationQuote nonce) s = .next t ∧ t.quoteExh = false
          ∧ t.sigNext.toNat = s.sigNext.toNat + 1 ∧ leNat (t.quote.take 32) = nonce.toNat
          ∧ 2820 ≤ t.quote.length ∧ t.quote.drop (t.quote.length - 2820)
            = deviceSig s.helper s.sigNext.toNat (t.quote.take (t.quote.length - 2820))
          ∧ (s.sigNext.toNat + 1025 = 2 ^ 20 → Posted s t 9 0 0xFFFF 0xFFFF 0)))
    ∧ (∀ v sig, ∃ t, exec (.fwMinVersionRaise ⟨v, sig⟩) s = .next t ∧ { t with minVersion := s.minVersion } = s
        ∧ t.minVersion.toNat = if sig.length = 2820 ∧ Config.vendorOk (natLe 4 v.toNat) sig = true
            then max s.minVersion.toNat v.toNat else s.minVersion.toNat)
    ∧ ∀ r, s.sigNext.toNat + 3 ≤ 2 ^ 20 → ∃ t y, exec (.configRecordWrite r) s = .next t ∧ y ∈ t.records
        ∧ y = { r with sigInField := y.sigInField, sigPod := y.sigPod, sigHeader := y.sigHeader }
        ∧ (∀ x ∈ t.records, x = y ∨ x ∈ s.records) ∧ t.records.length ≤ 2
        ∧ (∀ x ∈ s.records, (∀ z ∈ s.records, z.seq.toNat < x.seq.toNat ∨ z = x) → x ∈ t.records)
        ∧ s.sigNext.toNat ≤ t.sigNext.toNat ∧ t.sigNext.toNat ≤ s.sigNext.toNat + 3
        ∧ (r.byDevice = true → s.sigNext.toNat < t.sigNext.toNat
            ∧ y.sigHeader = deviceSig s.helper (t.sigNext.toNat - 1) (headerBytes r))
        ∧ (∀ x, InForce s x → r.byDevice = false → x.inField = r.inField → x.pod = r.pod → x.modNo = r.modNo →
            t.sigNext = s.sigNext ∧ y.sigInField = x.sigInField ∧ y.sigPod = x.sigPod)

namespace Sys2Proof.Claims

/-- Registers that firmware writes field by field, with their fields, beside those of a core's `sy.mtsr` (R318, R362). -/
def firmRegs : List (Nat × List (Nat × Nat)) := [(0x202, [(19, 33)]), (0x490, [(0, 5)])]

/-- Registers that nobody writes (R277, R278, R318, R334, R339, R343, R348, R357, R358). -/
def readOnly : List Nat := [0x003, 0x200, 0x201, 0x302, 0x304, 0x312, 0x400, 0x451, 0x480, 0x481, 0x482]

end Sys2Proof.Claims

/-- R277, R303, R307, R339, R343, R345, R346, R348, R350, R362, R363: every register write of firmware completes, and has the
effect of its register: the envelopes and PWR_CAP under their straps; shares only while their partition is not enabled, EN
and RST as the enabling and the reset they are; the event ring, which posts the self-test failures that wait; the scrub
period, the error counts, the intake ring, the mailbox, the words of a bind record, the partition of an Ultra Ethernet
port; a core's registers, its watchdog and ARF_STICKY among them, the windows, QPC_SEL, the quad registers, QPC_CTL's request
fields among them, and sampling as its `sy.mtsr` writes them; what is read only stays. That RST is ignored while EN = 0 is the
model's choice (log entry 47). -/
def Obligations.FirmwareWrites : Prop :=
  ∀ (s : State) (v : W64) (p : BitVec 4),
    let w (n : Nat) (r : Instr) : Prop := r = .registerWrite (.sys (BitVec.ofNat 12 n)) v
    (∀ r, ∃ t, exec (.registerWrite r v) s = .next t)
    ∧ (∀ r, w 0x301 r → ∃ t, exec r s = .next t ∧ t.gov.dn.toNat = min (max 1 (v.toNat % 2 ^ 16)) Config.strapDn
      ∧ { t with gov := { t.gov with dn := s.gov.dn } } = s)
    ∧ (∀ r, w 0x308 r → ∃ t, exec r s = .next t ∧ t.gov.cap.toNat % 2 ^ 16 = min (v.toNat % 2 ^ 16) Config.strapPmax
      ∧ t.gov.cap.toNat / 2 ^ 16 = v.toNat / 2 ^ 16 % 2 ^ 24 ∧ { t with gov := { t.gov with cap := s.gov.cap } } = s)
    ∧ (∀ r, w 0x300 r → exec r s = exec (.lsgEnvUpWrite v) s) ∧ (∀ r, w 0x303 r → exec r s = exec (.lsgCtlWrite v) s)
    ∧ (∀ r, w 0x100 r → exec r s = exec (.vltCtlWrite v) s)
    ∧ (∀ r, w 0x000 r → exec r s = (let u := s.mod fun k => { k with hlt := k.hlt && !v.getLsbD 4 }
        if v.getLsbD 3 = true then exec .prvEnter u else .next u))
    ∧ (∀ r, w 0x005 r → exec r s = if v.getLsbD 0 = true then exec .preemptRequest s else .next s)
    ∧ (∀ r, w 0x452 r → exec r s = if v.getLsbD 0 = true then exec .warmReset s else .next s)
    ∧ (∀ r, w (0x420 + p.toNat) r → ∃ t, exec r s = .next t ∧ OnlyPart s t p.toNat fun P =>
        if P.en = true then P else { P with qmask := v.setWidth 48 })
    ∧ (∀ r, w (0x430 + p.toNat) r → ∃ t, exec r s = .next t ∧ OnlyPart s t p.toNat (fun P =>
        if P.en = true then P else { P with hbm := (t.part p.toNat).hbm })
        ∧ ((s.part p.toNat).en = false → ∀ b < 64, (t.part p.toNat).hbm.getLsbD b = inFields [(0, 10), (16, 10)] v b))
    ∧ (∀ r, w (0x410 + p.toNat) r →
        ((s.part p.toNat).en = true → v.getLsbD 0 = true → v.getLsbD 1 = false → ∃ t, exec r s = .next t
          ∧ OnlyPart s t p.toNat fun P => { P with maxcls := v.extractLsb' 3 3 })
        ∧ ((s.part p.toNat).en = true → (v.getLsbD 0 = false ∨ v.getLsbD 1 = true) →
            ∃ u, OnlyPart s u p.toNat (fun P => { P with maxcls := v.extractLsb' 3 3 }) ∧ exec r s = exec (.partitionReset p) u)
        ∧ ((s.part p.toNat).en = false →
            ∃ u, OnlyPart s u p.toNat (fun P => { P with maxcls := v.extractLsb' 3 3, mways := v.extractLsb' 6 5, win := v.extractLsb' 16 16 })
            ∧ exec r s = if v.getLsbD 0 = true then exec (.partitionEnable p) u else .next u))
    ∧ (∀ r, w 0x450 r → ∃ t, exec r s = .next t
        ∧ t.mgtEvq.toNat % 2 ^ 4 = min 12 (v.toNat % 2 ^ 4) ∧ (∀ b, 4 ≤ b → b < 64 → t.mgtEvq.getLsbD b = inFields [(12, 40)] v b)
        ∧ t.selfFail = [] ∧ t.mgtEvhead = s.mgtEvhead + BitVec.ofNat 32 s.selfFail.length
        ∧ (s.selfFail = [] → { t with mgtEvq := s.mgtEvq } = s))
    ∧ (∀ r, w 0x472 r → ∃ t, exec r s = .next t ∧ t.rasScrub.toNat = min 10080 (max 1 (v.toNat % 2 ^ 16))
        ∧ { t with rasScrub := s.rasScrub, rasPass := s.rasPass, rasHits := s.rasHits, rasRows := s.rasRows } = s)
    ∧ (∀ r, w 0x470 r → ∃ t, exec r s = .next t ∧ OnlyPart s t (s.partOf s.cur.val) fun P => { P with ce := BitVec.ofNat 64 (v.toNat % 2 ^ 48) })
    ∧ (∀ r, w 0x471 r → ∃ t, exec r s = .next t ∧ OnlyPart s t (s.partOf s.cur.val) fun P => { P with ue := BitVec.ofNat 64 (v.toNat % 2 ^ 48) })
    ∧ (∀ r, w 0x500 r → ∃ t, exec r s = .next t ∧ t.sltErr.toNat % 2 ^ 32 = v.toNat % 2 ^ 32
        ∧ t.sltErr.toNat / 2 ^ 32 = s.sltErr.toNat / 2 ^ 32 ∧ { t with sltErr := s.sltErr } = s)
    ∧ (∀ n l r, (n, l) ∈ firmRegs ++ plainRegs ++ outerRegs → w n r → ∃ t, exec r s = .next t
        ∧ ∀ b < 64, ((t.sysRead s.cur.val n).getD 0#64).getLsbD b = inFields l v b)
    ∧ (∀ n r, n ∈ readOnly → w n r → ∃ t, exec r s = .next t ∧ t.sysRead s.cur.val n = s.sysRead s.cur.val n ∧ t.firm = s.firm)
    ∧ (∃ t, exec (.registerWrite (.lncRing p) v) s = .next t
        ∧ OnlyPart s t p.toNat fun P => { P with lncRing := v &&& maskOf 10 42 })
    ∧ (∃ t, exec (.registerWrite (.lncDrop p) v) s = .next t ∧ ∀ b < 32, (t.part p.toNat).lncDrop.getLsbD b
        = ((s.part p.toNat).lncDrop.getLsbD b && !v.getLsbD b))
    ∧ (∀ k, exec (.registerWrite (.uePart k) v) s = .next { s with uePart := s.uePart.set k.toNat (v.setWidth 4) })
    ∧ (∀ k, (s.core.armed = true ∨ s.core.hst ≠ 0 → exec (.registerWrite (.record k) v) s = .next s)
        ∧ (s.core.armed = false → s.core.hst = 0 →
          let put (r : BindRec) : Host.Outcome State Fault Refusal := .next (s.mod fun c => { c with slot := r })
          let r := s.core.slot
          (k = 1#3 → exec (.registerWrite (.record k) v) s = put { r with tile := v.extractLsb' 0 48, phase := v.extractLsb' 48 4 })
          ∧ (k = 6#3 → exec (.registerWrite (.record k) v) s = put { r with dl := v })
          ∧ (k ≠ 0#3 → k ≠ 1#3 → k ≠ 6#3 → exec (.registerWrite (.record k) v) s = put r)
          ∧ (k = 0#3 →
            let x : BindRec := { r with supv := v.getLsbD 4, gidx := v.extractLsb' 8 2, gsize := v.extractLsb' 10 3
                                        gid := v.extractLsb' 16 16, lid := v.extractLsb' 32 32 }
            exec (.registerWrite (.record k) v) s = if v.getLsbD 0 = true then exec (.bindRecordArm x) s else put x)))
    ∧ (∀ r, w 0x004 r → ∃ t, exec r s = .next t ∧ t.core.wdog.toNat = max 1000 (v.toNat % 2 ^ 32)
        ∧ SameButCore s t fun x y => { y with wdog := x.wdog })
    ∧ (∀ r, w 0x040 r → ∃ t, exec r s = .next t ∧ t.core.ctx.sticky = s.core.ctx.sticky &&& ~~~(v.setWidth 8)
        ∧ SameButCtx s t fun x y => { y with sticky := x.sticky })
    ∧ (∀ r, w 0x310 r → ∃ t, exec r s = .next t
        ∧ t.core.qpcSel.toNat = (if v.toNat % 64 < 48 then v.toNat % 64 else s.core.qpcSel.toNat)
        ∧ SameButCore s t fun x y => { y with qpcSel := x.qpcSel })
    ∧ (∀ n r, n < 2 ^ 12 → Outer n → w n r → ∃ t, exec r s = .next t ∧ OuterEffect s t s.cur.val n v s.time
        ∧ (n < 0x320 → t.cores = s.cores) ∧ t.firm = s.firm)
    ∧ ∀ k, exec (.registerWrite (.mail k) v) s = .next { s with mailbox := s.mailbox.set k.toNat (v.setWidth 32) }

namespace Sys2Proof.Claims

/-! The machine. -/

/-- The instructions that come from firmware's own port, or that reset, and so may change what only these change. -/
def byFirmware : Instr → Bool
  | .registerWrite _ _ | .partitionEnable _ | .partitionReset _ | .partitionResetDone _ | .lsgEnvUpWrite _
  | .lsgCtlWrite _ | .repeatableModeApply | .attestationQuote _ | .fwMinVersionRaise _ | .configRecordWrite _
  | .warmReset | .coldReset | .rhousAccess .warm => true
  | _ => false

/-- The next entry of the agenda is no act of firmware's own port, nor, where the agenda is empty, is the outside event that
has come; no partition's reset waits to end. -/
def NotFirmware (s : State) : Prop :=
  (∀ c i r, s.agenda = (c, .event i) :: r → byFirmware i = false)
  ∧ (s.agenda = [] → (∀ x, s.sched.head? = some x → x.1 ≤ s.time → byFirmware x.2.2 = false) ∧ ∀ p < 16, (s.part p).inrst = false)

/-- The stop of the current gang that `t` records: its cause, its cycle, and whether a frame was written. -/
def Recorded (s t : State) (k : Stop) (atEnd frame : Bool) : Prop :=
  ∃ st : Stopped, t.core.stop = some st ∧ st.why = k ∧ st.cyc = s.core.lcc ∧ st.atEnd = atEnd ∧ st.wtc = s.wtc
    ∧ st.frame = frame

/-- What a stop leaves alone: memories, tags, the other cores, LCC and HDC. -/
def StopKeeps (s t : State) : Prop :=
  t.core.lm = s.core.lm ∧ t.core.slm = s.core.slm ∧ t.core.imem = s.core.imem ∧ t.core.tags = s.core.tags
  ∧ t.core.lcc = s.core.lcc ∧ t.core.hdc = s.core.hdc ∧ t.core.ctx.rq = s.core.ctx.rq ∧ t.core.ctx.n = s.core.ctx.n
  ∧ ∀ c, c ≠ s.cur.val → t.at c = s.at c

/-- The system registers that read other than zero after reset, the same on every core (the reset columns of R278, R339,
R350). -/
def resetValues : List (Nat × W64) :=
  [(0x002, 0x0000FFFFFFFF0000#64), (0x004, 100000#64), (0x300, 40#64), (0x301, 40#64), (0x302, 0xE1000780078#64),
    (0x303, 0x240808#64), (0x304, 0x9C4000000000#64), (0x308, 0x785F0E10#64), (0x311, 0xC2#64), (0x312, 2#64), (0x315, 2#64),
    (0x320, 0x40002#64), (0x472, 1440#64)]

/-- The system registers that read zero after reset (the reset columns of R60, R225, R227, R229, R231, R278, R307, R318,
R339, R343, R348, R350, R357, R358, R362), the identity registers among them, which read the record in force once step 2 of
R361 has loaded it. -/
def resetZeros : List Nat :=
  [0x000, 0x001, 0x003, 0x005, 0x040, 0x041, 0x042, 0x305, 0x306, 0x307, 0x313, 0x314, 0x316, 0x317, 0x321, 0x322, 0x400,
    0x450, 0x451, 0x452, 0x470, 0x471, 0x480, 0x481, 0x482, 0x490, 0x500]
  ++ (List.range 5).map (0x100 + ·) ++ (List.range 7).map (0x200 + ·) ++ (List.range 48).map (0x410 + ·)
  ++ (List.range 16).flatMap fun w => (List.range 6).map fun k => 0x180 + 8 * w + k

/-- Words of the spec's worked examples, with the instruction each stands for: common words (R39, R85), CP (R105, R118),
streams (R124), grid (R198, R213, R219), array (R168, R172, R175, R180), copies (R138), synchronisation (R253, R260, R265),
privileged words (R289). -/
def workedWords : List (List W32 × Instr) :=
  [([0x06000000#32], .cpNop 0#3 3#4), ([0xC1F80000#32, 0xE0000008#32], .untilStamp 6#3 0#4 8#29),
    ([0x006003E8#32], .cpLim 0#4 1000#18), ([0x051C0003#32, 0xE0000004#32], .cpLoop 2#4 0#5 3#13 4#29),
    ([0x01000021#32], .cpBr 0#4 33#14),
    ([0x200C0080#32, 0xE0000007#32, 0xFFFFFFFE#32], .ldDim 0#4 0#2 128#16 0xFFFFFFFE#32),
    ([0x201D0000#32, 0xE0000016#32], .ldStartTimed 0#4 (.stamp 22#29)),
    ([0x40106040#32], .stFmt 0#4 3#5 0#3 0#2 1#2),
    ([0xA009001F#32, 0xE000000A#32], .btCopy 0#4 0#2 31#14 (.stamp 10#29)),
    ([0x600C5200#32, 0xE0000001#32, 0xFF800000#32], .grConst 0#4 5#6 2#4 0x3F800000#32)]
  ++ [([0x60402000#32, 0xE0000200#32, 0xE0080040#32, 0xE0000100#32, 0xE0080040#32, 0xE0000180#32, 0xE0080040#32],
      .grVadd 0#4 1#5 0#2 ⟨0x200#17, 8#13, 64#16⟩ ⟨0x100#17, 8#13, 64#16⟩ ⟨0x180#17, 8#13, 64#16⟩),
    ([0x60191000#32, 0xE0000200#32, 0xE0080008#32, 0xE0000100#32, 0xE0080008#32, 0xE0000180#32, 0xE0000008#32,
      0xE0100002#32, 0xE0300007#32, 0xE0018420#32], .grChain 0#4 0#2 ⟨0x200#17, 8#13, 8#16⟩ ⟨0x100#17, 8#13, 8#16⟩
        (some ⟨0x180#17, 0#13, 8#16⟩) [0x00100002#29, 0x00300007#29, 0x00018420#29]),
    ([0x80086000#32, 0xE0004000#32], .cfLdst 0#4 3#5 0x4000#21),
    ([0x80118000#32, 0xE0000000#32], .cfRpl 0#4 1#2 1#1 0#1 0#29),
    ([0x8016E000#32, 0xE000012C#32], .cfGrd 0#4 2#2 1#1 1#1 1#1 300#29),
    ([0x80440000#32, 0xE0000001#32, 0xFE800000#32], .cfEta 0#4 0x3E800000#32),
    ([0x80502000#32, 0xE0008000#32], .cfDrain 0#4 1#5 0#2 0x8000#21)]
  ++ [([0xA01C8000#32, 0xE0000200#32, 0xE0000000#32, 0xE0000008#32], .btPin 0#4 1#3 0x4000000000#57 8#29),
    ([0xC0140000#32, 0xE0000200#32, 0xE0000000#32, 0xE0000200#32, 0xE0010000#32, 0xE0000004#32],
      .syBind 0#4 0x4000000000#57 0x4000010000#57 4#29),
    ([0xC0282800#32, 0xE0000200#32, 0xE0030000#32, 0xE0000100#32, 0xE0000200#32, 0xE0000001#32],
      .syAtomx 0#4 0#4 0x14#5 0#3 0x4000030000#57 0x100#21 0x200#21 1#16),
    ([0xC0300003#32, 0xE0002000#32], .sySafe 0#4 3#16 0x2000#29), ([0xC03C0000#32], .syEnd 0#4),
    ([0xC1800000#32, 0xE0000100#32, 0xE0400000#32], .syResume 0#4 0x002000400000#52),
    ([0xC18400C0#32, 0xE01FC000#32], .syMfsr 0#4 3#12 0x1FC000#21),
    ([0xC18C0000#32, 0xE0000200#32, 0xE0100000#32], .syTlbi 0#4 0#3 0x4000100000#57)]

end Sys2Proof.Claims

/-- R279, R282, R283, R286-R288: a start stop of a gang alone is recorded with its cause at the present cycle, with none
of the gang's acts left. With handlers enabled for its class and a frame area, the core writes its frame, header, result
queue, N registers and ARF_STICKY among it, changes no other byte of HBM, and the handler's entry follows; otherwise the
stop escalates with an event. A fault in a handler has class 0x15, ends it, keeps the task's frame and escalates; that HND
reads 0 after it is the model's choice (log entry 42), as is that a frame area outside the shares takes no byte (log entry
68). Memories, tags, the belt, N registers and the other cores keep their values where frame and event lie in HBM. -/
def Obligations.StopsAreTaken : Prop :=
  ∀ (s : State) (k : Stop), Alone s → s.canon → k.eng < 8 → k.sub < 2 ^ 16 → k.waddr < 2 ^ 16 →
    let t := takeStop s k [] false 0xFFFF#16 none
    let base := s.core.fltBase.toNat / 2 ^ 12 % 2 ^ 40 * 4096
    let left := s.agenda.filter fun a => a.1 ≠ s.cur
    let handled := s.core.fltVec.getLsbD 14 = true ∧ s.core.fltVec.getLsbD (16 + k.cls.code) = false
      ∧ k.cls ≠ .gangLost ∧ k.cls ≠ .supervisor ∧ s.core.ctx.sup = false ∧ base ≠ 0
    let me := s.partOf s.cur.val
    let frameInHbm := ∀ o < 0x3000, InShare s me (base + o)
    let beyond := ∀ o < 0x3000, s.hasTarget me true (base + o) = false
    let event := s.mgtEvq.toNat / 2 ^ 12 % 2 ^ 40 * 4096 + 32 * (s.mgtEvhead.toNat % 2 ^ (s.mgtEvq.toNat % 2 ^ 4 + 4))
    let onlyEvent := s.core.task = none ∧ ∀ o < 32, s.target (event + o) = .hbm
    (s.core.hnd = false → Recorded s t k false (base ≠ 0)
      ∧ ((base = 0 ∨ frameInHbm ∨ beyond) → (handled ∨ onlyEvent) → StopKeeps s t) ∧ (handled → beyond → t.gmem = s.gmem)
      ∧ (handled → t.agenda = (s.cur, .event .handlerEntry) :: left ∧ t.mgtEvhead = s.mgtEvhead)
      ∧ (¬handled → t.agenda = left ∧ t.mgtEvhead = s.mgtEvhead + 1#32 ∧ ∃ st, t.core.stop = some st ∧ st.escalated = true)
      ∧ (handled → frameInHbm →
          homeNat t base 2 = 1 ∧ (t.homeByte (base + 2)).toNat = k.cls.code ∧ (t.homeByte (base + 3)).toNat % 8 = k.eng
          ∧ homeNat t (base + 8) 8 = s.core.lcc % 2 ^ 64 ∧ homeNat t (base + 16) 8 = s.wtc % 2 ^ 64
          ∧ homeNat t (base + 24) 8 = s.core.hdc.toNat ∧ homeNat t (base + 32) 2 = k.waddr
          ∧ (∀ i < 16, homeNat t (base + 0x100 + 8 * i) 8 = (s.core.ctx.rq.getD i 0#64).toNat
              ∧ homeNat t (base + 0x180 + 8 * i) 8 = (s.core.ctx.n.getD i 0#64).toNat)
          ∧ homeNat t (base + 0x2C0) 8 = s.core.ctx.sticky.toNat
          ∧ ∀ pa, s.target pa = .hbm → (∀ o < 0x3000, s.normPa pa ≠ s.normPa (base + o)) → t.homeByte pa = s.homeByte pa))
    ∧ (s.core.hnd = true → t.core.hnd = false ∧ t.core.fltCause.toNat / 2 ^ 16 % 2 ^ 8 = 0x15 ∧ t.agenda = left
        ∧ t.core.stop = s.core.stop.map (fun st => { st with escalated := true }) ∧ t.saved = s.saved
        ∧ t.mgtEvhead = s.mgtEvhead + 1#32 ∧ (onlyEvent → StopKeeps s t))

/-- R92, R93: a step is the instruction. The head of a queue, whose word and literals decode to i and are present, and
whose time it is, runs as exec of i where its issue is the first entry of the agenda; so does an event there; an outside
event whose time has come runs where the agenda is empty and no tick or interval of the governor is due, which go first (log
entry 3); an instruction that `withFetchWord` places at the next issue, for a load from outside the machine (the model's
choice, log entry 1), runs in the next step. -/
def Obligations.StepRunsDecoded : Prop :=
  (∀ (s : State) (c : Fin 192) (e : BitVec 3) r i hd lits rest,
    let q := (s.at c.val).ctx.q e.toNat
    let now := (s.at c.val).now
    s.agenda = (c, .issue e) :: r → q.es = hd :: (lits ++ rest) →
    decodeWords ((hd :: lits).map QEntry.word) = .ok (i, []) → (∀ x ∈ hd :: lits, x.pres ≤ now) →
    (if isStamped hd.word || isTimed hd.word then hd.eff = some now ∧ q.ni ≤ now else q.ni = now) →
    step s = exec i { s with agenda := r, cur := c })
  ∧ (∀ (s : State) (c : Fin 192) r i, s.agenda = (c, .event i) :: r → step s = exec i { s with agenda := r, cur := c })
  ∧ (∀ (s : State) (c : Fin 192) r i d, s.agenda = [] → s.sched = (d, c, i) :: r → d ≤ s.time → s.fwRuns = true →
      s.time < 64 * s.gov.tick * Config.unitsPerNs → s.time < 1000 * (s.gov.interval + 1) * Config.unitsPerNs →
      step s = exec i { s with sched := r, cur := c })
  ∧ ∀ (s : State) nbits w i, decodeTableWord nbits w = some i → s.core.ctx.qs.length = 7 →
      step (s.withFetchWord nbits w) = exec i { s.withFetchWord nbits w with agenda := [] }

/-- Words written out in the spec decode to what the spec says they are. -/
def Obligations.DecodeWords : Prop :=
  ∀ p ∈ workedWords, (decodeWords p.1).toOption = some (p.2, [])

/-- R78-R83: every well-formed word of every engine decodes, from its encoding and whatever follows it, to itself. -/
def Obligations.RoundTrip : Prop :=
  ∀ (i : Instr) (rest : List W32), isWord i = true → WellFormed i = true → decodeWords (encode i ++ rest) = .ok (i, rest)

/-- Every step keeps every memory of the machine in its canonical form: addresses rise strictly, no byte listed is zero. -/
def Obligations.StepKeepsCanon : Prop := ∀ s t : State, s.canon → step s = .next t → t.canon

/-- R334: whatever runs, the bounds that the board straps set hold: envelopes of at least 1 and at most their straps, PLIM
at most PMAX, CSTEP at least 1, PINRSV at most max(0, ENV_UP − 4 × CSTEP). -/
def Obligations.StepKeepsStrapped : Prop := ∀ s t : State, s.gov.strapped → step s = .next t → t.gov.strapped

/-- R339, R343, R346, R348, R350, R357, R358, R362: no instruction of a program, no act of the hardware and no access of
another agent changes what firmware's own port and resets alone change: envelopes, LSG_CTL, PWR_CAP, the shares of
partitions, the ring's place, the scrub period, flash and identity registers, RHS_CTL. So for every instruction and event,
and so for every step: the landing of a program's `sy.mtsr` at the end of its cycle, or after it, among them. -/
def Obligations.OnlyFirmwareChanges : Prop :=
  (∀ (i : Instr) (s t : State), byFirmware i = false → exec i s = .next t → t.firm = s.firm)
  ∧ ∀ s t : State, NotFirmware s → step s = .next t → t.firm = s.firm

/-- R361 step 6 and the reset columns of the register tables: after reset every system register reads as stated, no
other number names one, QPC_SEL names the core's own quad, every byte of memory reads zero and every tag 0x0000, memories
are in canonical form and the strap bounds hold. No partition is enabled (R343), intake is closed and no port is trained. That
PRT_SELF and the identity registers read zero until the record is in force, and that ports are untrained, is the model's
choice (log entries 6 and 7). -/
def Obligations.ResetAsStated : Prop :=
  (∀ c < 192, (∀ p ∈ resetValues, State.reset.sysRead c p.1 = some p.2)
    ∧ State.reset.sysRead c 0x310 = some (BitVec.ofNat 64 (c / 4))
    ∧ (∀ n ∈ resetZeros, State.reset.sysRead c n = some 0#64)
    ∧ ∀ n, n ∉ resetZeros → n ∉ resetValues.map Prod.fst → n ≠ 0x310 → State.reset.sysRead c n = none)
  ∧ (∀ pa, State.reset.homeByte pa = 0#8)
  ∧ (∀ c < 192, ∀ a, (∀ u, (State.reset.at c).lmRead u a = 0#8 ∧ (State.reset.at c).tag u a = 0#16)
      ∧ memRead (State.reset.at c).imem a = 0#8 ∧ memRead (State.reset.at c).gcs a = 0#8
      ∧ memRead (State.reset.at c).simem a = 0#8 ∧ memRead (State.reset.at c).slm a = 0#8)
  ∧ (∀ p < 16, (State.reset.part p).en = false ∧ (State.reset.part p).lncHead = 0#32 ∧ (State.reset.part p).lncTail = 0#32)
  ∧ State.reset.intake = false ∧ (∀ x ∈ State.reset.ports, x.up = false ∧ x.since = none)
  ∧ State.reset.canon ∧ State.reset.gov.strapped
end

