-- ==== Sys2Proof/Laws/State.lean ====
section
/-! SUPPORT. What each update of the state leaves of each field: one lemma per field per update. -/

namespace Sys2Proof.Machine

/-! The core whose act runs. -/

@[simp] theorem State.mod_core (s : State) (f : Core → Core) : (s.mod f).core = f s.core := by
  simp [State.core, State.mod]
@[simp] theorem State.modCtx_core (s : State) (f : Ctx → Ctx) :
    (s.modCtx f).core = { s.core with ctx := f s.core.ctx } := by simp [State.modCtx]
@[simp] theorem State.mod_mod (s : State) (f g : Core → Core) : (s.mod f).mod g = s.mod fun c => g (f c) := by
  simp [State.mod, State.core]
@[simp] theorem State.mod_id (s : State) : (s.mod fun c => c) = s := by
  simp [State.mod, State.core]
theorem State.mod_of_core (s : State) (f : Core → Core) (h : f s.core = s.core) : s.mod f = s := by
  simp only [State.mod, h]
  simp [State.core]
theorem State.modCtx_eq (s : State) (f : Ctx → Ctx) : s.modCtx f = s.mod fun c => { c with ctx := f c.ctx } := rfl
@[simp] theorem State.modCtx_mod (s : State) (f : Ctx → Ctx) (g : Core → Core) :
    (s.modCtx f).mod g = s.mod fun c => g { c with ctx := f c.ctx } := by simp [State.modCtx]
@[simp] theorem State.mod_modCtx (s : State) (f : Core → Core) (g : Ctx → Ctx) :
    (s.mod f).modCtx g = s.mod fun c => { f c with ctx := g (f c).ctx } := by simp [State.modCtx]

/-! A change of the core whose act runs. -/

@[simp] theorem State.mod_time (s : State) (f : Core → Core) : (s.mod f).time = s.time := rfl
@[simp] theorem State.mod_cur (s : State) (f : Core → Core) : (s.mod f).cur = s.cur := rfl
@[simp] theorem State.mod_quads (s : State) (f : Core → Core) : (s.mod f).quads = s.quads := rfl
@[simp] theorem State.mod_dies (s : State) (f : Core → Core) : (s.mod f).dies = s.dies := rfl
@[simp] theorem State.mod_gov (s : State) (f : Core → Core) : (s.mod f).gov = s.gov := rfl
@[simp] theorem State.mod_windows (s : State) (f : Core → Core) : (s.mod f).windows = s.windows := rfl
@[simp] theorem State.mod_parts (s : State) (f : Core → Core) : (s.mod f).parts = s.parts := rfl
@[simp] theorem State.mod_gmem (s : State) (f : Core → Core) : (s.mod f).gmem = s.gmem := rfl
@[simp] theorem State.mod_poison (s : State) (f : Core → Core) : (s.mod f).poison = s.poison := rfl
@[simp] theorem State.mod_accs (s : State) (f : Core → Core) : (s.mod f).accs = s.accs := rfl
@[simp] theorem State.mod_msc (s : State) (f : Core → Core) : (s.mod f).msc = s.msc := rfl
@[simp] theorem State.mod_hbm (s : State) (f : Core → Core) : (s.mod f).hbm = s.hbm := rfl
@[simp] theorem State.mod_outLands (s : State) (f : Core → Core) : (s.mod f).outLands = s.outLands := rfl
@[simp] theorem State.mod_devs (s : State) (f : Core → Core) : (s.mod f).devs = s.devs := rfl
@[simp] theorem State.mod_outWrites (s : State) (f : Core → Core) : (s.mod f).outWrites = s.outWrites := rfl
@[simp] theorem State.mod_rels (s : State) (f : Core → Core) : (s.mod f).rels = s.rels := rfl
@[simp] theorem State.mod_jobs (s : State) (f : Core → Core) : (s.mod f).jobs = s.jobs := rfl
@[simp] theorem State.mod_atoms (s : State) (f : Core → Core) : (s.mod f).atoms = s.atoms := rfl
@[simp] theorem State.mod_saved (s : State) (f : Core → Core) : (s.mod f).saved = s.saved := rfl
@[simp] theorem State.mod_launches (s : State) (f : Core → Core) : (s.mod f).launches = s.launches := rfl
@[simp] theorem State.mod_reps (s : State) (f : Core → Core) : (s.mod f).reps = s.reps := rfl
@[simp] theorem State.mod_sltErr (s : State) (f : Core → Core) : (s.mod f).sltErr = s.sltErr := rfl
@[simp] theorem State.mod_mgtEvq (s : State) (f : Core → Core) : (s.mod f).mgtEvq = s.mgtEvq := rfl
@[simp] theorem State.mod_mgtEvhead (s : State) (f : Core → Core) : (s.mod f).mgtEvhead = s.mgtEvhead := rfl
@[simp] theorem State.mod_mgtRst (s : State) (f : Core → Core) : (s.mod f).mgtRst = s.mgtRst := rfl
@[simp] theorem State.mod_mgtInt (s : State) (f : Core → Core) : (s.mod f).mgtInt = s.mgtInt := rfl
@[simp] theorem State.mod_rasScrub (s : State) (f : Core → Core) : (s.mod f).rasScrub = s.rasScrub := rfl
@[simp] theorem State.mod_rasHits (s : State) (f : Core → Core) : (s.mod f).rasHits = s.rasHits := rfl
@[simp] theorem State.mod_rasRows (s : State) (f : Core → Core) : (s.mod f).rasRows = s.rasRows := rfl
@[simp] theorem State.mod_rasPass (s : State) (f : Core → Core) : (s.mod f).rasPass = s.rasPass := rfl
@[simp] theorem State.mod_idnSerial (s : State) (f : Core → Core) : (s.mod f).idnSerial = s.idnSerial := rfl
@[simp] theorem State.mod_idnPod (s : State) (f : Core → Core) : (s.mod f).idnPod = s.idnPod := rfl
@[simp] theorem State.mod_sigNext (s : State) (f : Core → Core) : (s.mod f).sigNext = s.sigNext := rfl
@[simp] theorem State.mod_minVersion (s : State) (f : Core → Core) : (s.mod f).minVersion = s.minVersion := rfl
@[simp] theorem State.mod_fwVersion (s : State) (f : Core → Core) : (s.mod f).fwVersion = s.fwVersion := rfl
@[simp] theorem State.mod_fwImage (s : State) (f : Core → Core) : (s.mod f).fwImage = s.fwImage := rfl
@[simp] theorem State.mod_fwSig (s : State) (f : Core → Core) : (s.mod f).fwSig = s.fwSig := rfl
@[simp] theorem State.mod_fwRuns (s : State) (f : Core → Core) : (s.mod f).fwRuns = s.fwRuns := rfl
@[simp] theorem State.mod_records (s : State) (f : Core → Core) : (s.mod f).records = s.records := rfl
@[simp] theorem State.mod_recovery (s : State) (f : Core → Core) : (s.mod f).recovery = s.recovery := rfl
@[simp] theorem State.mod_repair (s : State) (f : Core → Core) : (s.mod f).repair = s.repair := rfl
@[simp] theorem State.mod_selfFail (s : State) (f : Core → Core) : (s.mod f).selfFail = s.selfFail := rfl
@[simp] theorem State.mod_rhsCtl (s : State) (f : Core → Core) : (s.mod f).rhsCtl = s.rhsCtl := rfl
@[simp] theorem State.mod_mailbox (s : State) (f : Core → Core) : (s.mod f).mailbox = s.mailbox := rfl
@[simp] theorem State.mod_doorbell (s : State) (f : Core → Core) : (s.mod f).doorbell = s.doorbell := rfl
@[simp] theorem State.mod_hostOut (s : State) (f : Core → Core) : (s.mod f).hostOut = s.hostOut := rfl
@[simp] theorem State.mod_hostErr (s : State) (f : Core → Core) : (s.mod f).hostErr = s.hostErr := rfl
@[simp] theorem State.mod_quote (s : State) (f : Core → Core) : (s.mod f).quote = s.quote := rfl
@[simp] theorem State.mod_quoteExh (s : State) (f : Core → Core) : (s.mod f).quoteExh = s.quoteExh := rfl
@[simp] theorem State.mod_ports (s : State) (f : Core → Core) : (s.mod f).ports = s.ports := rfl
@[simp] theorem State.mod_uePart (s : State) (f : Core → Core) : (s.mod f).uePart = s.uePart := rfl
@[simp] theorem State.mod_intake (s : State) (f : Core → Core) : (s.mod f).intake = s.intake := rfl
@[simp] theorem State.mod_resets (s : State) (f : Core → Core) : (s.mod f).resets = s.resets := rfl
@[simp] theorem State.mod_nextId (s : State) (f : Core → Core) : (s.mod f).nextId = s.nextId := rfl
@[simp] theorem State.mod_freeCount (s : State) (f : Core → Core) : (s.mod f).freeCount = s.freeCount := rfl
@[simp] theorem State.mod_lastStop (s : State) (f : Core → Core) : (s.mod f).lastStop = s.lastStop := rfl
@[simp] theorem State.mod_moreStops (s : State) (f : Core → Core) : (s.mod f).moreStops = s.moreStops := rfl
@[simp] theorem State.mod_sched (s : State) (f : Core → Core) : (s.mod f).sched = s.sched := rfl
@[simp] theorem State.mod_agenda (s : State) (f : Core → Core) : (s.mod f).agenda = s.agenda := rfl

/-! A change of its context. -/

@[simp] theorem State.modCtx_time (s : State) (f : Ctx → Ctx) : (s.modCtx f).time = s.time := rfl
@[simp] theorem State.modCtx_cur (s : State) (f : Ctx → Ctx) : (s.modCtx f).cur = s.cur := rfl
@[simp] theorem State.modCtx_quads (s : State) (f : Ctx → Ctx) : (s.modCtx f).quads = s.quads := rfl
@[simp] theorem State.modCtx_dies (s : State) (f : Ctx → Ctx) : (s.modCtx f).dies = s.dies := rfl
@[simp] theorem State.modCtx_gov (s : State) (f : Ctx → Ctx) : (s.modCtx f).gov = s.gov := rfl
@[simp] theorem State.modCtx_windows (s : State) (f : Ctx → Ctx) : (s.modCtx f).windows = s.windows := rfl
@[simp] theorem State.modCtx_parts (s : State) (f : Ctx → Ctx) : (s.modCtx f).parts = s.parts := rfl
@[simp] theorem State.modCtx_gmem (s : State) (f : Ctx → Ctx) : (s.modCtx f).gmem = s.gmem := rfl
@[simp] theorem State.modCtx_poison (s : State) (f : Ctx → Ctx) : (s.modCtx f).poison = s.poison := rfl
@[simp] theorem State.modCtx_accs (s : State) (f : Ctx → Ctx) : (s.modCtx f).accs = s.accs := rfl
@[simp] theorem State.modCtx_msc (s : State) (f : Ctx → Ctx) : (s.modCtx f).msc = s.msc := rfl
@[simp] theorem State.modCtx_hbm (s : State) (f : Ctx → Ctx) : (s.modCtx f).hbm = s.hbm := rfl
@[simp] theorem State.modCtx_outLands (s : State) (f : Ctx → Ctx) : (s.modCtx f).outLands = s.outLands := rfl
@[simp] theorem State.modCtx_devs (s : State) (f : Ctx → Ctx) : (s.modCtx f).devs = s.devs := rfl
@[simp] theorem State.modCtx_outWrites (s : State) (f : Ctx → Ctx) : (s.modCtx f).outWrites = s.outWrites := rfl
@[simp] theorem State.modCtx_rels (s : State) (f : Ctx → Ctx) : (s.modCtx f).rels = s.rels := rfl
@[simp] theorem State.modCtx_jobs (s : State) (f : Ctx → Ctx) : (s.modCtx f).jobs = s.jobs := rfl
@[simp] theorem State.modCtx_atoms (s : State) (f : Ctx → Ctx) : (s.modCtx f).atoms = s.atoms := rfl
@[simp] theorem State.modCtx_saved (s : State) (f : Ctx → Ctx) : (s.modCtx f).saved = s.saved := rfl
@[simp] theorem State.modCtx_launches (s : State) (f : Ctx → Ctx) : (s.modCtx f).launches = s.launches := rfl
@[simp] theorem State.modCtx_reps (s : State) (f : Ctx → Ctx) : (s.modCtx f).reps = s.reps := rfl
@[simp] theorem State.modCtx_sltErr (s : State) (f : Ctx → Ctx) : (s.modCtx f).sltErr = s.sltErr := rfl
@[simp] theorem State.modCtx_mgtEvq (s : State) (f : Ctx → Ctx) : (s.modCtx f).mgtEvq = s.mgtEvq := rfl
@[simp] theorem State.modCtx_mgtEvhead (s : State) (f : Ctx → Ctx) : (s.modCtx f).mgtEvhead = s.mgtEvhead := rfl
@[simp] theorem State.modCtx_mgtRst (s : State) (f : Ctx → Ctx) : (s.modCtx f).mgtRst = s.mgtRst := rfl
@[simp] theorem State.modCtx_mgtInt (s : State) (f : Ctx → Ctx) : (s.modCtx f).mgtInt = s.mgtInt := rfl
@[simp] theorem State.modCtx_rasScrub (s : State) (f : Ctx → Ctx) : (s.modCtx f).rasScrub = s.rasScrub := rfl
@[simp] theorem State.modCtx_rasHits (s : State) (f : Ctx → Ctx) : (s.modCtx f).rasHits = s.rasHits := rfl
@[simp] theorem State.modCtx_rasRows (s : State) (f : Ctx → Ctx) : (s.modCtx f).rasRows = s.rasRows := rfl
@[simp] theorem State.modCtx_rasPass (s : State) (f : Ctx → Ctx) : (s.modCtx f).rasPass = s.rasPass := rfl
@[simp] theorem State.modCtx_idnSerial (s : State) (f : Ctx → Ctx) : (s.modCtx f).idnSerial = s.idnSerial := rfl
@[simp] theorem State.modCtx_idnPod (s : State) (f : Ctx → Ctx) : (s.modCtx f).idnPod = s.idnPod := rfl
@[simp] theorem State.modCtx_sigNext (s : State) (f : Ctx → Ctx) : (s.modCtx f).sigNext = s.sigNext := rfl
@[simp] theorem State.modCtx_minVersion (s : State) (f : Ctx → Ctx) : (s.modCtx f).minVersion = s.minVersion := rfl
@[simp] theorem State.modCtx_fwVersion (s : State) (f : Ctx → Ctx) : (s.modCtx f).fwVersion = s.fwVersion := rfl
@[simp] theorem State.modCtx_fwImage (s : State) (f : Ctx → Ctx) : (s.modCtx f).fwImage = s.fwImage := rfl
@[simp] theorem State.modCtx_fwSig (s : State) (f : Ctx → Ctx) : (s.modCtx f).fwSig = s.fwSig := rfl
@[simp] theorem State.modCtx_fwRuns (s : State) (f : Ctx → Ctx) : (s.modCtx f).fwRuns = s.fwRuns := rfl
@[simp] theorem State.modCtx_records (s : State) (f : Ctx → Ctx) : (s.modCtx f).records = s.records := rfl
@[simp] theorem State.modCtx_recovery (s : State) (f : Ctx → Ctx) : (s.modCtx f).recovery = s.recovery := rfl
@[simp] theorem State.modCtx_repair (s : State) (f : Ctx → Ctx) : (s.modCtx f).repair = s.repair := rfl
@[simp] theorem State.modCtx_selfFail (s : State) (f : Ctx → Ctx) : (s.modCtx f).selfFail = s.selfFail := rfl
@[simp] theorem State.modCtx_rhsCtl (s : State) (f : Ctx → Ctx) : (s.modCtx f).rhsCtl = s.rhsCtl := rfl
@[simp] theorem State.modCtx_mailbox (s : State) (f : Ctx → Ctx) : (s.modCtx f).mailbox = s.mailbox := rfl
@[simp] theorem State.modCtx_doorbell (s : State) (f : Ctx → Ctx) : (s.modCtx f).doorbell = s.doorbell := rfl
@[simp] theorem State.modCtx_hostOut (s : State) (f : Ctx → Ctx) : (s.modCtx f).hostOut = s.hostOut := rfl
@[simp] theorem State.modCtx_hostErr (s : State) (f : Ctx → Ctx) : (s.modCtx f).hostErr = s.hostErr := rfl
@[simp] theorem State.modCtx_quote (s : State) (f : Ctx → Ctx) : (s.modCtx f).quote = s.quote := rfl
@[simp] theorem State.modCtx_quoteExh (s : State) (f : Ctx → Ctx) : (s.modCtx f).quoteExh = s.quoteExh := rfl
@[simp] theorem State.modCtx_ports (s : State) (f : Ctx → Ctx) : (s.modCtx f).ports = s.ports := rfl
@[simp] theorem State.modCtx_uePart (s : State) (f : Ctx → Ctx) : (s.modCtx f).uePart = s.uePart := rfl
@[simp] theorem State.modCtx_intake (s : State) (f : Ctx → Ctx) : (s.modCtx f).intake = s.intake := rfl
@[simp] theorem State.modCtx_resets (s : State) (f : Ctx → Ctx) : (s.modCtx f).resets = s.resets := rfl
@[simp] theorem State.modCtx_nextId (s : State) (f : Ctx → Ctx) : (s.modCtx f).nextId = s.nextId := rfl
@[simp] theorem State.modCtx_freeCount (s : State) (f : Ctx → Ctx) : (s.modCtx f).freeCount = s.freeCount := rfl
@[simp] theorem State.modCtx_lastStop (s : State) (f : Ctx → Ctx) : (s.modCtx f).lastStop = s.lastStop := rfl
@[simp] theorem State.modCtx_moreStops (s : State) (f : Ctx → Ctx) : (s.modCtx f).moreStops = s.moreStops := rfl
@[simp] theorem State.modCtx_sched (s : State) (f : Ctx → Ctx) : (s.modCtx f).sched = s.sched := rfl
@[simp] theorem State.modCtx_agenda (s : State) (f : Ctx → Ctx) : (s.modCtx f).agenda = s.agenda := rfl

/-! An issue. -/

@[simp] theorem State.issued_time (s : State) (e o : Nat) (i : BitVec 4) : (s.issued e o i).time = s.time := rfl
@[simp] theorem State.issued_cur (s : State) (e o : Nat) (i : BitVec 4) : (s.issued e o i).cur = s.cur := rfl
@[simp] theorem State.issued_quads (s : State) (e o : Nat) (i : BitVec 4) : (s.issued e o i).quads = s.quads := rfl
@[simp] theorem State.issued_dies (s : State) (e o : Nat) (i : BitVec 4) : (s.issued e o i).dies = s.dies := rfl
@[simp] theorem State.issued_gov (s : State) (e o : Nat) (i : BitVec 4) : (s.issued e o i).gov = s.gov := rfl
@[simp] theorem State.issued_windows (s : State) (e o : Nat) (i : BitVec 4) : (s.issued e o i).windows = s.windows := rfl
@[simp] theorem State.issued_parts (s : State) (e o : Nat) (i : BitVec 4) : (s.issued e o i).parts = s.parts := rfl
@[simp] theorem State.issued_gmem (s : State) (e o : Nat) (i : BitVec 4) : (s.issued e o i).gmem = s.gmem := rfl
@[simp] theorem State.issued_poison (s : State) (e o : Nat) (i : BitVec 4) : (s.issued e o i).poison = s.poison := rfl
@[simp] theorem State.issued_accs (s : State) (e o : Nat) (i : BitVec 4) : (s.issued e o i).accs = s.accs := rfl
@[simp] theorem State.issued_msc (s : State) (e o : Nat) (i : BitVec 4) : (s.issued e o i).msc = s.msc := rfl
@[simp] theorem State.issued_hbm (s : State) (e o : Nat) (i : BitVec 4) : (s.issued e o i).hbm = s.hbm := rfl
@[simp] theorem State.issued_outLands (s : State) (e o : Nat) (i : BitVec 4) : (s.issued e o i).outLands = s.outLands := rfl
@[simp] theorem State.issued_devs (s : State) (e o : Nat) (i : BitVec 4) : (s.issued e o i).devs = s.devs := rfl
@[simp] theorem State.issued_outWrites (s : State) (e o : Nat) (i : BitVec 4) : (s.issued e o i).outWrites = s.outWrites := rfl
@[simp] theorem State.issued_rels (s : State) (e o : Nat) (i : BitVec 4) : (s.issued e o i).rels = s.rels := rfl
@[simp] theorem State.issued_jobs (s : State) (e o : Nat) (i : BitVec 4) : (s.issued e o i).jobs = s.jobs := rfl
@[simp] theorem State.issued_atoms (s : State) (e o : Nat) (i : BitVec 4) : (s.issued e o i).atoms = s.atoms := rfl
@[simp] theorem State.issued_saved (s : State) (e o : Nat) (i : BitVec 4) : (s.issued e o i).saved = s.saved := rfl
@[simp] theorem State.issued_launches (s : State) (e o : Nat) (i : BitVec 4) : (s.issued e o i).launches = s.launches := rfl
@[simp] theorem State.issued_reps (s : State) (e o : Nat) (i : BitVec 4) : (s.issued e o i).reps = s.reps := rfl
@[simp] theorem State.issued_sltErr (s : State) (e o : Nat) (i : BitVec 4) : (s.issued e o i).sltErr = s.sltErr := rfl
@[simp] theorem State.issued_mgtEvq (s : State) (e o : Nat) (i : BitVec 4) : (s.issued e o i).mgtEvq = s.mgtEvq := rfl
@[simp] theorem State.issued_mgtEvhead (s : State) (e o : Nat) (i : BitVec 4) : (s.issued e o i).mgtEvhead = s.mgtEvhead := rfl
@[simp] theorem State.issued_mgtRst (s : State) (e o : Nat) (i : BitVec 4) : (s.issued e o i).mgtRst = s.mgtRst := rfl
@[simp] theorem State.issued_mgtInt (s : State) (e o : Nat) (i : BitVec 4) : (s.issued e o i).mgtInt = s.mgtInt := rfl
@[simp] theorem State.issued_rasScrub (s : State) (e o : Nat) (i : BitVec 4) : (s.issued e o i).rasScrub = s.rasScrub := rfl
@[simp] theorem State.issued_rasHits (s : State) (e o : Nat) (i : BitVec 4) : (s.issued e o i).rasHits = s.rasHits := rfl
@[simp] theorem State.issued_rasRows (s : State) (e o : Nat) (i : BitVec 4) : (s.issued e o i).rasRows = s.rasRows := rfl
@[simp] theorem State.issued_rasPass (s : State) (e o : Nat) (i : BitVec 4) : (s.issued e o i).rasPass = s.rasPass := rfl
@[simp] theorem State.issued_idnSerial (s : State) (e o : Nat) (i : BitVec 4) : (s.issued e o i).idnSerial = s.idnSerial := rfl
@[simp] theorem State.issued_idnPod (s : State) (e o : Nat) (i : BitVec 4) : (s.issued e o i).idnPod = s.idnPod := rfl
@[simp] theorem State.issued_sigNext (s : State) (e o : Nat) (i : BitVec 4) : (s.issued e o i).sigNext = s.sigNext := rfl
@[simp] theorem State.issued_minVersion (s : State) (e o : Nat) (i : BitVec 4) : (s.issued e o i).minVersion = s.minVersion := rfl
@[simp] theorem State.issued_fwVersion (s : State) (e o : Nat) (i : BitVec 4) : (s.issued e o i).fwVersion = s.fwVersion := rfl
@[simp] theorem State.issued_fwImage (s : State) (e o : Nat) (i : BitVec 4) : (s.issued e o i).fwImage = s.fwImage := rfl
@[simp] theorem State.issued_fwSig (s : State) (e o : Nat) (i : BitVec 4) : (s.issued e o i).fwSig = s.fwSig := rfl
@[simp] theorem State.issued_fwRuns (s : State) (e o : Nat) (i : BitVec 4) : (s.issued e o i).fwRuns = s.fwRuns := rfl
@[simp] theorem State.issued_records (s : State) (e o : Nat) (i : BitVec 4) : (s.issued e o i).records = s.records := rfl
@[simp] theorem State.issued_recovery (s : State) (e o : Nat) (i : BitVec 4) : (s.issued e o i).recovery = s.recovery := rfl
@[simp] theorem State.issued_repair (s : State) (e o : Nat) (i : BitVec 4) : (s.issued e o i).repair = s.repair := rfl
@[simp] theorem State.issued_selfFail (s : State) (e o : Nat) (i : BitVec 4) : (s.issued e o i).selfFail = s.selfFail := rfl
@[simp] theorem State.issued_rhsCtl (s : State) (e o : Nat) (i : BitVec 4) : (s.issued e o i).rhsCtl = s.rhsCtl := rfl
@[simp] theorem State.issued_mailbox (s : State) (e o : Nat) (i : BitVec 4) : (s.issued e o i).mailbox = s.mailbox := rfl
@[simp] theorem State.issued_doorbell (s : State) (e o : Nat) (i : BitVec 4) : (s.issued e o i).doorbell = s.doorbell := rfl
@[simp] theorem State.issued_hostOut (s : State) (e o : Nat) (i : BitVec 4) : (s.issued e o i).hostOut = s.hostOut := rfl
@[simp] theorem State.issued_hostErr (s : State) (e o : Nat) (i : BitVec 4) : (s.issued e o i).hostErr = s.hostErr := rfl
@[simp] theorem State.issued_quote (s : State) (e o : Nat) (i : BitVec 4) : (s.issued e o i).quote = s.quote := rfl
@[simp] theorem State.issued_quoteExh (s : State) (e o : Nat) (i : BitVec 4) : (s.issued e o i).quoteExh = s.quoteExh := rfl
@[simp] theorem State.issued_ports (s : State) (e o : Nat) (i : BitVec 4) : (s.issued e o i).ports = s.ports := rfl
@[simp] theorem State.issued_uePart (s : State) (e o : Nat) (i : BitVec 4) : (s.issued e o i).uePart = s.uePart := rfl
@[simp] theorem State.issued_intake (s : State) (e o : Nat) (i : BitVec 4) : (s.issued e o i).intake = s.intake := rfl
@[simp] theorem State.issued_resets (s : State) (e o : Nat) (i : BitVec 4) : (s.issued e o i).resets = s.resets := rfl
@[simp] theorem State.issued_nextId (s : State) (e o : Nat) (i : BitVec 4) : (s.issued e o i).nextId = s.nextId := rfl
@[simp] theorem State.issued_freeCount (s : State) (e o : Nat) (i : BitVec 4) : (s.issued e o i).freeCount = s.freeCount := rfl
@[simp] theorem State.issued_lastStop (s : State) (e o : Nat) (i : BitVec 4) : (s.issued e o i).lastStop = s.lastStop := rfl
@[simp] theorem State.issued_moreStops (s : State) (e o : Nat) (i : BitVec 4) : (s.issued e o i).moreStops = s.moreStops := rfl
@[simp] theorem State.issued_sched (s : State) (e o : Nat) (i : BitVec 4) : (s.issued e o i).sched = s.sched := rfl
@[simp] theorem State.issued_agenda (s : State) (e o : Nat) (i : BitVec 4) : (s.issued e o i).agenda = s.agenda := rfl

/-! A CP effect. -/

@[simp] theorem State.eff_time (s : State) (e : CpEff) : (s.eff e).time = s.time := rfl
@[simp] theorem State.eff_cur (s : State) (e : CpEff) : (s.eff e).cur = s.cur := rfl
@[simp] theorem State.eff_quads (s : State) (e : CpEff) : (s.eff e).quads = s.quads := rfl
@[simp] theorem State.eff_dies (s : State) (e : CpEff) : (s.eff e).dies = s.dies := rfl
@[simp] theorem State.eff_gov (s : State) (e : CpEff) : (s.eff e).gov = s.gov := rfl
@[simp] theorem State.eff_windows (s : State) (e : CpEff) : (s.eff e).windows = s.windows := rfl
@[simp] theorem State.eff_parts (s : State) (e : CpEff) : (s.eff e).parts = s.parts := rfl
@[simp] theorem State.eff_gmem (s : State) (e : CpEff) : (s.eff e).gmem = s.gmem := rfl
@[simp] theorem State.eff_poison (s : State) (e : CpEff) : (s.eff e).poison = s.poison := rfl
@[simp] theorem State.eff_accs (s : State) (e : CpEff) : (s.eff e).accs = s.accs := rfl
@[simp] theorem State.eff_msc (s : State) (e : CpEff) : (s.eff e).msc = s.msc := rfl
@[simp] theorem State.eff_hbm (s : State) (e : CpEff) : (s.eff e).hbm = s.hbm := rfl
@[simp] theorem State.eff_outLands (s : State) (e : CpEff) : (s.eff e).outLands = s.outLands := rfl
@[simp] theorem State.eff_devs (s : State) (e : CpEff) : (s.eff e).devs = s.devs := rfl
@[simp] theorem State.eff_outWrites (s : State) (e : CpEff) : (s.eff e).outWrites = s.outWrites := rfl
@[simp] theorem State.eff_rels (s : State) (e : CpEff) : (s.eff e).rels = s.rels := rfl
@[simp] theorem State.eff_jobs (s : State) (e : CpEff) : (s.eff e).jobs = s.jobs := rfl
@[simp] theorem State.eff_atoms (s : State) (e : CpEff) : (s.eff e).atoms = s.atoms := rfl
@[simp] theorem State.eff_saved (s : State) (e : CpEff) : (s.eff e).saved = s.saved := rfl
@[simp] theorem State.eff_launches (s : State) (e : CpEff) : (s.eff e).launches = s.launches := rfl
@[simp] theorem State.eff_reps (s : State) (e : CpEff) : (s.eff e).reps = s.reps := rfl
@[simp] theorem State.eff_sltErr (s : State) (e : CpEff) : (s.eff e).sltErr = s.sltErr := rfl
@[simp] theorem State.eff_mgtEvq (s : State) (e : CpEff) : (s.eff e).mgtEvq = s.mgtEvq := rfl
@[simp] theorem State.eff_mgtEvhead (s : State) (e : CpEff) : (s.eff e).mgtEvhead = s.mgtEvhead := rfl
@[simp] theorem State.eff_mgtRst (s : State) (e : CpEff) : (s.eff e).mgtRst = s.mgtRst := rfl
@[simp] theorem State.eff_mgtInt (s : State) (e : CpEff) : (s.eff e).mgtInt = s.mgtInt := rfl
@[simp] theorem State.eff_rasScrub (s : State) (e : CpEff) : (s.eff e).rasScrub = s.rasScrub := rfl
@[simp] theorem State.eff_rasHits (s : State) (e : CpEff) : (s.eff e).rasHits = s.rasHits := rfl
@[simp] theorem State.eff_rasRows (s : State) (e : CpEff) : (s.eff e).rasRows = s.rasRows := rfl
@[simp] theorem State.eff_rasPass (s : State) (e : CpEff) : (s.eff e).rasPass = s.rasPass := rfl
@[simp] theorem State.eff_idnSerial (s : State) (e : CpEff) : (s.eff e).idnSerial = s.idnSerial := rfl
@[simp] theorem State.eff_idnPod (s : State) (e : CpEff) : (s.eff e).idnPod = s.idnPod := rfl
@[simp] theorem State.eff_sigNext (s : State) (e : CpEff) : (s.eff e).sigNext = s.sigNext := rfl
@[simp] theorem State.eff_minVersion (s : State) (e : CpEff) : (s.eff e).minVersion = s.minVersion := rfl
@[simp] theorem State.eff_fwVersion (s : State) (e : CpEff) : (s.eff e).fwVersion = s.fwVersion := rfl
@[simp] theorem State.eff_fwImage (s : State) (e : CpEff) : (s.eff e).fwImage = s.fwImage := rfl
@[simp] theorem State.eff_fwSig (s : State) (e : CpEff) : (s.eff e).fwSig = s.fwSig := rfl
@[simp] theorem State.eff_fwRuns (s : State) (e : CpEff) : (s.eff e).fwRuns = s.fwRuns := rfl
@[simp] theorem State.eff_records (s : State) (e : CpEff) : (s.eff e).records = s.records := rfl
@[simp] theorem State.eff_recovery (s : State) (e : CpEff) : (s.eff e).recovery = s.recovery := rfl
@[simp] theorem State.eff_repair (s : State) (e : CpEff) : (s.eff e).repair = s.repair := rfl
@[simp] theorem State.eff_selfFail (s : State) (e : CpEff) : (s.eff e).selfFail = s.selfFail := rfl
@[simp] theorem State.eff_rhsCtl (s : State) (e : CpEff) : (s.eff e).rhsCtl = s.rhsCtl := rfl
@[simp] theorem State.eff_mailbox (s : State) (e : CpEff) : (s.eff e).mailbox = s.mailbox := rfl
@[simp] theorem State.eff_doorbell (s : State) (e : CpEff) : (s.eff e).doorbell = s.doorbell := rfl
@[simp] theorem State.eff_hostOut (s : State) (e : CpEff) : (s.eff e).hostOut = s.hostOut := rfl
@[simp] theorem State.eff_hostErr (s : State) (e : CpEff) : (s.eff e).hostErr = s.hostErr := rfl
@[simp] theorem State.eff_quote (s : State) (e : CpEff) : (s.eff e).quote = s.quote := rfl
@[simp] theorem State.eff_quoteExh (s : State) (e : CpEff) : (s.eff e).quoteExh = s.quoteExh := rfl
@[simp] theorem State.eff_ports (s : State) (e : CpEff) : (s.eff e).ports = s.ports := rfl
@[simp] theorem State.eff_uePart (s : State) (e : CpEff) : (s.eff e).uePart = s.uePart := rfl
@[simp] theorem State.eff_intake (s : State) (e : CpEff) : (s.eff e).intake = s.intake := rfl
@[simp] theorem State.eff_resets (s : State) (e : CpEff) : (s.eff e).resets = s.resets := rfl
@[simp] theorem State.eff_nextId (s : State) (e : CpEff) : (s.eff e).nextId = s.nextId := rfl
@[simp] theorem State.eff_freeCount (s : State) (e : CpEff) : (s.eff e).freeCount = s.freeCount := rfl
@[simp] theorem State.eff_lastStop (s : State) (e : CpEff) : (s.eff e).lastStop = s.lastStop := rfl
@[simp] theorem State.eff_moreStops (s : State) (e : CpEff) : (s.eff e).moreStops = s.moreStops := rfl
@[simp] theorem State.eff_sched (s : State) (e : CpEff) : (s.eff e).sched = s.sched := rfl
@[simp] theorem State.eff_agenda (s : State) (e : CpEff) : (s.eff e).agenda = s.agenda := rfl

/-! Another core. -/

@[simp] theorem State.setAt_time (s : State) (c : Nat) (k : Core) : (s.setAt c k).time = s.time := by unfold State.setAt; split <;> rfl
@[simp] theorem State.setAt_cur (s : State) (c : Nat) (k : Core) : (s.setAt c k).cur = s.cur := by unfold State.setAt; split <;> rfl
@[simp] theorem State.setAt_quads (s : State) (c : Nat) (k : Core) : (s.setAt c k).quads = s.quads := by unfold State.setAt; split <;> rfl
@[simp] theorem State.setAt_dies (s : State) (c : Nat) (k : Core) : (s.setAt c k).dies = s.dies := by unfold State.setAt; split <;> rfl
@[simp] theorem State.setAt_gov (s : State) (c : Nat) (k : Core) : (s.setAt c k).gov = s.gov := by unfold State.setAt; split <;> rfl
@[simp] theorem State.setAt_windows (s : State) (c : Nat) (k : Core) : (s.setAt c k).windows = s.windows := by unfold State.setAt; split <;> rfl
@[simp] theorem State.setAt_parts (s : State) (c : Nat) (k : Core) : (s.setAt c k).parts = s.parts := by unfold State.setAt; split <;> rfl
@[simp] theorem State.setAt_gmem (s : State) (c : Nat) (k : Core) : (s.setAt c k).gmem = s.gmem := by unfold State.setAt; split <;> rfl
@[simp] theorem State.setAt_poison (s : State) (c : Nat) (k : Core) : (s.setAt c k).poison = s.poison := by unfold State.setAt; split <;> rfl
@[simp] theorem State.setAt_accs (s : State) (c : Nat) (k : Core) : (s.setAt c k).accs = s.accs := by unfold State.setAt; split <;> rfl
@[simp] theorem State.setAt_msc (s : State) (c : Nat) (k : Core) : (s.setAt c k).msc = s.msc := by unfold State.setAt; split <;> rfl
@[simp] theorem State.setAt_hbm (s : State) (c : Nat) (k : Core) : (s.setAt c k).hbm = s.hbm := by unfold State.setAt; split <;> rfl
@[simp] theorem State.setAt_outLands (s : State) (c : Nat) (k : Core) : (s.setAt c k).outLands = s.outLands := by unfold State.setAt; split <;> rfl
@[simp] theorem State.setAt_devs (s : State) (c : Nat) (k : Core) : (s.setAt c k).devs = s.devs := by unfold State.setAt; split <;> rfl
@[simp] theorem State.setAt_outWrites (s : State) (c : Nat) (k : Core) : (s.setAt c k).outWrites = s.outWrites := by unfold State.setAt; split <;> rfl
@[simp] theorem State.setAt_rels (s : State) (c : Nat) (k : Core) : (s.setAt c k).rels = s.rels := by unfold State.setAt; split <;> rfl
@[simp] theorem State.setAt_jobs (s : State) (c : Nat) (k : Core) : (s.setAt c k).jobs = s.jobs := by unfold State.setAt; split <;> rfl
@[simp] theorem State.setAt_atoms (s : State) (c : Nat) (k : Core) : (s.setAt c k).atoms = s.atoms := by unfold State.setAt; split <;> rfl
@[simp] theorem State.setAt_saved (s : State) (c : Nat) (k : Core) : (s.setAt c k).saved = s.saved := by unfold State.setAt; split <;> rfl
@[simp] theorem State.setAt_launches (s : State) (c : Nat) (k : Core) : (s.setAt c k).launches = s.launches := by unfold State.setAt; split <;> rfl
@[simp] theorem State.setAt_reps (s : State) (c : Nat) (k : Core) : (s.setAt c k).reps = s.reps := by unfold State.setAt; split <;> rfl
@[simp] theorem State.setAt_sltErr (s : State) (c : Nat) (k : Core) : (s.setAt c k).sltErr = s.sltErr := by unfold State.setAt; split <;> rfl
@[simp] theorem State.setAt_mgtEvq (s : State) (c : Nat) (k : Core) : (s.setAt c k).mgtEvq = s.mgtEvq := by unfold State.setAt; split <;> rfl
@[simp] theorem State.setAt_mgtEvhead (s : State) (c : Nat) (k : Core) : (s.setAt c k).mgtEvhead = s.mgtEvhead := by unfold State.setAt; split <;> rfl
@[simp] theorem State.setAt_mgtRst (s : State) (c : Nat) (k : Core) : (s.setAt c k).mgtRst = s.mgtRst := by unfold State.setAt; split <;> rfl
@[simp] theorem State.setAt_mgtInt (s : State) (c : Nat) (k : Core) : (s.setAt c k).mgtInt = s.mgtInt := by unfold State.setAt; split <;> rfl
@[simp] theorem State.setAt_rasScrub (s : State) (c : Nat) (k : Core) : (s.setAt c k).rasScrub = s.rasScrub := by unfold State.setAt; split <;> rfl
@[simp] theorem State.setAt_rasHits (s : State) (c : Nat) (k : Core) : (s.setAt c k).rasHits = s.rasHits := by unfold State.setAt; split <;> rfl
@[simp] theorem State.setAt_rasRows (s : State) (c : Nat) (k : Core) : (s.setAt c k).rasRows = s.rasRows := by unfold State.setAt; split <;> rfl
@[simp] theorem State.setAt_rasPass (s : State) (c : Nat) (k : Core) : (s.setAt c k).rasPass = s.rasPass := by unfold State.setAt; split <;> rfl
@[simp] theorem State.setAt_idnSerial (s : State) (c : Nat) (k : Core) : (s.setAt c k).idnSerial = s.idnSerial := by unfold State.setAt; split <;> rfl
@[simp] theorem State.setAt_idnPod (s : State) (c : Nat) (k : Core) : (s.setAt c k).idnPod = s.idnPod := by unfold State.setAt; split <;> rfl
@[simp] theorem State.setAt_sigNext (s : State) (c : Nat) (k : Core) : (s.setAt c k).sigNext = s.sigNext := by unfold State.setAt; split <;> rfl
@[simp] theorem State.setAt_minVersion (s : State) (c : Nat) (k : Core) : (s.setAt c k).minVersion = s.minVersion := by unfold State.setAt; split <;> rfl
@[simp] theorem State.setAt_fwVersion (s : State) (c : Nat) (k : Core) : (s.setAt c k).fwVersion = s.fwVersion := by unfold State.setAt; split <;> rfl
@[simp] theorem State.setAt_fwImage (s : State) (c : Nat) (k : Core) : (s.setAt c k).fwImage = s.fwImage := by unfold State.setAt; split <;> rfl
@[simp] theorem State.setAt_fwSig (s : State) (c : Nat) (k : Core) : (s.setAt c k).fwSig = s.fwSig := by unfold State.setAt; split <;> rfl
@[simp] theorem State.setAt_fwRuns (s : State) (c : Nat) (k : Core) : (s.setAt c k).fwRuns = s.fwRuns := by unfold State.setAt; split <;> rfl
@[simp] theorem State.setAt_records (s : State) (c : Nat) (k : Core) : (s.setAt c k).records = s.records := by unfold State.setAt; split <;> rfl
@[simp] theorem State.setAt_recovery (s : State) (c : Nat) (k : Core) : (s.setAt c k).recovery = s.recovery := by unfold State.setAt; split <;> rfl
@[simp] theorem State.setAt_repair (s : State) (c : Nat) (k : Core) : (s.setAt c k).repair = s.repair := by unfold State.setAt; split <;> rfl
@[simp] theorem State.setAt_selfFail (s : State) (c : Nat) (k : Core) : (s.setAt c k).selfFail = s.selfFail := by unfold State.setAt; split <;> rfl
@[simp] theorem State.setAt_rhsCtl (s : State) (c : Nat) (k : Core) : (s.setAt c k).rhsCtl = s.rhsCtl := by unfold State.setAt; split <;> rfl
@[simp] theorem State.setAt_mailbox (s : State) (c : Nat) (k : Core) : (s.setAt c k).mailbox = s.mailbox := by unfold State.setAt; split <;> rfl
@[simp] theorem State.setAt_doorbell (s : State) (c : Nat) (k : Core) : (s.setAt c k).doorbell = s.doorbell := by unfold State.setAt; split <;> rfl
@[simp] theorem State.setAt_hostOut (s : State) (c : Nat) (k : Core) : (s.setAt c k).hostOut = s.hostOut := by unfold State.setAt; split <;> rfl
@[simp] theorem State.setAt_hostErr (s : State) (c : Nat) (k : Core) : (s.setAt c k).hostErr = s.hostErr := by unfold State.setAt; split <;> rfl
@[simp] theorem State.setAt_quote (s : State) (c : Nat) (k : Core) : (s.setAt c k).quote = s.quote := by unfold State.setAt; split <;> rfl
@[simp] theorem State.setAt_quoteExh (s : State) (c : Nat) (k : Core) : (s.setAt c k).quoteExh = s.quoteExh := by unfold State.setAt; split <;> rfl
@[simp] theorem State.setAt_ports (s : State) (c : Nat) (k : Core) : (s.setAt c k).ports = s.ports := by unfold State.setAt; split <;> rfl
@[simp] theorem State.setAt_uePart (s : State) (c : Nat) (k : Core) : (s.setAt c k).uePart = s.uePart := by unfold State.setAt; split <;> rfl
@[simp] theorem State.setAt_intake (s : State) (c : Nat) (k : Core) : (s.setAt c k).intake = s.intake := by unfold State.setAt; split <;> rfl
@[simp] theorem State.setAt_resets (s : State) (c : Nat) (k : Core) : (s.setAt c k).resets = s.resets := by unfold State.setAt; split <;> rfl
@[simp] theorem State.setAt_nextId (s : State) (c : Nat) (k : Core) : (s.setAt c k).nextId = s.nextId := by unfold State.setAt; split <;> rfl
@[simp] theorem State.setAt_freeCount (s : State) (c : Nat) (k : Core) : (s.setAt c k).freeCount = s.freeCount := by unfold State.setAt; split <;> rfl
@[simp] theorem State.setAt_lastStop (s : State) (c : Nat) (k : Core) : (s.setAt c k).lastStop = s.lastStop := by unfold State.setAt; split <;> rfl
@[simp] theorem State.setAt_moreStops (s : State) (c : Nat) (k : Core) : (s.setAt c k).moreStops = s.moreStops := by unfold State.setAt; split <;> rfl
@[simp] theorem State.setAt_sched (s : State) (c : Nat) (k : Core) : (s.setAt c k).sched = s.sched := by unfold State.setAt; split <;> rfl
@[simp] theorem State.setAt_agenda (s : State) (c : Nat) (k : Core) : (s.setAt c k).agenda = s.agenda := by unfold State.setAt; split <;> rfl

/-! A change of a core. -/

@[simp] theorem State.modAt_time (s : State) (c : Nat) (f : Core → Core) : (s.modAt c f).time = s.time := by simp [State.modAt]
@[simp] theorem State.modAt_cur (s : State) (c : Nat) (f : Core → Core) : (s.modAt c f).cur = s.cur := by simp [State.modAt]
@[simp] theorem State.modAt_quads (s : State) (c : Nat) (f : Core → Core) : (s.modAt c f).quads = s.quads := by simp [State.modAt]
@[simp] theorem State.modAt_dies (s : State) (c : Nat) (f : Core → Core) : (s.modAt c f).dies = s.dies := by simp [State.modAt]
@[simp] theorem State.modAt_gov (s : State) (c : Nat) (f : Core → Core) : (s.modAt c f).gov = s.gov := by simp [State.modAt]
@[simp] theorem State.modAt_windows (s : State) (c : Nat) (f : Core → Core) : (s.modAt c f).windows = s.windows := by simp [State.modAt]
@[simp] theorem State.modAt_parts (s : State) (c : Nat) (f : Core → Core) : (s.modAt c f).parts = s.parts := by simp [State.modAt]
@[simp] theorem State.modAt_gmem (s : State) (c : Nat) (f : Core → Core) : (s.modAt c f).gmem = s.gmem := by simp [State.modAt]
@[simp] theorem State.modAt_poison (s : State) (c : Nat) (f : Core → Core) : (s.modAt c f).poison = s.poison := by simp [State.modAt]
@[simp] theorem State.modAt_accs (s : State) (c : Nat) (f : Core → Core) : (s.modAt c f).accs = s.accs := by simp [State.modAt]
@[simp] theorem State.modAt_msc (s : State) (c : Nat) (f : Core → Core) : (s.modAt c f).msc = s.msc := by simp [State.modAt]
@[simp] theorem State.modAt_hbm (s : State) (c : Nat) (f : Core → Core) : (s.modAt c f).hbm = s.hbm := by simp [State.modAt]
@[simp] theorem State.modAt_outLands (s : State) (c : Nat) (f : Core → Core) : (s.modAt c f).outLands = s.outLands := by simp [State.modAt]
@[simp] theorem State.modAt_devs (s : State) (c : Nat) (f : Core → Core) : (s.modAt c f).devs = s.devs := by simp [State.modAt]
@[simp] theorem State.modAt_outWrites (s : State) (c : Nat) (f : Core → Core) : (s.modAt c f).outWrites = s.outWrites := by simp [State.modAt]
@[simp] theorem State.modAt_rels (s : State) (c : Nat) (f : Core → Core) : (s.modAt c f).rels = s.rels := by simp [State.modAt]
@[simp] theorem State.modAt_jobs (s : State) (c : Nat) (f : Core → Core) : (s.modAt c f).jobs = s.jobs := by simp [State.modAt]
@[simp] theorem State.modAt_atoms (s : State) (c : Nat) (f : Core → Core) : (s.modAt c f).atoms = s.atoms := by simp [State.modAt]
@[simp] theorem State.modAt_saved (s : State) (c : Nat) (f : Core → Core) : (s.modAt c f).saved = s.saved := by simp [State.modAt]
@[simp] theorem State.modAt_launches (s : State) (c : Nat) (f : Core → Core) : (s.modAt c f).launches = s.launches := by simp [State.modAt]
@[simp] theorem State.modAt_reps (s : State) (c : Nat) (f : Core → Core) : (s.modAt c f).reps = s.reps := by simp [State.modAt]
@[simp] theorem State.modAt_sltErr (s : State) (c : Nat) (f : Core → Core) : (s.modAt c f).sltErr = s.sltErr := by simp [State.modAt]
@[simp] theorem State.modAt_mgtEvq (s : State) (c : Nat) (f : Core → Core) : (s.modAt c f).mgtEvq = s.mgtEvq := by simp [State.modAt]
@[simp] theorem State.modAt_mgtEvhead (s : State) (c : Nat) (f : Core → Core) : (s.modAt c f).mgtEvhead = s.mgtEvhead := by simp [State.modAt]
@[simp] theorem State.modAt_mgtRst (s : State) (c : Nat) (f : Core → Core) : (s.modAt c f).mgtRst = s.mgtRst := by simp [State.modAt]
@[simp] theorem State.modAt_mgtInt (s : State) (c : Nat) (f : Core → Core) : (s.modAt c f).mgtInt = s.mgtInt := by simp [State.modAt]
@[simp] theorem State.modAt_rasScrub (s : State) (c : Nat) (f : Core → Core) : (s.modAt c f).rasScrub = s.rasScrub := by simp [State.modAt]
@[simp] theorem State.modAt_rasHits (s : State) (c : Nat) (f : Core → Core) : (s.modAt c f).rasHits = s.rasHits := by simp [State.modAt]
@[simp] theorem State.modAt_rasRows (s : State) (c : Nat) (f : Core → Core) : (s.modAt c f).rasRows = s.rasRows := by simp [State.modAt]
@[simp] theorem State.modAt_rasPass (s : State) (c : Nat) (f : Core → Core) : (s.modAt c f).rasPass = s.rasPass := by simp [State.modAt]
@[simp] theorem State.modAt_idnSerial (s : State) (c : Nat) (f : Core → Core) : (s.modAt c f).idnSerial = s.idnSerial := by simp [State.modAt]
@[simp] theorem State.modAt_idnPod (s : State) (c : Nat) (f : Core → Core) : (s.modAt c f).idnPod = s.idnPod := by simp [State.modAt]
@[simp] theorem State.modAt_sigNext (s : State) (c : Nat) (f : Core → Core) : (s.modAt c f).sigNext = s.sigNext := by simp [State.modAt]
@[simp] theorem State.modAt_minVersion (s : State) (c : Nat) (f : Core → Core) : (s.modAt c f).minVersion = s.minVersion := by simp [State.modAt]
@[simp] theorem State.modAt_fwVersion (s : State) (c : Nat) (f : Core → Core) : (s.modAt c f).fwVersion = s.fwVersion := by simp [State.modAt]
@[simp] theorem State.modAt_fwImage (s : State) (c : Nat) (f : Core → Core) : (s.modAt c f).fwImage = s.fwImage := by simp [State.modAt]
@[simp] theorem State.modAt_fwSig (s : State) (c : Nat) (f : Core → Core) : (s.modAt c f).fwSig = s.fwSig := by simp [State.modAt]
@[simp] theorem State.modAt_fwRuns (s : State) (c : Nat) (f : Core → Core) : (s.modAt c f).fwRuns = s.fwRuns := by simp [State.modAt]
@[simp] theorem State.modAt_records (s : State) (c : Nat) (f : Core → Core) : (s.modAt c f).records = s.records := by simp [State.modAt]
@[simp] theorem State.modAt_recovery (s : State) (c : Nat) (f : Core → Core) : (s.modAt c f).recovery = s.recovery := by simp [State.modAt]
@[simp] theorem State.modAt_repair (s : State) (c : Nat) (f : Core → Core) : (s.modAt c f).repair = s.repair := by simp [State.modAt]
@[simp] theorem State.modAt_selfFail (s : State) (c : Nat) (f : Core → Core) : (s.modAt c f).selfFail = s.selfFail := by simp [State.modAt]
@[simp] theorem State.modAt_rhsCtl (s : State) (c : Nat) (f : Core → Core) : (s.modAt c f).rhsCtl = s.rhsCtl := by simp [State.modAt]
@[simp] theorem State.modAt_mailbox (s : State) (c : Nat) (f : Core → Core) : (s.modAt c f).mailbox = s.mailbox := by simp [State.modAt]
@[simp] theorem State.modAt_doorbell (s : State) (c : Nat) (f : Core → Core) : (s.modAt c f).doorbell = s.doorbell := by simp [State.modAt]
@[simp] theorem State.modAt_hostOut (s : State) (c : Nat) (f : Core → Core) : (s.modAt c f).hostOut = s.hostOut := by simp [State.modAt]
@[simp] theorem State.modAt_hostErr (s : State) (c : Nat) (f : Core → Core) : (s.modAt c f).hostErr = s.hostErr := by simp [State.modAt]
@[simp] theorem State.modAt_quote (s : State) (c : Nat) (f : Core → Core) : (s.modAt c f).quote = s.quote := by simp [State.modAt]
@[simp] theorem State.modAt_quoteExh (s : State) (c : Nat) (f : Core → Core) : (s.modAt c f).quoteExh = s.quoteExh := by simp [State.modAt]
@[simp] theorem State.modAt_ports (s : State) (c : Nat) (f : Core → Core) : (s.modAt c f).ports = s.ports := by simp [State.modAt]
@[simp] theorem State.modAt_uePart (s : State) (c : Nat) (f : Core → Core) : (s.modAt c f).uePart = s.uePart := by simp [State.modAt]
@[simp] theorem State.modAt_intake (s : State) (c : Nat) (f : Core → Core) : (s.modAt c f).intake = s.intake := by simp [State.modAt]
@[simp] theorem State.modAt_resets (s : State) (c : Nat) (f : Core → Core) : (s.modAt c f).resets = s.resets := by simp [State.modAt]
@[simp] theorem State.modAt_nextId (s : State) (c : Nat) (f : Core → Core) : (s.modAt c f).nextId = s.nextId := by simp [State.modAt]
@[simp] theorem State.modAt_freeCount (s : State) (c : Nat) (f : Core → Core) : (s.modAt c f).freeCount = s.freeCount := by simp [State.modAt]
@[simp] theorem State.modAt_lastStop (s : State) (c : Nat) (f : Core → Core) : (s.modAt c f).lastStop = s.lastStop := by simp [State.modAt]
@[simp] theorem State.modAt_moreStops (s : State) (c : Nat) (f : Core → Core) : (s.modAt c f).moreStops = s.moreStops := by simp [State.modAt]
@[simp] theorem State.modAt_sched (s : State) (c : Nat) (f : Core → Core) : (s.modAt c f).sched = s.sched := by simp [State.modAt]
@[simp] theorem State.modAt_agenda (s : State) (c : Nat) (f : Core → Core) : (s.modAt c f).agenda = s.agenda := by simp [State.modAt]

/-! A quad. -/

@[simp] theorem State.modQuad_time (s : State) (q : Nat) (f : Quad → Quad) : (s.modQuad q f).time = s.time := by unfold State.modQuad; split <;> rfl
@[simp] theorem State.modQuad_cores (s : State) (q : Nat) (f : Quad → Quad) : (s.modQuad q f).cores = s.cores := by unfold State.modQuad; split <;> rfl
@[simp] theorem State.modQuad_cur (s : State) (q : Nat) (f : Quad → Quad) : (s.modQuad q f).cur = s.cur := by unfold State.modQuad; split <;> rfl
@[simp] theorem State.modQuad_dies (s : State) (q : Nat) (f : Quad → Quad) : (s.modQuad q f).dies = s.dies := by unfold State.modQuad; split <;> rfl
@[simp] theorem State.modQuad_gov (s : State) (q : Nat) (f : Quad → Quad) : (s.modQuad q f).gov = s.gov := by unfold State.modQuad; split <;> rfl
@[simp] theorem State.modQuad_windows (s : State) (q : Nat) (f : Quad → Quad) : (s.modQuad q f).windows = s.windows := by unfold State.modQuad; split <;> rfl
@[simp] theorem State.modQuad_parts (s : State) (q : Nat) (f : Quad → Quad) : (s.modQuad q f).parts = s.parts := by unfold State.modQuad; split <;> rfl
@[simp] theorem State.modQuad_gmem (s : State) (q : Nat) (f : Quad → Quad) : (s.modQuad q f).gmem = s.gmem := by unfold State.modQuad; split <;> rfl
@[simp] theorem State.modQuad_poison (s : State) (q : Nat) (f : Quad → Quad) : (s.modQuad q f).poison = s.poison := by unfold State.modQuad; split <;> rfl
@[simp] theorem State.modQuad_accs (s : State) (q : Nat) (f : Quad → Quad) : (s.modQuad q f).accs = s.accs := by unfold State.modQuad; split <;> rfl
@[simp] theorem State.modQuad_msc (s : State) (q : Nat) (f : Quad → Quad) : (s.modQuad q f).msc = s.msc := by unfold State.modQuad; split <;> rfl
@[simp] theorem State.modQuad_hbm (s : State) (q : Nat) (f : Quad → Quad) : (s.modQuad q f).hbm = s.hbm := by unfold State.modQuad; split <;> rfl
@[simp] theorem State.modQuad_outLands (s : State) (q : Nat) (f : Quad → Quad) : (s.modQuad q f).outLands = s.outLands := by unfold State.modQuad; split <;> rfl
@[simp] theorem State.modQuad_devs (s : State) (q : Nat) (f : Quad → Quad) : (s.modQuad q f).devs = s.devs := by unfold State.modQuad; split <;> rfl
@[simp] theorem State.modQuad_outWrites (s : State) (q : Nat) (f : Quad → Quad) : (s.modQuad q f).outWrites = s.outWrites := by unfold State.modQuad; split <;> rfl
@[simp] theorem State.modQuad_rels (s : State) (q : Nat) (f : Quad → Quad) : (s.modQuad q f).rels = s.rels := by unfold State.modQuad; split <;> rfl
@[simp] theorem State.modQuad_jobs (s : State) (q : Nat) (f : Quad → Quad) : (s.modQuad q f).jobs = s.jobs := by unfold State.modQuad; split <;> rfl
@[simp] theorem State.modQuad_atoms (s : State) (q : Nat) (f : Quad → Quad) : (s.modQuad q f).atoms = s.atoms := by unfold State.modQuad; split <;> rfl
@[simp] theorem State.modQuad_saved (s : State) (q : Nat) (f : Quad → Quad) : (s.modQuad q f).saved = s.saved := by unfold State.modQuad; split <;> rfl
@[simp] theorem State.modQuad_launches (s : State) (q : Nat) (f : Quad → Quad) : (s.modQuad q f).launches = s.launches := by unfold State.modQuad; split <;> rfl
@[simp] theorem State.modQuad_reps (s : State) (q : Nat) (f : Quad → Quad) : (s.modQuad q f).reps = s.reps := by unfold State.modQuad; split <;> rfl
@[simp] theorem State.modQuad_sltErr (s : State) (q : Nat) (f : Quad → Quad) : (s.modQuad q f).sltErr = s.sltErr := by unfold State.modQuad; split <;> rfl
@[simp] theorem State.modQuad_mgtEvq (s : State) (q : Nat) (f : Quad → Quad) : (s.modQuad q f).mgtEvq = s.mgtEvq := by unfold State.modQuad; split <;> rfl
@[simp] theorem State.modQuad_mgtEvhead (s : State) (q : Nat) (f : Quad → Quad) : (s.modQuad q f).mgtEvhead = s.mgtEvhead := by unfold State.modQuad; split <;> rfl
@[simp] theorem State.modQuad_mgtRst (s : State) (q : Nat) (f : Quad → Quad) : (s.modQuad q f).mgtRst = s.mgtRst := by unfold State.modQuad; split <;> rfl
@[simp] theorem State.modQuad_mgtInt (s : State) (q : Nat) (f : Quad → Quad) : (s.modQuad q f).mgtInt = s.mgtInt := by unfold State.modQuad; split <;> rfl
@[simp] theorem State.modQuad_rasScrub (s : State) (q : Nat) (f : Quad → Quad) : (s.modQuad q f).rasScrub = s.rasScrub := by unfold State.modQuad; split <;> rfl
@[simp] theorem State.modQuad_rasHits (s : State) (q : Nat) (f : Quad → Quad) : (s.modQuad q f).rasHits = s.rasHits := by unfold State.modQuad; split <;> rfl
@[simp] theorem State.modQuad_rasRows (s : State) (q : Nat) (f : Quad → Quad) : (s.modQuad q f).rasRows = s.rasRows := by unfold State.modQuad; split <;> rfl
@[simp] theorem State.modQuad_rasPass (s : State) (q : Nat) (f : Quad → Quad) : (s.modQuad q f).rasPass = s.rasPass := by unfold State.modQuad; split <;> rfl
@[simp] theorem State.modQuad_idnSerial (s : State) (q : Nat) (f : Quad → Quad) : (s.modQuad q f).idnSerial = s.idnSerial := by unfold State.modQuad; split <;> rfl
@[simp] theorem State.modQuad_idnPod (s : State) (q : Nat) (f : Quad → Quad) : (s.modQuad q f).idnPod = s.idnPod := by unfold State.modQuad; split <;> rfl
@[simp] theorem State.modQuad_sigNext (s : State) (q : Nat) (f : Quad → Quad) : (s.modQuad q f).sigNext = s.sigNext := by unfold State.modQuad; split <;> rfl
@[simp] theorem State.modQuad_minVersion (s : State) (q : Nat) (f : Quad → Quad) : (s.modQuad q f).minVersion = s.minVersion := by unfold State.modQuad; split <;> rfl
@[simp] theorem State.modQuad_fwVersion (s : State) (q : Nat) (f : Quad → Quad) : (s.modQuad q f).fwVersion = s.fwVersion := by unfold State.modQuad; split <;> rfl
@[simp] theorem State.modQuad_fwImage (s : State) (q : Nat) (f : Quad → Quad) : (s.modQuad q f).fwImage = s.fwImage := by unfold State.modQuad; split <;> rfl
@[simp] theorem State.modQuad_fwSig (s : State) (q : Nat) (f : Quad → Quad) : (s.modQuad q f).fwSig = s.fwSig := by unfold State.modQuad; split <;> rfl
@[simp] theorem State.modQuad_fwRuns (s : State) (q : Nat) (f : Quad → Quad) : (s.modQuad q f).fwRuns = s.fwRuns := by unfold State.modQuad; split <;> rfl
@[simp] theorem State.modQuad_records (s : State) (q : Nat) (f : Quad → Quad) : (s.modQuad q f).records = s.records := by unfold State.modQuad; split <;> rfl
@[simp] theorem State.modQuad_recovery (s : State) (q : Nat) (f : Quad → Quad) : (s.modQuad q f).recovery = s.recovery := by unfold State.modQuad; split <;> rfl
@[simp] theorem State.modQuad_repair (s : State) (q : Nat) (f : Quad → Quad) : (s.modQuad q f).repair = s.repair := by unfold State.modQuad; split <;> rfl
@[simp] theorem State.modQuad_selfFail (s : State) (q : Nat) (f : Quad → Quad) : (s.modQuad q f).selfFail = s.selfFail := by unfold State.modQuad; split <;> rfl
@[simp] theorem State.modQuad_rhsCtl (s : State) (q : Nat) (f : Quad → Quad) : (s.modQuad q f).rhsCtl = s.rhsCtl := by unfold State.modQuad; split <;> rfl
@[simp] theorem State.modQuad_mailbox (s : State) (q : Nat) (f : Quad → Quad) : (s.modQuad q f).mailbox = s.mailbox := by unfold State.modQuad; split <;> rfl
@[simp] theorem State.modQuad_doorbell (s : State) (q : Nat) (f : Quad → Quad) : (s.modQuad q f).doorbell = s.doorbell := by unfold State.modQuad; split <;> rfl
@[simp] theorem State.modQuad_hostOut (s : State) (q : Nat) (f : Quad → Quad) : (s.modQuad q f).hostOut = s.hostOut := by unfold State.modQuad; split <;> rfl
@[simp] theorem State.modQuad_hostErr (s : State) (q : Nat) (f : Quad → Quad) : (s.modQuad q f).hostErr = s.hostErr := by unfold State.modQuad; split <;> rfl
@[simp] theorem State.modQuad_quote (s : State) (q : Nat) (f : Quad → Quad) : (s.modQuad q f).quote = s.quote := by unfold State.modQuad; split <;> rfl
@[simp] theorem State.modQuad_quoteExh (s : State) (q : Nat) (f : Quad → Quad) : (s.modQuad q f).quoteExh = s.quoteExh := by unfold State.modQuad; split <;> rfl
@[simp] theorem State.modQuad_ports (s : State) (q : Nat) (f : Quad → Quad) : (s.modQuad q f).ports = s.ports := by unfold State.modQuad; split <;> rfl
@[simp] theorem State.modQuad_uePart (s : State) (q : Nat) (f : Quad → Quad) : (s.modQuad q f).uePart = s.uePart := by unfold State.modQuad; split <;> rfl
@[simp] theorem State.modQuad_intake (s : State) (q : Nat) (f : Quad → Quad) : (s.modQuad q f).intake = s.intake := by unfold State.modQuad; split <;> rfl
@[simp] theorem State.modQuad_resets (s : State) (q : Nat) (f : Quad → Quad) : (s.modQuad q f).resets = s.resets := by unfold State.modQuad; split <;> rfl
@[simp] theorem State.modQuad_nextId (s : State) (q : Nat) (f : Quad → Quad) : (s.modQuad q f).nextId = s.nextId := by unfold State.modQuad; split <;> rfl
@[simp] theorem State.modQuad_freeCount (s : State) (q : Nat) (f : Quad → Quad) : (s.modQuad q f).freeCount = s.freeCount := by unfold State.modQuad; split <;> rfl
@[simp] theorem State.modQuad_lastStop (s : State) (q : Nat) (f : Quad → Quad) : (s.modQuad q f).lastStop = s.lastStop := by unfold State.modQuad; split <;> rfl
@[simp] theorem State.modQuad_moreStops (s : State) (q : Nat) (f : Quad → Quad) : (s.modQuad q f).moreStops = s.moreStops := by unfold State.modQuad; split <;> rfl
@[simp] theorem State.modQuad_sched (s : State) (q : Nat) (f : Quad → Quad) : (s.modQuad q f).sched = s.sched := by unfold State.modQuad; split <;> rfl
@[simp] theorem State.modQuad_agenda (s : State) (q : Nat) (f : Quad → Quad) : (s.modQuad q f).agenda = s.agenda := by unfold State.modQuad; split <;> rfl

/-! A die. -/

@[simp] theorem State.modDie_time (s : State) (d : Nat) (f : Die → Die) : (s.modDie d f).time = s.time := by unfold State.modDie; split <;> rfl
@[simp] theorem State.modDie_cores (s : State) (d : Nat) (f : Die → Die) : (s.modDie d f).cores = s.cores := by unfold State.modDie; split <;> rfl
@[simp] theorem State.modDie_cur (s : State) (d : Nat) (f : Die → Die) : (s.modDie d f).cur = s.cur := by unfold State.modDie; split <;> rfl
@[simp] theorem State.modDie_quads (s : State) (d : Nat) (f : Die → Die) : (s.modDie d f).quads = s.quads := by unfold State.modDie; split <;> rfl
@[simp] theorem State.modDie_gov (s : State) (d : Nat) (f : Die → Die) : (s.modDie d f).gov = s.gov := by unfold State.modDie; split <;> rfl
@[simp] theorem State.modDie_windows (s : State) (d : Nat) (f : Die → Die) : (s.modDie d f).windows = s.windows := by unfold State.modDie; split <;> rfl
@[simp] theorem State.modDie_parts (s : State) (d : Nat) (f : Die → Die) : (s.modDie d f).parts = s.parts := by unfold State.modDie; split <;> rfl
@[simp] theorem State.modDie_gmem (s : State) (d : Nat) (f : Die → Die) : (s.modDie d f).gmem = s.gmem := by unfold State.modDie; split <;> rfl
@[simp] theorem State.modDie_poison (s : State) (d : Nat) (f : Die → Die) : (s.modDie d f).poison = s.poison := by unfold State.modDie; split <;> rfl
@[simp] theorem State.modDie_accs (s : State) (d : Nat) (f : Die → Die) : (s.modDie d f).accs = s.accs := by unfold State.modDie; split <;> rfl
@[simp] theorem State.modDie_msc (s : State) (d : Nat) (f : Die → Die) : (s.modDie d f).msc = s.msc := by unfold State.modDie; split <;> rfl
@[simp] theorem State.modDie_hbm (s : State) (d : Nat) (f : Die → Die) : (s.modDie d f).hbm = s.hbm := by unfold State.modDie; split <;> rfl
@[simp] theorem State.modDie_outLands (s : State) (d : Nat) (f : Die → Die) : (s.modDie d f).outLands = s.outLands := by unfold State.modDie; split <;> rfl
@[simp] theorem State.modDie_devs (s : State) (d : Nat) (f : Die → Die) : (s.modDie d f).devs = s.devs := by unfold State.modDie; split <;> rfl
@[simp] theorem State.modDie_outWrites (s : State) (d : Nat) (f : Die → Die) : (s.modDie d f).outWrites = s.outWrites := by unfold State.modDie; split <;> rfl
@[simp] theorem State.modDie_rels (s : State) (d : Nat) (f : Die → Die) : (s.modDie d f).rels = s.rels := by unfold State.modDie; split <;> rfl
@[simp] theorem State.modDie_jobs (s : State) (d : Nat) (f : Die → Die) : (s.modDie d f).jobs = s.jobs := by unfold State.modDie; split <;> rfl
@[simp] theorem State.modDie_atoms (s : State) (d : Nat) (f : Die → Die) : (s.modDie d f).atoms = s.atoms := by unfold State.modDie; split <;> rfl
@[simp] theorem State.modDie_saved (s : State) (d : Nat) (f : Die → Die) : (s.modDie d f).saved = s.saved := by unfold State.modDie; split <;> rfl
@[simp] theorem State.modDie_launches (s : State) (d : Nat) (f : Die → Die) : (s.modDie d f).launches = s.launches := by unfold State.modDie; split <;> rfl
@[simp] theorem State.modDie_reps (s : State) (d : Nat) (f : Die → Die) : (s.modDie d f).reps = s.reps := by unfold State.modDie; split <;> rfl
@[simp] theorem State.modDie_sltErr (s : State) (d : Nat) (f : Die → Die) : (s.modDie d f).sltErr = s.sltErr := by unfold State.modDie; split <;> rfl
@[simp] theorem State.modDie_mgtEvq (s : State) (d : Nat) (f : Die → Die) : (s.modDie d f).mgtEvq = s.mgtEvq := by unfold State.modDie; split <;> rfl
@[simp] theorem State.modDie_mgtEvhead (s : State) (d : Nat) (f : Die → Die) : (s.modDie d f).mgtEvhead = s.mgtEvhead := by unfold State.modDie; split <;> rfl
@[simp] theorem State.modDie_mgtRst (s : State) (d : Nat) (f : Die → Die) : (s.modDie d f).mgtRst = s.mgtRst := by unfold State.modDie; split <;> rfl
@[simp] theorem State.modDie_mgtInt (s : State) (d : Nat) (f : Die → Die) : (s.modDie d f).mgtInt = s.mgtInt := by unfold State.modDie; split <;> rfl
@[simp] theorem State.modDie_rasScrub (s : State) (d : Nat) (f : Die → Die) : (s.modDie d f).rasScrub = s.rasScrub := by unfold State.modDie; split <;> rfl
@[simp] theorem State.modDie_rasHits (s : State) (d : Nat) (f : Die → Die) : (s.modDie d f).rasHits = s.rasHits := by unfold State.modDie; split <;> rfl
@[simp] theorem State.modDie_rasRows (s : State) (d : Nat) (f : Die → Die) : (s.modDie d f).rasRows = s.rasRows := by unfold State.modDie; split <;> rfl
@[simp] theorem State.modDie_rasPass (s : State) (d : Nat) (f : Die → Die) : (s.modDie d f).rasPass = s.rasPass := by unfold State.modDie; split <;> rfl
@[simp] theorem State.modDie_idnSerial (s : State) (d : Nat) (f : Die → Die) : (s.modDie d f).idnSerial = s.idnSerial := by unfold State.modDie; split <;> rfl
@[simp] theorem State.modDie_idnPod (s : State) (d : Nat) (f : Die → Die) : (s.modDie d f).idnPod = s.idnPod := by unfold State.modDie; split <;> rfl
@[simp] theorem State.modDie_sigNext (s : State) (d : Nat) (f : Die → Die) : (s.modDie d f).sigNext = s.sigNext := by unfold State.modDie; split <;> rfl
@[simp] theorem State.modDie_minVersion (s : State) (d : Nat) (f : Die → Die) : (s.modDie d f).minVersion = s.minVersion := by unfold State.modDie; split <;> rfl
@[simp] theorem State.modDie_fwVersion (s : State) (d : Nat) (f : Die → Die) : (s.modDie d f).fwVersion = s.fwVersion := by unfold State.modDie; split <;> rfl
@[simp] theorem State.modDie_fwImage (s : State) (d : Nat) (f : Die → Die) : (s.modDie d f).fwImage = s.fwImage := by unfold State.modDie; split <;> rfl
@[simp] theorem State.modDie_fwSig (s : State) (d : Nat) (f : Die → Die) : (s.modDie d f).fwSig = s.fwSig := by unfold State.modDie; split <;> rfl
@[simp] theorem State.modDie_fwRuns (s : State) (d : Nat) (f : Die → Die) : (s.modDie d f).fwRuns = s.fwRuns := by unfold State.modDie; split <;> rfl
@[simp] theorem State.modDie_records (s : State) (d : Nat) (f : Die → Die) : (s.modDie d f).records = s.records := by unfold State.modDie; split <;> rfl
@[simp] theorem State.modDie_recovery (s : State) (d : Nat) (f : Die → Die) : (s.modDie d f).recovery = s.recovery := by unfold State.modDie; split <;> rfl
@[simp] theorem State.modDie_repair (s : State) (d : Nat) (f : Die → Die) : (s.modDie d f).repair = s.repair := by unfold State.modDie; split <;> rfl
@[simp] theorem State.modDie_selfFail (s : State) (d : Nat) (f : Die → Die) : (s.modDie d f).selfFail = s.selfFail := by unfold State.modDie; split <;> rfl
@[simp] theorem State.modDie_rhsCtl (s : State) (d : Nat) (f : Die → Die) : (s.modDie d f).rhsCtl = s.rhsCtl := by unfold State.modDie; split <;> rfl
@[simp] theorem State.modDie_mailbox (s : State) (d : Nat) (f : Die → Die) : (s.modDie d f).mailbox = s.mailbox := by unfold State.modDie; split <;> rfl
@[simp] theorem State.modDie_doorbell (s : State) (d : Nat) (f : Die → Die) : (s.modDie d f).doorbell = s.doorbell := by unfold State.modDie; split <;> rfl
@[simp] theorem State.modDie_hostOut (s : State) (d : Nat) (f : Die → Die) : (s.modDie d f).hostOut = s.hostOut := by unfold State.modDie; split <;> rfl
@[simp] theorem State.modDie_hostErr (s : State) (d : Nat) (f : Die → Die) : (s.modDie d f).hostErr = s.hostErr := by unfold State.modDie; split <;> rfl
@[simp] theorem State.modDie_quote (s : State) (d : Nat) (f : Die → Die) : (s.modDie d f).quote = s.quote := by unfold State.modDie; split <;> rfl
@[simp] theorem State.modDie_quoteExh (s : State) (d : Nat) (f : Die → Die) : (s.modDie d f).quoteExh = s.quoteExh := by unfold State.modDie; split <;> rfl
@[simp] theorem State.modDie_ports (s : State) (d : Nat) (f : Die → Die) : (s.modDie d f).ports = s.ports := by unfold State.modDie; split <;> rfl
@[simp] theorem State.modDie_uePart (s : State) (d : Nat) (f : Die → Die) : (s.modDie d f).uePart = s.uePart := by unfold State.modDie; split <;> rfl
@[simp] theorem State.modDie_intake (s : State) (d : Nat) (f : Die → Die) : (s.modDie d f).intake = s.intake := by unfold State.modDie; split <;> rfl
@[simp] theorem State.modDie_resets (s : State) (d : Nat) (f : Die → Die) : (s.modDie d f).resets = s.resets := by unfold State.modDie; split <;> rfl
@[simp] theorem State.modDie_nextId (s : State) (d : Nat) (f : Die → Die) : (s.modDie d f).nextId = s.nextId := by unfold State.modDie; split <;> rfl
@[simp] theorem State.modDie_freeCount (s : State) (d : Nat) (f : Die → Die) : (s.modDie d f).freeCount = s.freeCount := by unfold State.modDie; split <;> rfl
@[simp] theorem State.modDie_lastStop (s : State) (d : Nat) (f : Die → Die) : (s.modDie d f).lastStop = s.lastStop := by unfold State.modDie; split <;> rfl
@[simp] theorem State.modDie_moreStops (s : State) (d : Nat) (f : Die → Die) : (s.modDie d f).moreStops = s.moreStops := by unfold State.modDie; split <;> rfl
@[simp] theorem State.modDie_sched (s : State) (d : Nat) (f : Die → Die) : (s.modDie d f).sched = s.sched := by unfold State.modDie; split <;> rfl
@[simp] theorem State.modDie_agenda (s : State) (d : Nat) (f : Die → Die) : (s.modDie d f).agenda = s.agenda := by unfold State.modDie; split <;> rfl

/-! A partition. -/

@[simp] theorem State.modPart_time (s : State) (p : Nat) (f : Part → Part) : (s.modPart p f).time = s.time := by unfold State.modPart; split <;> rfl
@[simp] theorem State.modPart_cores (s : State) (p : Nat) (f : Part → Part) : (s.modPart p f).cores = s.cores := by unfold State.modPart; split <;> rfl
@[simp] theorem State.modPart_cur (s : State) (p : Nat) (f : Part → Part) : (s.modPart p f).cur = s.cur := by unfold State.modPart; split <;> rfl
@[simp] theorem State.modPart_quads (s : State) (p : Nat) (f : Part → Part) : (s.modPart p f).quads = s.quads := by unfold State.modPart; split <;> rfl
@[simp] theorem State.modPart_dies (s : State) (p : Nat) (f : Part → Part) : (s.modPart p f).dies = s.dies := by unfold State.modPart; split <;> rfl
@[simp] theorem State.modPart_gov (s : State) (p : Nat) (f : Part → Part) : (s.modPart p f).gov = s.gov := by unfold State.modPart; split <;> rfl
@[simp] theorem State.modPart_windows (s : State) (p : Nat) (f : Part → Part) : (s.modPart p f).windows = s.windows := by unfold State.modPart; split <;> rfl
@[simp] theorem State.modPart_gmem (s : State) (p : Nat) (f : Part → Part) : (s.modPart p f).gmem = s.gmem := by unfold State.modPart; split <;> rfl
@[simp] theorem State.modPart_poison (s : State) (p : Nat) (f : Part → Part) : (s.modPart p f).poison = s.poison := by unfold State.modPart; split <;> rfl
@[simp] theorem State.modPart_accs (s : State) (p : Nat) (f : Part → Part) : (s.modPart p f).accs = s.accs := by unfold State.modPart; split <;> rfl
@[simp] theorem State.modPart_msc (s : State) (p : Nat) (f : Part → Part) : (s.modPart p f).msc = s.msc := by unfold State.modPart; split <;> rfl
@[simp] theorem State.modPart_hbm (s : State) (p : Nat) (f : Part → Part) : (s.modPart p f).hbm = s.hbm := by unfold State.modPart; split <;> rfl
@[simp] theorem State.modPart_outLands (s : State) (p : Nat) (f : Part → Part) : (s.modPart p f).outLands = s.outLands := by unfold State.modPart; split <;> rfl
@[simp] theorem State.modPart_devs (s : State) (p : Nat) (f : Part → Part) : (s.modPart p f).devs = s.devs := by unfold State.modPart; split <;> rfl
@[simp] theorem State.modPart_outWrites (s : State) (p : Nat) (f : Part → Part) : (s.modPart p f).outWrites = s.outWrites := by unfold State.modPart; split <;> rfl
@[simp] theorem State.modPart_rels (s : State) (p : Nat) (f : Part → Part) : (s.modPart p f).rels = s.rels := by unfold State.modPart; split <;> rfl
@[simp] theorem State.modPart_jobs (s : State) (p : Nat) (f : Part → Part) : (s.modPart p f).jobs = s.jobs := by unfold State.modPart; split <;> rfl
@[simp] theorem State.modPart_atoms (s : State) (p : Nat) (f : Part → Part) : (s.modPart p f).atoms = s.atoms := by unfold State.modPart; split <;> rfl
@[simp] theorem State.modPart_saved (s : State) (p : Nat) (f : Part → Part) : (s.modPart p f).saved = s.saved := by unfold State.modPart; split <;> rfl
@[simp] theorem State.modPart_launches (s : State) (p : Nat) (f : Part → Part) : (s.modPart p f).launches = s.launches := by unfold State.modPart; split <;> rfl
@[simp] theorem State.modPart_reps (s : State) (p : Nat) (f : Part → Part) : (s.modPart p f).reps = s.reps := by unfold State.modPart; split <;> rfl
@[simp] theorem State.modPart_sltErr (s : State) (p : Nat) (f : Part → Part) : (s.modPart p f).sltErr = s.sltErr := by unfold State.modPart; split <;> rfl
@[simp] theorem State.modPart_mgtEvq (s : State) (p : Nat) (f : Part → Part) : (s.modPart p f).mgtEvq = s.mgtEvq := by unfold State.modPart; split <;> rfl
@[simp] theorem State.modPart_mgtEvhead (s : State) (p : Nat) (f : Part → Part) : (s.modPart p f).mgtEvhead = s.mgtEvhead := by unfold State.modPart; split <;> rfl
@[simp] theorem State.modPart_mgtRst (s : State) (p : Nat) (f : Part → Part) : (s.modPart p f).mgtRst = s.mgtRst := by unfold State.modPart; split <;> rfl
@[simp] theorem State.modPart_mgtInt (s : State) (p : Nat) (f : Part → Part) : (s.modPart p f).mgtInt = s.mgtInt := by unfold State.modPart; split <;> rfl
@[simp] theorem State.modPart_rasScrub (s : State) (p : Nat) (f : Part → Part) : (s.modPart p f).rasScrub = s.rasScrub := by unfold State.modPart; split <;> rfl
@[simp] theorem State.modPart_rasHits (s : State) (p : Nat) (f : Part → Part) : (s.modPart p f).rasHits = s.rasHits := by unfold State.modPart; split <;> rfl
@[simp] theorem State.modPart_rasRows (s : State) (p : Nat) (f : Part → Part) : (s.modPart p f).rasRows = s.rasRows := by unfold State.modPart; split <;> rfl
@[simp] theorem State.modPart_rasPass (s : State) (p : Nat) (f : Part → Part) : (s.modPart p f).rasPass = s.rasPass := by unfold State.modPart; split <;> rfl
@[simp] theorem State.modPart_idnSerial (s : State) (p : Nat) (f : Part → Part) : (s.modPart p f).idnSerial = s.idnSerial := by unfold State.modPart; split <;> rfl
@[simp] theorem State.modPart_idnPod (s : State) (p : Nat) (f : Part → Part) : (s.modPart p f).idnPod = s.idnPod := by unfold State.modPart; split <;> rfl
@[simp] theorem State.modPart_sigNext (s : State) (p : Nat) (f : Part → Part) : (s.modPart p f).sigNext = s.sigNext := by unfold State.modPart; split <;> rfl
@[simp] theorem State.modPart_minVersion (s : State) (p : Nat) (f : Part → Part) : (s.modPart p f).minVersion = s.minVersion := by unfold State.modPart; split <;> rfl
@[simp] theorem State.modPart_fwVersion (s : State) (p : Nat) (f : Part → Part) : (s.modPart p f).fwVersion = s.fwVersion := by unfold State.modPart; split <;> rfl
@[simp] theorem State.modPart_fwImage (s : State) (p : Nat) (f : Part → Part) : (s.modPart p f).fwImage = s.fwImage := by unfold State.modPart; split <;> rfl
@[simp] theorem State.modPart_fwSig (s : State) (p : Nat) (f : Part → Part) : (s.modPart p f).fwSig = s.fwSig := by unfold State.modPart; split <;> rfl
@[simp] theorem State.modPart_fwRuns (s : State) (p : Nat) (f : Part → Part) : (s.modPart p f).fwRuns = s.fwRuns := by unfold State.modPart; split <;> rfl
@[simp] theorem State.modPart_records (s : State) (p : Nat) (f : Part → Part) : (s.modPart p f).records = s.records := by unfold State.modPart; split <;> rfl
@[simp] theorem State.modPart_recovery (s : State) (p : Nat) (f : Part → Part) : (s.modPart p f).recovery = s.recovery := by unfold State.modPart; split <;> rfl
@[simp] theorem State.modPart_repair (s : State) (p : Nat) (f : Part → Part) : (s.modPart p f).repair = s.repair := by unfold State.modPart; split <;> rfl
@[simp] theorem State.modPart_selfFail (s : State) (p : Nat) (f : Part → Part) : (s.modPart p f).selfFail = s.selfFail := by unfold State.modPart; split <;> rfl
@[simp] theorem State.modPart_rhsCtl (s : State) (p : Nat) (f : Part → Part) : (s.modPart p f).rhsCtl = s.rhsCtl := by unfold State.modPart; split <;> rfl
@[simp] theorem State.modPart_mailbox (s : State) (p : Nat) (f : Part → Part) : (s.modPart p f).mailbox = s.mailbox := by unfold State.modPart; split <;> rfl
@[simp] theorem State.modPart_doorbell (s : State) (p : Nat) (f : Part → Part) : (s.modPart p f).doorbell = s.doorbell := by unfold State.modPart; split <;> rfl
@[simp] theorem State.modPart_hostOut (s : State) (p : Nat) (f : Part → Part) : (s.modPart p f).hostOut = s.hostOut := by unfold State.modPart; split <;> rfl
@[simp] theorem State.modPart_hostErr (s : State) (p : Nat) (f : Part → Part) : (s.modPart p f).hostErr = s.hostErr := by unfold State.modPart; split <;> rfl
@[simp] theorem State.modPart_quote (s : State) (p : Nat) (f : Part → Part) : (s.modPart p f).quote = s.quote := by unfold State.modPart; split <;> rfl
@[simp] theorem State.modPart_quoteExh (s : State) (p : Nat) (f : Part → Part) : (s.modPart p f).quoteExh = s.quoteExh := by unfold State.modPart; split <;> rfl
@[simp] theorem State.modPart_ports (s : State) (p : Nat) (f : Part → Part) : (s.modPart p f).ports = s.ports := by unfold State.modPart; split <;> rfl
@[simp] theorem State.modPart_uePart (s : State) (p : Nat) (f : Part → Part) : (s.modPart p f).uePart = s.uePart := by unfold State.modPart; split <;> rfl
@[simp] theorem State.modPart_intake (s : State) (p : Nat) (f : Part → Part) : (s.modPart p f).intake = s.intake := by unfold State.modPart; split <;> rfl
@[simp] theorem State.modPart_resets (s : State) (p : Nat) (f : Part → Part) : (s.modPart p f).resets = s.resets := by unfold State.modPart; split <;> rfl
@[simp] theorem State.modPart_nextId (s : State) (p : Nat) (f : Part → Part) : (s.modPart p f).nextId = s.nextId := by unfold State.modPart; split <;> rfl
@[simp] theorem State.modPart_freeCount (s : State) (p : Nat) (f : Part → Part) : (s.modPart p f).freeCount = s.freeCount := by unfold State.modPart; split <;> rfl
@[simp] theorem State.modPart_lastStop (s : State) (p : Nat) (f : Part → Part) : (s.modPart p f).lastStop = s.lastStop := by unfold State.modPart; split <;> rfl
@[simp] theorem State.modPart_moreStops (s : State) (p : Nat) (f : Part → Part) : (s.modPart p f).moreStops = s.moreStops := by unfold State.modPart; split <;> rfl
@[simp] theorem State.modPart_sched (s : State) (p : Nat) (f : Part → Part) : (s.modPart p f).sched = s.sched := by unfold State.modPart; split <;> rfl
@[simp] theorem State.modPart_agenda (s : State) (p : Nat) (f : Part → Part) : (s.modPart p f).agenda = s.agenda := by unfold State.modPart; split <;> rfl

/-! A window. -/

@[simp] theorem State.modWindow_time (s : State) (w : Nat) (f : Window → Window) : (s.modWindow w f).time = s.time := by unfold State.modWindow; split <;> rfl
@[simp] theorem State.modWindow_cores (s : State) (w : Nat) (f : Window → Window) : (s.modWindow w f).cores = s.cores := by unfold State.modWindow; split <;> rfl
@[simp] theorem State.modWindow_cur (s : State) (w : Nat) (f : Window → Window) : (s.modWindow w f).cur = s.cur := by unfold State.modWindow; split <;> rfl
@[simp] theorem State.modWindow_quads (s : State) (w : Nat) (f : Window → Window) : (s.modWindow w f).quads = s.quads := by unfold State.modWindow; split <;> rfl
@[simp] theorem State.modWindow_dies (s : State) (w : Nat) (f : Window → Window) : (s.modWindow w f).dies = s.dies := by unfold State.modWindow; split <;> rfl
@[simp] theorem State.modWindow_gov (s : State) (w : Nat) (f : Window → Window) : (s.modWindow w f).gov = s.gov := by unfold State.modWindow; split <;> rfl
@[simp] theorem State.modWindow_parts (s : State) (w : Nat) (f : Window → Window) : (s.modWindow w f).parts = s.parts := by unfold State.modWindow; split <;> rfl
@[simp] theorem State.modWindow_gmem (s : State) (w : Nat) (f : Window → Window) : (s.modWindow w f).gmem = s.gmem := by unfold State.modWindow; split <;> rfl
@[simp] theorem State.modWindow_poison (s : State) (w : Nat) (f : Window → Window) : (s.modWindow w f).poison = s.poison := by unfold State.modWindow; split <;> rfl
@[simp] theorem State.modWindow_accs (s : State) (w : Nat) (f : Window → Window) : (s.modWindow w f).accs = s.accs := by unfold State.modWindow; split <;> rfl
@[simp] theorem State.modWindow_msc (s : State) (w : Nat) (f : Window → Window) : (s.modWindow w f).msc = s.msc := by unfold State.modWindow; split <;> rfl
@[simp] theorem State.modWindow_hbm (s : State) (w : Nat) (f : Window → Window) : (s.modWindow w f).hbm = s.hbm := by unfold State.modWindow; split <;> rfl
@[simp] theorem State.modWindow_outLands (s : State) (w : Nat) (f : Window → Window) : (s.modWindow w f).outLands = s.outLands := by unfold State.modWindow; split <;> rfl
@[simp] theorem State.modWindow_devs (s : State) (w : Nat) (f : Window → Window) : (s.modWindow w f).devs = s.devs := by unfold State.modWindow; split <;> rfl
@[simp] theorem State.modWindow_outWrites (s : State) (w : Nat) (f : Window → Window) : (s.modWindow w f).outWrites = s.outWrites := by unfold State.modWindow; split <;> rfl
@[simp] theorem State.modWindow_rels (s : State) (w : Nat) (f : Window → Window) : (s.modWindow w f).rels = s.rels := by unfold State.modWindow; split <;> rfl
@[simp] theorem State.modWindow_jobs (s : State) (w : Nat) (f : Window → Window) : (s.modWindow w f).jobs = s.jobs := by unfold State.modWindow; split <;> rfl
@[simp] theorem State.modWindow_atoms (s : State) (w : Nat) (f : Window → Window) : (s.modWindow w f).atoms = s.atoms := by unfold State.modWindow; split <;> rfl
@[simp] theorem State.modWindow_saved (s : State) (w : Nat) (f : Window → Window) : (s.modWindow w f).saved = s.saved := by unfold State.modWindow; split <;> rfl
@[simp] theorem State.modWindow_launches (s : State) (w : Nat) (f : Window → Window) : (s.modWindow w f).launches = s.launches := by unfold State.modWindow; split <;> rfl
@[simp] theorem State.modWindow_reps (s : State) (w : Nat) (f : Window → Window) : (s.modWindow w f).reps = s.reps := by unfold State.modWindow; split <;> rfl
@[simp] theorem State.modWindow_sltErr (s : State) (w : Nat) (f : Window → Window) : (s.modWindow w f).sltErr = s.sltErr := by unfold State.modWindow; split <;> rfl
@[simp] theorem State.modWindow_mgtEvq (s : State) (w : Nat) (f : Window → Window) : (s.modWindow w f).mgtEvq = s.mgtEvq := by unfold State.modWindow; split <;> rfl
@[simp] theorem State.modWindow_mgtEvhead (s : State) (w : Nat) (f : Window → Window) : (s.modWindow w f).mgtEvhead = s.mgtEvhead := by unfold State.modWindow; split <;> rfl
@[simp] theorem State.modWindow_mgtRst (s : State) (w : Nat) (f : Window → Window) : (s.modWindow w f).mgtRst = s.mgtRst := by unfold State.modWindow; split <;> rfl
@[simp] theorem State.modWindow_mgtInt (s : State) (w : Nat) (f : Window → Window) : (s.modWindow w f).mgtInt = s.mgtInt := by unfold State.modWindow; split <;> rfl
@[simp] theorem State.modWindow_rasScrub (s : State) (w : Nat) (f : Window → Window) : (s.modWindow w f).rasScrub = s.rasScrub := by unfold State.modWindow; split <;> rfl
@[simp] theorem State.modWindow_rasHits (s : State) (w : Nat) (f : Window → Window) : (s.modWindow w f).rasHits = s.rasHits := by unfold State.modWindow; split <;> rfl
@[simp] theorem State.modWindow_rasRows (s : State) (w : Nat) (f : Window → Window) : (s.modWindow w f).rasRows = s.rasRows := by unfold State.modWindow; split <;> rfl
@[simp] theorem State.modWindow_rasPass (s : State) (w : Nat) (f : Window → Window) : (s.modWindow w f).rasPass = s.rasPass := by unfold State.modWindow; split <;> rfl
@[simp] theorem State.modWindow_idnSerial (s : State) (w : Nat) (f : Window → Window) : (s.modWindow w f).idnSerial = s.idnSerial := by unfold State.modWindow; split <;> rfl
@[simp] theorem State.modWindow_idnPod (s : State) (w : Nat) (f : Window → Window) : (s.modWindow w f).idnPod = s.idnPod := by unfold State.modWindow; split <;> rfl
@[simp] theorem State.modWindow_sigNext (s : State) (w : Nat) (f : Window → Window) : (s.modWindow w f).sigNext = s.sigNext := by unfold State.modWindow; split <;> rfl
@[simp] theorem State.modWindow_minVersion (s : State) (w : Nat) (f : Window → Window) : (s.modWindow w f).minVersion = s.minVersion := by unfold State.modWindow; split <;> rfl
@[simp] theorem State.modWindow_fwVersion (s : State) (w : Nat) (f : Window → Window) : (s.modWindow w f).fwVersion = s.fwVersion := by unfold State.modWindow; split <;> rfl
@[simp] theorem State.modWindow_fwImage (s : State) (w : Nat) (f : Window → Window) : (s.modWindow w f).fwImage = s.fwImage := by unfold State.modWindow; split <;> rfl
@[simp] theorem State.modWindow_fwSig (s : State) (w : Nat) (f : Window → Window) : (s.modWindow w f).fwSig = s.fwSig := by unfold State.modWindow; split <;> rfl
@[simp] theorem State.modWindow_fwRuns (s : State) (w : Nat) (f : Window → Window) : (s.modWindow w f).fwRuns = s.fwRuns := by unfold State.modWindow; split <;> rfl
@[simp] theorem State.modWindow_records (s : State) (w : Nat) (f : Window → Window) : (s.modWindow w f).records = s.records := by unfold State.modWindow; split <;> rfl
@[simp] theorem State.modWindow_recovery (s : State) (w : Nat) (f : Window → Window) : (s.modWindow w f).recovery = s.recovery := by unfold State.modWindow; split <;> rfl
@[simp] theorem State.modWindow_repair (s : State) (w : Nat) (f : Window → Window) : (s.modWindow w f).repair = s.repair := by unfold State.modWindow; split <;> rfl
@[simp] theorem State.modWindow_selfFail (s : State) (w : Nat) (f : Window → Window) : (s.modWindow w f).selfFail = s.selfFail := by unfold State.modWindow; split <;> rfl
@[simp] theorem State.modWindow_rhsCtl (s : State) (w : Nat) (f : Window → Window) : (s.modWindow w f).rhsCtl = s.rhsCtl := by unfold State.modWindow; split <;> rfl
@[simp] theorem State.modWindow_mailbox (s : State) (w : Nat) (f : Window → Window) : (s.modWindow w f).mailbox = s.mailbox := by unfold State.modWindow; split <;> rfl
@[simp] theorem State.modWindow_doorbell (s : State) (w : Nat) (f : Window → Window) : (s.modWindow w f).doorbell = s.doorbell := by unfold State.modWindow; split <;> rfl
@[simp] theorem State.modWindow_hostOut (s : State) (w : Nat) (f : Window → Window) : (s.modWindow w f).hostOut = s.hostOut := by unfold State.modWindow; split <;> rfl
@[simp] theorem State.modWindow_hostErr (s : State) (w : Nat) (f : Window → Window) : (s.modWindow w f).hostErr = s.hostErr := by unfold State.modWindow; split <;> rfl
@[simp] theorem State.modWindow_quote (s : State) (w : Nat) (f : Window → Window) : (s.modWindow w f).quote = s.quote := by unfold State.modWindow; split <;> rfl
@[simp] theorem State.modWindow_quoteExh (s : State) (w : Nat) (f : Window → Window) : (s.modWindow w f).quoteExh = s.quoteExh := by unfold State.modWindow; split <;> rfl
@[simp] theorem State.modWindow_ports (s : State) (w : Nat) (f : Window → Window) : (s.modWindow w f).ports = s.ports := by unfold State.modWindow; split <;> rfl
@[simp] theorem State.modWindow_uePart (s : State) (w : Nat) (f : Window → Window) : (s.modWindow w f).uePart = s.uePart := by unfold State.modWindow; split <;> rfl
@[simp] theorem State.modWindow_intake (s : State) (w : Nat) (f : Window → Window) : (s.modWindow w f).intake = s.intake := by unfold State.modWindow; split <;> rfl
@[simp] theorem State.modWindow_resets (s : State) (w : Nat) (f : Window → Window) : (s.modWindow w f).resets = s.resets := by unfold State.modWindow; split <;> rfl
@[simp] theorem State.modWindow_nextId (s : State) (w : Nat) (f : Window → Window) : (s.modWindow w f).nextId = s.nextId := by unfold State.modWindow; split <;> rfl
@[simp] theorem State.modWindow_freeCount (s : State) (w : Nat) (f : Window → Window) : (s.modWindow w f).freeCount = s.freeCount := by unfold State.modWindow; split <;> rfl
@[simp] theorem State.modWindow_lastStop (s : State) (w : Nat) (f : Window → Window) : (s.modWindow w f).lastStop = s.lastStop := by unfold State.modWindow; split <;> rfl
@[simp] theorem State.modWindow_moreStops (s : State) (w : Nat) (f : Window → Window) : (s.modWindow w f).moreStops = s.moreStops := by unfold State.modWindow; split <;> rfl
@[simp] theorem State.modWindow_sched (s : State) (w : Nat) (f : Window → Window) : (s.modWindow w f).sched = s.sched := by unfold State.modWindow; split <;> rfl
@[simp] theorem State.modWindow_agenda (s : State) (w : Nat) (f : Window → Window) : (s.modWindow w f).agenda = s.agenda := by unfold State.modWindow; split <;> rfl

end Sys2Proof.Machine
end

