-- ==== Sys2Proof/Laws/Memory.lean ====
section
/-! SUPPORT. Memories: the canonical form, that every operation keeps it, and read after write. -/

namespace Sys2Proof.Machine

/-- Addresses strictly rise and no entry is zero. -/
theorem Memory.wf_iff (m : Mem) :
    Memory.wf m = true ↔ m.Pairwise (fun x y => x.1 < y.1) ∧ ∀ c ∈ m, c.2 ≠ 0#8 := by
  induction m using Memory.wf.induct with
  | case1 => simp [Memory.wf]
  | case2 a b => simp [Memory.wf]
  | case3 k b k' b' r ih =>
    simp only [Memory.wf, Bool.and_eq_true, ih, decide_eq_true_eq, bne_iff_ne, List.pairwise_cons, List.mem_cons,
      forall_eq_or_imp]
    constructor
    · rintro ⟨⟨hb, hk⟩, ⟨h1, h2⟩, h3, h4⟩
      exact ⟨⟨⟨hk, fun x hx => Nat.lt_trans hk (h1 x hx)⟩, h1, h2⟩, hb, h3, h4⟩
    · rintro ⟨⟨⟨hk, -⟩, h1, h2⟩, hb, h3, h4⟩
      exact ⟨⟨hb, hk⟩, ⟨h1, h2⟩, h3, h4⟩

@[simp] theorem Memory.wf_nil : Memory.wf [] = true := rfl

/-- Part of a canonical memory is canonical. -/
theorem Memory.wf_filter {m : Mem} (h : Memory.wf m = true) (p : Host.Cell → Bool) : Memory.wf (m.filter p) = true := by
  rw [Memory.wf_iff] at *
  exact ⟨h.1.filter p, fun c hc => h.2 c ((List.mem_filter.1 hc).1)⟩

/-- Two canonical memories, the second above the first. -/
theorem Memory.wf_append {m n : Mem} (hm : Memory.wf m = true) (hn : Memory.wf n = true)
    (h : ∀ x ∈ m, ∀ y ∈ n, x.1 < y.1) : Memory.wf (m ++ n) = true := by
  rw [Memory.wf_iff] at *
  refine ⟨List.pairwise_append.2 ⟨hm.1, hn.1, h⟩, fun c hc => ?_⟩
  rcases List.mem_append.1 hc with h | h
  · exact hm.2 c h
  · exact hn.2 c h

/-- The entries of a written memory. -/
theorem mem_memWrite {m : Mem} {a : Nat} {b : Byte} {c : Host.Cell} (h : c ∈ memWrite m a b) : c ∈ m ∨ (c = (a, b) ∧ b ≠ 0#8) := by
  induction m with
  | nil =>
    unfold memWrite at h
    split at h
    · simp at h
    · rename_i hb
      simp at h
      exact .inr ⟨h, hb⟩
  | cons x r ih =>
    unfold memWrite at h
    split at h
    · split at h
      · exact .inl h
      · rename_i hb
        rcases List.mem_cons.1 h with h | h
        · exact .inr ⟨h, hb⟩
        · exact .inl h
    · split at h
      · split at h
        · exact .inl (List.mem_cons_of_mem _ h)
        · rename_i hb
          rcases List.mem_cons.1 h with h | h
          · exact .inr ⟨h, hb⟩
          · exact .inl (List.mem_cons_of_mem _ h)
      · rcases List.mem_cons.1 h with h | h
        · exact .inl (h ▸ List.mem_cons_self)
        · rcases ih h with h | h
          · exact .inl (List.mem_cons_of_mem _ h)
          · exact .inr h

/-- A write keeps the canonical form. -/
theorem Memory.wf_memWrite {m : Mem} (h : Memory.wf m = true) (a : Nat) (b : Byte) : Memory.wf (memWrite m a b) = true := by
  induction m with
  | nil => by_cases hb : b = 0#8 <;> simp [memWrite, hb, Memory.wf]
  | cons x r ih =>
    obtain ⟨k, c⟩ := x
    have hw := (Memory.wf_iff _).1 h
    obtain ⟨hp, hz⟩ := hw
    rw [List.pairwise_cons] at hp
    have hr : Memory.wf r = true := (Memory.wf_iff _).2 ⟨hp.2, fun y hy => hz y (List.mem_cons_of_mem _ hy)⟩
    unfold memWrite
    split
    · split
      · exact h
      · rename_i hlt hb
        refine (Memory.wf_iff _).2 ⟨List.pairwise_cons.2 ⟨?_, List.pairwise_cons.2 hp⟩, ?_⟩
        · intro y hy
          rcases List.mem_cons.1 hy with rfl | hy
          · exact hlt
          · exact Nat.lt_trans hlt (hp.1 y hy)
        · intro y hy
          rcases List.mem_cons.1 hy with rfl | hy
          · exact hb
          · exact hz y hy
    · split
      · split
        · exact hr
        · rename_i hak hb
          subst hak
          refine (Memory.wf_iff _).2 ⟨List.pairwise_cons.2 hp, ?_⟩
          intro y hy
          rcases List.mem_cons.1 hy with rfl | hy
          · exact hb
          · exact hz y (List.mem_cons_of_mem _ hy)
      · rename_i h1 h2
        have hi := (Memory.wf_iff _).1 (ih hr)
        refine (Memory.wf_iff _).2 ⟨List.pairwise_cons.2 ⟨?_, hi.1⟩, ?_⟩
        · intro y hy
          rcases mem_memWrite hy with hy | ⟨rfl, -⟩
          · exact hp.1 y hy
          · show k < a
            omega
        · intro y hy
          rcases List.mem_cons.1 hy with rfl | hy
          · exact hz _ List.mem_cons_self
          · exact hi.2 y hy

theorem Memory.wf_memWriteCells {m : Mem} (h : Memory.wf m = true) (l : Mem) : Memory.wf (memWriteCells m l) = true := by
  induction l generalizing m with
  | nil => exact h
  | cons x r ih => exact ih (Memory.wf_memWrite h _ _)

/-- The entries of a block lie within it. -/
theorem mem_memBlock {a : Nat} {l : List Byte} {c : Host.Cell} (h : c ∈ memBlock a l) : a ≤ c.1 ∧ c.1 < a + l.length ∧ c.2 ≠ 0#8 := by
  induction l generalizing a with
  | nil => simp [memBlock] at h
  | cons b r ih =>
    unfold memBlock at h
    split at h
    · have := ih h
      simp only [List.length_cons]
      exact ⟨by omega, by omega, this.2.2⟩
    · rename_i hb
      rcases List.mem_cons.1 h with rfl | h
      · simp only [List.length_cons]
        exact ⟨Nat.le_refl _, by omega, hb⟩
      · have := ih h
        simp only [List.length_cons]
        exact ⟨by omega, by omega, this.2.2⟩

theorem Memory.wf_memBlock (a : Nat) (l : List Byte) : Memory.wf (memBlock a l) = true := by
  induction l generalizing a with
  | nil => rfl
  | cons b r ih =>
    unfold memBlock
    split
    · exact ih _
    · rename_i hb
      have hi := (Memory.wf_iff _).1 (ih (a + 1))
      refine (Memory.wf_iff _).2 ⟨List.pairwise_cons.2 ⟨fun y hy => ?_, hi.1⟩, fun y hy => ?_⟩
      · have := mem_memBlock hy
        show a < y.1
        omega
      · rcases List.mem_cons.1 hy with rfl | hy
        · exact hb
        · exact hi.2 y hy

/-- A block write keeps the canonical form. -/
theorem Memory.wf_memWriteN {m : Mem} (h : Memory.wf m = true) (a : Nat) (l : List Byte) :
    Memory.wf (memWriteN m a l) = true := by
  unfold memWriteN
  refine Memory.wf_append (Memory.wf_append (Memory.wf_filter h _) (Memory.wf_memBlock a l) ?_) (Memory.wf_filter h _) ?_
  · intro x hx y hy
    have h1 := mem_memBlock hy
    simp only [List.mem_filter, decide_eq_true_eq] at hx
    omega
  · intro x hx y hy
    simp only [List.mem_filter, decide_eq_true_eq] at hy
    rcases List.mem_append.1 hx with hx | hx
    · simp only [List.mem_filter, decide_eq_true_eq] at hx
      omega
    · have h1 := mem_memBlock hx
      omega

/-! Reads after writes. -/

/-- Below a canonical memory everything reads zero. -/
theorem memRead_below {m : Mem} {a : Nat} (h : ∀ c ∈ m, a < c.1) : memRead m a = 0#8 := by
  cases m with
  | nil => rfl
  | cons x r =>
    obtain ⟨k, b⟩ := x
    have := h (k, b) List.mem_cons_self
    simp only at this
    simp [memRead, this, show ¬ k = a by omega]

/-- The byte written is read. -/
theorem memRead_memWrite_same {m : Mem} (h : Memory.wf m = true) (a : Nat) (b : Byte) : memRead (memWrite m a b) a = b := by
  induction m with
  | nil => by_cases hb : b = 0#8 <;> simp [memWrite, memRead, hb]
  | cons x r ih =>
    obtain ⟨k, c⟩ := x
    obtain ⟨hp, hz⟩ := (Memory.wf_iff _).1 h
    rw [List.pairwise_cons] at hp
    have hr : Memory.wf r = true := (Memory.wf_iff _).2 ⟨hp.2, fun y hy => hz y (List.mem_cons_of_mem _ hy)⟩
    unfold memWrite
    split
    · rename_i hlt
      split
      · rename_i hb
        simp [memRead, hb, hlt, show ¬ k = a by omega]
      · simp [memRead]
    · split
      · rename_i hak
        subst hak
        split
        · rename_i hb
          rw [hb]
          exact memRead_below fun c hc => hp.1 c hc
        · simp [memRead]
      · rename_i h1 h2
        simp [memRead, show ¬ k = a by omega, show ¬ a < k by omega, ih hr]

/-- Every other byte reads as before. -/
theorem memRead_memWrite_other {m : Mem} (h : Memory.wf m = true) {a c : Nat} (b : Byte) (hac : c ≠ a) :
    memRead (memWrite m a b) c = memRead m c := by
  induction m with
  | nil =>
    by_cases hb : b = 0#8
    · simp [memWrite, hb]
    · simp [memWrite, hb, memRead, Ne.symm hac]
  | cons x r ih =>
    obtain ⟨k, v⟩ := x
    obtain ⟨hp, hz⟩ := (Memory.wf_iff _).1 h
    rw [List.pairwise_cons] at hp
    have hr : Memory.wf r = true := (Memory.wf_iff _).2 ⟨hp.2, fun y hy => hz y (List.mem_cons_of_mem _ hy)⟩
    unfold memWrite
    split
    · rename_i hlt
      split
      · rfl
      · show (if a = c then b else if c < a then 0#8 else memRead ((k, v) :: r) c) = _
        simp only [Ne.symm hac, if_false]
        split
        · rename_i hca
          simp [memRead, show ¬ k = c by omega, show c < k by omega]
        · rfl
    · split
      · rename_i hak
        subst hak
        split
        · rename_i hb
          show memRead r c = if a = c then v else if c < a then 0#8 else memRead r c
          simp only [Ne.symm hac, if_false]
          split
          · rename_i hca
            exact memRead_below fun y hy => Nat.lt_trans hca (hp.1 y hy)
          · rfl
        · simp [memRead, Ne.symm hac]
      · simp only [memRead]
        rw [ih hr]

/-- The memories of a core that lie in LM, IMEM, GCS, SPM and the supervisor's local memories stay canonical. -/
theorem Core.memOk_lmWrite {c : Core} (h : c.memOk) (u : Bool) (a : Nat) (b : Byte) : (c.lmWrite u a b).memOk := by
  obtain ⟨h1, h2, h3, h4, h5, h6⟩ := h
  unfold Core.lmWrite
  split
  · split
    · exact ⟨h1, h2, h3, h4, Memory.wf_memWrite h5 _ _, h6⟩
    · exact ⟨h1, h2, h3, h4, h5, h6⟩
  · split
    · exact ⟨Memory.wf_memWrite h1 _ _, h2, h3, h4, h5, h6⟩
    · exact ⟨h1, h2, h3, h4, h5, h6⟩

theorem Core.memOk_lmWriteN {c : Core} (h : c.memOk) (u : Bool) (a : Nat) (l : List Byte) : (c.lmWriteN u a l).memOk := by
  induction l generalizing c a with
  | nil => exact h
  | cons b r ih => exact ih (Core.memOk_lmWrite h u a b) _

theorem Core.memOk_lmWriteCells {c : Core} (h : c.memOk) (u : Bool) (l : Mem) : (c.lmWriteCells u l).memOk := by
  induction l generalizing c with
  | nil => exact h
  | cons b r ih => exact ih (Core.memOk_lmWrite h u _ _)

theorem Core.memOk_setTag {c : Core} (h : c.memOk) (u : Bool) (g : Nat) (t : W16) : (c.setTag u g t).memOk := by
  unfold Core.setTag
  split
  · exact h
  · split
    · exact h
    · exact h

theorem Core.memOk_noteBytes {c : Core} (h : c.memOk) (u : Bool) (a n : Nat) : (c.noteBytes u a n).memOk := by
  unfold Core.noteBytes
  split
  · exact h
  · exact h

theorem Core.memOk_landBytes {c : Core} (h : c.memOk) (u : Bool) (a : Nat) (l : List Byte) : (c.landBytes u a l).memOk :=
  Core.memOk_noteBytes (Core.memOk_lmWriteN h u a l) _ _ _

theorem Core.memOk_landTag {c : Core} (h : c.memOk) (u : Bool) (g : Nat) (t : W16) : (c.landTag u g t).memOk :=
  Core.memOk_setTag h u g t

end Sys2Proof.Machine
end

