-- ==== Sys2Proof/Laws/Bytes.lean ====
section
/-! SUPPORT. Bytes and numbers, and a memory read after its bytes are written. -/

namespace Sys2Proof.Machine

/-! Numbers as bytes, least first. -/

theorem natLe_length (n v : Nat) : (natLe n v).length = n := by
  induction n generalizing v with
  | zero => rfl
  | succ n ih => simp [natLe, ih]

/-- Byte `j` of a number. -/
theorem natLe_getElem? (n v j : Nat) (h : j < n) : (natLe n v)[j]? = some (BitVec.ofNat 8 (v / 256 ^ j)) := by
  induction n generalizing v j with
  | zero => omega
  | succ n ih =>
    unfold natLe
    cases j with
    | zero => simp
    | succ j => simp [ih _ j (by omega), Nat.pow_succ, Nat.div_div_eq_div_mul, Nat.mul_comm]

/-- A digit of the number that bytes spell. -/
theorem leNat_byte (l : List Byte) (j : Nat) (h : j < l.length) : leNat l / 256 ^ j % 256 = (l[j]).toNat := by
  induction l generalizing j with
  | nil => simp at h
  | cons b r ih =>
    unfold leNat
    have hb := b.isLt
    cases j with
    | zero => simp; omega
    | succ j =>
      have := ih j (by simpa using h)
      simp only [List.getElem_cons_succ]
      rw [← this, Nat.pow_succ, Nat.mul_comm (256 ^ j), ← Nat.div_div_eq_div_mul]
      congr 2; omega

theorem leNat_lt (l : List Byte) : leNat l < 256 ^ l.length := by
  induction l with
  | nil => simp [leNat]
  | cons b r ih => unfold leNat; have := b.isLt; simp only [List.length_cons, Nat.pow_succ]; omega

/-- A byte of the word that eight bytes spell. -/
theorem le64 (l : List Byte) (j : Nat) (h : l.length = 8) (hj : j < 8) :
    (BitVec.ofNat 64 (leNat l)).toNat / 256 ^ j % 256 = (l.getD j 0#8).toNat := by
  have := leNat_lt l
  rw [h] at this
  have h2 : leNat l % 2 ^ 64 = leNat l := Nat.mod_eq_of_lt (by omega)
  rw [BitVec.toNat_ofNat, h2, leNat_byte _ j (by omega)]
  simp [List.getD_eq_getElem?_getD, List.getElem?_eq_getElem (show j < l.length by omega)]

/-- The digits of a sum of weighted digits. -/
theorem dig_sum (B : Nat) (v : List Nat) (h : ∀ x ∈ v, x < B) (hB : 0 < B) :
    ∀ (n : Nat), (∀ k, k < v.length → (v.mapIdx fun i x => x * B ^ i).foldl (· + ·) 0 / B ^ k % B = v.getD k 0)
      ∧ (v.mapIdx fun i x => x * B ^ i).foldl (· + ·) 0 < B ^ v.length := by
  intro _
  have hs : ∀ (l : List Nat) (a : Nat), l.foldl (· + ·) a = a + l.foldl (· + ·) 0 := by
    intro l; induction l with
    | nil => intro a; rfl
    | cons x r ih => intro a; rw [List.foldl_cons, List.foldl_cons, ih, ih (0 + x)]; omega
  have hm : ∀ (l : List Nat) (c : Nat), (l.map fun x => c * x).foldl (· + ·) 0 = c * l.foldl (· + ·) 0 := by
    intro l c; induction l with
    | nil => rfl
    | cons x r ih => rw [List.map_cons, List.foldl_cons, List.foldl_cons, hs, hs _ (0 + x), ih, Nat.mul_add]; simp
  induction v with
  | nil => simp
  | cons x r ih =>
    obtain ⟨i1, i2⟩ := ih (fun y hy => h y (by simp [hy]))
    have hx := h x (by simp)
    have e : ((x :: r).mapIdx fun i x => x * B ^ i).foldl (· + ·) 0 = x + B * (r.mapIdx fun i x => x * B ^ i).foldl (· + ·) 0 := by
      rw [List.mapIdx_cons, List.foldl_cons, hs]
      have : (r.mapIdx fun i x => x * B ^ (i + 1)) = (r.mapIdx fun i x => x * B ^ i).map fun x => B * x := by
        apply List.ext_getElem?; intro k; simp only [List.getElem?_mapIdx, List.getElem?_map, Option.map_map]; congr 1; funext x; simp only [Function.comp, Nat.pow_succ]; rw [← Nat.mul_assoc, Nat.mul_comm]
      rw [this, hm]; simp
    rw [e]
    refine ⟨?_, ?_⟩
    · intro k hk
      cases k with
      | zero => simp [Nat.add_mul_mod_self_left, Nat.mod_eq_of_lt hx]
      | succ k =>
        rw [Nat.pow_succ, Nat.mul_comm (B ^ k), ← Nat.div_div_eq_div_mul, Nat.add_mul_div_left _ _ hB, Nat.div_eq_of_lt hx, Nat.zero_add]
        have := i1 k (by simpa using hk)
        simpa using this
    · rw [List.length_cons, Nat.pow_succ, Nat.mul_comm (B ^ _)]
      have : B * (r.mapIdx fun i x => x * B ^ i).foldl (· + ·) 0 + B ≤ B * B ^ r.length := by
        have := Nat.mul_le_mul_left B i2
        rw [Nat.mul_succ] at this; exact this
      omega

/-! Reads of a memory in pieces. -/

theorem memRead_append {m n : Mem} {a k : Nat} (hm : ∀ c ∈ m, c.1 < k) (hn : ∀ c ∈ n, k ≤ c.1) :
    memRead (m ++ n) a = if a < k then memRead m a else memRead n a := by
  induction m with
  | nil =>
    split
    · rename_i h
      show memRead n a = memRead [] a
      rw [memRead_below (fun c hc => Nat.lt_of_lt_of_le h (hn c hc))]; rfl
    · rfl
  | cons x r ih =>
    obtain ⟨q, b⟩ := x
    have hq := hm (q, b) (by simp)
    simp only [List.cons_append, memRead]
    have := ih (fun c hc => hm c (by simp [hc]))
    rw [this]
    dsimp only at hq
    split
    · rename_i e; rw [if_pos (by omega)]
    · split
      · rename_i e; split <;> first | rfl | omega
      · rfl

theorem memRead_filter_lt {m : Mem} (h : Memory.wf m = true) {a k : Nat} (hk : a < k) :
    memRead (m.filter fun c => decide (c.1 < k)) a = memRead m a := by
  rw [Memory.wf_iff] at h
  obtain ⟨h, -⟩ := h
  induction m with
  | nil => rfl
  | cons x r ih =>
    obtain ⟨q, b⟩ := x
    rw [List.pairwise_cons] at h
    have := ih h.2
    by_cases hq : q < k
    · simp [List.filter_cons, hq, memRead, this]
    · have e : (r.filter fun c => decide (c.1 < k)) = [] := by
        rw [List.filter_eq_nil_iff]; intro c hc; have := h.1 c hc; simp; omega
      simp [hq, e, memRead, show ¬ q = a by omega, show a < q by omega]

theorem memRead_filter_ge {m : Mem} (h : Memory.wf m = true) {a k : Nat} (hk : k ≤ a) :
    memRead (m.filter fun c => decide (k ≤ c.1)) a = memRead m a := by
  rw [Memory.wf_iff] at h
  obtain ⟨h, -⟩ := h
  induction m with
  | nil => rfl
  | cons x r ih =>
    obtain ⟨q, b⟩ := x
    rw [List.pairwise_cons] at h
    have := ih h.2
    by_cases hq : k ≤ q
    · simp [List.filter_cons, hq, memRead, this]
    · simp [List.filter_cons, hq, memRead, this, show ¬ q = a by omega, show ¬ a < q by omega]

/-- What a block of bytes reads as. -/
theorem memRead_block (a : Nat) (l : List Byte) (x : Nat) : memRead (memBlock a l) x = if a ≤ x then l.getD (x - a) 0#8 else 0#8 := by
  induction l generalizing a with
  | nil => simp [memBlock, memRead]
  | cons b r ih =>
    have hi := ih (a + 1)
    have e : ∀ y, memRead ((a, y) :: memBlock (a + 1) r) x = if a = x then y else if x < a then 0#8 else memRead (memBlock (a+1) r) x := fun _ => rfl
    unfold memBlock
    by_cases h : a = x
    · subst h
      split
      · rename_i h0; simp [hi, h0, show ¬ a + 1 ≤ a by omega]
      · simp [e]
    · by_cases h2 : a < x
      · have : x - a = (x - (a + 1)) + 1 := by omega
        split <;> simp [e, hi, h, show ¬ x < a by omega, show a + 1 ≤ x by omega, show a ≤ x by omega, this]
      · split <;> simp [e, hi, h, show x < a by omega, show ¬ a + 1 ≤ x by omega, show ¬ a ≤ x by omega]

/-- A read after a write of bytes: inside them the byte written, elsewhere what stood there. -/
theorem memRead_memWriteN {m : Mem} (h : Memory.wf m = true) (a : Nat) (l : List Byte) (x : Nat) :
    memRead (memWriteN m a l) x = if a ≤ x ∧ x < a + l.length then l.getD (x - a) 0#8 else memRead m x := by
  unfold memWriteN
  rw [memRead_append (k := a + l.length), memRead_append (k := a)]
  · by_cases h1 : x < a
    · rw [if_pos (by omega), if_pos h1, if_neg (by omega)]; exact memRead_filter_lt h h1
    · by_cases h2 : x < a + l.length
      · rw [if_pos h2, if_neg h1, if_pos (by omega), memRead_block, if_pos (by omega)]
      · rw [if_neg h2, if_neg (by omega)]; exact memRead_filter_ge h (by omega)
  · intro c hc; simpa using (List.mem_filter.1 hc).2
  · intro c hc; exact (mem_memBlock hc).1
  · intro c hc
    rcases List.mem_append.1 hc with hc | hc
    · have : c.1 < a := by simpa using (List.mem_filter.1 hc).2
      omega
    · exact (mem_memBlock hc).2.1
  · intro c hc; simpa using (List.mem_filter.1 hc).2

end Sys2Proof.Machine
end

