-- ==== Sys2Proof/Laws/Kept.lean ====
section
/-! SUPPORT. `Kept`: a step leaves what only firmware writes, and keeps every memory canonical. The rules of the relation,
and the lemma of each operation over memory, translation, caches and reports. -/

namespace Sys2Proof.Machine

namespace Kept

theorem refl (s : State) : Kept s s := ⟨rfl, id⟩

theorem trans {s t u : State} (h : Kept s t) (k : Kept t u) : Kept s u := ⟨k.firm.trans h.firm, k.canon ∘ h.canon⟩

/-- Where neither what firmware writes nor any memory differs. -/
theorem of_eq {s t : State} (hf : t.firm = s.firm) (hg : t.gmem = s.gmem) (hc : t.cores = s.cores) : Kept s t :=
  ⟨hf, fun h => ⟨hg ▸ h.1, fun c => by have := h.2 c; simp only [State.at, hc] at this ⊢; exact this⟩⟩

/-- The same after a step that keeps. -/
theorem then_eq {s t u : State} (h : Kept s t) (hf : u.firm = t.firm) (hg : u.gmem = t.gmem) (hc : u.cores = t.cores) : Kept s u :=
  h.trans (of_eq hf hg hc)

theorem foldl {α : Type} {f : State → α → State} (h : ∀ s x, Kept s (f s x)) (l : List α) (s : State) :
    Kept s (l.foldl f s) := by
  induction l generalizing s with
  | nil => exact refl s
  | cons x r ih => exact (h s x).trans (ih _)

/-- A fold over a state and something else. -/
theorem foldl_fst {α β : Type} {f : State × β → α → State × β} (h : ∀ s b x, Kept s (f (s, b) x).1) (l : List α) (s : State) (b : β) :
    Kept s (l.foldl f (s, b)).1 := by
  induction l generalizing s b with
  | nil => exact refl s
  | cons x r ih => exact (h s b x).trans (ih _ _)

end Kept

/-! Cores. -/

theorem Core.memOk_reset (c : Nat) : (Core.reset c).memOk := ⟨rfl, rfl, rfl, rfl, rfl, rfl⟩

theorem State.at_setAt (s : State) (c d : Nat) (k : Core) :
    (s.setAt c k).at d = if c = d ∧ c < 192 then k else s.at d := by
  unfold State.setAt State.at
  by_cases hc : c < 192
  · by_cases hd : d < 192
    · by_cases h : c = d
      · subst h
        simp [hc]
      · simp [hc, hd, h]
    · have : ¬ c = d := fun h => hd (h ▸ hc)
      simp [hc, hd, this]
  · simp [hc]

theorem State.core_eq_at (s : State) : s.core = s.at s.cur.val := by simp [State.core, State.at]

theorem State.mod_eq_setAt (s : State) (f : Core → Core) : s.mod f = s.setAt s.cur.val (f s.core) := by
  simp [State.mod, State.setAt]

theorem kept_setAt (s : State) (c : Nat) (k : Core) (h : s.canon → k.memOk) : Kept s (s.setAt c k) := by
  refine ⟨by simp [State.firm], fun hc => ⟨by simpa using hc.1, fun d => ?_⟩⟩
  rw [State.at_setAt]
  split
  · exact h hc
  · exact hc.2 d

theorem kept_modAt (s : State) (c : Nat) (f : Core → Core) (h : ∀ k, k.memOk → (f k).memOk) : Kept s (s.modAt c f) :=
  kept_setAt s c _ fun hc => h _ (hc.2 c)

theorem kept_mod (s : State) (f : Core → Core) (h : ∀ k, k.memOk → (f k).memOk) : Kept s (s.mod f) := by
  rw [State.mod_eq_setAt]
  exact kept_setAt s _ _ fun hc => h _ (by rw [State.core_eq_at]; exact hc.2 _)

theorem kept_modCtx (s : State) (f : Ctx → Ctx) (h : ∀ x, Memory.wf x.spm = true → Memory.wf (f x).spm = true) :
    Kept s (s.modCtx f) :=
  kept_mod s _ fun _ ⟨h1, h2, h3, h4, h5, h6⟩ => ⟨h1, h2, h3, h4, h5, h _ h6⟩

theorem kept_modGang (s : State) (c : Nat) (f : Core → Core) (h : ∀ k, k.memOk → (f k).memOk) : Kept s (s.modGang c f) :=
  Kept.foldl (fun s m => kept_modAt s m f h) _ s

theorem kept_raiseAt (s : State) (c : Nat) (f : Byte) : Kept s (s.raiseAt c f) := kept_modAt s c _ (by exact fun _ h => h)

/-! Quads, dies, windows, partitions. -/

theorem kept_modQuad (s : State) (q : Nat) (f : Quad → Quad) : Kept s (s.modQuad q f) := by
  refine Kept.of_eq (by simp [State.firm]) ?_ ?_ <;> simp

theorem kept_modDie (s : State) (q : Nat) (f : Die → Die) : Kept s (s.modDie q f) := by
  refine Kept.of_eq (by simp [State.firm]) ?_ ?_ <;> simp

theorem kept_modWindow (s : State) (q : Nat) (f : Window → Window) : Kept s (s.modWindow q f) := by
  refine Kept.of_eq (by simp [State.firm]) ?_ ?_ <;> simp

theorem State.shares_modPart (s : State) (p : Nat) (f : Part → Part) (h : ∀ P, (f P).share = P.share) :
    (s.modPart p f).parts.map Part.share = s.parts.map Part.share := by
  unfold State.modPart
  split
  · rename_i hp
    ext i hi
    simp only [Vector.getElem_map, Vector.getElem_set]
    split
    · rename_i he
      subst he
      rw [h]
    · rfl
  · rfl

theorem kept_modPart (s : State) (p : Nat) (f : Part → Part) (h : ∀ P, (f P).share = P.share) : Kept s (s.modPart p f) := by
  refine Kept.of_eq ?_ ?_ ?_
  · simp only [State.firm, State.modPart_gov, State.modPart_mgtEvq, State.modPart_rasScrub, State.modPart_sigNext,
      State.modPart_minVersion, State.modPart_fwVersion, State.modPart_fwImage, State.modPart_fwSig, State.modPart_fwRuns,
      State.modPart_records, State.modPart_recovery, State.modPart_repair, State.modPart_uePart,
      State.modPart_idnSerial, State.modPart_idnPod, State.modPart_rhsCtl, State.shares_modPart s p f h]
  · simp
  · simp

theorem kept_freeVal (s : State) : Kept s s.freeVal.2 := Kept.of_eq rfl rfl rfl
theorem kept_newId (s : State) : Kept s s.newId.2 := Kept.of_eq rfl rfl rfl

/-! Homes. -/

theorem kept_countDecoded (s : State) (w pa : Nat) : Kept s (s.countDecoded w pa) := by
  unfold State.countDecoded
  exact kept_modWindow s w _

theorem kept_mscTouch (s : State) (pa part : Nat) (ctx : W16) (wr : Bool) : Kept s (s.mscTouch pa part ctx wr) := by
  unfold State.mscTouch
  simp only
  split
  · split
    · exact Kept.of_eq rfl rfl rfl
    · exact Kept.refl s
  · split
    · exact Kept.refl s
    · exact Kept.of_eq rfl rfl rfl

theorem kept_homeTouch (s : State) (part : Nat) (ctx : W16) (pa : Nat) : Kept s (s.homeTouch part ctx pa) := by
  unfold State.homeTouch
  refine Kept.trans ?_ (kept_mscTouch _ _ _ _ _)
  split
  · split
    · exact kept_countDecoded s _ _
    · exact Kept.refl s
  · exact Kept.refl s

theorem kept_gmem (s : State) (m : Mem) (h : s.canon → Memory.wf m = true) : Kept s { s with gmem := m } :=
  ⟨rfl, fun hc => ⟨h hc, hc.2⟩⟩

theorem kept_homePut (s : State) (pa : Nat) (b : Byte) : Kept s (s.homePut pa b) := by
  unfold State.homePut
  split
  · exact kept_gmem s _ fun h => Memory.wf_memWrite h.1 _ _
  · exact kept_gmem s _ fun h => Memory.wf_memWrite h.1 _ _
  · split
    · exact kept_modAt s _ _ fun _ ⟨h1, h2, h3, h4, h5, h6⟩ => ⟨Memory.wf_memWrite h1 _ _, h2, h3, h4, h5, h6⟩
    · exact Kept.refl s
  · exact kept_gmem s _ fun h => Memory.wf_memWrite h.1 _ _
  all_goals exact Kept.refl s

theorem kept_undecode (s : State) (a n : Nat) : Kept s (s.undecode a n) := Kept.of_eq rfl rfl rfl

theorem kept_homeWrite (s : State) (part : Nat) (ctx : W16) (cells : List (Nat × Byte × Bool)) : Kept s (s.homeWrite part ctx cells) := by
  unfold State.homeWrite
  split
  · exact Kept.refl s
  · split
    · split
      · exact kept_modWindow s _ _
      · exact Kept.refl s
    · refine Kept.trans ?_ (kept_mscTouch _ _ _ _ _)
      refine Kept.then_eq (Kept.foldl (f := fun s (x : Nat × Byte × Bool) => (s.homePut x.1 x.2.1).undecode (s.normPa x.1) 1)
        (fun s x => (kept_homePut s x.1 x.2.1).trans (kept_undecode _ _ _)) _ s) rfl rfl rfl

theorem kept_nack (s : State) (q : Nat) : Kept s (s.nack q) := kept_modQuad s q _

theorem kept_nackAt (s : State) (pa : Nat) : Kept s (s.nackAt pa) := by
  unfold State.nackAt
  split
  · exact kept_nack s _
  · exact Kept.refl s

theorem kept_homeWriteN (s : State) (part : Nat) (ctx : W16) (pa : Nat) (b : List Byte) : Kept s (s.homeWriteN part ctx pa b) :=
  kept_homeWrite s part ctx _

/-! Translation. -/

theorem kept_walk (s : State) (w : Walker) (va : Nat) : Kept s (s.walk w va).2 := by
  unfold State.walk
  refine Kept.then_eq (Kept.trans (Kept.foldl ?_ _ s) (kept_modDie _ w.die _)) rfl rfl rfl
  exact fun s a => kept_homeTouch s w.part w.ctx a

theorem kept_countHit (s : State) (c : Nat) : Kept s (s.countHit c) := kept_modQuad s _ _

theorem kept_missIn (s : State) (q : Nat) (w : Walker) (va : Nat) : Kept s (s.missIn q w va).2 := by
  unfold State.missIn
  simp only
  have h := (kept_modQuad s q fun q => { q with trnMiss := satAdd48 q.trnMiss 1 }).trans (kept_walk
    (s.modQuad q fun q => { q with trnMiss := satAdd48 q.trnMiss 1 }) w va)
  revert h
  generalize State.walk _ _ va = x
  intro h
  obtain ⟨r, t⟩ := x
  cases r
  · exact h
  · simp only at h ⊢
    exact Kept.trans h (kept_modQuad t _ _)

theorem kept_lookupIn (s : State) (q : Nat) (w : Walker) (va : Nat) : Kept s (s.lookupIn q w va).2 := by
  unfold State.lookupIn
  split
  · exact kept_modQuad s q fun q => { q with trnHit := satAdd48 q.trnHit 1 }
  · exact kept_missIn s q w va

theorem kept_missWalk (s : State) (c va : Nat) : Kept s (s.missWalk c va).2 := kept_missIn s _ _ va

theorem kept_lookup (s : State) (c va : Nat) : Kept s (s.lookup c va).2 := kept_lookupIn s _ _ va

/-! Reports. -/

theorem kept_homeFill (s : State) (part : Nat) (ctx : W16) (pa : Nat) (b : List Byte) : Kept s (s.homeFill part ctx pa b) := by
  have h : ∀ a n : Nat, Kept s ((List.range n).foldl (fun s k => s.mscTouch (a + 128 * k) part ctx true) (s.undecode a b.length)) :=
    fun a n => (kept_undecode s a b.length).trans
      (Kept.foldl (f := fun s k => s.mscTouch (a + 128 * k) part ctx true) (fun s k => kept_mscTouch s _ part ctx true) _ _)
  unfold State.homeFill
  split
  · exact (h _ _).trans ⟨rfl, fun h => ⟨Memory.wf_memWriteN h.1 _ _, h.2⟩⟩
  · exact (h _ _).trans ⟨rfl, fun h => ⟨Memory.wf_memWriteN h.1 _ _, h.2⟩⟩
  · exact (h _ _).trans ⟨rfl, fun h => ⟨Memory.wf_memWriteN h.1 _ _, h.2⟩⟩
  · exact kept_homeWriteN s _ _ _ _

theorem kept_ownFill (s : State) (part : Nat) (ctx : W16) (pa : Nat) (b : List Byte) : Kept s (s.ownFill part ctx pa b) := by
  unfold State.ownFill
  refine Kept.foldl (fun s i => ?_) _ s
  dsimp only
  split
  · exact kept_homeFill s _ _ _ _
  · exact Kept.refl s

theorem kept_post (s : State) (k : EventKind) (part core ctx code lid addr : Nat) : Kept s (s.post k part core ctx code lid addr) :=
  (kept_homeFill s _ _ _ _).then_eq rfl rfl rfl

theorem kept_modLaunch (s : State) (p : Nat) (lid : W32) (f : Launch → Launch) : Kept s (s.modLaunch p lid f) :=
  Kept.of_eq rfl rfl rfl

theorem kept_reportRaw (s : State) (l : Launch) (st lvl phase tile core code res ramp hdc lcc : Nat) :
    Kept s (s.reportRaw l st lvl phase tile core code res ramp hdc lcc) := by
  unfold State.reportRaw
  simp only
  split
  · exact Kept.refl s
  · exact kept_homeFill s _ _ _ _

theorem kept_report (s : State) (p : Nat) (lid : W32) (st lvl phase tile core code ramp hdc lcc : Nat) :
    Kept s (s.report p lid st lvl phase tile core code ramp hdc lcc) := by
  unfold State.report
  split
  · exact Kept.refl s
  · split
    · exact Kept.refl s
    · exact Kept.of_eq rfl rfl rfl

theorem kept_putRep (s : State) (e : RepEntry) : Kept s (s.putRep e) := by
  unfold State.putRep
  split
  · exact Kept.refl s
  · exact (kept_reportRaw s _ _ _ _ _ _ _ _ _ _ _).trans (kept_modLaunch _ _ _ _)

theorem kept_putReps (s : State) : Kept s s.putReps := (Kept.foldl kept_putRep _ s).then_eq rfl rfl rfl

theorem kept_reportTask (s : State) (c : Nat) (st : TaskState) (code : Nat) : Kept s (s.reportTask c st code) := by
  unfold State.reportTask
  simp only
  split
  · exact Kept.refl s
  · exact (kept_modLaunch s _ _ _).trans (kept_report _ _ _ _ _ _ _ _ _ _ _ _)

/-! Caches. -/

theorem kept_homeLine (s : State) (c line : Nat) : Kept s (s.homeLine c line).2 := by
  unfold State.homeLine
  split
  · exact kept_nackAt s _
  · exact kept_homeTouch s _ _ _

theorem kept_sendHome (s : State) (part : Nat) (ctx : W16) (pa : Nat) (cells : Mem) : Kept s (s.sendHome part ctx pa cells) := by
  unfold State.sendHome
  split
  · exact kept_nackAt s _
  · exact kept_homeWrite s _ _ _

theorem kept_followVc (s : State) (c line : Nat) (cells : Mem) : Kept s (s.followVc c line cells) :=
  kept_modAt s c _ (by exact fun _ h => h)

theorem kept_cleanLine (s : State) (c : Nat) (x : Line) : Kept s (s.cleanLine c x) := by
  unfold State.cleanLine
  simp only
  split
  · exact Kept.refl s
  · exact ((kept_sendHome s _ _ _ _).trans (kept_followVc _ _ _ _)).trans (kept_modAt _ _ _ (by exact fun _ h => h))

theorem kept_applyUpdate (s : State) (part : Nat) (ctx : W16) (u : Update) : Kept s (s.applyUpdate part ctx u) := by
  unfold State.applyUpdate
  simp only
  split
  · exact kept_nackAt s _
  · split
    · exact Kept.refl s
    · split
      · exact (kept_homeWriteN s _ _ _ _).then_eq rfl rfl rfl
      · exact kept_homeWriteN s _ _ _ _

theorem kept_mergeAll (s : State) (c : Nat) : Kept s (s.mergeAll c) := by
  unfold State.mergeAll
  exact Kept.trans (Kept.foldl (fun s u => kept_applyUpdate s _ _ u) _ s) (kept_modAt _ _ _ (by exact fun _ h => h))

theorem kept_mergeLine (s : State) (c line : Nat) : Kept s (s.mergeLine c line) := by
  unfold State.mergeLine
  split
  · exact kept_mergeAll s c
  · exact Kept.refl s

theorem kept_evict (s : State) (c : Nat) (o : Option Line) : Kept s (s.evict c o) := by
  unfold State.evict
  split
  · exact Kept.refl s
  · exact (kept_mergeLine s c _).trans (kept_cleanLine _ _ _)

theorem kept_flushLines (s : State) (c : Nat) (p : Nat → Bool) : Kept s (s.flushLines c p) := by
  unfold State.flushLines
  refine Kept.foldl ?_ _ s
  intro s x
  exact (kept_mergeLine s c x.pa).trans (kept_cleanLine _ _ _)

theorem kept_dropLines (s : State) (c : Nat) (p : Nat → Bool) : Kept s (s.dropLines c p) := by
  unfold State.dropLines
  exact (kept_flushLines s c p).trans (kept_modAt _ _ _ (by exact fun _ h => h))

theorem kept_tickUse (s : State) (c : Nat) : Kept s (s.tickUse c).2 := by
  unfold State.tickUse
  dsimp only
  exact kept_modAt s c _ (by exact fun _ h => h)

theorem kept_vaultRequest (s : State) (c line va : Nat) (hint : BitVec 2) : Kept s (s.vaultRequest c line va hint).2 := by
  unfold State.vaultRequest
  have h0 := kept_tickUse s c
  revert h0
  generalize s.tickUse c = x
  intro h0
  obtain ⟨t, s'⟩ := x
  simp only
  split
  · dsimp only
    exact Kept.trans h0 (kept_modAt _ _ _ (by exact fun _ h => h))
  · dsimp only
    exact (Kept.trans h0 (kept_modAt s' c _ (by exact fun _ h => h))).trans
      ((kept_homeLine _ c line).trans (kept_modAt _ c _ (by exact fun _ h => h)))

theorem kept_l1Access (s : State) (c line : Nat) (hint : BitVec 2) : Kept s (s.l1Access c line hint).2 := by
  unfold State.l1Access
  dsimp only
  exact ((kept_tickUse s c).trans (kept_evict _ c _)).trans (kept_modAt _ c _ (by exact fun _ h => h))

theorem kept_lineRequest (s : State) (c line va : Nat) (hint : BitVec 2) (mt : Nat) (pref : Bool) :
    Kept s (s.lineRequest c line va hint mt pref).2 := by
  unfold State.lineRequest
  have h0 := kept_mergeLine s c line
  revert h0
  generalize s.mergeLine c line = s0
  intro h0
  simp only
  split
  · exact h0.trans (kept_homeLine _ _ _)
  · split
    · exact h0.trans (kept_homeLine _ _ _)
    · split
      · exact h0.trans (kept_vaultRequest _ _ _ _ _)
      · have h2 := h0.trans (kept_l1Access s0 c line hint)
        revert h2
        generalize s0.l1Access c line hint = x
        intro h2
        obtain ⟨a, s2⟩ := x
        dsimp only at h2 ⊢
        split
        · exact h2
        · split
          · dsimp only
            exact h2.trans ((kept_vaultRequest s2 _ _ _ _).trans (kept_modAt _ _ _ (by exact fun _ h => h)))
          · dsimp only
            exact h2.trans ((kept_homeLine s2 _ _).trans (kept_modAt _ _ _ (by exact fun _ h => h)))

theorem kept_countHint (s : State) (c : Nat) (hint : BitVec 2) (mt : Nat) : Kept s (s.countHint c hint mt) := by
  unfold State.countHint
  split
  · exact kept_modAt s c _ (by exact fun _ h => h)
  · exact Kept.refl s

theorem kept_wordActions (s : State) (c : Nat) (touch wr : Nat → Bool) : Kept s (s.wordActions c touch wr) := by
  unfold State.wordActions
  exact (kept_flushLines s c touch).trans (kept_dropLines _ c wr)

theorem kept_boundary (s : State) : Kept s s.boundary := by
  unfold State.boundary
  generalize List.range 192 = all
  simp only
  have h : Kept s (all.foldl (fun s c => s.flushLines c fun _ => true) s) :=
    Kept.foldl (fun s c => kept_flushLines s c _) all s
  revert h
  generalize all.foldl (fun s c => s.flushLines c fun _ => true) s = t
  intro h
  have h' : Kept s { t with accs := [] } := h.then_eq rfl rfl rfl
  exact h'.trans (Kept.foldl (fun s c => kept_dropLines s c _) all _)

end Sys2Proof.Machine
end

