-- ==== Sys2Proof/Laws/KeptOps.lean ====
section
/-! SUPPORT. `Kept` of the shared operations: issue, holds, taking a stop, the return from one; and of what a word or an
event comes to. -/

namespace Sys2Proof.Machine

/-- Every next state keeps. -/
def OutKept (s : State) (o : Out) : Prop := ∀ t, o = .next t → Kept s t

/-- Every state that a trial answers keeps. -/
def TryKept (s : State) : Try → Prop
  | .ok t => Kept s t
  | .stop _ _ => True
  | .stopIn t _ => Kept s t
  | .hold _ t _ => Kept s t

theorem outKept_next {s t : State} (h : Kept s t) : OutKept s (.next t) := by
  rintro u ⟨⟩
  exact h

theorem OutKept.of_kept {s t : State} {o : Out} (h : Kept s t) (k : OutKept t o) : OutKept s o := fun u hu => h.trans (k u hu)

theorem TryKept.of_kept {s t : State} {r : Try} (h : Kept s t) (k : TryKept t r) : TryKept s r := by
  cases r
  · exact h.trans k
  · exact trivial
  · exact h.trans k
  · exact h.trans k

/-! Issue and effects. -/

theorem Ctx.spm_issue (x : Ctx) (now e occ i : Nat) : (x.issue now e occ i).spm = x.spm := by
  unfold Ctx.issue Ctx.setQ
  simp only
  split
  · rfl
  · split <;> rfl

theorem kept_issued (s : State) (e occ : Nat) (i : BitVec 4) : Kept s (s.issued e occ i) :=
  kept_mod s _ fun _ ⟨h1, h2, h3, h4, h5, h6⟩ => ⟨h1, h2, h3, h4, h5, by rw [Ctx.spm_issue]; exact h6⟩

theorem Ctx.spm_setPend (x : Ctx) (e : Nat) (p : Pend) : (x.setPend e p).spm = x.spm := by
  unfold Ctx.setPend
  split <;> rfl

theorem kept_setPend (s : State) (e : Nat) (p : Ctx → Pend) : Kept s (s.modCtx fun x => x.setPend e (p x)) :=
  kept_modCtx s _ fun _ h => by rw [Ctx.spm_setPend]; exact h

theorem kept_eff (s : State) (e : CpEff) : Kept s (s.eff e) := kept_modCtx s _ (by exact fun _ h => h)

theorem kept_result (s : State) (i : BitVec 4) (lat : Nat) (v : W64) : Kept s (s.result i lat v) :=
  (kept_issued s 0 1 i).trans (kept_eff _ _)

theorem kept_addHold (s : State) (h : HoldCause) : Kept s (addHold s h) := kept_modGang s _ _ (by exact fun _ h => h)

/-! Stops. -/

theorem kept_writeFrame (s : State) (c : Nat) (st : Stopped) : Kept s (writeFrame s c st) := by
  unfold writeFrame
  simp only
  have h : ∀ f : Core → Core, (∀ k, k.memOk → (f k).memOk) → Kept s (s.modAt c f) := fun f hf => kept_modAt s c f hf
  split
  · exact h _ (by exact fun _ h => h)
  · refine (Kept.trans (h _ ?_) ((kept_newId _).trans (kept_ownFill _ _ _ _ _))).then_eq rfl rfl rfl
    exact fun _ h => h

theorem kept_escalate (s : State) (c code : Nat) : Kept s (escalate s c code) := by
  unfold escalate
  exact ((kept_post s _ _ _ _ _ _ _).trans (kept_reportTask _ _ _ _)).trans (kept_modGang _ _ _ (by exact fun _ h => h))

theorem kept_takeStop (s : State) (why : Stop) (rest : List Stop) (atEnd : Bool) (mask : W16) (ext : Option Nat) :
    Kept s (takeStop s why rest atEnd mask ext) := by
  unfold takeStop
  simp only
  have h0 : ∀ (a : List (Fin 192 × Act)) (w : Option Stop) (m : Bool), Kept s { s with agenda := a, lastStop := w, moreStops := m } :=
    fun _ _ _ => Kept.of_eq rfl rfl rfl
  split
  · refine Kept.trans ((h0 _ _ _).trans (Kept.foldl ?_ _ _)) (kept_escalate _ _ _)
    exact fun s m => kept_modAt s m _ (by exact fun _ h => h)
  · have h1 : ∀ (t : State) (l : List Nat) (f : State → Nat → Stopped),
        Kept t (l.foldl (fun s m => writeFrame s m (f s m)) t) := fun t l f =>
      Kept.foldl (fun s m => kept_writeFrame s m _) l t
    split
    · exact ((h0 _ _ _).trans (h1 _ _ _)).then_eq rfl rfl rfl
    · exact ((h0 _ _ _).trans (h1 _ _ _)).trans (kept_escalate _ _ _)

/-- The answer of a step keeps what the trial keeps. -/
theorem outKept_finish {s u : State} {r : Try} (h : Kept s u) (k : TryKept s r) : OutKept s (finish u r) := by
  cases r with
  | ok t => exact outKept_next k
  | stop c r => exact outKept_next (h.trans (kept_takeStop u _ _ _ _ _))
  | stopIn t c => exact outKept_next (k.trans (kept_takeStop t _ _ _ _ _))
  | hold c t r =>
    exact outKept_next ((k.trans (kept_addHold t c)).trans (Kept.foldl (fun s x => kept_addHold s x) _ _))

theorem outKept_finish_self {s : State} {r : Try} (k : TryKept s r) : OutKept s (finish s r) :=
  outKept_finish (Kept.refl s) k

/-! The return from a stop. -/

theorem kept_resumeCore (s : State) (c pa : Nat) (f : FrameRec) : Kept s (resumeCore s c pa f) := by
  unfold resumeCore
  simp only
  refine kept_modAt s c _ fun k ⟨h1, h2, h3, h4, h5, h6⟩ => ?_
  have hs : ∀ a b, Memory.wf (remapCtx (frameCtx s pa f) a b).spm = true := fun a b => by
    show Memory.wf (memWriteN [] 0 _) = true
    exact Memory.wf_memWriteN rfl _ _
  by_cases hc : f.core = c
  · simp only [if_pos hc]
    cases hp : f.stop.why.cls == .preemptSafe
    · exact ⟨h1, h2, h3, h4, h5, hs _ _⟩
    · exact ⟨Memory.wf_filter h1 _, h2, h3, h4, h5, hs _ _⟩
  · simp only [if_neg hc]
    cases hp : f.stop.why.cls == .preemptSafe
    · exact ⟨h1, h2, h3, h4, h5, hs _ _⟩
    · exact ⟨Memory.wf_filter h1 _, h2, h3, h4, h5, hs _ _⟩

end Sys2Proof.Machine
end

