-- ==== Sys2Proof/Laws/Cores.lean ====
section
/-! SUPPORT. A core of the machine after an update of one, and its near memory and tags after a write. -/

namespace Sys2Proof.Machine

/-! One core. -/

/-- Every core after an update of the current one. -/
theorem at_mod (s : State) (f : Core → Core) (c : Nat) : (s.mod f).at c = if c = s.cur.val then f s.core else s.at c := by
  unfold State.at State.mod State.core
  split
  · simp only [Fin.getElem_fin, Vector.getElem_set]
    split <;> split <;> first | rfl | omega
  · split
    · omega
    · rfl

theorem core_at (s : State) : s.at s.cur.val = s.core := by simp [State.at, State.core]

theorem at_setAt (s : State) (c d : Nat) (k : Core) : (s.setAt c k).at d = if c = d ∧ c < 192 then k else s.at d := by
  unfold State.setAt State.at
  by_cases h : c < 192
  · by_cases hd : d < 192
    · simp only [h, hd, dite_true, Vector.getElem_set, and_true]
    · simp only [h, hd, dite_true, dite_false]; rw [if_neg (by omega)]
  · simp [h]

theorem at_modAt (s : State) (c d : Nat) (f : Core → Core) : (s.modAt c f).at d = if c = d ∧ c < 192 then f (s.at d) else s.at d := by
  unfold State.modAt; rw [at_setAt]
  split
  · rename_i h; rw [h.1]
  · rfl

theorem at_modCtx (s : State) (f : Ctx → Ctx) (c : Nat) : (s.modCtx f).at c = if c = s.cur.val then { s.core with ctx := f s.core.ctx } else s.at c := at_mod s _ c

/-- An update that changes nothing. -/
theorem modAt_self (s : State) (c : Nat) (f : Core → Core) (h : f (s.at c) = s.at c) : s.modAt c f = s := by
  unfold State.modAt State.setAt
  rw [h]
  split
  · rename_i hc
    have : s.cores.set c (s.at c) hc = s.cores := by
      simp [State.at, hc]
    rw [this]
  · rfl

/-! Cells and tags of near memory. -/

theorem lmRead_lmWrite {c : Core} (h : c.memOk) (u : Bool) (a : Nat) (b : Byte) (v : Bool) (x : Nat) :
    (c.lmWrite u a b).lmRead v x = if a = x ∧ a < 0x200000 ∧ inSlm u a = inSlm v x then b else c.lmRead v x := by
  unfold Core.lmWrite Core.lmRead
  obtain ⟨h1, -, -, -, h5, -⟩ := h
  by_cases ha : a < 0x200000
  · by_cases hx : a = x
    · subst hx
      by_cases hu : inSlm u a = true <;> by_cases hv : inSlm v a = true <;>
        simp [hu, hv, ha, memRead_memWrite_same h1, memRead_memWrite_same h5]
    · by_cases hu : inSlm u a = true <;> by_cases hv : inSlm v x = true <;> simp [hu, hv, ha, hx]
      · have ge : ∀ w y, inSlm w y = true → 0x1FC000 ≤ y := by intro w y h; simp [inSlm] at h; exact h.2
        have := ge _ _ hu; have := ge _ _ hv
        exact memRead_memWrite_other h5 b (by omega)
      · exact memRead_memWrite_other h1 b (by omega)
  · by_cases hu : inSlm u a = true <;> simp [hu, ha]

/-- A byte read after bytes were written. -/
theorem lmRead_lmWriteN {c : Core} (h : c.memOk) (u : Bool) (a : Nat) (l : List Byte) (v : Bool) (x : Nat) :
    (c.lmWriteN u a l).lmRead v x = if a ≤ x ∧ x < a + l.length ∧ x < 0x200000 ∧ inSlm u x = inSlm v x then l.getD (x - a) 0#8 else c.lmRead v x := by
  induction l generalizing c a with
  | nil => simp [Core.lmWriteN]; omega
  | cons b r ih =>
    unfold Core.lmWriteN
    rw [ih (Core.memOk_lmWrite h u a b), lmRead_lmWrite h]
    by_cases hx : a = x
    · subst hx
      rw [if_neg (by omega)]
      by_cases hc : a < 0x200000 ∧ inSlm u a = inSlm v a
      · rw [if_pos ⟨rfl, hc⟩, if_pos ⟨by omega, by simp, hc⟩]; simp
      · rw [if_neg (by simp_all), if_neg (by simp_all)]
    · rw [if_neg (show ¬ (a = x ∧ _) by simp_all)]
      by_cases h2 : a ≤ x
      · have e : x - a = (x - (a + 1)) + 1 := by omega
        simp only [List.length_cons, e, List.getD_cons_succ]
        congr 1
        rw [eq_iff_iff]
        constructor <;> rintro ⟨_, _, h3⟩ <;> exact ⟨by omega, by omega, h3⟩
      · rw [if_neg (by omega), if_neg (by omega)]

/-- A byte outside the cells written. -/
theorem lmRead_cells {c : Core} (h : c.memOk) (u : Bool) (l : Mem) (v : Bool) (x : Nat) (hx : x ∉ l.map Prod.fst) :
    (c.lmWriteCells u l).lmRead v x = c.lmRead v x := by
  induction l generalizing c with
  | nil => rfl
  | cons y r ih =>
    obtain ⟨a, b⟩ := y
    simp only [List.map_cons, List.mem_cons, not_or] at hx
    unfold Core.lmWriteCells
    rw [ih (Core.memOk_lmWrite h u a b) hx.2, lmRead_lmWrite h, if_neg (fun q => hx.1 q.1.symm)]

/-- A byte among the cells written. -/
theorem lmRead_cells_in {c : Core} (h : c.memOk) (u : Bool) (l : Mem) (hp : (l.map Prod.fst).Pairwise (· ≠ ·)) (a : Nat) (b : Byte) (hm : (a, b) ∈ l) (ha : a < 0x200000) :
    (c.lmWriteCells u l).lmRead u a = b := by
  induction l generalizing c with
  | nil => simp at hm
  | cons y r ih =>
    obtain ⟨a', b'⟩ := y
    rw [List.map_cons, List.pairwise_cons] at hp
    unfold Core.lmWriteCells
    rcases List.mem_cons.1 hm with h1 | h1
    · cases h1
      have hn : a ∉ r.map Prod.fst := fun q => hp.1 _ q rfl
      rw [lmRead_cells (Core.memOk_lmWrite h u a b) u r u a hn, lmRead_lmWrite h, if_pos ⟨rfl, ha, rfl⟩]
    · exact ih (Core.memOk_lmWrite h u a' b') hp.2 h1

/-- What writing cells leaves. -/
theorem cells_frame (c : Core) (u : Bool) (l : Mem) : (c.lmWriteCells u l).imem = c.imem ∧ (c.lmWriteCells u l).gcs = c.gcs ∧ (c.lmWriteCells u l).simem = c.simem
   ∧ (c.lmWriteCells u l).ctx = c.ctx ∧ (c.lmWriteCells u l).tags = c.tags ∧ (c.lmWriteCells u l).slmTags = c.slmTags := by
  induction l generalizing c with
  | nil => exact ⟨rfl, rfl, rfl, rfl, rfl, rfl⟩
  | cons y r ih =>
    obtain ⟨a, b⟩ := y
    unfold Core.lmWriteCells
    obtain ⟨h1, h2, h3, h4, h5, h6⟩ := ih (c.lmWrite u a b)
    rw [h1, h2, h3, h4, h5, h6]
    unfold Core.lmWrite
    split <;> split <;> exact ⟨rfl, rfl, rfl, rfl, rfl, rfl⟩

theorem tagLook_filter (l : List (Nat × W16)) (g h : Nat) : tagLook (l.filter fun x => x.1 != g) h = if h = g then 0#16 else tagLook l h := by
  induction l with
  | nil => simp [tagLook]
  | cons x r ih =>
    obtain ⟨k, u⟩ := x
    by_cases hk : k = g
    · subst hk; simp only [bne_self_eq_false, Bool.false_eq_true, not_false_eq_true, List.filter_cons_of_neg, ih, tagLook]; by_cases e : h = k <;> simp [e, eq_comm]
    · simp [hk, tagLook, ih]; split
      · rename_i e; subst e; simp [hk]
      · rfl

theorem tagLook_ins (l : List (Nat × W16)) (g : Nat) (t : W16) (h : Nat) : tagLook (tagIns l g t) h = if h = g then t else tagLook l h := by
  induction l with
  | nil => unfold tagIns; simp only [tagLook]; by_cases e : h = g
           · rw [if_pos e.symm, if_pos e]
           · rw [if_neg (Ne.symm e), if_neg e]
  | cons x r ih =>
    obtain ⟨k, u⟩ := x
    unfold tagIns
    split
    · simp only [tagLook]
      by_cases e : h = g
      · rw [if_pos e.symm, if_pos e]
      · rw [if_neg (Ne.symm e), if_neg e]
    · split
      · simp only [tagLook]; subst_vars; split <;> split <;> first | rfl | omega
      · simp only [tagLook, ih]
        split
        · split <;> first | rfl | omega
        · rfl

theorem tagLook_put (l : List (Nat × W16)) (g : Nat) (t : W16) (h : Nat) : tagLook (tagPut l g t) h = if h = g then t else tagLook l h := by
  unfold tagPut
  split
  · rename_i e; rw [tagLook_filter, e]
  · exact tagLook_ins l g t h

/-- A tag read after one was set. -/
theorem tag_setTag (c : Core) (u : Bool) (g : Nat) (t : W16) (v : Bool) (h : Nat) :
    (h ≠ g → (c.setTag u g t).tag v h = c.tag v h)
    ∧ (g < 512 → (g < 508 ∨ u = false ∨ c.slmTags.length = 4) → (c.setTag u g t).tag u g = t) := by
  refine ⟨fun hg => ?_, fun h1 h2 => ?_⟩
  · unfold Core.setTag
    by_cases hu : (u && decide (508 ≤ g)) = true
    · rw [if_pos hu]
      simp at hu
      unfold Core.tag
      by_cases hv : (v && decide (508 ≤ h)) = true
      · rw [if_pos hv, if_pos hv]
        simp at hv
        simp [List.getElem?_set, show ¬ g - 508 = h - 508 by omega]
      · rw [if_neg hv, if_neg hv]
    · rw [if_neg hu]
      split
      · unfold Core.tag
        by_cases hv : (v && decide (508 ≤ h)) = true
        · rw [if_pos hv, if_pos hv]
        · rw [if_neg hv, if_neg hv]; simp [tagLook_put, hg]
      · rfl
  · unfold Core.setTag
    by_cases hu : (u && decide (508 ≤ g)) = true
    · rw [if_pos hu]
      unfold Core.tag
      rw [if_pos hu]
      simp at hu
      have : c.slmTags.length = 4 := by
        rcases h2 with h | h | h
        · omega
        · simp_all
        · exact h
      simp [List.getElem?_set, this, show g - 508 < 4 by omega]
    · rw [if_neg hu, if_pos h1]
      unfold Core.tag
      rw [if_neg hu]; simp [tagLook_put]

/-- Tags after many were set to one value. -/
theorem tags_fold (u : Bool) (t : W16) (l : List Nat) (c : Core) :
    let k := l.foldl (fun k g => k.setTag u g t) c
    k.imem = c.imem ∧ k.gcs = c.gcs ∧ k.simem = c.simem ∧ k.ctx = c.ctx ∧ k.lm = c.lm ∧ k.slm = c.slm
    ∧ (∀ g, g ∉ l → ∀ v, k.tag v g = c.tag v g) ∧ (∀ g ∈ l, g < 508 → k.tag u g = t) := by
  have h1 : ∀ (c : Core) (g : Nat), (c.setTag u g t).imem = c.imem ∧ (c.setTag u g t).gcs = c.gcs ∧ (c.setTag u g t).simem = c.simem
      ∧ (c.setTag u g t).ctx = c.ctx ∧ (c.setTag u g t).lm = c.lm ∧ (c.setTag u g t).slm = c.slm := by
    intro c g; unfold Core.setTag; split
    · exact ⟨rfl, rfl, rfl, rfl, rfl, rfl⟩
    · split <;> exact ⟨rfl, rfl, rfl, rfl, rfl, rfl⟩
  induction l generalizing c with
  | nil => refine ⟨rfl, rfl, rfl, rfl, rfl, rfl, fun _ _ _ => rfl, ?_⟩; simp
  | cons x r ih =>
    intro k
    obtain ⟨i1, i2, i3, i4, i5, i6, i7, i8⟩ := ih (c.setTag u x t)
    obtain ⟨j1, j2, j3, j4, j5, j6⟩ := h1 c x
    refine ⟨i1.trans j1, i2.trans j2, i3.trans j3, i4.trans j4, i5.trans j5, i6.trans j6, ?_, ?_⟩
    · intro g hg v
      simp only [List.mem_cons, not_or] at hg
      exact (i7 g hg.2 v).trans ((tag_setTag c u x t v g).1 hg.1)
    · intro g hg h5
      by_cases hr : g ∈ r
      · exact i8 g hr h5
      · have : g = x := by simpa [hr] using hg
        subst this
        exact (i7 g hr u).trans ((tag_setTag c u g t u g).2 (by omega) (Or.inl h5))

/-! A word leaving its queue. -/

theorem issued_ctx (s : State) (i : BitVec 4) (f : Ctx → Ctx) : (s.issued 0 1 i).modCtx f = s.modCtx fun x => f (x.issue s.core.now 0 1 i.toNat) := by
  simp only [State.issued, State.modCtx, State.mod_mod]
  simp only [State.mod]

theorem issuedE_ctx (s : State) (e : Nat) (i : BitVec 4) (f : Ctx → Ctx) : (s.issued e 1 i).modCtx f = s.modCtx fun x => f (x.issue s.core.now e 1 i.toNat) := by
  simp only [State.issued, State.modCtx, State.mod_mod]
  simp only [State.mod]

theorem issued_mod (s : State) (e : Nat) (i : BitVec 4) (f : Core → Core) : (s.issued e 1 i).mod f = s.mod fun k => f { k with ctx := k.ctx.issue k.now e 1 i.toNat } := by
  simp only [State.issued, State.mod_mod]

/-! Lines that nothing matches. -/

theorem flush_none (s : State) (c : Nat) (p : Nat → Bool) (h : ∀ x ∈ (s.at c).l1d, p x.pa = false) : s.flushLines c p = s := by
  unfold State.flushLines
  have : ((s.at c).l1d.filter fun x => p x.pa) = [] := by
    rw [List.filter_eq_nil_iff]; intro x hx; simp [h x hx]
  dsimp only; rw [this]; rfl

theorem drop_none (s : State) (c : Nat) (p : Nat → Bool) (h : ∀ x ∈ (s.at c).l1d, p x.pa = false) (h2 : ∀ x ∈ (s.at c).vc, p x.pa = false) : s.dropLines c p = s := by
  unfold State.dropLines
  rw [flush_none s c p h]
  refine modAt_self s c _ ?_
  have e1 : ((s.at c).l1d.filter fun x => !p x.pa) = (s.at c).l1d := by rw [List.filter_eq_self]; intro x hx; simp [h x hx]
  have e2 : ((s.at c).vc.filter fun x => !p x.pa) = (s.at c).vc := by rw [List.filter_eq_self]; intro x hx; simp [h2 x hx]
  rw [e1, e2]

theorem looks_nil (s : State) (e : Nat) (h : (s.core.ctx.pend e).started = false) : ∃ l, issueLooks s e [] = (s, some l) := by
  unfold issueLooks
  dsimp only
  split
  · exact ⟨_, rfl⟩
  · rw [if_neg (by simp [h])]
    unfold rangeFuel lookRanges; exact ⟨_, rfl⟩

end Sys2Proof.Machine
end

