-- ==== Sys2Proof/Laws/Claims.lean ====
section
/-! SUPPORT. Small facts about the vocabulary of the statements. -/

namespace Sys2Proof.Claims

open Sys2Proof Sys2Proof.Machine

/-! Bytes the same. -/

theorem same_refl (s : State) : SameBytes s s := ⟨fun _ => rfl, fun _ _ => ⟨fun _ => rfl, rfl, rfl, rfl, rfl, rfl⟩⟩

/-- What home memory reads of a core. -/
def SameHome (k k' : Core) : Prop :=
  k'.task = k.task ∧ k'.lm = k.lm ∧ k'.vcHit = k.vcHit ∧ k'.vcPhit = k.vcPhit ∧ k'.vcMiss = k.vcMiss ∧ k'.vcOvfl = k.vcOvfl
  ∧ k'.hintIgn = k.hintIgn ∧ k'.nmuDup = k.nmuDup

/-- A byte outside decode space after an update of what it does not read. -/
theorem plainByte_mod (s : State) (f : Core → Core) (h : SameHome s.core (f s.core)) : (s.mod f).plainByte = s.plainByte := by
  have hc : ∀ c, c = s.cur.val → s.at c = s.core := by
    intro c h; subst h; simp [State.at, State.core]
  obtain ⟨h0, h7, h1, h2, h3, h4, h5, h6⟩ := h
  have hl : ∀ c off, (if off < ((s.mod f).at c).windowGrant then memRead ((s.mod f).at c).lm off else 0#8)
     = (if off < (s.at c).windowGrant then memRead (s.at c).lm off else 0#8) := by
    intro c off
    rw [at_mod]
    split
    · rename_i e
      rw [hc c e, show (f s.core).windowGrant = s.core.windowGrant by simp [Core.windowGrant, h0], h7]
    · rfl
  have hk : ∀ c off, ctrByte ((s.mod f).at c) off = ctrByte (s.at c) off := by
    intro c off
    rw [at_mod]
    split
    · rename_i e
      rw [hc c e]
      simp [ctrByte, h1, h2, h3, h4, h5, h6]
    · rfl
  funext pa
  unfold State.plainByte
  simp only [hl, hk]
  rfl

/-- Home memory after an update of what it does not read. -/
theorem homeByte_mod (s : State) (f : Core → Core) (h : SameHome s.core (f s.core)) (pa : Nat) :
    (s.mod f).homeByte pa = s.homeByte pa := by
  have hp := plainByte_mod s f h
  have hd : ∀ x e, (s.mod f).decodeEl x e = s.decodeEl x e := by intro x e; unfold State.decodeEl; rw [hp]
  unfold State.homeByte
  simp only [hp, hd]
  rfl

theorem same_modCtx (s : State) (f : Ctx → Ctx) (h : (f s.core.ctx).spm = s.core.ctx.spm) : SameBytes s (s.modCtx f) := by
  refine ⟨fun pa => homeByte_mod s _ (by simp [SameHome]) pa, fun c a => ?_⟩
  have hc : c = s.cur.val → s.at c = s.core := by
    intro h; subst h; simp [State.at, State.core]
  unfold State.modCtx
  rw [at_mod]
  split
  · rename_i e
    rw [hc e]
    simp [Core.lmRead, h]
  · exact ⟨fun _ => rfl, rfl, rfl, rfl, rfl, rfl⟩

theorem same_of_cores (s t : State) (h1 : t.cores = s.cores) (h2 : t.gmem = s.gmem) (h3 : t.idnPod = s.idnPod) (h4 : t.windows = s.windows) : SameBytes s t := by
  have ha : ∀ c, t.at c = s.at c := by intro c; unfold State.at; rw [h1]
  have hw : ∀ w, t.window w = s.window w := by intro w; unfold State.window; rw [h4]
  have hm : t.moduleNo = s.moduleNo := by unfold State.moduleNo; rw [h3]
  have ht : ∀ a, t.target a = s.target a := by intro a; unfold State.target; rw [hm]
  have hn : ∀ a, t.normPa a = s.normPa a := by intro a; unfold State.normPa; rw [hm]
  have hwo : ∀ a, t.windowOf a = s.windowOf a := by intro a; unfold State.windowOf; simp only [hw]
  have hp : t.plainByte = s.plainByte := by funext pa; unfold State.plainByte; simp only [ht, hn, h2, ha]
  have hde : ∀ x e, t.decodeEl x e = s.decodeEl x e := by intro x e; unfold State.decodeEl; rw [hp]
  refine ⟨fun pa => ?_, fun c a => ?_⟩
  · unfold State.homeByte; simp only [ht, hn, hwo, hw, hde, hp]
  · rw [ha]; exact ⟨fun _ => rfl, rfl, rfl, rfl, rfl, rfl⟩

/-- Sameness of bytes does not see a transfer. -/
theorem same_transfer (s : State) (i : BitVec 4) (p : Nat) (land : Bool) (f : Ctx → Ctx) (g : Ctx → Ctx → Ctx)
    (h : g s.core.ctx (f ((s.core.ctx.issue s.core.now 0 1 i.toNat).redirect s.core.now p land)) = s.core.ctx)
    (hm : (f ((s.core.ctx.issue s.core.now 0 1 i.toNat).redirect s.core.now p land)).spm = s.core.ctx.spm) :
    SameButCtx s (s.transfer i p land f) g := by
  unfold State.transfer
  rw [issued_ctx]
  refine ⟨?_, same_modCtx s _ hm⟩
  simp only [State.modCtx, State.mod_mod]
  refine State.mod_of_core s _ ?_
  simp only [h]

/-! Words that start. -/

/-- A control processor word that pops and starts its effect. -/
theorem CpStarted.mk' (s : State) (i : BitVec 4) (e : CpEff) : CpStarted s ((s.issued 0 1 i).eff e) i e := by
  have h : (s.issued 0 1 i).eff e = s.modCtx fun x => { x.issue s.core.now 0 1 i.toNat with effs := x.effs ++ [e] } := by
    simp [State.issued, State.eff, State.modCtx, Ctx.issue]
    rfl
  rw [h]
  refine ⟨?_, ?_, ?_, ?_⟩
  · simp [Popped, Ctx.issue, Ctx.setQ]
  · simp
  · simp only [State.modCtx, State.mod_mod]
    refine State.mod_of_core s _ ?_
    simp [Ctx.issue, Ctx.setQ]
  · exact same_modCtx s _ rfl

theorem result_started (s : State) (i : BitVec 4) (L : Nat) (v : W64) :
    ∃ t d, Host.Outcome.next (s.result i L v) = (.next t : Out) ∧ d = v ∧ CpStarted s t i (dropIn s L d) :=
  ⟨_, v, rfl, rfl, CpStarted.mk' s i _⟩

theorem isRes (s : State) (i : BitVec 4) (L : Nat) (v : W64) (x : Int) (h : (v.toNat : Int) = x % 2 ^ 64) :
    ∃ t d, Host.Outcome.next (s.result i L v) = (.next t : Out) ∧ ((d : W64).toNat : Int) = x % 2 ^ 64 ∧ CpStarted s t i (dropIn s L d) :=
  ⟨_, v, rfl, h, CpStarted.mk' s i _⟩

theorem toNat_one (b : Bool) (p : Prop) [Decidable p] (h : b = decide p) : ((truth b).toNat : Int) = one p % 2 ^ 64 := by
  subst h; unfold truth one; by_cases h : p <;> simp [h]

theorem ofInt_toNat (x : Int) : ((BitVec.ofInt 64 x).toNat : Int) = x % 2 ^ 64 := by
  simp only [BitVec.toNat_ofInt]; omega

theorem toInt_mod (a : W64) : a.toInt % 2 ^ 64 = a.toNat := by
  have := BitVec.toInt_eq_toNat_cond a
  have := a.isLt
  split at * <;> omega

theorem stops_mk (s : State) (w : Instr) (e : Nat) (c : StopClass) (d : Nat) (o : Option Nat) (ho : o = some d)
    (h : exec w s = .next (takeStop s (issueStop s e c d) [] false 0xFFFF#16 none)) : StopsAtIssue s w e c o :=
  ⟨_, h, rfl, rfl, rfl, by rintro x rfl; simpa [issueStop] using ho.symm⟩

theorem plain_stop (s : State) (w : Instr) (e : Nat) (c : StopClass) (h : exec w s = .next (takeStop s (plainStop s e c) [] false 0xFFFF#16 none)) :
    StopsAtIssue s w e c none := ⟨_, h, rfl, rfl, rfl, by simp⟩

theorem sent_mk (s : State) (i : BitVec 4) (p : Nat) (land : Bool) (f : Ctx → Ctx)
    (hq : ∀ x, (f x).qs = x.qs) (hs : ∀ x, (f x).spl = x.spl) : Sent s (s.transfer i p land f) i p land := by
  unfold State.transfer
  rw [issued_ctx]
  constructor <;> simp [Popped, hq, hs, Ctx.redirect, Ctx.issue, Ctx.setQ]

theorem taken_mk (s : State) (i : BitVec 4) (p : Nat) : BranchTaken s (s.branch i p) i p := by
  refine ⟨sent_mk s i p true _ (fun _ => rfl) (fun _ => rfl), ?_, same_transfer s i p true _ _ rfl rfl⟩
  have : (s.branch i p).core.ctx.loops = leaveLoops p s.core.ctx.loops := by
    unfold State.branch State.transfer
    rw [issued_ctx]
    simp [Ctx.redirect, Ctx.issue, Ctx.setQ]
  rw [this]
  generalize s.core.ctx.loops = l
  refine ⟨l.takeWhile fun v => !(decide (v.first ≤ p) && decide (p ≤ v.last)), ?_, ?_, ?_⟩
  · exact (List.takeWhile_append_dropWhile).symm
  · intro v hv
    have := List.all_takeWhile (p := fun v : LoopLevel => !(decide (v.first ≤ p) && decide (p ≤ v.last))) (l := l)
    rw [List.all_eq_true] at this
    have := this v hv
    simp at this; omega
  · intro v hv
    have := List.head?_dropWhile_not (fun v : LoopLevel => !(decide (v.first ≤ p) && decide (p ≤ v.last))) l
    unfold leaveLoops at hv
    rw [Option.mem_def] at hv
    rw [hv] at this
    simpa using this

theorem flow_stop (s : State) (w : Instr) (h : exec w s = .next (takeStop s (flowStop s) [] false 0xFFFF#16 none)) :
    StopsAtIssue s w 0 .controlFlow none := ⟨_, h, rfl, rfl, rfl, by simp⟩

theorem call_ok (s : State) (i : BitVec 4) (p : Nat) (h : s.core.ctx.ret.length < 8) :
    ∃ t, finish s (tryCall i p s) = .next t ∧ Sent s t i p true ∧ t.core.ctx.ret = nextPos (s.core.ctx.headAddr 0 / 4) :: s.core.ctx.ret
      ∧ SameButCtx s t fun x y => { y with qs := x.qs, spl := x.spl, ret := x.ret } := by
  refine ⟨s.transfer i p true fun x => { x with ret := nextPos s.cpPos :: x.ret }, ?_, sent_mk s i p true _ (fun _ => rfl) (fun _ => rfl), ?_, same_transfer s i p true _ _ rfl rfl⟩
  · unfold tryCall; rw [if_neg (by omega)]; rfl
  · unfold State.transfer; rw [issued_ctx]; simp [Ctx.redirect, Ctx.issue, Ctx.setQ, State.cpPos]

theorem sameButCtx_mk (s : State) (f : Ctx → Ctx) (g : Ctx → Ctx → Ctx) (h : g s.core.ctx (f s.core.ctx) = s.core.ctx)
   (hm : (f s.core.ctx).spm = s.core.ctx.spm) : SameButCtx s (s.modCtx f) g := by
  refine ⟨?_, same_modCtx s f hm⟩
  simp only [State.modCtx, State.mod_mod]
  refine State.mod_of_core s _ ?_
  simp only [h]

theorem sameButCore_mk (s : State) (f : Core → Core) (g : Core → Core → Core) (h : g s.core (f s.core) = s.core)
   (hb : SameHome s.core (f s.core))
   (hm : (f s.core).imem = s.core.imem ∧ (f s.core).gcs = s.core.gcs ∧ (f s.core).simem = s.core.simem ∧ (f s.core).slm = s.core.slm ∧ (f s.core).ctx.spm = s.core.ctx.spm) :
   SameButCore s (s.mod f) g := by
  refine ⟨by rw [State.mod_mod]; exact State.mod_of_core s _ h, fun pa => homeByte_mod s f hb pa, fun c a => ?_⟩
  · rw [at_mod]
    split
    · rename_i e; subst e; rw [core_at]
      obtain ⟨h1, h2, h3, h4, h5⟩ := hm
      refine ⟨fun u => ?_, by rw [h1], by rw [h2], by rw [h3], by rw [h4], by rw [h5]⟩
      unfold Core.lmRead; rw [h4, hb.2.1]
    · exact ⟨fun _ => rfl, rfl, rfl, rfl, rfl, rfl⟩

theorem popBte (s : State) (i : BitVec 4) (f : Ctx → Ctx) (hq : ∀ x, (f x).qs = x.qs) (hp : ∀ x, (f x).pend5 = x.pend5) : PoppedBte s ((s.issued 5 1 i).modCtx f) i := by
  rw [issuedE_ctx]
  constructor <;> simp [Popped, hq, hp, Ctx.issue, Ctx.setQ]

theorem issued_only (s : State) (i : BitVec 4) : PoppedBte s (s.issued 5 1 i) i ∧ SameButCtx s (s.issued 5 1 i) fun y z => { z with qs := y.qs, pend5 := y.pend5 } := by
  have := popBte s i id (fun _ => rfl) (fun _ => rfl)
  have e : (s.issued 5 1 i).modCtx id = s.issued 5 1 i := by unfold State.modCtx; exact State.mod_of_core _ _ rfl
  rw [e] at this
  refine ⟨this, ?_⟩
  exact sameButCtx_mk s (fun x => x.issue s.core.now 5 1 i.toNat) _ rfl rfl

theorem startBad_iff (s : State) (r : Bool) (st : Staging) : startBad s.core.gsize r st = true ↔ StartFaults s r st := by
  simp [startBad, StartFaults, isGlobal, isNear, or_assoc]

theorem copy_exec (s : State) {idle h d at_} {w : Instr × DescWord} (hw : w ∈ copyWords idle h d at_) : exec w.1 s = finish s (tryCopy w.2 idle h d s) := by
  simp only [copyWords, List.mem_cons, List.not_mem_nil, or_false] at hw
  rcases hw with rfl | rfl <;> rfl

theorem winok (s : State) (dst : CopyEnd) (wr : Bool) (A B : Try) :
    (∀ q, dst ≠ .phys q) → (if (wr && !(match dst with | .phys l => l.all fun (_, pa, _) => (match s.target pa with | .lm _ _ => true | _ => false) | _ => true)) = true then A else B) = B := by
  intro h
  cases dst with
  | phys q => exact absurd rfl (h q)
  | lm _ _ _ => simp
  | imem _ => simp
  | gcs _ => simp

/-! Checks of an address. -/

theorem lmCheck_none {s : State} {ea : Int} {n : Nat} (h : LmOk s ea n) : lmCheck s.core.lmGrant ea n = none := by
  obtain ⟨h1, h2, h3⟩ := h
  unfold lmCheck
  rw [if_neg (by omega), if_neg]
  obtain ⟨e, rfl⟩ := Int.eq_ofNat_of_zero_le h1
  simp at h3 ⊢
  omega

theorem lmCheck_fault (s : State) (ea : Int) (n : Nat) : lmCheck s.core.lmGrant ea n = lmFault s ea n := by
  unfold lmCheck lmFault
  split
  · rfl
  · rename_i h
    obtain ⟨e, rfl⟩ := Int.eq_ofNat_of_zero_le (show 0 ≤ ea by omega)
    have : ((e : Int) % (n : Int) ≠ 0) ↔ (e % n ≠ 0) := by omega
    simp only [this, Int.toNat_natCast]

theorem access_none {s : State} {ea : Int} {n : Nat} (h : LmOk s ea n) : accessStop s ea n = none := by
  simp [accessStop, lmCheck_none h]

theorem access_fault {s : State} {ea : Int} {n : Nat} {c} (h : lmFault s ea n = some c) :
    accessStop s ea n = some (issueStop s 0 c (ea % 2 ^ 64).toNat) := by
  simp only [accessStop, lmCheck_fault, h, Option.map_some, Option.some.injEq]
  congr 1

theorem lmNat_eq (s : State) (a n : Nat) : leNat (s.core.lmReadN s.core.ctx.sup a n) = lmNat s a n := by
  induction n generalizing a with
  | zero => rfl
  | succ n ih =>
    have := ih (a + 1)
    simp only [Core.lmReadN, List.range_succ_eq_map, List.map_cons, List.map_map, leNat, lmNat] at *
    rw [← this]
    simp only [Nat.add_zero, Nat.succ_eq_add_one]
    congr 4
    funext i; simp; congr 1; omega

theorem lmNat_lt (s : State) (a n : Nat) : lmNat s a n < 256 ^ n := by
  rw [← lmNat_eq]; have := leNat_lt (s.core.lmReadN s.core.ctx.sup a n); simpa [Core.lmReadN] using this

/-- A loaded value with its sign. -/
theorem sext_val (w n : Nat) (h : w = 8 * n) (hw : w ≤ 64) (hn : 0 < n) (v : Nat) (hv : v < 256 ^ n) : ((sext w v).toNat : Int) = signed n v % 2 ^ 64 := by
  unfold sext
  rw [← toInt_mod, BitVec.toInt_signExtend_of_le hw]
  congr 1
  rw [BitVec.toInt_eq_toNat_cond]
  have : 256 ^ n = 2 ^ w := by subst h; rw [Nat.pow_mul]
  unfold signed
  rw [BitVec.toNat_ofNat, Nat.mod_eq_of_lt (by omega)]
  rw [this]
  have h2 : ((256 : Int) ^ n) = ((2 ^ w : Nat) : Int) := by rw [← this]; simp
  rw [h2]

theorem zext_val (n : Nat) (hn : n ≤ 8) (v : Nat) (hv : v < 256 ^ n) : ((zext v).toNat : Int) = (v : Int) % 2 ^ 64 := by
  unfold zext
  simp

theorem load_ok (s : State) (i : BitVec 4) (a : BitVec 5) (off : Int) (n : Nat) (ext : Nat → W64) (x : Int)
    (h : LmOk s ((s.src a).toNat + off) n) (hx : ((ext (lmNat s ((s.src a).toNat + off).toNat n)).toNat : Int) = x % 2 ^ 64) :
    ∃ t d, finish s (tryLoad i a off n ext s) = .next t ∧ CpStarted s t i (dropIn s 4 d) ∧ ((d : W64).toNat : Int) = x % 2 ^ 64 := by
  refine ⟨_, ext (lmNat s ((s.src a).toNat + off).toNat n), ?_, CpStarted.mk' s i _, hx⟩
  simp only [tryLoad, lmEa, access_none h, finish, State.result, dropIn, loadVal, lmNat_eq]

/-! The loop and the branches. -/

theorem nextPos_mod (p : Nat) : nextPos p % 32 ≠ 0 := by unfold nextPos; split <;> omega

theorem indexPos_succ (k : Nat) : indexPos (k + 1) = nextPos (indexPos k) := by
  unfold indexPos nextPos
  split <;> omega

theorem indexPos_posIndex (p : Nat) (h : p % 32 ≠ 0) : indexPos (posIndex p) = p := by
  unfold indexPos posIndex; omega

theorem wordsOn_index (n k : Nat) : wordsOn n (indexPos k) = indexPos (k + n) := by
  induction n generalizing k with
  | zero => rfl
  | succ n ih => rw [wordsOn, ← indexPos_succ, ih]; congr 1; omega

/-! Effects that land. -/

theorem fold_take (l : List CpEff) (q : List W64) (k : Nat) (h : k < 16) :
    (l.foldl (fun q e => (e.data :: q).take 16) q).getD k 0#64 = ((l.map CpEff.data).reverse ++ q).getD k 0#64 := by
  induction l generalizing q with
  | nil => rfl
  | cons e r ih =>
    rw [List.foldl_cons, ih]
    simp only [List.map_cons, List.reverse_cons, List.append_assoc, List.singleton_append]
    simp only [List.getD_eq_getElem?_getD, List.getElem?_append, List.length_reverse, List.length_map]
    split
    · rfl
    · rw [List.getElem?_take_of_lt (by omega)]

theorem noteBytes_lmRead (k : Core) (u v : Bool) (a n x : Nat) : (k.noteBytes u a n).lmRead v x = k.lmRead v x := by
  unfold Core.noteBytes; split <;> rfl

theorem lmRead_landBytes {k : Core} (h : k.memOk) (u : Bool) (a : Nat) (l : List Byte) (v : Bool) (x : Nat) :
    (k.landBytes u a l).lmRead v x
      = if a ≤ x ∧ x < a + l.length ∧ x < 0x200000 ∧ inSlm u x = inSlm v x then l.getD (x - a) 0#8 else k.lmRead v x :=
  (noteBytes_lmRead _ _ _ _ _ _).trans (lmRead_lmWriteN h u a l v x)

/-- What the landing of a byte string leaves of a core. -/
theorem landBytes_frame (k : Core) (u : Bool) (a : Nat) (l : List Byte) :
    (k.landBytes u a l).imem = k.imem ∧ (k.landBytes u a l).gcs = k.gcs ∧ (k.landBytes u a l).simem = k.simem
    ∧ (k.landBytes u a l).ctx = k.ctx ∧ (k.landBytes u a l).gbase = k.gbase ∧ (k.landBytes u a l).slmTags = k.slmTags
    ∧ ∀ v g, (k.landBytes u a l).tag v g = k.tag v g := by
  have hn : ∀ (k : Core) (n : Nat), (k.noteBytes u a n).imem = k.imem ∧ (k.noteBytes u a n).gcs = k.gcs
      ∧ (k.noteBytes u a n).simem = k.simem ∧ (k.noteBytes u a n).ctx = k.ctx ∧ (k.noteBytes u a n).gbase = k.gbase
      ∧ (k.noteBytes u a n).slmTags = k.slmTags ∧ ∀ v g, (k.noteBytes u a n).tag v g = k.tag v g := by
    intro k n; unfold Core.noteBytes; split <;> exact ⟨rfl, rfl, rfl, rfl, rfl, rfl, fun _ _ => rfl⟩
  have hw : ∀ (l : List Byte) (k : Core) (a : Nat), (k.lmWriteN u a l).imem = k.imem ∧ (k.lmWriteN u a l).gcs = k.gcs
      ∧ (k.lmWriteN u a l).simem = k.simem ∧ (k.lmWriteN u a l).ctx = k.ctx ∧ (k.lmWriteN u a l).gbase = k.gbase
      ∧ (k.lmWriteN u a l).slmTags = k.slmTags ∧ ∀ v g, (k.lmWriteN u a l).tag v g = k.tag v g := by
    intro l
    induction l with
    | nil => exact fun _ _ => ⟨rfl, rfl, rfl, rfl, rfl, rfl, fun _ _ => rfl⟩
    | cons b r ih =>
      intro k a
      unfold Core.lmWriteN
      obtain ⟨h1, h2, h3, h4, h5, h6, h7⟩ := ih (k.lmWrite u a b) (a + 1)
      refine ⟨h1.trans ?_, h2.trans ?_, h3.trans ?_, h4.trans ?_, h5.trans ?_, h6.trans ?_, fun v g => (h7 v g).trans ?_⟩ <;>
        (unfold Core.lmWrite; split <;> split <;> rfl)
  obtain ⟨h1, h2, h3, h4, h5, h6, h7⟩ := hn (k.lmWriteN u a l) l.length
  obtain ⟨g1, g2, g3, g4, g5, g6, g7⟩ := hw l k a
  exact ⟨h1.trans g1, h2.trans g2, h3.trans g3, h4.trans g4, h5.trans g5, h6.trans g6, fun v g => (h7 v g).trans (g7 v g)⟩

/-- What the landing of a tag leaves of a core. -/
theorem landTag_frame (k : Core) (u : Bool) (g : Nat) (t : W16) :
    (k.landTag u g t).imem = k.imem ∧ (k.landTag u g t).gcs = k.gcs ∧ (k.landTag u g t).simem = k.simem
    ∧ (k.landTag u g t).ctx = k.ctx ∧ (k.landTag u g t).gbase = k.gbase
    ∧ (k.landTag u g t).slmTags.length = k.slmTags.length ∧ ∀ v a, (k.landTag u g t).lmRead v a = k.lmRead v a := by
  unfold Core.landTag Core.noteTag Core.setTag
  split
  · exact ⟨rfl, rfl, rfl, rfl, rfl, by simp, fun _ _ => rfl⟩
  · split <;> exact ⟨rfl, rfl, rfl, rfl, rfl, rfl, fun _ _ => rfl⟩

theorem tag_landTag (c : Core) (u : Bool) (g : Nat) (t : W16) (v : Bool) (h : Nat) :
    (h ≠ g → (c.landTag u g t).tag v h = c.tag v h)
    ∧ (g < 512 → (g < 508 ∨ u = false ∨ c.slmTags.length = 4) → (c.landTag u g t).tag u g = t) := tag_setTag c u g t v h

theorem landEff_frame (s : State) (me : Nat) (u : Bool) (e : CpEff) (c : Nat) :
    ((landEff s me u e).at c).imem = (s.at c).imem ∧ ((landEff s me u e).at c).gcs = (s.at c).gcs
    ∧ ((landEff s me u e).at c).simem = (s.at c).simem ∧ ((landEff s me u e).at c).ctx = (s.at c).ctx
    ∧ ((landEff s me u e).at c).gbase = (s.at c).gbase ∧ (landEff s me u e).gmem = s.gmem
    ∧ (landEff s me u e).cur = s.cur ∧ ((landEff s me u e).at c).slmTags.length = (s.at c).slmTags.length := by
  obtain ⟨a1, a2, a3, a4, a5, a6, _⟩ := landBytes_frame (s.at c) u e.addr (natLe e.size e.data.toNat)
  obtain ⟨b1, b2, b3, b4, b5, b6, _⟩ := landBytes_frame (s.at c) u e.addr (natLe 8 e.data.toNat)
  obtain ⟨c1, c2, c3, c4, c5, c6, _⟩ := landTag_frame (s.at c) u (e.addr / 4096) (e.data.setWidth 16)
  unfold landEff
  split <;> (try rw [at_modAt]) <;> (try split) <;> simp [a1, a2, a3, a4, a5, a6, b1, b2, b3, b4, b5, b6, c1, c2, c3, c4, c5, c6]

theorem memOk_landEff {s : State} (h : ∀ c, (s.at c).memOk) (me : Nat) (u : Bool) (e : CpEff) : ∀ c, ((landEff s me u e).at c).memOk := by
  intro c
  unfold landEff
  split <;> (try rw [at_modAt]) <;> (try split) <;> first | exact h c | exact Core.memOk_landBytes (h c) _ _ _ | exact Core.memOk_landTag (h c) _ _ _

/-- A byte of near memory after one effect. -/
theorem landEff_byte {s : State} (h : ∀ c, (s.at c).memOk) (e : CpEff) (c a : Nat) (hc : c < 192) (hb : (s.at s.cur.val).gbase = s.core.gbase) (u v : Bool) :
    (¬StoresTo s e c a → ((landEff s s.cur.val u e).at c).lmRead v a = (s.at c).lmRead v a)
    ∧ (StoresTo s e c a → (((landEff s s.cur.val u e).at c).lmRead u a).toNat = e.data.toNat / 256 ^ (a - e.addr) % 256) := by
  have hlm : ∀ t : W16, ∀ g, ((s.at c).landTag u g t).lmRead v a = (s.at c).lmRead v a :=
    fun t g => (landTag_frame (s.at c) u g t).2.2.2.2.2.2 v a
  unfold landEff StoresTo
  cases hk : e.kind <;> simp only [reduceCtorEq, false_and, or_false, false_or, true_and, and_false, not_false_eq_true, not_true_eq_false, false_implies, true_implies, and_true, forall_const]
  case store =>
    rw [at_modAt]
    refine ⟨fun hn => ?_, fun hs => ?_⟩
    · split
      · rw [lmRead_landBytes (h c), natLe_length, if_neg]; omega
      · rfl
    · rw [if_pos (by omega), lmRead_landBytes (h c), natLe_length, if_pos ⟨by omega, by omega, by omega, rfl⟩, List.getD_eq_getElem?_getD, natLe_getElem? _ _ _ (by omega)]
      simp
  case nstore =>
    rw [at_modAt, hb]
    refine ⟨fun hn => ?_, fun hs => ?_⟩
    · split
      · rw [lmRead_landBytes (h c), natLe_length, if_neg]; omega
      · rfl
    · rw [if_pos (by omega), lmRead_landBytes (h c), natLe_length, if_pos ⟨by omega, by omega, by omega, rfl⟩, List.getD_eq_getElem?_getD, natLe_getElem? _ _ _ (by omega)]
      simp
  case tagw =>
    rw [at_modAt]; split
    · exact hlm _ _
    · rfl

/-- A tag after one effect. -/
theorem landEff_tag (s : State) (e : CpEff) (c g : Nat) (hc : c < 192) (hg5 : g < 512) (u v : Bool) :
    (¬TagsGranule s e c g → ((landEff s s.cur.val u e).at c).tag v g = (s.at c).tag v g)
    ∧ (TagsGranule s e c g → (g < 508 ∨ u = false ∨ (s.at c).slmTags.length = 4) → ((landEff s s.cur.val u e).at c).tag u g = e.data.setWidth 16) := by
  have hw : ∀ (k : Core) (a : Nat) (l : List Byte), (k.landBytes u a l).tag v g = k.tag v g :=
    fun k a l => (landBytes_frame k u a l).2.2.2.2.2.2 v g
  unfold landEff TagsGranule
  cases hk : e.kind <;> simp only [reduceCtorEq, false_and, or_false, false_or, true_and, and_false, not_false_eq_true, not_true_eq_false, false_implies, true_implies, and_true, forall_const]
  case tagw =>
    rw [at_modAt]
    refine ⟨fun hn => ?_, fun hs h4 => ?_⟩
    · split
      · exact (tag_landTag _ _ _ _ v g).1 (fun h => hn ⟨by omega, h.symm⟩)
      · rfl
    · rw [if_pos (by omega), hs.2]; exact (tag_landTag _ _ _ _ u g).2 hg5 h4
  case store => rw [at_modAt]; split <;> first | exact hw _ _ _ | rfl
  case nstore => rw [at_modAt]; split <;> first | exact hw _ _ _ | rfl

/-- Bytes, tags and the rest after a list of effects. -/
theorem land_all (u : Bool) (l : List CpEff) (s : State) (hs : ∀ c, (s.at c).memOk) :
    let t := l.foldl (fun s e => landEff s s.cur.val u e) s
    t.cur = s.cur ∧ t.gmem = s.gmem ∧ (∀ c, (t.at c).memOk)
    ∧ (∀ c, (t.at c).imem = (s.at c).imem ∧ (t.at c).gcs = (s.at c).gcs ∧ (t.at c).simem = (s.at c).simem
        ∧ (t.at c).ctx = (s.at c).ctx ∧ (t.at c).gbase = (s.at c).gbase ∧ (t.at c).slmTags.length = (s.at c).slmTags.length)
    ∧ (∀ c < 192, ∀ a, ((∀ e ∈ l, ¬StoresTo s e c a) → ∀ v, (t.at c).lmRead v a = (s.at c).lmRead v a)
        ∧ ∀ e, LastOf l (fun f => StoresTo s f c a) e → ((t.at c).lmRead u a).toNat = e.data.toNat / 256 ^ (a - e.addr) % 256)
    ∧ (∀ c < 192, ∀ g < 512, ((∀ e ∈ l, ¬TagsGranule s e c g) → ∀ v, (t.at c).tag v g = (s.at c).tag v g)
        ∧ ∀ e, LastOf l (fun f => TagsGranule s f c g) e → (g < 508 ∨ u = false ∨ (s.at c).slmTags.length = 4) → (t.at c).tag u g = e.data.setWidth 16) := by
  induction l generalizing s with
  | nil =>
    refine ⟨rfl, rfl, hs, fun c => ⟨rfl, rfl, rfl, rfl, rfl, rfl⟩, fun c _ a => ⟨fun _ _ => rfl, ?_⟩, fun c _ g _ => ⟨fun _ _ => rfl, ?_⟩⟩
    · rintro e ⟨pre, post, h, _⟩; simp at h
    · rintro e ⟨pre, post, h, _⟩; simp at h
  | cons x r ih =>
    intro t
    have hf := fun c => landEff_frame s s.cur.val u x c
    have hs' := memOk_landEff hs s.cur.val u x
    obtain ⟨i1, i2, i3, i4, i5, i6⟩ := ih (landEff s s.cur.val u x) hs'
    have hcur : (landEff s s.cur.val u x).cur = s.cur := (hf 0).2.2.2.2.2.2.1
    have hgb : (landEff s s.cur.val u x).core.gbase = s.core.gbase := by
      rw [← core_at, ← core_at, hcur]; exact (hf _).2.2.2.2.1
    have hst : ∀ f c a, StoresTo (landEff s s.cur.val u x) f c a ↔ StoresTo s f c a := by
      intro f c a; unfold StoresTo; rw [hcur, hgb]
    have htg : ∀ f c a, TagsGranule (landEff s s.cur.val u x) f c a ↔ TagsGranule s f c a := by
      intro f c a; unfold TagsGranule; rw [hcur]
    have ht : t = r.foldl (fun s e => landEff s s.cur.val u e) (landEff s s.cur.val u x) := rfl
    rw [← ht] at i1 i2 i3 i4 i5 i6
    refine ⟨by rw [i1, hcur], by rw [i2, (hf 0).2.2.2.2.2.1], i3, ?_, ?_, ?_⟩
    · intro c
      obtain ⟨h1, h2, h3, h4, h5, _, _, h8⟩ := hf c
      obtain ⟨g1, g2, g3, g4, g5, g6⟩ := i4 c
      exact ⟨by rw [g1, h1], by rw [g2, h2], by rw [g3, h3], by rw [g4, h4], by rw [g5, h5], by rw [g6, h8]⟩
    · intro c hc a
      have hx := fun v => landEff_byte hs x c a hc (by rw [core_at]) u v
      refine ⟨fun h v => ?_, ?_⟩
      · rw [(i5 c hc a).1 (fun e he => by rw [hst]; exact h e (by simp [he])) v]
        exact (hx v).1 (h x (by simp))
      · rintro e ⟨pre, post, hl, hp, hn⟩
        cases pre with
        | nil =>
          simp only [List.nil_append, List.cons.injEq] at hl
          obtain ⟨rfl, rfl⟩ := hl
          rw [(i5 c hc a).1 (fun e he => by rw [hst]; exact hn e he) u]
          exact (hx u).2 hp
        | cons y pre =>
          simp only [List.cons_append, List.cons.injEq] at hl
          obtain ⟨rfl, rfl⟩ := hl
          exact (i5 c hc a).2 e ⟨pre, post, rfl, (hst _ _ _).2 hp, fun f hf => fun q => hn f hf ((hst _ _ _).1 q)⟩
    · intro c hc g hg
      have hx := fun v => landEff_tag s x c g hc hg u v
      refine ⟨fun h v => ?_, ?_⟩
      · rw [(i6 c hc g hg).1 (fun e he => by rw [htg]; exact h e (by simp [he])) v]
        exact (hx v).1 (h x (by simp))
      · rintro e ⟨pre, post, hl, hp, hn⟩ h4
        cases pre with
        | nil =>
          simp only [List.nil_append, List.cons.injEq] at hl
          obtain ⟨rfl, rfl⟩ := hl
          rw [(i6 c hc g hg).1 (fun e he => by rw [htg]; exact hn e he) u]
          exact (hx u).2 hp h4
        | cons y pre =>
          simp only [List.cons_append, List.cons.injEq] at hl
          obtain ⟨rfl, rfl⟩ := hl
          exact (i6 c hc g hg).2 e ⟨pre, post, rfl, (htg _ _ _).2 hp, fun f hf => fun q => hn f hf ((htg _ _ _).1 q)⟩ (by rw [(hf c).2.2.2.2.2.2.2]; exact h4)

/-! Beats. -/

theorem due_iff (s : State) (p : Nat) : (s.core.ctx.ld p).dueAt s.core.now = true ↔ BeatDue s p := by
  simp [LdPort.dueAt, BeatDue, Ctx.ld, LdPort.readAt, readCycle, isNear, and_assoc]

/-- A filter that one index passes. -/
theorem only_range (P : Nat → Bool) (p n : Nat) (hp : p < n) (h : P p = true) (ho : ∀ q < n, q ≠ p → P q = false) : (List.range n).filter P = [p] := by
  induction n with
  | zero => omega
  | succ n ih =>
    rw [List.range_succ, List.filter_append]
    by_cases e : p = n
    · subst e
      have : (List.range p).filter P = [] := by
        rw [List.filter_eq_nil_iff]; intro q hq; rw [List.mem_range] at hq; simp [ho q (by omega) (by omega)]
      simp [this, h]
    · rw [ih (by omega) (fun q h1 h2 => ho q (by omega) h2)]
      simp [ho n (by omega) (by omega)]

theorem elBytes_dvd (f : BitVec 5) : elBytes f = 1 ∨ elBytes f = 2 ∨ elBytes f = 4 ∨ elBytes f = 8 := by
  revert f; decide

theorem numAt_eq (rd : Nat → Byte) (a n : Nat) : leNat ((List.range n).map fun i => rd (a + i)) = numAt rd a n := by
  induction n generalizing a with
  | zero => rfl
  | succ n ih =>
    have := ih (a + 1)
    simp only [List.range_succ_eq_map, List.map_cons, List.map_map, leNat, numAt] at *
    rw [← this]
    simp only [Nat.add_zero]
    congr 4
    funext i; simp; congr 1; omega

theorem beatEls_eq (st : Staging) (per j : Nat) : st.beatEls per j = (List.range (min per (st.elems - j * per))).map fun i => j * per + i := by
  unfold Staging.beatEls
  generalize j * per = b
  induction per with
  | zero => simp
  | succ n ih =>
    rw [List.range_succ, List.filterMap_append, ih]
    by_cases h : b + n < st.elems
    · rw [show min (n + 1) (st.elems - b) = min n (st.elems - b) + 1 by omega, List.range_succ, List.map_append]
      simp [h, show min n (st.elems - b) = n by omega]
    · rw [show min (n + 1) (st.elems - b) = min n (st.elems - b) by omega]
      simp [h]

theorem beatEl_lt (f : BitVec 5) (b : List Byte) (h : b.length = elBytes f) : beatEl f b < 256 ^ elBytes f := by
  have := leNat_lt b
  rw [h] at this
  unfold beatEl
  split
  · have := Nat.div_mul_le_self (leNat b) 8192; omega
  · exact this

/-- An element of a packed beat. -/
theorem packBeat_el (f : BitVec 5) (els : List (List Byte)) (hl : ∀ b ∈ els, b.length = elBytes f) (hn : els.length * elBytes f ≤ 16) :
    (∀ k < els.length, (packBeat f els).toNat / 2 ^ (8 * elBytes f * k) % 2 ^ (8 * elBytes f) = beatEl f (els.getD k []))
    ∧ (packBeat f els).toNat / 2 ^ (8 * elBytes f * els.length) = 0 := by
  generalize hz : elBytes f = z at *
  have hB : (256 : Nat) ^ z = 2 ^ (8 * z) := by rw [show 256 = 2 ^ 8 by rfl, ← Nat.pow_mul]
  have hmap : (els.mapIdx fun i b => beatEl f b * 2 ^ (8 * z * i)) = ((els.map (beatEl f)).mapIdx fun i x => x * (256 ^ z) ^ i) := by
    apply List.ext_getElem?; intro k
    simp only [List.getElem?_mapIdx, List.getElem?_map, Option.map_map]; congr 1; funext x
    simp only [Function.comp]; rw [hB, ← Nat.pow_mul]
  obtain ⟨h1, h2⟩ := dig_sum (256 ^ z) (els.map (beatEl f)) (by
    intro x hx; obtain ⟨b, hb, rfl⟩ := List.mem_map.1 hx; have := beatEl_lt f b (by rw [hl b hb, hz]); rwa [hz] at this) (Nat.pow_pos (by decide)) 0
  rw [List.length_map] at h1 h2
  have h3 : (256 ^ z) ^ els.length ≤ 2 ^ 128 := by
    rw [← Nat.pow_mul, show 256 = 2 ^ 8 by rfl, ← Nat.pow_mul]
    apply Nat.pow_le_pow_right (by decide)
    rw [Nat.mul_comm z]; omega
  have hv : (packBeat f els).toNat = ((els.map (beatEl f)).mapIdx fun i x => x * (256 ^ z) ^ i).foldl (· + ·) 0 := by
    unfold packBeat
    rw [hz, hmap, BitVec.toNat_ofNat, Nat.mod_eq_of_lt (by omega)]
  rw [hv]
  refine ⟨fun k hk => ?_, ?_⟩
  · have := h1 k hk
    rw [← Nat.pow_mul, hB, show 256 ^ (z * k) = 2 ^ (8 * z * k) by rw [show 256 = 2 ^ 8 by rfl, ← Nat.pow_mul, Nat.mul_assoc]] at this
    rw [hB]; rw [this]
    simp [List.getD_eq_getElem?_getD, List.getElem?_eq_getElem hk]
  · apply Nat.div_eq_of_lt
    rw [← Nat.pow_mul] at h2
    rw [show 2 ^ (8 * z * els.length) = 256 ^ (z * els.length) by rw [show 256 = 2 ^ 8 by rfl, ← Nat.pow_mul, Nat.mul_assoc]]
    exact h2

end Sys2Proof.Claims
end

