-- ==== Sys2Proof/Laws/KeptStream.lean ====
section
/-! SUPPORT. `Kept` of the streamers, the block-transfer engine and near-memory jobs. -/

namespace Sys2Proof.Machine

theorem kept_ldStage (s : State) (i : BitVec 4) (f : Staging → Staging) : Kept s (s.ldStage i f) :=
  (kept_issued s 1 1 i).trans (kept_modCtx _ _ (by exact fun _ h => h))

theorem kept_stStage (s : State) (i : BitVec 4) (f : Staging → Staging) : Kept s (s.stStage i f) :=
  (kept_issued s 2 1 i).trans (kept_modCtx _ _ (by exact fun _ h => h))

theorem kept_issued_setLd (s : State) (i : BitVec 4) (p : Nat) (f : Ctx → LdPort) :
    Kept s ((s.issued 1 1 i).modCtx fun x => x.setLd p (f x)) :=
  (kept_issued s 1 1 i).trans (kept_modCtx _ _ (by exact fun _ h => h))

theorem kept_issued_setSt (s : State) (i : BitVec 4) (p : Nat) (f : Ctx → StPort) :
    Kept s ((s.issued 2 1 i).modCtx fun x => x.setSt p (f x)) :=
  (kept_issued s 2 1 i).trans (kept_modCtx _ _ (by exact fun _ h => h))

theorem tryKept_ldStart (i : BitVec 4) (s : State) : TryKept s (tryLdStart i s) := by
  unfold tryLdStart
  simp only
  split
  · exact trivial
  · exact kept_issued_setLd s i _ _

theorem tryKept_stStart (i : BitVec 4) (s : State) : TryKept s (tryStStart i s) := by
  unfold tryStStart
  simp only
  split
  · exact trivial
  · exact kept_issued_setSt s i _ _

/-- Several stops, holds, or the state. -/
theorem tryKept_all {s t : State} {stops : List (Stop × State)} {holds : List HoldCause}
    (hs : ∀ x ∈ stops, Kept s x.2) (ht : Kept s t) : TryKept s (tryAll s stops holds t) := by
  unfold tryAll
  split
  · rename_i k r
    have hb : ∀ (l : List (Stop × State)) (b : Stop × State), Kept s b.2 → (∀ x ∈ l, Kept s x.2) →
        Kept s (l.foldl (fun b x => if x.1.before b.1 then x else b) b).2 := by
      intro l
      induction l with
      | nil => exact fun b hb _ => hb
      | cons x l ih =>
        intro b hb hl
        refine ih _ ?_ fun y hy => hl y (List.mem_cons_of_mem _ hy)
        show Kept s (if x.1.before b.1 then x else b).2
        split
        · exact hl x List.mem_cons_self
        · exact hb
    have h := hb r k (hs k List.mem_cons_self) fun x hx => hs x (List.mem_cons_of_mem _ hx)
    exact h.then_eq rfl rfl rfl
  · exact Kept.refl s
  · exact ht

/-! Load streams. -/

theorem kept_xlElements (c eng p n0 : Nat) (st : Staging) (wr : Bool) (l : List Nat) (s : State) (leaf : Option Leaf)
    (acc : List (Nat × Nat × Byte)) : Kept s (xlElements c eng p n0 st wr l s leaf acc).2.1 := by
  induction l generalizing s leaf acc with
  | nil => exact Kept.refl s
  | cons n r ih =>
    unfold xlElements
    simp only
    split
    · exact Kept.refl s
    · have h1 : ∀ (b : Bool) (leaf : Option Leaf) (va : Nat),
          Kept s (match b, leaf with
            | true, some l => ((.inr l, s) : WalkRes × State)
            | _, _ => s.lookup c va).2 := by
        intro b leaf va
        split
        · exact Kept.refl s
        · exact kept_lookup s c va
      have h2 := h1 (match leaf with
        | some l => decide (l.va ≤ (st.elAddr n).toNat) && decide ((st.elAddr n).toNat < l.va + l.size)
        | none => false) leaf (st.elAddr n).toNat
      split
      · exact h2
      · revert h2
        generalize Prod.snd (α := WalkRes) (β := State) _ = t
        intro h2
        split
        · exact h2
        · have h3 : ∀ (b : Bool) (n : Nat), Kept s (if b = true then t else t.countHint c st.hint n) := by
            intro b n
            split
            · exact h2
            · exact h2.trans (kept_countHint _ _ _ _)
          split
          · exact h3 _ _
          · exact (h3 _ _).trans (ih _ _ _)

theorem kept_planBeat (s : State) (p : Nat) : Kept s (planBeat s p).2.2.1 := by
  unfold planBeat
  simp only
  split
  · exact kept_xlElements _ _ _ _ _ _ _ s _ _
  · split
    · exact Kept.refl s
    · split
      · exact Kept.refl s
      · exact Kept.refl s

theorem kept_doRequests (c : Nat) (l : List LineReq) (s : State) (acc : List (LineReq × List Byte × List Bool)) :
    Kept s (doRequests c l s acc).1 := by
  induction l generalizing s acc with
  | nil => exact Kept.refl s
  | cons x r ih =>
    unfold doRequests
    exact (kept_lineRequest s _ _ _ _ _ _).trans (ih _ _)

theorem kept_prefRequests (c : Nat) (l : List (Nat × Nat × BitVec 2)) (s : State) (acc : List LineReq) :
    Kept s (prefRequests c l s acc).1 := by
  induction l generalizing s acc with
  | nil => exact Kept.refl s
  | cons x r ih =>
    obtain ⟨a, va, h⟩ := x
    unfold prefRequests
    split
    · exact ih _ _
    · have h1 := kept_lookup s c va
      revert h1
      generalize s.lookup c va = q
      intro h1
      obtain ⟨res, t⟩ := q
      simp only
      split
      · exact h1.trans (ih _ _)
      · split
        · exact h1.trans (ih _ _)
        · exact h1.trans (ih _ _)

theorem kept_readBeat (s : State) (now : Nat) (pl : Plan) (got : List (LineReq × List Byte × List Bool)) :
    Kept s (readBeat s now pl got) := by
  unfold readBeat
  simp only
  exact kept_modCtx s _ (by exact fun _ h => h)

/-- The plans of the beats due: each stop with its state, and the state after them. -/
theorem kept_plans (s : State) (l : List Nat) (f : State × List (Stop × State) × List HoldCause × List Plan → Nat →
      State × List (Stop × State) × List HoldCause × List Plan)
    (hf : ∀ x p, (f x p).1 = x.1 ∧ (∃ k, (f x p).2.1 = x.2.1 ++ [(k, (planBeat s p).2.2.1)]) ∨
      (f x p).1 = (planBeat x.1 p).2.2.1 ∧ (f x p).2.1 = x.2.1)
    (x : State × List (Stop × State) × List HoldCause × List Plan) (h1 : Kept s x.1) (h2 : ∀ y ∈ x.2.1, Kept s y.2) :
    Kept s (l.foldl f x).1 ∧ ∀ y ∈ (l.foldl f x).2.1, Kept s y.2 := by
  induction l generalizing x with
  | nil => exact ⟨h1, h2⟩
  | cons p r ih =>
    refine ih _ ?_ ?_
    · rcases hf x p with ⟨h, -⟩ | ⟨h, -⟩
      · rw [h]
        exact h1
      · rw [h]
        exact h1.trans (kept_planBeat _ p)
    · rcases hf x p with ⟨-, k, h⟩ | ⟨-, h⟩
      · rw [h]
        intro y hy
        rcases List.mem_append.1 hy with hy | hy
        · exact h2 y hy
        · simp only [List.mem_singleton] at hy
          subst hy
          exact kept_planBeat s p
      · rw [h]
        exact h2

theorem tryKept_beatRead (s : State) : TryKept s (tryBeatRead s) := by
  unfold tryBeatRead
  simp only
  generalize hl : (List.range 8).filter (fun p => (s.core.ctx.ld p).dueAt s.core.now) = l
  generalize hf : (fun (x : State × List (Stop × State) × List HoldCause × List Plan) (p : Nat) => _) = f
  have hk := kept_plans s l f (by
    intro x p
    rw [← hf]
    simp only
    split
    · exact .inl ⟨rfl, _, rfl⟩
    · exact .inr ⟨rfl, rfl⟩) (s, [], [], []) (Kept.refl s) (by simp)
  revert hk
  generalize l.foldl f (s, [], [], []) = q
  intro hk
  obtain ⟨t, stops, holds, plans⟩ := q
  simp only at hk ⊢
  refine tryKept_all hk.2 ?_
  refine hk.1.trans ?_
  refine Kept.trans ?_ (kept_modCtx _ _ (by exact fun _ h => h))
  refine Kept.trans ?_ (Kept.foldl (fun t pl => kept_readBeat t _ pl _) _ _)
  refine Kept.trans ?_ (kept_doRequests _ _ _ _)
  exact kept_prefRequests _ _ t _

theorem tryKept_beatDeliver (s : State) : TryKept s (tryBeatDeliver s) := by
  unfold tryBeatDeliver
  simp only
  refine tryKept_all ?_ ?_
  · intro x hx
    rcases List.mem_append.1 hx with hx | hx
    · obtain ⟨k, -, rfl⟩ := List.mem_map.1 hx
      exact Kept.refl s
    · obtain ⟨p, -, hp⟩ := List.mem_filterMap.1 hx
      split at hp
      · simp only [Option.some.injEq] at hp
        subst hp
        exact Kept.refl s
      · cases hp
  · refine Kept.trans (Kept.foldl ?_ _ s) (kept_modCtx _ _ (by exact fun _ h => h))
    intro s x
    exact kept_mod s _ (by exact fun _ h => h)

/-! Store streams. -/

theorem kept_acceptBeat (s : State) (p : Nat) (b : W128) :
    (∀ k t, acceptBeat s p b = .inl (k, t) → Kept s t) ∧ ∀ t, acceptBeat s p b = .inr t → Kept s t := by
  unfold acceptBeat
  simp only
  split
  · refine ⟨?_, ?_⟩
    · rintro k t ⟨⟩
      exact Kept.refl s
    · rintro t ⟨⟩
  · split
    · generalize hx : xlElements _ _ _ _ _ _ _ _ _ _ = q
      have h := kept_xlElements s.cur.val 2 p ((s.core.ctx.st p).accepted * elsPerStoreBeat (s.core.ctx.st p).st.fmt)
        (s.core.ctx.st p).st true ((s.core.ctx.st p).st.beatEls (elsPerStoreBeat (s.core.ctx.st p).st.fmt)
          (s.core.ctx.st p).accepted) s (s.core.ctx.st p).leaf []
      rw [hx] at h
      obtain ⟨k, t, leaf, els⟩ := q
      cases k with
      | some k =>
        refine ⟨?_, ?_⟩
        · rintro k t ⟨⟩
          exact h
        · rintro t ⟨⟩
      | none =>
        refine ⟨?_, ?_⟩
        · rintro k t ⟨⟩
        · rintro t ⟨⟩
          exact h.trans (kept_modCtx _ _ (by exact fun _ h => h))
    · split
      · refine ⟨?_, ?_⟩
        · rintro k t ⟨⟩
          exact Kept.refl s
        · rintro t ⟨⟩
      · refine ⟨?_, ?_⟩
        · rintro k t ⟨⟩
        · rintro t ⟨⟩
          exact kept_modCtx _ _ (by exact fun _ h => h)

theorem kept_storeEl (s : State) (c pa : Nat) (b : List Byte) (hint : BitVec 2) (mt : Nat) : Kept s (s.storeEl c pa b hint mt) := by
  unfold State.storeEl
  simp only
  split
  · exact (kept_newId s).then_eq rfl rfl rfl
  · split
    · exact kept_sendHome s _ _ _ _
    · have h2 := (kept_mergeLine s c (pa / 128)).trans (kept_l1Access _ c (pa / 128) hint)
      revert h2
      generalize (s.mergeLine c (pa / 128)).l1Access c (pa / 128) hint = x
      intro h2
      obtain ⟨a, s2⟩ := x
      dsimp only at h2 ⊢
      split
      · split
        · exact h2.trans (kept_modAt _ _ _ (by exact fun _ h => h))
        · exact h2.trans (((kept_homeLine s2 c _).trans (kept_modAt _ _ _ (by exact fun _ h => h))).trans
            (kept_modAt _ _ _ (by exact fun _ h => h)))
      · exact h2.trans ((kept_sendHome s2 _ _ _ _).trans (kept_followVc _ _ _ _))

theorem kept_landStore (s : State) (l : StLand) : Kept s (landStore s l) := by
  unfold landStore
  simp only
  split
  · split
    · exact Kept.refl s
    · exact kept_storeEl s _ _ _ _ _
  · refine kept_modAt s _ _ fun k h => ?_
    have hf : ∀ (gs : List Nat) (k : Core), k.memOk → (gs.foldl (fun k g => k.landTag s.core.ctx.sup g l.tag) k).memOk := by
      intro gs
      induction gs with
      | nil => exact fun _ h => h
      | cons g r ih => exact fun k hk => ih _ (Core.memOk_landTag hk _ _ _)
    have hc : ∀ (l : Mem) (k : Core), k.memOk → (l.foldl (fun k x => k.noteBytes s.core.ctx.sup x.1 1) k).memOk := by
      intro l
      induction l with
      | nil => exact fun _ h => h
      | cons x r ih => exact fun k hk => ih _ (Core.memOk_noteBytes hk _ _ _)
    exact hf _ _ (hc _ _ (Core.memOk_lmWriteCells h _ _))

theorem outKept_storeBeatLand (s : State) : OutKept s (execStoreBeatLand s) := by
  unfold execStoreBeatLand
  simp only
  exact outKept_next ((kept_modCtx s _ (by exact fun _ h => h)).trans (Kept.foldl (fun s l => kept_landStore s l) _ _))

theorem outKept_globalBeatLate (p : BitVec 3) (d : Nat) (s : State) : OutKept s (execGlobalBeatLate p d s) :=
  outKept_next (kept_modCtx s _ (by exact fun _ h => h))

end Sys2Proof.Machine
end

