-- ==== Sys2Proof/Laws/KeptCopy.lean ====
section
/-! SUPPORT. `Kept` of the block-transfer engine's words, copies and near-memory jobs. -/

namespace Sys2Proof.Machine

/-! Lookups of words that translate at issue. -/

theorem kept_lookRanges (c f : Nat) (s : State) (l : List (Nat × Nat)) (acc : Looks) : Kept s (lookRanges c f s l acc).1 := by
  induction f generalizing s l acc with
  | zero => exact Kept.refl s
  | succ n ih =>
    cases l with
    | nil => exact Kept.refl s
    | cons x r =>
      obtain ⟨va, e⟩ := x
      unfold lookRanges
      split
      · exact ih _ _ _
      · split
        · exact ih _ _ _
        · exact Kept.refl s
        · split
          · exact (kept_countHit s c).trans (ih _ _ _)
          · exact Kept.refl s

theorem kept_issueLooks (s : State) (e : Nat) (rs : List (Nat × Nat)) : Kept s (issueLooks s e rs).1 := by
  unfold issueLooks
  simp only
  split
  · exact Kept.refl s
  · split
    · exact Kept.refl s
    · split
      · exact kept_lookRanges _ _ s _ _
      · exact (kept_lookRanges _ _ s _ _).trans (kept_setPend _ e fun _ => _)

theorem kept_walkOnce (s : State) (e : Nat) : Kept s (walkOnce s e) := by
  unfold walkOnce
  simp only
  split
  · exact Kept.refl s
  · rename_i va ed r h
    have h1 := kept_missWalk s s.cur.val va
    revert h1
    generalize s.missWalk s.cur.val va = q
    intro h1
    obtain ⟨res, t⟩ := q
    refine Kept.trans ?_ (kept_setPend _ e fun _ => _)
    cases res with
    | inl k => exact h1
    | inr x => exact h1.trans (kept_lookRanges _ _ _ _ _)

theorem outKept_pageWalk (s : State) : OutKept s (execPageWalk s) :=
  outKept_next ((kept_walkOnce s 5).trans (kept_walkOnce _ 6))

/-! Copies. -/

theorem kept_copyRead (s : State) (x : Copy) (lo n : Nat) : Kept s (s.copyRead x lo n).2 := by
  unfold State.copyRead
  simp only
  split
  · exact (Kept.foldl (fun s ln => kept_homeTouch s _ _ _) _ s).trans (Kept.foldl (fun s q => kept_nack s q) _ _)
  · exact Kept.refl s

theorem Core.memOk_copyBytes {c : Core} (h : c.memOk) (six : Option Nat) (u : Bool) (a : Nat) (l : List Byte) :
    (c.copyBytes six u a l).memOk := by
  unfold Core.copyBytes
  split
  · exact Core.memOk_landBytes h _ _ _
  · exact Core.memOk_lmWriteCells h _ _

theorem kept_noteCells (s : State) (cells : List Nat) : Kept s (s.noteCells cells) := by
  unfold State.noteCells
  refine Kept.foldl ?_ _ s
  intro s pa
  split
  · exact kept_modAt s _ _ fun _ h => Core.memOk_noteBytes h _ _ _
  · exact Kept.refl s

theorem kept_copyWrite (s : State) (w : Landing) (x : Copy) (lo : Nat) (b : List (Byte × Bool)) : Kept s (s.copyWrite w x lo b) := by
  have own : ∀ f : Core → Core, (∀ k, k.memOk → (f k).memOk) →
      Kept s (if (!w.rest || s.discards x.core) = true then s else s.modAt x.core f) := by
    intro f hf
    split
    · exact Kept.refl s
    · exact kept_modAt s _ _ hf
  unfold State.copyWrite
  dsimp only
  split
  · split
    · exact Kept.refl s
    · exact kept_modAt s _ _ fun _ h => Core.memOk_copyBytes h _ _ _ _
  · refine own _ fun k h => ?_
    obtain ⟨h1, h2, h3, h4, h5, h6⟩ := h
    split
    · exact ⟨h1, h2, h3, Memory.wf_memWriteN h4 _ _, h5, h6⟩
    · exact ⟨h1, Memory.wf_memWriteN h2 _ _, h3, h4, h5, h6⟩
  · refine own _ fun k h => ?_
    obtain ⟨h1, h2, h3, h4, h5, h6⟩ := h
    exact ⟨h1, h2, Memory.wf_memWriteN h3 _ _, h4, h5, h6⟩
  · have h := fun (qs gs : List Nat) (cs : Nat → List (Nat × Byte × Bool)) => (Kept.foldl (fun s q => kept_nack s q) qs s).trans
      (Kept.foldl (f := fun s g => s.homeWrite x.part x.ctx (cs g)) (fun s g => kept_homeWrite s _ _ _) gs _)
    split
    · exact Kept.trans (h _ _ _) (kept_noteCells _ _)
    · exact h _ _ _

theorem kept_copyTag (s : State) (w : Landing) (x : Copy) (u : Bool) (c g : Nat) (t : W16) : Kept s (s.copyTag w x u c g t) := by
  unfold State.copyTag
  split
  · exact Kept.refl s
  · refine kept_modAt s c _ fun k h => ?_
    split
    · exact Core.memOk_landTag h _ _ _
    · split
      · exact h
      · exact Core.memOk_setTag h _ _ _

theorem kept_copyLand (s : State) (w : Landing) (x : Copy) (lo : Nat) (b : List (Byte × Bool)) : Kept s (s.copyLand w x lo b).1 := by
  have hf : ∀ (err : List (Nat × Nat)) (u : Bool) (l : List (Nat × Nat)) (s : State),
      Kept s (l.foldl (fun s (c, g) =>
        if err.contains (c, g) then s.copyTag w x u c g 0xFFFF#16
        else match x.wtag with
          | some t => s.copyTag w x u c g t
          | none => s) s) := by
    intro err u l s
    refine Kept.foldl ?_ l s
    rintro s ⟨c, g⟩
    dsimp only
    split
    · exact kept_copyTag s _ _ _ _ _ _
    · split
      · exact kept_copyTag s _ _ _ _ _ _
      · exact Kept.refl s
  unfold State.copyLand
  dsimp only
  have h0 := fun err u l => (kept_copyWrite s w x lo b).trans (hf err u l _)
  split
  · split
    · exact Kept.trans (h0 _ _ _) (kept_copyTag _ _ _ _ _ _ _)
    · exact h0 _ _ _
  · split
    · exact Kept.trans (h0 _ _ _) (kept_copyTag _ _ _ _ _ _ _)
    · exact h0 _ _ _
  · exact h0 _ _ _

theorem kept_devStores (s : State) (c : Nat) : Kept s (s.devStores c) := by
  unfold State.devStores
  extract_lets first goes
  have h0 : Kept s { s with devs := s.devs.filter fun d => !goes d } := Kept.of_eq rfl rfl rfl
  exact h0.trans (Kept.foldl (fun s d => kept_sendHome s _ _ _ _) _ _)

theorem kept_landHbm (s : State) (k : Nat) (x : Copy) : Kept s (s.landHbm k x) := by
  unfold State.landHbm
  dsimp only
  have h1 : Kept s { s with hbm := s.hbm.eraseIdx k } := Kept.of_eq rfl rfl rfl
  exact ((h1.trans (kept_copyRead _ x 0 x.len)).trans (kept_copyLand _ _ _ _ _)).trans (kept_devStores _ _)

theorem kept_readChunk (s : State) (x : Copy) : Kept s (readChunk s x).1 := by
  unfold readChunk
  exact kept_copyRead s _ _ _

theorem tryKept_chunkRead (s : State) : TryKept s (tryChunkRead s) := by
  unfold tryChunkRead
  simp only
  refine tryKept_all ?_ (Kept.trans ?_ (kept_modCtx _ _ (by exact fun _ h => h)))
  · intro x hx
    obtain ⟨k, -, rfl⟩ := List.mem_map.1 hx
    exact Kept.refl s
  · refine Kept.foldl_fst ?_ _ s _
    intro s b x
    split
    · exact kept_readChunk s x
    · exact Kept.refl s

theorem Core.memOk_afterLand {c : Core} (h : c.memOk) (x : Copy) (j : Nat) (err : List (Nat × Nat)) : (afterLand c x j err).memOk := h

theorem kept_later (s : State) (x : Copy) (lo : Nat) (b : List (Byte × Bool)) : Kept s (s.later x lo b) := by
  unfold State.later
  extract_lets out
  split
  · exact Kept.of_eq rfl rfl rfl
  · exact Kept.refl s

theorem kept_landChunk (s : State) (x : Copy × Nat) : Kept s (landChunk s x) := by
  unfold landChunk
  dsimp only
  exact ((kept_copyLand s _ _ _ _).trans (kept_later _ _ _ _)).trans (kept_modAt _ _ _ fun _ h => Core.memOk_afterLand h _ _ _)

theorem tryKept_chunkLand (s : State) : TryKept s (tryChunkLand s) := by
  unfold tryChunkLand
  dsimp only
  have hl := Kept.foldl (fun s x => kept_landChunk s x) (gangChunks s) s
  split
  · refine tryKept_all ?_ hl
    intro x hx
    obtain ⟨y, -, rfl⟩ := List.mem_map.1 hx
    exact Kept.refl s
  · exact tryKept_all (by simp) hl

theorem outKept_hbmCopyLand (k : Nat) (s : State) : OutKept s (execHbmCopyLand k s) := by
  unfold execHbmCopyLand
  split
  · exact outKept_next (Kept.refl s)
  · split
    · exact outKept_next (Kept.refl s)
    · rename_i x h _
      exact outKept_next (kept_landHbm s k x)

theorem kept_outLand (s : State) (k : Nat) : Kept s (s.outLand k) := by
  unfold State.outLand
  split
  · exact Kept.refl s
  · dsimp only
    exact Kept.trans (t := { s with outLands := s.outLands.eraseIdx k }) (Kept.of_eq rfl rfl rfl) (kept_copyLand _ _ _ _ _)

theorem outKept_targetGatedNack (q : BitVec 6) (s : State) : OutKept s (execTargetGatedNack q s) := by
  unfold execTargetGatedNack
  refine outKept_next ?_
  split
  · exact kept_nack s _
  · exact Kept.refl s

theorem kept_of_looks {s t : State} {e : Nat} {rs : List (Nat × Nat)} {o : Option Looks}
    (h : issueLooks s e rs = (t, o)) : Kept s t := by
  have := kept_issueLooks s e rs
  rw [h] at this
  exact this

theorem tryKept_startCopy (s t : State) (h0 : Kept s t) (i : BitVec 4) (h : BitVec 2) (d : Desc) (src dst : CopyEnd)
    (bits : List Byte) : TryKept s (startCopy s t i h d src dst bits) := by
  unfold startCopy
  extract_lets c me sup r need cmd window
  split
  · exact h0
  · split
    · exact h0
    · split
      · exact h0
      · split
        · exact h0.trans (kept_issued _ _ _ _)
        split
        split
        · exact h0
        · exact Kept.refl s
        · have hA : ∀ (m : Nat), Kept s (((bits.foldl (fun t b => t.countHint m h (bitsOf b.toNat 6 2)) t.newId.2).wordActions
              m (fun ln => src.hasLine ln || dst.hasLine ln) dst.hasLine).issued 5 1 i) := fun m =>
            (((h0.trans (kept_newId t)).trans (Kept.foldl (fun t b => kept_countHint t m h _) bits _)).trans
              (kept_wordActions _ _ _ _)).trans (kept_issued _ _ _ _)
          have hB := hA me
          simp only
          revert hB
          generalize State.issued _ 5 1 i = u
          intro hB
          have hC : ∀ (p : Prop) [Decidable p] (f : Core → Core), (∀ k, k.memOk → (f k).memOk) → Kept s (if p then u.mod f else u) := by
            intro p _ f hf
            split
            · exact hB.trans (kept_mod u f hf)
            · exact hB
          have hD := hC (need = true) (fun k => { k with task := k.task.map fun y => { y with res := consume r y.res d.len } })
            (by exact fun _ h => h)
          split
          · exact hD.trans (kept_modCtx _ _ (by exact fun _ h => h))
          · exact hD.then_eq rfl rfl rfl

theorem tryKept_copy (w : DescWord) (i : BitVec 4) (h : BitVec 2) (d : BitVec 14) (s : State) : TryKept s (tryCopy w i h d s) := by
  unfold tryCopy
  split
  · exact trivial
  · split
    · exact trivial
    · split
      · rename_i hl
        exact kept_of_looks hl
      · rename_i t _ hl
        have hk : Kept s t := kept_of_looks hl
        split
        · exact hk
        · split
          · exact hk
          · exact tryKept_startCopy s t hk _ _ _ _ _ _

theorem tryKept_pref (i : BitVec 4) (h : BitVec 2) (d : BitVec 14) (s : State) : TryKept s (tryPref i h d s) := by
  unfold tryPref
  split
  · exact trivial
  · split
    · exact trivial
    · exact ((kept_flushLines s _ _).trans (kept_issued _ _ _ _)).trans (kept_modCtx _ _ (by exact fun _ h => h))

theorem outKept_btEchk (i : BitVec 4) (m : BitVec 2) (s : State) : OutKept s (execBtEchk i m s) :=
  outKept_next ((kept_issued s _ _ _).trans (kept_modCtx _ _ (by exact fun _ h => h)))

theorem tryKept_pin (i : BitVec 4) (k : BitVec 3) (a : BitVec 57) (n : Lit) (s : State) : TryKept s (tryPin i k a n s) := by
  unfold tryPin
  split
  · exact trivial
  · exact (kept_issued s _ _ _).trans (kept_mod _ _ (by exact fun _ h => h))

theorem tryKept_unpin (i : BitVec 4) (k : BitVec 3) (s : State) : TryKept s (tryUnpin i k s) := by
  unfold tryUnpin
  split
  · exact trivial
  · exact (kept_issued s _ _ _).trans (kept_mod _ _ (by exact fun _ h => h))

/-! Near-memory jobs. -/

theorem tryKept_nmc (i : BitVec 4) (a : BitVec 57) (s : State) : TryKept s (tryNmc i a s) := by
  unfold tryNmc
  simp only
  split
  · exact trivial
  · split
    · rename_i t hl
      have := kept_issueLooks s 5 [(a.toNat, a.toNat + 64)]
      rw [hl] at this
      exact this
    · rename_i t l hl
      have hk := kept_issueLooks s 5 [(a.toNat, a.toNat + 64)]
      rw [hl] at hk
      split
      · exact hk
      · have h1 := (hk.trans (kept_flushLines t s.cur.val fun _ => true)).trans (kept_newId _)
        have h2 := fun p => (h1.trans (kept_dropLines _ s.cur.val p)).trans (kept_issued _ 5 1 i)
        exact (h2 _).then_eq rfl rfl rfl

theorem tryKept_nmfence (i : BitVec 4) (a : BitVec 57) (n : Lit) (s : State) : TryKept s (tryNmfence i a n s) := by
  unfold tryNmfence
  simp only
  split
  · exact trivial
  · split
    · exact kept_issued s _ _ _
    · split
      · exact kept_setPend s 5 fun x => _
      · exact (kept_dropLines s _ _).trans (kept_issued _ _ _ _)

theorem kept_seqInc (s : State) (part : Nat) (ctx : W16) (pa : Nat) : Kept s (s.seqInc part ctx pa) := by
  unfold State.seqInc
  split
  · exact kept_nackAt s _
  · exact kept_homeWriteN s _ _ _ _

theorem kept_endJob (s : State) (j : Job) (st code index : Nat) (flags : Byte) : Kept s (endJob s j st code index flags) := by
  unfold endJob
  extract_lets t
  have h : Kept s t := by
    unfold t
    split
    · exact kept_nackAt s _
    · exact kept_homeWriteN s _ _ _ _
  split
  · exact h
  · split
    · exact h.trans (kept_seqInc _ _ _ _)
    · exact h

theorem kept_jobLook (s : State) (j : Job) (l : Option Leaf) (rd wr : Bool) (va z : Nat) : Kept s (jobLook s j l rd wr va z).2 := by
  unfold jobLook
  split
  · exact Kept.refl s
  · split
    rename_i r t h
    have hk : Kept s t := by
      have ht : t = (r, t).2 := rfl
      rw [ht, ← h]
      split
      · split
        · exact Kept.refl s
        · exact kept_lookupIn s _ _ _
      · exact kept_lookupIn s _ _ _
    split
    · exact hk
    · split
      · exact hk
      · exact hk

theorem kept_jobObj (s : State) (j : Job) (obj : Nat) : Kept s (jobObj s j obj).2 := by
  unfold jobObj
  exact kept_jobLook s j _ _ _ _ _

theorem outKept_nmJobAccept (k : Nat) (s : State) : OutKept s (execNmJobAccept k s) := by
  unfold execNmJobAccept
  split
  · exact outKept_next (Kept.refl s)
  · rename_i j _
    split
    · exact outKept_next (Kept.refl s)
    · split
      · exact outKept_next ((kept_nackAt s _).then_eq rfl rfl rfl)
      have h1 := kept_flushLines s j.core fun _ => true
      revert h1
      generalize s.flushLines j.core (fun _ => true) = t
      intro h1
      dsimp only
      split
      · exact outKept_next h1
      · have h2 := fun p => h1.trans (kept_dropLines t j.core p)
        generalize jobLines t _ _ = p
        replace h2 := h2 p
        revert h2
        generalize t.dropLines j.core p = u
        intro h2
        split
        · exact outKept_next ((Kept.then_eq (u := { u with jobs := u.jobs.eraseIdx k }) h2 rfl rfl rfl).trans
            (kept_modAt _ _ (fun k => { k with nmuDup := satAdd48 k.nmuDup 1 }) (by exact fun _ h => h)))
        · have h3 := h2.trans (kept_homeWriteN u j.part j.ctx (j.card + 48) (natLe 8 1))
          split
          · exact outKept_next (h3.then_eq rfl rfl rfl)
          · exact outKept_next ((h3.trans (kept_jobObj _ j _)).then_eq rfl rfl rfl)

theorem kept_jobAt (j : Job) (z : Nat) (r : JobRun) (i wp : Nat) (xp : Option Nat) : Kept r.s (jobAt j z r i wp xp).s := by
  unfold jobAt
  dsimp only
  split
  · show Kept r.s (State.nackEls r.s wp xp)
    unfold State.nackEls
    split
    · exact (kept_nackAt _ _).trans (kept_nackAt _ _)
    · exact kept_nackAt _ _
  · split
    · exact kept_homeWrite _ _ _ _
    · split
      · exact (kept_homeTouch _ _ _ _).trans (kept_homeWriteN _ _ _ _ _)
      · exact kept_homeWriteN _ _ _ _ _

theorem kept_jobEl (j : Job) (z : Nat) (r : JobRun) (i : Nat) : Kept r.s (jobEl j z r i).s := by
  unfold jobEl
  split
  · exact Kept.refl _
  · have h1 := kept_jobLook r.s j r.lw (readsW j.opc) true (j.w + i * z) z
    revert h1
    generalize jobLook r.s j r.lw (readsW j.opc) true (j.w + i * z) z = q
    intro h1
    obtain ⟨w, s⟩ := q
    dsimp only
    have h2 : Kept r.s (if readsX j.opc then jobLook s j r.lx true false (j.x + i * z) z else (none, s)).2 := by
      split
      · exact h1.trans (kept_jobLook _ _ _ _ _ _ _)
      · exact h1
    revert h2
    generalize (if readsX j.opc then jobLook s j r.lx true false (j.x + i * z) z else (none, s)) = q
    intro h2
    obtain ⟨x, t⟩ := q
    dsimp only at h2 ⊢
    split
    · rename_i _ lw _ lx _
      exact h2.trans (kept_jobAt j z { r with s := t, lw := some lw, lx := some lx } i _ _)
    · rename_i lw _
      exact h2.trans (kept_jobAt j z { r with s := t, lw := some lw } i _ _)
    · exact h2

theorem kept_runJob (s : State) (j : Job) : Kept s (runJob s j) := by
  unfold runJob
  split
  · exact kept_endJob s _ _ _ _ _
  · simp only
    refine Kept.trans ?_ (kept_endJob _ _ _ _ _ _)
    have h : ∀ (l : List Nat) (r : JobRun), Kept r.s (l.foldl (jobEl j ((cardBytes j.fmt).getD 1)) r).s := by
      intro l
      induction l with
      | nil => exact fun r => Kept.refl _
      | cons x l ih => exact fun r => (kept_jobEl j _ r x).trans (ih _)
    exact h _ ⟨s, none, none, 0#8, 0, j.count, false⟩

theorem outKept_nmJobComplete (k : Nat) (s : State) : OutKept s (execNmJobComplete k s) := by
  unfold execNmJobComplete
  split
  · exact outKept_next (Kept.refl s)
  · split
    · exact outKept_next (Kept.refl s)
    · refine outKept_next (Kept.trans (t := { s with jobs := s.jobs.eraseIdx k }) (Kept.of_eq rfl rfl rfl) (kept_runJob _ _))

end Sys2Proof.Machine
end

