-- ==== Sys2Proof/Laws/KeptCp.lean ====
section
/-! SUPPORT. `Kept` of the control processor's words and of the landing of their effects. -/

namespace Sys2Proof.Machine

theorem tryKept_spill (i : BitVec 4) (a : BitVec 5) (k : BitVec 9) (s : State) : TryKept s (trySpill i a k s) := by
  unfold trySpill
  split
  · exact trivial
  · exact (kept_issued s 0 1 i).trans (kept_modCtx _ _ fun _ h => Memory.wf_memWriteN h _ _)

theorem tryKept_fill (i : BitVec 4) (k : BitVec 9) (s : State) : TryKept s (tryFill i k s) := by
  unfold tryFill
  split
  · exact trivial
  · exact kept_result s _ _ _

theorem tryKept_load (i : BitVec 4) (a : BitVec 5) (off : Int) (size : Nat) (ext : Nat → W64) (s : State) :
    TryKept s (tryLoad i a off size ext s) := by
  unfold tryLoad
  simp only
  split
  · exact trivial
  · exact kept_result s _ _ _

theorem tryKept_ldt64 (i : BitVec 4) (a b : BitVec 5) (m : BitVec 8) (s : State) : TryKept s (tryLdt64 i a b m s) := by
  unfold tryLdt64
  simp only
  split
  · exact trivial
  · split
    · exact trivial
    · split
      · split
        · exact trivial
        · exact Kept.refl s
      · exact kept_result s _ _ _

theorem kept_issued_eff (s : State) (e occ : Nat) (i : BitVec 4) (x : CpEff) : Kept s ((s.issued e occ i).eff x) :=
  (kept_issued s e occ i).trans (kept_eff _ _)

theorem tryKept_store (i : BitVec 4) (a b : BitVec 5) (off : Int) (size : Nat) (s : State) :
    TryKept s (tryStore i a b off size s) := by
  unfold tryStore
  simp only
  split
  · exact trivial
  · exact kept_issued_eff s _ _ _ _

theorem tryKept_tagw (i : BitVec 4) (a b : BitVec 5) (s : State) : TryKept s (tryTagw i a b s) := by
  unfold tryTagw
  split
  · exact trivial
  · exact kept_issued_eff s _ _ _ _

theorem tryKept_tagr (i : BitVec 4) (a : BitVec 5) (s : State) : TryKept s (tryTagr i a s) := by
  unfold tryTagr
  split
  · exact trivial
  · exact kept_result s _ _ _

theorem tryKept_nld64 (i : BitVec 4) (a : BitVec 5) (q : BitVec 2) (s : State) : TryKept s (tryNld64 i a q s) := by
  unfold tryNld64
  split
  · exact trivial
  · exact kept_issued_eff s _ _ _ _

theorem tryKept_nst64 (i : BitVec 4) (a b : BitVec 5) (q : BitVec 2) (s : State) : TryKept s (tryNst64 i a b q s) := by
  unfold tryNst64
  split
  · exact trivial
  · exact kept_issued_eff s _ _ _ _

/-! Control words. -/

theorem kept_transfer (s : State) (i : BitVec 4) (p : Nat) (land : Bool) (f : Ctx → Ctx)
    (h : ∀ x, (f x).spm = x.spm) : Kept s (s.transfer i p land f) :=
  (kept_issued s 0 1 i).trans (kept_modCtx _ _ fun _ hx => by rw [h]; exact hx)

theorem kept_branch (s : State) (i : BitVec 4) (p : Nat) : Kept s (s.branch i p) := kept_transfer s i p true _ (by exact fun _ => rfl)

theorem kept_branchIf (s : State) (i : BitVec 4) (t : BitVec 14) (b : Bool) : Kept s (s.branchIf i t b) := by
  unfold State.branchIf
  split
  · exact kept_branch s _ _
  · exact kept_transfer s _ _ _ _ fun _ => rfl

theorem tryKept_brx (i : BitVec 4) (a : BitVec 5) (s : State) : TryKept s (tryBrx i a s) := by
  unfold tryBrx
  split
  · exact kept_branch s _ _
  · exact trivial

theorem tryKept_call (i : BitVec 4) (p : Nat) (s : State) : TryKept s (tryCall i p s) := by
  unfold tryCall
  split
  · exact trivial
  · exact kept_transfer s _ _ _ _ (by exact fun _ => rfl)

theorem tryKept_callx (i : BitVec 4) (a : BitVec 5) (s : State) : TryKept s (tryCallx i a s) := by
  unfold tryCallx
  split
  · exact tryKept_call _ _ s
  · exact trivial

theorem tryKept_ret (i : BitVec 4) (s : State) : TryKept s (tryRet i s) := by
  unfold tryRet
  split
  · exact trivial
  · exact kept_transfer s _ _ _ _ (by exact fun _ => rfl)

theorem tryKept_loop (i : BitVec 4) (a : BitVec 5) (d : BitVec 13) (p : Lit) (s : State) : TryKept s (tryLoop i a d p s) := by
  unfold tryLoop
  simp only
  split
  · exact trivial
  · split
    · exact kept_transfer s _ _ _ _ fun _ => rfl
    · exact kept_transfer s _ _ _ _ (by exact fun _ => rfl)

/-! Effects. -/

theorem kept_landEff (s : State) (me : Nat) (sup : Bool) (e : CpEff) : Kept s (landEff s me sup e) := by
  unfold landEff
  split
  · exact kept_modAt s _ _ fun _ h => Core.memOk_landBytes h _ _ _
  · exact kept_modAt s _ _ fun _ h => Core.memOk_landTag h _ _ _
  · exact kept_modAt s _ _ fun _ h => Core.memOk_landBytes h _ _ _
  all_goals exact Kept.refl s

theorem outKept_cpResultDrop (s : State) : OutKept s (execCpResultDrop s) :=
  outKept_next (kept_modCtx s _ fun _ h => h)

theorem outKept_cpStoreLand (s : State) : OutKept s (execCpStoreLand s) := by
  unfold execCpStoreLand
  simp only
  exact outKept_next ((kept_modCtx s _ (by exact fun _ h => h)).trans (Kept.foldl (fun s e => kept_landEff s _ _ e) _ _))

theorem outKept_neighbourLoadRead (s : State) : OutKept s (execNeighbourLoadRead s) := by
  unfold execNeighbourLoadRead
  exact outKept_next (kept_modCtx s _ (by exact fun _ h => h))

end Sys2Proof.Machine
end

