-- ==== Sys2Proof/Laws/KeptGrid.lean ====
section
/-! SUPPORT. `Kept` of the grid's words and events, and of vector and chain words. -/

namespace Sys2Proof.Machine

/-! The grid. -/

theorem kept_modGrid (s : State) (f : Grid → Grid) : Kept s (s.modGrid f) := kept_mod s _ (by exact fun _ h => h)

theorem kept_issued_modGrid (s : State) (i : BitVec 4) (f : Grid → Grid) : Kept s ((s.issued 3 1 i).modGrid f) :=
  (kept_issued s 3 1 i).trans (kept_modGrid _ _)

theorem tryKept_grCfg (i : BitVec 4) (g : BitVec 10) (s : State) : TryKept s (tryGrCfg i g s) := by
  unfold tryGrCfg
  simp only
  split
  · exact trivial
  · exact kept_issued_modGrid s i _

theorem tryKept_grConst (i : BitVec 4) (el : BitVec 6) (k : BitVec 4) (v : W32) (s : State) : TryKept s (tryGrConst i el k v s) := by
  unfold tryGrConst
  split
  · exact trivial
  · exact kept_issued_modGrid s i _

theorem tryKept_grStart (i : BitVec 4) (s : State) : TryKept s (tryGrStart i s) := by
  unfold tryGrStart
  simp only
  split
  · exact trivial
  · exact kept_issued_modGrid s i _

theorem outKept_grStop (i : BitVec 4) (s : State) : OutKept s (execGrStop i s) := outKept_next (kept_issued_modGrid s i _)

theorem outKept_gridCfgDone (s : State) : OutKept s (execGridCfgDone s) := outKept_next (kept_modGrid s _)

/-- A fold over a state and the stops found. -/
theorem kept_collect {α : Type} {s : State} {f : State × List (Stop × State) → α → State × List (Stop × State)}
    (hf : ∀ q x, Kept s q.1 ∧ (∀ y ∈ q.2, Kept s y.2) → Kept s (f q x).1 ∧ ∀ y ∈ (f q x).2, Kept s y.2) (l : List α)
    (q : State × List (Stop × State)) (h : Kept s q.1 ∧ ∀ y ∈ q.2, Kept s y.2) :
    Kept s (l.foldl f q).1 ∧ ∀ y ∈ (l.foldl f q).2, Kept s y.2 := by
  induction l generalizing q with
  | nil => exact h
  | cons x l ih => exact ih _ (hf q x h)

theorem tryKept_contexts (s : State) : TryKept s (tryContexts s) := by
  unfold tryContexts
  extract_lets now
  have h := kept_collect (s := s) (f := fun (x : State × List (Stop × State)) p =>
    match acceptBeat x.1 p ((s.core.grid.el (8 * p + 7)).links.getD 1 0#128) with
    | .inl (k, _) =>
      (x.1, x.2 ++ [(k, match acceptBeat s p ((s.core.grid.el (8 * p + 7)).links.getD 1 0#128) with
        | .inl (_, u) => u
        | .inr u => u)])
    | .inr u => (u, x.2)) (by
      intro q p h
      split
      · refine ⟨h.1, fun x hx => ?_⟩
        rcases List.mem_append.1 hx with hx | hx
        · exact h.2 x hx
        · rw [List.mem_singleton] at hx
          subst hx
          split
          · rename_i h
            exact (kept_acceptBeat s _ _).1 _ _ h
          · rename_i h
            exact (kept_acceptBeat s _ _).2 _ h
      · rename_i h'
        exact ⟨h.1.trans ((kept_acceptBeat _ _ _).2 _ h'), h.2⟩) (s.core.grid.presents now) (s, []) ⟨Kept.refl s, by simp⟩
  split
  rename_i t ks e
  replace h : Kept s (t, ks).1 ∧ ∀ y ∈ (t, ks).2, Kept s y.2 := by rw [← e]; exact h
  split
  rename_i ms g e'
  refine tryKept_all ?_ (h.1.trans (kept_modGrid _ _))
  intro x hx
  rcases List.mem_append.1 hx with hx | hx
  · exact h.2 x hx
  · obtain ⟨e, -, rfl⟩ := List.mem_map.1 hx
    exact Kept.refl s

theorem tryKept_resultLand (s : State) : TryKept s (tryResultLand s) := by
  unfold tryResultLand
  simp only
  split
  · exact trivial
  · exact (kept_modGrid s _).trans (kept_modCtx _ _ (by exact fun _ h => h))

theorem outKept_sinkFinish (s : State) : OutKept s (execSinkFinish s) := outKept_next (kept_modGrid s _)
theorem outKept_gridDone (s : State) : OutKept s (execGridDone s) := outKept_next (kept_modGrid s _)

/-! Vector and chain words. -/

theorem tryKept_pass (i : BitVec 4) (rules : Bool) (regs : List (Region × BitVec 5)) (p : Pass) (s : State) :
    TryKept s (tryPass i rules regs p s) := by
  unfold tryPass
  simp only
  split
  · exact trivial
  · split
    · exact trivial
    · exact kept_issued_modGrid s i _

theorem tryKept_map (i : BitVec 4) (op : Nat) (f : BitVec 5) (md : BitVec 2) (pred : BitVec 3) (dst : Region)
    (srcs : List Region) (s : State) : TryKept s (tryMap i op f md pred dst srcs s) := tryKept_pass _ _ _ _ _

theorem tryKept_nqenc (i : BitVec 4) (fs fd : BitVec 5) (dst a : Region) (s : State) : TryKept s (tryNqenc i fs fd dst a s) := by
  unfold tryNqenc
  simp only
  split
  · rename_i t h
    have := tryKept_pass i (dst.count == a.count && regBase dst % 128 == 0 && dst.stride == 8#13) [(a, fs)]
      (mkPass s.core.now s.core.ctx.sup (.nqenc fd) fs fd 0#2 0#3 dst [a] (passWidth fs) a.count.toNat 6) s
    rw [h] at this
    split
    · exact this
    · exact trivial
  · exact tryKept_pass _ _ _ _ _

theorem outKept_grChain (i : BitVec 4) (md : BitVec 2) (dst src : Region) (src2 : Option Region) (ops : List Lit) (s : State) :
    OutKept s (execGrChain i md dst src src2 ops s) := by
  unfold execGrChain
  exact outKept_finish_self (tryKept_pass _ _ _ _ _)

theorem outKept_passStepRead (s : State) : OutKept s (execPassStepRead s) := outKept_next (kept_modGrid s _)

theorem Core.memOk_lmPutBits {c : Core} (h : c.memOk) (u : Bool) (b n v : Nat) : (c.lmPutBits u b n v).memOk := by
  unfold Core.lmPutBits
  exact Core.memOk_landBytes h _ _ _

theorem Core.memOk_foldl {α : Type} {f : Core → α → Core} (hf : ∀ c x, c.memOk → (f c x).memOk) (l : List α) {c : Core}
    (h : c.memOk) : (l.foldl f c).memOk := by
  induction l generalizing c with
  | nil => exact h
  | cons x l ih => exact ih (hf c x h)

theorem Core.memOk_foldl_fst {α β : Type} {f : Core × β → α → Core × β} (hf : ∀ c b x, c.memOk → (f (c, b) x).1.memOk) (l : List α)
    {c : Core} (b : β) (h : c.memOk) : (l.foldl f (c, b)).1.memOk := by
  induction l generalizing c b with
  | nil => exact h
  | cons x l ih => exact ih (c := (f (c, b) x).1) _ (hf c b x h)

theorem memOk_scanStep (p : Pass) (l : List (Nat × W64)) (c : Core) (fl : Byte) (h : c.memOk) : (scanStep p l c fl).2.1.memOk := by
  induction l generalizing p c fl with
  | nil => exact h
  | cons x l ih => exact ih _ _ _ (Core.memOk_lmPutBits h _ _ _ _)

theorem memOk_encRecord (p : Pass) (fd : BitVec 5) (c : Core) (r : Nat) (h : c.memOk) : (encRecord p fd c r).memOk := by
  unfold encRecord
  simp only
  exact Core.memOk_landBytes (Core.memOk_foldl (fun c x h => Core.memOk_lmPutBits h _ _ _ _) _ h) _ _ _

theorem memOk_passWrite (p : Pass) (k : Core) (c : Nat) (h : k.memOk) : (Pass.write p k c).2.1.memOk := by
  unfold Pass.write
  split
  · split
    · exact Core.memOk_lmPutBits h _ _ _ _
    · exact h
  · split
    · exact h
    · dsimp only
      split
      · split
        · exact h
        · exact Core.memOk_foldl (fun c x h => memOk_encRecord _ _ _ _ h) _
            (Core.memOk_foldl_fst (fun c b x h => Core.memOk_lmPutBits h _ _ _ _) _ _ h)
      · exact memOk_scanStep _ _ _ _ h
      · exact Core.memOk_foldl_fst (fun c b x h => Core.memOk_lmPutBits h _ _ _ _) _ _ h

theorem outKept_passStepWrite (s : State) : OutKept s (execPassStepWrite s) := by
  unfold execPassStepWrite
  simp only
  refine outKept_next ?_
  rw [State.mod_eq_setAt]
  refine kept_setAt s _ _ fun hs => ?_
  have h0 : s.core.memOk := by rw [State.core_eq_at]; exact hs.2 _
  have H : ∀ (l : List Pass) (ps : List Pass) (k : Core) (fl : Byte), k.memOk →
      (l.foldl (fun (x : List Pass × Core × Byte) p => (x.1 ++ [(Pass.write p x.2.1 s.core.now).1], (Pass.write p x.2.1 s.core.now).2.1,
        x.2.2 ||| (Pass.write p x.2.1 s.core.now).2.2)) (ps, k, fl)).2.1.memOk := by
    intro l
    induction l with
    | nil => exact fun _ _ _ h => h
    | cons p l ih => exact fun ps k fl h => ih _ _ _ (memOk_passWrite p k _ h)
  exact H _ _ _ _ h0

end Sys2Proof.Machine
end

