-- ==== Sys2Proof/Tests/Slice0.lean ====
section
/-! SUPPORT. Tests: words of the spec's encodings, ill-formed terms, single steps on values the spec gives, and for each
statement with hypotheses a witness that meets them, clause by clause. -/

namespace Sys2Proof.Tests
open Sys2Proof Sys2Proof.Machine Sys2Proof.Claims
set_option Elab.async false

/-! Small states. -/

/-- A task of 4096 granted LM bytes, 256 of SPM and two retention registers, with batches, not strict. -/
def task0 : Task :=
  { lid := 1#32, tile := 1#48, phase := 0, ctx := 0#16, part := 0, supv := false, strict := false, pinned := false,
    cor := true, batch := true, lmg := 0x1000, spmg := 0x100, ret := 2, sgap := 100, res := [], t0 := true, rampNs := 0,
    rampFrom := 0, granted := true, ran := true }

/-- Reset with task0 on core 0, whose belt begins with these values. -/
def belt (l : List W64) : State :=
  State.reset.mod fun k => { k with task := some task0, ctx := { k.ctx with rq := l ++ List.replicate (16 - l.length) 0#64 } }

/-- The same with a changed context. -/
def inCtx (l : List W64) (f : Ctx → Ctx) : State := (belt l).modCtx f

/-- Reset with one entry at the head of queue e, for a word of the given literals, in a changed core. -/
def inCore (f : Core → Core) : State := (belt []).mod f

/-- A check of one state: every memory is in canonical form. -/
def canonB (s : State) : Bool :=
  Memory.wf s.gmem && s.cores.toList.all fun c => Memory.wf c.lm && Memory.wf c.imem && Memory.wf c.gcs
    && Memory.wf c.simem && Memory.wf c.slm && Memory.wf c.ctx.spm

theorem canon_of_canonB {s : State} (h : canonB s = true) : s.canon := by
  simp only [canonB, Bool.and_eq_true, List.all_eq_true] at h
  refine ⟨h.1, fun c => ?_⟩
  unfold State.at
  split
  · obtain ⟨⟨⟨⟨⟨h1, h2⟩, h3⟩, h4⟩, h5⟩, h6⟩ := h.2 s.cores[c] (by simp)
    exact ⟨h1, h2, h3, h4, h5, h6⟩
  · exact Core.memOk_reset c

theorem none_in {α : Type} {l : List α} (h : l = []) (x : α) : x ∉ l := by simp [h]

theorem getElem_nil {α : Type} (n : Nat) (r : α) : ¬([] : List α)[n]? = some r := by simp

/-- The bytes of a little-endian number. -/
def bytesOf (n v : Nat) : List Byte := (List.range n).map fun i => BitVec.ofNat 8 (v / 256 ^ i)

/-- The state `inCore f` with a page of 2 MiB of memory type mt at virtual 0x1000000, physical pa, for partition 0, which
is enabled with quad 0 and the HBM below 64 GiB: in the page tables from 0x10000 on (R316, R317) and in the TLB. -/
def mappedAt (pa mt : Nat) (f : Core → Core) : State :=
  let b := 0x1B + 64 * mt
  let s := inCore fun k => f { k with trnRoot := 0x10000#64 }
  let t : State := { s with gmem := ([(0x10000, 0x11001), (0x11000, 0x12001), (0x12000, 0x13001),
    (0x13040, pa + b)] : List (Nat × Nat)).foldl (fun m e => memWriteN m e.1 (bytesOf 8 e.2)) [] }
  (t.modQuad 0 fun q => { q with tlb := [⟨0#16, 0, 0x1000000, 0x200000, pa, BitVec.ofNat 8 b⟩] }).modPart 0
    fun p => { p with en := true, qmask := 1#48, hbm := 0x10000#64, win := 0xFFFF#16 }

/-- The same in HBM, at 0x400000. -/
def mapped (mt : Nat) (f : Core → Core) : State := mappedAt 0x400000 mt f

/-- A word of queue 5 of core 0 finds n bytes from va on without a walk, may read (rd) and write (wr) them, and what it
finds has a property. -/
def found (s : State) (va n : Nat) (rd wr : Bool) (p : State → List (Nat × Nat × Nat × Byte) → Bool) : Bool :=
  match issueLooks s 5 [(va, va + n)] with
  | (u, some l) => match pieces s l rd wr va n with | .inr ps => p u ps | .inl _ => false
  | _ => false

theorem found_spec {s va n rd wr p} (h : found s va n rd wr p = true) :
    ∃ u l ps, LooksUp s [(va, va + n)] u l ∧ pieces s l rd wr va n = .inr ps ∧ p u ps = true := by
  unfold found at h
  unfold LooksUp
  split at h
  · split at h
    · exact ⟨_, _, _, ‹_›, ‹_›, h⟩
    · cases h
  · cases h

/-- A descriptor as a number (R135): source, destination, length, kinds and flags of its fourth double word. -/
def desc (src dst len k : Nat) : Nat := src + dst * 2 ^ 64 + len * 2 ^ 128 + k * 2 ^ 192

/-- Reset, task0, with the bytes of a descriptor at LM address 0. -/
def withDesc (v : Nat) : State := inCore fun k => { k with lm := memWriteN k.lm 0 (bytesOf 32 v) }

/-- Reset with a page, task0, with the bytes of a descriptor at LM address 0. -/
def withDescAt (pa mt v : Nat) (f : Core → Core) : State :=
  mappedAt pa mt fun k => f { k with lm := memWriteN k.lm 0 (bytesOf 32 v) }

/-- A copy of core 0 from own LM to own IMEM, issued at cycle 0. -/
def copy0 : Copy :=
  { id := 0, core := 0, route := .lself, src := .lm 0 0 false, dst := .imem 0, len := 64, issue := 0, ready := 0, exp := none, wtag := none,
    og := 0, next := 0, pend := [], err := [], checked := [], supv := false, who := 0, dev := false, acc := [], part := 0, ctx := 0#16, arrive := 0, retrain := none }

/-- A near-memory job of core 0: a card at 0x400000, operation 1 on one FP32 element at 0x1000000. -/
def job0 : Job :=
  { id := 0, core := 0, ctx := 0#16, part := 0, lid := 1#32, phase := 0, sup := false, card := 0x400000, copies := [], accepted := false, code := 0,
    opc := 1, fmt := 1#5, rnd := 0#2, count := 1, sa := 0#64, sb := 0#64, w := 0x1000000, x := 0, obj := 0, objPa := none, root := 0x10000#64, kc := false }

/-- An empty line of the L1D or the vault cache. -/
def line0 (pa way : Nat) : Line := blankLine pa way 0#2 none 0 0 0#16

/-! Words written out from the spec's encodings. -/

/-- Each list of words decodes to its instruction, and the encoder gives the words back. -/
def decodes (l : List (List W32 × Instr)) : Bool := l.all fun p => (decodeWords p.1).toOption == some (p.2, []) && encode p.2 == p.1

/-- R85. -/
theorem test_decode_common : decodes
  [ ([0xBE000000#32], .cpNop 5#3 15#4),
    ([0x00040064#32], .wait 0#3 0#4 100#18),
    ([0xC1F80000#32, 0xE0000008#32], .untilStamp 6#3 0#4 8#29) ] = true := by decide +kernel

/-- R101-R121. -/
theorem test_decode_cp_1 : decodes
  [ ([0x00083F00#32], .cpAdd 0#4 1#5 31#5),
    ([0x020C5E00#32], .cpSub 1#4 2#5 30#5),
    ([0x04107D00#32], .cpMul 2#4 3#5 29#5),
    ([0x06149C00#32], .cpMulh 3#4 4#5 28#5),
    ([0x0818BB00#32], .cpAnd 4#4 5#5 27#5),
    ([0x0A1CDA00#32], .cpOr 5#4 6#5 26#5),
    ([0x0C20F900#32], .cpXor 6#4 7#5 25#5),
    ([0x0E251800#32], .cpAndn 7#4 8#5 24#5),
    ([0x10293700#32], .cpShl 8#4 9#5 23#5),
    ([0x122D5600#32], .cpShr 9#4 10#5 22#5),
    ([0x14317500#32], .cpSar 10#4 11#5 21#5),
    ([0x16359400#32], .cpMin 11#4 12#5 20#5),
    ([0x1839B300#32], .cpMax 12#4 13#5 19#5),
    ([0x02425FFF#32], .cpAddi 1#4 18#5 8191#13),
    ([0x02465FFE#32], .cpAndi 1#4 18#5 8190#13),
    ([0x024A5FFD#32], .cpOri 1#4 18#5 8189#13),
    ([0x024E5FFC#32], .cpXori 1#4 18#5 8188#13),
    ([0x0050603F#32], .cpShli 0#4 3#5 63#6),
    ([0x0054603E#32], .cpShri 0#4 3#5 62#6),
    ([0x0058603D#32], .cpSari 0#4 3#5 61#6) ] = true := by decide +kernel

/-- R101-R121. -/
theorem test_decode_cp_2 : decodes
  [ ([0x0063FFFF#32], .cpLim 0#4 0x3FFFF#18),
    ([0x00660000#32, 0xE0000000#32, 0xE0000001#32], .cpLimx 0#4 0x20#6 1#58),
    ([0x00684300#32], .cpCeq 0#4 2#5 3#5),
    ([0x006C4400#32], .cpCne 0#4 2#5 4#5),
    ([0x00704500#32], .cpClt 0#4 2#5 5#5),
    ([0x00744600#32], .cpCle 0#4 2#5 6#5),
    ([0x00784700#32], .cpCltu 0#4 2#5 7#5),
    ([0x007C4800#32], .cpCleu 0#4 2#5 8#5),
    ([0x00805000#32], .cpCeqi 0#4 2#5 4096#13),
    ([0x00845001#32], .cpClti 0#4 2#5 4097#13),
    ([0x00880110#32], .cpSel 0#4 0#5 1#5 2#5),
    ([0x008D4000#32], .cpPut 0#4 5#4 0#5),
    ([0x00902003#32], .cpSpill 0#4 1#5 3#9),
    ([0x00940003#32], .cpFill 0#4 3#9),
    ([0x00A00008#32], .cpLd8 0#4 0#5 8#13),
    ([0x00A42008#32], .cpLd8s 0#4 1#5 8#13),
    ([0x00A84008#32], .cpLd16 0#4 2#5 8#13),
    ([0x00AC6008#32], .cpLd16s 0#4 3#5 8#13),
    ([0x00B08008#32], .cpLd32 0#4 4#5 8#13),
    ([0x00B4A008#32], .cpLd32s 0#4 5#5 8#13) ] = true := by decide +kernel

/-- R101-R121. -/
theorem test_decode_cp_3 : decodes
  [ ([0x00B8C008#32], .cpLd64 0#4 6#5 8#13),
    ([0x00BC22FF#32], .cpLdt64 0#4 1#5 2#5 0xFF#8),
    ([0x00C00102#32], .cpSt8 0#4 0#5 1#5 2#8),
    ([0x00C40103#32], .cpSt16 0#4 0#5 1#5 3#8),
    ([0x00C80104#32], .cpSt32 0#4 0#5 1#5 4#8),
    ([0x00CC0105#32], .cpSt64 0#4 0#5 1#5 5#8),
    ([0x00D00100#32], .cpTagw 0#4 0#5 1#5),
    ([0x00D52000#32], .cpTagr 0#4 9#5),
    ([0x00D88040#32], .cpNld64 0#4 4#5 1#2),
    ([0x00DC81C0#32], .cpNst64 0#4 4#5 1#5 3#2),
    ([0x01000021#32], .cpBr 0#4 0x21#14),
    ([0x0105C041#32], .cpBz 0#4 7#4 0x41#14),
    ([0x010BFFFF#32], .cpBnz 0#4 15#4 0x3FFF#14),
    ([0x010C4000#32], .cpBrx 0#4 2#5),
    ([0x01100081#32], .cpCall 0#4 0x81#14),
    ([0x01160000#32], .cpCallx 0#4 16#5),
    ([0x05180000#32], .cpRet 2#4),
    ([0x051C0003#32, 0xE0000004#32], .cpLoop 2#4 0#5 3#13 4#29),
    ([0x01400000#32], .cpRdlcc 0#4),
    ([0x03440000#32], .cpRdwtc 1#4) ] = true := by decide +kernel

/-- R101-R121. -/
theorem test_decode_cp_4 : decodes
  [ ([0x05480000#32], .cpRdhdc 2#4),
    ([0x074C0000#32], .cpRdflag 3#4),
    ([0x0150001F#32], .cpClrflag 0#4 0x1F#8) ] = true := by decide +kernel

/-- R124, R127, R134. -/
theorem test_decode_ld : decodes
  [ ([0x20088000#32, 0xE0000200#32, 0xE0000000#32], .ldBase 0#4 1#3 0x4000000000#57),
    ([0x200D0080#32, 0xE0000007#32, 0xFFFFFFFE#32], .ldDim 0#4 1#2 128#16 0xFFFFFFFE#32),
    ([0x20107600#32], .ldFmt 0#4 3#5 5#3 2#2),
    ([0x20150005#32], .ldTag 0#4 1#2 5#16),
    ([0x20180002#32], .ldRate 0#4 2#8),
    ([0x201C0000#32], .ldStart 0#4),
    ([0x201D0000#32, 0xE0000016#32], .ldStartTimed 0#4 (.stamp 22#29)),
    ([0x201E0000#32, 0xE0000001#32, 0xE0000005#32], .ldStartTimed 0#4 (.abs 536870917#58)),
    ([0x20200000#32], .ldStop 0#4) ] = true := by decide +kernel

/-- R124, R127, R134. -/
theorem test_decode_st : decodes
  [ ([0x40088000#32, 0xE0000200#32, 0xE0000000#32], .stBase 0#4 1#3 0x4000000000#57),
    ([0x400D0080#32, 0xE0000007#32, 0xFFFFFFFE#32], .stDim 0#4 1#2 128#16 0xFFFFFFFE#32),
    ([0x40107640#32], .stFmt 0#4 3#5 5#3 2#2 1#2),
    ([0x40160005#32], .stTag 0#4 2#2 5#16),
    ([0x40180002#32], .stRate 0#4 2#8),
    ([0x401C0000#32], .stStart 0#4),
    ([0x401D0000#32, 0xE0000016#32], .stStartTimed 0#4 (.stamp 22#29)),
    ([0x401E0000#32, 0xE0000001#32, 0xE0000005#32], .stStartTimed 0#4 (.abs 536870917#58)),
    ([0x40200000#32], .stStop 0#4) ] = true := by decide +kernel

/-- R208-R219. -/
theorem test_decode_gr_1 : decodes
  [ ([0x60080800#32], .grCfg 0#4 8#10),
    ([0x600C5200#32, 0xE0000001#32, 0xFF800000#32], .grConst 0#4 5#6 2#4 0x3F800000#32),
    ([0x60100000#32, 0xE000000A#32], .grStart 0#4 10#29),
    ([0x60140000#32], .grStop 0#4),
    ([0x60402800#32, 0xE0000200#32, 0xE0080040#32, 0xE0000100#32, 0xE0080040#32, 0xE0000180#32, 0xFFF80040#32], .grVadd 0#4 1#5 1#2 ⟨512#17, 8#13, 64#16⟩ ⟨256#17, 8#13, 64#16⟩ ⟨384#17, 8184#13, 64#16⟩),
    ([0x60442800#32, 0xE0000200#32, 0xE0080040#32, 0xE0000100#32, 0xE0080040#32, 0xE0000180#32, 0xFFF80040#32], .grVsub 0#4 1#5 1#2 ⟨512#17, 8#13, 64#16⟩ ⟨256#17, 8#13, 64#16⟩ ⟨384#17, 8184#13, 64#16⟩),
    ([0x60482800#32, 0xE0000200#32, 0xE0080040#32, 0xE0000100#32, 0xE0080040#32, 0xE0000180#32, 0xFFF80040#32], .grVmul 0#4 1#5 1#2 ⟨512#17, 8#13, 64#16⟩ ⟨256#17, 8#13, 64#16⟩ ⟨384#17, 8184#13, 64#16⟩),
    ([0x604C2000#32, 0xE0000200#32, 0xE0080040#32, 0xE0000100#32, 0xE0080040#32, 0xE0000180#32, 0xFFF80040#32], .grVmin 0#4 1#5 ⟨512#17, 8#13, 64#16⟩ ⟨256#17, 8#13, 64#16⟩ ⟨384#17, 8184#13, 64#16⟩),
    ([0x60502000#32, 0xE0000200#32, 0xE0080040#32, 0xE0000100#32, 0xE0080040#32, 0xE0000180#32, 0xFFF80040#32], .grVmax 0#4 1#5 ⟨512#17, 8#13, 64#16⟩ ⟨256#17, 8#13, 64#16⟩ ⟨384#17, 8184#13, 64#16⟩),
    ([0x60568000#32, 0xE0000200#32, 0xE0080040#32, 0xE0000100#32, 0xE0080040#32, 0xE0000180#32, 0xFFF80040#32], .grVand 0#4 20#5 ⟨512#17, 8#13, 64#16⟩ ⟨256#17, 8#13, 64#16⟩ ⟨384#17, 8184#13, 64#16⟩),
    ([0x605A8000#32, 0xE0000200#32, 0xE0080040#32, 0xE0000100#32, 0xE0080040#32, 0xE0000180#32, 0xFFF80040#32], .grVor 0#4 20#5 ⟨512#17, 8#13, 64#16⟩ ⟨256#17, 8#13, 64#16⟩ ⟨384#17, 8184#13, 64#16⟩),
    ([0x605E8000#32, 0xE0000200#32, 0xE0080040#32, 0xE0000100#32, 0xE0080040#32, 0xE0000180#32, 0xFFF80040#32], .grVxor 0#4 20#5 ⟨512#17, 8#13, 64#16⟩ ⟨256#17, 8#13, 64#16⟩ ⟨384#17, 8184#13, 64#16⟩),
    ([0x60628000#32, 0xE0000200#32, 0xE0080040#32, 0xE0000100#32, 0xE0080040#32, 0xE0000180#32, 0xFFF80040#32], .grVsadd 0#4 20#5 ⟨512#17, 8#13, 64#16⟩ ⟨256#17, 8#13, 64#16⟩ ⟨384#17, 8184#13, 64#16⟩),
    ([0x60642200#32, 0xE0000200#32, 0xE0080040#32, 0xE0000100#32, 0xE0080040#32, 0xE0000180#32, 0xFFF80040#32], .grVcmp 0#4 1#5 2#3 ⟨512#17, 8#13, 64#16⟩ ⟨256#17, 8#13, 64#16⟩ ⟨384#17, 8184#13, 64#16⟩),
    ([0x60683800#32, 0xE0000200#32, 0xE0080040#32, 0xE0000100#32, 0xE0080040#32, 0xE0000180#32, 0xFFF80040#32, 0xE00001C0#32, 0xE0000040#32], .grVfma 0#4 1#5 3#2 ⟨512#17, 8#13, 64#16⟩ ⟨256#17, 8#13, 64#16⟩ ⟨384#17, 8184#13, 64#16⟩ ⟨448#17, 0#13, 64#16⟩),
    ([0x606C2000#32, 0xE0000200#32, 0xE0080040#32, 0xE0000100#32, 0xE0080040#32, 0xE0000180#32, 0xFFF80040#32, 0xE00001C0#32, 0xE0000040#32], .grVsel 0#4 1#5 ⟨512#17, 8#13, 64#16⟩ ⟨256#17, 8#13, 64#16⟩ ⟨384#17, 8184#13, 64#16⟩ ⟨448#17, 0#13, 64#16⟩),
    ([0x60802000#32, 0xE0000200#32, 0xE0080040#32, 0xE0000100#32, 0xE0080040#32], .grVabs 0#4 1#5 ⟨512#17, 8#13, 64#16⟩ ⟨256#17, 8#13, 64#16⟩),
    ([0x60842000#32, 0xE0000200#32, 0xE0080040#32, 0xE0000100#32, 0xE0080040#32], .grVneg 0#4 1#5 ⟨512#17, 8#13, 64#16⟩ ⟨256#17, 8#13, 64#16⟩),
    ([0x60883000#32, 0xE0000200#32, 0xE0080040#32, 0xE0000100#32, 0xE0080040#32], .grVrcp 0#4 1#5 2#2 ⟨512#17, 8#13, 64#16⟩ ⟨256#17, 8#13, 64#16⟩),
    ([0x608C3000#32, 0xE0000200#32, 0xE0080040#32, 0xE0000100#32, 0xE0080040#32], .grVrsqrt 0#4 1#5 2#2 ⟨512#17, 8#13, 64#16⟩ ⟨256#17, 8#13, 64#16⟩) ] = true := by decide +kernel

/-- R208-R219. -/
theorem test_decode_gr_2 : decodes
  [ ([0x60903000#32, 0xE0000200#32, 0xE0080040#32, 0xE0000100#32, 0xE0080040#32], .grVexp2 0#4 1#5 2#2 ⟨512#17, 8#13, 64#16⟩ ⟨256#17, 8#13, 64#16⟩),
    ([0x60943000#32, 0xE0000200#32, 0xE0080040#32, 0xE0000100#32, 0xE0080040#32], .grVlog2 0#4 1#5 2#2 ⟨512#17, 8#13, 64#16⟩ ⟨256#17, 8#13, 64#16⟩),
    ([0x60983000#32, 0xE0000200#32, 0xE0080040#32, 0xE0000100#32, 0xE0080040#32], .grVtanh 0#4 1#5 2#2 ⟨512#17, 8#13, 64#16⟩ ⟨256#17, 8#13, 64#16⟩),
    ([0x609C3000#32, 0xE0000400#32, 0xE0080001#32, 0xE0000100#32, 0xE0080040#32], .grVsum 0#4 1#5 2#2 ⟨1024#17, 8#13, 1#16⟩ ⟨256#17, 8#13, 64#16⟩),
    ([0x60A03000#32, 0xE0000200#32, 0xE0080040#32, 0xE0000100#32, 0xE0080040#32], .grVscan 0#4 1#5 2#2 ⟨512#17, 8#13, 64#16⟩ ⟨256#17, 8#13, 64#16⟩),
    ([0x60A42000#32, 0xE0000300#32, 0xE0080020#32, 0xE0000005#32, 0xFF800000#32], .grVfill 0#4 1#5 ⟨768#17, 8#13, 32#16⟩ 0xBF800000#32),
    ([0x60C02340#32, 0xE0000200#32, 0xE0080040#32, 0xE0000100#32, 0xE0080040#32], .grVcvt 0#4 1#5 3#5 1#2 ⟨512#17, 8#13, 64#16⟩ ⟨256#17, 8#13, 64#16⟩),
    ([0x60C5AC00#32, 0xE0000500#32, 0xE0080001#32, 0xE0000100#32, 0xE0080004#32, 0xE0000108#32, 0xE0080004#32], .grVdot 0#4 13#5 12#5 0#2 ⟨1280#17, 8#13, 1#16⟩ ⟨256#17, 8#13, 4#16⟩ ⟨264#17, 8#13, 4#16⟩),
    ([0x60C87200#32, 0xE0000200#32, 0xE0080040#32, 0xE0000100#32, 0xE0080040#32], .grVnqenc 0#4 3#5 0x12#5 ⟨512#17, 8#13, 64#16⟩ ⟨256#17, 8#13, 64#16⟩),
    ([0x60191000#32, 0xE0000200#32, 0xE0080008#32, 0xE0000100#32, 0xE0080008#32, 0xE0000180#32, 0xE0000008#32, 0xE0100002#32, 0xE0300007#32, 0xE0018420#32], .grChain 0#4 0#2 ⟨512#17, 8#13, 8#16⟩ ⟨256#17, 8#13, 8#16⟩ (some ⟨384#17, 0#13, 8#16⟩) [0x00100002#29, 0x00300007#29, 0x00018420#29]) ] = true := by decide +kernel

/-- R171-R181. -/
theorem test_decode_cf : decodes
  [ ([0x800A4000#32, 0xE0002000#32], .cfLdst 0#4 0x12#5 0x2000#21),
    ([0x800C0000#32, 0xE0000064#32], .cfFwd 0#4 100#29),
    ([0x80118000#32, 0xE0000000#32], .cfRpl 0#4 1#2 1#1 0#1 0#29),
    ([0x8016E000#32, 0xE000012C#32], .cfGrd 0#4 2#2 1#1 1#1 1#1 300#29),
    ([0x80180000#32, 0xE0000046#32], .cfApl 0#4 70#29),
    ([0x801C0000#32, 0xE0000045#32], .cfSwp 0#4 69#29),
    ([0x80201000#32, 0xE0000008#32], .cfNul 0#4 0#1 1#1 8#29),
    ([0x80400000#32], .cfMode 0#4 0#2),
    ([0x80410000#32], .cfMode 0#4 1#2),
    ([0x80420000#32], .cfMode 0#4 2#2),
    ([0x80440000#32, 0xE0000001#32, 0xFE800000#32], .cfEta 0#4 0x3E800000#32),
    ([0x80480000#32, 0xE0000001#32, 0xFF000000#32], .cfFade 0#4 0x3F000000#32),
    ([0x804C6308#32], .cfFmt 0#4 3#5 3#5 1#5 0#2),
    ([0x80502000#32, 0xE0008000#32], .cfDrain 0#4 1#5 0#2 0x8000#21),
    ([0x80540000#32], .cfClra 0#4),
    ([0x80590000#32], .cfHsel 0#4 1#2),
    ([0x805C0000#32, 0xE0000F00#32], .cfHread 0#4 0xF00#21),
    ([0x80600000#32], .cfHclr 0#4) ] = true := by decide +kernel

/-- R135-R146. -/
theorem test_decode_bt : decodes
  [ ([0xA009001F#32, 0xE000000A#32], .btCopy 0#4 0#2 31#14 (.stamp 10#29)),
    ([0xA00E0020#32, 0xE0000000#32, 0xE0000040#32], .btOvl 0#4 0#2 32#14 (.abs 64#58)),
    ([0xA010801F#32], .btPref 0#4 2#2 31#14),
    ([0xA011801F#32, 0xE0000007#32], .btPrefTimed 0#4 2#2 31#14 (.stamp 7#29)),
    ([0xA0140000#32, 0xE0000200#32, 0xE0000040#32], .btNmc 0#4 0x4000000040#57),
    ([0xA0180000#32, 0xE0000200#32, 0xE0100000#32, 0xE0000001#32], .btNmfence 0#4 0x4000100000#57 1#29),
    ([0xA01C8000#32, 0xE0000200#32, 0xE0000000#32, 0xE0000008#32], .btPin 0#4 1#3 0x4000000000#57 8#29),
    ([0xA0208000#32], .btUnpin 0#4 1#3),
    ([0xA0250000#32], .btEchk 0#4 1#2) ] = true := by decide +kernel

/-- R252-R266, R289. -/
theorem test_decode_sy_1 : decodes
  [ ([0xC0088000#32], .syBar 0#4 1#3),
    ([0xC00D4800#32], .syArrive 0#4 2#3 9#4),
    ([0xC0114800#32], .syAwait 0#4 2#3 9#4),
    ([0xC0140000#32, 0xE0000200#32, 0xE0000000#32, 0xE0000200#32, 0xE0010000#32, 0xE0000004#32], .syBind 0#4 0x4000000000#57 0x4000010000#57 4#29),
    ([0xC01A0000#32, 0xE0000200#32, 0xE0000000#32], .syRel 0#4 4#3 0x4000000000#57),
    ([0xC01E0000#32, 0xE0000200#32, 0xE0000000#32, 0xE0000000#32, 0xE0000001#32], .syAcq 0#4 4#3 0x4000000000#57 1#58),
    ([0xC0220000#32], .syFence 0#4 4#3),
    ([0xC0258200#32, 0xE0000200#32, 0xE0020000#32, 0xE0000100#32], .syAtom 0#4 6#4 1#5 0x4000020000#57 0x100#21),
    ([0xC0282800#32, 0xE0000200#32, 0xE0030000#32, 0xE0000100#32, 0xE0000200#32, 0xE0000001#32], .syAtomx 0#4 0#4 0x14#5 0#3 0x4000030000#57 0x100#21 0x200#21 1#16),
    ([0xC02D0000#32, 0xE0000001#32], .syBatch 0#4 2#3 1#29),
    ([0xC0300003#32, 0xE0002000#32], .sySafe 0#4 3#16 0x2000#29),
    ([0xC0340007#32], .syTrap 0#4 7#18),
    ([0xC0380100#32], .sySyscall 0#4 0x100#18),
    ([0xC03C0000#32], .syEnd 0#4),
    ([0xC1800000#32, 0xE0000100#32, 0xE0400000#32], .syResume 0#4 0x2000400000#52),
    ([0xC18400C0#32, 0xE01FC000#32], .syMfsr 0#4 3#12 0x1FC000#21),
    ([0xC1880100#32, 0xE01FC008#32], .syMtsr 0#4 4#12 0x1FC008#21),
    ([0xC18C0000#32, 0xE0000200#32, 0xE0100000#32], .syTlbi 0#4 0#3 0x4000100000#57),
    ([0xC1900000#32, 0xE0000100#32, 0xE0800000#32], .syAsave 0#4 0x2000800000#52),
    ([0xC1940000#32, 0xE0000100#32, 0xE0800000#32], .syArest 0#4 0x2000800000#52) ] = true := by decide +kernel

/-- R252-R266, R289. -/
theorem test_decode_sy_2 : decodes
  [ ([0xC1980000#32, 0xE0000100#32, 0xE0800000#32], .syGsave 0#4 0x2000800000#52),
    ([0xC19C0000#32, 0xE0000100#32, 0xE0800000#32], .syGrest 0#4 0x2000800000#52),
    ([0xC1A00000#32], .syHalt 0#4) ] = true := by decide +kernel

/-! Ill-formed terms: one for each check of `WellFormed`, which refuses it (R80, R83, R118, R124, R213-R222, R259, R291). -/

/-- A region operand. -/
def rg0 : Region := ⟨0#17, 8#13, 1#16⟩

def illFormed : List Instr :=
  [.cpNop 7#3 0#4, .wait 7#3 0#4 1#18, .wait 0#3 0#4 0#18, .untilStamp 7#3 0#4 0#29, .cpLoop 0#4 0#5 0#13 1#29,
    .ldBase 0#4 2#3 0#57, .ldBase 0#4 0#3 0x200000#57, .stBase 0#4 3#3 0#57, .stBase 0#4 4#3 0x200000#57,
    .ldFmt 0#4 0x12#5 0#3 0#2, .stFmt 0#4 0x15#5 0#3 0#2 0#2, .ldTag 0#4 2#2 0#16, .stTag 0#4 1#2 0#16, .ldRate 0#4 0#8, .stRate 0#4 0#8]
  ++ [.grVadd 0#4 5#5 0#2 rg0 rg0 rg0, .grVadd 0#4 0xD#5 1#2 rg0 rg0 rg0, .grVsub 0#4 5#5 0#2 rg0 rg0 rg0, .grVmul 0#4 0x14#5 2#2 rg0 rg0 rg0,
    .grVfma 0#4 5#5 0#2 rg0 rg0 rg0 rg0, .grVmin 0#4 5#5 rg0 rg0 rg0, .grVmax 0#4 0xF#5 rg0 rg0 rg0, .grVsel 0#4 5#5 rg0 rg0 rg0 rg0,
    .grVand 0#4 0x12#5 rg0 rg0 rg0, .grVor 0#4 0x13#5 rg0 rg0 rg0, .grVxor 0#4 0x15#5 rg0 rg0 rg0, .grVfill 0#4 0x12#5 rg0 0#32,
    .grVsadd 0#4 1#5 rg0 rg0 rg0, .grVcmp 0#4 5#5 0#3 rg0 rg0 rg0, .grVcmp 0#4 1#5 6#3 rg0 rg0 rg0, .grVabs 0#4 0xE#5 rg0 rg0,
    .grVneg 0#4 0xE#5 rg0 rg0]
  ++ [.grVrcp 0#4 0#5 0#2 rg0 rg0, .grVrsqrt 0#4 0#5 0#2 rg0 rg0, .grVexp2 0#4 5#5 0#2 rg0 rg0, .grVlog2 0#4 0#5 0#2 rg0 rg0,
    .grVtanh 0#4 0xD#5 0#2 rg0 rg0, .grVsum 0#4 5#5 0#2 rg0 rg0, .grVscan 0#4 0xD#5 1#2 rg0 rg0, .grVcvt 0#4 0x12#5 1#5 0#2 rg0 rg0,
    .grVcvt 0#4 1#5 0x13#5 0#2 rg0 rg0, .grVdot 0#4 1#5 0x14#5 0#2 rg0 rg0 rg0, .grVdot 0#4 0#5 3#5 0#2 rg0 rg0 rg0,
    .grVdot 0#4 0xD#5 0xC#5 1#2 rg0 rg0 rg0, .grVnqenc 0#4 0#5 0x12#5 rg0 rg0, .grVnqenc 0#4 1#5 0x11#5 rg0 rg0,
    .grChain 0#4 0#2 rg0 rg0 none [], .grChain 0#4 0#2 rg0 rg0 none (List.replicate 9 0x02#29)]
  ++ [.grChain 0#4 0#2 rg0 rg0 none [0x40#29], .grChain 0#4 0#2 rg0 rg0 none [0x182#29], .grChain 0#4 0#2 rg0 rg0 none [0x04000002#29],
    .grChain 0#4 0#2 rg0 rg0 none [0x180B#29], .grChain 0#4 0#2 rg0 rg0 none [0x402#29], .grChain 0#4 0#2 rg0 rg0 none [0x8002#29],
    .grChain 0#4 0#2 rg0 rg0 none [0x0040_0002#29], .grChain 0#4 0#2 rg0 rg0 none [0x13#29], .grChain 0#4 0#2 rg0 rg0 none [0x98#29],
    .grChain 0#4 0#2 rg0 rg0 none [0xA0#29]]
  ++ [.cfLdst 0#4 0x14#5 0#21, .cfRpl 0#4 1#2 0#1 1#1 0#29, .cfGrd 0#4 1#2 0#1 1#1 0#1 0#29, .cfNul 0#4 1#1 0#1 0#29, .cfMode 0#4 3#2,
    .cfFmt 0#4 0x12#5 3#5 3#5 0#2, .cfFmt 0#4 3#5 0x14#5 3#5 0#2, .cfFmt 0#4 3#5 3#5 9#5 0#2, .cfDrain 0#4 9#5 0#2 0#21,
    .btOvl 0#4 1#2 0#14 (.stamp 0#29), .btEchk 0#4 2#2, .syBar 0#4 6#3, .syArrive 0#4 6#3 0#4, .syAwait 0#4 7#3 0#4, .syRel 0#4 6#3 0#57,
    .syAcq 0#4 6#3 0#57 0#58, .syFence 0#4 7#3, .syAtom 0#4 6#4 0x14#5 0#57 0#21, .syAtom 0#4 0#4 1#5 0#57 0#21,
    .syAtom 0#4 7#4 0x14#5 0#57 0#21, .syAtomx 0#4 6#4 0x14#5 0#3 0#57 0#21 0#21 0#16, .syAtomx 0#4 0#4 1#5 0#3 0#57 0#21 0#21 0#16,
    .syTlbi 0#4 3#3 0#57]

theorem smoke_illFormed : (illFormed.all fun i => !WellFormed i) = true := by decide +kernel

/-- Words that R83 refuses, each with its reason: no word, a literal alone, an opcode not in R82, a reserved bit, a reserved
code, a literal that is not there, a reserved bit of a literal. -/
theorem test_rejects :
    let rejects (l : List W32) (e : DecodeError) : Bool := match decodeWords l with
      | .error x => decide (x = e)
      | .ok _ => false
    (rejects [] .empty && rejects [0xE0000000#32] .strayLiteral && rejects [0x01F40000#32] .opcode && rejects [0x00080001#32] .reserved
      && rejects [0x20090000#32, 0xE0000000#32, 0xE0000000#32] .code && rejects [0x00040000#32] .code && rejects [0xC1F80000#32] .literalMissing
      && rejects [0xC1F80000#32, 0x01000021#32] .literalMissing
      && rejects [0x20080000#32, 0xE0000001#32, 0xE0000000#32] .literalReserved) = true := by decide +kernel

/-! Witnesses: the control processor. -/

theorem wit_CpResults : ∀ w ∈ [Instr.cpAdd 0#4 0#5 1#5, .cpSub 0#4 0#5 1#5, .cpMul 0#4 0#5 1#5, .cpMulh 0#4 0#5 1#5,
    .cpAnd 0#4 0#5 1#5, .cpOr 0#4 0#5 1#5, .cpXor 0#4 0#5 1#5, .cpAndn 0#4 0#5 1#5, .cpShl 0#4 0#5 1#5, .cpShr 0#4 0#5 1#5,
    .cpSar 0#4 0#5 1#5, .cpMin 0#4 0#5 1#5, .cpMax 0#4 0#5 1#5, .cpAddi 0#4 0#5 8191#13, .cpAndi 0#4 0#5 8191#13,
    .cpOri 0#4 0#5 8191#13, .cpXori 0#4 0#5 8191#13, .cpShli 0#4 0#5 63#6, .cpShri 0#4 0#5 63#6, .cpSari 0#4 0#5 63#6,
    .cpLim 0#4 0x20000#18, .cpLimx 0#4 63#6 0#58, .cpCeq 0#4 0#5 1#5, .cpCne 0#4 0#5 1#5, .cpClt 0#4 0#5 1#5,
    .cpCle 0#4 0#5 1#5, .cpCltu 0#4 0#5 1#5, .cpCleu 0#4 0#5 1#5, .cpCeqi 0#4 0#5 4096#13, .cpClti 0#4 0#5 4096#13,
    .cpSel 0#4 0#5 1#5 2#5, .cpRdlcc 0#4, .cpRdwtc 0#4, .cpRdhdc 0#4, .cpRdflag 0#4],
    (cpResult (belt [0xFFFFFFFFFFFFFFFF#64, 1#64]) w).isSome = true := by decide +kernel

/-- The last slot of the grant, and the first beyond it. -/
theorem wit_CpPutSpillFillClear :
    ((belt []).canon ∧ 8 * (31#9).toNat + 8 ≤ (belt []).core.spmGrant)
    ∧ (belt []).core.spmGrant < 8 * (32#9).toNat + 8 :=
  ⟨⟨canon_of_canonB (by decide +kernel), by decide +kernel⟩, by decide +kernel⟩

/-- The last aligned double word below the grant; an address at the grant, one below zero, and one not aligned. -/
theorem wit_CpLoadsAndStores :
    let s := belt [0xFF8#64, 0x1000#64, 0#64]
    cpLoad s (.cpLd64 0#4 0#5 0#13) = some (0#4, 0xFF8, 8, false) ∧ LmOk s 0xFF8 8
    ∧ (∀ p ∈ ([(.cpLd8 0#4 0#5 7#13, 0xFFF, 1), (.cpLd8s 0#4 0#5 7#13, 0xFFF, 1), (.cpLd16 0#4 0#5 6#13, 0xFFE, 2),
        (.cpLd16s 0#4 0#5 6#13, 0xFFE, 2), (.cpLd32 0#4 0#5 4#13, 0xFFC, 4), (.cpLd32s 0#4 0#5 4#13, 0xFFC, 4)]
        : List (Instr × Int × Nat)), (cpLoad s p.1).map (fun x => (x.2.1, x.2.2.1)) = some p.2 ∧ LmOk s p.2.1 p.2.2)
    ∧ (∀ p ∈ ([(.cpSt8 0#4 0#5 1#5 7#8, 0xFFF, 1), (.cpSt16 0#4 0#5 1#5 3#8, 0xFFE, 2), (.cpSt32 0#4 0#5 1#5 1#8, 0xFFC, 4),
        (.cpSt64 0#4 1#5 1#5 0xFF#8, 0xFF8, 8)] : List (Instr × Int × Nat)),
        (cpStore s p.1).map (fun x => (x.2.1, x.2.2.1)) = some p.2 ∧ LmOk s p.2.1 p.2.2)
    ∧ (cpAccess s (.cpLd64 0#4 1#5 0#13) = some (0x1000, 8) ∧ lmFault s 0x1000 8 = some .bounds)
    ∧ (cpAccess s (.cpSt8 0#4 2#5 1#5 0xFF#8) = some (-1, 1) ∧ lmFault s (-1) 1 = some .bounds)
    ∧ (cpAccess s (.cpSt16 0#4 1#5 1#5 0xFF#8) = some (0xFFE, 2) ∧ LmOk s 0xFFE 2)
    ∧ (cpAccess s (.cpLdt64 0#4 1#5 1#5 0x80#8) = some (0xC00, 8) ∧ LmOk s 0xC00 8)
    ∧ (cpAccess s (.cpLd64 0#4 0#5 1#13) = some (0xFF9, 8) ∧ lmFault s 0xFF9 8 = some .alignment) := by
  unfold LmOk
  decide +kernel

/-- A granule with the wanted tag 7; with another tag, in and out of strict mode; the last granule of the grant and the
first beyond; the last gang index of a gang of four and the first beyond. -/
theorem wit_CpTagsAndNeighbours :
    let s (strict : Bool) (l : List W64) : State := (belt l).mod fun k =>
      { k with tags := [(0, 7#16)], gsize := 4, task := some { task0 with strict := strict } }
    let a := s false [8#64, 7#64, 6#64, 0xFFF#64, 0x1000#64, 0xFF9#64]
    let b := s true [8#64, 7#64, 6#64]
    (LmOk a ((a.src 0#5).toNat + (0#8).toInt * 8) 8 ∧ a.core.tag a.core.ctx.sup 0 = (a.src 1#5).setWidth 16
      ∧ a.core.tag a.core.ctx.sup 0 ≠ 0xFFFF#16)
    ∧ (LmOk b ((b.src 0#5).toNat + (0#8).toInt * 8) 8 ∧ b.core.tag b.core.ctx.sup 0 ≠ (b.src 2#5).setWidth 16
      ∧ b.core.tag b.core.ctx.sup 0 ≠ 0xFFFF#16 ∧ (b.core.task.map Task.strict).getD false = true)
    ∧ (a.core.tag a.core.ctx.sup 0 ≠ (a.src 2#5).setWidth 16 ∧ (a.core.task.map Task.strict).getD false = false)
    ∧ (a.src 3#5).toNat / 4096 * 4096 < a.core.lmGrant ∧ a.core.lmGrant ≤ (a.src 4#5).toNat / 4096 * 4096
    ∧ ((3#2).toNat < a.core.gsize ∧ LmOk a (a.src 0#5).toNat 8)
    ∧ (belt []).core.gsize ≤ (1#2).toNat
    ∧ ((3#2).toNat < a.core.gsize ∧ lmFault a (a.src 4#5).toNat 8 = some .bounds ∧ lmFault a (a.src 5#5).toNat 8 = some .alignment) := by
  unfold LmOk
  decide +kernel

/-- A zero and a belt value that is not; the last branch target and the first beyond; a return stack of seven, eight, one
and no entries. -/
theorem wit_CpTransfers :
    let s (l : List Nat) : State := inCtx [0#64, 1#64, 0x3FFF#64, 0x4000#64] fun x => { x with ret := l }
    (s []).core.ctx.rq.getD 0 0#64 = 0#64 ∧ ¬(s []).core.ctx.rq.getD 1 0#64 = 0#64
    ∧ ((s []).src 2#5).toNat < 2 ^ 14 ∧ 2 ^ 14 ≤ ((s []).src 3#5).toNat
    ∧ ((s (List.replicate 7 1)).core.ctx.ret.length < 8 ∧ ((s (List.replicate 7 1)).src 2#5).toNat < 2 ^ 14)
    ∧ 8 ≤ (s (List.replicate 8 1)).core.ctx.ret.length
    ∧ (s [5]).core.ctx.ret = 5 :: [] ∧ (s []).core.ctx.ret = [] := by decide +kernel

/-- Three and four levels; the greatest count, and zero with bits above the 32 that count. -/
theorem wit_CpLoop :
    let s (n : Nat) : State := inCtx [0xFFFFFFFF#64, 0x100000000#64] fun x => { x with loops := List.replicate n ⟨1, 2, 1, 0, 0⟩ }
    ((s 3).core.ctx.loops.length < 4 ∧ 0 < ((s 3).src 0#5).toNat % 2 ^ 32 ∧ (8191#13) ≠ 0#13)
    ∧ ((s 3).core.ctx.loops.length < 4 ∧ ((s 3).src 1#5).toNat % 2 ^ 32 = 0)
    ∧ 4 ≤ (s 4).core.ctx.loops.length := by decide +kernel

/-- A neighbour load due to read, beside an effect that is not. -/
theorem wit_CpResultsArrive :
    let e : CpEff := { kind := .nload, data := 0#64, addr := 8, q := 0, due := 6, issue := 0 }
    let f : CpEff := { kind := .drop, data := 5#64, due := 0, issue := 0 }
    let s := inCtx [] fun x => { x with effs := [e, f] }
    s.core.ctx.effs[0]? = some e ∧ e.kind = .nload ∧ e.due = s.core.now + 6
    ∧ s.core.ctx.effs[1]? = some f ∧ ¬(f.kind = .nload ∧ f.due = s.core.now + 6) := by decide +kernel

/-- Two stores and a tag write due: byte 9 is last reached by the second store, byte 16 by none, granule 0 by the tag write. -/
theorem wit_CpStoresLand :
    let e (kd : EffKind) (a : Nat) : CpEff := { kind := kd, data := 5#64, addr := a, size := 8, due := 0, issue := 0 }
    let s := inCtx [] fun x => { x with effs := [e .store 0, e .store 8, e .tagw 0] }
    let due := [e .store 0, e .store 8, e .tagw 0]
    s.canon ∧ s.core.ctx.effs = due
    ∧ (∀ f ∈ due, ¬StoresTo s f 0 16) ∧ LastOf due (fun f => StoresTo s f 0 9) (e .store 8)
    ∧ (∀ f ∈ due, ¬TagsGranule s f 0 1) ∧ LastOf due (fun f => TagsGranule s f 0 0) (e .tagw 0) := by
  refine ⟨canon_of_canonB (by decide +kernel), by decide +kernel, ?_, ⟨[_], [_], rfl, ?_, ?_⟩, ?_, ⟨[_, _], [], rfl, ?_, ?_⟩⟩ <;>
    (try unfold StoresTo) <;> (try unfold TagsGranule) <;> decide +kernel

/-! Witnesses: streams. -/

theorem wit_StreamStagingWords : ∀ p ∈ ([(.ldBase 0#4 1#3 5#57, 1), (.ldDim 0#4 3#2 0#16 0x80000000#32, 1), (.ldFmt 0#4 1#5 7#3 0#2, 1),
    (.ldTag 0#4 1#2 1#16, 1), (.ldRate 0#4 255#8, 1), (.stBase 0#4 1#3 5#57, 2), (.stDim 0#4 3#2 0#16 0x80000000#32, 2),
    (.stFmt 0#4 1#5 7#3 0#2 1#2, 2), (.stTag 0#4 1#2 1#16, 2), (.stRate 0#4 255#8, 2)] : List (Instr × Nat)),
    (staged (belt []) p.1).map Prod.fst = some p.2 := by decide +kernel

/-- A start on an idle and on a running port; the other two faults of R127. -/
theorem wit_StreamStarts :
    let run := inCtx [] fun x => { x with ldP := x.ldP.set 0 { LdPort.reset with running := true } }
    (¬StartFaults (belt []) ((belt []).core.ctx.ldP.getD 0 LdPort.reset).running (belt []).core.ctx.ldS
      ∧ StartFaults run (run.core.ctx.ldP.getD 0 LdPort.reset).running run.core.ctx.ldS)
    ∧ StartFaults (belt []) false { Staging.reset with space := 1#3, tagMode := 1#2 }
    ∧ StartFaults (belt []) false { Staging.reset with space := 5#3 }
    ∧ ¬StartFaults (belt []) false { Staging.reset with space := 4#3 } := by
  unfold StartFaults
  decide +kernel

/-- The granules that a beat checks, where all its elements lie in granule 0. -/
theorem granule_zero {s : State} {p : Nat} (h : ∀ k < beatCount s p, (beatAddr s p k).toNat / 4096 = 0) {g : Nat}
    (hg : ChecksGranule s p g) : g = 0 := by
  obtain ⟨_, _, k, hk, e⟩ := hg
  rw [← e, h k hk]

/-- A load port with a stream of four FP32 elements from an address on, a tag mode and a tag, due at cycle 0. -/
def fourEls (a : BitVec 57) (md : BitVec 2) (tag : W16) : LdPort :=
  { LdPort.reset with
    running := true
    st := { Staging.reset with counts := [4, 1, 1, 1], strides := [4, 0, 0, 0], addr := a, tagMode := md, tag := tag } }

/-- Reset, task0 strict or not, granule 0 of LM with a tag, streams at load ports 3 and 5. -/
def ports (strict : Bool) (g : W16) (p q : LdPort) : State := (belt []).mod fun k => { k with
  tags := [(0, g)], task := some { task0 with strict := strict }
  ctx := { k.ctx with ldP := (k.ctx.ldP.set 3 p).set 5 q } }

/-- What the statement on beats of LM asks of the state, and of a beat due alone at port 3. -/
def LmBeats (s : State) : Prop := s.core.ctx.ldP.length = 8 ∧ (∀ q ∈ s.core.ctx.prefs, q.1 ≠ s.core.now)
  ∧ ∀ p < 8, BeatDue s p → (s.core.ctx.ldP.getD p LdPort.reset).st.space ≠ 1#3
def OneBeat (s : State) : Prop := BeatDue s 3 ∧ ∀ q < 8, q ≠ 3 → ¬BeatDue s q

/-- Two beats due at cycle 0: at the end of the granted LM, and with the tag of granule 0. -/
def twoBeats : State := ports false 7#16 (fourEls 0xFF0#57 0#2 0#16) (fourEls 0#57 1#2 7#16)

theorem wit_StreamBeatReadsLm_data : LmBeats twoBeats ∧ BeatDue twoBeats 3 ∧ BeatDue twoBeats 5
    ∧ ∀ p < 8, BeatDue twoBeats p → (∀ k < beatCount twoBeats p, ElementOk twoBeats p k)
      ∧ ∀ g, ChecksGranule twoBeats p g → beatTag twoBeats p g = (twoBeats.core.ctx.ldP.getD p LdPort.reset).st.tag
        ∧ (twoBeats.core.ctx.ldP.getD p LdPort.reset).st.tag ≠ 0xFFFF#16 := by
  have d : ∀ p < 8, BeatDue twoBeats p → ∀ k < beatCount twoBeats p, (beatAddr twoBeats p k).toNat / 4096 = 0 := by
    unfold BeatDue; decide +kernel
  refine ⟨by unfold LmBeats BeatDue; decide +kernel, by unfold BeatDue; decide +kernel, by unfold BeatDue; decide +kernel,
    fun p hp hd => ⟨?_, fun g hg => ?_⟩⟩
  · revert hd; revert p; unfold BeatDue ElementOk; decide +kernel
  · obtain rfl := granule_zero (d p hp hd) hg
    revert hg hd; revert p; unfold BeatDue ChecksGranule; decide +kernel

/-- A beat whose second element lies beyond the grant, and one off its size. -/
def outBeat : State := ports false 7#16 (fourEls 0xFFC#57 0#2 0#16) LdPort.reset
def offBeat : State := ports false 7#16 (fourEls 0xFE2#57 0#2 0#16) LdPort.reset
/-- A beat that wants tag 7 in granule 0, which has tag g. -/
def tagBeat (strict : Bool) (g : W16) : State := ports strict g (fourEls 0#57 1#2 7#16) LdPort.reset

theorem wit_StreamBeatReadsLm_ends :
    (LmBeats outBeat ∧ OneBeat outBeat ∧ 1 < beatCount outBeat 3 ∧ (∀ j < 1, ElementOk outBeat 3 j)
      ∧ (outBeat.core.lmGrant : Int) < beatAddr outBeat 3 1 + beatZ outBeat 3)
    ∧ LmBeats offBeat ∧ OneBeat offBeat ∧ 0 < beatCount offBeat 3 ∧ 0 ≤ beatAddr offBeat 3 0
      ∧ beatAddr offBeat 3 0 + beatZ offBeat 3 ≤ offBeat.core.lmGrant ∧ beatAddr offBeat 3 0 % beatZ offBeat 3 ≠ 0 := by
  unfold LmBeats OneBeat BeatDue ElementOk
  and_intros <;> decide +kernel

/-- Granule 0 with the error tag, and with another tag, in and out of strict mode. -/
theorem wit_StreamBeatReadsLm_tags : ∀ strict : Bool, ∀ g ∈ [0xFFFF#16, 9#16], LmBeats (tagBeat strict g) ∧ OneBeat (tagBeat strict g)
    ∧ (∀ k < beatCount (tagBeat strict g) 3, ElementOk (tagBeat strict g) 3 k) ∧ ChecksGranule (tagBeat strict g) 3 0
    ∧ beatTag (tagBeat strict g) 3 0 = g ∧ ((tagBeat strict g).core.task.map Task.strict).getD false = strict := by
  intro strict g hg
  simp only [List.mem_cons, List.not_mem_nil, or_false] at hg
  unfold LmBeats OneBeat BeatDue ElementOk ChecksGranule
  cases strict <;> obtain rfl | rfl := hg <;> and_intros <;> decide +kernel

/-- Reset, task0 strict or not, deliveries at load ports 2 and 3, beat register 2 full or not. -/
def delivering (strict full : Bool) (l k : List Delivery) : State := (belt []).mod fun c => { c with
  task := some { task0 with strict := strict }
  grid := { c.grid with beats := c.grid.beats.set 2 (0#128, full) }
  ctx := { c.ctx with ldP := (c.ctx.ldP.set 2 { LdPort.reset with dels := l }).set 3 { LdPort.reset with dels := k } } }

/-- A delivery of a global stream due at cycle 0. -/
def del0 : Delivery := ⟨0, some 5#128, true, false, 0, none, 0, true, true⟩

/-- Of the deliveries of a cycle: two with data to two ports, with a marker; a marker alone; late data in and out of strict
mode; poisoned data; data for a full register; two data for one register. A global stream with a delivery on its way
behind a marker, and without one. -/
theorem wit_StreamBeatDelivers :
    let d := del0
    let m : Delivery := { d with data := none }
    let full (s : State) (p : Nat) : Bool := (s.core.grid.beats.getD p (0#128, false)).2
    let s := delivering false false [d, m] [d]
    (s.core.ctx.ldP.length = 8 ∧ s.core.grid.beats.length = 8 ∧ (∀ x ∈ deliveriesDue s, x.2.data ≠ none → x.2.arrive ≤ s.time
        ∧ x.2.poison = false ∧ full s x.1 = false)
      ∧ (((deliveriesDue s).filter fun x => x.2.data.isSome).map Prod.fst).Pairwise (· ≠ ·)
      ∧ (2, d) ∈ deliveriesDue s)
    ∧ deliveriesDue (delivering false false [m] []) = [(2, m)]
    ∧ (∀ b : Bool, deliveriesDue (delivering b false [{ d with arrive := 1 }] []) = [(2, { d with arrive := 1 })])
    ∧ deliveriesDue (delivering false false [{ d with poison := true }] []) = [(2, { d with poison := true })]
    ∧ (deliveriesDue (delivering false true [d] []) = [(2, d)] ∧ full (delivering false true [d] []) 2 = true)
    ∧ (deliveriesDue (delivering false false [d, { d with n := 4 }] []) = [(2, d), (2, { d with n := 4 })])
    ∧ ((delivering false false [m, d] []).core.ctx.ldP.getD 2 LdPort.reset).dels = [m] ++ d :: []
    ∧ (∀ x ∈ ((delivering false false [m] []).core.ctx.ldP.getD 2 LdPort.reset).dels, ¬(x.glob = true ∧ x.data ≠ none)) := by
  decide +kernel

/-- A beat due of a global stream on an uncached page, whose leaf it holds. -/
def uncachedBeat : State := (mapped 2 id).modCtx fun x => { x with ldP := x.ldP.set 3 { fourEls 0x1000000#57 0#2 0#16 with
  leaf := some ⟨0#16, 0, 0x1000000, 0x200000, 0x400000, 0x9B#8⟩
  st := { (fourEls 0x1000000#57 0#2 0#16).st with space := 1#3 } } }

theorem wit_StreamBeatDelivers_global :
    uncachedBeat.core.ctx.ldP.length = 8 ∧ BeatDue uncachedBeat 3 ∧ (∀ q < 8, q ≠ 3 → ¬BeatDue uncachedBeat q)
    ∧ (∀ q ∈ uncachedBeat.core.ctx.prefs, q.1 ≠ uncachedBeat.core.now) ∧ uncachedBeat.core.upd = []
    ∧ (uncachedBeat.core.ctx.ldP.getD 3 LdPort.reset).run = none
    ∧ ∀ k < beatCount uncachedBeat 3, 0 ≤ beatAddr uncachedBeat 3 k ∧ beatAddr uncachedBeat 3 k < 2 ^ 57
      ∧ beatAddr uncachedBeat 3 k % beatZ uncachedBeat 3 = 0
      ∧ Allows uncachedBeat ⟨0#16, 0, 0x1000000, 0x200000, 0x400000, 0x9B#8⟩ true false (beatAddr uncachedBeat 3 k).toNat (beatZ uncachedBeat 3) := by
  refine ⟨by decide +kernel, by unfold BeatDue; decide +kernel, by unfold BeatDue; decide +kernel, by decide +kernel,
    by decide +kernel, by decide +kernel, ?_⟩
  unfold Allows InShare
  decide +kernel

/-- A landing of a cycle at port p: byte 0 and the last of LM, the tag of granule 0. -/
def lmLanding (p : Nat) (v : Byte) (tag : W16) : StLand := ⟨0, 0, 0, false, [(0, 5#8), (0x1FFFFF, v)], [0], tag, 0#8, 0#2, p⟩
/-- Two of them, of which that of port 1 prevails. -/
def twoLandings : State := inCtx [] fun x => { x with
  stP := (x.stP.set 4 { StPort.reset with lands := [lmLanding 4 6#8 9#16] }).set 1 { StPort.reset with lands := [lmLanding 1 7#8 8#16] } }
/-- A landing of a global stream at 0x40007E, with the leaf bits of its page. -/
def homeLanding (bits : Byte) : StLand := ⟨0, 0, 0, true, [(0x40007E, 3#8), (0x40007F, 4#8)], [], 0#16, bits, 0#2, 4⟩
/-- The same, its line in the L1D. -/
def oneHomeLanding (bits : Byte) : State :=
  (inCtx [] fun x => { x with stP := x.stP.set 4 { StPort.reset with lands := [homeLanding bits] } }).mod fun k => { k with
    l1d := [⟨0x8000, 0, List.replicate 128 0#8, List.replicate 32 false, List.replicate 128 false, 0#2, none, 0, 0, 0#16⟩] }

/-- Two landings of LM; a landing of a global stream in an uncached page, and in a cached page whose line is there. -/
theorem wit_StoreBeatLands :
    let s := twoLandings
    let bytes := (landingsDue s).flatMap fun l => l.cells.map fun x => (s.core.gbase + l.q, x)
    let tags := (landingsDue s).flatMap fun l => l.tags.map fun g => (s.core.gbase + l.q, g, l.tag)
    (s.canon ∧ (∀ l ∈ landingsDue s, l.glob = false ∧ s.core.gbase + l.q < 192)
      ∧ LastOf bytes (fun x => x.1 = 0 ∧ x.2.1 = 0x1FFFFF) (0, 0x1FFFFF, 7#8) ∧ (∀ x ∈ bytes, ¬(x.1 = 0 ∧ x.2.1 = 1))
      ∧ LastOf tags (fun x => x.1 = 0 ∧ x.2.1 = 0) (0, 0, 8#16) ∧ ∀ x ∈ tags, ¬(x.1 = 0 ∧ x.2.1 = 1))
    ∧ ∀ b ∈ [0x80#8, 0x40#8], (oneHomeLanding b).canon ∧ landingsDue (oneHomeLanding b) = [homeLanding b]
      ∧ (homeLanding b).cells = [3#8, 4#8].mapIdx (fun i x => (0x40007E + i, x)) ∧ 0x40007E % 128 + 2 ≤ 128
      ∧ (∀ i < 2, (oneHomeLanding b).target (0x40007E + i) = .hbm)
      ∧ (b.toNat / 64 = 2 ∨ (b.toNat / 64 < 2 ∧ (oneHomeLanding b).core.upd = []
        ∧ ((oneHomeLanding b).core.l1d.find? fun y => y.pa == 0x40007E / 128) ≠ none)) := by
  dsimp only
  refine ⟨⟨canon_of_canonB (by decide +kernel), by decide +kernel, ⟨[(0, 0, 5#8), (0, 0x1FFFFF, 6#8), (0, 0, 5#8)], [], by decide +kernel, by decide, by decide⟩, by decide +kernel,
    ⟨[(0, 0, 9#16)], [], by decide +kernel, by decide, by decide⟩, by decide +kernel⟩, fun b hb => ⟨canon_of_canonB ?_, ?_⟩⟩ <;>
    (revert hb; revert b; decide +kernel)

/-! Witnesses: copies and near-memory jobs. -/

/-- A descriptor at LM address 0 and copies in flight. -/
def withCopies (v : Nat) (l : List Copy) : State := (withDesc v).modCtx fun x => { x with copies := l }
/-- n copies in flight on a route, of 6400 bytes. -/
def flying (n : Nat) (r : Route) : List Copy := List.replicate n { copy0 with route := r, len := 6400 }

set_option synthInstance.maxSize 4096 in
set_option synthInstance.maxHeartbeats 200000 in
/-- The first descriptor beyond the grant; a reserved bit, and an overlay past the supervisor's IMEM and past GCS; copies and
overlays with 16 in flight and with 4 on the route, of length 0 too; one of length 0 that only issues. -/
theorem wit_CopyWordChecks :
    let ready (s : State) (x : Desc) (w : DescWord) : Prop := readDesc s 0#14 = some x ∧ ¬Forbidden w 0#2 s.core.ctx.sup x ∧ x.sk ≠ 1
      ∧ x.dk ≠ 1 ∧ s.core.ctx.pend5.walks = []
    (withDesc 0).core.lmGrant < 128 * (32#14).toNat + 32
    ∧ (∀ w ∈ copyWords 0#4 0#2 0#14 (.stamp 0#29), readDesc (withDesc (desc 0 0 64 0x40)) 0#14 = some (descOf (desc 0 0 64 0x40))
        ∧ Forbidden w.2 0#2 false (descOf (desc 0 0 64 0x40)))
    ∧ (Forbidden .ovl 0#2 true (descOf (desc 0 0x11F80 256 8)) ∧ Forbidden .ovl 0#2 true (descOf (desc 0 0xFF80 256 8))
        ∧ ¬Forbidden .ovl 0#2 true (descOf (desc 0 0x11F80 128 8)) ∧ Forbidden .ovl 0#2 true (descOf (desc 0 0x1FF80 256 12)))
    ∧ (∀ p ∈ [(DescWord.copy, 64, 0), (.ovl, 128, 8), (.copy, 0, 0), (.ovl, 0, 8)], ∀ l ∈ [flying 4 .lself, flying 16 .ldie],
        let s := withCopies (desc 0 0 p.2.1 p.2.2) l
        ready s (descOf (desc 0 0 p.2.1 p.2.2)) p.1 ∧ (descOf (desc 0 0 p.2.1 p.2.2)).sk = 0 ∧ InSpaces s (descOf (desc 0 0 p.2.1 p.2.2))
        ∧ NoRoom s .lself)
    ∧ ∀ p ∈ [(DescWord.copy, 0), (.ovl, 8)],
        let s := withCopies (desc 0 0 0 p.2) (flying 3 .lself)
        ready s (descOf (desc 0 0 0 p.2)) p.1 ∧ (descOf (desc 0 0 0 p.2)).len = 0 ∧ ¬NoRoom s .lself := by
  unfold Forbidden InSpaces NoRoom
  dsimp only
  and_intros <;> decide +kernel

/-- A copy to global bytes of HBM that asks for a tag, of 64 bytes and of none; one of none without a tag. -/
theorem wit_CopyWordChecks_global : ∀ p ∈ [(64, 0x24), (0, 0x24), (0, 4)],
    let x := descOf (desc 0 0x1000000 p.1 p.2)
    let s := withDescAt 0x400000 2 (desc 0 0x1000000 p.1 p.2) id
    readDesc s 0#14 = some x ∧ ¬Forbidden .copy 0#2 s.core.ctx.sup x ∧ x.sk ≠ 1 ∧ x.dk = 1
    ∧ (x.len = 0 ∨ x.sk = 0 ∧ x.src + x.len ≤ s.core.lmGrant) ∧ x.dst + x.len ≤ 2 ^ 57 ∧ x.wr = (p.2 == 0x24)
    ∧ found s x.dst (max 1 x.len) false true (fun _ ps => !ps.isEmpty && ps.all fun q => s.target q.2.1 == .hbm) = true := by
  unfold Forbidden
  decide +kernel

/-- Copies of one chunk to LM, to its end, and overlays to the end of IMEM and of GCS, with 15 copies in flight of which 3
are on `lself`. -/
theorem wit_CopyInsideCoreStarts :
    ∀ p ∈ ([(desc 0xFC0 0xF80 64 0, .copy, .lm 0 0xF80 false), (desc 0x80 0xFF80 128 8, .ovl, .imem 0xFF80),
        (desc 0x80 0x1FF80 128 0xC, .ovl, .gcs 0x1FF80)] : List (Nat × DescWord × CopyEnd)),
      let s := withCopies p.1 (flying 3 .lself ++ flying 12 .ldie)
      let x := descOf p.1
      readDesc s 0#14 = some x ∧ ¬Forbidden p.2.1 0#2 s.core.ctx.sup x ∧ 0 < x.len ∧ x.sk = 0 ∧ localDest s x = some p.2.2 ∧ InSpaces s x
        ∧ ¬NoRoom s .lself ∧ s.core.ctx.pend5.walks = [] := by
  unfold Forbidden InSpaces NoRoom localDest
  decide +kernel

/-- A core whose task reserves n bytes on `vnear`, at a privilege, with copies in flight. -/
def reserving (n : Nat) (sup : Bool) (l : List Copy) (k : Core) : Core :=
  { k with task := some { task0 with res := [(.vnear, n)] }, ctx := { k.ctx with sup := sup, copies := l } }

/-- Copies from HBM, and from the own vault with enough and too little reserved, with no room on the route, and at
supervisor privilege. -/
theorem wit_CopyInsideCoreStarts_global :
    let v := desc 0x1000000 0x80 64 1
    let x := descOf v
    let hbm := withDescAt 0x400000 2 v id
    let near (n : Nat) (sup : Bool) (l : List Copy) : State := withDescAt 0x10000000000 2 v (reserving n sup l)
    let goes (s : State) (r : Route) (short noRoom sup : Bool) : Prop :=
      readDesc s 0#14 = some x ∧ s.core.ctx.sup = sup ∧ x.dst + x.len ≤ s.core.lmGrant
      ∧ found s x.src x.len true false (fun u ps => u.core.l1d.isEmpty && u.core.vc.isEmpty
        && decide (placeOf r = (ps.map fun p => classOf s.cur.val (s.target p.2.1)).foldl max 0)) = true
      ∧ (s.core.ctx.sup = false ∧ 1 ≤ placeOf r ∧ placeOf r ≤ 5 ∧ r ≠ .lquad ∧ leftOf s r < x.len ↔ short = true)
      ∧ (NoRoom s r ↔ noRoom = true)
    (¬Forbidden .copy 0#2 false x ∧ ¬Forbidden .copy 0#2 true x ∧ 0 < x.len ∧ x.sk = 1 ∧ x.dk = 0 ∧ x.src + x.len ≤ 2 ^ 57)
    ∧ goes hbm .hbm false false false ∧ goes (near 64 false []) .vnear false false false ∧ goes (near 63 false []) .vnear true false false
    ∧ goes (near 64 false (flying 4 .vnear)) .vnear false true false ∧ goes (near 0 true []) .vnear false false true := by
  unfold Forbidden NoRoom
  dsimp only
  and_intros <;> decide +kernel

/-- A state in which core 0 has one copy, at cycle n and time t, its task strict or not. -/
def copying (x : Copy) (n t : Nat) (strict : Bool) : State :=
  { (inCtx [] fun z => { z with copies := [x] }).mod fun k => { k with lcc := n, task := some { task0 with strict := strict } } with time := t }
/-- Core 0 with another tag in granule 0. -/
def tagged (x : Copy) (strict : Bool) : State :=
  (copying x 1 0 strict).mod fun k => { k with tags := [(0, 5#16)] }

/-- The last chunk of a copy due to be read, at the end of LM, in HBM and in a vault; a chunk whose tag is another. -/
theorem wit_CopyChunksMove_read :
    let x : Copy := { copy0 with len := 66, next := 1, dst := .lm 0 0x1FFFBE false }
    let due (s : State) (x : Copy) : Prop := s.core.ctx.copies = [x] ∧ x.core = s.cur.val ∧ x.next * x.route.rate < x.len
      ∧ x.issue + 1 + x.next = s.core.now
    (due (copying x 2 0 false) x ∧ x.src = .lm 0 0 false ∧ x.exp = none)
    ∧ (∀ pa ∈ [0x400000, 0x10000000000], let y := { x with src := .phys [(0, pa, 66)], route := .vnear }
        due (copying y 2 0 false) y ∧ y.src = .phys [(0, pa, y.len)] ∧ y.exp = none
        ∧ ∀ i < y.len, (copying y 2 0 false).target (pa + i) = .hbm ∨ (copying y 2 0 false).target (pa + i) = .vault 0 i)
    ∧ ∀ strict : Bool, let y := { x with next := 0, exp := some 3#16 }
      due (tagged y strict) y ∧ y.src = .lm 0 0 false ∧ (0 + min 64 66 - 1) / 4096 = 0 ∧ 0 ∉ y.checked
      ∧ ((tagged y strict).at 0).tag false 0 = 5#16 := by
  and_intros <;> decide +kernel

/-- A chunk of two bytes due to land: in LM with a tag, in IMEM, in GCS; one whose data are late. -/
theorem wit_CopyChunksMove_land :
    let x (d : CopyEnd) (t : Option W16) (arr : Nat) : Copy :=
      { copy0 with dst := d, len := 66, next := 2, pend := [(1, [(5#8, false), (6#8, false)])], wtag := t, arrive := arr }
    let due (s : State) (x : Copy) : Prop := s.core.ctx.copies = [x] ∧ x.core = s.cur.val ∧ Alone s ∧ s.discards s.cur.val = false
      ∧ x.issue + x.route.base + 1 = s.core.now ∧ x.err = [] ∧ x.len ≤ 1 * x.route.rate + 2
    (∀ y ∈ [x (.lm 0 0x1FFFBE false) (some 3#16) 0, x (.imem 0xFF80) none 0, x (.gcs 0x1FF80) none 0],
      due (copying y 9 0 false) y ∧ y.arrive ≤ (copying y 9 0 false).time ∧ canonB (copying y 9 0 false) = true)
    ∧ ∀ strict : Bool, let y := x (.lm 0 0 false) none 1
      due (copying y 9 0 strict) y ∧ (copying y 9 0 strict).time < y.arrive ∧ canonB (copying y 9 0 strict) = true := by
  unfold Alone
  and_intros <;> decide +kernel

/-- Copies outside logical time, from HBM, a vault and decode space, whose time has come, and one unit of time too early;
one to HBM; a byte that the core's cycle has written. -/
theorem wit_HbmCopyLands :
    let x (pa : Nat) : Copy := { copy0 with core := 3, route := .hbm, src := .phys [(0, pa, 2)], dst := .lm 3 0x1FFFFE false, len := 2, ready := 7 }
    let s (x : Copy) (n : Nat) : State := { belt [] with hbm := [x], time := n }
    let t : State := (s (x 0x400000) 7).modAt 3 fun k => { k with nextCyc := 7, wrote := [(0x1FFFFE, 1)] }
    ((s (x 0) 7).hbm[1]? = none ∧ (s (x 0) 6).hbm[0]? = some (x 0) ∧ 6 < (x 0).ready)
    ∧ (∀ pa ∈ [0x400000, 0x10000000000, 0x1E000000000], canonB (s (x pa) 7) = true ∧ (s (x pa) 7).hbm[0]? = some (x pa)
      ∧ (∀ i < 2, ((s (x pa) 7).target (pa + i) = .hbm ∨ (s (x pa) 7).target (pa + i) = .decode ∨ (s (x pa) 7).target (pa + i) = .vault 0 i)
        ∧ (s (x pa) 7).poisoned (pa + i) = false) ∧ (s (x pa) 7).discards 3 = false ∧ InDevOrder (s (x pa) 7) 0 (x pa))
    ∧ (WrittenAt (t.at 3) t.time 0x1FFFFE ∧ ¬WrittenAt (t.at 3) t.time 0x1FFFFF)
    ∧ let y : Copy := { copy0 with route := .hbm, src := .lm 0 16 false, dst := .phys [(0, 0x400000, 2)], len := 2 }
      (s y 7).hbm[0]? = some y ∧ canonB (s y 7) = true ∧ (∀ i < 2, (s y 7).target (0x400000 + i) = .hbm)
      ∧ InDevOrder (s y 7) 0 y ∧ ∀ i < 2, ∀ j < 2, i ≠ j → (s y 7).normPa (0x400000 + i) ≠ (s y 7).normPa (0x400000 + j) := by
  have none (x : Copy) (h : x.dev = false) (n : Nat) : InDevOrder { belt [] with hbm := [x], time := n } 0 x :=
    ⟨by simp [h], fun d hd => absurd hd (List.not_mem_nil)⟩
  unfold WrittenAt
  refine ⟨by decide +kernel, fun pa h => ⟨?_, ?_, ?_, ?_, none _ rfl _⟩, by decide +kernel, ?_, ?_, ?_, none _ rfl _, by decide +kernel⟩ <;>
    first | decide +kernel | (revert pa; decide +kernel)

/-- Two copies with DEV pages of one core, of which the second waits, as a store to such a page does; the first, and a store
with none, do not. -/
theorem wit_HbmCopyLands_dev :
    let x : Copy := { copy0 with route := .hbm, src := .phys [(0, 0x400000, 2)], dst := .lm 0 0 false, len := 2, ready := 7, dev := true }
    let s (l : List Copy) : State := { belt [] with hbm := l, time := 7 }
    ((s [x, x]).hbm[1]? = some x ∧ (∃ j < 1, ∃ y, (s [x, x]).hbm[j]? = some y ∧ y.core = x.core ∧ y.dev = true))
    ∧ InDevOrder (s [x]) 0 x ∧ (∃ y ∈ (s [x]).hbm, y.core = 0 ∧ y.dev = true) ∧ (¬∃ y ∈ (s []).hbm, y.core = 0 ∧ y.dev = true)
    ∧ (∀ i < 2, (s []).target (0x400000 + i) = .hbm) ∧ canonB (s []) = true := by
  refine ⟨⟨rfl, 0, by decide, _, rfl, rfl, rfl⟩, ⟨fun _ j h => absurd h (Nat.not_lt_zero j), fun d hd => absurd hd List.not_mem_nil⟩,
    ⟨_, List.mem_singleton.2 rfl, rfl, rfl⟩, fun ⟨_, h, _⟩ => absurd h List.not_mem_nil, by decide +kernel, by decide +kernel⟩

/-- Window 1 over the first 8 KiB of decode space, of records of the given format at 0x400000 into FP32 (format 1). -/
def windowed (f : Nat) : State :=
  { State.reset with windows := State.reset.windows.set 1 ⟨BitVec.ofNat 64 (1 + 2 * f + 64 * 1), 0x1E000000000#64, 0x1E000002000#64, 0x400000#64, 0#64, 0#64⟩ }

/-- Decode space in and out of a window. -/
theorem wit_HbmCopyLands_decode : ∀ f ∈ [0x12, 0x13],
    let s := windowed f
    s.target 0x1E000000004 = .decode ∧ WindowAt s (s.normPa 0x1E000000004) 1 ∧ ((s.window 1).ctl.toNat / 2 % 2 ^ 5 = f)
    ∧ (s.window 1).lim.toNat - (s.window 1).base.toNat = 0x2000 ∧ 0x400000 + 8576 ≤ (s.window 1).base.toNat
    ∧ (∀ i ∈ [0, 6527, 8575], s.target (0x400000 + i) = .hbm)
    ∧ s.target 0x1E000002000 = .decode ∧ ∀ w < 16, ¬((s.window w).ctl.getLsbD 0 = true ∧ (s.window w).lim.toNat > 0x1E000002000) := by
  unfold WindowAt
  and_intros <;> decide +kernel

/-- The last granted retention register and the first not granted; a good and a bad range; descriptors of a prefetch. -/
theorem wit_PrefetchAndRetention :
    let s := withDesc (desc 0x1000000 0 129 1)
    let y := withDesc (desc 0x1000000 0 129 0x21)
    ((1#3).toNat < (s.core.task.map Task.ret).getD 0 ∧ (0x80#57).toNat % 128 = 0 ∧ (1#29) ≠ 0#29)
    ∧ (s.core.task.map Task.ret).getD 0 ≤ (2#3).toNat ∧ (0x7F#57).toNat % 128 ≠ 0
    ∧ s.core.lmGrant < 128 * (32#14).toNat + 32
    ∧ (readDesc y 0#14 = some (descOf (desc 0x1000000 0 129 0x21)) ∧ PrefForbidden (descOf (desc 0x1000000 0 129 0x21)))
    ∧ (readDesc s 0#14 = some (descOf (desc 0x1000000 0 129 1)) ∧ ¬PrefForbidden (descOf (desc 0x1000000 0 129 1))
      ∧ 0 < (descOf (desc 0x1000000 0 129 1)).len ∧ s.core.l1d = []) := by
  unfold PrefForbidden
  decide +kernel

/-- Core 0 with these lines in its L1D and its vault cache. -/
def caching (l v : List Line) : State := inCore fun k => { k with l1d := l, vc := v }

/-- Requests of line 0x8000 that hit and miss in either cache. -/
theorem wit_PrefetchAndRetention_requests : ∀ p ∈ [([], []), ([], [line0 0x8000 0]), ([line0 0x8000 0], [])],
    let s := caching p.1 p.2
    (s.at 0).upd = [] ∧ s.hbm = [] ∧ (∀ i < 128, s.target (128 * 0x8000 + i) = .hbm)
    ∧ (s.at 0).l1d.find? (fun x => x.pa == 0x8000) = p.1.head? ∧ (s.at 0).vc.find? (fun x => x.pa == 0x8000) = p.2.head? := by
  decide +kernel

/-- A set with a way free, and a full one. -/
theorem wit_PrefetchAndRetention_victim :
    let l (n : Nat) : List Line := (List.range n).map fun w => line0 (64 * (w + 1)) w
    let mates (n : Nat) := (l n).filter fun x => x.pa % 64 == 0 % 64
    (∀ n ∈ [7, 8], ∀ x ∈ l n, x.pa ≠ 0) ∧ (∀ x ∈ mates 7, x.way ≠ 7)
    ∧ (∀ w < 8, ∃ x ∈ mates 8, x.way = w) ∧ (mates 8).Pairwise fun x y => x.way ≠ y.way := by
  decide +kernel

/-- A written line that a word reads or writes. -/
theorem wit_PrefetchAndRetention_actions :
    let x : Line := { line0 0x8000 0 with dirty := true :: List.replicate 127 false }
    let s := caching [x] []
    canonB s = true ∧ (s.at 0).l1d = [x] ∧ (s.at 0).upd = [] ∧ (∀ i < 128, s.target (128 * x.pa + i) = .hbm)
    ∧ x.bytes.length = 128 ∧ x.dirty.length = 128 := by
  decide +kernel

/-- A misaligned card; a card of a mapped page; the fence's three cases: a job not accepted, an accepted one whose W meets
its range, none. -/
theorem wit_NearMemoryWords :
    let s := mapped 2 id
    let b : State := { s with jobs := [{ job0 with accepted := true }] }
    let a : State := { s with jobs := [job0] }
    (0x100003F#57).toNat % 64 ≠ 0
    ∧ ((0x1000040#57).toNat % 64 = 0 ∧ found s (0x1000040#57).toNat 64 true false (fun _ ps => ps.length == 1) = true)
    ∧ (0x1000040#57).toNat % 128 ≠ 0 ∧ (0x1000080#57).toNat % 128 = 0
    ∧ (¬FenceWaits s s.cur.val 0x1000000 1 ∧ s.core.l1d = [] ∧ s.core.vc = [])
    ∧ FenceWaits a a.cur.val 0x1000080 1 ∧ FenceWaits b b.cur.val 0x1000000 1 ∧ ¬FenceWaits b b.cur.val 0x1000080 1 := by
  unfold FenceWaits
  and_intros <;> decide +kernel

/-- A mapped state with jobs, whose card at 0x400000 has these bytes. -/
def carded (v : Nat) (l : List Job) : State :=
  let s := mapped 2 id
  { s with jobs := l, gmem := memWriteN s.gmem 0x400000 (bytesOf 64 v) }
/-- A card of one FP32 element at 0x1000000: operation, COUNT 1, W, X, OBJ, and STATUS. -/
def cardNum (opc w x obj st : Nat) : Nat := opc + 256 + 2 ^ 32 + w * 2 ^ 192 + x * 2 ^ 256 + obj * 2 ^ 320 + st * 2 ^ 384

/-- A job that waits for a copy into its card, and one whose card is in use. -/
theorem wit_NearMemoryJobs_waits :
    let c : Copy := { copy0 with id := 7, route := .hbm, src := .lm 0 0 false, dst := .phys [(0, 0x400000, 64)] }
    let s : State := { carded (cardNum 1 0x1000000 0 0 0) [{ job0 with copies := [7] }] with hbm := [c] }
    let u := carded (cardNum 1 0x1000000 0 0 1) [job0]
    (s.jobs[1]? = none ∧ s.jobs[0]? = some { job0 with copies := [7] } ∧ jobWaits s { job0 with copies := [7] } = true ∧ canonB s = true)
    ∧ (u.jobs[0]? = some job0 ∧ jobWaits u job0 = false ∧ (u.at job0.core).l1d = [] ∧ (u.cardAt job0.card).st = 1 ∧ canonB u = true)
    ∧ HbmWord s (job0.card + 48) ∧ HbmWord u (job0.card + 48) ∧ s.target job0.card = .hbm ∧ u.target job0.card = .hbm := by
  unfold HbmWord
  and_intros <;> decide +kernel

set_option synthInstance.maxSize 4096 in
/-- Cards to be accepted: valid; of an unknown operation; with W and X partly over each other; with a completion object, on
and off its 64 bytes, in an unmapped page. -/
theorem wit_NearMemoryJobs_codes : ∀ p ∈ [(1, 0x1000000, 0, 0), (7, 0x1000000, 0, 0), (2, 0x1000000, 0x1000000, 0), (1, 0x1000000, 0, 0x1000040),
    (1, 0x1000000, 0, 0x1000004), (1, 0x1000000, 0, 0x2000000)],
    let s := carded (cardNum p.1 p.2.1 p.2.2.1 p.2.2.2 0) [job0]
    let c := s.cardAt job0.card
    s.jobs[0]? = some job0 ∧ jobWaits s job0 = false ∧ (s.at 0).l1d = [] ∧ c.st ≠ 1 ∧ canonB s = true ∧ c.opc = p.1 ∧ c.w = p.2.1
    ∧ c.x = p.2.2.1 ∧ c.obj = p.2.2.2 := by
  decide +kernel

/-- A card of two FP32 elements at 8. -/
def card2 (opc x : Nat) : Card :=
  { opc := opc, fmt := 1#5, rnd := 0#2, rsv := false, count := 2, sa := 0#64, sb := 0#64, w := 8, x := x, obj := 0, st := 0 }

theorem wit_NearMemoryJobs_cards : CardOk (card2 1 0) ∧ ¬CardOk (card2 7 0) ∧ ¬PartOverlap (card2 1 0) ∧ CardOk (card2 2 12)
    ∧ PartOverlap (card2 2 12) ∧ ¬PartOverlap (card2 2 8) := by
  unfold PartOverlap UsesX
  exact ⟨⟨4, by unfold UsesX; decide +kernel⟩, fun ⟨_, h⟩ => absurd h.2.2.1 (by decide), by decide +kernel,
    ⟨4, by unfold UsesX; decide +kernel⟩, by decide +kernel, by decide +kernel⟩

/-- A job blocked by an earlier one; one with an error code. -/
theorem wit_NearMemoryJobs_ends :
    let d := { job0 with accepted := true }
    let e := { d with code := 3 }
    let s (l : List Job) : State := carded (cardNum 1 0x1000000 0 0 1) l
    ((s [d, d]).jobs[1]? = some d ∧ jobBlocked (s [d, d]) 1 d = true)
    ∧ ((s [e]).jobs[0]? = some e ∧ (∀ x ∈ (s [e]).jobs.take 0, x.accepted = false) ∧ e.obj = 0 ∧ e.code < 64 ∧ canonB (s [e]) = true)
    ∧ HbmWord (s [e]) (e.card + 48) ∧ (s [e]).target e.card = .hbm := by
  unfold HbmWord
  and_intros <;> decide +kernel

/-- A job of two FP32 elements, W at 0x1000100 and X at 0x1000200 of the mapped page, with a completion object at 0x400040. -/
def job2 : Job :=
  { job0 with accepted := true, opc := 4, count := 2, w := 0x1000100, x := 0x1000200, obj := 0x1000040, objPa := some 0x400040 }
/-- The second element of its W poisoned or not. -/
def running (poison : Bool) : State :=
  let s := carded (cardNum 4 0x1000100 0x1000200 0x1000040 1) [job2]
  { s with poison := if poison then [0x400104 / 4] else [] }
def leaf2 : Leaf := ⟨0#16, 0, 0x1000000, 0x200000, 0x400000, 0x9B#8⟩

theorem wit_NearMemoryJobs_runs_may : ∀ b : Bool, JobMay (running b) job2 leaf2 true true job2.w (job2.count * 4)
    ∧ JobMay (running b) job2 leaf2 true false job2.x (job2.count * 4) := by
  unfold JobMay InShare
  decide +kernel

set_option synthInstance.maxSize 8192 in
set_option synthInstance.maxHeartbeats 400000 in
theorem wit_NearMemoryJobs_runs : ∀ b : Bool, let s := running b
    let j := job2
    s.jobs[0]? = some j ∧ j.code = 0 ∧ cardBytes j.fmt = some 4 ∧ j.w % 4 = 0 ∧ j.x % 4 = 0 ∧ canonB s = true
      ∧ s.tlbIn (j.core / 4) j.walker j.w = some leaf2 ∧ s.tlbIn (j.core / 4) j.walker j.x = some leaf2
      ∧ (∀ i < j.count * 4, ∀ o < j.count * 4, s.normPa (0x400100 + i) ≠ s.normPa (0x400200 + o))
      ∧ (∀ i < 8, ∀ o < j.count * 4, s.normPa (j.card + 48 + i) / 4 ≠ s.normPa (0x400100 + o) / 4)
      ∧ (HbmWord s 0x400040 ∧ 0x400040 % 64 = 0 ∧ ∀ i < 8, (∀ o < j.count * 4, s.normPa (0x400040 + i) ≠ s.normPa (0x400100 + o))
        ∧ ∀ o < 8, s.normPa (0x400040 + i) ≠ s.normPa (j.card + 48 + o))
      ∧ (∀ i < 2, (∃ o < 4, s.poisoned (0x400100 + 4 * i + o) = true) ↔ b = true ∧ i = 1)
      ∧ ∀ i < 8, s.poisoned (0x400200 + i) = false := by
  unfold HbmWord
  decide +kernel

/-! Witnesses: the grid. -/

/-- Reset, task0, with a changed grid. -/
def inGrid (f : Grid → Grid) : State := inCore fun k => { k with grid := f k.grid }

/-- An image without elements, the shortest (R196), at GCS address 0: good; running graph, a load, and no image otherwise. -/
theorem wit_GridWords :
    let s := inCore fun k => { k with gcs := memWriteN [] 0 (bytesOf 16 (1 + 1168 * 2 ^ 32 + 2 ^ 48)) }
    let r := inGrid fun g => { g with inPlace := true }
    let u := inGrid fun g => { g with inPlace := true, running := some 0, doneBit := false }
    let v := inGrid fun g => { g with loading := some (3, []) }
    (s.core.grid.doneBit = true ∧ s.core.grid.loading = none ∧ imageOk s.core.gcs (128 * (0#10).toNat) = true)
    ∧ imageOk s.core.gcs (128 * (1#10).toNat) = false ∧ u.core.grid.doneBit = false ∧ v.core.grid.loading ≠ none
    ∧ (r.core.grid.inPlace = true ∧ r.core.grid.loading = none ∧ r.core.grid.doneBit = true ∧ ¬∃ p ∈ r.core.grid.passes, r.core.now ≤ p.done)
    ∧ ¬(s.core.grid.inPlace = true)
    ∧ (u.core.grid.doneBit = false ∧ u.core.grid.stopAt = none)
    ∧ r.core.grid.doneBit = true := by decide +kernel

/-- A load that ends in the cycle, a sink that is due beside one that is not, and the end of a graph. -/
theorem wit_GridLoadsAndEnds :
    let s := inGrid fun g => { g with loading := some (0, []), sinks := [(3, 0), (5, 4)], doneAt := some 0 }
    (s.core.grid.loading = some (s.core.now, []) ∧ (∃ x ∈ s.core.grid.sinks, x.2 = s.core.now) ∧ s.core.grid.doneAt = some s.core.now)
    ∧ (∀ img, (inGrid id).core.grid.loading ≠ some ((inGrid id).core.now, img)) ∧ (∀ x ∈ (inGrid id).core.grid.sinks, x.2 ≠ 0)
    ∧ (inGrid id).core.grid.doneAt ≠ some 0 :=
  ⟨by decide +kernel, fun img h => absurd ((show (inGrid id).core.grid.loading = none by decide +kernel).symm.trans h)
    (Option.some_ne_none _).symm, by decide +kernel, by decide +kernel⟩

/-- A graph started at cycle 0 whose element 9 executes slot 0 of its only iteration at cycle 1: an addition of two
sources, which takes a beat of port 1. -/
def oneContext (full : Bool) : State :=
  (inGrid fun g => { g with
    els := g.els.set 9 { Element.reset with en := true, iters := 1, ctxs := [BitVec.ofNat 128 (0x02 + 2 ^ 56)] }
    running := some 0, beats := g.beats.set 1 (5#128, full) }).mod fun k => { k with lcc := 1 }

theorem executes_oneContext (full : Bool) (e c slot n : Nat) :
    Executes (oneContext full).core.grid e c slot n ↔ e = 9 ∧ c = 1 ∧ slot = 0 ∧ n = 0 := by
  have en : ∀ e < 64, ((oneContext full).core.grid.el e).en = true ↔ e = 9 := by cases full <;> decide +kernel
  have h : (oneContext full).core.grid.stopAt = none ∧ (oneContext full).core.grid.loading = none
      ∧ (oneContext full).core.grid.running = some 0 ∧ (oneContext full).core.grid.ii = 1
      ∧ ((oneContext full).core.grid.el 9).dly = 0 ∧ ((oneContext full).core.grid.el 9).iters = 1 := by cases full <;> decide +kernel
  obtain ⟨h1, h2, h3, h4, h5, h6⟩ := h
  unfold Executes
  rw [h1, h2, h3, h4]
  constructor
  · rintro ⟨he, hen, -, -, s, hs, hc, hs', hn⟩
    obtain rfl := (en e he).1 hen
    cases hs
    rw [h5] at hc
    rw [h6] at hn
    omega
  · rintro ⟨rfl, rfl, rfl, rfl⟩
    exact ⟨by decide, (en 9 (by decide)).2 rfl, rfl, rfl, 0, rfl, by rw [h5], by decide, by rw [h6]; decide⟩

/-- No link of column 7 presents; the one element that executes, with and without the beat it takes; a state in which none
executes. -/
theorem wit_GridContextExecute :
    (∀ b, ∀ r ∈ (oneContext b).core.grid.results, ¬(r.el % 8 = 7 ∧ r.due + 1 = (oneContext b).core.now ∧ r.links.getLsbD 1 = true))
    ∧ (∀ b, Executes (oneContext b).core.grid 9 (oneContext b).core.now 0 0
      ∧ ∀ e slot n, Executes (oneContext b).core.grid e (oneContext b).core.now slot n → e = 9)
    ∧ (∀ b, let x := ((oneContext b).core.grid.el 9).ctxs.getD 0 0#128
        field x 0 7 ≠ 0 ∧ field x 0 7 ≠ 0x28 ∧ field x 0 7 ≠ 0x29 ∧ field x 0 7 ≠ 0x2A ∧ field x 56 3 ≠ 0
        ∧ (((oneContext b).core.grid.beats.getD (9 / 8) (0#128, false)).2 = true ↔ b = true))
    ∧ ((∀ e slot n, ¬Executes (inGrid id).core.grid e (inGrid id).core.now slot n) ∧ (inGrid id).core.grid.stopAt = none
      ∧ (inGrid id).core.grid.loading = none) := by
  have now : ∀ b, (oneContext b).core.now = 1 := by decide +kernel
  refine ⟨by decide +kernel, fun b => ⟨?_, fun e slot n h => ?_⟩, by decide +kernel, fun e slot n h => ?_, by decide +kernel⟩
  · exact (executes_oneContext b _ _ _ _).2 ⟨rfl, now b, rfl, rfl⟩
  · exact ((executes_oneContext b _ _ _ _).1 h).1
  · obtain ⟨-, -, -, -, s, hs, -⟩ := h
    have : (inGrid id).core.grid.running = none := by decide +kernel
    rw [this] at hs
    cases hs

/-- One result due, for no segment, for one of each buffer; two due for one segment. -/
theorem wit_GridResultsLand :
    let r (sg : Option (Bool × Nat × Bool)) : GridRes := ⟨63, 0, 0, 7#128, 1#8, some 31, 15#4, sg⟩
    let s (l : List GridRes) : State := inGrid fun g => { g with results := l }
    let due (l : List GridRes) : List GridRes := (s l).core.grid.results.filter fun r => r.due == (s l).core.now
    (∀ sg ∈ [none, some (false, 31, true), some (true, 0, false)], due [r sg, { r none with due := 1 }] = [r sg] ∧ (r sg).el < 64)
    ∧ (due [r (some (true, 5, true)), r (some (true, 5, false))] = [r (some (true, 5, true)), r (some (true, 5, false))]
      ∧ (r (some (true, 5, true))).seg = some (true, 5, true) ∧ (r (some (true, 5, false))).seg = some (true, 5, false)) := by
  decide +kernel

/-! Vector and chain words. -/

/-- Each vector and chain word has its reading and is well formed. -/
theorem wit_VectorWordsStart_words :
    let d : Region := ⟨0x20#17, 8#13, 1#16⟩
    ∀ w ∈ [Instr.grVadd 0#4 1#5 0#2 d d d, .grVsub 0#4 1#5 0#2 d d d, .grVmul 0#4 1#5 0#2 d d d, .grVfma 0#4 1#5 0#2 d d d d,
      .grVmin 0#4 1#5 d d d, .grVmax 0#4 1#5 d d d, .grVabs 0#4 1#5 d d, .grVneg 0#4 1#5 d d, .grVsel 0#4 1#5 d d d d,
      .grVcmp 0#4 1#5 5#3 d d d, .grVand 0#4 1#5 d d d, .grVor 0#4 1#5 d d d, .grVxor 0#4 1#5 d d d, .grVsadd 0#4 0xD#5 d d d,
      .grVrcp 0#4 1#5 0#2 d d, .grVrsqrt 0#4 1#5 0#2 d d, .grVexp2 0#4 1#5 0#2 d d, .grVlog2 0#4 1#5 0#2 d d,
      .grVtanh 0#4 1#5 0#2 d d, .grVfill 0#4 1#5 d 5#32, .grVsum 0#4 1#5 0#2 d d, .grVscan 0#4 1#5 0#2 d d,
      .grVdot 0#4 3#5 1#5 0#2 d d d, .grVcvt 0#4 1#5 3#5 0#2 d d, .grVnqenc 0#4 1#5 0x13#5 d d,
      .grChain 0#4 0#2 d d none [0x00100002#29]], (vecWord w).isSome = true ∧ WellFormed w = true := by decide +kernel

/-- A sum of 1024 FP32 elements at the end of the granted LM, one that ends beyond it, one under a running graph, and one
of unequal counts. -/
theorem wit_VectorWordsStart :
    let w (a b : Region) : Instr := .grVadd 2#4 1#5 0#2 a b b
    let v (a b : Region) : VecWord := mapWord 2#4 0x02 1#5 0#2 0#3 a [b, b] 4
    let all : Region := ⟨0#17, 8#13, 0x400#16⟩
    let more : Region := ⟨0#17, 8#13, 0x401#16⟩
    (∀ a b, vecWord (w a b) = some (v a b)) ∧ (WellFormed (w all all) = true ∧ WellFormed (w more more) = true ∧ WellFormed (w all more) = true)
    ∧ (¬VecCommand (inGrid id) (v all all) ∧ VecInside (inGrid id) (v all all))
    ∧ (¬VecCommand (inGrid id) (v more more) ∧ ¬VecInside (inGrid id) (v more more))
    ∧ VecCommand (inGrid fun g => { g with doneBit := false }) (v all all) ∧ VecCommand (inGrid id) (v all more) := by
  dsimp only
  have p0 : (inGrid id).core.grid.passes = [] := by decide +kernel
  have db : (inGrid id).core.grid.doneBit = true := by decide +kernel
  have lg : (inGrid id).core.lmGrant = 4096 := by decide +kernel
  have fw : fmtWidth 1#5 = 32 := by decide +kernel
  refine ⟨fun _ _ => rfl, by decide +kernel, ⟨?_, ?_, ?_⟩, ⟨?_, ?_⟩, .inl (by decide +kernel), .inr (.inr (.inr (.inl ?_)))⟩
  · rintro (h | ⟨p, h, -⟩ | ⟨p, h, -⟩ | h | ⟨r, h, h'⟩)
    · exact absurd (db.symm.trans h) (by decide)
    · rw [p0] at h; cases h
    · rw [p0] at h; cases h
    · exact h (by show ∀ r ∈ [_, _], _; decide +kernel)
    · simp only [mapWord, List.map_cons, List.map_nil, List.mem_cons, List.not_mem_nil, or_false, or_self] at h
      subst h
      exact absurd h'.1 (by decide +kernel)
  · simp only [mapWord, List.map_cons, List.map_nil, List.mem_cons, List.not_mem_nil, or_false, or_self, forall_eq, lg, fw]
    intro e he
    have he : e < 1024 := he
    simp only [regBit, regBase, regStride]
    have h8 : (8#13).toInt = 8 := by decide
    have h0 : (0#17).toNat = 0 := by decide
    rw [h8, h0]
    omega
  · rintro g h
    exact absurd h (by simp [mapWord])
  · rintro (h | ⟨p, h, -⟩ | ⟨p, h, -⟩ | h | ⟨r, h, h'⟩)
    · exact absurd (db.symm.trans h) (by decide)
    · rw [p0] at h; cases h
    · rw [p0] at h; cases h
    · exact h (by show ∀ r ∈ [_, _], _; decide +kernel)
    · simp only [mapWord, List.map_cons, List.map_nil, List.mem_cons, List.not_mem_nil, or_false, or_self] at h
      subst h
      exact absurd h'.1 (by decide +kernel)
  · rintro ⟨h, -⟩
    have := h (⟨0#17, 8#13, 0x401#16⟩, 1#5) (by simp [mapWord]) 1024 (by decide +kernel)
    rw [lg] at this
    exact absurd this.2 (by decide +kernel)
  · show ¬∀ r ∈ [_, _], _
    decide +kernel

/-- A pass of 40 elements in steps of 32, whose second step is due to be read at cycle 2, and one with none due; sums of
integers. -/
def pass0 : Pass :=
  { t := 0, op := .bin 0x02, fmt := 1#5, dfmt := 1#5, rnd := 0#2, pred := 0#3, dst := ⟨0x40#17, 8#13, 40#16⟩,
    srcs := [⟨0#17, 8#13, 40#16⟩, ⟨0x20#17, 8#13, 40#16⟩], n := 40, g := 32, steps := 2, h := 1, d := 4, bufs := [],
    acc := XAcc.empty, accI := 0, flags := 0#8, done := 6, supv := false }

theorem wit_PassStepsRead :
    let q := { pass0 with op := PassOp.sum, fmt := 0xD#5, srcs := [⟨0#17, 8#13, 40#16⟩] }
    let z := { pass0 with t := 9 }
    let s := (inGrid fun g => { g with passes := [pass0, q, z] }).mod fun k => { k with lcc := 2 }
    (s.core.grid.passes[0]? = some pass0 ∧ s.core.grid.passes[1]? = some q ∧ s.core.grid.passes[2]? = some z ∧ s.core.now = 2)
    ∧ (0 < pass0.h ∧ ReadsStep pass0 1 2 ∧ pass0.op.twice = false ∧ pass0.op.once = false)
    ∧ (ReadsStep q 1 2 ∧ q.op.twice = false ∧ q.op = .sum ∧ (intRange q.fmt).isSome = true)
    ∧ ∀ j, ¬ReadsStep z j 2 := by
  dsimp only
  refine ⟨by decide +kernel, ?_, ?_, fun j h => ?_⟩
  · unfold ReadsStep; decide +kernel
  · unfold ReadsStep; decide +kernel
  · have := h.2
    simp only [pass0] at this
    omega

/-- Its second step, of eight elements, due to be written at cycle 6, its last. -/
theorem wit_PassStepsWrite : ∀ op ∈ [pass0.op, .fill 0#32],
    let ls := [List.replicate 8 0#64, List.replicate 8 0#64]
    let p := { pass0 with bufs := [(1, ls)], op := op }
    let s := (inGrid fun g => { g with passes := [p] }).mod fun k => { k with lcc := 6 }
    let count := min p.g (p.n - 1 * p.g)
    let at_ (m : Nat) : Int := regBit p.dst (fmtWidth p.dfmt) (1 * p.g + m)
    (s.core.grid.passes = [p] ∧ s.core.ctx.sup = p.supv ∧ p.op.once = false ∧ p.op.twice = false ∧ p.op ≠ .scan ∧ 0 < p.h ∧ p.d ≤ s.core.now
      ∧ (p.bufs.find? fun b => b.1 == 1) = some (1, ls)) ∧ ReadsStep p 1 (s.core.now - p.d)
    ∧ (count = 8 ∧ ∀ m < count, 0 ≤ at_ m ∧ at_ m + fmtWidth p.dfmt ≤ 8 * 0x200000
      ∧ ∀ m' < count, m' ≠ m → at_ m + fmtWidth p.dfmt ≤ at_ m' ∨ at_ m' + fmtWidth p.dfmt ≤ at_ m) := by
  unfold ReadsStep
  decide +kernel

/-! Witnesses: the counter-flow array. -/

/-- Reset, task0 with all of LM, with a changed array. -/
def inArr (f : Arr → Arr) : State := inCore fun k => { k with task := some { task0 with lmg := 0x1FC000 }, arr := f k.arr }

/-- Each settings word; each operand at the end of the grant, beyond it, misaligned; a drain behind a drain, a load behind a
load and under an S front. -/
theorem wit_ArrayWords :
    (∀ w ∈ [Instr.cfMode 0#4 2#2, .cfEta 0#4 5#32, .cfFade 0#4 5#32, .cfFmt 0#4 3#5 3#5 1#5 1#2, .cfClra 0#4, .cfHsel 0#4 2#2,
      .cfHclr 0#4], (arrSetting (inArr id).core.arr w).isSome = true)
    ∧ (let w : List Instr := [.cfLdst 0#4 3#5 (0x1FA000#21), .cfDrain 0#4 1#5 0#2 0x1F8000#21, .cfHread 0#4 0x1FBF80#21]
      let e : List (Nat × Nat) := [(0x1FA000, 0x2000), (0x1F8000, 0x4000), (0x1FBF80, 0x80)]
      (w.map fun w => (arrOperand (inArr id).core.arr w).map Prod.snd) = e.map some
      ∧ (∀ x ∈ e, x.1 + x.2 ≤ (inArr id).core.lmGrant ∧ x.1 % 128 = 0 ∧ (inArr id).core.lmGrant < x.1 + 0x80 + x.2)
      ∧ ∀ x ∈ w, arrBusy (inArr id) x = false)
    ∧ (0x40 + 0x80 ≤ (inArr id).core.lmGrant ∧ 0x40 % 128 ≠ 0)
    ∧ arrBusy (inArr fun a => { a with ldst := some ⟨0, 3#5, 0, []⟩ }) (.cfLdst 0#4 3#5 0#21) = true
    ∧ arrBusy (inArr fun a => { a with lastS := some 0 }) (.cfLdst 0#4 3#5 0#21) = true
    ∧ arrBusy (inArr fun a => { a with drain := some ⟨0, 1#5, 0#2, 0, 1, []⟩ }) (.cfDrain 0#4 1#5 0#2 0#21) = true := by
  decide +kernel

/-- Each front word; one admitted at the last cycle in which it is too early and at the next; an S front under a load; fresh
and stale operands; a gradient front 126 and 127 cycles after an A front, and an S front after a gradient front. -/
theorem wit_FrontsAdmitted :
    (∀ w ∈ [Instr.cfFwd 0#4 0#29, .cfRpl 0#4 3#2 1#1 1#1 0#29, .cfGrd 0#4 0#2 1#1 1#1 0#1 0#29, .cfApl 0#4 0#29, .cfSwp 0#4 0#29,
      .cfNul 0#4 1#1 1#1 0#29], (frontWord w).isSome = true)
    ∧ (let s (n : Nat) : State := (inArr fun a => { a with lastAct := some (3, 4), lastAS := some 3, strict := [3] }).mod fun k =>
        { k with lcc := n, grid := { k.grid with amark := true, gmark := true } }
      let x := (s 0).core.arr
      (readsOps .F false true = true ∧ spacingOf x true false = 1 ∧ repeatSpacing (s 0).gov true = 0)
      ∧ ((s 6).core.arr.lastAct = some (3, 4) ∧ (s 6).core.now < 3 + max (max 1 4) 0 ∧ ¬(s 7).core.now < 3 + max (max 1 4) 0)
      ∧ ((s 7).core.grid.amark = true ∧ (s 7).core.grid.gmark = true ∧ (inArr id).core.grid.amark = false)
      ∧ (x.lastAS = some 3 ∧ (s 129).core.now ≤ 3 + 126 ∧ ¬(s 130).core.now ≤ 3 + 126 ∧ x.lastGrad = none)
      ∧ (∃ c ∈ x.strict, (s 129).core.now ≤ c + 126) ∧ ¬∃ c ∈ x.strict, (s 130).core.now ≤ c + 126)
    ∧ (inArr fun a => { a with ldst := some ⟨0, 3#5, 0, []⟩ }).core.arr.ldst ≠ none := by
  decide +kernel

theorem cell_arr (f : Arr → Arr) (h : (f Arr.reset).cells = Arr.reset.cells) (n : Nat) : ((inArr f).core.arr.cell n) = Cell.reset := by
  have e : (inArr f).core.arr = f Arr.reset := by
    unfold inArr inCore belt
    simp [-List.reduceReplicate, State.core, State.mod, State.reset, Core.reset]
  unfold Arr.cell
  split
  · simp only [e, h]
    simp [Arr.reset]
  · rfl

/-- These fronts in an array of equal cells at cycle n, a clear of the cycle or none. -/
def crossing (fs : List Front) (c : Cell) (clra : Bool) (n : Nat) : State :=
  (inArr fun a => { a with cells := Vector.replicate 4096 c, fronts := fs, clra := clra }).mod fun k => { k with lcc := n }

theorem crossing_is (fs : List Front) (c : Cell) (clra : Bool) (n : Nat) :
    (crossing fs c clra n).core.arr.fronts = fs ∧ (crossing fs c clra n).core.arr.clra = clra ∧ (crossing fs c clra n).core.now = n
    ∧ ∀ m < 4096, (crossing fs c clra n).core.arr.cell m = c := by
  unfold crossing inArr inCore belt
  refine ⟨?_, ?_, ?_, fun m h => ?_⟩
  all_goals simp [-List.reduceReplicate, State.core, State.mod, State.reset, Core.reset, Core.now, Arr.cell]
  omega

/-- A front of slot 0 admitted at cycle a. -/
def front (k : FrontKind) (grad pe ce : Bool) (a : Nat) : Front :=
  ⟨k, grad, a, pe, ce, 0, ArrSet.reset, List.replicate 64 0#64, List.replicate 256 0#64, 1#5⟩
/-- A cell whose slot 0 holds this. -/
def slotted (x : Slot) : Cell := { Cell.reset with slots := [x, .empty, .empty, .empty] }
/-- A cell of an NQ plane. -/
def nqCell : Cell := { Cell.reset with act := { Plane.reset with fmt := 0x12#5 } }

theorem not_overruns {f : Front} {x : Slot} (hp : f.p = 0) (h : match x, f.grad with | .act _ _, false => False | .grad _ _, true => False | _, _ => True) :
    ¬Overruns f (slotted x) := by
  unfold Overruns slotted
  rw [hp]
  cases hg : f.grad <;> rintro (⟨r, g, e⟩) <;> obtain rfl : x = _ := e <;> rw [hg] at h <;> exact h

theorem not_spoils {f : Front} {x : Slot} (hm : f.set.mode = 0#2) : ¬Spoils f (slotted x) := by
  unfold Spoils PairBad
  split <;> rintro ⟨_, _, -, h⟩ <;> exact h.1 hm

theorem onDiag_zero {i j : Nat} (h : onDiag i j 0) : i = 0 ∧ j = 0 := by
  unfold onDiag at h
  omega

/-- Without a front, with and without a clear; an F, R, N and G front, and the pairs they make: each stands at its first
cell, fits it, and neither overruns nor spoils its slot. -/
theorem wit_FrontCrosses :
    (∀ b, (crossing [] Cell.reset b 0).core.arr.fronts = [] ∧ (crossing [] Cell.reset b 0).core.arr.clra = b)
    ∧ ∀ q ∈ ([(front .F false false true 0, .empty, 0), (front .N false false false 0, .empty, 0), (front .R false true true 0, .empty, 0),
        (front .R false true true 0, .grad 3#5 0#64, 0), (front .G true true true 0, .empty, 126),
        (front .G true true true 0, .act 3#5 [0#64], 126)] : List (Front × Slot × Nat)),
      let f := q.1
      let x := (crossing [f] (slotted q.2.1) false q.2.2).core.arr
      x.fronts = [f] ∧ (∀ n < 4096, (x.cell n).slots.length = 4)
      ∧ Stands f (crossing [f] (slotted q.2.1) false q.2.2).core.now 0 ∧ f.p < 4 ∧ f.sums.length = 256 ∧ f.kind ≠ .A ∧ f.kind ≠ .S
      ∧ (∀ i j, onDiag i j 0 → f.set.fits (x.cell (64 * i + j)).act.fmt = true ∧ ¬Overruns f (x.cell (64 * i + j))
        ∧ ¬Spoils f (x.cell (64 * i + j)))
      ∧ ∀ i j i' j', onDiag i j 0 → onDiag i' j' 0 → packK (x.cell (64 * i + j)).act.fmt = packK (x.cell (64 * i' + j')).act.fmt := by
  refine ⟨fun b => ⟨(crossing_is _ _ _ _).1, (crossing_is _ _ _ _).2.1⟩, fun q hq => ?_⟩
  dsimp only
  have h := crossing_is [q.1] (slotted q.2.1) false q.2.2
  refine ⟨h.1, fun n hn => by rw [h.2.2.2 n hn]; rfl, ?_, ?_, ?_, ?_, ?_, fun i j d => ?_, fun i j i' j' d d' => ?_⟩
  · rw [h.2.2.1]; clear h; unfold Stands; revert hq; revert q; decide +kernel
  · clear h; revert hq; revert q; decide +kernel
  · clear h; revert hq; revert q; decide +kernel
  · clear h; revert hq; revert q; decide +kernel
  · clear h; revert hq; revert q; decide +kernel
  · obtain ⟨rfl, rfl⟩ := onDiag_zero d
    rw [h.2.2.2 _ (by decide)]
    clear h
    refine ⟨by revert hq; revert q; decide +kernel, ?_, not_spoils (by revert hq; revert q; decide +kernel)⟩
    simp only [List.mem_cons, List.not_mem_nil, or_false] at hq
    obtain rfl | rfl | rfl | rfl | rfl | rfl := hq <;> exact not_overruns rfl trivial
  · obtain ⟨rfl, rfl⟩ := onDiag_zero d
    obtain ⟨rfl, rfl⟩ := onDiag_zero d'
    rfl

/-- An F front whose formats do not fit; an R front that overruns; an R front in update mode that spoils its pair with an NQ
plane; an A front there. -/
theorem wit_FrontCrosses_stops :
    let f : Front := { front .F false false true 0 with set := { ArrSet.reset with afmt := 0#5 } }
    let r : Front := front .R false true false 0
    let u : Front := { r with set := { ArrSet.reset with mode := 1#2 } }
    let full : Cell := slotted (.act 3#5 [0#64])
    let spoil : Cell := { nqCell with slots := [.grad 3#5 0#64, .empty, .empty, .empty] }
    (¬f.set.fits ((crossing [f] Cell.reset false 0).core.arr.cell 0).act.fmt = true ∧ readsOps f.kind f.pe f.ce = true ∧ f.pe = false)
    ∧ (Overruns r ((crossing [r] full false 0).core.arr.cell 0) ∧ r.set.mode = 0#2 ∧ r.set.fits ((crossing [r] full false 0).core.arr.cell 0).act.fmt = true
      ∧ onDiag 0 0 0 ∧ ∀ i' < 0, ∀ j', onDiag i' j' 0 → ¬Overruns r ((crossing [r] full false 0).core.arr.cell (64 * i' + j')))
    ∧ (Spoils u ((crossing [u] spoil false 0).core.arr.cell 0) ∧ ¬Overruns u ((crossing [u] spoil false 0).core.arr.cell 0)
      ∧ u.set.fits ((crossing [u] spoil false 0).core.arr.cell 0).act.fmt = true)
    ∧ isNqFmt ((crossing [front .A false false false 0] nqCell false 0).core.arr.cell 0).act.fmt = true := by
  dsimp only
  rw [(crossing_is _ _ _ _).2.2.2 0 (by decide), (crossing_is _ _ _ _).2.2.2 0 (by decide), (crossing_is _ _ _ _).2.2.2 0 (by decide),
    (crossing_is _ _ _ _).2.2.2 0 (by decide)]
  refine ⟨by decide +kernel, ⟨?_, by decide +kernel, by decide +kernel, by unfold onDiag; decide, fun _ h => absurd h (by omega)⟩,
    ⟨?_, ?_, by decide +kernel⟩, by decide +kernel⟩
  · exact ⟨3#5, [0#64], rfl⟩
  · exact ⟨3#5, 0#64, rfl, by unfold PairBad; decide +kernel⟩
  · rintro ⟨r, xs, h⟩; cases h

/-- An A front and an S front on reset cells, and the swap that keeps an accumulator; two fronts that meet at an empty slot. -/
theorem wit_FrontCrosses_swaps :
    (∀ k ∈ [FrontKind.A, .S], let s := crossing [front k false false false 0] Cell.reset false 0
      s.core.arr.fronts = [front k false false false 0] ∧ Stands (front k false false false 0) s.core.now 0
      ∧ isNqFmt (s.core.arr.cell 0).act.fmt = false ∧ accFmtOf (s.core.arr.cell 0).act.fmt = accFmtOf (s.core.arr.cell 0).shadow.fmt
      ∧ packK (s.core.arr.cell 0).act.fmt = packK (s.core.arr.cell 0).shadow.fmt)
    ∧ (let f := front .R false true true 126
      let g := front .G true true true 0
      let s := crossing [f, g] (slotted .empty) false 126
      s.core.arr.fronts = [f, g] ∧ Stands f s.core.now 0 ∧ Stands g s.core.now 0 ∧ f.p = g.p
      ∧ f.set.fits (s.core.arr.cell 0).act.fmt = true ∧ g.set.fits (s.core.arr.cell 0).act.fmt = true
      ∧ (s.core.arr.cell 0).slots.getD f.p .empty = .empty ∧ ¬PairBad (s.core.arr.cell 0) (packK (s.core.arr.cell 0).act.fmt) g.set) := by
  refine ⟨fun k hk => ?_, ?_⟩
  · dsimp only
    obtain ⟨h1, -, h3, h4⟩ := crossing_is [front k false false false 0] Cell.reset false 0
    rw [h1, h3, h4 0 (by decide)]
    exact ⟨rfl, by clear h1 h3 h4; unfold Stands; revert hk; revert k; decide +kernel, by decide +kernel, by decide +kernel, by decide +kernel⟩
  · dsimp only
    obtain ⟨h1, -, h3, h4⟩ := crossing_is [front .R false true true 126, front .G true true true 0] (slotted .empty) false 126
    rw [h1, h3, h4 0 (by decide)]
    unfold Stands PairBad
    decide +kernel

/-- Rows due: of a load (its last, and its first), of a drain at the end of LM, of a histogram snapshot. -/
theorem wit_ArrayRowsMove :
    let b : List Byte := List.replicate 128 3#8
    let l (i : Nat) : Ldst := ⟨0, 3#5, 0x1000, [(i, b)]⟩
    let vs : List (W64 × BitVec 5) := List.replicate 64 (0x3F800000#64, 1#5)
    let d : Drain := ⟨0, 1#5, 0#2, 0x1FC000, 1, [(63, vs)]⟩
    let h : Hread := ⟨65, 0x1FFF80, List.replicate 32 5#32⟩
    let s (n i : Nat) : State := (inArr fun a => { a with ldst := some (l i), drain := some d, hreads := [h] }).mod fun k => { k with lcc := n }
    (∀ i ∈ [0, 63], (s (4 + i) i).core.arr.ldst = some (l i) ∧ (s (4 + i) i).core.now = (l i).t + 4 + i ∧ i < 64 ∧ isNqFmt (l i).fmt = false
      ∧ ((l i).rows.filter fun r => r.1 == i) = [(i, b)] ∧ b.length = rowBytes (l i).fmt)
    ∧ (s 66 0).canon
    ∧ ((s 66 0).core.arr.drain = some d ∧ (s 66 0).core.now = d.t + 3 + 63 ∧ (d.rows.filter fun r => r.1 == 63) = [(63, vs)]
      ∧ 0 < fmtWidth d.ofmt / 8 ∧ d.addr + 63 * 64 * d.k * (fmtWidth d.ofmt / 8) + vs.length * (fmtWidth d.ofmt / 8) ≤ 0x200000)
    ∧ (s 67 0).canon
    ∧ (((s 67 0).core.arr.hreads.filter fun y => y.t + 2 == (s 67 0).core.now) = [h] ∧ h.vals.length = 32 ∧ h.addr + 128 ≤ 0x200000)
    ∧ (inArr id).core.arr.ldst = none ∧ (inArr id).core.arr.drain = none := by
  dsimp only
  refine ⟨by decide +kernel, canon_of_canonB (by decide +kernel), by decide +kernel, canon_of_canonB (by decide +kernel), ?_, ?_, ?_⟩ <;>
    decide +kernel

/-- A value presented; a row drained whose cells take the format, and whose first cell does not; a vector due, with its last
element in the last bits of its register. -/
theorem wit_ArrayOutputs :
    let o : OutVal := ⟨false, 0, 5, 63, 0x3F800000#64, 1#5, 3#5, 1#2⟩
    let d (f : BitVec 5) : Drain := ⟨4, f, 0#2, 0, 1, []⟩
    let v : Deskew := ⟨false, 0, 1#5, [(127, 7#64), (0, 9#64)]⟩
    let s := (inArr fun a => { a with outs := [o] }).mod fun k => { k with lcc := 5 }
    let dr (f : BitVec 5) : State := inArr fun a => { a with drain := some (d f) }
    let at_ (f : BitVec 5) : State := (dr f).mod fun k => { k with lcc := 5 }
    let u := (inArr fun a => { a with deskew := [v] }).mod fun k => { k with lcc := 130 }
    (s.core.arr.drain = none ∧ (s.core.arr.outs.filter fun y => y.due == s.core.now) = [o])
    ∧ (∀ f ∈ [1#5, 0#5], (at_ f).core.arr.drain = some (d f) ∧ (∀ y ∈ (at_ f).core.arr.outs, y.due ≠ (at_ f).core.now)
      ∧ (at_ f).core.now = (d f).t + 1 + 0)
    ∧ (∀ j, outOk ((dr 1#5).core.arr.cell (64 * 0 + j)).act.fmt 1#5 = true ∧ packK ((dr 1#5).core.arr.cell (64 * 0 + j)).act.fmt = 1)
    ∧ (∀ j, outOk ((dr 0#5).core.arr.cell (64 * 0 + j)).act.fmt 0#5 = false)
    ∧ ((u.core.arr.deskew.filter fun y => y.a + 130 == u.core.now) = [v] ∧ (v.vals.map Prod.fst).Pairwise (· ≠ ·)
      ∧ (127, 7#64) ∈ v.vals ∧ 127 * fmtWidth v.ofmt + fmtWidth v.ofmt ≤ 128 * 32) := by
  dsimp only
  refine ⟨by decide +kernel, by decide +kernel, fun j => ?_, fun j => ?_, by decide +kernel⟩
  · rw [cell_arr _ (by rfl)]; decide +kernel
  · rw [cell_arr _ (by rfl)]; decide +kernel

/-! Witnesses: the sync unit. -/

/-- A launch of these tasks, of task0's number and partition. -/
def launch0 (l : List TaskRec) : Launch :=
  { lid := 1#32, part := 0, ph := 1, cls := 0#3, strict := false, pinned := false, cor := true, batch := true, aff := 0#2,
    rep := 0#2, xext := 2, yext := 1, zext := 1, ctx := 0#16, image := 0x1000000, deadline := 0#64, repAddr := 0, repn := 1,
    affId := 0#32, affs := [], args := [], gang := 1, phase := 0, tasks := l, prev := [], reports := 0, fcode := 0, faulted := false,
    ended := false, committed := false }

/-- Barrier 3 of a scope on core 0, arrived at cycle 0 in episode 1; whether the network has reported it. -/
def barrier0 (sc : Nat) (rep : Bool) : Bar := ⟨sc, 3, 1, 0, 0, 0, true, rep⟩
/-- Reset, task0, with that barrier at cycle n. -/
def barred (n : Nat) (b : Bar) : State := (inCtx [] fun x => { x with bars := [b] }).mod fun k => { k with lcc := n }

/-- A wide barrier without and with co-residence; barriers not arrived and arrived; a barrier of quad scope in a gang of one,
five and six cycles after its arrival; a barrier of module scope across two cores, reported and not; a `sy.bar` before and
after its arrival. -/
theorem wit_BarrierWords :
    let nocor : State := inCore fun k => { k with task := some { task0 with cor := false } }
    let two (r : Bool) : State := { barred 0 (barrier0 5 r) with
      launches := [launch0 [⟨1#48, 0, 0, 1, .running, []⟩, ⟨2#48, 0, 1, 1, .running, []⟩]] }
    TooWide nocor 3#3 ∧ ¬TooWide (barred 0 (barrier0 2 false)) 5#3
    ∧ ((barred 0 (barrier0 2 false)).core.ctx.bar 2 3).on = true ∧ ((barred 0 (barrier0 2 false)).core.ctx.bar 2 0).on = false
    ∧ (InGang (barred 6 (barrier0 2 false)) 2#3 ∧ EpisodeOver (barred 6 (barrier0 2 false)) 2#3 (barrier0 2 false))
    ∧ ¬EpisodeOver (barred 5 (barrier0 2 false)) 2#3 (barrier0 2 false)
    ∧ (¬InGang (two true) 5#3 ∧ ((two true).core.ctx.bar 5 3).rep = true ∧ ((two true).core.ctx.bar 5 3).on = true)
    ∧ (¬InGang (two false) 5#3 ∧ ((two false).core.ctx.bar 5 3).rep = false)
    ∧ ((barred 0 (barrier0 2 false)).core.ctx.pend6.started = false
      ∧ ((barred 0 (barrier0 2 false)).modCtx fun x => { x with pend6 := ⟨true, true, [], [], []⟩ }).core.ctx.pend6.started = true)
    ∧ (two true).core.ctx.bars[0]? = some (barrier0 5 true)
    ∧ ((barred 6 (barrier0 2 false)).cur.val ∈ (barred 6 (barrier0 2 false)).barMembers (barred 6 (barrier0 2 false)).cur.val 2
      ∧ (barred 6 (barrier0 2 false)).core.ctx.pend6.started = false)
    ∧ ((two false).core.ctx.pend6.started = false ∧ ((two false).core.ctx.bar 5 0).on = false)
    ∧ (let s := ((two true).modCtx fun x => { x with bars := [{ barrier0 5 true with k := 0 }], pend6 := ⟨true, true, [], [], []⟩ })
       s.core.ctx.pend6.started = true ∧ ¬InGang s 5#3 ∧ (s.core.ctx.bar 5 0).rep = true)
    ∧ ((barred 0 { barrier0 2 false with k := 0 }).core.ctx.bar 2 0).on = true := by
  dsimp only
  refine ⟨by unfold TooWide; decide +kernel, by unfold TooWide; decide +kernel, by decide +kernel, by decide +kernel,
    ⟨by unfold InGang; decide +kernel, ⟨fun h => absurd h (by decide), fun h => absurd h (by decide), fun _ m hm => ?_⟩⟩, fun h => ?_,
    ⟨by unfold InGang; decide +kernel, by decide +kernel, by decide +kernel⟩, ⟨by unfold InGang; decide +kernel, by decide +kernel⟩,
    by decide +kernel, by decide +kernel, by decide +kernel, by decide +kernel, ⟨by decide +kernel, by unfold InGang; decide +kernel, by decide +kernel⟩,
    by decide +kernel⟩
  · have h : ∀ m ∈ (barred 6 (barrier0 2 false)).barMembers 0 2, m = 0 := by decide +kernel
    obtain rfl := h m hm
    exact ⟨0, by decide +kernel, by decide +kernel⟩
  · obtain ⟨t, h1, h2⟩ := h.2.2 (by decide) 0 (by decide +kernel)
    have h3 : (barred 5 (barrier0 2 false)).arrival 0 2 3 1 = some 0 := by decide +kernel
    obtain rfl : 0 = t := Option.some.inj (h3.symm.trans h1)
    exact absurd h2 (by decide +kernel)

/-- A result issued at cycle 0 and due at 9. -/
def lateEff : CpEff := { dropIn State.reset 9 0#64 with due := 9 }

/-- Barriers of lane and core scope: a graph that runs, one that is done, and one whose start the cycle sees; a result on its
way, and none. -/
theorem wit_BarrierWords_inside :
    let lane (done : Bool) (r : Option Nat) : State := (barred 6 (barrier0 0 false)).mod fun k => { k with grid := { k.grid with doneBit := done, running := r } }
    (EpisodeOver (lane true none) 0#3 (barrier0 0 false) ∧ EpisodeOver (lane false (some 6)) 0#3 (barrier0 0 false)
      ∧ ¬EpisodeOver (lane false (some 5)) 0#3 (barrier0 0 false) ∧ EpisodeOver (lane false (some 5)) 0#3 (barrier0 0 true))
    ∧ (EpisodeOver (lane true none) 0#3 (arrived (lane true none) 0#3 ((lane true none).core.ctx.bar 0 0))
      ∧ ¬EpisodeOver (lane false (some 5)) 0#3 (arrived (lane false (some 5)) 0#3 ((lane false (some 5)).core.ctx.bar 0 0))
      ∧ ((lane false none).core.ctx.bar 0 0).on = false ∧ (lane false none).core.ctx.pend6.started = false)
    ∧ EpisodeOver (barred 6 (barrier0 1 false)) 1#3 (barrier0 1 false)
    ∧ ¬EpisodeOver ((barred 6 (barrier0 1 false)).modCtx fun x => { x with effs := [lateEff] }) 1#3 (barrier0 1 false) := by
  dsimp only
  refine ⟨⟨⟨fun _ => .inr (by decide +kernel), fun h => absurd h (by decide), fun h => absurd h (by decide)⟩,
    ⟨fun _ => .inr (by decide +kernel), fun h => absurd h (by decide), fun h => absurd h (by decide)⟩,
    fun h => absurd (h.1 rfl) (by decide +kernel), fun _ => .inl rfl, fun h => absurd h (by decide), fun h => absurd h (by decide)⟩,
    ⟨⟨fun _ => .inr (by decide +kernel), fun h => absurd h (by decide), fun h => absurd h (by decide)⟩,
      fun h => absurd (h.1 rfl) (by decide +kernel), by decide +kernel, by decide +kernel⟩, ⟨fun h => absurd h (by decide), fun _ h => ?_, fun h => absurd h (by decide)⟩, fun h => ?_⟩
  · unfold WorkInFlight at h
    have e : ((barred 6 (barrier0 1 false)).core.ctx.dropped = [] ∧ (barred 6 (barrier0 1 false)).core.ctx.effs = []
        ∧ (∀ p ∈ (barred 6 (barrier0 1 false)).core.ctx.ldP, p.running = false)
        ∧ (∀ p ∈ (barred 6 (barrier0 1 false)).core.ctx.stP, p.open_ = false ∧ p.lands = [])
        ∧ (barred 6 (barrier0 1 false)).core.ctx.copies = [])
        ∧ ((barred 6 (barrier0 1 false)).core.grid.loading = none ∧ (barred 6 (barrier0 1 false)).core.grid.passes = []
        ∧ (barred 6 (barrier0 1 false)).core.grid.doneBit = true)
        ∧ (barred 6 (barrier0 1 false)).core.arr.fronts = [] ∧ (barred 6 (barrier0 1 false)).core.arr.deskew = []
        ∧ (barred 6 (barrier0 1 false)).core.arr.ldst = none ∧ (barred 6 (barrier0 1 false)).core.arr.drain = none
        ∧ (barred 6 (barrier0 1 false)).core.arr.hreads = [] := by and_intros <;> decide +kernel
    obtain ⟨⟨e1, e2, e3, e4, e5⟩, ⟨e6, e7, e8⟩, e9, e10, e11, e12, e13⟩ := e
    obtain ⟨-, x, h, -⟩ | ⟨x, h, -, -⟩ | ⟨x, h, h', -⟩ | ⟨x, h, h'⟩ | ⟨x, h, -⟩ | ⟨x, y, h, -⟩ | ⟨x, h, -⟩ | ⟨h, -⟩ | ⟨x, h, -⟩ | ⟨x, h, -⟩
      | ⟨x, h, -⟩ | ⟨x, h, -⟩ | ⟨x, h, -⟩ := h
    · rw [e1] at h; cases h
    · rw [e2] at h; cases h
    · rw [e3 x h] at h'; cases h'
    · obtain ⟨f1, f2⟩ := e4 x h
      obtain ⟨h', -⟩ | ⟨y, h', -⟩ := h'
      · rw [f1] at h'; cases h'
      · rw [f2] at h'; cases h'
    · rw [e5] at h; cases h
    · rw [e6] at h; cases h
    · rw [e7] at h; cases h
    · rw [e8] at h; cases h
    · rw [e9] at h; cases h
    · rw [e10] at h; cases h
    · rw [e11] at h; cases h
    · rw [e12] at h; cases h
    · rw [e13] at h; cases h
  · exact h.2.1 rfl (.inr (.inl ⟨lateEff, by decide +kernel, .inl rfl, by unfold Acts; decide +kernel⟩))

/-- The state after the lookups of a SYN word. -/
def looked (s : State) (va n : Nat) : State := (issueLooks s 6 [(va, va + n)]).1

theorem finds_of {s : State} {va n pa mt : Nat} (l : Looks) (off len : Nat) (bits : Byte)
    (h : (issueLooks s 6 [(va, va + n)]).2 = some l ∧ pieces (looked s va n) l false true va n = .inr [(off, pa, len, bits)]
      ∧ bits.toNat / 64 % 4 = mt) : Finds s (looked s va n) va n pa mt :=
  ⟨l, off, len, bits, [], Prod.ext rfl h.1, h.2.1, h.2.2⟩

/-- What the lookups of the mapped page of type 2 find at its beginning. -/
def look0 : Looks := [(0x1000000, .inr ⟨0#16, 0, 0x1000000, 0x200000, 0x400000, 0x9B#8⟩)]

/-- A release of core 0 to the object at 0x400000. -/
def rel0 : Release :=
  { id := 0, core := 0, obj := 0x400000, part := 0, ctx := 0#16, scope := 4#3, lines := [], copies := [], atoms := [], who := 0 }

/-- The mapped page with a waiting record of the SYN queue. -/
def pending (p : Pend) : State := (mapped 2 id).modCtx fun x => { x with pend6 := p }
/-- The page with two releases of one core. -/
def releasing : State := { mapped 2 id with rels := [rel0, rel0] }

/-- Objects aligned and not, in the last double word of their page; 15 and 16 bindings; the waiting record of each word in
each of its states. -/
theorem wit_SyncObjects :
    let m := mapped 2 id
    let full := mapped 2 fun k => { k with ctx := { k.ctx with binds := List.replicate 16 ⟨0, 0, 0⟩ } }
    let s := pending
    ((0x7F#57).toNat % 128 ≠ 0 ∧ (0x3F#57).toNat % 64 ≠ 0 ∧ (0x1000000#57).toNat % 128 = 0 ∧ (1#29) ≠ 0#29 ∧ (0x11FFFC0#57).toNat % 64 = 0)
    ∧ (Finds m (looked m (0x1000000#57).toNat 8) (0x1000000#57).toNat 8 0x400000 2 ∧ 2 ≠ 3
      ∧ (looked m 0x1000000 8).core.ctx.binds.length < 16 ∧ (looked m 0x1000000 8).core.l1d = [])
    ∧ (Finds full (looked full (0x1000000#57).toNat 8) (0x1000000#57).toNat 8 0x400000 2
      ∧ (⟨0x1000000, 0, 1⟩ : Binding) ∉ (looked full 0x1000000 8).core.ctx.binds ∧ 16 ≤ (looked full 0x1000000 8).core.ctx.binds.length)
    ∧ (m.core.ctx.pend6.arg.head? ≠ some 1 ∧ m.core.ctx.pend6.arg.head? ≠ some 2)
    ∧ ((s ⟨true, false, [], [], [1, 0x400000, 1, 0x1000000]⟩).core.ctx.pend6.arg.head? = some 1
      ∧ (s ⟨true, false, [], [], [1, 0x400000, 1, 0x1000000]⟩).core.ctx.pend6.ready = false
      ∧ (s ⟨true, true, [], [], [1, 0x400000, 1, 0x1000000]⟩).core.ctx.pend6.ready = true)
    ∧ ((s ⟨true, false, [], [], [1, 0x400000, 1, 0x1000000]⟩).core.ctx.pend6.arg = 1 :: 0x400000 :: 1 :: (0x1000000#57).toNat :: []
      ∧ (m.home64 0x400000).toNat < 1 ∧ 0 ≤ (m.home64 0x400000).toNat ∧ m.core.l1d = [] ∧ m.core.vc = []
      ∧ m.noAnswer (m.partOf m.cur.val) 0x400000 = false ∧ (m.modQuad 0 fun q => { q with ps := .gated }).noAnswer 0 0x1C000000000 = true)
    ∧ (s ⟨true, false, [], [], [2]⟩).core.ctx.pend6.arg.head? = some 2 := by
  dsimp only
  refine ⟨by decide +kernel, ⟨finds_of look0 0 8 0x9B#8 (by decide +kernel), by decide, by decide +kernel, by decide +kernel⟩,
    ⟨finds_of look0 0 8 0x9B#8 (by decide +kernel), by decide +kernel, by decide +kernel⟩, ?_, ?_, ?_, ?_⟩ <;> decide +kernel

/-- A fence that finds its core's writes visible, and one that has a copy in flight; of two releases of a core the first is
done and the second waits for it. -/
theorem wit_SyncObjects_waits :
    WritesVisible (pending ⟨true, false, [], [], [2]⟩) 0 anyEnd
    ∧ ¬WritesVisible ((pending ⟨true, false, [], [], [2]⟩).modCtx fun x => { x with copies := [copy0] }) 0 anyEnd
    ∧ (releasing.rels[0]? = some rel0 ∧ Released releasing 0 rel0 ∧ (releasing.at rel0.core).l1d = [] ∧ HbmElement releasing rel0.obj 8)
    ∧ (releasing.rels[1]? = some rel0 ∧ ¬Released releasing 1 rel0) ∧ releasing.canon := by
  refine ⟨⟨fun x h => absurd h (none_in (by decide +kernel) x), fun x h => absurd h (none_in (by decide +kernel) x),
      fun x h => absurd h (none_in (by decide +kernel) x), by decide +kernel, fun n r h => ?_, fun x h => ?_⟩,
    fun h => h.1 copy0 (by decide +kernel) trivial,
    ⟨by decide +kernel, ⟨by decide +kernel, by decide +kernel, by decide +kernel, fun j h => absurd h (Nat.not_lt_zero j)⟩, by decide +kernel,
      by unfold HbmElement; decide +kernel⟩, ⟨by decide +kernel, fun h => ?_⟩, canon_of_canonB (by decide +kernel)⟩
  · rw [show (pending ⟨true, false, [], [], [2]⟩).rels = [] by decide +kernel] at h
    exact absurd h (getElem_nil n r)
  · rw [show (pending ⟨true, false, [], [], [2]⟩).atoms = [] by decide +kernel] at h
    cases h
  · obtain ⟨id, f, hf, -⟩ := h.2.2.2 0 (by decide) rel0 (by decide +kernel) rfl
    rw [show releasing.saved = [] by decide +kernel] at hf
    cases hf

/-- A returning atomic of core 3: adds 5 to the UI32 at 0x400000, its slot the last in LM. -/
def atomx0 : Atomx :=
  { id := 0, core := 3, lid := 9#32, phase := 0, tile := 1#48, gidx := 0, k := 1, issue := 0, op := 0#4, fmt := 0x14#5, pa := 0x400000,
    operand := 5#64, slot := 0x1FBFFC, tag := 7#16, supv := false, who := 0, acc := [], copies := [], ready := 4, result := none }
/-- The mapped page with returning atomics at a time. -/
def atoms0 (l : List Atomx) (n : Nat) : State := { mapped 2 id with atoms := l, time := n }
/-- Two batches declared, the second full; the last of the first but one is issued. -/
def batched (n : Nat) : State :=
  mapped 2 fun k => { k with ctx := { k.ctx with batches := [⟨1, 4, n, false, true⟩, ⟨2, 4, 4, true, true⟩] } }

/-- LM operands at the end of the grant, beyond it and misaligned; an address on an uncached page, by integers and by
floating numbers, its element with and without an accumulator; batches not declared, declared, at the last use, and full. -/
theorem wit_AtomicsAndBatches :
    let m := mapped 2 id
    let z := fmtWidth 0x14#5 / 8
    let acc (l : List AccEl) : State := { m with accs := l }
    (z = 4 ∧ (0xFFC#21).toNat + z ≤ m.core.lmGrant ∧ (0xFFC#21).toNat % z = 0 ∧ (0xFFE#21).toNat % z ≠ 0
      ∧ (0xFF9#21).toNat + z ≤ m.core.lmGrant ∧ (0xFF9#21).toNat % z ≠ 0 ∧ m.core.lmGrant < (0xFFD#21).toNat + z ∧ (0x1000002#57).toNat % z ≠ 0)
    ∧ (Finds m (looked m (0x1000000#57).toNat z) (0x1000000#57).toNat z 0x400000 2 ∧ (looked m 0x1000000 4).canon ∧ (5#4).toNat ≤ 5
      ∧ (looked m 0x1000000 4).core.upd = [] ∧ (looked m 0x1000000 4).accs = [])
    ∧ HbmElement (looked m 0x1000000 4) 0x400000 4
    ∧ (Finds (acc [⟨0x400000, 1#5, XAcc.empty⟩]) (looked (acc [⟨0x400000, 1#5, XAcc.empty⟩]) (0x1000000#57).toNat 4) (0x1000000#57).toNat 4 0x400000 2
      ∧ (looked (acc [⟨0x400000, 1#5, XAcc.empty⟩]) 0x1000000 4).accs = [⟨(looked (acc [⟨0x400000, 1#5, XAcc.empty⟩]) 0x1000000 4).normPa 0x400000, 1#5, XAcc.empty⟩])
    ∧ (m.core.task.map Task.batch = some true ∧ m.core.ctx.batch 1 = none ∧ (1#29) ≠ 0#29)
    ∧ ((belt []).mod fun k => { k with task := none }).core.task.map Task.batch ≠ some true
    ∧ (∀ n ∈ [0, 3], (batched n).core.ctx.batch 1 = some ⟨1, 4, n, false, true⟩ ∧ (batched n).core.ctx.batch 2 = some ⟨2, 4, 4, true, true⟩)
    ∧ (∀ n ∈ [0, 3], Finds (batched n) (looked (batched n) (0x1000000#57).toNat z) (0x1000000#57).toNat z 0x400000 2
      ∧ (looked (batched n) 0x1000000 4).target 0x400000 = .hbm
      ∧ (looked (batched n) 0x1000000 4).core.l1d = [] ∧ (looked (batched n) 0x1000000 4).core.vc = []) := by
  dsimp only
  refine ⟨by decide +kernel, ⟨finds_of look0 0 4 0x9B#8 (by decide +kernel), canon_of_canonB (by decide +kernel), by decide, by decide +kernel, by decide +kernel⟩,
    by unfold HbmElement; decide +kernel, ⟨finds_of look0 0 4 0x9B#8 (by decide +kernel), by decide +kernel⟩, by decide +kernel, by decide +kernel, by decide +kernel,
    fun n hn => ?_⟩
  simp only [List.mem_cons, List.not_mem_nil, or_false] at hn
  obtain rfl | rfl := hn <;> exact ⟨finds_of look0 0 4 0x9B#8 (by decide +kernel), by decide +kernel⟩

/-- What the lookups of the mapped pages of types 0 and 1 find. -/
def bitsC (mt : Nat) : Byte := BitVec.ofNat 8 (0x1B + 64 * mt)
def lookC (mt : Nat) : Looks := [(0x1000000, .inr ⟨0#16, 0, 0x1000000, 0x200000, 0x400000, bitsC mt⟩)]
/-- An update of 3 pending at 0x400000 in an update-only line. -/
def update0 : Update := ⟨0x400000, 0#4, 0x14#5, 3#64, XAcc.empty⟩
def updating (mt : Nat) : State := mapped mt fun k => { k with upd := [update0], l1d := [line0 0x8000 0] }

/-- Cached pages, without and with an update pending for the element; a fence that brings it home. -/
theorem wit_AtomicsAndBatches_cached :
    (∀ p ∈ [0, 1], p < 2
      ∧ Finds (mapped p id) (looked (mapped p id) (0x1000000#57).toNat 4) (0x1000000#57).toNat 4 0x400000 p
      ∧ ((looked (mapped p id) 0x1000000 4).core.upd = [] ∧ (looked (mapped p id) 0x1000000 4).core.l1d = []
        ∧ (looked (mapped p id) 0x1000000 4).target 0x400000 = .hbm)
      ∧ Finds (updating p) (looked (updating p) (0x1000000#57).toNat 4) (0x1000000#57).toNat 4 0x400000 p
      ∧ ((looked (updating p) 0x1000000 4).core.upd = [update0] ∧ (looked (updating p) 0x1000000 4).core.l1d = [line0 0x8000 0]
        ∧ (looked (updating p) 0x1000000 4).target 0x400000 = .hbm))
    ∧ (update0.pa = 0x400000 ∧ update0.op = 0#4 ∧ update0.fmt = 0x14#5 ∧ (line0 0x8000 0).pa = 0x400000 / 128 ∧ true ∉ (line0 0x8000 0).dirty)
    ∧ (let s := (updating 0).modCtx fun x => { x with pend6 := ⟨true, false, [], [], [2]⟩ }
       s.core.ctx.pend6.arg.head? = some 2 ∧ WritesVisible s s.cur.val anyEnd ∧ s.canon ∧ s.core.upd = [update0] ∧ s.core.l1d = [line0 0x8000 0]
       ∧ HbmElement s update0.pa 4) := by
  refine ⟨fun p hp => ?_, by decide +kernel, by decide +kernel,
    ⟨fun x h => absurd h (none_in (by decide +kernel) x), fun x h => absurd h (none_in (by decide +kernel) x),
      fun x h => absurd h (none_in (by decide +kernel) x), by decide +kernel, fun n r h => ?_, fun x h => ?_⟩, canon_of_canonB (by decide +kernel), by decide +kernel,
    by decide +kernel, by unfold HbmElement; decide +kernel⟩
  · simp only [List.mem_cons, List.not_mem_nil, or_false] at hp
    obtain rfl | rfl := hp <;>
      refine ⟨by decide, ?_, by decide +kernel, ?_, by decide +kernel⟩
    · exact finds_of (lookC 0) 0 4 (bitsC 0) (by decide +kernel)
    · exact finds_of (lookC 0) 0 4 (bitsC 0) (by decide +kernel)
    · exact finds_of (lookC 1) 0 4 (bitsC 1) (by decide +kernel)
    · exact finds_of (lookC 1) 0 4 (bitsC 1) (by decide +kernel)
  · rw [show ((updating 0).modCtx fun x => { x with pend6 := ⟨true, false, [], [], [2]⟩ }).rels = [] by decide +kernel] at h
    exact absurd h (getElem_nil n r)
  · rw [show ((updating 0).modCtx fun x => { x with pend6 := ⟨true, false, [], [], [2]⟩ }).atoms = [] by decide +kernel] at h
    cases h

/-- Returning atomics before and after their turn; a result not due, behind another, and due, in and out of the cycle's own
writes. -/
theorem wit_AtomicsAndBatches_returning :
    let y : Atomx := { atomx0 with result := some (3#64, false) }
    let late : Atomx := { atomx0 with id := 1, core := 4, gidx := 1 }
    let wr := (atoms0 [y] 4).modAt 3 fun k => { k with nextCyc := 4, wrote := [(0x1FBFFC, 1)], wroteTags := [507] }
    ((atoms0 [atomx0] 0).atoms[1]? = none ∧ (atoms0 [atomx0] 0).atoms[0]? = some atomx0 ∧ InTurn (atoms0 [atomx0] 0) atomx0
      ∧ HbmElement (atoms0 [atomx0] 0) 0x400000 4 ∧ (atoms0 [atomx0] 0).canon)
    ∧ ¬InTurn (atoms0 [atomx0, late] 0) late
    ∧ ((atoms0 [y] 3).time < y.ready ∧ y.ready ≤ (atoms0 [y] 4).time ∧ (atoms0 [y] 4).discards y.core = false ∧ y.core < 192
      ∧ y.slot < 0x1FC000 ∧ y.slot + fmtWidth y.fmt / 8 ≤ 0x1FC000)
    ∧ ((atoms0 [y, y] 4).atoms[0]? = some y ∧ (atoms0 [y, y] 4).atoms[1]? = some y)
    ∧ (WrittenAt (wr.at 3) wr.time 0x1FBFFC ∧ ¬WrittenAt (wr.at 3) wr.time 0x1FBFFD ∧ 507 ∈ (wr.at 3).wroteTags ∧ y.slot / 4096 = 507) := by
  dsimp only
  refine ⟨⟨by decide +kernel, by decide +kernel, ⟨by decide +kernel, fun l h => ?_, by decide +kernel⟩, by unfold HbmElement; decide +kernel,
    canon_of_canonB (by decide +kernel)⟩, fun h => ?_, by decide +kernel, by decide +kernel, by unfold WrittenAt; decide +kernel⟩
  · rw [show (atoms0 [atomx0] 0).launch ((atoms0 [atomx0] 0).partOf atomx0.core) atomx0.lid = none by decide +kernel] at h
    cases h
  · exact absurd h.2.2 (by decide +kernel)

/-- Live extents aligned and not, within the grant and beyond; with and without a request pending; a batch task and one
without; the last cycle of the safe-point gap and the next; a gang of two, a request pending on its second core or none. -/
theorem wit_EndsAndTraps :
    let s (n : Nat) (p : Bool) : State := inCore fun k => { k with lcc := n, prePend := p }
    ((0x1000#29).toNat % 4096 = 0 ∧ (0x1000#29).toNat ≤ (s 0 false).core.lmGrant ∧ (s 0 false).core.gsize = 1
      ∧ (s 0 false).core.gbase = (s 0 false).cur.val ∧ (s 0 false).core.prePend = false ∧ (s 0 true).core.prePend = true)
    ∧ (0x1001#29).toNat % 4096 ≠ 0 ∧ (s 0 false).core.lmGrant < (0x2000#29).toNat
    ∧ ((s 0 false).mod fun k => { k with task := some { task0 with batch := false } }).core.task.map Task.batch ≠ some true
    ∧ ((s 101 false).core.task = some task0 ∧ (s 101 false).core.hnd = false ∧ (s 101 false).core.ctx.safePt + task0.sgap < (s 101 false).core.now
      ∧ (s 100 false).core.now ≤ (s 100 false).core.ctx.safePt + task0.sgap)
    ∧ (let g (p : Bool) : State := (inCore fun k => { k with gsize := 2 }).modAt 1 fun k => { k with prePend := p, gbase := 0, gsize := 2 }
       (g true).cur.val ∈ (g true).members (g true).cur.val ∧ (∃ c ∈ (g true).members (g true).cur.val, ((g true).at c).prePend = true)
       ∧ ∀ c ∈ (g false).members (g false).cur.val, ((g false).at c).prePend = false) := by
  decide +kernel

/-! Witnesses: privilege, gangs, fetch. -/

/-- A list whose every element passes a decidable test. -/
theorem forall_of_all {α : Type} {P : α → Prop} [DecidablePred P] {l : List α} (h : (l.all fun x => decide (P x)) = true) : ∀ x ∈ l, P x :=
  fun x hx => of_decide_eq_true (List.all_eq_true.1 h x hx)

/-- Reset, task0, at supervisor privilege. -/
def inSup (f : Core → Core) : State := inCore fun k => f { k with ctx := { k.ctx with sup := true } }

/-- User and supervisor privilege; a register number of none and of one; the last operand in LM, the first beyond, one
misaligned; one value due at the end of LM. -/
theorem wit_SystemRegisterWords :
    let m : MfsrW := ⟨0x1FFFF8, 5#64, 0⟩
    let s := inSup fun k => { k with ctx := { k.ctx with mfsrs := [m, ⟨0, 0#64, 1⟩] } }
    (inCore id).core.ctx.sup = false ∧ s.core.ctx.sup = true ∧ s.sysRead s.cur.val (0xFFF#12).toNat = none
    ∧ (s.sysRead s.cur.val (0x004#12).toNat = some 100000#64 ∧ (0x1FFFF8#21).toNat + 8 ≤ s.core.lmGrant ∧ (0x1FFFF8#21).toNat % 8 = 0)
    ∧ s.core.lmGrant < (0x1FFFF9#21).toNat + 8 ∧ (0x1FFFF4#21).toNat % 8 ≠ 0
    ∧ s.canon ∧ ((s.core.ctx.mfsrs.filter fun x => x.due == s.core.now) = [m] ∧ m.addr + 8 ≤ 0x200000) :=
  ⟨by decide +kernel, by decide +kernel, by decide +kernel, by decide +kernel, by decide +kernel, by decide +kernel,
    canon_of_canonB (by decide +kernel), by decide +kernel⟩

/-- The end of a cycle of core 0, at supervisor privilege in its task, with values on their way to registers. -/
def cycleEnd (l : List MtsrW) : State := { inSup fun k => { k with ctx := { k.ctx with mtsrs := l } } with agenda := [(0, .advance)] }

/-- The end of a cycle with no value due, and with one for each kind of register. -/
theorem wit_SystemRegisterWords_end :
    (CycleEnds (cycleEnd []) ∧ (cycleEnd []).core.ctx.mtsrs = [])
    ∧ (∀ n ∈ [0x001#12, 0x000#12, 0x004#12, 0x005#12, 0x040#12, 0x100#12, 0x310#12, 0x400#12, 0x315#12], CycleEnds (cycleEnd [⟨n, 5#64, 0⟩])
      ∧ (cycleEnd [⟨n, 5#64, 0⟩]).core.ctx.mtsrs = [⟨n, 5#64, 0⟩] ∧ (cycleEnd [⟨n, 5#64, 0⟩]).core.task ≠ none)
    ∧ (0x001, [(12, 40)]) ∈ plainRegs ∧ 0x400 ∈ keptRegs ∧ Outer 0x315 := by
  refine ⟨⟨⟨⟨[], by decide +kernel⟩, by unfold Alone; decide +kernel, by decide +kernel⟩, by decide +kernel⟩, fun n hn => ?_, by decide +kernel,
    by decide +kernel, by unfold Outer; decide +kernel⟩
  refine ⟨⟨⟨[], rfl⟩, ?_, ?_⟩, ?_, ?_⟩
  · unfold Alone; revert hn; revert n; exact forall_of_all (by decide +kernel)
  all_goals revert hn; revert n; exact forall_of_all (by decide +kernel)

/-- A value of core 0 that has come to an outer register; window 2 is enabled, window 1 not. -/
def outWriting (n : BitVec 12) (v : W64) : State :=
  { State.reset with outWrites := [⟨0, 0, n, v⟩], agenda := [], sched := [], gov := { State.reset.gov with tick := 1 }
                     windows := State.reset.windows.set 2 ⟨1#64, 0#64, 0#64, 0#64, 0#64, 0#64⟩ }

/-- Values for each kind of outer register. -/
theorem wit_SystemRegisterWords_outer :
    ∀ n ∈ [0x320#12, 0x321#12, 0x203#12, 0x188#12, 0x189#12, 0x190#12, 0x18C#12, 0x311#12, 0x312#12, 0x313#12, 0x314#12, 0x315#12, 0x316#12, 0x317#12],
      let s := outWriting n 5#64
      s.agenda = [] ∧ s.time < 64 * s.gov.tick * Config.unitsPerNs ∧ s.time < 1000 * (s.gov.interval + 1) * Config.unitsPerNs
      ∧ s.sched = [] ∧ s.outWrites = [⟨0, 0, n, 5#64⟩] ∧ Outer n.toNat ∧ (s.at 0).qpcSel.toNat < 48
      ∧ (s.window 1).ctl.getLsbD 0 = false ∧ (s.window 2).ctl.getLsbD 0 = true := by
  unfold Outer
  exact forall_of_all (by decide +kernel)

/-- s with partition 0 enabled, with quad 0 and the first GiB of HBM. -/
def owned (s : State) : State := s.modPart 0 fun p => { p with en := true, qmask := 1#48, hbm := 0x10000#64, win := 0xFFFF#16 }

/-- Partition 0 of s is so, and the current core is one of its cores. -/
def Owned (s : State) : Prop :=
  (s.part 0).en = true ∧ bitsOf (s.part 0).hbm.toNat 0 10 = 0 ∧ bitsOf (s.part 0).hbm.toNat 16 10 = 1 ∧ s.partOf s.cur.val = 0

theorem inShare_owned {s : State} (h : Owned s) {a : Nat} (ha : a < 0x40000000) : InShare s (s.partOf s.cur.val) a := by
  obtain ⟨h1, h2, h3, h6⟩ := h
  have h4 : a < 0x9000000000 := by omega
  have h5 : ¬2 ^ 51 ≤ a := by omega
  unfold bitsOf at h2 h3
  unfold InShare State.target State.normPa
  simp only [h6, h5, localTarget, h4, if_true, if_false, false_and, h1]
  refine ⟨trivial, trivial, ?_⟩
  simp at h2 h3 ⊢
  omega

/-- s with HBM memory that holds these bytes from 0x1000 on, and with these saved images. -/
def holding (s : State) (v : List Saved) (l : List Byte) : State := { s with saved := v, gmem := memWriteN [] 0x1000 l }

theorem homeByte_holding (s : State) (v : List Saved) (n : Nat) (f : Nat → Byte) (hn : n ≤ 0x40000) (i : Nat) (hi : i < n) :
    (holding s v ((List.range n).map f)).homeByte (0x1000 + i) = f i := by
  have h1 : 0x1000 + i < 0x9000000000 := by omega
  have h2 : ¬2 ^ 51 ≤ 0x1000 + i := by omega
  unfold State.homeByte State.plainByte State.target State.normPa
  simp only [h2, localTarget, h1, if_true, if_false, false_and]
  simp only [holding]
  rw [memRead_memWriteN Memory.wf_nil, if_pos ⟨by omega, by simp; omega⟩, Nat.add_sub_cancel_left]
  simp [List.getD_eq_getElem?_getD, hi]

theorem imageAt_holding (s : State) (v : List Saved) (n : Nat) (f : Nat → Byte) (hn : n ≤ 0x40000) :
    imageAt (holding s v ((List.range n).map f)) 0x1000 n f = true := by
  simp only [imageAt, List.all_eq_true, List.mem_range, beq_iff_eq]
  exact homeByte_holding s v n f hn

theorem hasTarget_holding {s : State} (h : Owned s) (v : List Saved) (l : List Byte) (a : Nat) (ha : a < 0x40000000) :
    (holding s v l).hasTarget 0 true a = true := by
  obtain ⟨h1, h2, h3, -⟩ := h
  have e : (holding s v l).part 0 = s.part 0 := rfl
  have h4 : a < 0x9000000000 := by omega
  have h5 : ¬2 ^ 51 ≤ a := by omega
  unfold State.hasTarget State.target State.normPa
  simp only [e, h5, localTarget, h4, if_true, if_false, false_and, h1, h2, h3, Bool.true_and]
  simp
  omega

theorem reach_holding {s : State} (h : Owned s) (v : List Saved) (l : List Byte) (n : Nat) (hn : n ≤ 0x40000) (h0 : 0 < n) :
    (holding s v l).ownReach ((holding s v l).partOf (holding s v l).cur.val) 0x1000 n = true := by
  have e : (holding s v l).partOf (holding s v l).cur.val = 0 := h.2.2.2
  rw [e]
  simp only [State.ownReach, List.all_eq_true, List.mem_range, Bool.and_eq_true]
  intro i hi
  exact ⟨hasTarget_holding h _ _ _ (by omega), hasTarget_holding h _ _ _ (by omega)⟩

theorem rev_holding {s : State} (h : Owned s) (v : List Saved) (n : Nat) (f : Nat → Byte) (hn : n ≤ 0x40000) (h2 : 2 ≤ n)
    (f0 : f 0 = 1#8) (f1 : f 1 = 0#8) : imageRev (holding s v ((List.range n).map f)) 0x1000 n = true := by
  unfold imageRev
  rw [reach_holding h v _ n hn (by omega), show (0x1000 : Nat) = 0x1000 + 0 from rfl, homeByte_holding s v n f hn 0 (by omega)]
  rw [homeByte_holding s v n f hn (0 + 1) (by omega), f0, f1]
  rfl

theorem byte_of_rev {v : Nat} (h : v % 65536 = 1) : byteOf v 0 = 1#8 ∧ byteOf v 1 = 0#8 := by
  constructor <;> apply BitVec.eq_of_toNat_eq <;> simp only [byteOf, BitVec.toNat_ofNat] <;> omega

theorem array_rev (id : Nat) (x : Arr) : arrayImage id x 0 = 1#8 ∧ arrayImage id x 1 = 0#8 := by
  have h : arrayHeader x % 65536 = 1 := by
    unfold arrayHeader
    dsimp only
    split <;> omega
  exact byte_of_rev h

theorem grid_rev (id : Nat) (g : Grid) : gridImage id g 0 = 1#8 ∧ gridImage id g 1 = 0#8 :=
  byte_of_rev (v := 1 + g.stopCyc % 2 ^ 64 * 2 ^ 32) (by omega)

theorem findSome_single {α β : Type} {f : α → Option β} {a : α} {b : β} (h : f a = some b) : [a].findSome? f = some b := by
  rw [List.findSome?_cons, h]

theorem findArray_of {s : State} {id pa : Nat} {x : Arr} {m n : Bool} (h : s.saved = [.array id x m n]) (r : imageRev s pa arrayImageSize = true)
    (k : imageAt s pa arrayImageSize (arrayImage id x) = true) : findArray s pa = some (x, m, n) := by
  have e : ∀ f : Nat → Arr → Bool, (match Saved.array id x m n with
      | .array id a am gm => if f id a then some (a, am, gm) else none
      | _ => none) = if f id x then some (x, m, n) else none := fun _ => rfl
  have g := (e fun id a => imageAt s pa arrayImageSize (arrayImage id a)).trans (if_pos k)
  unfold findArray
  rw [r, h, Bool.not_true, if_neg Bool.false_ne_true]
  have o : ∀ y, y = some (x, m, n) → (y <|> foreignArray s pa) = some (x, m, n) := by rintro _ rfl; rfl
  exact o _ (findSome_single g)

theorem findGrid_of {s : State} {id pa : Nat} {x : Grid} (h : s.saved = [.grid id x]) (r : imageRev s pa gridImageSize = true)
    (k : imageAt s pa gridImageSize (gridImage id x) = true) : findGrid s pa = some x := by
  have e : ∀ f : Nat → Grid → Bool, (match Saved.grid id x with
      | .grid id g => if f id g then some g else none
      | _ => none) = if f id x then some x else none := fun _ => rfl
  have g := (e fun id a => imageAt s pa gridImageSize (gridImage id a)).trans (if_pos k)
  unfold findGrid
  rw [r, h, Bool.not_true, if_neg Bool.false_ne_true]
  exact findSome_single g

theorem findFrame_of {s : State} {id pa : Nat} {f : FrameRec} (h : s.saved = [.frame id f]) (k : frameMatches s pa id f = true) :
    findFrame s pa = some f := by
  unfold findFrame
  rw [h]
  simp only [List.findSome?_cons, k, if_true]

theorem core_holding (s : State) (v : List Saved) (l : List Byte) : (holding s v l).core = s.core := rfl
theorem saved_holding (s : State) (v : List Saved) (l : List Byte) : (holding s v l).saved = v := rfl

/-- Memory that holds the images that restores look for. -/
theorem images_found {s : State} (h : Owned s) (x : Arr) (g : Grid) (m n : Bool) :
    findArray (holding s [.array 0 x m n] ((List.range arrayImageSize).map (arrayImage 0 x))) 0x1000 = some (x, m, n)
    ∧ findGrid (holding s [.grid 0 g] ((List.range gridImageSize).map (gridImage 0 g))) 0x1000 = some g :=
  ⟨findArray_of (saved_holding _ _ _) (rev_holding h _ _ _ (by decide) (by decide) (array_rev 0 x).1 (array_rev 0 x).2) (imageAt_holding _ _ _ _ (by decide)),
    findGrid_of (saved_holding _ _ _) (rev_holding h _ _ _ (by decide) (by decide) (grid_rev 0 g).1 (grid_rev 0 g).2) (imageAt_holding _ _ _ _ (by decide))⟩

/-- A supervisor's waiting record of the SYN queue. -/
def supPend (p : Pend) : State := inSup fun k => { k with ctx := { k.ctx with pend6 := p } }
/-- The record of a started word. -/
def startedPend (rd : Bool) (arg : List Nat) : Pend := ⟨true, rd, [], [], arg⟩

theorem writes_visible {s : State} {c : Nat} (G : CopyEnd → Prop) (h : (∀ x ∈ (s.at c).ctx.copies, ¬G x.dst) ∧ s.hbm = [] ∧ s.outLands = [] ∧ s.devs = [])
    (h1 : s.rels = []) (h2 : s.atoms = []) : WritesVisible s c G :=
  ⟨h.1, fun x e => absurd e (none_in h.2.1 x), fun x e => absurd e (none_in h.2.2.1 x), fun x e => absurd e (none_in h.2.2.2 x), fun n r e => absurd (h1 ▸ e) (getElem_nil n r), fun x e => by rw [h2] at e; cases e⟩

/-- Kinds with and without an address; a save and a restore at each of their stages, misaligned, busy and without an image;
an invalidation while a copy is in flight and without. -/
theorem wit_InvalidateSaveRestore :
    let st (rd : Bool) (arg : List Nat) : State := supPend (startedPend rd arg)
    let front : Front := ⟨.A, false, 0, false, false, 0, ArrSet.reset, [], [], 1#5⟩
    let z := supPend Pend.reset
    (1#3 ≠ 0#3 ∧ (0x1000#57) ≠ 0#57 ∧ z.core.ctx.sup = true ∧ z.core.ctx.pend6.arg.head? ≠ some 5)
    ∧ ((st true []).core.ctx.pend6.started = true ∧ (st true []).core.ctx.pend6.ready = true ∧ (st false []).core.ctx.pend6.ready = false
      ∧ z.core.ctx.pend6.started = false)
    ∧ (∀ b : Bool, (st b [5, 0, 0x1000]).core.ctx.pend6.arg.head? = some 5 ∧ (st b [5, 0, 0x1000]).core.ctx.pend6.ready = b)
    ∧ ((0x1080#52).toNat % 128 = 0 ∧ (0x1040#52).toNat % 128 ≠ 0)
    ∧ (z.core.arr.fronts = [] ∧ z.core.arr.ldst = none ∧ z.core.arr.drain = none ∧ z.core.grid.doneBit = true ∧ z.core.grid.loading = none
      ∧ z.core.grid.passes = [] ∧ findArray z 0x1000 = none ∧ findGrid z 0x1000 = none)
    ∧ (let x := inSup fun k => { k with arr := { k.arr with fronts := [front] }, grid := { k.grid with doneBit := false } }
       x.core.hnd = false ∧ x.core.arrHeld = false ∧ x.core.arr.fronts ≠ [] ∧ x.core.gridHeld = false ∧ x.core.grid.doneBit = false)
    ∧ ((st false [5, 0, 0x1000]).core.ctx.pend6.arg = [5, (0#3).toNat, (0x1000#57).toNat] ∧ WritesVisible (st false [5, 0, 0x1000]) 0 globalEnd
      ∧ (st false [5, 0, 0x1000]).core.l1d = []
      ∧ WritesVisible ((st false [5, 0, 0x1000]).modCtx fun x => { x with copies := [copy0] }) 0 globalEnd
      ∧ ¬WritesVisible ((st false [5, 0, 0x1000]).modCtx fun x => { x with copies := [{ copy0 with dst := .phys [] }] }) 0 globalEnd)
    ∧ ∀ k < 4, (st false [4, k, 0x1000]).core.ctx.pend6.arg = [4, k, (0x1000#52).toNat] := by
  dsimp only
  refine ⟨by decide +kernel, by decide +kernel, by decide +kernel, by decide +kernel, by decide +kernel, by decide +kernel,
    ⟨by decide +kernel, writes_visible _ ⟨fun x e => absurd e (none_in (by decide +kernel) x), by decide +kernel⟩ (by decide +kernel) (by decide +kernel), by decide +kernel,
      writes_visible _ ⟨fun x e => ?_, by decide +kernel⟩ (by decide +kernel) (by decide +kernel), fun h => h.1 { copy0 with dst := .phys [] } (by decide +kernel) ⟨[], rfl⟩⟩, by decide +kernel⟩
  have h : ∀ x ∈ (((supPend (startedPend false [5, 0, 0x1000])).modCtx fun x => { x with copies := [copy0] }).at 0).ctx.copies, x.dst = .imem 0 := by decide +kernel
  rintro ⟨l, hl⟩
  rw [h x e] at hl
  cases hl

/-- A save and a restore at their completion: the image's place lies in the partition's share; memory holds what it restores. -/
theorem wit_InvalidateSaveRestore_images :
    let s (k : Nat) : State := owned (supPend (startedPend false [4, k, 0x1000]))
    let a := s 1
    let g := s 3
    (∀ o < 0x40000, InShare (s 0) ((s 0).partOf (s 0).cur.val) (0x1000 + o)) ∧ (s 0).canon
    ∧ ((holding a [.array 0 Arr.reset true false] ((List.range arrayImageSize).map (arrayImage 0 Arr.reset))).core.ctx.pend6 = startedPend false [4, 1, 0x1000]
      ∧ findArray (holding a [.array 0 Arr.reset true false] ((List.range arrayImageSize).map (arrayImage 0 Arr.reset))) 0x1000 = some (Arr.reset, true, false))
    ∧ ((holding g [.grid 0 Grid.reset] ((List.range gridImageSize).map (gridImage 0 Grid.reset))).core.ctx.pend6 = startedPend false [4, 3, 0x1000]
      ∧ findGrid (holding g [.grid 0 Grid.reset] ((List.range gridImageSize).map (gridImage 0 Grid.reset))) 0x1000 = some Grid.reset) := by
  intro s a g
  have oa : Owned a := by unfold Owned; decide +kernel
  have og : Owned g := by unfold Owned; decide +kernel
  refine ⟨fun o ho => inShare_owned (by unfold Owned; decide +kernel) (by omega), canon_of_canonB (by decide +kernel), ⟨?_, (images_found oa Arr.reset Grid.reset true false).1⟩,
    ⟨?_, (images_found og Arr.reset Grid.reset true false).2⟩⟩
  · rw [core_holding]; decide +kernel
  · rw [core_holding]; decide +kernel

def leaf1 : Leaf := ⟨0#16, 0, 0x1000000, 0x200000, 0x400000, 0x9B#8⟩
def look1 : Looks := [(0x1000000, .inr leaf1)]

/-- An invalidation of one page: in a mapped page, with a walk to make, and with a walk that has failed. -/
theorem wit_InvalidateSaveRestore_page :
    let m := mapped 2 fun k => { k with ctx := { k.ctx with sup := true } }
    let w := supPend ⟨true, true, [(0x1000, .inl 17)], [], []⟩
    (m.core.ctx.pend6.arg.head? ≠ some 5 ∧ (issueLooks m 6 [((0x1000000#57).toNat, (0x1000000#57).toNat + 1)]).2 = some look1
      ∧ lookOf look1 (0x1000000#57).toNat = some (.inr leaf1))
    ∧ (issueLooks (supPend Pend.reset) 6 [((0x1000#57).toNat, (0x1000#57).toNat + 1)]).2 = none
    ∧ ((issueLooks w 6 [((0x1000#57).toNat, (0x1000#57).toNat + 1)]).2 = some [(0x1000, .inl 17)]
      ∧ lookOf [(0x1000, .inl 17)] (0x1000#57).toNat = some (.inl 17)) := by
  decide +kernel

/-- A frame of core 0 in memory at 0x1000, as its memory holds it. -/
def frame0 : FrameRec :=
  ⟨0, Ctx.reset, ⟨{ cls := .trap, eng := 6 }, 0, false, false, 0, 0xFFFF#16, 0, true, false, 0⟩, 0, 0#64, 0, 1, [], 0x1000, some task0⟩

/-- A handler of core 0. -/
def handling : State := owned (inSup fun k => { k with hnd := true, stop := some frame0.stop })

/-- The same with that frame. -/
def resuming : State := holding handling [.frame 0 frame0] ((List.range frameSize).map (frameDoc 0 frame0))

theorem frameMatches_holding (s : State) (v : List Saved) (id : Nat) (f : FrameRec) :
    frameMatches (holding s v ((List.range frameSize).map (frameDoc id f))) 0x1000 id f = true := by
  have hb := homeByte_holding s v frameSize (frameDoc id f) (by decide)
  simp only [frameMatches, List.all_eq_true, List.mem_range]
  intro o ho
  rw [hb o ho]
  split
  · rw [hb 3 (by decide)]
    simp
  · simp

theorem frame_found : findFrame resuming 0x1000 = some frame0 :=
  findFrame_of (saved_holding _ _ _) (frameMatches_holding _ _ _ _)

theorem at_holding (s : State) (v : List Saved) (l : List Byte) (c : Nat) : (holding s v l).at c = s.at c := rfl
theorem cur_holding (s : State) (v : List Saved) (l : List Byte) : (holding s v l).cur = s.cur := rfl
theorem own_holding (s : State) (v : List Saved) (l : List Byte) (c : Nat) : OwnWork (holding s v l) c ↔ OwnWork s c := Iff.rfl
theorem queues_holding (s : State) (v : List Saved) (l : List Byte) (c : Nat) : QueuesLeft (holding s v l) c ↔ QueuesLeft s c := Iff.rfl

theorem no_queues {s : State} {c : Nat} (h : (∀ e < 6, ((s.at c).ctx.q e).es = []) ∧ (s.at c).ctx.copies = []) : ¬QueuesLeft s c := by
  rintro (⟨e, he, h'⟩ | h')
  · exact h' (h.1 e he)
  · exact h' h.2

theorem no_work {s : State} {c : Nat} (h : s.hbm = [] ∧ s.outLands = [] ∧ s.rels = [] ∧ s.atoms = []) : ¬OwnWork s c := by
  obtain ⟨h1, h2, h3, h4⟩ := h
  rintro (⟨x, hx, -⟩ | ⟨x, hx, -⟩ | ⟨x, hx, -⟩ | ⟨x, hx, -⟩)
  · rw [h1] at hx; cases hx
  · rw [h2] at hx; cases hx
  · rw [h3] at hx; cases hx
  · rw [h4] at hx; cases hx

/-- A core with a word in its CP queue, within the watchdog's time and past it. -/
def busyAt (n : Nat) : State :=
  { inSup fun k => { k with ctx := { k.ctx with
      qs := k.ctx.qs.set 0 ⟨0, [⟨0#32, 4, 0, none⟩]⟩, pend6 := ⟨true, false, [], [], [6, 0, 100000]⟩ } } with time := n }

/-- A core with words left, in and out of its time; one with a release of its own; one without work, with an address that is no
frame's; one whose handler has come to its end, with its frame in memory. -/
theorem wit_ResumeReturns :
    let limit (s : State) : Nat := (waitsSince s).1 + (waitsSince s).2 * Config.unitsPerNs
    let rel : State := { inSup id with rels := [rel0] }
    (QueuesLeft (busyAt 0) 0 ∧ (busyAt 0).time < limit (busyAt 0) ∧ (busyAt 0).core.ctx.qs.length = 7)
    ∧ (QueuesLeft (busyAt (100000 * Config.unitsPerNs)) 0 ∧ limit (busyAt (100000 * Config.unitsPerNs)) ≤ (busyAt (100000 * Config.unitsPerNs)).time)
    ∧ (¬QueuesLeft rel 0 ∧ OwnWork rel 0)
    ∧ (¬QueuesLeft (inSup id) 0 ∧ ¬OwnWork (inSup id) 0 ∧ (0x1800#52).toNat % 4096 ≠ 0 ∧ ∀ f, ¬MayResume (inSup id) 0 0x1000 f)
    ∧ (¬QueuesLeft resuming 0 ∧ ¬OwnWork resuming 0 ∧ (0x1000#52).toNat % 4096 = 0 ∧ MayResume resuming 0 0x1000 frame0
      ∧ Alone resuming ∧ resuming.core.ctx.sup = true ∧ resuming.core.hnd = true ∧ resuming.core.ctx.effs = []
      ∧ resuming.core.ctx.mfsrs = [] ∧ (∀ st, resuming.core.stop = some st → st.escalated = false)
      ∧ frame0.stop.why.cls ≠ .preemptSafe ∧ frame0.core = resuming.cur.val) := by
  have hc : resuming.core = handling.core := core_holding _ _ _
  have ha : resuming.at 0 = handling.at 0 := at_holding _ _ _ _
  have hu : resuming.cur = handling.cur := cur_holding _ _ _
  refine ⟨⟨.inl ⟨0, by decide, by decide +kernel⟩, by decide +kernel, by decide +kernel⟩, ⟨.inl ⟨0, by decide, by decide +kernel⟩, by decide +kernel⟩,
    ⟨no_queues (by decide +kernel), .inr (.inr (.inl ⟨rel0, by decide +kernel, by decide +kernel⟩))⟩,
    ⟨no_queues (by decide +kernel), no_work (by decide +kernel), by decide, fun f h => ?_⟩,
    ⟨fun h => no_queues (by decide +kernel) ((queues_holding handling _ _ 0).1 h), fun h => no_work (by decide +kernel) ((own_holding handling _ _ 0).1 h),
      by decide, ⟨fun o ho => hasTarget_holding (by unfold Owned; decide +kernel) _ _ _ (by omega), frame_found, ?_⟩, ?_⟩⟩
  · have := h.2.1
    rw [show findFrame (inSup id) 0x1000 = none by decide +kernel] at this
    cases this
  · rw [ha]; decide +kernel
  · unfold Alone
    rw [hc, hu]
    refine ⟨by decide +kernel, by decide +kernel, by decide +kernel, by decide +kernel, by decide +kernel, fun st h => ?_, by decide +kernel, by decide +kernel⟩
    rw [show handling.core.stop = some frame0.stop by decide +kernel] at h
    cases h
    rfl

/-- A gang alone whose frame stands ready; one that has none; one in its handler. -/
theorem wit_HandlersEnter :
    let s (h : Bool) : State := { inCore fun k => { k with hnd := h, stop := some frame0.stop } with saved := [.frame 0 frame0] }
    (HasFrame (s false) ∧ (s false).core.hnd = false ∧ Alone (s false) ∧ (s false).frameRec (s false).cur.val = some frame0)
    ∧ ¬HasFrame (inCore id) ∧ (s true).core.hnd = true := by
  refine ⟨⟨⟨frame0.stop, by decide +kernel, rfl⟩, by decide +kernel, ⟨by decide +kernel, by decide +kernel⟩, by decide +kernel⟩, ?_, by decide +kernel⟩
  rintro ⟨st, h, -⟩
  exact absurd h (by have : (inCore id).core.stop = none := by decide +kernel
                     rw [this]; exact (Option.some_ne_none _).symm)

/-- Core 0 held for this cause since time 0, with a watchdog of 2 ns, at time n; a beat of its load port 5 comes at time 5. -/
def heldFor (x : HoldCause) (link : Option Nat) (n : Nat) : State :=
  { inCore fun k => { k with
      hold := some ⟨[x], 0, 2, link, { cls := .holdTimeout }⟩
      ctx := { k.ctx with ldP := k.ctx.ldP.set 5 { LdPort.reset with dels := [⟨0, some 0#128, true, false, 5, none, 0, true, false⟩] } } } with time := n }

theorem hold_of (x : HoldCause) (link : Option Nat) (n : Nat) :
    (heldFor x link n).core.hold = some ⟨[x], 0, 2, link, { cls := .holdTimeout }⟩ := by
  unfold heldFor inCore belt
  simp [-List.reduceReplicate, State.core, State.mod, State.reset]

/-- Holds whose cause has cleared, has not, and shows a fault. -/
theorem wit_HoldsAndRequests_over :
    HoldOver (heldFor (.late 0 5 0 none) none 5) ∧ ¬HoldOver (heldFor (.late 0 5 0 none) none 4) ∧ ¬HoldOver (inCore id)
    ∧ HoldOver ((heldFor (.tag 0 false 0 3#16 5 2) none 0).mod fun k => { k with tags := [(0, 0xFFFF#16)] }) := by
  refine ⟨⟨_, hold_of _ _ _, .inl fun y hy => ?_⟩, ?_, ?_,
    ⟨⟨[.tag 0 false 0 3#16 5 2], 0, 2, none, { cls := .holdTimeout }⟩, by decide +kernel, .inr ⟨.tag 0 false 0 3#16 5 2, List.mem_singleton.2 rfl, ?_⟩⟩⟩
  · obtain rfl := List.mem_singleton.1 hy
    intro p hp d hd _
    rw [show ((heldFor (.late 0 5 0 none) none 5).at 0).ctx.ldP[5]? = some { LdPort.reset with dels := [⟨0, some 0#128, true, false, 5, none, 0, true, false⟩] }
      by decide +kernel] at hp
    cases hp
    obtain rfl := List.mem_singleton.1 hd
    decide +kernel
  · rintro ⟨h, e, h'⟩
    rw [hold_of] at e
    cases e
    obtain h' | ⟨y, hy, hf⟩ := h'
    · have := h' _ (List.mem_singleton.2 rfl) { LdPort.reset with dels := [⟨0, some 0#128, true, false, 5, none, 0, true, false⟩] } (by decide +kernel) _
        (List.mem_singleton.2 rfl) (by decide +kernel)
      exact absurd this (by decide +kernel)
    · obtain rfl := List.mem_singleton.1 hy
      obtain ⟨p, hp, d, hd, -, -, hb, -⟩ := hf
      rw [show ((heldFor (.late 0 5 0 none) none 4).at 0).ctx.ldP[5]? = some { LdPort.reset with dels := [⟨0, some 0#128, true, false, 5, none, 0, true, false⟩] }
        by decide +kernel] at hp
      cases hp
      obtain rfl := List.mem_singleton.1 hd
      cases hb
  · rintro ⟨h, e, -⟩
    rw [show (inCore id).core.hold = none by decide +kernel] at e
    cases e
  · unfold MayShowFault
    decide +kernel

/-- The last time before the watchdog runs out and the first after, with a link seen to fail and none; a task that has begun,
with and without a request, and one that has not; a hold that has lasted under a request. -/
theorem wit_HoldsAndRequests :
    let u := 2 * Config.unitsPerNs
    let s (n : Nat) (l : Option Nat) : State := heldFor .fence l n
    let t (req : Bool) (began : Bool) : State := inCore fun k => { k with preReq := req, task := some { task0 with t0 := began } }
    let full : State := (heldFor .fence none 0).mod fun k => { k with prePend := true, hacc := u }
    (∀ l ∈ [none, some 3], (s 0 l).core.hold = some ⟨[.fence], 0, 2, l, { cls := .holdTimeout }⟩ ∧ (s (u - 1) l).time < 0 + u
      ∧ 0 + u ≤ (s u l).time ∧ ¬∃ c ∈ (s u l).members (s u l).cur.val, ((s u l).at c).prePend = true)
    ∧ (∃ c ∈ full.members full.cur.val, (full.at c).prePend = true)
    ∧ ((inCore id).core.hold = none ∧ ((belt []).mod fun k => { k with task := none }).core.task = none)
    ∧ ((t false true).core.task = some { task0 with t0 := true } ∧ (t false true).core.preReq = false ∧ (t true true).core.preReq = true)
    ∧ ((t false false).core.task = some { task0 with t0 := false } ∧ Alone (t false false))
    ∧ HeldTooLong full ∧ ¬HeldTooLong (inCore id) := by
  dsimp only
  refine ⟨by decide +kernel, by decide +kernel, by decide +kernel, by decide +kernel, by unfold Alone; decide +kernel,
    ⟨⟨[.fence], 0, 2, none, { cls := .holdTimeout }⟩, by decide +kernel, by decide +kernel, by decide +kernel⟩, ?_⟩
  rintro ⟨h, e, -⟩
  rw [show (inCore id).core.hold = none by decide +kernel] at e
  cases e

/-- The words of an instruction as numbers. -/
def wordsOf (i : Instr) : List Nat := (encode i).map BitVec.toNat
/-- A user's core whose splitter stands at position p, with these words in line 0 behind a header with V. -/
def splitting (p : Nat) (ws : List Nat) (f : Ctx → Ctx) : State :=
  inCore fun k => { k with imem := memWriteN [] 0 ((0x80000000 :: ws).flatMap (bytesOf 4))
                           ctx := f { k.ctx with spl := { k.ctx.spl with next := p, halted := false } } }
/-- The splitter reads a word, with room in its queue and a line that lets it (R86-R88). -/
def Reads (s : State) (q : Nat) : Prop :=
  s.core.ctx.spl.halted = false ∧ s.core.ctx.spl.next / 32 < 512 ∧ s.core.ctx.spl.next % 32 ≠ 0 ∧ q < 7
  ∧ (s.core.ctx.q q).es.length < queueDepth q ∧ (lineWord s 0).getLsbD 31 = true ∧ s.core.ctx.spl.landing = false
/-- Its word breaks no rule and stands in queue q. -/
def Sound (s : State) (q : Nat) : Prop :=
  let w := lineWord s (s.core.ctx.spl.next % 32)
  Reads s q ∧ s.core.ctx.spl.owed = [] ∧ (engOf w).toNat = q ∧ isPriv w = false ∧ s.core.hnd = false ∧ (checkWord w).toOption ≠ none
  ∧ s.core.ctx.qs.length = 7
/-- Level of a body that ends at position 1, in iteration i of two. -/
def level (last i : Nat) : LoopLevel := ⟨1, last, 2, i, 0⟩

/-- A halted splitter, one with a full queue, beyond the lines, at a header, at a line without V and an unmarked landing; a
privileged word, one for the array in a handler, one that is none, and a broken literal. -/
theorem wit_SplitterPlaces_faults :
    let gs := wordsOf (.grStop 0#4)
    let halted := splitting 1 [] fun x => { x with spl := { x.spl with halted := true } }
    let full := splitting 1 gs fun x => { x with qs := x.qs.set 3 ⟨0, List.replicate 16 ⟨0#32, 4, 0, none⟩⟩ }
    let noV := (splitting 1 gs id).mod fun k => { k with imem := [] }
    let land := splitting 1 gs fun x => { x with spl := { x.spl with landing := true } }
    let priv := splitting 1 (wordsOf (.syHalt 0#4)) id
    let hnd := (splitting 1 gs id).mod fun k => { k with hnd := true }
    let none_ := splitting 1 [0x7F * 2 ^ 18] id
    let lit := splitting 2 (wordsOf (.syBatch 0#4 1#3 5#29)) fun x => { x with spl := { x.spl with owed := [(5#29, false)], owedEng := 6 } }
    (halted.core.ctx.spl.halted = true ∧ halted.core.ctx.spl.resumeAt = none)
    ∧ (full.core.ctx.spl.halted = false ∧ (engOf (lineWord full 1)).toNat = 3 ∧ queueDepth 3 ≤ (full.core.ctx.q 3).es.length)
    ∧ (512 ≤ (splitting 16384 [] id).core.ctx.spl.next / 32 ∧ (splitting 16352 [] id).core.ctx.spl.next / 32 < 512
      ∧ (splitting 16352 [] id).core.ctx.spl.next % 32 = 0)
    ∧ ((lineWord noV 0).getLsbD 31 = false ∧ (lineWord land 0).getLsbD 31 = true ∧ land.core.ctx.spl.landing = true ∧ (lineWord land 0).getLsbD (1 - 1) = false)
    ∧ (Reads priv 6 ∧ priv.core.ctx.spl.owed = [] ∧ isPriv (lineWord priv 1) = true ∧ priv.core.ctx.sup = false)
    ∧ (Reads hnd 3 ∧ (engOf (lineWord hnd 1)).toNat = 3 ∧ hnd.core.hnd = true)
    ∧ (Reads none_ 0 ∧ isPriv (lineWord none_ 1) = false ∧ none_.core.hnd = false ∧ (checkWord (lineWord none_ 1)).toOption = none)
    ∧ (Reads lit 6 ∧ lit.core.ctx.spl.owed = (5#29, false) :: [] ∧ payload (lineWord lit 2) &&& 5#29 ≠ 0#29) := by
  unfold Reads
  and_intros <;> decide +kernel

/-- A word that halts; words before a full queue and before a stray literal; a body's last word that turns, that pops, and that
R119 forbids; the literal of a word. -/
theorem wit_SplitterPlaces :
    let gs := wordsOf (.grStop 0#4)
    let rt := splitting 1 (wordsOf (.cpRet 0#4)) id
    let full := splitting 1 (gs ++ gs) fun x => { x with qs := x.qs.set 3 ⟨0, List.replicate 15 ⟨0#32, 4, 0, none⟩⟩ }
    let stray := splitting 1 (gs ++ [0xE0000000]) id
    let turns := splitting 1 gs fun x => { x with loops := [level 1 0] }
    let pops := splitting 1 (gs ++ [0xE0000000]) fun x => { x with loops := [level 1 1] }
    let bad := splitting 1 gs fun x => { x with loops := [level 5 0, level 1 0] }
    let h := (encode (.syBatch 0#4 1#3 5#29)).headD 0#32
    let lit := splitting 2 (wordsOf (.syBatch 0#4 1#3 5#29)) fun x => { x with
      spl := { x.spl with owed := (litRules h).map (fun r => (r.rsv, r.desc)), owedEng := 6 }, qs := x.qs.set 6 ⟨0, [] ++ ⟨h, 4, 0, none⟩ :: []⟩ }
    (Sound rt 0 ∧ isControl (lineWord rt 1) = true ∧ litRules (lineWord rt 1) = [] ∧ rt.core.ctx.loops = [])
    ∧ (Sound full 3 ∧ isControl (lineWord full 1) = false ∧ litRules (lineWord full 1) = [] ∧ full.core.ctx.loops = [] ∧ full.core.ctx.spl.resumeAt = none
      ∧ NextFull full [] 3)
    ∧ (Sound stray 3 ∧ stray.core.ctx.loops = [] ∧ NextStray stray [])
    ∧ (Sound turns 3 ∧ turns.core.ctx.loops = [] ++ level 1 0 :: [] ∧ (level 1 0).last = turns.core.ctx.spl.next ∧ (level 1 0).i + 1 < (level 1 0).count
      ∧ turns.core.ctx.spl.resumeAt = none)
    ∧ (Sound pops 3 ∧ pops.core.ctx.loops = [level 1 1] ∧ (level 1 1).count ≤ (level 1 1).i + 1 ∧ NextStray pops [])
    ∧ (Sound bad 3 ∧ (∃ v ∈ bad.core.ctx.loops, v.last = bad.core.ctx.spl.next) ∧ bad.core.ctx.loops.head?.map LoopLevel.last ≠ some bad.core.ctx.spl.next)
    ∧ (Reads lit 6 ∧ lit.core.ctx.spl.owed.length = (litRules h).length ∧ lit.core.ctx.spl.owed ≠ [] ∧ isLit h = false ∧ engOf (lineWord lit 2) = 7#3
      ∧ (∀ r ∈ lit.core.ctx.spl.owed, payload (lineWord lit 2) &&& r.1 = 0#29 ∧ r.2 = false)
      ∧ (lit.core.ctx.q 6).es = [] ++ ⟨h, 4, 0, none⟩ :: []) := by
  unfold Sound Reads NextFull NextStray
  and_intros <;> first | exact forall_of_all (by decide +kernel) | decide +kernel

/-- Core 0 about to test queue 3, which holds these entries, and whose NI is 4, at cycle 9. -/
def missing (l : List QEntry) : State :=
  { inCore fun k => { k with lcc := 9, ctx := { k.ctx with qs := k.ctx.qs.set 3 ⟨4, l⟩ } } with agenda := [(0, .issue 3#3)] }
/-- A word without literals, and one with its stamp. -/
def stopEntry : QEntry := ⟨(encode (.grStop 0#4)).headD 0#32, 4, 7, none⟩
def startEntry (pres eff : Nat) : QEntry := ⟨(encode (.grStart 0#4 5#29)).headD 0#32, 4, pres, some eff⟩
def stampEntry : QEntry := ⟨0xE0000005#32, 8, 2, none⟩

/-- A head present after its turn; a stamped one present after its stamp; one whose stamp lies below NI. -/
theorem wit_SplitterPlaces_misses :
    (∀ p ∈ [(stopEntry, []), (startEntry 7 6, [stampEntry]), (startEntry 2 3, [stampEntry])], let s := missing (p.1 :: (p.2 ++ []))
      s.agenda = (0, .issue 3#3) :: [] ∧ (s.at 0).ctx.q 3 = ⟨4, p.1 :: (p.2 ++ [])⟩ ∧ p.2.length = (litRules p.1.word).length ∧ (s.at 0).now = 9)
    ∧ (isStamped stopEntry.word = false ∧ isTimed stopEntry.word = false ∧ stopEntry.pres ≤ 9 ∧ 4 < stopEntry.pres)
    ∧ (isStamped (startEntry 7 6).word = true ∧ (startEntry 7 6).eff = some 6 ∧ (startEntry 7 6).pres ≤ 9 ∧ 6 < (startEntry 7 6).pres)
    ∧ ((startEntry 2 3).eff = some 3 ∧ 3 < 4 ∧ ∀ x ∈ startEntry 2 3 :: [stampEntry].take 1, x.pres ≤ 9) := by
  decide +kernel

/-- A word of the BTE that waits for a walk, with an empty walk cache and with an entry of the first level in it; no word. -/
theorem wit_SplitterPlaces_walks :
    let s := (mapped 2 fun k => { k with ctx := { k.ctx with pend5 := ⟨true, false, [], [(0x1000000, 0x1000040)], []⟩ } }).modQuad 0 fun q => { q with tlb := [] }
    let y := s.walkerOf s.cur.val
    let u := s.modDie 0 fun d => { d with wc := [(y.ctx, y.part, 1, lvlPrefix 1 0x1000000, 0x11001#64)] }
    ((s.core.ctx.pend 5).walks = (0x1000000, 0x1000040) :: [] ∧ (s.core.ctx.pend (11 - 5)).walks = [] ∧ (s.die y.die).wc = [])
    ∧ ((u.core.ctx.pend 5).walks = (0x1000000, 0x1000040) :: [] ∧ (u.die y.die).wc.find? (fun z => z.1 == y.ctx && z.2.1 == y.part && z.2.2.1 == 1
        && z.2.2.2.1 == lvlPrefix 1 0x1000000) = some (y.ctx, y.part, 1, lvlPrefix 1 0x1000000, 0x11001#64) ∧ (u.die y.die).wc.length = 1)
    ∧ ((inCore id).core.ctx.pend5.walks = [] ∧ (inCore id).core.ctx.pend6.walks = []) := by
  decide +kernel

/-! Witnesses: launches, power, partitions, bring-up, the machine. -/

/-- Partition 0 with quad 0, an enabled ring at 0x20000 whose first packet is v, a context table with context 0, and at
virtual 0x1000000 a task header (R302) of one core, 4096 LM bytes, entry 1 and 128 bytes of code. -/
def launching (v : Nat) (f : Core → Core) : State :=
  let s := mapped 0 fun k => f { k with trnCtxTab := 0x80000#64 }
  let hd := 1 + 2 ^ 16 + 2 ^ 32 + 100 * 2 ^ 64 + 2 ^ 96 + 128 * 2 ^ 256 * (1 + 2 ^ 32)
  let m := ([(0x80000, 8, 0x10001), (0x400000, 256, hd), (0x20000, 1024, v)] : List (Nat × Nat × Nat)).foldl
    (fun m e => memWriteN m e.1 (bytesOf e.2.1 e.2.2)) s.gmem
  { s with gmem := m }.modPart 0 fun p => { p with en := true, qmask := 1#48, lncRing := 0x20000#64, lncHead := 1#32 }

/-- A packet (R304) of launch 2, one tile, with the image at 0x1000000. -/
def packet0 : Nat := 1 + 2 * 2 ^ 32 + 2 ^ 64 + 2 ^ 80 + 2 ^ 96 + 0x1000000 * 2 ^ 128 + 2 ^ 160 * 2 ^ 160

/-- A bind record of launch l for core 0. -/
def record0 (l : W32) : BindRec := ⟨false, 0#2, 1#3, 5#16, l, 0#48, 0#4, 0#64⟩

/-- Launch 2 of one tile, with the image of `launching`; alone or co-resident. -/
def launch2 (cor : Bool) (xe : Nat) : Launch :=
  { launch0 [] with lid := 2#32, cor := cor, batch := false, xext := xe, args := [List.replicate 6 0#64] }
/-- A record of core 0 for a launch, armed, of a gang of n, beside this launch. -/
def waiting (cor : Bool) (xe : Nat) (g : W32) (n : BitVec 3) : State :=
  { launching packet0 fun k => { k with task := none, armed := true, hst := 1, slot := { record0 g with gsize := n } } with
    launches := [launch2 cor xe] }
/-- The header of `launching` as a number (R302). -/
def head0 : Nat := 1 + 2 ^ 16 + 2 ^ 32 + 100 * 2 ^ 64 + 2 ^ 96 + 128 * 2 ^ 256 * (1 + 2 ^ 32)

theorem packet_passes : ∀ k, ¬Fails (launching packet0 id) 0 packet0 k
  | 0 => id
  | 1 => by rintro (h | h | h | h) <;> exact absurd h (by decide +kernel)
  | 2 => by rintro (h | h | h | h | h | h | h) <;> exact absurd h (by decide +kernel)
  | 3 => fun h => absurd (show ((launching packet0 id).ctxEntry 0 ((launching packet0 id).partTab 0) 0#16).getLsbD 0 = false from h) (by decide +kernel)
  | 4 => by rintro (h | h | h | h) <;> exact absurd h (by decide +kernel)
  | 5 => fun h => h (by unfold HeaderOk; decide +kernel)
  | 6 => by rintro (⟨h, -⟩ | h) <;> exact absurd h (by decide +kernel)
  | 7 => fun h => absurd (show ((launching packet0 id).part 0).maxcls.toNat < fieldOf packet0 20 3 from h) (by decide +kernel)
  | 8 => fun h => absurd h.1 (by decide +kernel)
  | 9 => fun h => absurd h.1 (by decide +kernel)
  | _ + 10 => id

/-- A ring with a packet that passes, with one that does not, without one, of a partition in reset; a head that is taken and
one that is not; an idle record and an armed one; a gated quad; a launch on the core's partition, on none. -/
theorem wit_LaunchesToTasks :
    let s := launching packet0 id
    let bad := launching 0 id
    let dark : State := s.modQuad 0 fun q => { q with ps := .gated }
    ((s.part 0).en = true ∧ (s.part 0).inrst = false ∧ (s.part 0).lncTail.toNat < (s.part 0).lncHead.toNat ∧ s.reps = []
      ∧ s.hasTarget 0 true 0x20000 = true ∧ s.hasTarget 0 true (0x20000 + 1023) = true
      ∧ (s.modPart 0 fun p => { p with lncRing := 0x40000000#64 }).hasTarget 0 true 0x40000000 = false)
    ∧ (homeNat s ((s.part 0).lncRing.toNat / 1024 % 2 ^ 42 * 1024 + 1024 * ((s.part 0).lncTail.toNat % 64)) 1024 = packet0
      ∧ homeNat bad 0x20000 1024 = 0 ∧ FirstFail bad 0 0 1)
    ∧ (((inCore id).part 1).en = false ∧ ((s.modPart 0 fun p => { p with inrst := true }).part 0).inrst = true)
    ∧ ({ s with intake := true }.intake = true ∧ (s.part 0).lncTail.toNat ≤ (64#32).toNat ∧ (64#32).toNat ≤ (s.part 0).lncTail.toNat + 64)
    ∧ (s.core.armed = false ∧ s.core.hst = 0 ∧ (s.quad (quadOf s.cur.val)).gated = false ∧ (dark.quad (quadOf dark.cur.val)).gated = true)
    ∧ ((waiting false 1 2#32 1#3).core.armed = true ∧ (waiting false 1 2#32 1#3).launch ((waiting false 1 2#32 1#3).partOf 0) 2#32 = some (launch2 false 1)
      ∧ CoreOf (waiting false 1 2#32 1#3) 0 0 ∧ ¬CoreOf ((waiting false 1 2#32 1#3).modPart 0 fun p => { p with qmask := 2#48 }) 0 0
      ∧ (waiting false 1 2#32 1#3).launch 0 9#32 = none ∧ ∀ l ∈ (waiting false 1 2#32 1#3).launches, l.lid = 9#32 → l.ended = true) := by
  dsimp only
  unfold CoreOf
  refine ⟨?_, ⟨?_, ?_, .inl ?_, fun j hj => ?_⟩, ?_, ?_, ?_, ?_⟩
  rotate_left 4
  · obtain rfl : j = 0 := by omega
    exact id
  all_goals decide +kernel

theorem waiting_record (cor : Bool) (xe : Nat) (hx : xe = 1 ∨ xe = 2) (n : BitVec 3) (hn : n = 1#3 ∨ n = 3#3) {m : Nat}
    (h : InRecordGang (waiting cor xe 2#32 n) 0 m) : m = 0 := by
  obtain ⟨h1, h2, -⟩ := h
  have e : ∀ m < 192, ((waiting cor xe 2#32 n).at m).armed = true → m = 0 := by
    cases cor <;> rcases hx with rfl | rfl <;> rcases hn with rfl | rfl <;> decide +kernel
  exact e m h1 h2

theorem waiting_names (cor : Bool) (xe : Nat) (hx : xe = 1 ∨ xe = 2) : NamesLaunch (waiting cor xe 2#32 1#3) 0 (launch2 cor xe) := by
  unfold NamesLaunch
  cases cor <;> rcases hx with rfl | rfl <;> decide +kernel

theorem waiting_head (cor : Bool) (xe : Nat) (hx : xe = 1 ∨ xe = 2) : HeadAt (waiting cor xe 2#32 1#3) (launch2 cor xe) head0 := by
  have h : ((waiting cor xe 2#32 1#3).readCtx (launch2 cor xe).ctx (launch2 cor xe).part (launch2 cor xe).image 256).map leNat = some head0 := by
    cases cor <;> rcases hx with rfl | rfl <;> decide +kernel
  obtain ⟨b, h1, h2⟩ := Option.map_eq_some_iff.1 h
  exact ⟨b, h1, h2.symm⟩

theorem waiting_not_refused (cor : Bool) (xe : Nat) (hx : xe = 1 ∨ xe = 2) : ∀ why, ¬Refusal (waiting cor xe 2#32 1#3) 0 why := by
  have only {m : Nat} (h : InRecordGang (waiting cor xe 2#32 1#3) 0 m) : m = 0 := waiting_record cor xe hx _ (.inl rfl) h
  have names {l : Launch} (h : NamesLaunch (waiting cor xe 2#32 1#3) 0 l) : l = launch2 cor xe :=
    Option.some.inj (h.symm.trans (waiting_names cor xe hx))
  have head {v : Nat} (h : HeadAt (waiting cor xe 2#32 1#3) (launch2 cor xe) v) : v = head0 := by
    obtain ⟨b, h1, h2⟩ := h
    obtain ⟨c, h3, h4⟩ := waiting_head cor xe hx
    rw [h2, h4, Option.some.inj (h1.symm.trans h3)]
  rintro why ⟨-, -, h⟩
  match why, h with
  | 1, ⟨m, hm, h⟩ =>
    obtain rfl := only hm
    refine h ?_
    cases cor <;> rcases hx with rfl | rfl <;> decide +kernel
  | 5, ⟨_, m, hm, h⟩ =>
    obtain rfl := only hm
    refine absurd h ?_
    cases cor <;> rcases hx with rfl | rfl <;> decide +kernel
  | 4, ⟨_, .inl ⟨h, _⟩⟩ => exact h _ (waiting_names cor xe hx)
  | 4, ⟨_, .inr ⟨l, hl, m, hm, h⟩⟩ =>
    obtain rfl := names hl
    obtain rfl := only hm
    refine h ?_
    unfold CoreOf
    cases cor <;> rcases hx with rfl | rfl <;> decide +kernel
  | 2, ⟨l, v, ⟨_, _, hl, hv, _⟩, h⟩ =>
    obtain rfl := names hl
    obtain rfl := head hv
    refine h ?_
    cases cor <;> rcases hx with rfl | rfl <;> decide +kernel
  | 3, ⟨l, v, ⟨_, _, hl, _⟩, _, x, h, _⟩ =>
    obtain rfl := names hl
    cases cor <;> rcases hx with rfl | rfl <;> cases (show none = some x from h)
  | 6, ⟨l, v, ⟨_, _, hl, hv, _⟩, _, _, m, hm, h⟩ =>
    obtain rfl := names hl
    obtain rfl := head hv
    obtain rfl := only hm
    refine absurd h ?_
    cases cor <;> rcases hx with rfl | rfl <;> decide +kernel
  | 0, h => exact h
  | n + 7, h => exact h

/-- A task that may be bound, alone, co-resident, and co-resident with a tile that no record waits for; a record that is refused;
one that is not armed. -/
theorem wit_LaunchesToTasks_starts :
    (∀ cor xe, xe = 1 ∨ xe = 2 → ¬LoadDue (waiting cor xe 2#32 1#3) ∧ MayStart (waiting cor xe 2#32 1#3) 0 (launch2 cor xe) head0
      ∧ (launch2 cor xe).cor = cor ∧ fieldOf head0 32 3 = (launch2 cor xe).gang)
    ∧ ((launch2 true 2).tasks = [] ∧ ∀ m < 192, ((waiting true 2 2#32 1#3).at m).armed = true →
        ((waiting true 2 2#32 1#3).at m).slot.tile.toNat ≠ 1 + 2 ^ 16 * 0 + 2 ^ 32 * 0)
    ∧ Refusal (waiting false 1 2#32 3#3) 0 1
    ∧ (¬LoadDue (launching packet0 id) ∧ (∀ why, ¬Refusal (launching packet0 id) 0 why) ∧ ∀ l v, ¬MayStart (launching packet0 id) 0 l v) := by
  have idle : (launching packet0 id).core.hst = 0 ∧ ((launching packet0 id).at 0).armed = false := by decide +kernel
  refine ⟨fun cor xe hx => ⟨fun h => ?_, ⟨waiting_not_refused cor xe hx, ?_, ?_, ?_, waiting_names cor xe hx, waiting_head cor xe hx, by unfold HeaderOk; decide +kernel, ?_⟩, ?_, ?_⟩,
    by decide +kernel, ⟨by decide +kernel, by decide +kernel, ⟨0, ⟨by decide, by decide +kernel, by decide +kernel, by decide +kernel⟩, by decide +kernel⟩⟩,
    ⟨fun h => ?_, fun why h => ?_, fun l v h => ?_⟩⟩
  · refine absurd h.1 ?_
    cases cor <;> rcases hx with rfl | rfl <;> decide +kernel
  · cases cor <;> rcases hx with rfl | rfl <;> decide +kernel
  · cases cor <;> rcases hx with rfl | rfl <;> decide +kernel
  · unfold AllArmed InRecordGang
    cases cor <;> rcases hx with rfl | rfl <;> decide +kernel
  · refine ⟨?_, ?_, ?_, ?_, ?_, ?_, fun r h => ?_, ?_, fun m h => ?_, ?_⟩
    rotate_left 6
    · cases (show none = some r from h)
    rotate_left 1
    · obtain rfl := waiting_record cor xe hx _ (.inl rfl) h
      cases cor <;> rcases hx with rfl | rfl <;> decide +kernel
    all_goals cases cor <;> rcases hx with rfl | rfl <;> decide +kernel
  · rfl
  · cases cor <;> rcases hx with rfl | rfl <;> decide +kernel
  · exact absurd h.1 (by rw [idle.1]; decide)
  · exact absurd h.1 (by rw [idle.2]; decide)
  · exact absurd h.2.1 (by rw [idle.2]; decide)

/-- A gang whose load is due; one granted and not. -/
theorem wit_LaunchesToTasks_loads :
    let x := { task0 with lid := 2#32, t0 := false, granted := false }
    let s : State := { launching packet0 fun k => { k with task := some x, hst := 2 } with launches := [launch2 false 1] }
    let t (t0 gr : Bool) : State := inCore fun k => { k with task := some { task0 with t0 := t0, granted := gr } }
    (LoadDue s ∧ Alone s ∧ canonB s = true ∧ s.core.task = some x ∧ s.launch x.part x.lid = some (launch2 false 1)
      ∧ (s.readCtx (launch2 false 1).ctx (launch2 false 1).part (launch2 false 1).image 256).map leNat = some head0
      ∧ ((launch2 false 1).args.getD (launch2 false 1).phase []).length = 6)
    ∧ ((t true true).core.task = some { task0 with t0 := true, granted := true } ∧ (t false false).core.task = some { task0 with t0 := false, granted := false }
      ∧ (t false true).core.task = some { task0 with t0 := false, granted := true } ∧ Alone (t false true)
      ∧ 0 < ((t false true).quad 0).period ∧ ((t false true).quad 0).edge ≤ (t false true).time) := by
  dsimp only
  unfold LoadDue Alone
  refine ⟨⟨⟨by decide +kernel, ⟨{ task0 with lid := 2#32, t0 := false, granted := false }, by decide +kernel, by decide +kernel⟩⟩, ?_, ?_, ?_, ?_, ?_, ?_⟩, ?_⟩ <;> decide +kernel

theorem core_ended {s : State} {c : Nat} (h : ((s.at c).ctx.ended = true ∨ (s.at c).ctx.halted = true) ∧ (∀ q ∈ (s.at c).ctx.qs, q.es = []) ∧ (s.at c).ctx.effs = []
      ∧ (s.at c).ctx.mfsrs = [] ∧ (s.at c).ctx.mtsrs = [] ∧ (s.at c).ctx.copies = [])
    (h1 : (∀ p ∈ (s.at c).ctx.ldP, p.running = false ∧ p.dels = []) ∧ (∀ p ∈ (s.at c).ctx.stP, p.lands = []))
    (h2 : s.hbm = [] ∧ s.outLands = [] ∧ s.rels = [] ∧ s.atoms = [])
    (h3 : (s.at c).grid.loading = none ∧ (s.at c).grid.passes = [] ∧ (s.at c).grid.doneBit = true ∧ (s.at c).arr.fronts = [] ∧ (s.at c).arr.outs = []
      ∧ (s.at c).arr.deskew = [] ∧ (s.at c).arr.ldst = none ∧ (s.at c).arr.drain = none ∧ (s.at c).arr.hreads = []) : CoreEnded s c :=
  ⟨h.1, h.2.1, h.2.2.1, h.2.2.2.1, h.2.2.2.2.1, h.2.2.2.2.2, h1.1, h1.2, no_work h2, fun _ => h3⟩

/-- A core whose stream has ended, in its task or in a handler. -/
def endedCore (hnd : Bool) : State :=
  { inCore fun k => { k with hnd := hnd, ctx := { k.ctx with ended := !hnd, halted := hnd } } with launches := [{ launch0 [] with rep := 2#2 }] }

theorem ended_is (hnd : Bool) : GangEnded (endedCore hnd) := by
  refine ⟨?_, ?_, ?_, fun m hm => ?_, fun _ => ⟨0, ?_, ?_⟩⟩
  rotate_left 3
  · have h : ∀ m ∈ (endedCore hnd).members (endedCore hnd).cur.val, m = 0 := by cases hnd <;> decide +kernel
    obtain rfl := h m hm
    apply core_ended <;> cases hnd <;> decide +kernel
  rotate_left 1
  · rename_i h
    revert h
    cases hnd <;> decide +kernel
  all_goals cases hnd <;> decide +kernel

/-- A gang that has come to its end, in a handler too, and one that has not; a running task; a stopped one; records of a launch
that runs, that has ended, and of none; a phase over, the last and not the last. -/
theorem wit_TasksEnd :
    let st := inCore fun k => { k with stop := some ⟨{ cls := .trap }, 0, true, false, 0, 0xFFFF#16, 0, true, false, 0⟩ }
    let n (l : List Launch) : State := { (inCore fun k => { k with task := none, slot := record0 1#32 }) with launches := l }
    let l (ph : Nat) : Launch := { launch0 [⟨1#48, 0, 0, 1, .committed, []⟩] with ph := ph, xext := 1 }
    (∀ h, GangEnded (endedCore h) ∧ Alone (endedCore h) ∧ (endedCore h).core.hnd = h)
    ∧ ((endedCore false).core.task = some task0 ∧ (endedCore false).launch 0 1#32 = some { launch0 [] with rep := 2#2 } ∧ (endedCore false).reps = [])
    ∧ ¬GangEnded (inCore id)
    ∧ ((inCore id).core.task = some task0 ∧ (inCore id).core.stop = none)
    ∧ (st.core.task = some task0 ∧ st.core.stop.isSome = true ∧ st.core.hnd = false ∧ Alone st)
    ∧ ((n []).core.task = none ∧ (n []).launch ((n []).partOf 0) (n []).core.slot.lid = none
      ∧ (n [l 1]).launch ((n [l 1]).partOf 0) (n [l 1]).core.slot.lid = some (l 1) ∧ (l 1).ended = false
      ∧ (n [{ l 1 with ended := true }]).launch 0 (n []).core.slot.lid = some { l 1 with ended := true })
    ∧ ((n [l 1]).launches = [l 1] ∧ PhaseEnded (n [l 1]) (l 1) ∧ (l 1).phase + 1 = (l 1).ph
      ∧ PhaseEnded (n [l 2]) (l 2) ∧ (l 2).phase + 1 ≠ (l 2).ph ∧ ¬PhaseEnded (n [launch0 []]) (launch0 [])) := by
  dsimp only
  unfold Alone PhaseEnded
  refine ⟨fun h => ⟨ended_is h, ?_, ?_⟩, ?_, fun h => ?_, ?_, ?_, ?_, ?_⟩
  · cases h <;> decide +kernel
  · cases h <;> decide +kernel
  · decide +kernel
  · obtain h | h := (h.2.2.2.1 0 (by decide +kernel)).1
    · exact absurd h (by decide +kernel)
    · exact absurd h (by decide +kernel)
  all_goals decide +kernel

/-- A waiting change with and without a task bound; a task bound and none; shares of four and five; a quad that stretches, one
whose clock stands still and one that is late with its count. -/
theorem wit_PowerRegisters :
    let s (n : Option W64) : State := { State.reset with gov := { Gov.reset with next := n } }
    let late := { Quad.reset with edge := 3 }
    ((s none).gov.next = none ∧ (s (some 0x10000#64)).gov.next = some 0x10000#64 ∧ (s (some 0x10000#64)).anyTask = false
      ∧ (belt []).anyTask = true)
    ∧ ((belt []).core.task ≠ none ∧ State.reset.core.task = none ∧ (4#64).toNat % 2 ^ 3 ≤ 4 ∧ (4#64).toNat % 2 ^ 3 ≠ State.reset.core.vltCtl.toNat % 2 ^ 3)
    ∧ ((47#6).toNat < 48 ∧ (State.reset.quad 47).stretch = false
      ∧ ((State.reset.modQuad 47 fun q => { q with stretch := true }).quad 47).stretch = true)
    ∧ (ClockRuns late ∧ 0 < late.period ∧ ¬ClockRuns { late with ps := .gated } ∧ ¬ClockRuns { late with tripped := true }) := by
  dsimp only
  unfold ClockRuns
  and_intros <;> decide +kernel

/-- Partition 0 enabled with quad 0 at time 9; a changed quad 0 and governor. -/
def quad0 (f : Quad → Quad) (g : Gov → Gov) : State :=
  { (State.reset.modPart 0 fun p => { p with en := true, qmask := 1#48 }).modQuad 0 f with time := 9, gov := g Gov.reset }

/-- A quad in each state, asked to gate or to wake and not, busy and not, owned and not, before and at its tick. -/
theorem wit_QuadsAndTicks :
    let at_ (k : Nat) (g : Gov) : Gov := { g with tick := k }
    let asked := quad0 (fun q => { q with gateReq := some 8 }) id
    let busy := asked.mod fun k => { k with armed := true }
    let ours (s : State) : Prop := ∃ p < 16, (s.part p).en = true ∧ (s.part p).qmask.getLsbD 0 = true
    ((0#6).toNat < 48 ∧ (asked.quad 0).ps = .on ∧ (asked.quad 0).gateReq = some 8 ∧ 8 < asked.time
      ∧ (∀ c ∈ [0, 1, 2, 3], (asked.at c).armed = false ∧ (asked.at c).hst = 0) ∧ (busy.at 0).armed = true)
    ∧ (ours asked ∧ ¬ours State.reset ∧ (State.reset.quad 0).ps = .on)
    ∧ (((quad0 id id).quad 0).gateReq = none ∧ ((quad0 (fun q => { q with ps := .fall }) id).quad 0).ps ≠ .on
      ∧ ((quad0 (fun q => { q with ps := .fall, gateReq := some 8 }) id).quad 0).gateReq = some 8)
    ∧ (let x := (quad0 (fun q => { q with ps := .fall, psTick := 4, ballast := 0 }) (at_ 5)).quad 0
      x.ps = .fall ∧ x.psTick < 5 ∧ x.ballast = 0 ∧ x.depth = true ∧ x.tripped = false)
    ∧ (let x := (quad0 (fun q => { q with tripped := true }) id).quad 0
      x.tripped = true ∧ x.ps ≠ .gated)
    ∧ (let x := (quad0 (fun q => { q with ps := .gated, wakeReq := some 8 }) id).quad 0
      x.wakeReq = some 8 ∧ x.ps = .gated ∧ x.tripped = false)
    ∧ (let s := { State.reset.modQuad 0 fun q => { q with ps := .gated, wakeReq := some 8 } with time := 9 }
      (s.quad 0).wakeReq = some 8 ∧ 8 < s.time ∧ (s.quad 0).ps = .gated ∧ ¬ours s)
    ∧ (((quad0 (fun q => { q with wakeReq := some 8 }) id).quad 0).wakeReq = some 8
      ∧ ((quad0 (fun q => { q with wakeReq := some 8 }) id).quad 0).ps ≠ .gated)
    ∧ (let s := quad0 (fun q => { q with ps := .rise, psTick := 4 }) (at_ 35)
      (s.quad 0).ps = .rise ∧ (s.quad 0).psTick + 31 ≤ s.gov.tick ∧ 34 < (s.quad 0).psTick + 31 ∧ (s.quad 0).wipe = false) := by
  dsimp only
  and_intros <;> decide +kernel

/-- A drain that may end and one that may not; a quad that trips where a sensor stands at 15 or more and the limit is 0, one
that does not where it stands below; one that is tripped already and too hot to wake (sensors and drains are open). -/
theorem wit_QuadsAndTicks_open :
    let s := quad0 (fun q => { q with ps := .drain, psTick := 4 }) fun g => { g with tick := 4 + Config.drainExtra 0 4 + 1 }
    let t := quad0 (fun q => { q with ps := .drain, psTick := 4 }) fun g => { g with tick := 4 }
    let cool := quad0 id fun g => { g with cap := 0#64 }
    let trips (x : State) : Prop := x.gov.cap.toNat / 2 ^ 16 % 2 ^ 8 + 15 ≤ Config.hottest 0 x.gov.interval ∨ 110 ≤ Config.hottest 0 x.gov.interval
    ((s.quad 0).ps = .drain ∧ (s.quad 0).psTick + Config.drainExtra 0 (s.quad 0).psTick < s.gov.tick ∧ ¬Awaited s 0)
    ∧ Awaited { s with hbm := [{ copy0 with acc := [0] }] } 0
    ∧ t.gov.tick ≤ (t.quad 0).psTick + Config.drainExtra 0 (t.quad 0).psTick
    ∧ ((cool.quad 0).ps ≠ .gated ∧ (cool.quad 0).tripped = false ∧ ∀ c ∈ [0, 1, 2, 3], (cool.at c).gbase = c ∧ (cool.at c).gsize = 1 ∧ (cool.at c).task = none)
    ∧ (15 ≤ Config.hottest 0 0 → trips cool) ∧ (Config.hottest 0 0 < 15 → ¬trips cool)
    ∧ cool.gov.cap.toNat / 2 ^ 16 % 2 ^ 8 ≤ Config.hottest 0 cool.gov.interval
    ∧ (Config.hottest 0 0 < 15 → let u := quad0 (fun q => { q with ps := .gated, wakeReq := some 8 }) fun g => { g with cap := 0xF0000#64 }
      ¬u.gov.cap.toNat / 2 ^ 16 % 2 ^ 8 ≤ Config.hottest 0 u.gov.interval)
    ∧ (let g := quad0 (fun q => { q with ps := .gated }) fun g => { g with cap := 0#64 }
      (g.quad 0).ps = .gated ∧ (g.quad 0).tripped = false ∧ (15 ≤ Config.hottest 0 0 → trips g))
    ∧ ((∀ f ∈ freqPoints, 1200 < f.1 → 0 < Config.predictedAmps 0 f.1 0) → ∀ f ∈ freqPoints, 1200 < f.1 →
      cool.gov.cap.toNat / 2 ^ 24 % 2 ^ 16 < Config.predictedAmps 0 f.1 cool.gov.interval)
    ∧ (let x := cool.quad 0
      let want := max (freqMHz (x.ctl.toNat % 4) (x.ctl.toNat / 4 % 4)) (freqMHz (x.ctl.toNat / 16 % 4) (x.ctl.toNat / 64 % 4))
      1200 < want ∧ freqMHz x.ratio.toNat x.point.toNat ≤ want ∧ 1200 < freqMHz x.ratio.toNat x.point.toNat) := by
  have p (k : Nat) : ((quad0 (fun q => { q with ps := .drain, psTick := 4 }) fun g => { g with tick := k }).quad 0).psTick = 4
      ∧ ((quad0 (fun q => { q with ps := .drain, psTick := 4 }) fun g => { g with tick := k }).quad 0).ps = .drain := ⟨rfl, rfl⟩
  refine ⟨⟨(p _).2, ?_, ?_⟩, .inl ⟨_, List.mem_singleton.2 rfl, List.mem_singleton.2 rfl⟩, ?_, by decide +kernel, fun h => .inl h, fun h1 h2 => ?_, Nat.zero_le _,
    fun h1 h2 => ?_, ⟨by decide +kernel, by decide +kernel, fun h => .inl h⟩, fun h f hf h2 => h f hf h2, by decide +kernel⟩
  · rw [(p _).1]
    exact Nat.lt_succ_self _
  · rintro (⟨x, h, -⟩ | ⟨x, h, -⟩ | ⟨x, h, -⟩) <;> exact absurd h (none_in rfl x)
  · rw [(p 4).1]
    exact Nat.le_add_right 4 _
  · have h3 : 0 + 15 ≤ Config.hottest 0 0 ∨ 110 ≤ Config.hottest 0 0 := h2
    omega
  · have h3 : 15 ≤ Config.hottest 0 0 := h2
    omega

/-- The governor with no request and with one of a gang, with credit and without, pinned and not; an interval of an idle quad,
in the repeatable mode and not; nothing to do at the time of a tick, of an interval. -/
theorem wit_QuadsAndTicks_ticks :
    let s (q : Int) (pin : Bool) : State := { belt [] with gov := { Gov.reset with q := q, reqs := [.gang 0 1 pin 0] } }
    let c (v : W64) : State := quad0 id fun g => { g with ctl := v }
    let kept (pin : Bool) (g : Gov) : Int := if pin = true then 0 else 1000 * (g.ctl.toNat / 2 ^ 8 % 2 ^ 8)
    let depth (g : Gov) : Int := 1000 * g.up.toNat
    let have_ (g : Gov) : Int := max (-depth g) (min (depth g) (g.q + 64 * g.up.toNat) - g.rises)
    let step_ (g : Gov) : Int := 1 * (g.ctl.toNat % 2 ^ 8) * 1000
    (Gov.reset.reqs = [] ∧ ∀ pin, (s 0 pin).gov.reqs = [.gang 0 1 pin 0] ∧ ((s 0 pin).at 0).gbase = 0 ∧ ((s 0 pin).at 0).gsize = 1
      ∧ ((s 0 pin).at 0).task = some task0)
    ∧ (∀ pin, let g := (s 40000 pin).gov
        min (step_ g) (depth g - kept pin g) ≤ have_ g - kept pin g)
    ∧ (∀ pin, let g := (s (-40000) pin).gov
        have_ g - kept pin g < min (step_ g) (depth g - kept pin g))
    ∧ ((c 0x210000#64).gov.ctl.getLsbD 16 = true ∧ (c 0#64).gov.ctl.getLsbD 16 = false ∧ ((c 0#64).quad 0).ps = .on
      ∧ (c 0#64).gov.meanSum ≤ (c 0#64).gov.cap.toNat % 2 ^ 16 * 1000 * (c 0#64).gov.meanCnt
      ∧ let x := (c 0#64).quad 0
        freqMHz x.ratio.toNat x.point.toNat
          = max (freqMHz (x.ctl.toNat % 4) (x.ctl.toNat / 4 % 4)) (freqMHz (x.ctl.toNat / 16 % 4) (x.ctl.toNat / 64 % 4)))
    ∧ (State.reset.agenda = [] ∧ 64 * State.reset.gov.tick * Config.unitsPerNs ≤ State.reset.time)
    ∧ (let t := { quad0 id fun g => { g with tick := 16 } with time := 1000 * Config.unitsPerNs }
      t.agenda = [] ∧ t.time < 64 * t.gov.tick * Config.unitsPerNs ∧ 1000 * (t.gov.interval + 1) * Config.unitsPerNs ≤ t.time) := by
  dsimp only
  and_intros <;> decide +kernel

/-- A sampled core, and one that is not. -/
theorem wit_QuadsAndTicks_samples :
    let smp := owned (State.reset.mod fun k => { k with pcsCtl := 0x40001#64 })
    State.reset.core.pcsCtl.getLsbD 0 = false ∧ smp.core.pcsCtl.getLsbD 0 = true ∧ smp.core.task = none ∧ smp.canon
      ∧ ∀ i < 32, InShare smp (smp.partOf smp.cur.val) (smp.core.pcsBase.toNat / 2 ^ 12 % 2 ^ 40 * 4096
        + 32 * (smp.core.pcsHead.toNat % 2 ^ (smp.core.pcsCtl.toNat / 2 ^ 16 % 2 ^ 5)) + i) := by
  unfold InShare
  refine ⟨by decide +kernel, by decide +kernel, by decide +kernel, canon_of_canonB (by decide +kernel), by decide +kernel⟩

/-- Partition 3 with quad 1, beside partition 4; enabled, in reset. -/
def shared (en rst : Bool) : State :=
  (State.reset.modPart 3 fun p => { p with en := en, inrst := rst, qmask := 2#48, hbm := 0x10000#64, mways := 1#5, win := 1#16 }).modPart 4
    fun p => { p with en := true, qmask := 1#48, hbm := 0x2400001#64, mways := 15#5, win := 2#16 }

/-- A share that may be enabled, with another partition beside it, and an empty one; a partition in each state, with a core that
runs a task of a launch and one that does not; outside work. -/
theorem wit_PartitionsEnableAndReset :
    let P := (shared false false).part 3
    let work : State := { shared true true with jobs := [{ job0 with part := 3 }] }
    let x : Task := { task0 with part := 3 }
    let l : Launch := { launch0 [] with part := 3, rep := 2#2 }
    let s : State := { (shared true false).setAt 4 { Core.reset 4 with task := some x } with launches := [l] }
    (P.en = false ∧ P.qmask ≠ 0#48 ∧ P.hbm.toNat % 2 ^ 10 < P.hbm.toNat / 2 ^ 16 % 2 ^ 10 ∧ P.hbm.toNat / 2 ^ 16 % 2 ^ 10 ≤ 576 ∧ 1 ≤ P.mways.toNat
      ∧ (List.range 16).filter (fun q => ((shared false false).part q).en) = [4]
      ∧ P.mways.toNat + ([4].map fun q => ((shared false false).part q).mways.toNat).sum ≤ 16
      ∧ (∀ q ∈ [4], let Q := (shared false false).part q
          P.qmask &&& Q.qmask = 0#48 ∧ (P.hbm.toNat / 2 ^ 16 % 2 ^ 10 ≤ Q.hbm.toNat % 2 ^ 10) ∧ P.win &&& Q.win = 0#16)
      ∧ ∀ c < 192, P.qmask.getLsbD (quadOf c) = true → ((shared false false).at c).armed = false ∧ ((shared false false).at c).hst = 0)
    ∧ (State.reset.part 3).qmask = 0#48
    ∧ ((s.part 3).en = true ∧ (s.part 3).inrst = false ∧ (∀ c < 192, (s.at c).gbase = c ∧ (s.at c).gsize = 1) ∧ CoreOf s 3 4
      ∧ (s.at 4).task = some x ∧ s.launch 3 x.lid = some l)
    ∧ ((work.part 3).inrst = true ∧ OutsideWork work 3)
    ∧ (((shared true true).part 3).inrst = true ∧ ¬OutsideWork (shared true true) 3 ∧ EventInHbm (shared true true)
      ∧ CoreOf (shared true true) 3 4 ∧ ((shared true true).quad 1).ps = .on
      ∧ (((shared true true).modQuad 1 fun q => { q with ps := .gated }).quad 1).ps ≠ .on) := by
  dsimp only
  unfold OutsideWork EventInHbm CoreOf
  refine ⟨?_, ?_, ?_, ⟨?_, .inr (.inr (.inl ?_))⟩, ?_, ?_, ?_, ?_, ?_, ?_⟩
  rotate_left 6
  · rintro (⟨_, h, -⟩ | ⟨_, h, -⟩ | ⟨_, h, -⟩ | ⟨_, h, -⟩ | ⟨_, h, -⟩ | ⟨_, h, -⟩ | ⟨_, h, -⟩) <;> exact absurd h List.not_mem_nil
  all_goals decide +kernel

/-- A core that holds a line, written or clean, with ports late by no time and by 10 ms. -/
def ported (since : Option Nat) (back n : Nat) : State := { belt [] with ports := List.replicate 23 ⟨true, since, back⟩, time := n }
def lined (d : List Bool) : State := inCore fun k => { k with l1d := [{ line0 0x8000 0 with dirty := d }] }

/-- A word of HBM with one owner, with none, with a tag; an address of nothing. -/
theorem wit_ErrorsAndLinks :
    let s := mapped 0 id
    let m : MscLine := ⟨0x8000, 0, 0, 7#16⟩
    let t : State := { s with msc := [m] }
    let pa := (0x400000#52).toNat
    (s.target pa = .hbm ∧ s.mscFind (s.normPa pa) = none ∧ 0 < s.rasScrub.toNat ∧ OnlyOwner s pa 0)
    ∧ (t.mscFind (t.normPa pa) = some m ∧ m.part < 16 ∧ InShare t 0 pa ∧ OnlyOwner t pa 0 ∧ ∀ q < 16, ¬InShare State.reset q pa)
    ∧ (State.reset.target pa = .hbm ∧ State.reset.mscFind (State.reset.normPa pa) = none ∧ ∀ q < 16, ¬Owns State.reset pa q)
    ∧ (State.reset.target (0x9000000000#52).toNat = .none)
    ∧ (s.normPa (eventAt s) / 128 ≠ s.normPa pa / 128 ∧ EventInHbm s) := by
  have own (s : State) (q : Nat) (h : s.target 0x400000 = .hbm) (h2 : Owns s 0x400000 q) : InShare s q 0x400000 := by
    obtain h2 | ⟨c, o, h2 | h2 | h2, -⟩ := h2
    · exact h2
    all_goals rw [h] at h2; cases h2
  have t1 : (mapped 0 id).target 0x400000 = .hbm := by decide +kernel
  have t2 : State.reset.target 0x400000 = .hbm := by decide +kernel
  dsimp only
  refine ⟨⟨t1, by decide +kernel, by decide +kernel, by decide, .inl ?_, fun q hq h => ?_⟩, ⟨by decide +kernel, by decide +kernel, by unfold InShare; decide +kernel,
      ⟨by decide, .inl (by unfold InShare; decide +kernel), fun q hq h => ?_⟩, by unfold InShare; decide +kernel⟩,
    ⟨t2, by decide +kernel, fun q hq h => absurd (own _ q t2 h) ?_⟩, by decide +kernel, ?_⟩
  · unfold InShare
    decide +kernel
  · have e : ∀ q < 16, InShare (mapped 0 id) q 0x400000 → q = 0 := by unfold InShare; decide +kernel
    exact e q hq (own _ q t1 h)
  · have e : ∀ q < 16, InShare { mapped 0 id with msc := [⟨0x8000, 0, 0, 7#16⟩] } q 0x400000 → q = 0 := by unfold InShare; decide +kernel
    exact e q hq (own _ q (by decide +kernel) h)
  · have e : ∀ q < 16, ¬InShare State.reset q 0x400000 := by unfold InShare; decide +kernel
    exact e q hq
  · unfold EventInHbm
    decide +kernel

/-- A task on the core and none; private lines written, clean and none; ports that do not exist, that are down, that have just
retrained, that are late by no time and by 10 ms; beats, copies and atomics under way to another module and not. -/
theorem wit_ErrorsAndLinks_cores :
    let ms := 10000000 * Config.unitsPerNs
    (Alone (belt []) ∧ (belt []).core.task ≠ none ∧ State.reset.core.task = none
      ∧ State.reset.core.l1d = [] ∧ State.reset.core.upd = [] ∧ State.reset.core.vc = []
      ∧ ∀ i < 4, (State.reset.at (4 * quadOf State.reset.cur.val + i)).task = none)
    ∧ (let x : Line := { line0 0x8000 0 with dirty := [true] }
      (lined [true]).core.l1d.find? (fun y => y.pa == (lined [true]).normPa (0x400000#52).toNat / 128) = some x ∧ x.part < 16
      ∧ x.dirty[0]? = some true)
    ∧ (let x : Line := { line0 0x8000 0 with dirty := [] }
      (lined []).core.l1d.find? (fun y => y.pa == (lined []).normPa (0x400000#52).toNat / 128) = some x ∧ (lined []).core.upd = []
      ∧ x.dirty = [])
    ∧ (CoreOf (mapped 0 id) 0 (mapped 0 id).cur.val ∧ (∀ q < 16, CoreOf (mapped 0 id) q (mapped 0 id).cur.val → q = 0)
      ∧ ∀ q < 16, ¬CoreOf State.reset q State.reset.cur.val)
    ∧ ((ported none 0 0).ports[23]? = none ∧ (ported none 0 0).ports[22]? = some ⟨true, none, 0⟩ ∧ State.reset.ports[22]? = some ⟨false, none, 0⟩)
    ∧ ((ported (some 0) (ms + 1) ms).ports[22]? = some ⟨true, some 0, ms + 1⟩ ∧ (ported (some 0) (ms + 1) (ms - 1)).time < 0 + ms
      ∧ 0 + ms ≤ (ported (some 0) (ms + 1) ms).time ∧ 0 + ms < ms + 1)
    ∧ (let d : Delivery := ⟨0, some 0#128, true, false, 5, none, 0, true, true⟩
      let s := (heldFor (.late 0 5 0 none) none 0).modCtx fun x => { x with ldP := x.ldP.set 5 { LdPort.reset with dels := [d] } }
      Alone s ∧ s.core.hold = some ⟨[.late 0 5 0 none], 0, 2, none, { cls := .holdTimeout }⟩ ∧ s.cur.val = 0
      ∧ d ∈ (s.core.ctx.ldP.getD 5 LdPort.reset).dels ∧ d.due = s.core.now)
    ∧ ((∀ m ∈ (belt []).members (belt []).cur.val, ((belt []).at m).hold = none) ∧ State.reset.target (2 ^ 51 + 2 ^ 41) = .pod 1 0
      ∧ State.reset.target 0x400000 = .hbm) := by
  dsimp only
  unfold Alone CoreOf
  and_intros <;> decide +kernel

/-- Records none of which verifies, and one that is in force if its signatures verify; recovery and not, intake open and not; an
aperture that is open and one that is closed; an address that the partition reaches and one that it does not; signature
indices left, the 1,024th, and none. -/
theorem wit_BringUpAndHost :
    let s := mapped 0 id
    let sig (n : Nat) : State := { State.reset with sigNext := BitVec.ofNat 21 n }
    ((∀ r ∈ { State.reset with records := [] }.records, ¬Verifies r)
      ∧ ∀ r, Verifies r → InForce { State.reset with records := [r] } r)
    ∧ (State.reset.recovery = false ∧ { State.reset with recovery := true }.recovery = true ∧ State.reset.intake = false
      ∧ State.reset.rhsCtl.getLsbD 4 = false)
    ∧ (s.recovery = false ∧ Answers s (0#4).toNat (0x400000#52).toNat 64 ∧ (∀ i < 64, InShare s (0#4).toNat ((0x400000#52).toNat + i))
      ∧ s.uePart.getD (1#2).toNat 0#4 = 0#4 ∧ (0x400000#41).toNat = (0x400000#52).toNat
      ∧ { s with rhsCtl := 0x10#64 }.rhsCtl.getLsbD 4 = true ∧ { s with rhsCtl := 0x10#64 }.rhsCtl.toNat % 16 = (0#4).toNat)
    ∧ (∃ i < 64, s.hasTarget (1#4).toNat true ((0x400000#52).toNat + i) = false)
    ∧ ((sig 0).sigNext.toNat + 3 ≤ 2 ^ 20 ∧ (sig 0xFFBFF).sigNext.toNat + 1025 = 2 ^ 20 ∧ 2 ^ 20 ≤ (sig 0x100000).sigNext.toNat) := by
  dsimp only
  unfold Answers
  refine ⟨⟨nofun, fun r h => ⟨.head _, h, fun x hx _ => .inl (List.mem_singleton.1 hx)⟩⟩, by decide +kernel, ⟨by decide +kernel,
    by decide +kernel, ?_, by decide +kernel, by decide +kernel, by decide +kernel, by decide +kernel⟩, ⟨0, by decide, by decide +kernel⟩, by decide +kernel⟩
  unfold InShare
  decide +kernel

/-- A partition enabled, whose MAXCLS alone firmware may change, and one that is not; each case of EN and RST; a record that
is armed and one that is idle; no self-test failure that waits; registers of each kind. -/
theorem wit_FirmwareWrites :
    let s := State.reset.modPart 15 fun p => { p with en := true }
    ((s.part (15#4).toNat).en = true ∧ (State.reset.part (15#4).toNat).en = false ∧ s.selfFail = [])
    ∧ ((0x39#64).getLsbD 0 = true ∧ (0x39#64).getLsbD 1 = false ∧ (0x38#64).getLsbD 0 = false ∧ (0x3B#64).getLsbD 1 = true)
    ∧ ((inCore fun k => { k with armed := true }).core.armed = true ∧ (belt []).core.armed = false ∧ (belt []).core.hst = 0)
    ∧ ((0x490, [(0, 5)]) ∈ firmRegs ++ plainRegs ++ outerRegs ∧ 0x480 ∈ readOnly ∧ 0x311 < 2 ^ 12 ∧ Outer 0x311 ∧ State.reset.core.qpcSel.toNat < 48) := by
  unfold Outer
  decide +kernel

theorem no_target {s : State} {p a : Nat} {k : Bool} (h : (s.part p).en = false) : s.hasTarget p k a = false := by
  unfold State.hasTarget
  simp [h]

/-- A stop of a gang alone without a handler, with one, with a frame and an event in HBM; and one in a handler. -/
theorem wit_StopsAreTaken :
    let k : Stop := { cls := .trap, eng := 6, waddr := 8 }
    let s (vec : W64) (h : Bool) : State := (belt []).mod fun c => { c with task := none, fltBase := 0x1000#64, fltVec := vec, hnd := h }
    (∀ b, (s 0x4000#64 b).core.gsize = 1 ∧ (s 0x4000#64 b).core.gbase = (s 0x4000#64 b).cur.val ∧ (s 0x4000#64 b).core.hnd = b)
    ∧ (∀ b, (s 0x4000#64 b).canon) ∧ (k.eng < 8 ∧ k.sub < 2 ^ 16 ∧ k.waddr < 2 ^ 16)
    ∧ ((s 0x4000#64 false).core.fltVec.getLsbD 14 = true ∧ (s 0x4000#64 false).core.fltVec.getLsbD (16 + k.cls.code) = false
      ∧ k.cls ≠ .gangLost ∧ k.cls ≠ .supervisor ∧ (s 0x4000#64 false).core.ctx.sup = false
      ∧ (s 0x4000#64 false).core.fltBase.toNat / 2 ^ 12 % 2 ^ 40 * 4096 = 0x1000)
    ∧ ((s 0#64 false).core.fltVec.getLsbD 14 = false ∧ (s 0#64 false).core.task = none)
    ∧ (∀ o : Nat, o < 0x3000 → InShare (owned (s 0x4000#64 false)) ((owned (s 0x4000#64 false)).partOf (owned (s 0x4000#64 false)).cur.val) (0x1000 + o))
    ∧ (∀ o : Nat, o < 0x3000 → (s 0x4000#64 false).hasTarget ((s 0x4000#64 false).partOf (s 0x4000#64 false).cur.val) true (0x1000 + o) = false) ∧ ∀ o < 32, (s 0#64 false).target
      ((s 0#64 false).mgtEvq.toNat / 2 ^ 12 % 2 ^ 40 * 4096 + 32 * ((s 0#64 false).mgtEvhead.toNat % 2 ^ ((s 0#64 false).mgtEvq.toNat % 2 ^ 4 + 4)) + o) = .hbm := by
  dsimp only
  refine ⟨by decide +kernel, fun b => canon_of_canonB (by cases b <;> decide +kernel), by decide +kernel, by decide +kernel, by decide +kernel,
    fun o ho => inShare_owned (by unfold Owned; decide +kernel) (by omega), fun o _ => no_target (by decide +kernel), by decide +kernel⟩

/-- A complete word at the head of a queue whose time it is, of the plain and of the stamped kind; an event; an outside
event; a placed word. -/
theorem wit_StepRunsDecoded :
    let q : Queue := ⟨7, [⟨0x01000021#32, 4, 3, none⟩, ⟨0#32, 8, 9, none⟩]⟩
    let u : Queue := ⟨2, [⟨0xC1F80000#32, 4, 3, some 7⟩, ⟨0xE0000008#32, 8, 7, none⟩]⟩
    let s := (inCtx [] fun x => { x with qs := (x.qs.set 0 q).set 6 u }).mod fun k => { k with lcc := 7 }
    let a : State := { s with agenda := [(0, .issue 0#3), (0, .event .gridDone)], sched := [(0, 5, .gridDone)], gov := { s.gov with tick := 1 } }
    (a.agenda = (0, .issue 0#3) :: [(0, .event .gridDone)] ∧ ((a.at 0).ctx.q 0).es = ⟨0x01000021#32, 4, 3, none⟩ :: ([] ++ [⟨0#32, 8, 9, none⟩])
      ∧ (decodeWords [0x01000021#32]).toOption = some (.cpBr 0#4 33#14, []) ∧ 3 ≤ (a.at 0).now ∧ ((a.at 0).ctx.q 0).ni = (a.at 0).now
      ∧ (isStamped 0x01000021#32 || isTimed 0x01000021#32) = false)
    ∧ (((a.at 0).ctx.q 6).es = ⟨0xC1F80000#32, 4, 3, some 7⟩ :: ([⟨0xE0000008#32, 8, 7, none⟩] ++ [])
      ∧ (decodeWords [0xC1F80000#32, 0xE0000008#32]).toOption = some (.untilStamp 6#3 0#4 8#29, []) ∧ 7 ≤ (a.at 0).now
      ∧ (isStamped 0xC1F80000#32 || isTimed 0xC1F80000#32) = true ∧ some 7 = some (a.at 0).now ∧ ((a.at 0).ctx.q 6).ni ≤ (a.at 0).now)
    ∧ ({ a with agenda := [(0, .event .gridDone)] }.agenda = (0, .event .gridDone) :: [])
    ∧ ({ a with agenda := [] }.sched = (0, 5, .gridDone) :: [] ∧ 0 ≤ a.time ∧ a.fwRuns = true
      ∧ a.time < 64 * a.gov.tick * Config.unitsPerNs ∧ a.time < 1000 * (a.gov.interval + 1) * Config.unitsPerNs)
    ∧ (decodeTableWord 32 0x01000021 = some (.cpBr 0#4 33#14) ∧ State.reset.core.ctx.qs.length = 7) := by
  decide +kernel

/-- A well-formed word; states that keep the invariants, and that step to a next state; an instruction that firmware does not
give. -/
theorem wit_RoundTrip : isWord (.cpAdd 0#4 1#5 31#5) = true ∧ WellFormed (.cpAdd 0#4 1#5 31#5) = true := by decide +kernel

/-- The state of one event, which reset and a step give. -/
def oneEvent : State := { State.reset with agenda := [(0, .event .prvHltClear)] }

/-- An answer that is a next state. -/
def isNext : Out → Bool
  | .next _ => true
  | _ => false

theorem isNext_iff (o : Out) : isNext o = true ↔ ∃ t, o = .next t := by
  cases o <;> simp [isNext]

theorem wit_StepKeepsCanon : oneEvent.canon ∧ ∃ t, step oneEvent = .next t :=
  ⟨canon_of_canonB (by decide +kernel), (isNext_iff _).1 (by decide +kernel)⟩

theorem wit_StepKeepsStrapped : oneEvent.gov.strapped ∧ ∃ t, step oneEvent = .next t := by
  refine ⟨?_, (isNext_iff _).1 (by decide +kernel)⟩
  refine ⟨by decide, by decide, by decide, by decide, by decide, by decide, by decide, ?_⟩
  intro v h
  cases h

theorem wit_OnlyFirmwareChanges : (byFirmware (.syMtsr 0#4 0x308#12 0#21) = false ∧ ∃ t, exec (.syMtsr 0#4 0x308#12 0#21) (inSup id) = .next t)
    ∧ (NotFirmware oneEvent ∧ ∃ t, step oneEvent = .next t)
    ∧ (NotFirmware State.reset ∧ ∃ t, step State.reset = .next t) := by
  have one : ∀ (c : Fin 192) i r, oneEvent.agenda = (c, .event i) :: r → byFirmware i = false := fun c i r h => by
    have h : [((0 : Fin 192), Act.event .prvHltClear)] = (c, .event i) :: r := h
    cases h
    rfl
  refine ⟨⟨rfl, (isNext_iff _).1 (by decide +kernel)⟩, ⟨⟨one, ?_⟩, (isNext_iff _).1 (by decide +kernel)⟩,
    ⟨⟨nofun, fun _ => ⟨nofun, by decide +kernel⟩⟩, (isNext_iff _).1 (by decide +kernel)⟩⟩
  exact nofun

/-! Single steps, on values that the spec's worked examples or its tables give. -/

/-- The test of the next state that an instruction answers. -/
def after (o : Out) (p : State → Bool) : Bool := match o with
  | .next t => p t
  | _ => false

/-- R97's worked example: at cycle 4 the product of cycle 1 and the sum of cycle 3 drop together, the sum on top. -/
theorem test_cpResultDrop :
    let e (v : W64) (i : Nat) : CpEff := { kind := .drop, data := v, due := 4, issue := i }
    let s := (inCtx [8#64, 7#64] fun x => { x with effs := [e 49#64 1, e 15#64 3] }).mod fun k => { k with lcc := 4 }
    after (exec .cpResultDrop s) (fun t => t.core.ctx.rq.take 5 == [15#64, 49#64, 8#64, 7#64, 0#64]) = true := by decide +kernel

/-- R97's worked example: `cp.sub b1, b0` of 49 and 15. -/
theorem test_cpSub : after (exec (.cpSub 0#4 1#5 0#5) (belt [15#64, 49#64]))
    (fun t => t.core.ctx.effs == [{ kind := .drop, data := 34#64, due := 1, issue := 0 }]) = true := by decide +kernel

/-- R101-R105 by hand, on -1 and 2: the result of each word. -/
theorem test_cp_values : (([(.cpAdd 0#4 0#5 1#5, 1#64), (.cpMul 0#4 0#5 1#5, 0xFFFFFFFFFFFFFFFE#64), (.cpMulh 0#4 0#5 1#5, 0xFFFFFFFFFFFFFFFF#64),
    (.cpAnd 0#4 0#5 1#5, 2#64), (.cpOr 0#4 0#5 1#5, 0xFFFFFFFFFFFFFFFF#64), (.cpXor 0#4 0#5 1#5, 0xFFFFFFFFFFFFFFFD#64),
    (.cpAndn 0#4 0#5 1#5, 0xFFFFFFFFFFFFFFFD#64), (.cpShl 0#4 0#5 1#5, 0xFFFFFFFFFFFFFFFC#64), (.cpShr 0#4 0#5 1#5, 0x3FFFFFFFFFFFFFFF#64),
    (.cpSar 0#4 0#5 1#5, 0xFFFFFFFFFFFFFFFF#64), (.cpMin 0#4 0#5 1#5, 0xFFFFFFFFFFFFFFFF#64), (.cpMax 0#4 0#5 1#5, 2#64)]
    ++ [(.cpAddi 0#4 0#5 0x1FFF#13, 0xFFFFFFFFFFFFFFFE#64), (.cpAndi 0#4 0#5 0x1000#13, 0xFFFFFFFFFFFFF000#64), (.cpOri 0#4 1#5 1#13, 3#64),
    (.cpXori 0#4 1#5 0x1FFF#13, 0xFFFFFFFFFFFFFFFD#64), (.cpShli 0#4 1#5 62#6, 0x8000000000000000#64), (.cpShri 0#4 0#5 63#6, 1#64),
    (.cpSari 0#4 0#5 63#6, 0xFFFFFFFFFFFFFFFF#64), (.cpLim 0#4 0x20000#18, 0xFFFFFFFFFFFE0000#64), (.cpLimx 0#4 63#6 5#58, 0xFC00000000000005#64)]
    ++ [(.cpCeq 0#4 0#5 1#5, 0#64), (.cpCne 0#4 0#5 1#5, 1#64), (.cpClt 0#4 0#5 1#5, 1#64), (.cpCle 0#4 1#5 1#5, 1#64), (.cpCltu 0#4 0#5 1#5, 0#64),
    (.cpCleu 0#4 1#5 0#5, 1#64), (.cpCeqi 0#4 0#5 0x1FFF#13, 1#64), (.cpClti 0#4 0#5 0#13, 1#64), (.cpSel 0#4 0#5 1#5 0#5, 2#64)]
    : List (Instr × W64)).all fun p => after (exec p.1 (belt [0xFFFFFFFFFFFFFFFF#64, 2#64])) fun t => t.core.ctx.effs.map CpEff.data == [p.2]) = true := by
  decide +kernel

/-- R116, R117: a branch to word 33 halts the splitter, which resumes there two cycles later; a call pushes the next word. -/
theorem test_cpBr_cpCall :
    let s := inCtx [] fun x => { x with qs := x.qs.set 0 ⟨0, [⟨0x01000021#32, 4 * 31, 0, none⟩]⟩ }
    after (exec (.cpBr 0#4 33#14) s) (fun t => t.core.ctx.spl.next == 33 && t.core.ctx.spl.resumeAt == some 2 && t.core.ctx.spl.landing) = true
    ∧ after (exec (.cpCall 0#4 33#14) s) (fun t => t.core.ctx.ret == [33]) = true := by decide +kernel

/-- R118: a loop of three words from word 1, whose second turn is its last. -/
theorem test_cpLoop :
    let s := inCtx [2#64] fun x => { x with qs := x.qs.set 0 ⟨0, [⟨0x011C0003#32, 4, 0, none⟩, ⟨0xE0000004#32, 8, 0, none⟩]⟩ }
    after (exec (.cpLoop 0#4 0#5 3#13 4#29) s) (fun t => t.core.ctx.loops == [⟨3, 5, 2, 0, 4⟩] && t.core.ctx.spl.next == 3) = true := by decide +kernel

/-- R109, R110: a signed byte load of 0x80; a halfword store lands its two bytes, little-endian. -/
theorem test_cpLd8s_cpStoreLand :
    let s := inCore fun k => { k with lm := [(5, 0x80#8)], ctx := { k.ctx with effs :=
      [{ kind := .store, data := 0x1234#64, addr := 6, size := 2, due := 0, issue := 0 }] } }
    after (exec (.cpLd8s 0#4 0#5 5#13) s) (fun t => t.core.ctx.effs.getLast?.map CpEff.data == some 0xFFFFFFFFFFFFFF80#64) = true
    ∧ after (exec .cpStoreLand s) (fun t => t.core.lm == [(5, 0x80#8), (6, 0x34#8), (7, 0x12#8)]) = true := by decide +kernel

/-- R127, R138's worked example: the stream started at cycle 22 reads its first beat at once, 0x30FE down to 0x30F0. -/
theorem test_streamBeatRead :
    let st : Staging := { Staging.reset with addr := 0x30FE#57, counts := [128, 1, 1, 1], strides := [-2, 0, 0, 0], fmt := 3#5 }
    let s := (inCore fun k => { k with
      task := some { task0 with lmg := 0x4000 }, lm := [(0x30F0, 7#8), (0x30FE, 1#8), (0x30FF, 2#8)], ctx := { k.ctx with ldS := st } }).mod fun k => { k with lcc := 22 }
    after (exec (.ldStart 0#4) s) (fun t => after (exec .streamBeatRead t) fun u =>
      ((u.core.ctx.ldP.getD 0 LdPort.reset).dels.map fun d => (d.due, d.data, d.last)) == [(26, some (0x201 + 7 * 2 ^ 112 : W128), false)]) = true := by
  decide +kernel

/-- R138's worked example: chunk 0 of the copy issued at cycle 10 is read at 11; chunk 3 lands at 21 and sets granule 3's tag. -/
theorem test_copyChunks :
    let x (n : Nat) (p : List (Nat × List (Byte × Bool))) : Copy :=
      { copy0 with dst := .lm 0 0x3000 false, len := 256, issue := 10, wtag := some 5#16, next := n, pend := p }
    let s (n c : Nat) (p : List (Nat × List (Byte × Bool))) : State := inCore fun k => { k with
      lcc := n, lm := [(1, 9#8)], ctx := { k.ctx with copies := [x c p] } }
    after (exec .copyChunkRead (s 11 0 [])) (fun t => t.core.ctx.copies.map (fun y => (y.next, y.pend.map Prod.fst)) == [(1, [0])]) = true
    ∧ after (exec .copyChunkLand (s 21 4 [(3, List.replicate 64 (8#8, false))])) (fun t => t.core.ctx.copies.isEmpty && t.core.tag false 3 == 5#16
      && t.core.lmRead false 0x30C0 == 8#8) = true := by decide +kernel

/-- R42, R74's worked examples: reciprocals of 3.0, of 1.5 × 2^127, of 2^-149 and of -0; 0.1 in BF16. -/
theorem test_specials :
    let el (op : PassOp) (x : W64) : W64 × Byte := { pass0 with op := op }.el [x]
    [el (.bin 0x18) 0x40400000#64, el (.bin 0x18) 0x7F400000#64, el (.bin 0x18) 1#64, el (.bin 0x18) 0x80000000#64, el (.cvt 3#5) 0x3DCCCCCD#64]
    = [(0x3EAAAAAB#64, fIX), (0x002AAAAB#64, fIX ||| fUF), (0x7F800000#64, fIX ||| fOF), (0xFF800000#64, fDZ), (0x3DCD#64, fIX)] := by decide +kernel

/-- R222's worked example: bias, rectify and cast of eight elements. -/
theorem test_chain :
    let p := { pass0 with op := PassOp.chain [0x00100002#29, 0x00300007#29, 0x00018420#29], dfmt := 3#5 }
    ([(0x3F800000, 0x3F000000), (0xC0000000, 0x3F000000), (0x3DCCCCCD, 0), (0x40400000, 0x3E800000), (0xBF000000, 0x3F000000),
      (0x40000000, 0xBF800000), (0x3F808000, 0), (0x42C80000, 0)] : List (W64 × W64)).map (fun x => p.el [x.1, x.2])
    = [(0x3FC0#64, 0#8), (0#64, 0#8), (0x3DCD#64, fIX), (0x4050#64, 0#8), (0#64, 0#8), (0x3F80#64, 0#8), (0x3F80#64, fIX), (0x42C8#64, 0#8)] := by
  decide +kernel

/-- R71's worked example: the INT8 dot product 25,400 into INT16, without SAT. -/
theorem test_dot :
    let p := { pass0 with op := PassOp.dot 0xC#5, fmt := 0xD#5, dfmt := 0xC#5, n := 4 }
    let q := p.take 0 [[100#64, 100#64, 100#64, 0x9C#64], List.replicate 4 127#64]
    q.total q.acc q.accI = (0x6338#64, 0#8) := by decide +kernel

/-- R198: a sink of two iterations at II 3 and delay 5 emits at c + 5 + 6 + 4; a graph starts with its bit clear. -/
theorem test_grStart :
    let s := inGrid fun g => { g with inPlace := true, ii := 3, els := g.els.set 63 { Element.reset with en := true, snk := true, dly := 5, iters := 2 } }
    after (exec (.grStart 0#4 0#29) s) (fun t => t.core.grid.sinks == [(63, 15)] && !t.core.grid.doneBit && t.core.grid.running == some 0) = true := by
  decide +kernel

/-- R51's worked example: 2^24 added to the partial sum 1.0 in FP32 ties to even. -/
theorem test_forwardFront :
    let c : Cell := { Cell.reset with act := ⟨1#5, [0x4B800000#64], 0#8, 0#32⟩ }
    let f : Front := ⟨.F, false, 0, false, true, 0, { ArrSet.reset with afmt := 1#5, gfmt := 1#5, ofmt := 1#5 },
      [0#64, 0x3F800000#64] ++ List.replicate 62 0#64, [0x3F800000#64] ++ List.replicate 255 0#64, 1#5⟩
    let s := (inArr fun a => { a with cells := (a.cells.set 1 c).set 64 { c with act := ⟨1#5, [0#64], 0#8, 0#32⟩ }, fronts := [f] }).mod fun k =>
      { k with lcc := 1 }
    after (exec .frontCellStep s) (fun t => t.core.arr.fronts.map (fun g => codeAt g.sums 0) == [0x4B800000#64] && t.core.ctx.raised == fIX) = true := by
  decide +kernel

/-- The worked example of load, swap and fade: an apply on weight 1.0 with rate and fade 0.5 gives 0.75, without a flag. -/
theorem test_applyFront :
    let c : Cell := { Cell.reset with act := ⟨3#5, [0x3F80#64], 0#8, 0#32⟩ }
    let f : Front := ⟨.A, false, 0, false, false, 0, { ArrSet.reset with eta := 0x3F000000#32, fade := 0x3F000000#32 }, [], List.replicate 256 0#64, 1#5⟩
    let s := inArr fun a => { a with cells := a.cells.set 0 c, fronts := [f] }
    after (exec .frontCellStep s) (fun t => (t.core.arr.cell 0).act.w == [0x3F40#64] && (t.core.arr.cell 0).v == 1#16 && t.core.ctx.raised == 0#8) = true := by
  decide +kernel

/-- R179, R181: the histogram's source; its counters cleared. -/
theorem test_cfHsel_cfHclr :
    after (exec (.cfHsel 0#4 2#2) (inArr id)) (fun t => t.core.arr.hsrc == 2#2) = true
    ∧ after (exec (.cfHclr 0#4) (inArr fun a => { a with hb := List.replicate 32 7#32 })) (fun t => t.core.arr.hb == List.replicate 32 0#32) = true := by
  decide +kernel

/-- R262's cursor: an add of 3 to a home of 100 leaves 103 and returns 100. -/
theorem test_atomxApply :
    let x : Atomx := { atomx0 with op := 0#4, fmt := 0x14#5, pa := 0x400000, operand := 3#64, slot := 0x200 }
    let s : State := { mapped 2 id with atoms := [x], gmem := [(0x400000, 100#8)] }
    after (exec (.atomxApply 0) s) (fun t => t.gmem == [(0x400000, 103#8)] && t.atoms.map Atomx.result == [some (100#64, false)]) = true := by
  decide +kernel

/-- R239: a release adds one to its object. R263-R265: a trap asks for a stop with its code; the end of a stream. -/
theorem test_release_ends :
    after (exec (.releaseIncrement 0) { mapped 2 id with rels := [rel0], gmem := [(0x400000, 255#8)] })
      (fun t => t.rels.isEmpty && t.gmem == [(0x400001, 1#8)]) = true
    ∧ after (exec (.syTrap 0#4 0x3FFFF#18) (inCore id)) (fun t => t.core.endStop.map (fun x => (x.1.cls, x.1.detail)) == some (.trap, 0x3FFFF)) = true
    ∧ after (exec (.syEnd 0#4) (inCore id)) (fun t => t.core.ctx.ended) = true := by decide +kernel

/-- R279, R283: `sy.mfsr` at user privilege stops with class 2 and engine 6; R290: its value at supervisor privilege is on its
way to LM for cycle 2. -/
theorem test_syMfsr :
    after (exec (.syMfsr 0#4 4#12 0x100#21) (inCore id)) (fun t => t.core.stop.map (fun x => (x.why.cls.code, x.why.eng)) == some (2, 6)) = true
    ∧ after (exec (.syMfsr 0#4 4#12 0x100#21) (inSup id)) (fun t => t.core.ctx.mfsrs == [⟨0x100, 100000#64, 2⟩]) = true := by decide +kernel

/-- R316's example: the indices of 0x4000100000. -/
theorem test_lvlIndex : [1, 2, 3, 4, 5].map (lvlIndex · 0x4000100000) = [0, 0, 256, 0, 256] := by decide +kernel

/-- R319: the walk of the page tables of `mapped` finds its leaf. -/
theorem test_walk : (State.walkPlain (mapped 2 id) ⟨0#16, 0, 0x10000, 0⟩ 0x1012345 =
    .inr ⟨0#16, 0, 0x1000000, 0x200000, 0x400000, 0x9B#8⟩) := by decide +kernel

/-- R305: the packet of `launching` becomes launch 2; R343: a share that may be enabled is. -/
theorem test_launchIntake_partitionEnable :
    after (exec (.launchIntake 0#4) (launching packet0 id)) (fun t => t.launches.map Launch.lid == [2#32] && (t.part 0).lncTail == 1#32) = true
    ∧ after (exec (.partitionEnable 3#4) (State.reset.modPart 3 fun p => { p with qmask := 2#48, hbm := 0x10000#64, mways := 1#5 }))
      (fun t => (t.part 3).en) = true := by decide +kernel

/-- R330's worked example at tick 0: of two unpinned gangs of 32 W and 16 W the first starts; 8,000 mW are left. -/
theorem test_governorTick :
    let s : State := { State.reset with gov := { Gov.reset with reqs := [.gang 0 4 false 0, .gang 4 2 false 0] } }
    after (exec .governorTick s) (fun t => t.gov.q == 8000 && t.gov.reqs == [.gang 4 2 false 0] && t.gov.tick == 1) = true := by decide +kernel

/-- R340, R354, R362: a request to gate; a doorbell; a retrain; a word of the mailbox. -/
theorem test_module :
    after (exec (.quadGateRequest 0#6) (quad0 (fun q => { q with gateReq := some 8 }) id)) (fun t => (t.quad 0).ps == .drain) = true
    ∧ after (exec (.rhousAccess .doorbell) State.reset) (fun t => t.doorbell == 1) = true
    ∧ after (exec (.linkRetrain 22#5 9) State.reset) (fun t => t.ports[22]? == some ⟨true, some 0, 9⟩) = true
    ∧ after (exec (.rhousAccess (.mailWrite 2#6 7#32)) State.reset) (fun t => t.mailbox.getD 2 0#32 == 7#32) = true := by decide +kernel

end Sys2Proof.Tests
end

section
/-! PROOFS (O57). `Kept` of the counterflow array's words and events. -/

namespace Sys2Proof.Machine

/-- One of two states that keep. -/
theorem Kept.ite {s t u : State} {p : Prop} [Decidable p] (ht : Kept s t) (hu : Kept s u) : Kept s (if p then t else u) := by
  split
  · exact ht
  · exact hu

/-! The array. -/

theorem kept_modArr (s : State) (f : Arr → Arr) : Kept s (s.modArr f) := kept_mod s _ (by exact fun _ h => h)

theorem kept_arrWord (s : State) (i : BitVec 4) (f : Arr → Arr) : Kept s (s.arrWord i f) :=
  (kept_issued s 4 1 i).trans (kept_modArr _ f)

theorem kept_raise (s : State) (fl : Byte) : Kept s (s.modCtx fun y => y.raise fl) := kept_modCtx s _ (by exact fun _ h => h)

theorem kept_modArr_raise (s : State) (f : Arr → Arr) (fl : Byte) : Kept s ((s.modArr f).modCtx fun y => y.raise fl) :=
  (kept_modArr s f).trans (kept_raise _ fl)

theorem tryKept_frontStep (s : State) : TryKept s (tryFrontStep s) := by
  unfold tryFrontStep
  simp only
  split
  · exact Kept.refl s
  · refine tryKept_all (fun x hx => ?_) (kept_modArr_raise s _ _)
    obtain ⟨k, -, rfl⟩ := List.mem_map.1 hx
    exact Kept.refl s

theorem tryKept_front (i : BitVec 4) (kind : FrontKind) (grad : Bool) (p : Nat) (pe ce av : Bool) (s : State) :
    TryKept s (tryFront i kind grad p pe ce av s) := by
  unfold tryFront
  extract_lets
  split
  · exact trivial
  · split
    · exact trivial
    · split
      · exact trivial
      · have h f := (kept_issued s 4 1 i).trans (kept_modArr _ f)
        exact (Kept.ite ((h _).trans (kept_modGrid _ _)) (h _)).trans (kept_raise _ _)

theorem tryKept_ldst (i : BitVec 4) (f : BitVec 5) (a : BitVec 21) (s : State) : TryKept s (tryLdst i f a s) := by
  unfold tryLdst
  simp only
  split
  · exact trivial
  · split
    · exact trivial
    · exact kept_arrWord s i _

theorem tryKept_drain (i : BitVec 4) (ofm : BitVec 5) (md : BitVec 2) (d : BitVec 21) (s : State) :
    TryKept s (tryDrain i ofm md d s) := by
  unfold tryDrain
  simp only
  split
  · exact trivial
  · split
    · exact trivial
    · exact kept_arrWord s i _

theorem tryKept_hread (i : BitVec 4) (d : BitVec 21) (s : State) : TryKept s (tryHread i d s) := by
  unfold tryHread
  split
  · exact trivial
  · exact kept_arrWord s i _

theorem outKept_ldstRowWrite (s : State) : OutKept s (execLdstRowWrite s) := by
  unfold execLdstRowWrite
  simp only
  split
  · exact outKept_next (Kept.refl s)
  · split
    · exact outKept_next (Kept.refl s)
    · exact outKept_next (kept_modArr_raise s _ _)

theorem tryKept_present (s : State) : TryKept s (tryPresent s) := by
  unfold tryPresent
  simp only
  split
  · exact kept_modArr_raise s _ _
  · split
    · exact kept_modArr_raise s _ _
    · split
      · exact trivial
      · exact kept_modArr_raise s _ _

theorem outKept_drainRowWrite (s : State) : OutKept s (execDrainRowWrite s) := by
  unfold execDrainRowWrite
  simp only
  split
  · exact outKept_next (Kept.refl s)
  · exact outKept_next (kept_mod s _ fun _ h => Core.memOk_foldl (fun _ _ h => Core.memOk_landBytes h _ _ _) _ h)

theorem outKept_hreadLand (s : State) : OutKept s (execHreadLand s) :=
  outKept_next (kept_mod s _ fun _ h => Core.memOk_foldl (fun _ _ h => Core.memOk_landBytes h _ _ _) _ h)

theorem outKept_returnRegisterReplace (s : State) : OutKept s (execReturnRegisterReplace s) :=
  outKept_next (kept_mod s _ (by exact fun _ h => h))

end Sys2Proof.Machine
end

section
/-! PROOFS (O57). `Kept` of the words of the synchronisation engine and of their completions. -/

namespace Sys2Proof.Machine

theorem kept_issuedSyn (s : State) (i : BitVec 4) (f : Ctx → Ctx) (h : ∀ x, (f x).spm = x.spm) :
    Kept s ((s.issued 6 1 i).modCtx f) :=
  (kept_issued s 6 1 i).trans (kept_modCtx _ _ fun _ hx => by rw [h]; exact hx)

/-! Lists of the state that neither firmware's part nor a memory reads. -/

theorem kept_withRels (s : State) (l : List Release) : Kept s { s with rels := l } := Kept.of_eq rfl rfl rfl
theorem kept_withAtoms (s : State) (l : List Atomx) : Kept s { s with atoms := l } := Kept.of_eq rfl rfl rfl
theorem kept_withAgenda (s : State) (l : List (Fin 192 × Act)) : Kept s { s with agenda := l } := Kept.of_eq rfl rfl rfl
theorem kept_withSaved (s : State) (l : List Saved) : Kept s { s with saved := l } := Kept.of_eq rfl rfl rfl

/-! Barriers. -/

theorem kept_arrives (s : State) (sc k : Nat) : Kept s (s.arrives sc k) := by
  unfold State.arrives
  exact kept_modCtx s _ (by exact fun _ h => h)

theorem tryKept_arrive (i : BitVec 4) (sc : BitVec 3) (k : BitVec 4) (s : State) : TryKept s (tryArrive i sc k s) := by
  unfold tryArrive
  split
  · exact trivial
  · exact (kept_arrives s _ _).trans (kept_issued _ 6 1 i)

theorem tryKept_awaitBar (i : BitVec 4) (sc k : Nat) (s : State) : TryKept s (awaitBar i sc k s) := by
  unfold awaitBar
  simp only
  have go := kept_issuedSyn s i (fun x => x.putBar { s.core.ctx.bar sc k with on := false, rep := false }) (by exact fun _ => rfl)
  split
  · split
    · exact go
    · exact trivial
  · split
    · exact go
    · exact kept_setPend s 6 _

theorem tryKept_await (i : BitVec 4) (sc : BitVec 3) (k : BitVec 4) (s : State) : TryKept s (tryAwait i sc k s) := by
  unfold tryAwait
  split
  · exact trivial
  · exact tryKept_awaitBar i _ _ s

theorem tryKept_bar (i : BitVec 4) (sc : BitVec 3) (s : State) : TryKept s (tryBar i sc s) := by
  unfold tryBar
  split
  · exact tryKept_awaitBar i _ _ s
  · split
    · exact trivial
    · exact TryKept.of_kept (kept_arrives s _ _) (tryKept_awaitBar i _ _ _)

theorem outKept_barrierComplete (s : State) : OutKept s (execBarrierComplete s) :=
  outKept_next (kept_modCtx s _ (by exact fun _ h => h))

/-! Sync objects. -/

theorem tryKept_withObj (rd : Bool) (o : Nat) (s : State) (f : State → Nat → Try) (h : ∀ t pa, Kept s t → TryKept s (f t pa)) :
    TryKept s (withObj rd o s f) := by
  unfold withObj
  split
  · exact trivial
  · split
    · rename_i hl
      exact kept_of_looks hl
    · rename_i t l hl
      have ht : Kept s t := kept_of_looks hl
      split
      · exact ht
      · split
        · split
          · exact ht
          · exact h t _ ht
        · exact ht

theorem tryKept_bind (i : BitVec 4) (o a : BitVec 57) (n : Lit) (s : State) : TryKept s (tryBind i o a n s) := by
  unfold tryBind
  split
  · exact trivial
  · refine tryKept_withObj _ _ s _ fun t _ ht => ?_
    simp only
    split
    · exact ht.trans (kept_issued t 6 1 i)
    · split
      · exact ht
      · exact ht.trans (kept_issuedSyn t i _ (by exact fun _ => rfl))

theorem tryKept_rel (i : BitVec 4) (sc : BitVec 3) (o : BitVec 57) (s : State) : TryKept s (tryRel i sc o s) := by
  unfold tryRel
  refine tryKept_withObj _ _ s _ fun t pa ht => ?_
  have h := (ht.trans (kept_newId t)).trans (kept_flushLines t.newId.2 t.cur.val (inRuns (t.boundRuns t.cur.val o.toNat)))
  exact (h.trans (kept_issued _ 6 1 i)).then_eq rfl rfl rfl

theorem outKept_releaseIncrement (k : Nat) (s : State) : OutKept s (execReleaseIncrement k s) := by
  unfold execReleaseIncrement
  split
  · exact outKept_next (Kept.refl s)
  · split
    · exact outKept_next (Kept.refl s)
    · exact outKept_next (((kept_flushLines s _ _).trans (kept_withRels _ _)).trans (kept_seqInc _ _ _ _))

theorem tryKept_acq (i : BitVec 4) (sc : BitVec 3) (o : BitVec 57) (n : BitVec 58) (s : State) : TryKept s (tryAcq i sc o n s) := by
  unfold tryAcq
  simp only
  split
  · split
    · exact kept_issued s 6 1 i
    · exact Kept.refl s
  · refine tryKept_withObj _ _ s _ fun t pa ht => ?_
    exact (Kept.ite (ht.trans (kept_nackAt t pa)) ht).trans (kept_setPend _ 6 _)

theorem kept_syncReady (s : State) : Kept s s.syncReady := kept_setPend s 6 _

theorem outKept_acquireComplete (s : State) : OutKept s (execAcquireComplete s) := by
  unfold execAcquireComplete
  split
  · split
    · exact outKept_next (Kept.refl s)
    · exact outKept_next ((kept_dropLines s _ _).trans (kept_syncReady _))
  · exact outKept_next (Kept.refl s)

/-! Atomics. -/

theorem tryKept_withAtom (va n : Nat) (s : State) (f : State → Nat → Nat → Try) (h : ∀ t pa mt, Kept s t → TryKept s (f t pa mt)) :
    TryKept s (withAtom va n s f) := by
  unfold withAtom
  split
  · exact trivial
  · split
    · rename_i hl
      exact kept_of_looks hl
    · rename_i t l hl
      have ht : Kept s t := kept_of_looks hl
      split
      · exact ht
      · split
        extract_lets
        split
        · exact ht
        · exact h t _ _ ht

theorem kept_atomUpdate (s : State) (c : Nat) (u : Update) (mt : Nat) : Kept s (s.atomUpdate c u mt) := by
  unfold State.atomUpdate
  simp only
  split
  · exact (kept_mergeAll s c).trans (kept_applyUpdate _ _ _ u)
  · refine Kept.trans ?_ (kept_modAt _ c _ (by exact fun _ h => h))
    have h1 := fun b : Bool => (Kept.ite (p := b = true) (kept_mergeLine s c (u.pa / 128)) (Kept.refl s)).trans
      (kept_l1Access _ c (u.pa / 128) 0#2)
    split
    · exact (h1 _).trans (kept_cleanLine _ c _)
    · exact h1 _

theorem tryKept_atom (i : BitVec 4) (op : BitVec 4) (f : BitVec 5) (a : BitVec 57) (l : BitVec 21) (s : State) :
    TryKept s (tryAtom i op f a l s) := by
  unfold tryAtom
  split
  · exact trivial
  · exact tryKept_withAtom _ _ s _ fun t pa mt ht => (ht.trans (kept_atomUpdate t _ _ mt)).trans (kept_issued _ 6 1 i)

theorem kept_closeBatch (s : State) (c k : Nat) : Kept s (s.closeBatch c k) := by
  unfold State.closeBatch
  split
  · exact Kept.refl s
  · exact kept_modLaunch s _ _ _

theorem tryKept_batch (i : BitVec 4) (k : BitVec 3) (n : Lit) (s : State) : TryKept s (tryBatch i k n s) := by
  unfold tryBatch
  split
  · exact trivial
  · have h := kept_issuedSyn s i (fun x => x.putBatch ⟨k.toNat, n.toNat, 0, n == 0#29, true⟩) (by exact fun _ => rfl)
    exact Kept.ite (h.trans (kept_closeBatch _ _ _)) h

theorem tryKept_atomx (i : BitVec 4) (op : BitVec 4) (f : BitVec 5) (k : BitVec 3) (a : BitVec 57) (l r : BitVec 21) (tg : W16)
    (s : State) : TryKept s (tryAtomx i op f k a l r tg s) := by
  unfold tryAtomx
  simp only
  split
  · split
    · exact trivial
    · split
      · exact trivial
      · exact trivial
      · refine tryKept_withAtom _ _ s _ fun t pa _ ht => ?_
        have h : ∀ (b : BatchDecl) (l : List Atomx), Kept s { ((t.wordActions t.cur.val (fun ln => ln == pa / 128)
            fun ln => ln == pa / 128).newId.2.issued 6 1 i).modCtx fun y => y.putBatch b with atoms := l } := fun b l =>
          (((ht.trans (kept_wordActions t t.cur.val _ _)).trans (kept_newId _)).trans
            (kept_issuedSyn _ i (fun y => y.putBatch b) fun _ => rfl)).trans (kept_withAtoms _ l)
        exact Kept.ite ((h _ _).trans (kept_closeBatch _ _ _)) (h _ _)
  · exact trivial

theorem outKept_atomxApply (k : Nat) (s : State) : OutKept s (execAtomxApply k s) := by
  unfold execAtomxApply
  split
  · exact outKept_next (Kept.refl s)
  · split
    · exact outKept_next (Kept.refl s)
    · simp only
      split
      · exact outKept_next ((kept_nackAt s _).then_eq rfl rfl rfl)
      · split
        · exact outKept_next (Kept.of_eq rfl rfl rfl)
        · exact outKept_next ((kept_homeWriteN s _ _ _ _).then_eq rfl rfl rfl)

theorem outKept_atomxResultLand (k : Nat) (s : State) : OutKept s (execAtomxResultLand k s) := by
  unfold execAtomxResultLand
  split
  · exact outKept_next (Kept.refl s)
  · split
    · exact outKept_next (Kept.refl s)
    · split
      · exact outKept_next (Kept.refl s)
      · have h : Kept s { s with atoms := s.atoms.eraseIdx k } := Kept.of_eq rfl rfl rfl
        simp only
        split
        · exact outKept_next h
        · refine outKept_next (h.trans (kept_modAt _ _ _ fun c hc => ?_))
          have hb : ∀ (p : Bool) (t : Option Nat) (u : Bool) (a : Nat) (b : List Byte), (if p = true then c else c.copyBytes t u a b).memOk :=
            fun p t u a b => by
              split
              · exact hc
              · exact Core.memOk_copyBytes hc _ _ _ _
          split
          · exact hb _ _ _ _ _
          · exact Core.memOk_setTag (hb _ _ _ _ _) _ _ _

/-! The fence; safe points, traps, the end. -/

theorem tryKept_fence (i : BitVec 4) (sc : BitVec 3) (s : State) : TryKept s (tryFence i sc s) := by
  unfold tryFence
  simp only
  split
  · exact kept_issued s 6 1 i
  · exact kept_setPend s 6 _

theorem outKept_fenceComplete (s : State) : OutKept s (execFenceComplete s) := by
  unfold execFenceComplete
  simp only
  split
  · exact outKept_next (Kept.refl s)
  · exact outKept_next (((kept_flushLines s _ _).trans (kept_dropLines _ _ _)).trans (kept_syncReady _))

theorem kept_endStop (s : State) (k : Stop) (mask : W16) (ext : Nat) : Kept s (s.endStop k mask ext) :=
  kept_mod s _ (by exact fun _ h => h)

theorem tryKept_safe (i : BitVec 4) (m : BitVec 16) (n : Lit) (s : State) : TryKept s (trySafe i m n s) := by
  unfold trySafe
  split
  · exact trivial
  · have h := (kept_issued s 6 1 i).trans
      (kept_modGang _ s.cur.val (fun c => { c with ctx := { c.ctx with safePt := s.core.now } }) (by exact fun _ h => h))
    exact Kept.ite (h.trans (kept_endStop _ _ _ _)) h

theorem outKept_syTrap (i : BitVec 4) (c : BitVec 18) (s : State) : OutKept s (execSyTrap i c s) :=
  outKept_next ((kept_issued s 6 1 i).trans (kept_endStop _ _ _ _))

theorem outKept_sySyscall (i : BitVec 4) (c : BitVec 18) (s : State) : OutKept s (execSySyscall i c s) :=
  outKept_next ((kept_issued s 6 1 i).trans (kept_endStop _ _ _ _))

theorem Core.memOk_committing {k : Core} (h : k.memOk) : k.committing.memOk := by
  unfold Core.committing
  split
  · exact h
  · exact h

theorem outKept_syEnd (i : BitVec 4) (s : State) : OutKept s (execSyEnd i s) := by
  unfold execSyEnd
  have h := (kept_issuedSyn s i (fun x => { x with ended := true }) (by exact fun _ => rfl)).trans
    (kept_mod _ Core.committing fun _ h => Core.memOk_committing h)
  exact outKept_next (Kept.ite (h.trans (Kept.foldl (fun t k => kept_closeBatch t _ k) _ _)) h)

theorem outKept_safeGapFault (s : State) : OutKept s (execSafeGapFault s) := by
  unfold execSafeGapFault
  simp only
  split
  · exact outKept_finish_self (r := .stop _ _) trivial
  · exact outKept_next (Kept.refl s)

end Sys2Proof.Machine
end

section
/-! PROOFS (O57). `Kept` of system registers, the splitter, privileged words, the ends of holds, handlers and pre-emption
requests. -/

namespace Sys2Proof.Machine

/-! System registers. -/

theorem kept_writeWindow (s : State) (w k : Nat) (v : W64) : Kept s (s.writeWindow w k v) := by
  unfold State.writeWindow
  have h := kept_modWindow s w fun x => x.write k v
  exact Kept.ite h (h.trans (Kept.of_eq rfl rfl rfl))

theorem Core.memOk_applyVlt {k : Core} (h : k.memOk) (v : W64) : (k.applyVlt v).memOk := h

theorem Core.memOk_writeVlt {k : Core} (h : k.memOk) (v : W64) : (k.writeVlt v).memOk := by
  unfold Core.writeVlt
  split
  · exact h
  · exact Core.memOk_applyVlt h v

theorem Core.memOk_request {k : Core} (h : k.memOk) : k.request.memOk := by
  unfold Core.request
  split
  · exact h
  · exact h

theorem memOk_coreWrite {k : Core} (h : k.memOk) (n : Nat) (v : W64) : (coreWrite k n v).memOk := by
  unfold coreWrite
  split
  case h_1 => split <;> exact h
  case h_5 =>
    split
    · exact Core.memOk_request h
    · exact h
  case h_9 => exact Core.memOk_writeVlt h v
  case h_14 => split <;> exact h
  all_goals exact h

theorem kept_sysWrite (s : State) (c n : Nat) (v : W64) (t : Nat) : Kept s (s.sysWrite c n v t) := by
  unfold State.sysWrite
  split
  · exact kept_writeWindow s _ _ v
  · split
    · exact kept_modQuad s _ _
    · split
      · exact kept_modQuad s _ _
      · exact kept_modQuad s _ _
      · exact kept_modDie s _ _
      · exact kept_modDie s _ _
      · exact Kept.of_eq rfl rfl rfl
      · exact Kept.of_eq rfl rfl rfl
      · exact Kept.of_eq rfl rfl rfl
      · exact kept_modAt s c _ fun k h => memOk_coreWrite h n v

theorem kept_withOutWrites (s : State) (l : List OutWrite) : Kept s { s with outWrites := l } := Kept.of_eq rfl rfl rfl

theorem kept_landMtsrs (s : State) (c : Nat) : Kept s (s.landMtsrs c) := by
  unfold State.landMtsrs
  refine Kept.trans (Kept.foldl (fun s m => ?_) _ s) (kept_modAt _ c _ (by exact fun _ h => h))
  exact Kept.ite (kept_withOutWrites s _) (kept_sysWrite s c _ _ _)

theorem kept_outWrite (s : State) (k : Nat) : Kept s (s.outWrite k) := by
  unfold State.outWrite
  split
  · exact Kept.refl s
  · exact (kept_withOutWrites s _).trans (kept_sysWrite _ _ _ _ _)

/-! The splitter. -/

/-- A placing leaves SPM. -/
def Place.KeepsSpm (x : Ctx) : Place → Prop
  | .full => True
  | .fault _ => True
  | .go y => y.spm = x.spm
  | .last y => y.spm = x.spm

theorem keepsSpm_placeWord (s : State) (k : Core) (x : Ctx) (pres : Nat) : (placeWord s k x pres).KeepsSpm x := by
  unfold placeWord
  extract_lets p line j ws w owed q stop ctl rules bad
  clear_value bad
  split
  · exact trivial
  · split
    · exact trivial
    · split
      · exact trivial
      · cases bad
        case some => exact trivial
        case none =>
          dsimp only
          split
          · exact trivial
          · split
            · exact rfl
            · split
              · split <;> exact rfl
              · exact rfl

theorem spm_of_placeWord {s : State} {k : Core} {x y : Ctx} {pres : Nat}
    (h : placeWord s k x pres = .go y ∨ placeWord s k x pres = .last y) : y.spm = x.spm := by
  have hk := keepsSpm_placeWord s k x pres
  rcases h with h | h <;> (rw [h] at hk; exact hk)

theorem spm_placeWords (s : State) (k : Core) (pres n : Nat) (x : Ctx) : (placeWords s k pres n x).1.spm = x.spm := by
  induction n generalizing x with
  | zero => rfl
  | succ n ih =>
    unfold placeWords
    split
    · rfl
    · rfl
    · rename_i y hy
      rw [ih, spm_of_placeWord (.inl hy)]
    · rename_i y hy
      exact spm_of_placeWord (.inr hy)

theorem spm_placeAhead (s : State) (k : Core) (n : Nat) (x : Ctx) : (placeAhead s k n x).spm = x.spm := by
  induction n generalizing x with
  | zero => rfl
  | succ n ih =>
    unfold placeAhead
    split
    · rfl
    · rfl
    · rename_i y hy
      rw [ih, spm_of_placeWord (.inl hy)]
    · rename_i y hy
      exact spm_of_placeWord (.inr hy)

theorem Core.memOk_splitAhead {k : Core} (h : k.memOk) (s : State) (p : Nat) : (k.splitAhead s p).memOk := by
  obtain ⟨h1, h2, h3, h4, h5, h6⟩ := h
  refine ⟨h1, h2, h3, h4, h5, ?_⟩
  unfold Core.splitAhead
  simp only
  rw [spm_placeAhead]
  exact h6

/-- The current core's context is replaced by one with the same SPM. -/
theorem kept_setCtx (s : State) (x : Ctx) (h : x.spm = s.core.ctx.spm) : Kept s (s.modCtx fun _ => x) := by
  unfold State.modCtx
  rw [State.mod_eq_setAt]
  refine kept_setAt s _ _ fun hc => ?_
  obtain ⟨h1, h2, h3, h4, h5, h6⟩ : s.core.memOk := by
    rw [State.core_eq_at]
    exact hc.2 _
  exact ⟨h1, h2, h3, h4, h5, by rw [h]; exact h6⟩

theorem tryKept_split (s : State) : TryKept s (trySplit s) := by
  unfold trySplit
  extract_lets k now go
  have hgo : ∀ x : Ctx, x.spm = s.core.ctx.spm → TryKept s (go x) := by
    intro x hx
    have hy := spm_placeWords s k (now + 1) 8 x
    show TryKept s (match placeWords s k (now + 1) 8 x with
      | (y, none) => .ok (s.modCtx fun _ => y)
      | (y, some f) => .stopIn (s.modCtx fun _ => y) f)
    split
    · rename_i h
      exact kept_setCtx s _ (by rw [h] at hy; exact hy.trans hx)
    · rename_i h
      exact kept_setCtx s _ (by rw [h] at hy; exact hy.trans hx)
  split
  · split
    · split
      · exact hgo _ rfl
      · exact Kept.refl s
    · exact Kept.refl s
  · exact hgo _ rfl

/-! Privileged words. -/

theorem tryKept_privileged (s : State) (f : State → Try) (h : TryKept s (f s)) : TryKept s (privileged s f) := by
  unfold privileged
  split
  · exact h
  · exact trivial

theorem tryKept_mfsr (i : BitVec 4) (r : BitVec 12) (d : BitVec 21) (s : State) : TryKept s (tryMfsr i r d s) := by
  unfold tryMfsr
  refine tryKept_privileged s _ ?_
  split
  · exact trivial
  · exact trivial
  · exact kept_issuedSyn s i _ (by exact fun _ => rfl)

theorem tryKept_mtsr (i : BitVec 4) (r : BitVec 12) (d : BitVec 21) (s : State) : TryKept s (tryMtsr i r d s) := by
  unfold tryMtsr
  refine tryKept_privileged s _ ?_
  split
  · exact trivial
  · exact trivial
  · exact kept_issuedSyn s i _ (by exact fun _ => rfl)

theorem outKept_mfsrWrite (s : State) : OutKept s (execMfsrWrite s) :=
  outKept_next (kept_mod s _ fun _ h => Core.memOk_foldl (fun _ _ h => Core.memOk_landBytes h _ _ _) _ h)

/-- Every core's own act, where none harms a memory. -/
theorem kept_mapCores (s : State) (f : Core → Core) (h : ∀ k, k.memOk → (f k).memOk) : Kept s { s with cores := s.cores.map f } := by
  refine ⟨rfl, fun hc => ⟨hc.1, fun c => ?_⟩⟩
  have hk := hc.2 c
  unfold State.at at hk ⊢
  split
  · rename_i hlt
    rw [dif_pos hlt] at hk
    simp only [Vector.getElem_map]
    exact h _ hk
  · exact Core.memOk_reset c

theorem kept_invalidate (s : State) (v : Inval) : Kept s (s.invalidate v) :=
  (kept_mapCores s (fun c => { c with ctx := v.clean c.ctx }) (by exact fun _ h => h)).then_eq rfl rfl rfl

theorem tryKept_tlbi (i : BitVec 4) (k : BitVec 3) (a : BitVec 57) (s : State) : TryKept s (tryTlbi i k a s) := by
  unfold tryTlbi
  refine tryKept_privileged s _ ?_
  simp only
  split
  · exact trivial
  · split
    · split
      · exact kept_issued s 6 1 i
      · exact Kept.refl s
    · split
      · exact kept_setPend s 6 _
      · split
        · rename_i hl
          exact kept_of_looks hl
        · rename_i t l hl
          have ht : Kept s t := kept_of_looks hl
          split
          · exact ht
          · exact ht.trans (kept_setPend t 6 _)

theorem outKept_tlbiComplete (s : State) : OutKept s (execTlbiComplete s) := by
  unfold execTlbiComplete
  simp only
  split
  · split
    · exact outKept_next (Kept.refl s)
    · exact outKept_next (((kept_flushLines s _ _).trans (kept_invalidate _ _)).trans (kept_syncReady _))
  · exact outKept_next (Kept.refl s)

theorem tryKept_save (i : BitVec 4) (op : Nat) (pa : Nat) (s : State) : TryKept s (trySave i op pa s) := by
  unfold trySave
  refine tryKept_privileged s _ ?_
  extract_lets p busy bad
  split
  · exact kept_issued s 6 1 i
  · split
    · exact Kept.refl s
    · split
      · exact trivial
      · exact kept_setPend s 6 _

theorem outKept_saveRestoreComplete (s : State) : OutKept s (execSaveRestoreComplete s) := by
  unfold execSaveRestoreComplete
  have hfill := fun (p : Nat) (x : W16) (pa : Nat) (b : List Byte) (l : List Saved) =>
    (((kept_newId s).trans (kept_ownFill _ p x pa b)).trans (kept_syncReady _)).trans (kept_withSaved _ l)
  split
  · split
    · exact outKept_next (Kept.refl s)
    · refine outKept_next ?_
      split
      · exact hfill _ _ _ _ _
      · split
        · exact (kept_mod s _ (by exact fun _ h => h)).trans (kept_syncReady _)
        · exact kept_syncReady s
      · exact hfill _ _ _ _ _
      · split
        · exact (kept_mod s _ (by exact fun _ h => h)).trans (kept_syncReady _)
        · exact kept_syncReady s
  · exact outKept_next (Kept.refl s)

/-! Ends of holds. -/

theorem outKept_holdEnd (s : State) : OutKept s (execHoldEnd s) :=
  outKept_next (Kept.ite (kept_modGang s _ _ (by exact fun _ h => h)) (Kept.refl s))

theorem outKept_stop {s t : State} (h : Kept s t) (k : Stop) : OutKept s (finish t (.stop k)) :=
  OutKept.of_kept h (outKept_finish_self (r := .stop k []) trivial)

theorem outKept_holdTimeout (s : State) : OutKept s (execHoldTimeout s) := by
  unfold execHoldTimeout
  split
  · exact outKept_next (Kept.refl s)
  · split
    · exact outKept_next (Kept.refl s)
    · simp only
      split
      · exact outKept_stop (kept_post s _ _ _ _ _ _ _) _
      · exact outKept_stop (Kept.refl s) _

theorem outKept_preemptHoldStop (s : State) : OutKept s (execPreemptHoldStop s) := by
  unfold execPreemptHoldStop
  split
  · exact outKept_stop (Kept.refl s) _
  · exact outKept_next (Kept.refl s)

/-! Handlers. -/

theorem kept_enterCore (s : State) (c : Nat) : Kept s (s.enterCore c) := by
  unfold State.enterCore
  refine (kept_newId s).trans (kept_setAt _ c _ fun hc => Core.memOk_splitAhead ?_ _ _)
  obtain ⟨h1, h2, h3, h4, h5, -⟩ := hc.2 c
  exact ⟨h1, h2, h3, h4, h5, rfl⟩

theorem outKept_handlerEntry (s : State) : OutKept s (execHandlerEntry s) := by
  unfold execHandlerEntry
  simp only
  split
  · exact outKept_next (Kept.refl s)
  · exact outKept_next (Kept.foldl kept_enterCore _ s)

theorem outKept_prvEnter (s : State) : OutKept s (execPrvEnter s) := by
  unfold execPrvEnter
  have h : Kept s (s.mod fun k => { k with enter := true }) := kept_mod s _ (by exact fun _ h => h)
  simp only
  split
  · exact outKept_next (Kept.refl s)
  · split
    · exact OutKept.of_kept h (outKept_handlerEntry _)
    · exact outKept_next h

theorem outKept_prvHltClear (s : State) : OutKept s (execPrvHltClear s) := outKept_next (kept_mod s _ (by exact fun _ h => h))

end Sys2Proof.Machine
end

section
/-! PROOFS (O57). `Kept` of scheduling: intake, bind records, dispatch, commit, phases, and the return from a stop. -/

namespace Sys2Proof.Machine

/-! Reports and the end of a task on its gang. -/

theorem kept_withReqs (s : State) (l : List StartReq) : Kept s { s with gov := { s.gov with reqs := l } } := Kept.of_eq rfl rfl rfl

theorem kept_withAgendaReqs (s : State) (l : List (Fin 192 × Act)) (r : List StartReq) :
    Kept s { s with agenda := l, gov := { s.gov with reqs := r } } := Kept.of_eq rfl rfl rfl

theorem kept_withLaunches (s : State) (l : List Launch) : Kept s { s with launches := l } := Kept.of_eq rfl rfl rfl

theorem kept_withSltErr (s : State) (v : W64) : Kept s { s with sltErr := v } := Kept.of_eq rfl rfl rfl

theorem kept_withFreeCount (s : State) (n : Nat) : Kept s { s with freeCount := n } := Kept.of_eq rfl rfl rfl

/-- The five fields that a report leaves unstated. -/
theorem kept_freeVal5 (s : State) : Kept s s.freeVal.2.freeVal.2.freeVal.2.freeVal.2.freeVal.2 :=
  ((((kept_freeVal s).trans (kept_freeVal _)).trans (kept_freeVal _)).trans (kept_freeVal _)).trans (kept_freeVal _)

theorem kept_reportTop (s : State) (p : Nat) (lid : W32) (st : TaskState) (lvl code : Nat) : Kept s (s.reportTop p lid st lvl code) := by
  unfold State.reportTop
  have h := kept_freeVal5 s
  simp only
  split
  · exact h
  · exact h.trans (kept_report _ _ _ _ _ _ _ _ _ _ _ _)

theorem Core.memOk_freed {k : Core} (h : k.memOk) (c : Nat) : (k.freed c).memOk := by
  unfold Core.freed
  simp only
  split
  · exact h
  · exact h

theorem kept_freeGang (s : State) (c : Nat) : Kept s (s.freeGang c) := by
  unfold State.freeGang
  exact (kept_withAgendaReqs s _ _).trans (Kept.foldl (fun s m => kept_modAt s m _ fun _ h => Core.memOk_freed h m) _ _)

theorem kept_settle (s : State) (p : Nat) (lid : W32) : Kept s (s.settle p lid) := by
  unfold State.settle
  split
  · exact Kept.refl s
  · exact Kept.ite ((kept_modLaunch s _ _ _).trans (kept_reportTop _ _ _ _ _ _)) (Kept.refl s)

theorem kept_faultLaunch (s : State) (p : Nat) (lid : W32) (code : Nat) : Kept s (s.faultLaunch p lid code) := kept_modLaunch s _ _ _

theorem kept_freeBytes (s : State) (n : Nat) : Kept s (s.freeBytes n).2 := kept_withFreeCount s _

theorem kept_halfLoaded (s : State) (c : Nat) : Kept s (s.halfLoaded c) := by
  unfold State.halfLoaded
  refine (((kept_freeBytes s _).trans (kept_freeBytes _ _)).trans (kept_freeBytes _ _)).trans (kept_modAt _ c _ ?_)
  exact fun _ ⟨_, _, _, h4, h5, h6⟩ =>
    ⟨Memory.wf_memWriteN rfl _ _, Memory.wf_memWriteN rfl _ _, Memory.wf_memWriteN rfl _ _, h4, h5, h6⟩

theorem kept_endTask (s : State) (c : Nat) (st : TaskState) (code : Nat) : Kept s (s.endTask c st code) := by
  unfold State.endTask
  split
  · exact kept_freeGang s c
  · refine Kept.trans (Kept.trans ?_ (kept_freeGang _ c)) (kept_settle _ _ _)
    have h1 : Kept s (if (s.at c).hst = 2 then (s.members c).foldl State.halfLoaded s else s) :=
      Kept.ite (Kept.foldl kept_halfLoaded _ s) (Kept.refl s)
    have h2 := fun (p : Prop) [Decidable p] => h1.trans (Kept.ite (p := p) (Kept.refl _) (kept_reportTask _ c st code))
    exact (h2 _).trans (Kept.ite (Kept.refl _) (kept_faultLaunch _ _ _ code))

theorem kept_commitTask (s : State) (c : Nat) : Kept s (s.commitTask c) := by
  unfold State.commitTask
  split
  · exact kept_freeGang s c
  · exact ((kept_reportTask s c _ _).trans (kept_freeGang _ c)).trans (kept_settle _ _ _)

theorem kept_loseGang (s : State) (c : Nat) : Kept s (s.loseGang c) := by
  unfold State.loseGang
  split
  · exact Kept.refl s
  · exact (kept_post s _ _ _ _ _ _ _).trans (kept_endTask _ c _ _)

/-! The return from a stop. -/

theorem kept_landAll (s : State) (c : Nat) : Kept s (s.landAll c) := by
  unfold State.landAll
  exact (Kept.foldl (fun s m => kept_modAt s c _ fun _ h => Core.memOk_lmWriteN h _ _ _) _ s).trans
    (Kept.foldl (fun s e => kept_landEff s c _ e) _ _)

theorem kept_reportResumed (s : State) (c : Nat) (again : Bool) : Kept s (s.reportResumed c again) := by
  unfold State.reportResumed
  split
  · exact Kept.refl s
  · rename_i t _
    have h := kept_modLaunch s t.part t.lid
    exact Kept.ite ((h _).trans (kept_reportTask _ c _ _)) (h _)

theorem kept_resumeGang (s : State) (c : Nat) (l : List (Nat × Nat)) : Kept s (s.resumeGang c l) := by
  unfold State.resumeGang
  extract_lets k esc
  refine Kept.trans ?_ (kept_reportResumed _ c _)
  refine Kept.trans ?_ (kept_withAgenda _ _)
  refine Kept.trans ?_ (kept_modGang _ c _ (by exact fun _ h => h))
  refine Kept.trans ?_ (Kept.foldl (fun s (x : Nat × Nat × FrameRec) => kept_resumeCore s x.1 x.2.1 x.2.2) _ _)
  exact (Kept.foldl (fun s (x : Nat × Nat) => kept_landAll s x.1) l s).trans
    (Kept.ite (Kept.refl _) (kept_reportTask _ c _ _))

theorem tryKept_resumeAgain (s : State) (t0 wdog : Nat) (named : List Nat) : TryKept s (resumeAgain s t0 wdog named) := by
  unfold resumeAgain
  split
  · exact trivial
  · exact kept_modCtx s _ fun x h => by
      have e : ∀ p q, ((x.setPend 6 p).setQ 6 q).spm = x.spm := fun p _ => Ctx.spm_setPend x 6 p
      rw [e]
      exact h

theorem Core.memOk_waited {k : Core} (h : k.memOk) (t0 wdog : Nat) : (k.waited t0 wdog).memOk := h

theorem tryKept_resume (f : BitVec 52) (s : State) : TryKept s (tryResume f s) := by
  unfold tryResume
  refine tryKept_privileged s _ ?_
  extract_lets c
  split
  split
  · exact tryKept_resumeAgain s _ _ _
  · split
    · exact (kept_modGang s _ _ fun _ h => Core.memOk_waited h _ _).trans (kept_setPend _ 6 _)
    · split
      · exact trivial
      · extract_lets t l
        split
        · exact tryKept_resumeAgain s _ _ _
        · exact (kept_setPend s 6 _).trans (kept_resumeGang _ _ _)

theorem outKept_syHalt (i : BitVec 4) (s : State) : OutKept s (execSyHalt i s) :=
  outKept_finish_self (tryKept_privileged s _ (kept_issuedSyn s i _ (by exact fun _ => rfl)))

theorem outKept_taskCommit (s : State) : OutKept s (execTaskCommit s) := by
  unfold execTaskCommit
  simp only
  split
  · exact outKept_next (Kept.refl s)
  · split
    · exact outKept_next (kept_endTask s _ _ _)
    · exact outKept_next ((kept_commitTask s _).trans (Kept.foldl (fun s m => kept_modAt s m _ (by exact fun _ h => h)) _ _))

/-! Pre-emption requests. -/

theorem outKept_preemptRequest (s : State) : OutKept s (execPreemptRequest s) := by
  unfold execPreemptRequest
  split
  · exact outKept_next (Kept.refl s)
  · split
    · exact outKept_next (kept_mod s _ fun _ h => Core.memOk_request h)
    · exact outKept_next (kept_endTask s _ _ _)

theorem outKept_preemptPending (s : State) : OutKept s (execPreemptPending s) :=
  outKept_next (kept_mod s _ fun k h => by
    split
    · exact h
    · exact h)

/-! Intake. -/

theorem kept_writeHead (s : State) (p : Nat) (v : W32) : Kept s (s.writeHead p v) := by
  unfold State.writeHead
  exact kept_modPart s p _ fun P => by split <;> rfl

theorem kept_reject (s : State) (l : Launch) (code res : Nat) : Kept s (s.reject l code res) :=
  (kept_freeVal5 s).trans (kept_reportRaw _ _ _ _ _ _ _ _ _ _ _ _)

theorem outKept_launchIntake (p : BitVec 4) (s : State) : OutKept s (execLaunchIntake p s) := by
  have h : Kept s (s.modPart p.toNat fun P => { P with lncTail := P.lncTail + 1#32 }) := kept_modPart s _ _ fun _ => rfl
  unfold execLaunchIntake
  extract_lets P ring v l
  clear_value v l
  split
  · exact outKept_next (Kept.refl s)
  · split
    refine outKept_next ?_
    split
    · exact h.trans (kept_reject _ _ _ _)
    · exact h.trans (kept_withLaunches _ _)

/-! Bind records and dispatch. -/

theorem kept_refuse (s : State) (c why : Nat) : Kept s (s.refuse c why) := by
  unfold State.refuse
  exact (kept_modAt s c (fun k => { k with armed := false, hst := 0 }) (by exact fun _ h => h)).trans (kept_withSltErr _ _)

theorem outKept_bindRecordArm (r : BindRec) (s : State) : OutKept s (execBindRecordArm r s) := by
  unfold execBindRecordArm
  simp only
  have h : Kept s (s.mod fun k => { k with slot := r, armed := true, hst := 1 }) := kept_mod s _ (by exact fun _ h => h)
  split
  · exact outKept_next (Kept.refl s)
  · split
    · exact outKept_next ((h.trans (kept_refuse _ _ _)).trans (kept_nack _ _))
    · split
      · split
        · exact outKept_next h
        · exact outKept_next (h.trans (kept_refuse _ _ _))
      · split
        · exact outKept_next (h.trans (kept_refuse _ _ _))
        · exact outKept_next h

theorem Core.memOk_wiped {k : Core} (h : k.memOk) : k.wiped.memOk := by
  obtain ⟨-, -, -, h4, h5, h6⟩ := h
  exact ⟨rfl, rfl, rfl, h4, h5, h6⟩

theorem kept_bindCore (s : State) (l : Launch) (h : Header) (base m : Nat) (r : BindRec) : Kept s (s.bindCore l h base m r) := by
  unfold State.bindCore
  refine (kept_newId s).trans (kept_setAt _ m _ fun hc => ?_)
  have hk := hc.2 m
  have hw : (if (s.newId.2.at m).lastCtx = some (l.ctx, l.part) then s.newId.2.at m else (s.newId.2.at m).wiped).memOk := by
    split
    · exact hk
    · exact Core.memOk_wiped hk
  obtain ⟨h1, h2, h3, h4, h5, -⟩ := hw
  exact ⟨h1, h2, h3, h4, h5, rfl⟩

theorem kept_loadCore (s : State) (l : Launch) (h : Header) (base m : Nat) (r : BindRec) : Kept s (s.loadCore l h base m r) := by
  unfold State.loadCore
  refine kept_setAt s m _ fun hc => Core.memOk_splitAhead ?_ _ _
  obtain ⟨h1, h2, h3, h4, h5, -⟩ := hc.2 m
  exact ⟨Memory.wf_memWriteN h1 _ _, Memory.wf_memWriteN h2 _ _, Memory.wf_memWriteN h3 _ _, h4, h5, Memory.wf_memWriteN rfl _ _⟩

theorem kept_bindGang (s : State) (base : Nat) (l : Launch) (h : Header) : Kept s (s.bindGang base l h) := by
  unfold State.bindGang
  refine Kept.trans ?_ (kept_reportTask _ base _ _)
  refine Kept.trans ?_ (kept_modLaunch _ _ _ _)
  refine Kept.trans ?_ (kept_withFreeCount _ _)
  exact Kept.foldl (fun s i => kept_bindCore s l h base (base + i) _) _ s

theorem kept_loadGang (s : State) (c : Nat) : Kept s (s.loadGang c) := by
  unfold State.loadGang
  simp only
  split
  · exact Kept.refl s
  · split
    · exact Kept.refl s
    · exact Kept.trans (Kept.foldl (fun s m => kept_loadCore s _ _ _ m _) _ s) (kept_withReqs _ _)

theorem outKept_dispatchBind (s : State) : OutKept s (execDispatchBind s) := by
  unfold execDispatchBind
  split
  · exact outKept_next (kept_loadGang s _)
  · split
    · exact outKept_next (Kept.refl s)
    · exact outKept_next (Kept.foldl (fun s m => kept_refuse s m _) _ s)
    · refine outKept_next (Kept.foldl (fun s x => ?_) _ s)
      simp only
      split
      · exact kept_bindGang s _ _ _
      · exact Kept.refl s

theorem outKept_gangAlign (s : State) : OutKept s (execGangAlign s) := by
  unfold execGangAlign
  simp only
  split
  · exact outKept_next (Kept.refl s)
  · split
    · exact outKept_next (Kept.refl s)
    · exact outKept_next ((kept_modGang s _ _ (by exact fun _ h => h)).trans (kept_reportTask _ _ _ _))

theorem outKept_abandonTask (s : State) : OutKept s (execAbandonTask s) := by
  unfold execAbandonTask
  simp only
  split
  · split
    · split
      · exact outKept_next (Kept.refl s)
      · exact outKept_next (kept_endTask s _ _ _)
    · exact outKept_next (Kept.refl s)
  · have h := Kept.foldl (fun s m => kept_modAt s m (fun k => { k with armed := false, hst := 0 }) (by exact fun _ h => h))
      (s.waitingGang s.cur.val) s
    split
    · exact outKept_next h
    · exact outKept_next (Kept.ite h ((h.trans (kept_faultLaunch _ _ _ 0)).trans (kept_settle _ _ _)))

/-! Phases. -/

theorem kept_endPhase (s : State) (l : Launch) : Kept s (s.endPhase l) := by
  unfold State.endPhase
  have h := (kept_reportTop s l.part l.lid .committed 1 0).trans (kept_boundary _)
  exact Kept.ite ((h.trans (kept_modLaunch _ _ _ _)).trans (kept_reportTop _ _ _ _ _ _)) (h.trans (kept_modLaunch _ _ _ _))

theorem outKept_phaseCommit (lid : W32) (s : State) : OutKept s (execPhaseCommit lid s) := by
  unfold execPhaseCommit
  split
  · exact outKept_next (Kept.refl s)
  · exact outKept_next (kept_endPhase s _)

end Sys2Proof.Machine
end

section
/-! PROOFS (O57). `Kept` of clocks, the governor, gating, sampling, errors, ports, the host and remote agents. -/

namespace Sys2Proof.Machine

/-! Control intervals and clocks. -/

/-- The governor with other credit, counters and requests: what firmware alone writes of it stands. -/
theorem kept_withGov (s : State) (g : Gov)
    (h : g.up = s.gov.up ∧ g.dn = s.gov.dn ∧ g.ctl = s.gov.ctl ∧ g.next = s.gov.next ∧ g.cap = s.gov.cap) :
    Kept s { s with gov := g } := by
  obtain ⟨hu, hd, hc, hn, hp⟩ := h
  refine Kept.of_eq ?_ rfl rfl
  simp only [State.firm, hu, hd, hc, hn, hp]

theorem outKept_controlInterval (s : State) : OutKept s (execControlInterval s) := outKept_next (Kept.of_eq rfl rfl rfl)

theorem outKept_droopStretch (q : BitVec 6) (s : State) : OutKept s (execDroopStretch q s) := outKept_next (kept_modQuad s _ _)

theorem outKept_droopEnd (q : BitVec 6) (s : State) : OutKept s (execDroopEnd q s) := outKept_next (kept_modQuad s _ _)

theorem outKept_vltCtlWrite (v : W64) (s : State) : OutKept s (execVltCtlWrite v s) :=
  outKept_next (kept_mod s _ fun _ h => Core.memOk_writeVlt h v)

/-! Gating. -/

theorem kept_acceptAll (s : State) (q : Nat) : Kept s (s.acceptAll q) := Kept.of_eq rfl rfl rfl

theorem kept_drainQuad (s : State) (q : Nat) : Kept s (s.drainQuad q) := by
  unfold State.drainQuad
  exact (Kept.foldl (fun s c => kept_dropLines s c _) _ s).trans (kept_modQuad _ q _)

theorem outKept_quadGateRequest (q : BitVec 6) (s : State) : OutKept s (execQuadGateRequest q s) := by
  have hd : ∀ t : State, ∀ f : Quad → Quad, Kept t (((t.acceptAll q.toNat).drainQuad q.toNat).modQuad q.toNat f) := fun t f =>
    ((kept_acceptAll t _).trans (kept_drainQuad _ _)).trans (kept_modQuad _ _ f)
  have hr : Kept s (s.modQuad q.toNat fun x => { x with gateReq := none }) := kept_modQuad s _ _
  unfold execQuadGateRequest
  simp only
  split
  · exact outKept_next (hd s _)
  · split
    · exact outKept_next (Kept.refl s)
    · split
      · exact outKept_next hr
      · split
        · exact outKept_next (hr.trans (kept_modQuad _ _ _))
        · exact outKept_next (hr.trans (hd _ _))

theorem outKept_quadDrainEnd (q : BitVec 6) (s : State) : OutKept s (execQuadDrainEnd q s) := by
  unfold execQuadDrainEnd
  simp only
  split
  · exact outKept_next (Kept.refl s)
  · exact outKept_next (kept_modQuad s _ _)

theorem Core.memOk_gate {k : Core} (h : k.memOk) (depth : Bool) : (k.gate depth).memOk := by
  cases depth
  · obtain ⟨h1, h2, h3, h4, h5, h6⟩ := Core.memOk_wiped h
    exact ⟨h1, h2, h3, h4, h5, h6⟩
  · exact h

theorem kept_gateQuad (s : State) (q : Nat) (depth : Bool) : Kept s (s.gateQuad q depth) := by
  unfold State.gateQuad
  exact (Kept.foldl (fun s c => kept_modAt s c _ fun _ h => Core.memOk_gate h depth) _ s).trans (kept_modQuad _ q _)

theorem outKept_quadGated (q : BitVec 6) (s : State) : OutKept s (execQuadGated q s) := by
  unfold execQuadGated
  simp only
  split
  · exact outKept_next (kept_gateQuad s _ _)
  · split
    · exact outKept_next (Kept.refl s)
    · exact outKept_next (kept_gateQuad s _ _)

theorem outKept_quadWakeRequest (q : BitVec 6) (s : State) : OutKept s (execQuadWakeRequest q s) := by
  unfold execQuadWakeRequest
  simp only
  split
  · exact outKept_next (Kept.refl s)
  · split
    · exact outKept_next (kept_modQuad s _ _)
    · split
      · exact outKept_next (Kept.refl s)
      · exact outKept_next ((kept_modQuad s _ _).trans (kept_withReqs _ _))

theorem Core.memOk_cleanAll {k : Core} (h : k.memOk) : k.cleanAll.memOk := by
  obtain ⟨h1, h2, h3, -, -, h6⟩ := Core.memOk_wiped h
  exact ⟨h1, h2, h3, rfl, rfl, h6⟩

theorem outKept_quadRiseDone (q : BitVec 6) (s : State) : OutKept s (execQuadRiseDone q s) := by
  unfold execQuadRiseDone
  simp only
  split
  · exact outKept_next (Kept.refl s)
  · refine outKept_next (Kept.trans (Kept.ite ?_ (Kept.refl s)) (kept_modQuad _ _ _))
    exact Kept.foldl (fun s c => kept_modAt s c _ fun _ h => Core.memOk_cleanAll h) _ s

theorem outKept_thermalTrip (q : BitVec 6) (s : State) : OutKept s (execThermalTrip q s) := by
  unfold execThermalTrip
  simp only
  split
  · exact outKept_next (Kept.refl s)
  · refine outKept_next (Kept.trans ?_ (kept_post _ _ _ _ _ _ _ _))
    refine Kept.trans ?_ (kept_withReqs _ _)
    refine Kept.trans ?_ (kept_modQuad _ _ _)
    have h := (Kept.foldl kept_loseGang (quadCores q.toNat) s).trans (kept_drainQuad _ q.toNat)
    exact Kept.ite (h.trans (kept_gateQuad _ _ _)) h

/-! The governor. -/

theorem kept_grant (s : State) (r : StartReq) : Kept s (s.grant r) := by
  unfold State.grant
  cases r with
  | gang =>
    refine Kept.trans (kept_withGov s _ ?_) (kept_modGang _ _ _ (by exact fun _ h => h))
    exact ⟨rfl, rfl, rfl, rfl, rfl⟩
  | wake =>
    refine Kept.trans (kept_withGov s _ ?_) (kept_modQuad _ _ _)
    exact ⟨rfl, rfl, rfl, rfl, rfl⟩

theorem kept_violate (s : State) (r : StartReq) : Kept s (s.violate r) := by
  unfold State.violate
  have h := kept_withGov s { s.gov with viol := satAdd48 s.gov.viol 1, reqs := s.gov.reqs.erase r } ⟨rfl, rfl, rfl, rfl, rfl⟩
  cases r with
  | wake => exact h
  | gang base =>
    refine Kept.trans ?_ (kept_post _ _ _ _ _ _ _ _)
    have hg := (h.trans (kept_reportTask _ base .faulted 0x16)).trans (kept_freeGang _ base)
    split
    · exact (hg.trans (kept_faultLaunch _ _ _ _)).trans (kept_settle _ _ _)
    · exact hg

theorem kept_servePinned (l : List StartReq) (s : State) : Kept s (servePinned l s) := by
  induction l generalizing s with
  | nil => exact Kept.refl s
  | cons r l ih => exact (Kept.ite (kept_grant s r) (kept_violate s r)).trans (ih _)

theorem kept_serveOthers (l : List StartReq) (s : State) : Kept s (serveOthers l s) := by
  induction l generalizing s with
  | nil => exact Kept.refl s
  | cons r l ih => exact Kept.ite ((kept_grant s r).trans (ih _)) (Kept.refl s)

theorem kept_grants (s : State) : Kept s s.grants := by
  unfold State.grants
  refine Kept.trans (Kept.trans (kept_withGov s _ ?_) (kept_servePinned _ _)) (kept_serveOthers _ _)
  exact ⟨rfl, rfl, rfl, rfl, rfl⟩

theorem kept_withQuads (s : State) (l : Vector Quad 48) : Kept s { s with quads := l } := Kept.of_eq rfl rfl rfl

theorem kept_balance (s : State) : Kept s s.balance := by
  unfold State.balance
  extract_lets
  refine Kept.trans (Kept.trans (kept_mapCores s _ ?_) (kept_withQuads _ _)) (kept_withGov _ _ ?_)
  · exact fun _ h => h
  · exact ⟨rfl, rfl, rfl, rfl, rfl⟩

theorem kept_samples (s : State) : Kept s s.samples := by
  unfold State.samples
  refine (kept_mapCores s _ fun k h => ?_).trans (kept_withAgenda _ _)
  split
  · exact h
  · exact h

theorem outKept_governorTick (s : State) : OutKept s (execGovernorTick s) := by
  unfold execGovernorTick
  refine outKept_next ((((kept_grants s).trans (kept_balance _)).trans (kept_samples _)).trans (kept_withGov _ _ ?_))
  exact ⟨rfl, rfl, rfl, rfl, rfl⟩

theorem outKept_pcsSample (s : State) : OutKept s (execPcsSample s) := by
  unfold execPcsSample
  simp only
  split
  · exact outKept_next (Kept.refl s)
  · exact outKept_next ((kept_ownFill s _ _ _ _).trans (kept_mod _ _ (by exact fun _ h => h)))

/-! Errors. -/

theorem kept_patrol (s : State) : Kept s s.patrol := by
  unfold State.patrol
  exact Kept.ite (Kept.refl s) (Kept.of_eq rfl rfl rfl)

theorem kept_charge (s : State) (p core ctx line : Nat) : Kept s (s.charge p core ctx line) := by
  unfold State.charge
  exact (kept_modPart s p Part.countUe fun _ => rfl).trans (kept_post _ _ _ _ _ _ _ _)

theorem kept_withPoison (s : State) (l : List Nat) : Kept s { s with poison := l } := Kept.of_eq rfl rfl rfl

theorem kept_withRas (s : State) (l m : List (Nat × Nat)) : Kept s { s with rasHits := l, rasRows := m } := Kept.of_eq rfl rfl rfl

theorem outKept_correctableError (p : CeSite) (a : BitVec 52) (s : State) : OutKept s (execCorrectableError p a s) := by
  have hp : ∀ (t : State) (p : Prop) [Decidable p] (q c l : Nat), Kept t (if p then t.post .correctable q c 0xFFFF 0 0 l else t) :=
    fun t _ _ q c l => Kept.ite (kept_post t _ _ _ _ _ _ _) (Kept.refl t)
  unfold execCorrectableError
  extract_lets t
  have ht : Kept s t := kept_patrol s
  split
  extract_lets u
  have hu : Kept s u := by
    unfold u
    split
    · exact ht.trans (kept_modPart t _ _ fun _ => rfl)
    · exact ht
  split
  split
  exact outKept_next (((hu.trans (kept_withRas u _ _)).trans (hp _ _ _ _ _)).trans (hp _ _ _ _ _))

theorem kept_homeError (s : State) (w : HomeWord) : Kept s (s.homeError w) := by
  unfold State.homeError
  extract_lets a store
  clear_value store
  split
  · exact Kept.refl s
  · have h := kept_withPoison s (insNat (s.normPa w.pa.toNat / 4) s.poison)
    split
    · exact h.trans (kept_charge _ _ _ _ _)
    · split
      · exact h.trans (kept_charge _ _ _ _ _)
      · exact h

theorem kept_copyError (s : State) (c line : Nat) : Kept s (s.copyError c line) := by
  unfold State.copyError
  extract_lets k drop
  have h : Kept s (s.modAt c fun k => { k with
      l1d := k.l1d.filter fun x => x.pa != line, vc := k.vc.filter fun x => x.pa != line
      upd := k.upd.filter fun u => u.pa / 128 != line }) := kept_modAt s c _ (by exact fun _ h => h)
  split
  · exact h
  · exact Kept.ite ((h.trans (kept_withPoison _ _)).trans (kept_charge _ _ _ _ _)) h

theorem outKept_uncorrectableError (w : ErrorSite) (s : State) : OutKept s (execUncorrectableError w s) := by
  have hl : ∀ c, Kept s ((s.loseGang c).modAt c fun k => { k with fenced := true }) := fun c =>
    (kept_loseGang s c).trans (kept_modAt _ c _ (by exact fun _ h => h))
  unfold execUncorrectableError
  cases w with
  | home w => exact outKept_next (kept_homeError s w)
  | privateLine pa => exact outKept_next (kept_copyError s _ _)
  | coreStore => exact outKept_next (hl _)
  | coreReg =>
    simp only
    split
    · exact outKept_next (Kept.refl s)
    · exact outKept_next (hl _)
  | quadShared => exact outKept_next (Kept.foldl kept_loseGang _ s)

theorem outKept_patrolScrub (w : HomeWord) (s : State) : OutKept s (execPatrolScrub w s) :=
  outKept_next ((kept_patrol s).trans (kept_homeError _ w))

/-! Ports. -/

theorem kept_modPort (s : State) (pt : Nat) (f : Port → Port) : Kept s (s.modPort pt f) := Kept.of_eq rfl rfl rfl

theorem kept_delayPod (s : State) (c t : Nat) : Kept s (s.delayPod c t) := Kept.of_eq rfl rfl rfl

theorem kept_seeLink (s : State) (pt c : Nat) : Kept s (s.seeLink pt c) := by
  unfold State.seeLink
  exact kept_modGang s c _ (by exact fun _ h => h)

theorem outKept_linkRetrain (pt : BitVec 5) (d : Nat) (s : State) : OutKept s (execLinkRetrain pt d s) := by
  unfold execLinkRetrain
  exact outKept_next ((((kept_modPort s _ _).trans (kept_modCtx _ _ (by exact fun _ h => h))).trans (kept_delayPod _ _ _)).trans
    (kept_seeLink _ _ _))

theorem outKept_linkDown (pt : BitVec 5) (s : State) : OutKept s (execLinkDown pt s) := by
  unfold execLinkDown
  split
  · exact outKept_next ((kept_modPort s _ _).trans (kept_post _ _ _ _ _ _ _ _))
  · exact outKept_next (Kept.refl s)

/-! The host and remote agents. -/

theorem kept_withHost (s : State) (b : List Byte) (e : Bool) : Kept s { s with hostOut := b, hostErr := e } := Kept.of_eq rfl rfl rfl

theorem kept_withHostErr (s : State) (e : Bool) : Kept s { s with hostErr := e } := Kept.of_eq rfl rfl rfl

theorem kept_nackRange (s : State) (pa n : Nat) : Kept s (s.nackRange pa n) := by
  unfold State.nackRange
  exact Kept.foldl kept_nack _ s

theorem kept_agentWrite (s : State) (p pa : Nat) (b : List Byte) : Kept s (s.agentWrite p pa b) := by
  unfold State.agentWrite
  exact (kept_nackRange s pa b.length).trans (Kept.foldl (fun s l => kept_homeWrite s p _ _) _ _)

theorem kept_agentRead (s : State) (p pa n : Nat) (ok : Bool) : Kept s (s.agentRead p pa n ok) := by
  unfold State.agentRead
  split
  · exact (Kept.foldl (fun s l => kept_homeTouch s p _ _) _ s).trans (kept_withHost _ _ _)
  · have h : Kept s (if ok = true then s.nackRange pa n else s) := Kept.ite (kept_nackRange s pa n) (Kept.refl s)
    exact (h.trans (kept_freeBytes _ n)).trans (kept_withHost _ _ _)

theorem kept_writeDrop (s : State) (p : Nat) (v : W32) : Kept s (s.writeDrop p v) := kept_modPart s p _ fun _ => rfl

theorem outKept_rhousAccess (x : HostAccess) (s : State) (h : x ≠ .warm) : OutKept s (execRhousAccess x s) := by
  unfold execRhousAccess
  cases x with
  | warm => exact absurd rfl h
  | mailWrite k v => exact outKept_next (Kept.of_eq rfl rfl rfl)
  | mailRead k => exact outKept_next (kept_withHost s _ _)
  | doorbell => exact outKept_next (Kept.of_eq rfl rfl rfl)
  | headWrite p v => exact outKept_next (Kept.ite (Kept.refl s) (kept_writeHead s _ v))
  | dropWrite p v => exact outKept_next (Kept.ite (Kept.refl s) (kept_writeDrop s _ v))
  | intakeRead p k => exact outKept_next (Kept.ite (Kept.refl s) (kept_withHost s _ _))
  | memWrite pa b =>
    exact outKept_next (Kept.ite (Kept.refl s) (Kept.ite (kept_agentWrite s _ _ b) (Kept.refl s)))
  | memRead pa n =>
    exact outKept_next (Kept.ite (Kept.refl s) (Kept.ite (kept_withHost s _ _) (kept_agentRead s _ _ n _)))

theorem kept_remote (s : State) (x : RemoteAccess) (ok : Nat → Nat → Nat → Bool) : Kept s (s.remote x ok) := by
  unfold State.remote
  cases x with
  | write p pa b => exact Kept.ite (kept_withHostErr s _) ((kept_agentWrite s _ _ b).trans (kept_withHostErr _ _))
  | read p pa n => exact Kept.ite (kept_agentRead s _ _ n _) (kept_withHost s _ _)
  | head p v => exact (kept_writeHead s _ v).trans (kept_withHostErr _ _)

theorem outKept_podRequest (x : RemoteAccess) (s : State) : OutKept s (execPodRequest x s) :=
  outKept_next (Kept.ite (kept_withHostErr s _) (kept_remote s x _))

theorem outKept_ultraEthernetRequest (x : PortRequest) (s : State) : OutKept s (execUltraEthernetRequest x s) :=
  outKept_next (Kept.ite (kept_withHostErr s _) (kept_remote s _ _))

end Sys2Proof.Machine
end

section
/-! PROOFS (O57). The canonical form through what firmware and resets alone do: there only the memories are followed. -/

namespace Sys2Proof.Machine

/-- Every next state is canonical where the state before is. -/
def OutCanon (s : State) (o : Out) : Prop := ∀ t, o = .next t → s.canon → t.canon

theorem OutKept.outCanon {s : State} {o : Out} (h : OutKept s o) : OutCanon s o := fun t ht => (h t ht).canon

theorem outCanon_next {s t : State} (h : s.canon → t.canon) : OutCanon s (.next t) := by
  rintro u ⟨⟩
  exact h

theorem OutCanon.of_canon {s t : State} {o : Out} (h : s.canon → t.canon) (k : OutCanon t o) : OutCanon s o :=
  fun u hu hs => k u hu (h hs)

/-- Where no memory differs. -/
theorem State.canon_of_eq {s t : State} (hg : t.gmem = s.gmem) (hc : t.cores = s.cores) (h : s.canon) : t.canon :=
  ⟨hg ▸ h.1, fun c => by
    have := h.2 c
    simp only [State.at, hc] at this ⊢
    exact this⟩

theorem canon_modPart (s : State) (p : Nat) (f : Part → Part) (h : s.canon) : (s.modPart p f).canon :=
  State.canon_of_eq (State.modPart_gmem s p f) (State.modPart_cores s p f) h

/-! Partitions. -/

theorem outCanon_partitionEnable (p : BitVec 4) (s : State) : OutCanon s (execPartitionEnable p s) := by
  unfold execPartitionEnable
  split
  · exact outCanon_next (canon_modPart s _ _)
  · exact outCanon_next id

theorem kept_abandonAt (s : State) (p c : Nat) : Kept s (s.abandonAt p c) := by
  unfold State.abandonAt
  split
  · exact Kept.ite (kept_endTask s c _ _) (Kept.refl s)
  · exact Kept.refl s

theorem outCanon_partitionReset (p : BitVec 4) (s : State) : OutCanon s (execPartitionReset p s) := by
  unfold execPartitionReset
  extract_lets P t cs u
  split
  · exact outCanon_next id
  · have hu : Kept t u := Kept.foldl (fun s c => kept_abandonAt s _ c) cs t
    have hv := hu.trans (Kept.foldl (fun s c => kept_modAt s c (fun k => { k with armed := false, hst := 0 }) (by exact fun _ h => h)) cs u)
    exact outCanon_next fun h => hv.canon (canon_modPart s _ _ h)

theorem kept_cleanShares (s : State) (p : Nat) : Kept s (s.cleanShares p) := by
  unfold State.cleanShares
  refine Kept.then_eq (Kept.foldl (fun s c => ?_) (List.range 192) s) rfl rfl rfl
  exact Kept.ite (kept_dropLines s c _) (kept_flushLines s c _)

theorem kept_cleanCore (s : State) (c : Nat) : Kept s (s.cleanCore c) := by
  unfold State.cleanCore
  exact Kept.ite (kept_modAt s c _ fun _ h => Core.memOk_cleanAll h) (kept_modQuad s _ _)

theorem outCanon_partitionResetDone (p : BitVec 4) (s : State) : OutCanon s (execPartitionResetDone p s) := by
  unfold execPartitionResetDone
  split
  · exact outCanon_next id
  · have h := (kept_cleanShares s p.toNat).trans
      (Kept.foldl (fun s c => kept_cleanCore s c) ((s.cleanShares p.toNat).partCores p.toNat) (s.cleanShares p.toNat))
    exact outCanon_next fun hs => (kept_post _ _ _ _ _ _ _ _).canon (canon_modPart _ _ _ (h.canon hs))

/-! Resets. -/

theorem canon_reset (s : State) (cold : Bool) : (s.kept cold).canon := by
  refine ⟨rfl, fun c => ?_⟩
  unfold State.at
  split
  · simp only [State.kept, Vector.getElem_ofFn]
    exact Core.memOk_reset c
  · exact Core.memOk_reset c

theorem canon_bringUp (s : State) (h : s.canon) : s.bringUp.canon := by
  unfold State.bringUp
  split
  · exact h
  · refine ⟨h.1, fun c => ?_⟩
    have hk := h.2 c
    unfold State.at at hk ⊢
    split
    · rename_i hlt
      rw [dif_pos hlt] at hk
      simp only [Vector.getElem_mapIdx]
      exact hk
    · exact Core.memOk_reset c

theorem outCanon_warmReset (s : State) : OutCanon s (execWarmReset s) := outCanon_next fun _ => canon_bringUp _ (canon_reset s false)

theorem outCanon_coldReset (s : State) : OutCanon s (execColdReset s) := outCanon_next fun _ => canon_bringUp _ (canon_reset s true)

theorem outCanon_rhousAccess (x : HostAccess) (s : State) : OutCanon s (execRhousAccess x s) := by
  by_cases h : x = .warm
  · subst h
    exact outCanon_warmReset s
  · exact (outKept_rhousAccess x s h).outCanon

/-! The governor's settings, keys and flash. -/

theorem outCanon_lsgEnvUpWrite (v : W64) (s : State) : OutCanon s (execLsgEnvUpWrite v s) := outCanon_next id

theorem outCanon_lsgCtlWrite (v : W64) (s : State) : OutCanon s (execLsgCtlWrite v s) := outCanon_next id

theorem outCanon_repeatableModeApply (s : State) : OutCanon s (execRepeatableModeApply s) := by
  unfold execRepeatableModeApply
  split
  · exact outCanon_next id
  · split
    · exact outCanon_next id
    · exact outCanon_next id

theorem canon_useIndices (s : State) (n : Nat) (h : s.canon) : (s.useIndices n).canon := by
  unfold State.useIndices
  extract_lets t
  have ht : t.canon := h
  split
  · exact (kept_post t _ _ _ _ _ _ _).canon ht
  · exact ht

theorem canon_withQuote (s : State) (b : List Byte) (e : Bool) (h : s.canon) : { s with quote := b, quoteExh := e }.canon := h

theorem canon_withRecords (s : State) (l : List ConfigRecord) (h : s.canon) : { s with records := l }.canon := h

theorem outCanon_attestationQuote (nonce : BitVec 256) (s : State) : OutCanon s (execAttestationQuote nonce s) := by
  unfold execAttestationQuote
  extract_lets n body
  split
  · exact outCanon_next id
  · exact outCanon_next fun h => canon_withQuote _ _ _ (canon_useIndices s 1 h)

theorem outCanon_fwMinVersionRaise (v : RaiseRequest) (s : State) : OutCanon s (execFwMinVersionRaise v s) := by
  unfold execFwMinVersionRaise
  split
  · exact outCanon_next id
  · exact outCanon_next id

theorem outCanon_configRecordWrite (r : ConfigRecord) (s : State) : OutCanon s (execConfigRecordWrite r s) := by
  unfold execConfigRecordWrite
  split
  split
  · exact outCanon_next id
  · exact outCanon_next fun h => canon_withRecords _ _ (canon_useIndices s _ h)

/-! Writes of registers. -/

theorem outCanon_writePrtCfg (s : State) (p : BitVec 4) (v : W64) : OutCanon s (s.writePrtCfg p v) := by
  unfold State.writePrtCfg
  extract_lets en t
  have ht : s.canon → t.canon := canon_modPart s _ _
  split
  · split
    · exact (outCanon_partitionReset p t).of_canon ht
    · exact outCanon_next ht
  · split
    · exact (outCanon_partitionEnable p t).of_canon ht
    · exact outCanon_next ht

theorem canon_writeShare (s : State) (p : Nat) (f : Part → Part) (h : s.canon) : (s.writeShare p f).canon := canon_modPart s p _ h

theorem kept_postSelfTest (s : State) : Kept s s.postSelfTest := by
  unfold State.postSelfTest
  exact Kept.trans (t := { s with selfFail := [] }) (Kept.of_eq rfl rfl rfl) (Kept.foldl (fun s c => kept_post s _ _ _ _ _ _ _) _ _)

theorem canon_withEvq (s : State) (v : W64) (h : s.canon) : { s with mgtEvq := v }.canon := h

theorem canon_withScrub (s : State) (v : W16) (h : s.canon) : { s with rasScrub := v }.canon := h

theorem canon_writeEvq (s : State) (v : W64) (h : s.canon) : (s.writeEvq v).canon := by
  unfold State.writeEvq
  exact (kept_postSelfTest _).canon (canon_withEvq s _ h)

theorem outCanon_writePart (s : State) (n : Nat) (v : W64) : OutCanon s (s.writePart n v) := by
  unfold State.writePart
  extract_lets me
  split
  · exact outCanon_writePrtCfg s _ v
  · split
    · exact outCanon_next (canon_writeShare s _ _)
    · split
      · exact outCanon_next (canon_writeShare s _ _)
      · split
        · exact outCanon_next (canon_writeEvq s v)
        · split
          · exact outCanon_warmReset s
          · exact outCanon_next id
        · exact outCanon_next (canon_modPart s _ _)
        · exact outCanon_next (canon_modPart s _ _)
        · exact outCanon_next fun h => canon_withScrub _ _ ((kept_patrol s).canon h)
        · exact outCanon_next id
        · exact outCanon_next id

theorem outKept_writeStatus (s : State) (v : W64) : OutKept s (s.writeStatus v) := by
  unfold State.writeStatus
  extract_lets t
  have ht : Kept s t := Kept.ite (kept_mod s _ (by exact fun _ h => h)) (Kept.refl s)
  split
  · exact OutKept.of_kept ht (outKept_prvEnter t)
  · exact outKept_next ht

theorem outCanon_writeSys (s : State) (n : Nat) (v : W64) : OutCanon s (s.writeSys n v) := by
  unfold State.writeSys
  split
  · exact outCanon_writePart s n v
  · split
    · exact (outKept_writeStatus s v).outCanon
    · split
      · exact (outKept_preemptRequest s).outCanon
      · exact outCanon_next id
    · exact outCanon_next (kept_mod s _ (by exact fun _ h => h)).canon
    · exact outCanon_next id
    · exact outCanon_next id
    · exact outCanon_next id
    · exact outCanon_next id
    · exact outCanon_next id
    · exact outCanon_next (kept_sysWrite s _ _ _ _).canon

theorem outKept_writeRecord (s : State) (k : Nat) (v : W64) : OutKept s (s.writeRecord k v) := by
  unfold State.writeRecord
  split
  · exact outKept_next (Kept.refl s)
  · extract_lets r
    split
    · exact outKept_bindRecordArm r s
    · exact outKept_next (kept_mod s _ (by exact fun _ h => h))

theorem outCanon_registerWrite (r : RegId) (v : W64) (s : State) : OutCanon s (execRegisterWrite r v s) := by
  cases r with
  | sys n => exact outCanon_writeSys s _ v
  | lncRing p => exact outCanon_next (canon_modPart s _ _)
  | lncDrop p => exact outCanon_next (canon_modPart s _ _)
  | mail k => exact outCanon_next id
  | record k => exact (outKept_writeRecord s _ v).outCanon
  | uePart k => exact outCanon_next id

end Sys2Proof.Machine
end

section
/-! PROOFS (O57). Every instruction and every event keeps the canonical form: those of a program and of the hardware by `Kept`,
those of firmware and the resets by what they do to the memories. -/

namespace Sys2Proof.Machine
open Sys2Proof.Claims

/-- With no unfolding, for the elaborator would else evaluate `tryContexts`, whose fold over the grid's ports is long. -/
theorem outKept_gridContextExecute (s : State) : OutKept s (execGridContextExecute s) := by
  unfold execGridContextExecute
  exact outKept_finish_self (by with_unfolding_none exact tryKept_contexts s)

/-- What neither comes from firmware's own port nor resets keeps what only these change, and every memory canonical. -/
theorem outKept_exec (i : Instr) (s : State) (h : byFirmware i = false) : OutKept s (exec i s) := by
  cases i with
  | cpNop | wait | untilStamp => exact outKept_next (kept_issued s _ _ _)
  | cpAdd | cpSub | cpMul | cpMulh | cpAnd | cpOr | cpXor | cpAndn | cpShl | cpShr | cpSar | cpMin | cpMax | cpAddi | cpAndi
  | cpOri | cpXori | cpShli | cpShri | cpSari | cpLim | cpLimx | cpCeq | cpCne | cpClt | cpCle | cpCltu | cpCleu | cpCeqi
  | cpClti | cpSel | cpRdlcc | cpRdwtc | cpRdhdc | cpRdflag => exact outKept_next (kept_result s _ _ _)
  | cpPut | cpClrflag => exact outKept_next ((kept_issued s 0 1 _).trans (kept_modCtx _ _ (by exact fun _ h => h)))
  | cpSpill => exact outKept_finish_self (tryKept_spill _ _ _ s)
  | cpFill => exact outKept_finish_self (tryKept_fill _ _ s)
  | cpLd8 | cpLd8s | cpLd16 | cpLd16s | cpLd32 | cpLd32s | cpLd64 => exact outKept_finish_self (tryKept_load _ _ _ _ _ s)
  | cpLdt64 => exact outKept_finish_self (tryKept_ldt64 _ _ _ _ s)
  | cpSt8 | cpSt16 | cpSt32 | cpSt64 => exact outKept_finish_self (tryKept_store _ _ _ _ _ s)
  | cpTagw => exact outKept_finish_self (tryKept_tagw _ _ _ s)
  | cpTagr => exact outKept_finish_self (tryKept_tagr _ _ s)
  | cpNld64 => exact outKept_finish_self (tryKept_nld64 _ _ _ s)
  | cpNst64 => exact outKept_finish_self (tryKept_nst64 _ _ _ _ s)
  | cpBr => exact outKept_next (kept_branch s _ _)
  | cpBz | cpBnz => exact outKept_next (kept_branchIf s _ _ _)
  | cpBrx => exact outKept_finish_self (tryKept_brx _ _ s)
  | cpCall => exact outKept_finish_self (tryKept_call _ _ s)
  | cpCallx => exact outKept_finish_self (tryKept_callx _ _ s)
  | cpRet => exact outKept_finish_self (tryKept_ret _ s)
  | cpLoop => exact outKept_finish_self (tryKept_loop _ _ _ _ s)
  | ldBase | ldDim | ldFmt | ldTag | ldRate => exact outKept_next (kept_ldStage s _ _)
  | ldStart | ldStartTimed => exact outKept_finish_self (tryKept_ldStart _ s)
  | ldStop => exact outKept_next (kept_issued_setLd s _ _ _)
  | stBase | stDim | stFmt | stTag | stRate => exact outKept_next (kept_stStage s _ _)
  | stStart | stStartTimed => exact outKept_finish_self (tryKept_stStart _ s)
  | stStop => exact outKept_next (kept_issued_setSt s _ _ _)
  | grCfg => exact outKept_finish_self (tryKept_grCfg _ _ s)
  | grConst => exact outKept_finish_self (tryKept_grConst _ _ _ _ s)
  | grStart => exact outKept_finish_self (tryKept_grStart _ s)
  | grStop => exact outKept_grStop _ s
  | grVadd | grVsub | grVmul | grVmin | grVmax | grVand | grVor | grVxor | grVsadd | grVcmp | grVfma | grVsel | grVabs
  | grVneg | grVrcp | grVrsqrt | grVexp2 | grVlog2 | grVtanh => exact outKept_finish_self (tryKept_map _ _ _ _ _ _ _ s)
  | grVsum | grVscan | grVfill | grVcvt | grVdot => exact outKept_finish_self (tryKept_pass _ _ _ _ s)
  | grVnqenc => exact outKept_finish_self (tryKept_nqenc _ _ _ _ _ s)
  | grChain => exact outKept_grChain _ _ _ _ _ _ s
  | cfLdst => exact outKept_finish_self (tryKept_ldst _ _ _ s)
  | cfFwd | cfRpl | cfGrd | cfApl | cfSwp | cfNul => exact outKept_finish_self (tryKept_front _ _ _ _ _ _ _ s)
  | cfMode | cfEta | cfFade | cfFmt | cfClra | cfHsel | cfHclr => exact outKept_next (kept_arrWord s _ _)
  | cfDrain => exact outKept_finish_self (tryKept_drain _ _ _ _ s)
  | cfHread => exact outKept_finish_self (tryKept_hread _ _ s)
  | btCopy | btOvl => exact outKept_finish_self (tryKept_copy _ _ _ _ s)
  | btPref | btPrefTimed => exact outKept_finish_self (tryKept_pref _ _ _ s)
  | btNmc => exact outKept_finish_self (tryKept_nmc _ _ s)
  | btNmfence => exact outKept_finish_self (tryKept_nmfence _ _ _ s)
  | btPin => exact outKept_finish_self (tryKept_pin _ _ _ _ s)
  | btUnpin => exact outKept_finish_self (tryKept_unpin _ _ s)
  | btEchk => exact outKept_btEchk _ _ s
  | syBar => exact outKept_finish_self (tryKept_bar _ _ s)
  | syArrive => exact outKept_finish_self (tryKept_arrive _ _ _ s)
  | syAwait => exact outKept_finish_self (tryKept_await _ _ _ s)
  | syBind => exact outKept_finish_self (tryKept_bind _ _ _ _ s)
  | syRel => exact outKept_finish_self (tryKept_rel _ _ _ s)
  | syAcq => exact outKept_finish_self (tryKept_acq _ _ _ _ s)
  | syFence => exact outKept_finish_self (tryKept_fence _ _ s)
  | syAtom => exact outKept_finish_self (tryKept_atom _ _ _ _ _ s)
  | syAtomx => exact outKept_finish_self (tryKept_atomx _ _ _ _ _ _ _ _ s)
  | syBatch => exact outKept_finish_self (tryKept_batch _ _ _ s)
  | sySafe => exact outKept_finish_self (tryKept_safe _ _ _ s)
  | syTrap => exact outKept_syTrap _ _ s
  | sySyscall => exact outKept_sySyscall _ _ s
  | syEnd => exact outKept_syEnd _ s
  | syResume => exact outKept_finish_self (tryKept_resume _ s)
  | syMfsr => exact outKept_finish_self (tryKept_mfsr _ _ _ s)
  | syMtsr => exact outKept_finish_self (tryKept_mtsr _ _ _ s)
  | syTlbi => exact outKept_finish_self (tryKept_tlbi _ _ _ s)
  | syAsave | syArest | syGsave | syGrest => exact outKept_finish_self (tryKept_save _ _ _ s)
  | syHalt => exact outKept_syHalt _ s
  | split => exact outKept_finish_self (tryKept_split s)
  | streamBeatRead => exact outKept_finish_self (tryKept_beatRead s)
  | streamBeatDeliver => exact outKept_finish_self (tryKept_beatDeliver s)
  | copyChunkRead => exact outKept_finish_self (tryKept_chunkRead s)
  | copyChunkLand => exact outKept_finish_self (tryKept_chunkLand s)
  | gridContextExecute => exact outKept_gridContextExecute s
  | gridResultLand => exact outKept_finish_self (tryKept_resultLand s)
  | frontCellStep => exact outKept_finish_self (tryKept_frontStep s)
  | drainPresent => exact outKept_finish_self (tryKept_present s)
  | cpResultDrop => exact outKept_cpResultDrop s
  | cpStoreLand => exact outKept_cpStoreLand s
  | holdEnd => exact outKept_holdEnd s
  | holdTimeout => exact outKept_holdTimeout s
  | safeGapFault => exact outKept_safeGapFault s
  | storeBeatLand => exact outKept_storeBeatLand s
  | gridCfgDone => exact outKept_gridCfgDone s
  | sinkFinish => exact outKept_sinkFinish s
  | gridDone => exact outKept_gridDone s
  | passStepRead => exact outKept_passStepRead s
  | passStepWrite => exact outKept_passStepWrite s
  | returnRegisterReplace => exact outKept_returnRegisterReplace s
  | ldstRowWrite => exact outKept_ldstRowWrite s
  | drainRowWrite => exact outKept_drainRowWrite s
  | hreadLand => exact outKept_hreadLand s
  | barrierComplete => exact outKept_barrierComplete s
  | acquireComplete => exact outKept_acquireComplete s
  | fenceComplete => exact outKept_fenceComplete s
  | pageWalk => exact outKept_pageWalk s
  | handlerEntry => exact outKept_handlerEntry s
  | prvEnter => exact outKept_prvEnter s
  | prvHltClear => exact outKept_prvHltClear s
  | preemptRequest => exact outKept_preemptRequest s
  | preemptPending => exact outKept_preemptPending s
  | preemptHoldStop => exact outKept_preemptHoldStop s
  | taskCommit => exact outKept_taskCommit s
  | dispatchBind => exact outKept_dispatchBind s
  | gangAlign => exact outKept_gangAlign s
  | governorTick => exact outKept_governorTick s
  | controlInterval => exact outKept_controlInterval s
  | pcsSample => exact outKept_pcsSample s
  | abandonTask => exact outKept_abandonTask s
  | tlbiComplete => exact outKept_tlbiComplete s
  | saveRestoreComplete => exact outKept_saveRestoreComplete s
  | neighbourLoadRead => exact outKept_neighbourLoadRead s
  | mfsrWrite => exact outKept_mfsrWrite s
  | hbmCopyLand => exact outKept_hbmCopyLand _ s
  | releaseIncrement => exact outKept_releaseIncrement _ s
  | atomxApply => exact outKept_atomxApply _ s
  | atomxResultLand => exact outKept_atomxResultLand _ s
  | nmJobAccept => exact outKept_nmJobAccept _ s
  | nmJobComplete => exact outKept_nmJobComplete _ s
  | phaseCommit => exact outKept_phaseCommit _ s
  | launchIntake => exact outKept_launchIntake _ s
  | bindRecordArm => exact outKept_bindRecordArm _ s
  | droopStretch => exact outKept_droopStretch _ s
  | droopEnd => exact outKept_droopEnd _ s
  | thermalTrip => exact outKept_thermalTrip _ s
  | quadGateRequest => exact outKept_quadGateRequest _ s
  | quadDrainEnd => exact outKept_quadDrainEnd _ s
  | quadGated => exact outKept_quadGated _ s
  | quadWakeRequest => exact outKept_quadWakeRequest _ s
  | quadRiseDone => exact outKept_quadRiseDone _ s
  | targetGatedNack => exact outKept_targetGatedNack _ s
  | vltCtlWrite => exact outKept_vltCtlWrite _ s
  | uncorrectableError => exact outKept_uncorrectableError _ s
  | patrolScrub => exact outKept_patrolScrub _ s
  | linkDown => exact outKept_linkDown _ s
  | podRequest => exact outKept_podRequest _ s
  | ultraEthernetRequest => exact outKept_ultraEthernetRequest _ s
  | globalBeatLate => exact outKept_globalBeatLate _ _ s
  | correctableError => exact outKept_correctableError _ _ s
  | linkRetrain => exact outKept_linkRetrain _ _ s
  | lncHeadWrite => exact outKept_next (kept_writeHead s _ _)
  | rhousAccess x =>
    refine outKept_rhousAccess x s fun e => ?_
    subst e
    cases h
  | registerWrite | partitionEnable | partitionReset | partitionResetDone | lsgEnvUpWrite | lsgCtlWrite
  | repeatableModeApply | attestationQuote | fwMinVersionRaise | configRecordWrite | warmReset | coldReset => cases h

theorem outCanon_exec (i : Instr) (s : State) : OutCanon s (exec i s) := by
  cases i with
  | registerWrite r v => exact outCanon_registerWrite r v s
  | partitionEnable p => exact outCanon_partitionEnable p s
  | partitionReset p => exact outCanon_partitionReset p s
  | partitionResetDone p => exact outCanon_partitionResetDone p s
  | lsgEnvUpWrite v => exact outCanon_lsgEnvUpWrite v s
  | lsgCtlWrite v => exact outCanon_lsgCtlWrite v s
  | repeatableModeApply => exact outCanon_repeatableModeApply s
  | attestationQuote nonce => exact outCanon_attestationQuote nonce s
  | fwMinVersionRaise v => exact outCanon_fwMinVersionRaise v s
  | configRecordWrite r => exact outCanon_configRecordWrite r s
  | warmReset => exact outCanon_warmReset s
  | coldReset => exact outCanon_coldReset s
  | rhousAccess x => exact outCanon_rhousAccess x s
  | _ => exact (outKept_exec _ s rfl).outCanon

end Sys2Proof.Machine
end

section
/-! PROOFS (O57). The canonical form through one step of the machine: the acts of a cycle, its test, its end, and what comes
outside cycles. -/

namespace Sys2Proof.Machine

theorem kept_withCur (s : State) (c : Fin 192) : Kept s { s with cur := c } := Kept.of_eq rfl rfl rfl

theorem kept_withStops (s : State) (c : Fin 192) (k : Option Stop) (m : Bool) :
    Kept s { s with cur := c, lastStop := k, moreStops := m } := Kept.of_eq rfl rfl rfl

/-! Acts. -/

theorem outCanon_issueHead (s : State) (e : Nat) : OutCanon s (issueHead s e) := by
  unfold issueHead
  split
  · exact outCanon_exec _ s
  · next a _ => exact (outKept_next (kept_takeStop s (bareStop s e 1 .scheduleMiss a) [] false 0xFFFF#16 none)).outCanon
  · rintro t ⟨⟩

theorem outCanon_runAct (s : State) (a : Fin 192 × Act) : OutCanon s (runAct s a) := by
  refine OutCanon.of_canon (kept_withCur s a.1).canon ?_
  unfold runAct
  dsimp only
  split
  · exact outCanon_issueHead _ _
  · exact outCanon_exec _ _
  · exact outCanon_next id
  · exact outCanon_next id

/-! The test of a cycle. -/

theorem outCanon_stopAct (s : State) (k : Stop) (a : Fin 192 × Act) : OutCanon s (stopAct s k a) := by
  unfold stopAct
  extract_lets own
  have hown : s.canon → own.canon := ((kept_withCur s a.1).trans (kept_takeStop _ k _ _ _ _)).canon
  split
  · rename_i t ht
    refine outCanon_next fun h => ?_
    split
    · exact outCanon_runAct s a t ht h
    · exact hown h
  · exact outCanon_next hown
  · exact outCanon_next hown

theorem canon_runHolds (l : List (List HoldCause × (Fin 192 × Act))) (s : State) (h : s.canon) : (runHolds s l).canon := by
  induction l generalizing s with
  | nil => exact h
  | cons x r ih =>
    obtain ⟨l, a⟩ := x
    have hc := (kept_withCur s a.1).canon h
    unfold runHolds
    extract_lets own
    have hown : own.canon := (Kept.foldl kept_addHold l _).canon hc
    split
    · rename_i t ht
      refine ih _ ?_
      split
      · exact outCanon_runAct _ a t ht hc
      · exact hown
    · exact ih own hown
    · exact ih own hown

theorem outCanon_checkCycle (s : State) (c : Fin 192) : OutCanon s (checkCycle s c) := by
  unfold checkCycle
  extract_lets u acts t
  have hu : Kept s u := kept_withStops s c none false
  refine OutCanon.of_canon hu.canon ?_
  clear_value u t
  split
  · extract_lets others
    exact (outCanon_stopAct _ _ _).of_canon (Kept.of_eq rfl rfl rfl : Kept u { u with moreStops := others }).canon
  · split
    · exact outCanon_next ((kept_modGang u c.val Core.fresh (by exact fun _ h => h)).trans (kept_withAgenda _ _)).canon
    · exact outCanon_next (canon_runHolds _ u)

/-! The end of a cycle. -/

theorem kept_paceCopies (s : State) (m : Nat) : Kept s (s.paceCopies m) := Kept.of_eq rfl rfl rfl

theorem Core.memOk_closeCycle {k : Core} (h : k.memOk) (period : Nat) : (k.closeCycle period).memOk := h

theorem Core.memOk_count {k : Core} (h : k.memOk) : k.count.memOk := by
  unfold Core.count
  split
  · exact h
  · exact h

theorem outKept_advanceCycle (s : State) (c : Fin 192) : OutKept s (advanceCycle s c) := by
  unfold advanceCycle
  extract_lets s0 ms s1 s2 s3
  have h1 : Kept s s1 := Kept.trans (t := s0) (Kept.of_eq rfl rfl rfl)
    (Kept.foldl (fun s m => (kept_landMtsrs s m).trans (kept_paceCopies _ m)) ms s0)
  have h2 : Kept s s2 := h1.trans (Kept.foldl (fun s m => kept_modAt s m _ fun _ h => Core.memOk_closeCycle h _) ms s1)
  have h3 : Kept s s3 := h2.trans (kept_modQuad s2 _ _)
  clear_value s3
  split
  · exact outKept_next (h3.trans (kept_modGang s3 _ _ fun _ h => Core.memOk_count h))
  · split
    refine outKept_next (h3.trans (Kept.trans (t := { s3 with moreStops := _ }) ?_ (kept_takeStop _ _ _ _ _ _)))
    exact Kept.of_eq rfl rfl rfl

theorem outCanon_doAct (s : State) (a : Fin 192 × Act) : OutCanon s (doAct s a) := by
  unfold doAct
  split
  · exact outCanon_checkCycle s _
  · exact (outKept_advanceCycle s _).outCanon
  · exact outCanon_runAct s a
  · exact outCanon_runAct s a

/-! What comes where no act is due. -/

theorem Core.memOk_heldTime {k : Core} (h : k.memOk) (d : Nat) : (k.heldTime d).memOk := h

theorem kept_startCycle (s : State) (c : Nat) : Kept s (startCycle s c) := by
  unfold startCycle
  dsimp only
  split
  · exact Kept.foldl (fun s m => (kept_paceCopies s m).trans (kept_modAt _ m _ fun _ h => Core.memOk_heldTime h _)) _ s
  · exact kept_withAgenda s _

theorem kept_pass (s : State) : Kept s s.pass := by
  unfold State.pass
  exact Kept.ite (kept_putReps s) (Kept.of_eq rfl rfl rfl)

theorem outCanon_presentWork (s : State) (o : Out) (h : s.presentWork = some o) : OutCanon s o := by
  unfold State.presentWork at h
  split at h
  · cases h
    exact outCanon_next (kept_outWrite s _).canon
  · split at h
    · cases h
      exact (outCanon_exec _ _).of_canon (kept_withCur s _).canon
    · cases h
      exact outCanon_next (kept_outLand s _).canon
    · split at h
      · cases h
        exact (outCanon_exec _ _).of_canon (kept_withCur s _).canon
      · split at h
        · cases h
          exact outCanon_next id
        · cases h

theorem outCanon_idleStep (s : State) : OutCanon s (idleStep s) := by
  unfold idleStep
  extract_lets rest
  have hrest : OutCanon s (rest s) := by
    show OutCanon s (match s.presentWork with
      | some o => o
      | none => match s.clocked.find? fun c => decide ((s.at c).nextCyc ≤ s.time) with
        | some c => .next (startCycle s c)
        | none => .next s.pass)
    split
    · rename_i o h
      exact outCanon_presentWork s o h
    · split
      · exact outCanon_next (kept_startCycle s _).canon
      · exact outCanon_next (kept_pass s).canon
  split
  · exact outCanon_next (kept_withAgenda s _).canon
  · split
    · exact outCanon_next (kept_withAgenda s _).canon
    · split
      · split
        · extract_lets t
          have ht : Kept s t := Kept.of_eq rfl rfl rfl
          split
          · exact outCanon_next ht.canon
          · exact (outCanon_exec _ t).of_canon ht.canon
        · exact hrest
      · exact hrest

theorem outCanon_step (s : State) : OutCanon s (step s) := by
  unfold step
  split
  · exact (outCanon_doAct _ _).of_canon (kept_withAgenda s _).canon
  · exact outCanon_idleStep s

end Sys2Proof.Machine

namespace Sys2Proof.Claims
open Sys2Proof.Machine

/-- Settles O57: every operation of the machine on a memory keeps the canonical form (`Memory.wf_memWrite` and its kin), so
every instruction and event does (`outCanon_exec`), and every step (`outCanon_step`). -/
theorem stepKeepsCanon : Obligations.StepKeepsCanon := by
  unfold Obligations.StepKeepsCanon
  exact fun s t h hs => outCanon_step s t hs h

end Sys2Proof.Claims
end

section
/-! PROOFS (O43). A task that has not begun is withdrawn: what stands of its core then. -/

namespace Sys2Proof.Machine
open Sys2Proof.Claims

/-! Reports change no core, and not which core acts. -/

theorem report_cores (s : State) (p : Nat) (lid : W32) (st lvl phase tile core code ramp hdc lcc : Nat) :
    (s.report p lid st lvl phase tile core code ramp hdc lcc).cores = s.cores
    ∧ (s.report p lid st lvl phase tile core code ramp hdc lcc).cur = s.cur := by
  unfold State.report
  split
  · exact ⟨rfl, rfl⟩
  · split <;> exact ⟨rfl, rfl⟩

theorem reportTask_cores (s : State) (c : Nat) (st : TaskState) (code : Nat) :
    (s.reportTask c st code).cores = s.cores ∧ (s.reportTask c st code).cur = s.cur := by
  unfold State.reportTask
  dsimp only
  split
  · exact ⟨rfl, rfl⟩
  · exact report_cores _ _ _ _ _ _ _ _ _ _ _ _

theorem reportTop_cores (s : State) (p : Nat) (lid : W32) (st : TaskState) (lvl code : Nat) :
    (s.reportTop p lid st lvl code).cores = s.cores ∧ (s.reportTop p lid st lvl code).cur = s.cur := by
  unfold State.reportTop
  simp only [State.freeVal]
  split
  · exact ⟨rfl, rfl⟩
  · exact report_cores _ _ _ _ _ _ _ _ _ _ _ _

theorem settle_cores (s : State) (p : Nat) (lid : W32) : (s.settle p lid).cores = s.cores ∧ (s.settle p lid).cur = s.cur := by
  unfold State.settle
  split
  · exact ⟨rfl, rfl⟩
  · split
    · exact reportTop_cores _ _ _ _ _ _
    · exact ⟨rfl, rfl⟩

/-- The core whose act runs, in two states that agree on the cores and on which one acts. -/
theorem core_of_cores {s t : State} (h : t.cores = s.cores ∧ t.cur = s.cur) : t.core = s.core := by
  simp only [State.core, h.1, h.2]

/-! A gang of one. -/

/-- The gang of a core that is one alone is that core. -/
theorem members_alone {s : State} (h : Alone s) : s.members s.cur.val = [s.cur.val] := by
  obtain ⟨hsize, hbase⟩ := h
  simp [State.members, core_at, hsize, hbase]

/-- A gang of one is freed. -/
theorem freeGang_core {s : State} (h : Alone s) : (s.freeGang s.cur.val).core = s.core.freed s.cur.val := by
  unfold State.freeGang
  simp only [members_alone h, List.foldl_cons, List.foldl_nil]
  rw [← core_at, State.modAt_cur, at_modAt, if_pos ⟨rfl, s.cur.isLt⟩, ← core_at]
  rfl

/-- A task that is withdrawn while no load of it is under way leaves its core freed. -/
theorem withdraw_core {s : State} (h : Alone s) {t : Task} (ht : s.core.task = some t) (hst : s.core.hst ≠ 2) :
    (s.withdraw s.cur.val).core = s.core.freed s.cur.val := by
  unfold State.withdraw State.endTask
  simp only [core_at, ht, hst, if_false, if_true]
  rw [core_of_cores (settle_cores _ _ _)]
  split
  · exact freeGang_core h
  · have hr := reportTask_cores s s.cur.val .preempted 0
    have hk := core_of_cores hr
    have ha : Alone (s.reportTask s.cur.val .preempted 0) := by
      unfold Alone at h ⊢
      rwa [hk, hr.2]
    have hf := freeGang_core ha
    rwa [hr.2, hk] at hf

/-- Freeing a core empties the pair slots of its array (R165). -/
theorem freed_arr (k : Core) (c : Nat) : (k.freed c).arr = k.arr.emptySlots := by
  unfold Core.freed
  cases k.vltHeld <;> rfl

end Sys2Proof.Machine

namespace Sys2Proof.Claims
open Sys2Proof.Machine

/-- An array whose cell 0 holds one activation in its first pair slot. -/
def pairedArr : Arr :=
  { Arr.reset with cells := Arr.reset.cells.set 0 { Cell.reset with slots := [.act 3#5 [0#64], .empty, .empty, .empty] } }

/-- Emptying its slots changes that array. -/
theorem emptySlots_pairedArr : pairedArr.emptySlots ≠ pairedArr := by
  intro h
  have hs : (pairedArr.emptySlots.cells[0]).slots = (pairedArr.cells[0]).slots := by rw [h]
  simp [Arr.emptySlots, pairedArr] at hs

/-- A task that is loaded and has not reached T0. -/
def unbegunTask : Task :=
  { lid := 1#32, tile := 1#48, phase := 0, ctx := 0#16, part := 0, supv := false, strict := false, pinned := false, cor := true
    batch := true, lmg := 0x1000, spmg := 0x100, ret := 0, sgap := 100, res := [], t0 := false, rampNs := 0, rampFrom := 0
    granted := false, ran := false }

/-- Reset with that task on core 0, over the array with an operand in a pair slot. -/
def unbegun : State := State.reset.mod fun k => { k with arr := pairedArr, hst := 3, task := some unbegunTask }

theorem unbegun_core : unbegun.core = { State.reset.core with arr := pairedArr, hst := 3, task := some unbegunTask } :=
  State.mod_core _ _

/-- Its core is a gang of its own. -/
theorem alone_unbegun : Alone unbegun := by
  unfold Alone
  rw [unbegun_core]
  decide +kernel

/-- Refutes O43: its clause on a task that has not begun says that the array of the core stays as it is, but as a core is
freed its pair slots are emptied (R165). It speaks of every state, so of `unbegun` too, which holds an operand in a slot:
PREEMPT_REQUEST takes it. -/
theorem not_holdsAndRequests : ¬ Obligations.HoldsAndRequests := by
  unfold Obligations.HoldsAndRequests
  intro h
  obtain ⟨-, -, -, -, -, -, -, hwithdrawn, -⟩ := h unbegun
  have htask : unbegun.core.task = some unbegunTask := by rw [unbegun_core]
  have hexec : exec .preemptRequest unbegun = .next (unbegun.withdraw unbegun.cur.val) := by
    show execPreemptRequest unbegun = _
    unfold execPreemptRequest
    rw [htask]
    rfl
  obtain ⟨u, hu, -, harr⟩ := hwithdrawn unbegunTask htask rfl alone_unbegun
  obtain rfl : unbegun.withdraw unbegun.cur.val = u := Host.Outcome.next.inj (hexec.symm.trans hu)
  rw [withdraw_core alone_unbegun htask (by rw [unbegun_core]; decide), freed_arr, unbegun_core] at harr
  exact emptySlots_pairedArr harr

end Sys2Proof.Claims
end

section
/-! PROOFS (O18). The chunks of a copy: what one reads (R136, R138). -/

namespace Sys2Proof.Machine

/-! A chunk is due to be read. -/

theorem Route.rate_pos (r : Route) : 0 < r.rate := by cases r <;> decide

/-- A copy has a chunk left to read exactly while it has bytes left. -/
theorem Copy.next_lt_chunks (x : Copy) : x.next < x.chunks ↔ x.next * x.route.rate < x.len := by
  have hr := x.route.rate_pos
  unfold Copy.chunks
  rw [Nat.lt_iff_add_one_le, Nat.le_div_iff_mul_le hr, Nat.succ_mul]
  omega

/-- The only copy of the current core reads a chunk in this cycle. -/
structure ReadDue (s : State) (x : Copy) : Prop where
  only : s.core.ctx.copies = [x]
  left : x.next * x.route.rate < x.len
  due : x.issue + 1 + x.next = s.core.now

/-- That copy reads its chunk, unless the tag check stops or holds the gang. -/
theorem ReadDue.tryChunkRead_eq {s : State} {x : Copy} (h : ReadDue s x) :
    tryChunkRead s = tryAll s ((chunkCheck s x).1.toList.map fun k => (k, s)) (chunkCheck s x).2.1
      ((readChunk s x).1.modCtx fun y => { y with copies := [(readChunk s x).2] }) := by
  have hdue : x.readsAt s.core.now = true := by
    simp [Copy.readsAt, h.due, x.next_lt_chunks.2 h.left]
  unfold tryChunkRead
  simp only [h.only, hdue, List.filter_cons, List.filter_nil, if_true, List.map_cons, List.map_nil, List.foldl_cons, List.foldl_nil,
    List.nil_append, List.flatMap_cons, List.flatMap_nil, List.append_nil]
  cases hk : (chunkCheck s x).1 <;> simp [hk]

/-- Without a tag expected the chunk is read: its bytes join those that are to land. -/
theorem ReadDue.exec_unchecked {s : State} {x : Copy} (h : ReadDue s x) (hexp : x.exp = none) :
    exec .copyChunkRead s = .next ((s.copyRead x (x.next * x.route.rate) (x.chunkLen x.next)).2.modCtx fun y => { y with
      copies := [{ x with next := x.next + 1
                          pend := x.pend ++ [(x.next, (s.copyRead x (x.next * x.route.rate) (x.chunkLen x.next)).1)] }] }) := by
  have hcheck : ∀ u, chunkCheck u x = (none, [], []) := fun u => by simp [chunkCheck, hexp]
  show finish s (tryChunkRead s) = _
  rw [h.tryChunkRead_eq, hcheck]
  simp [tryAll, finish, readChunk, hcheck]

/-- A chunk within one granule not checked yet, whose tag is neither the one expected nor the error tag: a hold, or in strict
mode a schedule stop (R138). -/
theorem ReadDue.exec_mismatch {s : State} {x : Copy} (h : ReadDue s x) {c src : Nat} {u : Bool} {tag : W16} {g : Nat}
    (hsrc : x.src = .lm c src u) (hexp : x.exp = some tag) (hg : (src + x.next * x.route.rate) / 4096 = g)
    (hend : (src + x.next * x.route.rate + x.chunkLen x.next - 1) / 4096 = g) (hnew : g ∉ x.checked)
    (herr : (s.at c).tag u g ≠ 0xFFFF#16) (hne : (s.at c).tag u g ≠ tag) :
    (s.core.strict = false → exec .copyChunkRead s = .next (addHold s (.tag c u g tag 5 2)))
    ∧ (s.core.strict = true → exec .copyChunkRead s = .next (takeStop s
        { cls := .schedule, eng := 5, rank := 2, detail := g * 65536 + tag.toNat } [] false 0xFFFF#16 none)) := by
  have hgs : granules (src + x.next * x.route.rate) (x.chunkLen x.next) = [g] := by
    unfold granules
    rw [hg, hend, List.range_succ, List.drop_append_of_le_length (by simp)]
    simp
  have hcheck : chunkCheck s x = if s.core.strict then (some { cls := .schedule, eng := 5, rank := 2, detail := g * 65536 + tag.toNat }, [], [g])
      else (none, [.tag c u g tag 5 2], [g]) := by
    unfold chunkCheck
    simp only [hexp, hsrc, hgs]
    simp [tagCheck, hnew, herr, hne]
    split <;> rfl
  refine ⟨fun hs => ?_, fun hs => ?_⟩ <;> show finish s (tryChunkRead s) = _ <;> rw [h.tryChunkRead_eq, hcheck, hs]
  · rfl
  · simp [tryAll, bestTry, finish]

/-! What a chunk of global space reads. -/

/-- Two states differ in no core, no byte of home memory, no window and not in what addresses mean. -/
def HomesKept (s t : State) : Prop := t.cores = s.cores ∧ t.gmem = s.gmem ∧ t.idnPod = s.idnPod ∧ t.windows = s.windows

theorem HomesKept.trans {s t u : State} (h : HomesKept s t) (k : HomesKept t u) : HomesKept s u :=
  ⟨k.1.trans h.1, k.2.1.trans h.2.1, k.2.2.1.trans h.2.2.1, k.2.2.2.trans h.2.2.2⟩

theorem HomesKept.target {s t : State} (h : HomesKept s t) (pa : Nat) : t.target pa = s.target pa := by
  obtain ⟨-, -, hid, -⟩ := h
  unfold State.target State.moduleNo
  rw [hid]

theorem homesKept_mscTouch (s : State) (pa part : Nat) (ctx : W16) (wr : Bool) : HomesKept s (s.mscTouch pa part ctx wr) := by
  unfold State.mscTouch
  dsimp only
  split
  · split <;> exact ⟨rfl, rfl, rfl, rfl⟩
  · split <;> exact ⟨rfl, rfl, rfl, rfl⟩

/-- A request for a line outside decode space changes only what the memory-side caches hold. -/
theorem homesKept_homeTouch {s : State} {pa : Nat} (h : s.target pa ≠ .decode) (part : Nat) (ctx : W16) :
    HomesKept s (s.homeTouch part ctx pa) := by
  unfold State.homeTouch
  dsimp only
  split
  · exact absurd ‹_› h
  · exact homesKept_mscTouch s _ _ _ _

theorem homesKept_touchAll {ls : List Nat} {s : State} (h : ∀ ln ∈ ls, s.target (128 * ln) ≠ .decode) (part : Nat) (ctx : W16) :
    HomesKept s (ls.foldl (fun s ln => s.homeTouch part ctx (128 * ln)) s) := by
  induction ls generalizing s with
  | nil => exact ⟨rfl, rfl, rfl, rfl⟩
  | cons ln r ih =>
    have hfirst := homesKept_homeTouch (h ln List.mem_cons_self) part ctx
    exact hfirst.trans (ih fun l hl => by rw [hfirst.target]; exact h l (List.mem_cons_of_mem _ hl))

theorem localTarget_decode (pa : Nat) : localTarget pa = .decode ↔ 0x1E000000000 ≤ pa ∧ pa < 0x20000000000 := by
  unfold localTarget
  dsimp only
  have hother {t : Target} (ht : t ≠ .decode) (hout : ¬(0x1E000000000 ≤ pa ∧ pa < 0x20000000000)) :
      t = .decode ↔ 0x1E000000000 ≤ pa ∧ pa < 0x20000000000 := ⟨fun h => absurd h ht, fun h => absurd h hout⟩
  split
  · exact hother nofun (by omega)
  · split
    · split <;> exact hother nofun (by omega)
    · split
      · exact hother nofun (by omega)
      · split
        · exact hother nofun (by omega)
        · split
          · exact ⟨fun _ => ‹_›, fun _ => rfl⟩
          · exact hother nofun ‹_›

/-- Decode space is made of whole lines. -/
theorem target_line {s : State} {pa : Nat} (h : s.target (128 * (pa / 128)) = .decode) : s.target pa = .decode := by
  have hlocal : ∀ p, localTarget (128 * (p / 128)) = .decode → localTarget p = .decode := fun p hp => by
    rw [localTarget_decode] at hp ⊢
    omega
  have habove : 2 ^ 51 ≤ 128 * (pa / 128) ↔ 2 ^ 51 ≤ pa := by omega
  have hmodule : (128 * (pa / 128) - 2 ^ 51) / 2 ^ 41 = (pa - 2 ^ 51) / 2 ^ 41 := by omega
  have hoffset : (128 * (pa / 128) - 2 ^ 51) % 2 ^ 41 = 128 * ((pa - 2 ^ 51) % 2 ^ 41 / 128) := by omega
  unfold State.target at h ⊢
  simp only [habove, hmodule, hoffset] at h ⊢
  split
  · rename_i ha
    rw [if_pos ha] at h
    split
    · rename_i hm
      rw [if_pos hm] at h
      exact hlocal _ h
    · rename_i hm
      rw [if_neg hm] at h
      cases h
  · rename_i ha
    rw [if_neg ha] at h
    exact hlocal _ h

theorem mem_insNat {a b : Nat} {l : List Nat} (h : b ∈ insNat a l) : b = a ∨ b ∈ l := by
  induction l with
  | nil => simpa [insNat] using h
  | cons k r ih =>
    unfold insNat at h
    split at h
    · simpa using h
    · split at h
      · exact .inr h
      · rcases List.mem_cons.1 h with h | h
        · exact .inr (h ▸ List.mem_cons_self)
        · exact (ih h).imp_right (List.mem_cons_of_mem _)

/-- The lines of a list of addresses are lines of its addresses. -/
theorem mem_linesOf {ln : Nat} (pas : List Nat) {l : List Nat} (h : ln ∈ pas.foldl (fun r pa => insNat (pa / 128) r) l) :
    ln ∈ l ∨ ∃ pa ∈ pas, ln = pa / 128 := by
  induction pas generalizing l with
  | nil => exact .inl h
  | cons pa r ih =>
    rcases ih h with h | ⟨q, hq, rfl⟩
    · rcases mem_insNat h with rfl | h
      · exact .inr ⟨pa, List.mem_cons_self, rfl⟩
      · exact .inl h
    · exact .inr ⟨q, List.mem_cons_of_mem _ hq, rfl⟩

/-- A byte of HBM or of a vault. -/
def AtMemory (s : State) (pa : Nat) : Prop := s.target pa = .hbm ∨ ∃ c o, s.target pa = .vault c o

theorem AtMemory.not_decode {s : State} {pa : Nat} (h : AtMemory s pa) : s.target pa ≠ .decode := by
  rcases h with h | ⟨c, o, h⟩ <;> simp [h]

/-- No quad stands between a request and memory. -/
theorem AtMemory.gatedAt {s : State} {pa : Nat} (h : AtMemory s pa) : s.gatedAt pa = none := by
  unfold State.gatedAt
  rcases h with h | ⟨c, o, h⟩ <;> rw [h]

theorem AtMemory.gatedFor {s : State} {pa : Nat} (h : AtMemory s pa) (acc : List Nat) : s.gatedFor acc pa = none := by
  simp [State.gatedFor, h.gatedAt]

theorem AtMemory.answers {s : State} {pa : Nat} (h : AtMemory s pa) (acc : List Nat) (p : Nat) : s.noAnswerFor acc p pa = false := by
  have hpod : s.noAnswer p pa = false := by
    unfold State.noAnswer
    rw [h.gatedAt]
    rcases h with h | ⟨c, o, h⟩ <;> rw [h] <;> rfl
  simp [State.noAnswerFor, h.gatedFor, hpod]

theorem pieceAt_single {pa len o : Nat} (h : o < len) : pieceAt [(0, pa, len)] o = pa + o := by
  simp [pieceAt, h]

/-- Bytes of memory in one piece: each as it stands at its home, or all ones with its mark where its word is poisoned (R233). -/
theorem copyRead_memory {s : State} {x : Copy} {pa lo n : Nat} (hsrc : x.src = .phys [(0, pa, x.len)]) (hn : lo + n ≤ x.len)
    (hmem : ∀ i < x.len, AtMemory s (pa + i)) :
    (s.copyRead x lo n).1 = ((List.range n).map fun i => if s.poisoned (pa + lo + i) = true then (0xFF#8, true)
        else (s.homeByte (pa + lo + i), false))
    ∧ HomesKept s (s.copyRead x lo n).2 := by
  have hpiece : ∀ i < n, pieceAt [(0, pa, x.len)] (lo + i) = pa + (lo + i) := fun i hi => pieceAt_single (by omega)
  have hat : ∀ i < n, AtMemory s (pa + (lo + i)) := fun i hi => hmem _ (by omega)
  unfold State.copyRead
  rw [hsrc]
  refine ⟨List.map_congr_left fun i hi => ?_, ?_⟩
  · have hi := List.mem_range.1 hi
    simp only [State.copyByte, hsrc, hpiece i hi, (hat i hi).answers, Bool.false_or, Nat.add_assoc]
  · have hq : ((List.range n).map fun i => pieceAt [(0, pa, x.len)] (lo + i)).filterMap (fun pa => s.gatedFor x.acc pa) = [] := by
      rw [List.filterMap_eq_nil_iff]
      intro a ha
      obtain ⟨i, hi, rfl⟩ := List.mem_map.1 ha
      rw [hpiece i (List.mem_range.1 hi)]
      exact (hat i (List.mem_range.1 hi)).gatedFor _
    dsimp only
    rw [hq]
    refine homesKept_touchAll (fun ln hln => ?_) _ _
    rcases mem_linesOf _ hln with h | ⟨a, ha, rfl⟩
    · cases h
    · obtain ⟨i, hi, rfl⟩ := List.mem_map.1 ha
      intro hd
      rw [hpiece i (List.mem_range.1 hi)] at hd
      exact (hat i (List.mem_range.1 hi)).not_decode (target_line hd)

end Sys2Proof.Machine
end

section
/-! PROOFS (O18). The chunks of a copy: where one lands (R136, R137, R235). -/

namespace Sys2Proof.Machine
open Sys2Proof.Claims

/-! One core. -/

/-- A change of the core whose act runs, by its number. -/
theorem modAt_cur (s : State) (f : Core → Core) : s.modAt s.cur.val f = s.mod f := by
  rw [State.mod_eq_setAt, State.modAt, core_at]

/-- Which landings are discarded is not changed by what leaves the fence. -/
theorem discards_mod (s : State) (f : Core → Core) (h : (f s.core).fenced = s.core.fenced) (c : Nat) :
    (s.mod f).discards c = s.discards c := by
  have hf : ((s.mod f).at c).fenced = (s.at c).fenced := by
    rw [at_mod]
    split
    · rename_i e
      rw [e, core_at, h]
    · rfl
  unfold State.discards
  rw [hf]
  rfl

theorem fenced_lmWriteN (k : Core) (u : Bool) (a : Nat) (l : List Byte) : (k.lmWriteN u a l).fenced = k.fenced := by
  induction l generalizing k a with
  | nil => rfl
  | cons b r ih =>
    refine (ih _ _).trans ?_
    unfold Core.lmWrite
    split <;> split <;> rfl

theorem fenced_landBytes (k : Core) (u : Bool) (a : Nat) (l : List Byte) : (k.landBytes u a l).fenced = k.fenced := by
  refine Eq.trans ?_ (fenced_lmWriteN k u a l)
  unfold Core.landBytes Core.noteBytes
  split <;> rfl

theorem fenced_landTag (k : Core) (u : Bool) (g : Nat) (t : W16) : (k.landTag u g t).fenced = k.fenced := by
  unfold Core.landTag Core.noteTag Core.setTag
  split
  · rfl
  · split <;> rfl

/-- The written tag of a copy lands in granules of a core, if it writes one. -/
def Core.landTags (k : Core) (u : Bool) : Option W16 → List Nat → Core
  | none, _ => k
  | some t, gs => gs.foldl (fun k g => k.landTag u g t) k

/-- Tags land: bytes and context stand, other granules keep their tags, those named take the one written. -/
theorem landTags_frame (k : Core) (u : Bool) (w : Option W16) (gs : List Nat) :
    (k.landTags u w gs).ctx = k.ctx ∧ (∀ v a, (k.landTags u w gs).lmRead v a = k.lmRead v a)
    ∧ (∀ g, w = none ∨ g ∉ gs → ∀ v, (k.landTags u w gs).tag v g = k.tag v g)
    ∧ ∀ t, w = some t → ∀ g ∈ gs, g < 508 → (k.landTags u w gs).tag u g = t := by
  cases w with
  | none => exact ⟨rfl, fun _ _ => rfl, fun _ _ _ => rfl, fun _ h => nomatch h⟩
  | some t =>
    induction gs generalizing k with
    | nil => exact ⟨rfl, fun _ _ => rfl, fun _ _ _ => rfl, fun _ _ _ h => nomatch h⟩
    | cons x r ih =>
      obtain ⟨hctx, hread, hother, hset⟩ := ih (k.landTag u x t)
      obtain ⟨-, -, -, lctx, -, -, lread⟩ := landTag_frame k u x t
      refine ⟨hctx.trans lctx, fun v a => (hread v a).trans (lread v a), fun g hg v => ?_, fun t' ht g hg h508 => ?_⟩
      · obtain ⟨hx, hr⟩ : g ≠ x ∧ g ∉ r := by simpa using hg
        exact (hother g (.inr hr) v).trans ((tag_landTag k u x t v g).1 hx)
      · obtain rfl := Option.some.inj ht
        by_cases hr : g ∈ r
        · exact hset t rfl g hr h508
        · obtain rfl : g = x := by simpa [hr] using hg
          exact (hother g (.inr hr) u).trans ((tag_landTag k u g t u g).2 (by omega) (.inl h508))

/-! The granules whose tags a chunk sets. -/

/-- What is left of a list as its repeats are dropped. -/
theorem mem_noRepeats {α : Type} [BEq α] [LawfulBEq α] (a : α) (l r : List α) :
    a ∈ l.foldl (fun l g => if l.contains g then l else l ++ [g]) r ↔ a ∈ r ∨ a ∈ l := by
  induction l generalizing r with
  | nil => simp
  | cons x l ih =>
    rw [List.foldl_cons, ih]
    by_cases hx : x ∈ r
    · simp only [List.contains_iff_mem, hx, if_true, List.mem_cons]
      constructor
      · rintro (h | h)
        · exact .inl h
        · exact .inr (.inr h)
      · rintro (h | rfl | h)
        · exact .inl h
        · exact .inl hx
        · exact .inr h
    · simp [hx, or_assoc]

/-- The granules of a copy into LM that a chunk may leave for good are granules of its bytes, on the copy's core. -/
theorem mem_tagsDue {s : State} {x : Copy} {c a : Nat} {u : Bool} (hdst : x.dst = .lm c a u) {lo n : Nat} {q : Nat × Nat}
    (h : q ∈ s.tagsDue x lo n) : q.1 = c ∧ ∃ i < n, (a + (lo + i)) / 4096 = q.2 := by
  have hmem := (List.mem_filter.1 h).1
  rw [mem_noRepeats] at hmem
  obtain ⟨i, hi, hq⟩ := List.mem_filterMap.1 (hmem.resolve_left (List.not_mem_nil))
  simp only [State.granOf, hdst, Option.some.injEq] at hq
  subst hq
  exact ⟨rfl, i, List.mem_range.1 hi, rfl⟩

/-- The last chunk leaves all its granules for good. -/
theorem tagsDue_last {s : State} {x : Copy} {c a : Nat} {u : Bool} (hdst : x.dst = .lm c a u) {lo n i : Nat} (hend : x.len ≤ lo + n)
    (hi : i < n) : (c, (a + (lo + i)) / 4096) ∈ s.tagsDue x lo n := by
  refine List.mem_filter.2 ⟨?_, by rw [Nat.sub_eq_zero_of_le hend]; rfl⟩
  rw [mem_noRepeats]
  exact .inr (List.mem_filterMap.2 ⟨i, List.mem_range.2 hi, by simp [State.granOf, hdst]⟩)

/-- A chunk into global or core space outside LM names no granule. -/
theorem tagsDue_none {s : State} {x : Copy} {lo n : Nat} (h : ∀ o, s.granOf x o = none) : s.tagsDue x lo n = [] := by
  have hgranules : (List.range n).filterMap (fun i => s.granOf x (lo + i)) = [] :=
    List.filterMap_eq_nil_iff.2 fun i _ => h (lo + i)
  unfold State.tagsDue
  simp only [hgranules, List.foldl_nil, List.filter_nil]

/-- No byte of a chunk is poisoned: its copy has no granule in error that it had not before. -/
theorem copyLand_err {s : State} {w : Landing} {x : Copy} {lo : Nat} {b : List (Byte × Bool)} (hb : ∀ v ∈ b, v.2 = false) :
    (s.copyLand w x lo b).2 = x.err := by
  have hbad : (b.mapIdx fun i v => if v.2 then s.granOf x (lo + i) else none).filterMap id = [] := by
    rw [List.filterMap_eq_nil_iff]
    intro o ho
    obtain ⟨i, hi, rfl⟩ := List.mem_mapIdx.1 ho
    simp [hb _ (List.getElem_mem hi)]
  unfold State.copyLand
  simp only [hbad, List.foldl_nil]

/-! The landing of a chunk on its own core. -/

/-- A tag of a copy's own core lands there. -/
theorem copyTag_own {s : State} {x : Copy} (hcore : x.core = s.cur.val) (hkeep : s.discards s.cur.val = false) {w : Landing}
    (hrank : w.six = none) (u : Bool) (g : Nat) (t : W16) : s.copyTag w x u s.cur.val g t = s.mod fun k => k.landTag u g t := by
  unfold State.copyTag
  simp only [hkeep, hcore, hrank, bne_self_eq_false, Bool.and_false, Bool.or_false, Bool.false_eq_true, if_false, modAt_cur]

/-- A fold whose step changes nothing. -/
theorem foldl_unchanged {α β : Type} (l : List α) (b : β) : l.foldl (fun b _ => b) b = b := by
  induction l with
  | nil => rfl
  | cons _ _ ih => exact ih

/-- Its tags land there, after a change of the core. -/
theorem copyTags_own {s : State} {x : Copy} (hcore : x.core = s.cur.val) (hkeep : s.discards s.cur.val = false) {w : Landing}
    (hrank : w.six = none) (u : Bool) (t : W16) (due : List (Nat × Nat)) (hdue : ∀ q ∈ due, q.1 = s.cur.val) (f : Core → Core)
    (hf : (f s.core).fenced = s.core.fenced) :
    due.foldl (fun s q => s.copyTag w x u q.1 q.2 t) (s.mod f) = s.mod fun k => (f k).landTags u (some t) (due.map Prod.snd) := by
  induction due generalizing f with
  | nil => rfl
  | cons q r ih =>
    have hq : q.1 = (s.mod f).cur.val := hdue q List.mem_cons_self
    have hstep : (s.mod f).copyTag w x u q.1 q.2 t = s.mod fun k => (f k).landTag u q.2 t := by
      rw [hq, copyTag_own (s := s.mod f) hcore ((discards_mod s f hf _).trans hkeep) hrank, State.mod_mod]
    rw [List.foldl_cons, hstep]
    exact ih (fun q hq => hdue q (List.mem_cons_of_mem _ hq)) _ ((fenced_landTag _ _ _ _).trans hf)

/-- How the chunks of a gang of one land (R235 rank 5). -/
def State.ownLanding (s : State) : Landing := ⟨[s.cur.val].contains, true, none⟩

/-- Bytes and tags of a chunk that lands, without poison, in the LM of its own core. -/
theorem copyLand_lm {s : State} {x : Copy} (hcore : x.core = s.cur.val) (hkeep : s.discards s.cur.val = false) {a : Nat} {u : Bool}
    (hdst : x.dst = .lm s.cur.val a u) (herr : x.err = []) {lo : Nat} {b : List (Byte × Bool)} (hb : ∀ v ∈ b, v.2 = false) :
    (s.copyLand s.ownLanding x lo b).1 = s.mod fun k =>
      (k.landBytes u (a + lo) (b.map Prod.fst)).landTags u x.wtag ((s.tagsDue x lo b.length).map Prod.snd) := by
  have hown : ∀ q ∈ s.tagsDue x lo b.length, q.1 = s.cur.val := fun q hq => (mem_tagsDue hdst hq).1
  have hdue : ((s.tagsDue x lo b.length).filter fun q => s.ownLanding.lm q.1) = s.tagsDue x lo b.length :=
    List.filter_eq_self.2 fun q hq => by simp [State.ownLanding, hown q hq]
  have hwrite : s.copyWrite s.ownLanding x lo b = s.mod fun k => k.landBytes u (a + lo) (b.map Prod.fst) := by
    unfold State.copyWrite
    simp [hdst, State.ownLanding, hkeep, modAt_cur, Core.copyBytes]
  have hbad := (copyLand_err (s := s) (w := s.ownLanding) (x := x) (lo := lo) hb).trans herr
  unfold State.copyLand at hbad ⊢
  dsimp only at hbad ⊢
  simp only [hbad, hdst, hdue, hwrite, List.contains_nil, Bool.false_eq_true, if_false]
  cases hw : x.wtag with
  | none => exact foldl_unchanged _ _
  | some t =>
    exact copyTags_own hcore hkeep rfl u t _ hown (fun k => k.landBytes u (a + lo) (b.map Prod.fst)) (fenced_landBytes _ _ _ _)

/-- Bytes of a chunk that lands in the IMEM or the GCS of its core, where no tag is to be written (R139). -/
theorem copyLand_space {s : State} {x : Copy} (hcore : x.core = s.cur.val) (hkeep : s.discards s.cur.val = false) {a : Nat}
    (hwtag : x.wtag = none) (lo : Nat) (b : List (Byte × Bool)) :
    (x.dst = .imem a → a < 0x10000 → (s.copyLand s.ownLanding x lo b).1
      = s.mod fun k => { k with imem := memWriteN k.imem (a + lo) (b.map Prod.fst) })
    ∧ (x.dst = .gcs a → (s.copyLand s.ownLanding x lo b).1
      = s.mod fun k => { k with gcs := memWriteN k.gcs (a + lo) (b.map Prod.fst) }) := by
  refine ⟨fun hdst ha => ?_, fun hdst => ?_⟩
  · have hnone := tagsDue_none (s := s) (x := x) (lo := lo) (n := b.length) fun o => by simp [State.granOf, hdst]
    unfold State.copyLand
    simp [hnone, hdst, hwtag, State.copyWrite, hcore, hkeep, State.ownLanding, modAt_cur, show ¬ 0x10000 ≤ a by omega]
  · have hnone := tagsDue_none (s := s) (x := x) (lo := lo) (n := b.length) fun o => by simp [State.granOf, hdst]
    unfold State.copyLand
    simp [hnone, hdst, hwtag, State.copyWrite, hcore, hkeep, State.ownLanding, modAt_cur]

/-! A chunk is due to land. -/

/-- The only copy of a gang of one has one chunk on its way, which lands in this cycle. -/
structure LandDue (s : State) (x : Copy) (j : Nat) (b : List (Byte × Bool)) : Prop where
  alone : Alone s
  only : s.core.ctx.copies = [x]
  core : x.core = s.cur.val
  pend : x.pend = [(j, b)]
  due : x.issue + x.route.base + j = s.core.now

theorem LandDue.gangChunks {s : State} {x : Copy} {j : Nat} {b : List (Byte × Bool)} (h : LandDue s x j b) :
    gangChunks s = [(x, j)] := by
  have hdue : chunksDue s s.cur.val = [(x, j)] := by
    simp [chunksDue, core_at, h.only, h.pend, h.due]
  simp [Machine.gangChunks, members_alone h.alone, hdue, insLand]

/-- Late data hold the gang, or in strict mode stop it; else the chunk lands (R24). -/
theorem LandDue.exec_eq {s : State} {x : Copy} {j : Nat} {b : List (Byte × Bool)} (h : LandDue s x j b) :
    (s.time < x.arrive → s.core.strict = false → exec .copyChunkLand s = .next (addHold s (.lateCopy x.core x.id x.retrain)))
    ∧ (s.time < x.arrive → s.core.strict = true → exec .copyChunkLand s
        = .next (takeStop s (bareStop s 5 2 .schedule 0xFFFF) [] false 0xFFFF#16 none))
    ∧ (x.arrive ≤ s.time → exec .copyChunkLand s = .next (landChunk s (x, j))) := by
  refine ⟨fun hlate hs => ?_, fun hlate hs => ?_, fun hcome => ?_⟩ <;> show finish s (tryChunkLand s) = _ <;>
    unfold tryChunkLand <;> rw [h.gangChunks]
  · simp [hlate, hs, tryAll, finish]
  · simp [hlate, hs, tryAll, bestTry, finish]
  · have hnot : ¬ s.time < x.arrive := by omega
    cases hs : s.core.strict <;> simp [hnot, tryAll, finish]

/-- Only landings in global space are kept for the end of the cycle. -/
theorem later_local {s : State} {x : Copy} (h : ∀ l, x.dst ≠ .phys l) (lo : Nat) (b : List (Byte × Bool)) : s.later x lo b = s := by
  unfold State.later
  cases hx : x.dst with
  | phys l => exact absurd hx (h l)
  | lm c a u => rfl
  | imem a => rfl
  | gcs a => rfl

/-- The chunk lands at a destination outside global space: its bytes and tags, and the copy goes on without it. -/
theorem LandDue.landChunk_eq {s : State} {x : Copy} {j : Nat} {b : List (Byte × Bool)} (h : LandDue s x j b)
    (hb : ∀ v ∈ b, v.2 = false) (herr : x.err = []) (hdst : ∀ l, x.dst ≠ .phys l) {f : Core → Core}
    (hland : (s.copyLand s.ownLanding x (j * x.route.rate) b).1 = s.mod f) :
    landChunk s (x, j) = s.mod fun k => afterLand (f k) x j [] := by
  have hgang : s.members x.core = [s.cur.val] := by rw [h.core, members_alone h.alone]
  have hfind : (s.at x.core).ctx.copies.find? (fun y => y.id == x.id) = some x := by
    rw [h.core, core_at, h.only]
    simp
  have hpair := (copyLand_err (s := s) (w := s.ownLanding) (x := x) (lo := j * x.route.rate) hb).trans herr
  unfold landChunk
  simp only [hfind, Option.getD_some, h.pend, hgang, List.find?_cons, beq_self_eq_true, Option.map_some]
  change ((s.copyLand s.ownLanding x (j * x.route.rate) b).1.later { x with pend := [(j, b)], err := (s.copyLand s.ownLanding x _ b).2 } _ b).modAt _
    (fun c => afterLand c x j (s.copyLand s.ownLanding x (j * x.route.rate) b).2) = _
  rw [later_local (by exact hdst), hpair, hland, h.core]
  exact (modAt_cur (s.mod f) _).trans (State.mod_mod _ _ _)

/-- What is left of the copy. -/
theorem afterLand_copies {k : Core} {x : Copy} {j : Nat} {b : List (Byte × Bool)} (h : k.ctx.copies = [x]) (hp : x.pend = [(j, b)])
    (herr : x.err = []) : (afterLand k x j []).ctx.copies = if j + 1 = x.chunks then [] else [{ x with pend := [] }] := by
  unfold afterLand
  by_cases hj : j + 1 = x.chunks <;> simp [h, hp, herr, hj]

end Sys2Proof.Machine
end

section
/-! PROOFS (O18). The reads and landings of a copy's chunks together. -/

namespace Sys2Proof.Machine
open Sys2Proof.Claims

theorem HomesKept.bytes {s t : State} (h : HomesKept s t) : SameBytes s t := same_of_cores s t h.1 h.2.1 h.2.2.1 h.2.2.2

theorem same_trans {s t u : State} (h : SameBytes s t) (k : SameBytes t u) : SameBytes s u := by
  refine ⟨fun pa => (k.1 pa).trans (h.1 pa), fun c a => ?_⟩
  obtain ⟨h1, h2, h3, h4, h5, h6⟩ := h.2 c a
  obtain ⟨k1, k2, k3, k4, k5, k6⟩ := k.2 c a
  exact ⟨fun u => (k1 u).trans (h1 u), k2.trans h2, k3.trans h3, k4.trans h4, k5.trans h5, k6.trans h6⟩

/-- A chunk that lands in the core's LM: its bytes and the tags that are due stand there, and nothing else changes. -/
theorem LandDue.lands_lm {s : State} {x : Copy} {j : Nat} {b : List (Byte × Bool)} (h : LandDue s x j b) (hcanon : s.canon)
    (hkeep : s.discards s.cur.val = false) (hb : ∀ v ∈ b, v.2 = false) (herr : x.err = []) {a : Nat} {u : Bool}
    (hdst : x.dst = .lm s.cur.val a u) (hcome : x.arrive ≤ s.time) :
    let at_ := a + j * x.route.rate
    ∃ t, exec .copyChunkLand s = .next t ∧ t.core.ctx.copies = (if j + 1 = x.chunks then [] else [{ x with pend := [] }])
      ∧ (∀ i v, b[i]? = some v → at_ + i < 0x200000 → t.core.lmRead u (at_ + i) = v.1)
      ∧ (∀ k, (k < at_ ∨ at_ + b.length ≤ k) → ∀ u', t.core.lmRead u' k = s.core.lmRead u' k)
      ∧ (∀ g, (x.wtag = none ∨ ∀ i < b.length, (at_ + i) / 4096 ≠ g) → ∀ u', t.core.tag u' g = s.core.tag u' g)
      ∧ (∀ tag i, x.wtag = some tag → x.len ≤ j * x.route.rate + b.length → i < b.length → (at_ + i) / 4096 < 508 →
          t.core.tag u ((at_ + i) / 4096) = tag)
      ∧ (∀ c, c ≠ s.cur.val → t.at c = s.at c) ∧ t.gmem = s.gmem := by
  intro at_
  have hok : s.core.memOk := core_at s ▸ hcanon.2 s.cur.val
  obtain ⟨-, -, -, bctx, -, -, btag⟩ := landBytes_frame s.core u at_ (b.map Prod.fst)
  obtain ⟨tctx, tread, tother, tset⟩ := landTags_frame (s.core.landBytes u at_ (b.map Prod.fst)) u x.wtag
    ((s.tagsDue x (j * x.route.rate) b.length).map Prod.snd)
  refine ⟨_, (h.exec_eq.2.2 hcome).trans (congrArg _ (h.landChunk_eq hb herr (by simp [hdst]) (copyLand_lm h.core hkeep hdst herr hb))),
    ?_, fun i v hv hlt => ?_, fun k hk u' => ?_, fun g hg u' => ?_, fun tag i hw hend hi hg => ?_, fun c hc => ?_, rfl⟩
  · rw [State.mod_core]
    exact afterLand_copies (by rw [tctx, bctx, h.only]) h.pend herr
  · obtain ⟨hi, -⟩ := List.getElem?_eq_some_iff.1 hv
    rw [State.mod_core]
    refine (tread u _).trans ?_
    rw [lmRead_landBytes hok, if_pos ⟨by omega, by simpa using hi, hlt, rfl⟩]
    simp [hv]
  · rw [State.mod_core]
    refine (tread u' _).trans ?_
    rw [lmRead_landBytes hok, if_neg (by rw [List.length_map]; omega)]
  · rw [State.mod_core]
    refine (tother g (hg.imp_right fun hout hin => ?_) u').trans (btag u' g)
    obtain ⟨q, hq, rfl⟩ := List.mem_map.1 hin
    obtain ⟨-, i, hi, hgi⟩ := mem_tagsDue hdst hq
    exact hout i hi (by rw [← hgi, Nat.add_assoc])
  · rw [State.mod_core]
    exact tset tag hw _ (List.mem_map.2 ⟨_, tagsDue_last hdst hend hi, by rw [Nat.add_assoc]⟩) hg
  · rw [at_mod, if_neg hc]

/-- The bytes of a memory after a chunk was written into it. -/
theorem memRead_chunk {m : Mem} (hm : Memory.wf m = true) (a : Nat) (b : List (Byte × Bool)) :
    (∀ i v, b[i]? = some v → memRead (memWriteN m a (b.map Prod.fst)) (a + i) = v.1)
    ∧ ∀ k, (k < a ∨ a + b.length ≤ k) → memRead (memWriteN m a (b.map Prod.fst)) k = memRead m k := by
  refine ⟨fun i v hv => ?_, fun k hk => ?_⟩
  · obtain ⟨hi, -⟩ := List.getElem?_eq_some_iff.1 hv
    rw [memRead_memWriteN hm, if_pos ⟨by omega, by simpa using hi⟩]
    simp [hv]
  · rw [memRead_memWriteN hm, if_neg (by rw [List.length_map]; omega)]

/-- A chunk that lands in IMEM or GCS. -/
theorem LandDue.lands_space {s : State} {x : Copy} {j : Nat} {b : List (Byte × Bool)} (h : LandDue s x j b) (hcanon : s.canon)
    (hkeep : s.discards s.cur.val = false) (hb : ∀ v ∈ b, v.2 = false) (herr : x.err = []) (hcome : x.arrive ≤ s.time) {a : Nat}
    (hdst : x.dst = .imem a ∧ a < 0x10000 ∨ x.dst = .gcs a) (hwtag : x.wtag = none) :
    let at_ := a + j * x.route.rate
    let space (k : Core) : Mem := if x.dst = .gcs a then k.gcs else k.imem
    ∃ t, exec .copyChunkLand s = .next t ∧ t.core.ctx.copies = (if j + 1 = x.chunks then [] else [{ x with pend := [] }])
      ∧ ((∀ i v, b[i]? = some v → memRead (space t.core) (at_ + i) = v.1)
        ∧ ∀ k, (k < at_ ∨ at_ + b.length ≤ k) → memRead (space t.core) k = memRead (space s.core) k)
      ∧ t.core.lm = s.core.lm ∧ t.core.tags = s.core.tags ∧ t.gmem = s.gmem := by
  intro at_ space
  obtain ⟨-, himem, hgcs, -⟩ : s.core.memOk := core_at s ▸ hcanon.2 s.cur.val
  obtain ⟨limem, lgcs⟩ := copyLand_space (a := a) h.core hkeep hwtag (j * x.route.rate) b
  have hlands {f : Core → Core} (hl : (s.copyLand s.ownLanding x (j * x.route.rate) b).1 = s.mod f) :
      exec .copyChunkLand s = .next (s.mod fun k => afterLand (f k) x j []) := by
    refine (h.exec_eq.2.2 hcome).trans (congrArg _ (h.landChunk_eq hb herr (fun l hl => ?_) hl))
    rcases hdst with ⟨hd, -⟩ | hd <;> rw [hd] at hl <;> cases hl
  rcases hdst with ⟨hd, ha⟩ | hd
  · have hspace : ∀ k, space k = k.imem := fun k => if_neg (by rw [hd]; simp)
    refine ⟨_, hlands (limem hd ha), ?_, ?_, ?_⟩
    · rw [State.mod_core]
      exact afterLand_copies h.only h.pend herr
    · rw [hspace, hspace, State.mod_core]
      exact memRead_chunk himem at_ b
    · rw [State.mod_core]
      exact ⟨rfl, rfl, rfl⟩
  · have hspace : ∀ k, space k = k.gcs := fun k => if_pos hd
    refine ⟨_, hlands (lgcs hd), ?_, ?_, ?_⟩
    · rw [State.mod_core]
      exact afterLand_copies h.only h.pend herr
    · rw [hspace, hspace, State.mod_core]
      exact memRead_chunk hgcs at_ b
    · rw [State.mod_core]
      exact ⟨rfl, rfl, rfl⟩

end Sys2Proof.Machine

namespace Sys2Proof.Claims
open Sys2Proof.Machine

/-- The routes have the latencies and rates of the table of R136. -/
theorem routeTable_eq : ∀ x ∈ routeTable, x.1.base = x.2.1 ∧ x.1.rate = x.2.2 := by decide

/-- Settles O18: a chunk that is due is read by `ReadDue.exec_unchecked`, or found at the wrong tag by `ReadDue.exec_mismatch`;
one that is due to land is late by `LandDue.exec_eq`, or lands by `LandDue.lands_lm` and `LandDue.lands_space`. -/
theorem copyChunksMove : Obligations.CopyChunksMove := by
  unfold Obligations.CopyChunksMove
  refine ⟨routeTable_eq, fun s x honly hcore => ⟨fun hleft hissue => ?_, fun j b hcanon halone hkeep hpend hissue => ?_⟩⟩
  · have hdue : ReadDue s x := ⟨honly, hleft, hissue⟩
    refine ⟨fun c src u hsrc hexp => ?_, fun pa hsrc hexp hmem => ?_, fun c src u tag hsrc hexp => ?_⟩
    · have hread : s.copyRead x (x.next * x.route.rate) (x.chunkLen x.next) = ((List.range (x.chunkLen x.next)).map fun i =>
          ((s.at c).lmRead u (src + x.next * x.route.rate + i), false), s) := by
        simp [State.copyRead, State.copyByte, hsrc, Nat.add_assoc]
      have hexec := hdue.exec_unchecked hexp
      rw [hread] at hexec
      exact ⟨_, sameButCtx_mk s _ _ rfl rfl, hexec, by rw [State.modCtx_core]; rfl⟩
    · have hin : x.next * x.route.rate + x.chunkLen x.next ≤ x.len := by
        unfold Copy.chunkLen
        omega
      obtain ⟨hbytes, hhomes⟩ := copyRead_memory hsrc hin hmem
      have hexec := hdue.exec_unchecked hexp
      rw [hbytes] at hexec
      exact ⟨_, same_trans hhomes.bytes (same_modCtx _ _ rfl), hexec, by rw [State.modCtx_core]; rfl⟩
    · intro g hend hnew herr hne
      obtain ⟨hhold, hstop⟩ := hdue.exec_mismatch hsrc hexp rfl hend hnew herr hne
      exact ⟨hhold, fun hs => ⟨_, hstop hs, rfl, rfl⟩⟩
  · have hdue : LandDue s x j b := ⟨halone, honly, hcore, hpend, hissue⟩
    obtain ⟨hhold, hstop, -⟩ := hdue.exec_eq
    refine ⟨hhold, fun hlate hs => ⟨_, hstop hlate hs, rfl, rfl⟩, fun hcome hb herr => ⟨fun a u hdst => ?_, fun a hdst hwtag => ?_⟩⟩
    · exact hdue.lands_lm hcanon hkeep hb herr hdst hcome
    · exact hdue.lands_space hcanon hkeep hb herr hcome hdst hwtag

end Sys2Proof.Claims
end

section
/-! PROOFS (O60). Which numbers name a system register (R277), and what reset leaves (R361 step 6). -/

namespace Sys2Proof.Machine

/-! The parts of the machine after reset, those of a number beyond it among them. -/

@[simp] theorem State.reset_at (c : Nat) : State.reset.at c = Core.reset c := by
  unfold State.at
  split
  · exact Vector.getElem_ofFn _
  · rfl

@[simp] theorem State.reset_quad (q : Nat) : State.reset.quad q = Quad.reset := by
  unfold State.quad
  split
  · exact Vector.getElem_replicate _
  · rfl

@[simp] theorem State.reset_die (d : Nat) : State.reset.die d = ⟨[], 0#64, 0#64⟩ := by
  unfold State.die
  split
  · exact Vector.getElem_replicate _
  · rfl

@[simp] theorem State.reset_part (p : Nat) : State.reset.part p = Part.reset := by
  unfold State.part
  split
  · exact Vector.getElem_replicate _
  · rfl

@[simp] theorem State.reset_window (w : Nat) : State.reset.window w = ⟨0#64, 0#64, 0#64, 0#64, 0#64, 0#64⟩ := by
  unfold State.window
  split
  · exact Vector.getElem_replicate _
  · rfl

/-- No partition is enabled, so every core is of partition 0. -/
@[simp] theorem State.reset_partOf (c : Nat) : State.reset.partOf c = 0 := by
  have hnone : (List.range 16).find? (fun p => (State.reset.part p).en && (State.reset.part p).qmask.getLsbD (quadOf c)) = none := by
    simp [Part.reset]
  rw [State.partOf, hnone, Option.getD_none]

/-- No window is enabled. -/
@[simp] theorem State.reset_windowOf (pa : Nat) : State.reset.windowOf pa = none := by
  simp [State.windowOf]

/-! Which part of the machine a number of a system register names. -/

/-- The numbers of the registers of a core, the counters of its quad and die among them. -/
def coreRegs : List Nat :=
  [0x000, 0x001, 0x002, 0x003, 0x004, 0x005, 0x040, 0x041, 0x042, 0x100, 0x101, 0x102, 0x103, 0x104, 0x200, 0x201, 0x202, 0x203,
    0x204, 0x205, 0x206, 0x310, 0x320, 0x321, 0x322]

/-- The numbers of the registers of the module. -/
def moduleRegs : List Nat :=
  [0x300, 0x301, 0x302, 0x303, 0x304, 0x305, 0x306, 0x307, 0x308, 0x450, 0x451, 0x452, 0x472, 0x480, 0x481, 0x482, 0x490, 0x500]

/-- The numbers of the registers of the partitions. -/
def partRegs : List Nat := [0x400, 0x470, 0x471] ++ (List.range 48).map (0x410 + ·)

/-- The numbers of the registers of the format windows. -/
def windowRegs : List Nat := (List.range 16).flatMap fun w => (List.range 6).map fun k => 0x180 + 8 * w + k

/-- The numbers of the registers of the quad that QPC_SEL names. -/
def quadRegs : List Nat := (List.range 7).map (0x311 + ·)

/-- The numbers that name a system register (R277). -/
def sysRegs : List Nat := coreRegs ++ moduleRegs ++ partRegs ++ windowRegs ++ quadRegs

theorem mem_partRegs {n : Nat} : n ∈ partRegs ↔ n = 0x400 ∨ (0x410 ≤ n ∧ n < 0x440) ∨ n = 0x470 ∨ n = 0x471 := by
  simp only [partRegs, List.mem_append, List.mem_cons, List.not_mem_nil, or_false, List.mem_map, List.mem_range]
  constructor
  · rintro (h | ⟨k, hk, rfl⟩) <;> omega
  · rintro (h | ⟨hlo, hhi⟩ | h)
    · exact .inl (.inl h)
    · exact .inr ⟨n - 0x410, by omega, by omega⟩
    · exact .inl (.inr h)

theorem mem_windowRegs {n : Nat} : n ∈ windowRegs ↔ (0x180 ≤ n ∧ n < 0x200) ∧ (n - 0x180) % 8 < 6 := by
  simp only [windowRegs, List.mem_flatMap, List.mem_map, List.mem_range]
  constructor
  · rintro ⟨w, hw, k, hk, rfl⟩
    omega
  · rintro ⟨⟨hlo, hhi⟩, hk⟩
    exact ⟨(n - 0x180) / 8, by omega, (n - 0x180) % 8, hk, by omega⟩

theorem mem_quadRegs {n : Nat} : n ∈ quadRegs ↔ 0x311 ≤ n ∧ n ≤ 0x317 := by
  simp only [quadRegs, List.mem_map, List.mem_range]
  constructor
  · rintro ⟨k, hk, rfl⟩
    omega
  · rintro ⟨hlo, hhi⟩
    exact ⟨n - 0x311, by omega, by omega⟩

theorem coreRead_eq_none (s : State) (c : Nat) {n : Nat} (h : n ∉ coreRegs) : coreRead s c n = none := by
  unfold coreRead
  split
  case h_26 => rfl
  all_goals exact absurd (by decide) h

theorem moduleRead_eq_none (s : State) {n : Nat} (h : n ∉ moduleRegs) : moduleRead s n = none := by
  unfold moduleRead
  split
  case h_19 => rfl
  all_goals exact absurd (by decide) h

theorem partRead_eq_none (s : State) (c : Nat) {n : Nat} (h : n ∉ partRegs) : partRead s c n = none := by
  rw [mem_partRegs] at h
  unfold partRead
  extract_lets
  repeat rw [if_neg (by omega)]

theorem Window.read_eq_none (x : Window) {k : Nat} (h : 6 ≤ k) : x.read k = none := by
  unfold Window.read
  split
  case h_7 => rfl
  all_goals exact absurd h (by decide)

section
variable {s : State} {c n : Nat}

/-- A register of a core is read there. -/
theorem sysRead_of_core {v : W64} (h : coreRead s c n = some v) : s.sysRead c n = some v := by
  simp [State.sysRead, h]

/-- A register of the module is read there, whichever core reads. -/
theorem sysRead_of_module {v : W64} (hc : n ∉ coreRegs) (h : moduleRead s n = some v) : s.sysRead c n = some v := by
  simp [State.sysRead, coreRead_eq_none s c hc, h]

/-- A register of a partition is read as the core that reads sees it. -/
theorem sysRead_of_part {v : W64} (hc : n ∉ coreRegs) (hm : n ∉ moduleRegs) (h : partRead s c n = some v) :
    s.sysRead c n = some v := by
  simp [State.sysRead, coreRead_eq_none s c hc, moduleRead_eq_none s hm, h]

/-- Any other number names a register of a window, or of the quad that QPC_SEL names, or none. -/
theorem sysRead_of_rest (hc : n ∉ coreRegs) (hm : n ∉ moduleRegs) (hp : n ∉ partRegs) :
    s.sysRead c n = if 0x180 ≤ n ∧ n < 0x200 then (s.window ((n - 0x180) / 8)).read ((n - 0x180) % 8)
      else if 0x311 ≤ n ∧ n ≤ 0x317 then some (((s.quad (s.at c).qpcSel.toNat).settleClock s.time).read (n - 0x310))
      else none := by
  simp [State.sysRead, coreRead_eq_none s c hc, moduleRead_eq_none s hm, partRead_eq_none s c hp]

end

/-- A number outside the list names no system register, in any state (R277). -/
theorem sysRead_eq_none (s : State) (c : Nat) {n : Nat} (h : n ∉ sysRegs) : s.sysRead c n = none := by
  simp only [sysRegs, List.mem_append, not_or, mem_windowRegs, mem_quadRegs] at h
  obtain ⟨⟨⟨⟨hcore, hmodule⟩, hpart⟩, hwindow⟩, hquad⟩ := h
  rw [sysRead_of_rest hcore hmodule hpart]
  by_cases hin : 0x180 ≤ n ∧ n < 0x200
  · rw [if_pos hin, Window.read_eq_none _ (by omega)]
  · rw [if_neg hin, if_neg hquad]

/-! The registers after reset. -/

/-- What the system register of a number reads after reset (QPC_SEL apart): the value listed for it, or zero. -/
def resetWord (n : Nat) : W64 := (Claims.resetValues.lookup n).getD 0#64

theorem State.reset_prvStatus (c : Nat) : State.reset.prvStatus c = 0#64 := by
  simp [State.prvStatus, Core.reset, Ctx.reset]

/-- A quad's clock begins at time 0: no cycle of it is to be counted. -/
theorem Quad.settleClock_reset : Quad.reset.settleClock State.reset.time = Quad.reset := by decide +kernel

/-- The fields of `Core.reset` that registers read do not depend on the number of the core, QPC_SEL apart. -/
theorem coreRead_reset (c : Nat) : ∀ n ∈ coreRegs, n ≠ 0x310 → coreRead State.reset c n = some (resetWord n) := by
  simp [coreRegs, coreRead, State.reset_prvStatus, Core.reset, Ctx.reset, Ctx.stickyWord, Core.preCtl, Quad.reset, resetWord,
    Claims.resetValues, List.lookup_cons]

/-- QPC_SEL names the core's own quad (R339). -/
theorem coreRead_reset_qpcSel {c : Nat} (hc : c < 192) : coreRead State.reset c 0x310 = some (BitVec.ofNat 64 (c / 4)) := by
  have hquad : c / 4 < 2 ^ 6 := by omega
  simp only [coreRead, State.reset_at, Core.reset]
  rw [BitVec.setWidth_ofNat_of_le_of_lt (by decide) hquad]

theorem moduleRead_reset : ∀ n ∈ moduleRegs, moduleRead State.reset n = some (resetWord n) := by decide +kernel

theorem partRead_reset (c : Nat) {n : Nat} (h : n ∈ partRegs) : partRead State.reset c n = some 0#64 := by
  have hcfg : Part.reset.cfg = 0#64 := by decide
  have hqmask : Part.reset.qmask.setWidth 64 = 0#64 := by decide
  have hrest : Part.reset.hbm = 0#64 ∧ Part.reset.ce = 0#64 ∧ Part.reset.ue = 0#64 := ⟨rfl, rfl, rfl⟩
  rw [mem_partRegs] at h
  simp only [partRead, State.reset_partOf, State.reset_part, hcfg, hqmask, hrest, ite_self]
  iterate 6 (split; · rfl)
  omega

theorem Window.read_reset : ∀ k < 6, Window.read ⟨0#64, 0#64, 0#64, 0#64, 0#64, 0#64⟩ k = some 0#64 := by decide

theorem Quad.read_reset : ∀ n ∈ quadRegs, Quad.reset.read (n - 0x310) = resetWord n := by decide

theorem resetWord_eq_zero : ∀ n ∈ partRegs ++ windowRegs, resetWord n = 0#64 := by decide +kernel

/-- Every system register but QPC_SEL reads its reset value, on every core. -/
theorem sysRead_reset (c : Nat) {n : Nat} (h : n ∈ sysRegs) (hsel : n ≠ 0x310) :
    State.reset.sysRead c n = some (resetWord n) := by
  by_cases hcore : n ∈ coreRegs
  · exact sysRead_of_core (coreRead_reset c n hcore hsel)
  by_cases hmodule : n ∈ moduleRegs
  · exact sysRead_of_module hcore (moduleRead_reset n hmodule)
  by_cases hpart : n ∈ partRegs
  · rw [resetWord_eq_zero n (List.mem_append_left _ hpart)]
    exact sysRead_of_part hcore hmodule (partRead_reset c hpart)
  rw [sysRead_of_rest hcore hmodule hpart]
  by_cases hwindow : n ∈ windowRegs
  · obtain ⟨hin, hk⟩ := mem_windowRegs.1 hwindow
    rw [if_pos hin, State.reset_window, Window.read_reset _ hk, resetWord_eq_zero n (List.mem_append_right _ hwindow)]
  · have hquad : n ∈ quadRegs := by simpa [sysRegs, hcore, hmodule, hpart, hwindow] using h
    have hin := mem_quadRegs.1 hquad
    rw [if_neg (by omega), if_pos hin, State.reset_quad, Quad.settleClock_reset, Quad.read_reset n hquad]

theorem sysRead_reset_qpcSel {c : Nat} (hc : c < 192) : State.reset.sysRead c 0x310 = some (BitVec.ofNat 64 (c / 4)) :=
  sysRead_of_core (coreRead_reset_qpcSel hc)

/-! The memories after reset. -/

theorem ctrByte_reset (c off : Nat) : ctrByte (Core.reset c) off = 0#8 := by
  unfold ctrByte Core.reset
  split <;> simp

theorem plainByte_reset (pa : Nat) : State.reset.plainByte pa = 0#8 := by
  unfold State.plainByte
  split
  case h_3 => simp [Core.windowGrant, Core.reset]
  case h_4 => rw [State.reset_at, ctrByte_reset]
  all_goals rfl

theorem homeByte_reset (pa : Nat) : State.reset.homeByte pa = 0#8 := by
  unfold State.homeByte
  split
  · rw [State.reset_windowOf]
  · exact plainByte_reset pa

theorem lmRead_reset (c : Nat) (u : Bool) (a : Nat) : (Core.reset c).lmRead u a = 0#8 := by
  unfold Core.lmRead
  split <;> rfl

theorem tag_reset (c : Nat) (u : Bool) (g : Nat) : (Core.reset c).tag u g = 0#16 := by
  unfold Core.tag
  split
  · simp only [List.getD_eq_getElem?_getD, Core.reset, List.getElem?_replicate]
    split <;> rfl
  · rfl

theorem State.reset_canon : State.reset.canon :=
  ⟨Memory.wf_nil, fun c => by rw [State.reset_at]; exact Core.memOk_reset c⟩

/-- The reset values of the governor's registers stand within the straps, and no change of LSG_CTL waits. -/
theorem State.reset_strapped : State.reset.gov.strapped :=
  ⟨by decide, by decide, by decide, by decide, by decide, by decide, by decide, fun _ hnext => nomatch hnext⟩

end Sys2Proof.Machine

namespace Sys2Proof.Claims
open Sys2Proof.Machine

/-! The reset columns of the register tables, against the numbers that name a register. -/

theorem resetValues_resetWord : ∀ p ∈ resetValues, p.1 ∈ sysRegs ∧ p.1 ≠ 0x310 ∧ resetWord p.1 = p.2 := by decide +kernel

theorem resetZeros_resetWord : ∀ n ∈ resetZeros, n ∈ sysRegs ∧ n ≠ 0x310 ∧ resetWord n = 0#64 := by decide +kernel

theorem sysRegs_listed : ∀ n ∈ sysRegs, n ∈ resetZeros ∨ n ∈ resetValues.map Prod.fst ∨ n = 0x310 := by decide +kernel

/-- Settles O60: the columns list exactly the numbers that name a register, each of which reads its reset value by
`sysRead_reset`; every byte at its home and in LM is zero by `homeByte_reset` and
`lmRead_reset`, every tag by `tag_reset`. -/
theorem resetAsStated : Obligations.ResetAsStated := by
  unfold Obligations.ResetAsStated
  refine ⟨fun c hc => ⟨fun p hp => ?_, sysRead_reset_qpcSel hc, fun n hn => ?_, fun n hzero hvalue hsel => ?_⟩, homeByte_reset,
    fun c _ a => ?_, fun p _ => ?_, rfl, fun x hx => ?_, State.reset_canon, State.reset_strapped⟩
  · obtain ⟨hreg, hsel, hword⟩ := resetValues_resetWord p hp
    rw [sysRead_reset c hreg hsel, hword]
  · obtain ⟨hreg, hsel, hword⟩ := resetZeros_resetWord n hn
    rw [sysRead_reset c hreg hsel, hword]
  · refine sysRead_eq_none _ c fun hreg => ?_
    exact (sysRegs_listed n hreg).elim hzero fun h => h.elim hvalue hsel
  · rw [State.reset_at]
    exact ⟨fun u => ⟨lmRead_reset c u a, tag_reset c u a⟩, rfl, rfl, rfl, rfl⟩
  · rw [State.reset_part]
    exact ⟨rfl, rfl, rfl⟩
  · rw [List.eq_of_mem_replicate hx]
    exact ⟨rfl, rfl⟩

end Sys2Proof.Claims
end

section
/-! PROOFS (O2). What the result words of the control processor compute (R99-R105, R121): the low 64 bits of exact values. -/

namespace Sys2Proof.Machine
open Sys2Proof.Claims

/-- The word d holds the low 64 bits of the exact value x (R100). -/
def LowBits (d : W64) (x : Int) : Prop := (d.toNat : Int) = x % 2 ^ 64

namespace LowBits

variable {a b d : W64} {x y : Int}

theorem of_toNat {n : Nat} (h : d.toNat = n) : LowBits d n := by
  have := d.isLt
  unfold LowBits
  omega

theorem of_toInt (h : d.toInt = x) : LowBits d x := by rw [← h]; exact (toInt_mod d).symm

theorem self : LowBits d d.toNat := of_toNat rfl

theorem ofNat (n : Nat) : LowBits (BitVec.ofNat 64 n) n := by simp [LowBits]

theorem add (ha : LowBits a x) (hb : LowBits b y) : LowBits (a + b) (x + y) := by
  unfold LowBits at *
  rw [BitVec.toNat_add]
  omega

theorem sub (ha : LowBits a x) (hb : LowBits b y) : LowBits (a - b) (x - y) := by
  have := b.isLt
  unfold LowBits at *
  rw [BitVec.toNat_sub]
  omega

theorem mul (ha : LowBits a x) (hb : LowBits b y) : LowBits (a * b) (x * y) := by
  unfold LowBits at *
  rw [BitVec.toNat_mul, Int.mul_emod, ← ha, ← hb]
  norm_cast

theorem shl (n : Nat) : LowBits (a <<< n) (a.toNat * 2 ^ n) := by
  unfold LowBits
  rw [BitVec.toNat_shiftLeft, Nat.shiftLeft_eq]
  norm_cast

theorem shr (n : Nat) : LowBits (a >>> n) (a.toNat / 2 ^ n) := by
  have h : (a >>> n).toNat = a.toNat / 2 ^ n := by rw [BitVec.toNat_ushiftRight, Nat.shiftRight_eq_div_pow]
  exact_mod_cast of_toNat h

theorem sar (n : Nat) : LowBits (a.sshiftRight n) (a.toInt / 2 ^ n) := by
  refine of_toInt ?_
  rw [BitVec.toInt_sshiftRight, Int.shiftRight_eq_div_pow]
  norm_cast

theorem min : LowBits (if a.slt b then a else b) (min a.toInt b.toInt) := by
  refine of_toInt ?_
  simp only [BitVec.slt_iff_toInt_lt]
  split <;> omega

theorem max : LowBits (if b.slt a then a else b) (max a.toInt b.toInt) := by
  refine of_toInt ?_
  simp only [BitVec.slt_iff_toInt_lt]
  split <;> omega

theorem append (h : BitVec 6) (v : BitVec 58) : LowBits (h ++ v) (h.toNat * 2 ^ 58 + v.toNat) := by
  have hval : (h ++ v).toNat = h.toNat * 2 ^ 58 + v.toNat := by
    rw [BitVec.toNat_append, ← Nat.shiftLeft_add_eq_or_of_lt v.isLt, Nat.shiftLeft_eq]
  exact_mod_cast of_toNat hval

theorem truth {c : Bool} {p : Prop} [Decidable p] (h : c = true ↔ p) : LowBits (truth c) (one p) :=
  toNat_one c p (by rw [← Bool.decide_coe c]; exact decide_eq_decide.2 h)

theorem sel (c : W64) : LowBits (if c = 0#64 then b else a) (if c.toNat ≠ 0 then a.toNat else b.toNat) := by
  have hzero : c = 0#64 ↔ c.toNat = 0 := by simp [BitVec.toNat_eq]
  by_cases h : c.toNat = 0
  · rw [if_pos (hzero.2 h), if_neg (not_not_intro h)]
    exact self
  · rw [if_neg (mt hzero.1 h), if_pos h]
    exact self

end LowBits

/-- An immediate keeps its value when extended by its sign (R102, R103). -/
theorem toInt_signExtend64 {n : Nat} (m : BitVec n) (h : n ≤ 64) : (m.signExtend 64).toInt = m.toInt :=
  BitVec.toInt_signExtend_of_le h

theorem toNat_signExtend64 {n : Nat} (m : BitVec n) (h : n ≤ 64) :
    (m.signExtend 64).toNat = (m.toInt % 2 ^ 64).toNat := by
  have := toInt_mod (m.signExtend 64)
  rw [toInt_signExtend64 m h] at this
  omega

/-- Each word that `cpResult` lists issues with one result in flight: the low 64 bits of the listed value, at the listed
latency. -/
theorem exec_of_cpResult {s : State} {w : Instr} {idle : BitVec 4} {lat : Nat} {v : Int}
    (h : cpResult s w = some (idle, lat, v)) : ∃ d, exec w s = .next (s.result idle lat d) ∧ LowBits d v := by
  cases w with
  | cpAdd => cases h; exact ⟨_, rfl, .add .self .self⟩
  | cpSub => cases h; exact ⟨_, rfl, .sub .self .self⟩
  | cpMul => cases h; exact ⟨_, rfl, .mul .self .self⟩
  | cpMulh => cases h; exact ⟨_, rfl, ofInt_toNat _⟩
  | cpAnd => cases h; exact ⟨_, rfl, .of_toNat (BitVec.toNat_and _ _)⟩
  | cpOr => cases h; exact ⟨_, rfl, .of_toNat (BitVec.toNat_or _ _)⟩
  | cpXor => cases h; exact ⟨_, rfl, .of_toNat (BitVec.toNat_xor _ _)⟩
  | cpAndn => cases h; exact ⟨_, rfl, .of_toNat (by rw [BitVec.toNat_and, BitVec.toNat_not])⟩
  | cpShl => cases h; exact ⟨_, rfl, .shl _⟩
  | cpShr => cases h; exact ⟨_, rfl, .shr _⟩
  | cpSar => cases h; exact ⟨_, rfl, .sar _⟩
  | cpMin => cases h; exact ⟨_, rfl, .min⟩
  | cpMax => cases h; exact ⟨_, rfl, .max⟩
  | cpAddi i a m => cases h; exact ⟨_, rfl, .add .self (.of_toInt (toInt_signExtend64 m (by decide)))⟩
  | cpAndi i a m => cases h; exact ⟨_, rfl, .of_toNat (by rw [BitVec.toNat_and, toNat_signExtend64 m (by decide)])⟩
  | cpOri i a m => cases h; exact ⟨_, rfl, .of_toNat (by rw [BitVec.toNat_or, toNat_signExtend64 m (by decide)])⟩
  | cpXori i a m => cases h; exact ⟨_, rfl, .of_toNat (by rw [BitVec.toNat_xor, toNat_signExtend64 m (by decide)])⟩
  | cpShli => cases h; exact ⟨_, rfl, .shl _⟩
  | cpShri => cases h; exact ⟨_, rfl, .shr _⟩
  | cpSari => cases h; exact ⟨_, rfl, .sar _⟩
  | cpLim i m => cases h; exact ⟨_, rfl, .of_toInt (toInt_signExtend64 m (by decide))⟩
  | cpLimx => cases h; exact ⟨_, rfl, .append _ _⟩
  | cpCeq => cases h; exact ⟨_, rfl, .truth (by rw [beq_iff_eq, BitVec.toNat_eq])⟩
  | cpCne => cases h; exact ⟨_, rfl, .truth (by rw [bne_iff_ne, Ne, BitVec.toNat_eq])⟩
  | cpClt => cases h; exact ⟨_, rfl, .truth BitVec.slt_iff_toInt_lt⟩
  | cpCle => cases h; exact ⟨_, rfl, .truth BitVec.sle_iff_toInt_le⟩
  | cpCltu => cases h; exact ⟨_, rfl, .truth BitVec.ult_iff_toNat_lt⟩
  | cpCleu => cases h; exact ⟨_, rfl, .truth BitVec.ule_iff_toNat_le⟩
  | cpCeqi i a m => cases h; exact ⟨_, rfl, .truth (by rw [beq_iff_eq, ← BitVec.toInt_inj, toInt_signExtend64 m (by decide)])⟩
  | cpClti i a m => cases h; exact ⟨_, rfl, .truth (by rw [BitVec.slt_iff_toInt_lt, toInt_signExtend64 m (by decide)])⟩
  | cpSel => cases h; exact ⟨_, rfl, .sel _⟩
  | cpRdlcc => cases h; exact ⟨_, rfl, .ofNat _⟩
  | cpRdwtc => cases h; exact ⟨_, rfl, .ofNat _⟩
  | cpRdhdc => cases h; exact ⟨_, rfl, .self⟩
  | cpRdflag => cases h; exact ⟨_, rfl, .of_toNat (BitVec.toNat_setWidth_of_le (by decide))⟩
  | _ => cases h

end Sys2Proof.Machine

namespace Sys2Proof.Claims
open Sys2Proof.Machine

/-- Settles O2: a listed word is a result in flight by `exec_of_cpResult`, which `CpStarted.mk'` says has started and
nothing else. -/
theorem cpResults : Obligations.CpResults := by
  unfold Obligations.CpResults
  intro s w idle lat v h
  obtain ⟨d, hexec, hlow⟩ := exec_of_cpResult h
  exact ⟨_, d, hexec, hlow, CpStarted.mk' s idle _⟩

end Sys2Proof.Claims
end

section
/-! PROOFS (O3). Words of the control processor that change their own context (R98, R106, R107, R121). -/

namespace Sys2Proof.Machine
open Sys2Proof.Claims

/-! Words whose meaning may be a stop. -/

/-- A word whose meaning comes to a state goes on in it. -/
theorem next_of_try {s u : State} {w : Instr} {t : Try} (hexec : exec w s = finish s t) (ht : t = .ok u) : exec w s = .next u := by
  subst ht
  exact hexec

/-- A word whose meaning is a stop for which R283 names the DETAIL takes that stop at its issue. -/
theorem stops_of_try {s : State} {w : Instr} {t : Try} {e : Nat} {cls : StopClass} {d : Nat} (hexec : exec w s = finish s t)
    (ht : t = .stop (issueStop s e cls d)) : StopsAtIssue s w e cls (some d) := by
  subst ht
  exact stops_mk s w e cls d _ rfl hexec

/-! Words that change their own context. -/

/-- The CP word at the head leaves its queue where its effect keeps the queues. -/
theorem popped_issued (s : State) (i : BitVec 4) {f : Ctx → Ctx} (hq : ∀ x, (f x).qs = x.qs) :
    Popped s ((s.issued 0 1 i).modCtx f) 0 1 i := by
  rw [issued_ctx]
  simp [Popped, hq, Ctx.issue, Ctx.setQ]

theorem modCtx_modCtx (s : State) (f g : Ctx → Ctx) : (s.modCtx f).modCtx g = s.modCtx fun x => g (f x) := by
  rw [State.modCtx_eq s, State.mod_modCtx]
  rfl

theorem modCtx_of_ctx (s : State) {f : Ctx → Ctx} (h : f s.core.ctx = s.core.ctx) : s.modCtx f = s :=
  State.mod_of_core s _ (by simp only [h])

/-- The rest of the context stands where g undoes the word's effect, whatever the context. -/
theorem sameButCtx_issued (s : State) (i : BitVec 4) {f : Ctx → Ctx} {g : Ctx → Ctx → Ctx}
    (h : ∀ (x : Ctx) now, g x (f (x.issue now 0 1 i.toNat)) = x) (hm : ∀ x, (f x).spm = x.spm) :
    SameButCtx s ((s.issued 0 1 i).modCtx f) g := by
  rw [issued_ctx]
  exact sameButCtx_mk s _ g (h _ _) (hm _)

/-- `cp.put` (R98, R106). -/
theorem exec_cpPut (s : State) (i n : BitVec 4) (a : BitVec 5) :
    exec (.cpPut i n a) s = .next ((s.issued 0 1 i).modCtx fun x => { x with n := x.n.set n.toNat (s.src a) }) := rfl

/-- `cp.clrflag` (R61, R121). -/
theorem exec_cpClrflag (s : State) (i : BitVec 4) (m : Byte) :
    exec (.cpClrflag i m) s = .next ((s.issued 0 1 i).modCtx fun x => x.clearFlags m) := rfl

theorem getLsbD_clearFlags (x : Ctx) (m : Byte) (k : Nat) :
    (x.clearFlags m).sticky.getLsbD k = (x.sticky.getLsbD k && !m.getLsbD k) := by
  by_cases hk : k < 8
  · simp [Ctx.clearFlags, hk]
  · simp [Ctx.clearFlags, hk, BitVec.getLsbD_of_ge x.sticky k (by omega)]

/-- The eight bytes of a slot take the word spilled (R107). -/
def Ctx.spill (x : Ctx) (k : BitVec 9) (v : W64) : Ctx :=
  { x with spm := memWriteN x.spm (8 * k.toNat) (natLe 8 v.toNat) }

/-- What a slot holds (R107). -/
def Ctx.slot (x : Ctx) (k : BitVec 9) : W64 := BitVec.ofNat 64 (leNat (memReadN x.spm (8 * k.toNat) 8))

section
variable {s : State} {k : BitVec 9} (i : BitVec 4)

theorem trySpill_ok (a : BitVec 5) (h : 8 * k.toNat + 8 ≤ s.core.spmGrant) :
    trySpill i a k s = .ok ((s.issued 0 1 i).modCtx fun x => x.spill k (s.src a)) :=
  if_neg (by simpa [slotOut] using h)

theorem tryFill_ok (h : 8 * k.toNat + 8 ≤ s.core.spmGrant) : tryFill i k s = .ok (s.result i 1 (s.core.ctx.slot k)) :=
  if_neg (by simpa [slotOut] using h)

/-- A slot beyond the grant is a bounds fault of either word (R107, R122). -/
theorem slot_stops (a : BitVec 5) (h : s.core.spmGrant < 8 * k.toNat + 8) :
    StopsAtIssue s (.cpSpill i a k) 0 .bounds (some (8 * k.toNat))
    ∧ StopsAtIssue s (.cpFill i k) 0 .bounds (some (8 * k.toNat)) := by
  have hout : slotOut s k = true := by simpa [slotOut] using h
  exact ⟨stops_of_try (t := trySpill i a k s) rfl (if_pos hout), stops_of_try (t := tryFill i k s) rfl (if_pos hout)⟩

end

/-- Byte j of a slot after a spill. -/
theorem memRead_spill_in {x : Ctx} (h : Memory.wf x.spm = true) (k : BitVec 9) (v : W64) {j : Nat} (hj : j < 8) :
    (memRead (x.spill k v).spm (8 * k.toNat + j)).toNat = v.toNat / 256 ^ j % 256 := by
  unfold Ctx.spill
  rw [memRead_memWriteN h, natLe_length, if_pos (by omega), Nat.add_sub_cancel_left, List.getD_eq_getElem?_getD,
    natLe_getElem? _ _ _ hj]
  simp

/-- A byte of no part of the slot. -/
theorem memRead_spill_out {x : Ctx} (h : Memory.wf x.spm = true) (k : BitVec 9) (v : W64) {j : Nat}
    (hj : j < 8 * k.toNat ∨ 8 * k.toNat + 8 ≤ j) : memRead (x.spill k v).spm j = memRead x.spm j := by
  unfold Ctx.spill
  rw [memRead_memWriteN h, natLe_length, if_neg (by omega)]

/-- With its queues and SPM put back, the context is what it was before the spill. -/
theorem spill_undo (x : Ctx) (now : Nat) (i : BitVec 4) (k : BitVec 9) (v : W64) :
    { (x.issue now 0 1 i.toNat).spill k v with qs := x.qs, spm := x.spm } = x := rfl

/-- Byte j of the value that a fill takes. -/
theorem slot_byte (x : Ctx) (k : BitVec 9) {j : Nat} (hj : j < 8) :
    (x.slot k).toNat / 256 ^ j % 256 = (memRead x.spm (8 * k.toNat + j)).toNat := by
  unfold Ctx.slot
  rw [le64 _ j (by simp [memReadN]) hj]
  simp [memReadN, List.getD_eq_getElem?_getD, hj]

end Sys2Proof.Machine

namespace Sys2Proof.Claims
open Sys2Proof.Machine

/-- Settles O3: each word by its own equation; its frame is `sameButCtx_issued`, and SPM
is read after a spill by `memRead_spill_in` and `memRead_spill_out`. -/
theorem cpPutSpillFillClear : Obligations.CpPutSpillFillClear := by
  unfold Obligations.CpPutSpillFillClear
  refine ⟨fun s idle k a => ?_, fun s idle m => ?_, fun s idle a k hcanon hin => ?_, fun s idle k hin => ?_,
    fun s idle a k hout => slot_stops idle a hout⟩
  · refine ⟨_, exec_cpPut s idle k a, popped_issued s idle fun _ => rfl, ?_, sameButCtx_issued s idle (fun _ _ => rfl) fun _ => rfl⟩
    rw [issued_ctx, State.modCtx_core]
    rfl
  · refine ⟨_, exec_cpClrflag s idle m, popped_issued s idle fun _ => rfl, fun j => ?_,
      sameButCtx_issued s idle (fun _ _ => rfl) fun _ => rfl⟩
    rw [issued_ctx, State.modCtx_core]
    exact getLsbD_clearFlags _ m j
  · have hwf : Memory.wf s.core.ctx.spm = true := by
      obtain ⟨-, -, -, -, -, hspm⟩ := hcanon.2 s.cur.val
      rwa [core_at] at hspm
    refine ⟨_, next_of_try rfl (trySpill_ok idle a hin), popped_issued s idle fun _ => rfl, fun j hj => ?_, fun j hj => ?_, ?_, ?_⟩
    · rw [issued_ctx, State.modCtx_core]
      exact memRead_spill_in hwf k _ hj
    · rw [issued_ctx, State.modCtx_core]
      exact memRead_spill_out hwf k _ hj
    · rw [issued_ctx, modCtx_modCtx]
      exact same_modCtx s _ rfl
    · rw [issued_ctx, modCtx_modCtx]
      exact modCtx_of_ctx s (spill_undo _ _ idle k _)
  · exact ⟨_, _, next_of_try rfl (tryFill_ok idle hin), CpStarted.mk' s idle _, fun j hj => slot_byte _ k hj⟩

end Sys2Proof.Claims
end

section
/-! PROOFS (O4). Loads and stores of the control processor (R108-R110): a word that passes the checks, and one that does not. -/

namespace Sys2Proof.Machine
open Sys2Proof.Claims

/-- How a plain load extends what it reads (R109). -/
def loadExt (sgn : Bool) (size : Nat) : Nat → W64 := if sgn then sext (8 * size) else zext

theorem loadExt_val (sgn : Bool) {size v : Nat} (hpos : 0 < size) (hle : size ≤ 8) (hv : v < 256 ^ size) :
    ((loadExt sgn size v).toNat : Int) = (if sgn then signed size v else v) % 2 ^ 64 := by
  cases sgn with
  | false => exact zext_val size hle v hv
  | true => exact sext_val (8 * size) size rfl (by omega) hpos v hv

/-- Each word that `cpLoad` lists is one plain load: of 1, 2, 4 or 8 bytes, at the address listed, extended as listed. -/
theorem exec_of_cpLoad {s : State} {w : Instr} {idle : BitVec 4} {ea : Int} {size : Nat} {sgn : Bool}
    (h : cpLoad s w = some (idle, ea, size, sgn)) :
    (0 < size ∧ size ≤ 8) ∧ ∃ a off, ea = (s.src a).toNat + off
      ∧ exec w s = finish s (tryLoad idle a off size (loadExt sgn size) s) := by
  cases w with
  | cpLd8 i a m => cases h; exact ⟨by decide, a, m.toInt, rfl, rfl⟩
  | cpLd8s i a m => cases h; exact ⟨by decide, a, m.toInt, rfl, rfl⟩
  | cpLd16 i a m => cases h; exact ⟨by decide, a, m.toInt, rfl, rfl⟩
  | cpLd16s i a m => cases h; exact ⟨by decide, a, m.toInt, rfl, rfl⟩
  | cpLd32 i a m => cases h; exact ⟨by decide, a, m.toInt, rfl, rfl⟩
  | cpLd32s i a m => cases h; exact ⟨by decide, a, m.toInt, rfl, rfl⟩
  | cpLd64 i a m => cases h; exact ⟨by decide, a, m.toInt, rfl, rfl⟩
  | _ => cases h

/-- Each word that `cpStore` lists is one store of the size, address and data listed. -/
theorem exec_of_cpStore {s : State} {w : Instr} {idle : BitVec 4} {ea : Int} {size : Nat} {v : W64}
    (h : cpStore s w = some (idle, ea, size, v)) :
    ∃ a b off, ea = (s.src a).toNat + off * size ∧ v = s.src b ∧ exec w s = finish s (tryStore idle a b off size s) := by
  cases w with
  | cpSt8 i a b m => cases h; exact ⟨a, b, m.toInt, by simp, rfl, rfl⟩
  | cpSt16 i a b m => cases h; exact ⟨a, b, m.toInt, rfl, rfl, rfl⟩
  | cpSt32 i a b m => cases h; exact ⟨a, b, m.toInt, rfl, rfl, rfl⟩
  | cpSt64 i a b m => cases h; exact ⟨a, b, m.toInt, rfl, rfl, rfl⟩
  | _ => cases h

section
variable {s : State} {a b : BitVec 5} {size : Nat} {off : Int} {cls : StopClass} (i : BitVec 4)

/-- A load that fails the checks of R108 stops, the low 64 bits of its address as DETAIL. -/
theorem tryLoad_fault (ext : Nat → W64) (h : lmFault s ((s.src a).toNat + off) size = some cls) :
    tryLoad i a off size ext s = .stop (issueStop s 0 cls ((((s.src a).toNat : Int) + off) % 2 ^ 64).toNat) := by
  simp only [tryLoad, lmEa, access_fault h]

/-- So does a store. -/
theorem tryStore_fault (h : lmFault s ((s.src a).toNat + off * size) size = some cls) :
    tryStore i a b off size s = .stop (issueStop s 0 cls ((((s.src a).toNat : Int) + off * size) % 2 ^ 64).toNat) := by
  simp only [tryStore, lmEa, access_fault h]

/-- So does a tag-checked load, before it looks at the tag (R112). -/
theorem tryLdt64_fault {m : BitVec 8} (h : lmFault s ((s.src a).toNat + m.toInt * 8) 8 = some cls) :
    tryLdt64 i a b m s = .stop (issueStop s 0 cls ((((s.src a).toNat : Int) + m.toInt * 8) % 2 ^ 64).toNat) := by
  dsimp only [tryLdt64, lmEa]
  rw [access_fault h]

/-- A store that passes them puts its bytes in flight. -/
theorem tryStore_ok (h : LmOk s ((s.src a).toNat + off * size) size) :
    tryStore i a b off size s = .ok ((s.issued 0 1 i).eff
      { kind := .store, data := s.src b, addr := (((s.src a).toNat : Int) + off * size).toNat, size := size,
        due := s.core.now + 2, issue := s.core.now }) := by
  simp only [tryStore, lmEa, access_none h]

end

/-- The accesses that R108 checks: a listed load, a listed store, or `cp.ldt64`. -/
theorem cpAccess_cases {s : State} {w : Instr} {ea : Int} {size : Nat} (h : cpAccess s w = some (ea, size)) :
    (∃ idle sgn, cpLoad s w = some (idle, ea, size, sgn)) ∨ (∃ idle v, cpStore s w = some (idle, ea, size, v))
    ∨ ∃ idle a b m, w = .cpLdt64 idle a b m ∧ ea = (s.src a).toNat + m.toInt * 8 ∧ size = 8 := by
  unfold cpAccess at h
  split at h
  next idle ea' size' sgn hload =>
    cases h
    exact .inl ⟨idle, sgn, hload⟩
  next idle ea' size' v hstore _ =>
    cases h
    exact .inr (.inl ⟨idle, v, hstore⟩)
  next idle a b m _ _ =>
    cases h
    exact .inr (.inr ⟨idle, a, b, m, rfl, rfl, rfl⟩)
  next => cases h

end Sys2Proof.Machine

namespace Sys2Proof.Claims
open Sys2Proof.Machine

/-- Settles O4: a listed load or store is one load or store by `exec_of_cpLoad` and `exec_of_cpStore`; it goes on by `load_ok`
and `tryStore_ok`, and stops by `tryLoad_fault` and those after it. -/
theorem cpLoadsAndStores : Obligations.CpLoadsAndStores := by
  unfold Obligations.CpLoadsAndStores
  refine ⟨fun s w idle ea size sgn hload hok => ?_, fun s w idle ea size v hstore hok => ?_, fun s w ea size cls hacc hfault => ?_⟩
  · obtain ⟨⟨hpos, hle⟩, a, off, rfl, hexec⟩ := exec_of_cpLoad hload
    rw [hexec]
    exact load_ok s idle a off size _ _ hok (loadExt_val sgn hpos hle (lmNat_lt s _ size))
  · obtain ⟨a, b, off, rfl, rfl, hexec⟩ := exec_of_cpStore hstore
    exact ⟨_, next_of_try hexec (tryStore_ok idle hok), CpStarted.mk' s idle _⟩
  · obtain ⟨idle, sgn, hload⟩ | ⟨idle, v, hstore⟩ | ⟨idle, a, b, m, rfl, rfl, rfl⟩ := cpAccess_cases hacc
    · obtain ⟨-, a, off, rfl, hexec⟩ := exec_of_cpLoad hload
      exact stops_of_try hexec (tryLoad_fault idle _ hfault)
    · obtain ⟨a, b, off, rfl, -, hexec⟩ := exec_of_cpStore hstore
      exact stops_of_try hexec (tryStore_fault idle hfault)
    · exact stops_of_try rfl (tryLdt64_fault idle hfault)

end Sys2Proof.Claims
end

section
/-! PROOFS (O5). Tag-checked loads, tag accesses and neighbour accesses of the control processor (R112-R114). -/

namespace Sys2Proof.Machine
open Sys2Proof.Claims

/-! The tag-checked load. -/

section
variable {s : State} {a b : BitVec 5} {m : BitVec 8} {g : Nat} {want : W16} (i : BitVec 4)
  (hok : LmOk s ((s.src a).toNat + m.toInt * 8) 8) (hg : (((s.src a).toNat : Int) + m.toInt * 8).toNat / 4096 = g)
  (hw : (s.src b).setWidth 16 = want)
include hok hg hw

/-- Past the checks of R108 the tag g of the granule decides: an error tag, then another tag than the wanted one. -/
theorem tryLdt64_checked : tryLdt64 i a b m s =
    if s.core.tag s.core.ctx.sup g = 0xFFFF#16 then .stop (issueStop s 0 .memoryError (g * 65536 + want.toNat))
    else if s.core.tag s.core.ctx.sup g ≠ want then
      if (s.core.task.map Task.strict).getD false then .stop (issueStop s 0 .schedule (g * 65536 + want.toNat))
      else .hold (.tag s.cur.val s.core.ctx.sup g want 0 1) s
    else .ok (s.result i 4 (zext (lmNat s (((s.src a).toNat : Int) + m.toInt * 8).toNat 8))) := by
  subst hg hw
  dsimp only [tryLdt64, lmEa]
  rw [access_none hok, loadVal, lmNat_eq]

variable (herr : s.core.tag s.core.ctx.sup g ≠ 0xFFFF#16)
include herr

/-- At the wanted tag it reads as `cp.ld64` does. -/
theorem tryLdt64_match (htag : s.core.tag s.core.ctx.sup g = want) :
    tryLdt64 i a b m s = .ok (s.result i 4 (zext (lmNat s (((s.src a).toNat : Int) + m.toInt * 8).toNat 8))) := by
  rw [tryLdt64_checked i hok hg hw, if_neg herr, if_neg (not_not_intro htag)]

/-- At another tag it stops in strict mode. -/
theorem tryLdt64_strict (htag : s.core.tag s.core.ctx.sup g ≠ want) (hs : (s.core.task.map Task.strict).getD false = true) :
    tryLdt64 i a b m s = .stop (issueStop s 0 .schedule (g * 65536 + want.toNat)) := by
  rw [tryLdt64_checked i hok hg hw, if_neg herr, if_pos htag, if_pos hs]

/-- Out of strict mode it holds the gang until the granule has the tag. -/
theorem tryLdt64_hold (htag : s.core.tag s.core.ctx.sup g ≠ want) (hs : (s.core.task.map Task.strict).getD false = false) :
    tryLdt64 i a b m s = .hold (.tag s.cur.val s.core.ctx.sup g want 0 1) s := by
  rw [tryLdt64_checked i hok hg hw, if_neg herr, if_pos htag, hs, if_neg Bool.false_ne_true]

end

/-! Tag accesses. -/

section
variable {s : State} {a : BitVec 5}

theorem granuleStop_none (h : (s.src a).toNat / 4096 * 4096 < s.core.lmGrant) : granuleStop s (s.src a) = none :=
  if_neg (Nat.not_le.2 h)

theorem granuleStop_some (h : s.core.lmGrant ≤ (s.src a).toNat / 4096 * 4096) :
    granuleStop s (s.src a) = some (issueStop s 0 .bounds (s.src a).toNat) := if_pos h

theorem tryTagw_ok (i : BitVec 4) (b : BitVec 5) (h : (s.src a).toNat / 4096 * 4096 < s.core.lmGrant) :
    tryTagw i a b s = .ok ((s.issued 0 1 i).eff
      { kind := .tagw, data := s.src b &&& 0xFFFF#64, addr := (s.src a).toNat, due := s.core.now + 2, issue := s.core.now }) := by
  simp only [tryTagw, granuleStop_none h]

theorem tryTagr_ok (i : BitVec 4) (h : (s.src a).toNat / 4096 * 4096 < s.core.lmGrant) :
    tryTagr i a s = .ok (s.result i 4 ((s.core.tag s.core.ctx.sup ((s.src a).toNat / 4096)).setWidth 64)) := by
  simp only [tryTagr, granuleStop_none h]

/-- A granule that begins beyond the grant is a bounds fault of either. -/
theorem tagAccess_stops (i : BitVec 4) (b : BitVec 5) (h : s.core.lmGrant ≤ (s.src a).toNat / 4096 * 4096) :
    StopsAtIssue s (.cpTagw i a b) 0 .bounds (some (s.src a).toNat)
    ∧ StopsAtIssue s (.cpTagr i a) 0 .bounds (some (s.src a).toNat) := by
  refine ⟨stops_of_try (t := tryTagw i a b s) rfl ?_, stops_of_try (t := tryTagr i a s) rfl ?_⟩
  · simp only [tryTagw, granuleStop_some h]
  · simp only [tryTagr, granuleStop_some h]

end

/-! Neighbour accesses. -/

section
variable {s : State} {a : BitVec 5} {q : BitVec 2}

theorem neighbourStop_none (hq : q.toNat < s.core.gsize) (hok : LmOk s (s.src a).toNat 8) :
    neighbourStop s (s.src a) q = none := by
  rw [neighbourStop, if_neg (Nat.not_le.2 hq), lmEa, Int.add_zero, access_none hok]

/-- The gang index is checked first. -/
theorem neighbourStop_index (hq : s.core.gsize ≤ q.toNat) :
    neighbourStop s (s.src a) q = some (issueStop s 0 .bounds (s.src a).toNat) := if_pos hq

theorem neighbourStop_fault {cls : StopClass} (hq : q.toNat < s.core.gsize) (h : lmFault s (s.src a).toNat 8 = some cls) :
    neighbourStop s (s.src a) q = some (issueStop s 0 cls (s.src a).toNat) := by
  have hlt : (s.src a).toNat < 2 ^ 64 := (s.src a).isLt
  have hlow : (((s.src a).toNat : Int) % 2 ^ 64).toNat = (s.src a).toNat := by omega
  rw [neighbourStop, if_neg (Nat.not_le.2 hq), lmEa, Int.add_zero, access_fault h, hlow]

theorem tryNld64_ok (i : BitVec 4) (h : neighbourStop s (s.src a) q = none) :
    tryNld64 i a q s = .ok ((s.issued 0 1 i).eff
      { kind := .nload, data := 0#64, addr := (s.src a).toNat, q := q.toNat, due := s.core.now + 12, issue := s.core.now }) := by
  simp only [tryNld64, h]

theorem tryNst64_ok (i : BitVec 4) (b : BitVec 5) (h : neighbourStop s (s.src a) q = none) :
    tryNst64 i a b q s = .ok ((s.issued 0 1 i).eff
      { kind := .nstore, data := s.src b, addr := (s.src a).toNat, q := q.toNat, due := s.core.now + 6, issue := s.core.now }) := by
  simp only [tryNst64, h]

/-- What the checks find stops either access. -/
theorem neighbour_stops {cls : StopClass} {d : Nat} (i : BitVec 4) (b : BitVec 5)
    (h : neighbourStop s (s.src a) q = some (issueStop s 0 cls d)) :
    StopsAtIssue s (.cpNld64 i a q) 0 cls (some d) ∧ StopsAtIssue s (.cpNst64 i a b q) 0 cls (some d) := by
  refine ⟨stops_of_try (t := tryNld64 i a q s) rfl ?_, stops_of_try (t := tryNst64 i a b q s) rfl ?_⟩
  · simp only [tryNld64, h]
  · simp only [tryNst64, h]

end

end Sys2Proof.Machine

namespace Sys2Proof.Claims
open Sys2Proof.Machine

/-- Settles O5: `cp.ldt64` by `tryLdt64_match`, `tryLdt64_strict` and `tryLdt64_hold`; the tag accesses by the two cases of
`granuleStop`, the neighbour accesses by the three of `neighbourStop`. -/
theorem cpTagsAndNeighbours : Obligations.CpTagsAndNeighbours := by
  unfold Obligations.CpTagsAndNeighbours
  constructor
  · intro s idle a b m ea g want got strict hok
    refine ⟨fun htag herr => ?_, fun htag herr hs => ?_, fun htag herr hs => ?_⟩
    · exact ⟨_, zext (lmNat s ea.toNat 8), next_of_try rfl (tryLdt64_match idle hok rfl rfl herr htag), CpStarted.mk' s idle _,
        Nat.mod_eq_of_lt (lmNat_lt s ea.toNat 8)⟩
    · exact stops_of_try rfl (tryLdt64_strict idle hok rfl rfl herr htag hs)
    · exact congrArg (finish s) (tryLdt64_hold idle hok rfl rfl herr htag hs)
  · intro s idle a b q
    constructor
    · intro g
      refine ⟨fun hin => ⟨⟨_, next_of_try rfl (tryTagw_ok idle b hin), CpStarted.mk' s idle _⟩, ?_⟩,
        fun hout => tagAccess_stops idle b hout⟩
      exact ⟨_, _, next_of_try rfl (tryTagr_ok idle hin), CpStarted.mk' s idle _, BitVec.toNat_setWidth_of_le (by decide)⟩
    · intro ea
      refine ⟨fun hq hok => ?_, fun hq => neighbour_stops idle b (neighbourStop_index hq),
        fun hq cls hfault => neighbour_stops idle b (neighbourStop_fault hq hfault)⟩
      have hpass := neighbourStop_none hq hok
      exact ⟨⟨_, next_of_try rfl (tryNld64_ok idle hpass), CpStarted.mk' s idle _⟩,
        ⟨_, next_of_try rfl (tryNst64_ok idle b hpass), CpStarted.mk' s idle _⟩⟩

end Sys2Proof.Claims
end

section
/-! PROOFS (O6, O7). Branches, calls, returns and the loop (R116-R118, R120): what the splitter is told. -/

namespace Sys2Proof.Machine
open Sys2Proof.Claims

/-! Branches. -/

/-- A branch not taken goes on with the word after it (R116). -/
theorem branchIf_false (s : State) (i : BitVec 4) (l : BitVec 14) :
    s.branchIf i l false = s.transfer i (nextPos s.cpPos) false id := rfl

theorem branchIf_true (s : State) (i : BitVec 4) (l : BitVec 14) : s.branchIf i l true = s.branch i l.toNat := rfl

theorem exec_cpBz (s : State) (i k : BitVec 4) (l : BitVec 14) :
    exec (.cpBz i k l) s = .next (s.branchIf i l (s.core.ctx.rq.getD k.toNat 0#64 == 0#64)) := rfl

theorem exec_cpBnz (s : State) (i k : BitVec 4) (l : BitVec 14) :
    exec (.cpBnz i k l) s = .next (s.branchIf i l (s.core.ctx.rq.getD k.toNat 0#64 != 0#64)) := rfl

/-- The rest of the context stands where g undoes the transfer and f, whatever the context. -/
theorem sameButCtx_transfer (s : State) (i : BitVec 4) (p : Nat) (land : Bool) {f : Ctx → Ctx} {g : Ctx → Ctx → Ctx}
    (h : ∀ (x : Ctx) now, g x (f ((x.issue now 0 1 i.toNat).redirect now p land)) = x) (hm : ∀ x, (f x).spm = x.spm) :
    SameButCtx s (s.transfer i p land f) g :=
  same_transfer s i p land f g (h _ _) (hm _)

/-- The splitter goes to p and neither stack changes. -/
theorem transfer_goes (s : State) (i : BitVec 4) (p : Nat) (land : Bool) :
    Sent s (s.transfer i p land id) i p land ∧ SameButCtx s (s.transfer i p land id) fun x y => { y with qs := x.qs, spl := x.spl } :=
  ⟨sent_mk s i p land id (fun _ => rfl) (fun _ => rfl), sameButCtx_transfer s i p land (fun _ _ => rfl) fun _ => rfl⟩

theorem computedTarget_some {v : W64} (h : v.toNat < 2 ^ 14) : computedTarget v = some v.toNat := if_pos h

theorem computedTarget_none {v : W64} (h : 2 ^ 14 ≤ v.toNat) : computedTarget v = none := if_neg (Nat.not_lt.2 h)

/-- A meaning that is a control-flow fault stops the word at its issue (R122). -/
theorem flow_stops_of_try {s : State} {w : Instr} {t : Try} (hexec : exec w s = finish s t) (ht : t = .stop (flowStop s)) :
    StopsAtIssue s w 0 .controlFlow none := by
  subst ht
  exact flow_stop s w hexec

theorem tryBrx_ok {s : State} {a : BitVec 5} (i : BitVec 4) (h : (s.src a).toNat < 2 ^ 14) :
    tryBrx i a s = .ok (s.branch i (s.src a).toNat) := by
  simp only [tryBrx, computedTarget_some h]

/-- A computed target above bit 13 is a control-flow fault (R116, R117). -/
theorem target_stops {s : State} {a : BitVec 5} (i : BitVec 4) (h : 2 ^ 14 ≤ (s.src a).toNat) :
    StopsAtIssue s (.cpBrx i a) 0 .controlFlow none ∧ StopsAtIssue s (.cpCallx i a) 0 .controlFlow none := by
  refine ⟨flow_stops_of_try (t := tryBrx i a s) rfl ?_, flow_stops_of_try (t := tryCallx i a s) rfl ?_⟩
  · simp only [tryBrx, computedTarget_none h]
  · simp only [tryCallx, computedTarget_none h]

/-! Calls and returns. -/

theorem tryCallx_eq {s : State} {a : BitVec 5} (i : BitVec 4) (h : (s.src a).toNat < 2 ^ 14) :
    tryCallx i a s = tryCall i (s.src a).toNat s := by
  simp only [tryCallx, computedTarget_some h]

theorem tryCall_full {s : State} (i : BitVec 4) (p : Nat) (h : 8 ≤ s.core.ctx.ret.length) : tryCall i p s = .stop (flowStop s) :=
  if_pos h

/-- With eight entries a computed call stops, whatever its target. -/
theorem tryCallx_full {s : State} (i : BitVec 4) (a : BitVec 5) (h : 8 ≤ s.core.ctx.ret.length) :
    tryCallx i a s = .stop (flowStop s) := by
  unfold tryCallx
  split
  · exact tryCall_full i _ h
  · rfl

theorem tryRet_nil {s : State} (i : BitVec 4) (h : s.core.ctx.ret = []) : tryRet i s = .stop (flowStop s) := by
  simp only [tryRet, h]

theorem tryRet_cons {s : State} {p : Nat} {r : List Nat} (i : BitVec 4) (h : s.core.ctx.ret = p :: r) :
    tryRet i s = .ok (s.transfer i p true fun x => { x with ret := r }) := by
  simp only [tryRet, h]

theorem transfer_core_ctx (s : State) (i : BitVec 4) (p : Nat) (land : Bool) (f : Ctx → Ctx) :
    (s.transfer i p land f).core.ctx = f ((s.core.ctx.issue s.core.now 0 1 i.toNat).redirect s.core.now p land) := by
  unfold State.transfer
  rw [issued_ctx, State.modCtx_core]

/-! The loop. -/

/-- The position after a position is a word, and its count of words names it (R86). -/
theorem indexPos_posIndex_next (p : Nat) : indexPos (posIndex (nextPos p)) = nextPos p := indexPos_posIndex _ (nextPos_mod p)

section
variable {s : State} {a : BitVec 5} (i : BitVec 4) (d : BitVec 13) (p : Lit)

theorem tryLoop_full (h : 4 ≤ s.core.ctx.loops.length) : tryLoop i a d p s = .stop (flowStop s) := if_pos h

/-- A count of zero: the splitter skips the D words of the body. -/
theorem tryLoop_skip (h : s.core.ctx.loops.length < 4) (hn : (s.src a).toNat % 2 ^ 32 = 0) :
    tryLoop i a d p s = .ok (s.transfer i (wordsOn d.toNat (nextPos (nextPos s.cpPos))) true id) := by
  rw [← indexPos_posIndex_next, wordsOn_index]
  exact (if_neg (Nat.not_le.2 h)).trans (if_pos hn)

/-- Another count: a level whose body is D words long. -/
theorem tryLoop_push {d : BitVec 13} (h : s.core.ctx.loops.length < 4) (hn : 0 < (s.src a).toNat % 2 ^ 32) (hd : d ≠ 0#13) :
    tryLoop i a d p s = .ok (s.transfer i (nextPos (nextPos s.cpPos)) false fun x =>
      { x with loops := ⟨nextPos (nextPos s.cpPos), wordsOn (d.toNat - 1) (nextPos (nextPos s.cpPos)),
        (s.src a).toNat % 2 ^ 32, 0, p.toNat⟩ :: x.loops }) := by
  have hpos : 1 ≤ d.toNat := Nat.one_le_iff_ne_zero.2 fun hz => hd (BitVec.eq_of_toNat_eq hz)
  rw [← indexPos_posIndex_next, wordsOn_index, ← Nat.add_sub_assoc hpos]
  exact (if_neg (Nat.not_le.2 h)).trans (if_neg (Nat.pos_iff_ne_zero.1 hn))

end

end Sys2Proof.Machine

namespace Sys2Proof.Claims
open Sys2Proof.Machine

/-- Settles O6: what is sent where is `taken_mk`, `transfer_goes` and `call_ok`, and the stops are `target_stops`,
`tryCall_full`, `tryCallx_full` and `tryRet_nil`. -/
theorem cpTransfers : Obligations.CpTransfers := by
  unfold Obligations.CpTransfers
  constructor
  · intro s idle l k a zero next takes
    refine ⟨⟨_, rfl, taken_mk s idle l.toNat⟩, fun hz => ?_, fun hz => ?_,
      fun hin => ⟨_, next_of_try rfl (tryBrx_ok idle hin), taken_mk s idle _⟩, fun hout => target_stops idle hout⟩
    · have hb : (s.core.ctx.rq.getD k.toNat 0#64 == 0#64) = true := beq_iff_eq.2 hz
      exact ⟨⟨_, by rw [exec_cpBz, hb, branchIf_true], taken_mk s idle l.toNat⟩,
        ⟨s.transfer idle (nextPos s.cpPos) false id, by rw [exec_cpBnz, bne, hb, Bool.not_true, branchIf_false],
          transfer_goes s idle _ false⟩⟩
    · have hb : (s.core.ctx.rq.getD k.toNat 0#64 == 0#64) = false := beq_eq_false_iff_ne.2 hz
      exact ⟨⟨_, by rw [exec_cpBnz, bne, hb, Bool.not_false, branchIf_true], taken_mk s idle l.toNat⟩,
        ⟨s.transfer idle (nextPos s.cpPos) false id, by rw [exec_cpBz, hb, branchIf_false], transfer_goes s idle _ false⟩⟩
  · intro s idle l a calls
    refine ⟨fun hroom => ⟨call_ok s idle l.toNat hroom, fun hin => ?_⟩, fun hfull => ⟨?_, ?_⟩, fun p r hret => ?_,
      fun hret => flow_stops_of_try rfl (tryRet_nil idle hret)⟩
    · obtain ⟨t, hcall, hdone⟩ := call_ok s idle (s.src a).toNat hroom
      exact ⟨t, (congrArg (finish s) (tryCallx_eq idle hin)).trans hcall, hdone⟩
    · exact flow_stops_of_try rfl (tryCall_full idle _ hfull)
    · exact flow_stops_of_try rfl (tryCallx_full idle a hfull)
    · refine ⟨_, next_of_try rfl (tryRet_cons idle hret), sent_mk s idle p true _ (fun _ => rfl) (fun _ => rfl), ?_,
        sameButCtx_transfer s idle p true (fun _ _ => rfl) fun _ => rfl⟩
      rw [transfer_core_ctx]

/-- Settles O7: the three cases of `tryLoop`, in positions of words. -/
theorem cpLoop : Obligations.CpLoop := by
  unfold Obligations.CpLoop
  intro s idle a d p count first same
  refine ⟨fun hroom hn hd => ?_, fun hroom hn => ?_,
    fun hfull => flow_stops_of_try rfl (tryLoop_full idle d p hfull)⟩
  · refine ⟨_, next_of_try rfl (tryLoop_push idle p hroom hn hd), sent_mk s idle first false _ (fun _ => rfl) (fun _ => rfl), ?_,
      sameButCtx_transfer s idle first false (fun _ _ => rfl) fun _ => rfl⟩
    rw [transfer_core_ctx]
    rfl
  · refine ⟨_, next_of_try rfl (tryLoop_skip idle d p hroom hn), sent_mk s idle _ true id (fun _ => rfl) (fun _ => rfl), ?_,
      sameButCtx_transfer s idle _ true (fun _ _ => rfl) fun _ => rfl⟩
    rw [transfer_core_ctx]
    rfl

end Sys2Proof.Claims
end

section
/-! PROOFS (O8, O9). What the control processor put in flight arrives (R97, R110, R113, R114). -/

namespace Sys2Proof.Machine
open Sys2Proof.Claims

/-! Results and neighbour loads. -/

/-- CP_RESULT_DROP (R97). -/
theorem exec_cpResultDrop (s : State) : exec .cpResultDrop s = .next (s.modCtx fun x => x.dropDue s.core.now) := rfl

/-- What an effect becomes at the read of neighbour loads of a cycle, at the privilege u (R114). -/
def State.neighbourRead (s : State) (u : Bool) (e : CpEff) : CpEff :=
  if e.kind == .nload && e.due == s.core.now + 6 then
    { e with kind := .nread, data := BitVec.ofNat 64 (leNat ((s.at (s.core.gbase + e.q)).lmReadN u e.addr 8)) }
  else e

/-- NEIGHBOUR_LOAD_READ: the read acts on each effect by itself. -/
theorem exec_neighbourLoadRead (s : State) :
    exec .neighbourLoadRead s = .next (s.modCtx fun x => { x with effs := x.effs.map (s.neighbourRead x.sup) }) := rfl

theorem neighbourRead_other {s : State} {u : Bool} {e : CpEff} (h : ¬(e.kind = .nload ∧ e.due = s.core.now + 6)) :
    s.neighbourRead u e = e := if_neg (by simpa using h)

/-- A load whose read cycle this is takes the eight bytes of its target core. -/
theorem neighbourRead_due {s : State} {u : Bool} {e : CpEff} (hk : e.kind = .nload) (hd : e.due = s.core.now + 6) :
    s.neighbourRead u e = { e with kind := .nread, data := BitVec.ofNat 64 (leNat
      ((s.at (s.core.gbase + e.q)).lmReadN u e.addr 8)) } := if_pos (by simp [hk, hd])

/-- Byte j of eight bytes of LM as a word. -/
theorem lmReadN_byte (c : Core) (u : Bool) (a : Nat) {j : Nat} (hj : j < 8) :
    (BitVec.ofNat 64 (leNat (c.lmReadN u a 8))).toNat / 256 ^ j % 256 = (c.lmRead u (a + j)).toNat := by
  rw [le64 _ j (by simp [Core.lmReadN]) hj]
  simp [Core.lmReadN, List.getD_eq_getElem?_getD, hj]

/-! Stores and tag writes. -/

/-- The effects that land at the end of this cycle, in the order of issue. -/
def State.toLand (s : State) : List CpEff := s.core.ctx.effs.filter fun e => e.lands && e.due == s.core.now

/-- They leave the list of those in flight. -/
def State.landed (s : State) : State :=
  s.modCtx fun x => { x with effs := x.effs.filter fun e => !(e.lands && e.due == s.core.now) }

/-- CP_STORE_LAND: the effects due leave the list and land in the order of issue. -/
theorem exec_cpStoreLand (s : State) : exec .cpStoreLand s
    = .next (s.toLand.foldl (fun t e => landEff t t.cur.val s.core.ctx.sup e) s.landed) := rfl

theorem landed_effs (s : State) :
    s.landed.core.ctx.effs = s.core.ctx.effs.filter fun e => !(e.lands && e.due == s.core.now) := by
  unfold State.landed
  rw [State.modCtx_core]

/-- Taking effects off the list changes the list alone. -/
theorem landed_at (s : State) (c : Nat) :
    (∀ u a, (s.landed.at c).lmRead u a = (s.at c).lmRead u a) ∧ (∀ u g, (s.landed.at c).tag u g = (s.at c).tag u g)
    ∧ (s.landed.at c).imem = (s.at c).imem ∧ (s.landed.at c).gcs = (s.at c).gcs ∧ (s.landed.at c).simem = (s.at c).simem
    ∧ (s.landed.at c).ctx.spm = (s.at c).ctx.spm ∧ (s.landed.at c).ctx.rq = (s.at c).ctx.rq
    ∧ (s.landed.at c).ctx.n = (s.at c).ctx.n ∧ (s.landed.at c).slmTags = (s.at c).slmTags := by
  unfold State.landed
  rw [at_modCtx]
  split
  next h =>
    subst h
    rw [core_at]
    exact ⟨fun _ _ => rfl, fun _ _ => rfl, rfl, rfl, rfl, rfl, rfl, rfl, rfl⟩
  next => exact ⟨fun _ _ => rfl, fun _ _ => rfl, rfl, rfl, rfl, rfl, rfl, rfl, rfl⟩

theorem landed_memOk {s : State} (h : s.canon) (c : Nat) : (s.landed.at c).memOk := by
  unfold State.landed
  rw [at_modCtx]
  split
  · exact core_at s ▸ h.2 s.cur.val
  · exact h.2 c

theorem storesTo_landed (s : State) (e : CpEff) (c a : Nat) : StoresTo s.landed e c a ↔ StoresTo s e c a := by
  simp [StoresTo, State.landed]

end Sys2Proof.Machine

namespace Sys2Proof.Claims
open Sys2Proof.Machine

/-- Settles O8: the results due by `fold_take`, the neighbour loads effect by effect by `neighbourRead_other` and
`neighbourRead_due`. -/
theorem cpResultsArrive : Obligations.CpResultsArrive := by
  unfold Obligations.CpResultsArrive
  constructor
  · intro s due
    refine ⟨_, exec_cpResultDrop s, fun k hk => ?_, ?_, sameButCtx_mk s _ _ rfl rfl⟩
    · rw [State.modCtx_core]
      exact fold_take due s.core.ctx.rq k hk
    · rw [State.modCtx_core]
      rfl
  · intro s
    refine ⟨_, exec_neighbourLoadRead s, ?_, fun k e he => ?_, sameButCtx_mk s _ _ rfl rfl⟩
    · rw [State.modCtx_core, List.length_map]
    · refine ⟨s.neighbourRead s.core.ctx.sup e, by rw [State.modCtx_core, List.getElem?_map, he]; rfl, neighbourRead_other,
        fun hkind hdue => ?_⟩
      rw [neighbourRead_due hkind hdue]
      exact ⟨rfl, rfl, rfl, fun j hj => lmReadN_byte _ _ _ hj⟩

/-- Settles O9: `land_all` of the effects due, from the state in which they have left the list. -/
theorem cpStoresLand : Obligations.CpStoresLand := by
  unfold Obligations.CpStoresLand
  intro s hcanon isDue due sup
  obtain ⟨hcur, hgmem, -, hframe, hbytes, htags⟩ := land_all s.core.ctx.sup s.toLand s.landed (landed_memOk hcanon)
  refine ⟨_, exec_cpStoreLand s, ?_, fun c hc a => ?_, fun c hc g hg => ?_, hgmem, fun c => ?_⟩
  · obtain ⟨-, -, -, hctx, -, -⟩ := hframe s.landed.cur.val
    rw [← core_at, hcur, hctx, core_at]
    exact landed_effs s
  · obtain ⟨hkeep, htake⟩ := hbytes c hc a
    simp only [storesTo_landed] at hkeep htake
    obtain ⟨hlm, -⟩ := landed_at s c
    exact ⟨fun hnone u => (hkeep hnone u).trans (hlm u a), htake⟩
  · obtain ⟨hkeep, htake⟩ := htags c hc g hg
    obtain ⟨-, htag, -, -, -, -, -, -, hslm⟩ := landed_at s c
    rw [hslm] at htake
    exact ⟨fun hnone u => (hkeep hnone u).trans (htag u g), htake⟩
  · obtain ⟨himem, hgcs, hsimem, hctx, -, -⟩ := hframe c
    obtain ⟨-, -, himem', hgcs', hsimem', hspm, hrq, hn, -⟩ := landed_at s c
    exact ⟨himem.trans himem', hgcs.trans hgcs', hsimem.trans hsimem', (congrArg Ctx.spm hctx).trans hspm,
      (congrArg Ctx.rq hctx).trans hrq, (congrArg Ctx.n hctx).trans hn⟩

end Sys2Proof.Claims
end
